-- ==== Sys2Proof/Word.lean ====
section
/-! DEFINITION. The word types of the part: bytes and the 16-bit and 32-bit fields its records carry (12_record_formats.md). -/

namespace Sys2Proof

/-- One byte of a record or a frame. -/
abbrev Byte := BitVec 8

/-- A two-byte field, most significant byte first on the wire. -/
abbrev Half := BitVec 16

/-- A four-byte field, most significant byte first on the wire. -/
abbrev Word := BitVec 32

end Sys2Proof
end

