-- ==== Sys2Proof/Syntax.lean ====
section
/-! DEFINITION. The commands of the part, one constructor for each row of spec/opcode_table.json, in the table's order,
with the operand types. The table gives no operands: they are the model's (log 4), read from the rules that say what each
event or request carries. -/

namespace Sys2Proof

/-- The timebase of a pulse channel, µs per tick (R59). -/
inductive Timebase where
  | us1 | us8 | us64 | us512
  deriving DecidableEq, Repr

/-- The direction of a shaft (R64). -/
inductive Direction where
  | none | forward | reverse
  deriving DecidableEq, Repr

/-- The condition kinds in the order of their codes 1 to 21 (Table 12-5). -/
inductive CondKind where
  | flameFail | ignitionFail | mainFlameFail | purgeAirLost | airFlowLost | estop | feederStall | feederReverse
  | weigherSilent | heatShortfall | coolerLoss | grateStrokeTimeout | limitConflict | pressureHigh | pressureLow
  | loopLost | duplicateStation | configMismatch | noticeLoss | panelAbsent | inputLine
  deriving DecidableEq, Repr

/-- The cause kinds of a trip (Table 6-2). -/
inductive CauseKind where
  | flameFail | ignitionFail | mainFlameFail | purgeAirLost | airFlowLost | estop | coolerLoss | loopLost
  | tripRequest | mainBurnerLost
  deriving DecidableEq, Repr

/-- The condition kinds that a trip hold holds present (R103). -/
inductive HoldKind where
  | flameFail | ignitionFail | mainFlameFail | purgeAirLost | airFlowLost | coolerLoss
  deriving DecidableEq, Repr

/-- The cause of an active value change (R79). -/
inductive ChangeCause where
  | patternEnd | immediate | force
  deriving DecidableEq, Repr

/-- What a trip hands the Shift Report Unit: floor time, cause kind and first-out station, point and condition (R101, R177). -/
structure TripEntry where
  time : Word
  cause : CauseKind
  station : Option Nat
  point : Option Nat
  condition : Option CondKind
  deriving DecidableEq, Repr

/-- One count handed to the Shift Report Unit (R111, R134, R151, R170, R177). -/
inductive Contribution where
  | fuel (ch : Fin 2) (mass heat : Nat)
  | revolution (ch : Fin 2)
  | runningSecond (ch : Fin 2)
  | feedFault (ch : Fin 2)
  | firingSecond
  | burnerStart
  | trip (entry : TripEntry)
  | stroke (comp : Fin 4)
  | grateFault (comp : Fin 4)
  | fanSecond
  | raise
  | activeLength (length : Nat)
  | floodEpisode
  | noticeLost
  | ackTooLate
  | trainMissed
  | claimRound
  deriving DecidableEq, Repr

/-- The commands of the part, one for each row of spec/opcode_table.json. -/
inductive Instr where
  -- resets
  | powerOn
  | resetLineAssert
  | resetLineRelease
  -- the ring: frames carry the bytes after the frame type byte
  | trainArrival (body : List Byte)
  | frameOfUnknownType (frameType : Byte)
  | claimMarkArrival (body : List Byte)
  | breakMarkArrival (body : List Byte)
  | claimMarkSend
  | breakMarkSend
  | trainWatchExpiry
  | releaseTimerExpiry
  | claimLimitExpiry
  | loopGraceExpiry
  | noticeLossHoldExpiry
  -- plant inputs
  | pulsePinChange (ch : Fin 8) (level : Bool)
  | acceptedEdge (ch : Fin 8) (level : Bool)
  | captureOverflow (ch : Fin 8)
  | stillTimerExpiry (pair : Fin 4)
  | inputPinChange (line : Fin 12) (level : Bool)
  | lineChange (line : Fin 12)
  -- drive outputs
  | patternTimerExpiry (line : Fin 16)
  | carrierPeriodStart (line : Fin 16)
  | activePartEnd (line : Fin 16)
  | igniterPulseWidthExpiry
  | igniterSpacingExpiry
  | douForceStart
  | douForceEnd
  -- burner sequencer
  | burnerStart
  | burnerStop
  | lockoutReset
  | setHeatDemand (setpoint : Word)
  | bsqScannerCapture (scanner : Fin 2) (period width : Nat) (tb : Timebase)
  | bsqScannerNoSignal (scanner : Fin 2)
  | flameFailTimerExpiry
  | bsqAirFlowChange (active : Bool)
  | bsqIdFanChange (active : Bool)
  | bsqEstopChange (active : Bool)
  | bsqPurgeTimerExpiry
  | bsqIgnitionTimerExpiry
  | pilotTrialLimitExpiry
  | mainTrialLimitExpiry
  | postPurgeTimerExpiry
  | shortfallTimerExpiry
  | coolerLossTimerExpiry
  | tripHoldExpiry (kind : HoldKind)
  | firingSecondTimerExpiry
  | bsqFloorRefresh
  | bsqLeftUp
  | bsqLoopGraceExpiry
  | bsqPanelLapse
  -- feed controller
  | feedEnable (channel : Byte)
  | feedDisable (channel : Byte)
  | feedClearFault (channel : Byte)
  | calorificUpdate (channel : Byte) (cv : Half)
  | fdcFloorRefresh
  | fdcWeigherWindow (ch : Fin 2) (ticks count : Nat) (overflow : Bool) (tb : Timebase)
  | fdcWeigherNoSignal (ch : Fin 2)
  | fdcDirectionChange (ch : Fin 2) (direction : Direction) (position : Half)
  | fdcIndex (ch : Fin 2) (first : Bool) (counts : Nat)
  | fdcStill (ch : Fin 2) (position : Half)
  | fdcActiveValueChange (ch : Fin 2) (value : Nat) (cause : ChangeCause)
  | fdcEstopChange (active : Bool)
  | fdcLeftUp
  | fdcLoopGraceExpiry
  | fdcEnteredUp
  | runDownTimerExpiry (ch : Fin 2)
  | runningSecondTimerExpiry (ch : Fin 2)
  -- grate cooler
  | coolerEnable (compartment : Byte)
  | coolerDisable (compartment : Byte)
  | setStrokeBase (compartment : Byte) (rate : Half)
  | grateClearFault (compartment : Byte)
  | setFan (fan : Byte) (reference : Half)
  | dueTimeReached (comp : Fin 4)
  | gccEndForwardChange (comp : Fin 4) (active : Bool)
  | gccEndReturnChange (comp : Fin 4) (active : Bool)
  | forwardLimitExpiry (comp : Fin 4)
  | dwellExpiry (comp : Fin 4)
  | returnLimitExpiry (comp : Fin 4)
  | gccEstopChange (active : Bool)
  | gccPressureCapture (comp : Fin 4) (period width : Nat) (tb : Timebase)
  | gccPressureNoSignal (comp : Fin 4)
  | gccFloorRefresh
  | gccFanActiveValueChange (fan : Fin 4) (value : Nat) (cause : ChangeCause)
  | fanRunSecondTimerExpiry
  -- alarm unit
  | onDelayExpiry (point : Fin 32)
  | offDelayExpiry (point : Fin 32)
  | almPlaceFree
  | recentRaiseExpiry
  | almFloorRefresh
  | ackAlarm (station point occurrence : Byte)
  | shelve (point : Byte) (minutes : Half)
  | unshelve (point : Byte)
  | shelfExpiry (point : Fin 32)
  | readAlarms (page : Byte)
  | readMirror (page : Byte)
  -- shift report unit
  | secondTimerExpiry
  | notUpSecondTimerExpiry
  | sruContribution (c : Contribution)
  | sruFloorRefresh
  | sruLeftUp
  | sruEnteredUp
  | setFloorTime (time : Word)
  | readReport (age offset : Byte)
  -- panel port
  | selectAssert
  | selectRelease (bytesIn : List Byte)
  | configure (kind inst : Byte) (fields : List Byte)
  | start
  | service
  | serviceOpenPoint
  | servicePeriodExpiry
  | readEvents
  | readResetCause
  | readStatus (part : Byte)
  | readCounters
  | readFloor (station : Byte)
  | readBreak
  | readInput (selector : Byte)
  | readOutput (selector : Byte)
  deriving DecidableEq, Repr

end Sys2Proof
end

