-- ==== Sys2Proof/Config.lean ====
section
/-! DEFINITION. The durations the manual fixes for every part, and the free values: what the manual leaves open and the
part nevertheless does. A free value is an opaque constant, so nothing can be proved from a particular value of it. -/

namespace Sys2Proof.Config

/-- FREE VALUE (log 2). Which of several internal events, or of several expiries due together, the part takes first:
the manual gives no order between them (R68, R70). The argument is the number of such choices made before. -/
opaque pick : Nat → Nat

/-- FREE VALUE (log 20). What a four-byte field carries when the figure does not fit in it; no rule says.
The argument is the figure. -/
opaque wideField : Nat → Word

/-- Ticks of the 1 µs time base in one millisecond (00_scope.md, "Time base"). -/
def msTicks : Nat := 1000

/-- Ticks of the 1 µs time base in one second (00_scope.md, "Time base"). -/
def secondTicks : Nat := 1000000

/-- The interval of the claim and break mark send timers, 1 ms (R29, R36). -/
def markTicks : Nat := 1000

/-- The notice loss hold, 60 s (R49). -/
def noticeLossTicks : Nat := 60000000

/-- A trip hold, 65 s (R103). -/
def tripHoldTicks : Nat := 65000000

/-- The stay of an entry in the recent-raise list, 10 s (R166). -/
def recentRaiseTicks : Nat := 10000000

/-- The ticks of one capture counter span, 16,777,216 (R59). -/
def counterSpan : Nat := 16777216

/-- Seconds in a day (00_scope.md, "Floor time"). -/
def daySeconds : Nat := 86400

end Sys2Proof.Config
end

