-- ==== Sys2Proof/Machine/State.lean ====
section
/-! DEFINITION. The state of the station: every record the manual gives each block, the queue of commands, and reset. -/

namespace Sys2Proof.Machine

/-! ## The loop and the records it carries -/

/-- The seven loop states (R1). -/
inductive LoopState where
  | bypassed | joining | up | listenOnly | claiming | deferring | breakSearch
  deriving DecidableEq, Repr

/-- A burner letter (Table 12-5). -/
inductive BurnerLetter where
  | a | b
  deriving DecidableEq, Repr

/-- The seven sequencer states (R87). -/
inductive BsqState where
  | off | purge | pilotTrial | mainTrial | firing | postPurge | lockout
  deriving DecidableEq, Repr

/-- The feed channel states (R113). -/
inductive FeedState where
  | off | ready | running | held | fault
  deriving DecidableEq, Repr

/-- The cooler states (R148). -/
inductive CoolerState where
  | stopped | running | degraded | fault
  deriving DecidableEq, Repr

/-- The alarm point states (R154). -/
inductive AlarmState where
  | normal | raisedUnacked | raisedAcked | returnedUnacked
  deriving DecidableEq, Repr

/-- The alarm classes with NONE (Table 12-5). -/
inductive AlarmClass where
  | none | low | high | trip
  deriving DecidableEq, Repr

/-- A train head's fields (R3, R4). -/
structure Head where
  origin : Byte
  seq : Half
  time : Word
  shift : Half
  size : Byte
  sig : Half
  deriving DecidableEq, Repr

/-- The burner part of a station image (Table 12-2). -/
structure BurnerPart where
  letter : BurnerLetter
  state : BsqState
  demand : Word
  deriving DecidableEq, Repr

/-- One channel entry of a feed part (R116, Table 12-2). -/
structure FeedEntry where
  channel : Byte
  letter : BurnerLetter
  state : FeedState
  weight : Byte
  capacity : Word
  delivered : Word
  deriving DecidableEq, Repr

/-- The cooler part (R148, Table 12-2). -/
structure CoolerPart where
  state : CoolerState
  cycling : Byte
  throughput : Half
  deriving DecidableEq, Repr

/-- The alarm summary (R169, Table 12-2). -/
structure AlarmSummary where
  unacked : Byte
  highest : AlarmClass
  flood : Byte
  deriving DecidableEq, Repr

/-- The closing part (R178, Table 12-2). -/
structure ClosingPart where
  shift : Half
  heat : Word
  firing : Word
  strokes : Word
  trips : Half
  deriving DecidableEq, Repr

/-- The body of an ALARM STATE notice (R41, Table 12-3). -/
structure AlarmBody where
  point : Byte
  occurrence : Byte
  state : AlarmState
  cls : AlarmClass
  kind : Option CondKind
  raiseTime : Word
  firstOut : Byte
  deriving DecidableEq, Repr

/-- The kinds of notice with their bodies (R41). -/
inductive NoticeBody where
  | alarmState (b : AlarmBody)
  | ackRequest (target point occurrence : Byte)
  | timeSet (time : Word)
  deriving DecidableEq, Repr

/-- A notice record (R41, Table 12-3). -/
structure Notice where
  sender : Byte
  seq : Byte
  mask : Half
  body : NoticeBody
  deriving DecidableEq, Repr

/-- A station image (R3, Table 12-2). -/
structure Image where
  station : Byte
  seq : Byte
  sig : Half
  epoch : Byte
  panelPresent : Bool
  tripRequest : Bool
  firstPoint : Byte
  firstKind : Option CondKind
  openShift : Half
  burner : Option BurnerPart
  feed : Option (List FeedEntry)
  cooler : Option CoolerPart
  summary : AlarmSummary
  closing : ClosingPart
  notices : List Notice
  deriving DecidableEq, Repr

/-- The Panel Port's piece of the staged common part (R12, R193). -/
structure PanelCommon where
  station : Byte
  sig : Half
  present : Bool
  deriving DecidableEq, Repr

/-- The trip request while set: the first-out point or none, and its condition kind (R159). -/
structure TripRequest where
  point : Option (Fin 32)
  kind : CondKind
  deriving DecidableEq, Repr

/-- The Alarm Unit's piece of the staged common part (R12, R169). -/
structure AlarmCommon where
  epoch : Byte
  trip : Option TripRequest
  deriving DecidableEq, Repr

/-- The staging record: each part with its owner, absent until the owner writes it (R12). -/
structure Staging where
  panel : Option PanelCommon
  alarm : Option AlarmCommon
  openShift : Option Half
  burner : Option BurnerPart
  feed : Option (List FeedEntry)
  cooler : Option CoolerPart
  summary : Option AlarmSummary
  closing : Option ClosingPart
  deriving DecidableEq, Repr

/-- One entry of the floor image table (R8). -/
structure FloorEntry where
  image : Option Image
  seq : Byte
  age : Nat
  seen : Bool
  deriving DecidableEq, Repr

/-- One entry of the outgoing notice queue (R42). -/
structure QueueEntry where
  body : NoticeBody
  placed : Bool
  seq : Byte
  mask : Half
  rotations : Nat
  deriving DecidableEq, Repr

/-- A loop counter: a 16-bit count with its overflow mark (R21). -/
structure Counter where
  count : Nat
  overflowed : Bool
  deriving DecidableEq, Repr

/-- The eight loop counters (R21). -/
structure Counters where
  trainsSeen : Counter
  headErrors : Counter
  slotErrors : Counter
  trainsMissed : Counter
  lateRotations : Counter
  noticesLost : Counter
  claimRounds : Counter
  breakEntries : Counter
  deriving DecidableEq, Repr

/-- The loop grace timer (R25). -/
inductive Grace where
  | idle
  | running (ends : Nat)
  | expired
  deriving DecidableEq, Repr

/-- The release timer (R14): idle, running until a moment, or expired and waiting for the return. -/
inductive ReleaseTimer where
  | idle
  | running (ends : Nat)
  | expired
  deriving DecidableEq, Repr

/-- A break report that names a station and its hop distance (R39). -/
structure BreakReport where
  station : Byte
  hops : Nat
  deriving DecidableEq, Repr

/-- The Loop Controller's state. Timers are the moment at which they run out, or none while stopped. -/
structure Lpc where
  state : LoopState
  origin : Bool
  bypass : Bool
  lastHead : Option Head
  floor : Vector FloorEntry 16
  prevWrite : Bool
  live : List (Fin 16)
  staging : Staging
  release : ReleaseTimer
  awaiting : Bool
  returned : List (List Byte)
  loopSize : Nat
  watch : Option Nat
  claimLimit : Option Nat
  claimSend : Option Nat
  breakSend : Option Nat
  grace : Grace
  loopLost : Option Word
  breakReport : Option BreakReport
  counters : Counters
  queue : List QueueEntry
  nextSeq : Byte
  lossHold : Option Nat
  taken : Vector (List Byte) 16
  deriving DecidableEq, Repr

/-! ## Pulse Input Unit -/

/-- Pulse channel modes (Table 4-1). -/
inductive PulseMode where
  | period | countWindow | quadrature
  deriving DecidableEq, Repr

/-- Pulse channel functions (Table 4-1). -/
inductive ChannelFn where
  | flameScanner | pressure | weigher | encoder | unassigned
  deriving DecidableEq, Repr

/-- Filter settings (R58). -/
inductive Filter where
  | off | us4 | us16 | us64
  deriving DecidableEq, Repr

/-- An INPUT CHANNEL section (Table 11-2). -/
structure ChannelCfg where
  fn : ChannelFn
  inst : Nat
  mode : PulseMode
  falling : Bool
  filter : Filter
  tb : Timebase
  count : Nat
  swapped : Bool
  deriving DecidableEq, Repr

/-- Measurement phases (R71). -/
inductive ChannelPhase where
  | disabled | seeking | timing | counting
  deriving DecidableEq, Repr

/-- A level that must hold until a moment: a filter wait (R58) or a pending change (R69). -/
structure Wait where
  level : Bool
  due : Nat
  deriving DecidableEq, Repr

/-- A counted edge of a pair, for its moment (R64): the moment, the input that changed, the direction change raised, and the pair
record as it would stand without the edge, which a change of the other input at that moment brings back (log 35). -/
structure CountedEdge where
  moment : Nat
  input : Fin 8
  raised : Option Instr
  position : Half
  direction : Direction
  interval : Nat
  restarted : Nat
  events : Nat
  still : Option Nat
  deriving DecidableEq, Repr

/-- A pulse channel: pin, filter, capture counter and measurement record (R57 to R67). The pair record of an ENCODER pair
is the record of its lower channel (R56), with its last counted edge. -/
structure Channel where
  pin : Bool
  accepted : Bool
  wait : Option Wait
  restarted : Nat
  mode : Option PulseMode
  phase : ChannelPhase
  heldWidth : Option Nat
  lastPeriod : Nat
  lastWidth : Nat
  lastTicks : Nat
  lastCount : Nat
  edges : Nat
  overflow : Bool
  position : Half
  direction : Direction
  interval : Nat
  revCounts : Nat
  indexed : Bool
  phaseErrors : Nat
  valid : Bool
  events : Nat
  stall : Nat
  still : Option Nat
  counted : Option CountedEdge
  deriving DecidableEq, Repr

/-- Input line functions (Table 4-6). -/
inductive LineFn where
  | airFlowProven | idFanRunning | estop | endForward | endReturn | index | general | unused
  deriving DecidableEq, Repr

/-- An INPUT LINE section (Table 11-2). -/
structure LineCfg where
  fn : LineFn
  inst : Nat
  activeLow : Bool
  debounce : Nat
  deriving DecidableEq, Repr

/-- An input line: pin level, line state and pending change (R69). -/
structure InputLine where
  pin : Bool
  active : Bool
  pending : Option Wait
  deriving DecidableEq, Repr

/-- The Pulse Input Unit's state. -/
structure Piu where
  channels : Vector Channel 8
  lines : Vector InputLine 12
  deriving DecidableEq, Repr

/-! ## Drive Output Unit -/

/-- Output line kinds (Table 5-1). -/
inductive OutKind where
  | reference | valve | igniter | strokeForward | strokeReturn | unused
  deriving DecidableEq, Repr

/-- Output line functions (Table 5-1; COMPARTMENT is the function of the stroke lines, log 22). -/
inductive OutFn where
  | feeder | fan | pilotValve | mainFuelRelease | igniter | compartment
  deriving DecidableEq, Repr

/-- The blocks that own output lines (Table 5-1). -/
inductive Owner where
  | feedController | grateCooler | burnerSequencer | noOwner
  deriving DecidableEq, Repr

/-- An OUTPUT LINE section (Table 11-2). -/
structure OutCfg where
  kind : OutKind
  fn : OutFn
  inst : Nat
  carrier : Nat
  inverted : Bool
  interval : Nat
  pulseWidth : Nat
  spacing : Nat
  deriving DecidableEq, Repr

/-- The igniter's burst states (R73). -/
inductive Burst where
  | idle | bursting | ending
  deriving DecidableEq, Repr

/-- An output line record (R73). Without a section it is cleared: kind UNUSED, no owner. -/
structure OutLine where
  cfg : Option OutCfg
  preload : Nat
  active : Nat
  firstWrite : Bool
  position : Nat
  step : Nat
  patternEnd : Option Nat
  carrierEnd : Option Nat
  activeEnd : Option Nat
  on : Bool
  burst : Burst
  inPulse : Bool
  pulseEnd : Option Nat
  spacingEnd : Option Nat
  refusals : Nat
  forced : Bool
  pin : Bool
  deriving DecidableEq, Repr

/-- The Drive Output Unit's state: sixteen line records. -/
structure Dou where
  lines : Vector OutLine 16
  deriving DecidableEq, Repr

/-! ## Burner Sequencer -/

/-- A BURNER section (Table 6-1); times in seconds, the band in µs, heat in kW. -/
structure BurnerCfg where
  letter : BurnerLetter
  bandMin : Nat
  bandMax : Nat
  proofCount : Nat
  failResponse : Nat
  purgeTime : Nat
  pilotLimit : Nat
  ignitionTime : Nat
  mainLimit : Nat
  lightOff : Nat
  maxDemand : Nat
  rampRate : Nat
  coolerRequired : Bool
  coolerLossTime : Nat
  tolerance : Nat
  shortfallDelay : Nat
  deriving DecidableEq, Repr

/-- Flame monitor status (R90). -/
inductive FlameStatus where
  | none | proving | proven | lost
  deriving DecidableEq, Repr

/-- A scanner's last verdict (R90). -/
inductive Verdict where
  | good | bad | noSignal
  deriving DecidableEq, Repr

/-- One scanner's fields of the flame monitor record (R90). -/
structure Scanner where
  good : Nat
  bad : Nat
  lastPeriod : Nat
  verdict : Verdict
  deriving DecidableEq, Repr

/-- The flame monitor record (R90). -/
structure Monitor where
  status : FlameStatus
  proving : Nat
  failTimer : Option Nat
  scanners : Vector Scanner 2
  deriving DecidableEq, Repr

/-- The first-out reference of a trip (R102): LOCAL names an own point, PEER a station. -/
inductive FirstOut where
  | localRef (point : Option (Fin 32)) (kind : CondKind)
  | peer (station : Option Nat) (point : Option Nat) (kind : Option CondKind)
  deriving DecidableEq, Repr

/-- The trip record (R101). -/
structure TripRecord where
  time : Word
  state : BsqState
  cause : CauseKind
  first : FirstOut
  deriving DecidableEq, Repr

/-- The reasons of the last stop record (R96, R106, R108, R109, R112). -/
inductive StopReason where
  | stop | lapse | loop | tripRequest | idFan | noFeed | noCooler | mainBurner
  deriving DecidableEq, Repr

/-- The last stop record (R112). -/
structure StopRecord where
  reason : StopReason
  time : Word
  deriving DecidableEq, Repr

/-- The six trip holds (R103), each with its end while it runs. -/
structure Holds where
  flameFail : Option Nat
  ignitionFail : Option Nat
  mainFlameFail : Option Nat
  purgeAirLost : Option Nat
  airFlowLost : Option Nat
  coolerLoss : Option Nat
  deriving DecidableEq, Repr

/-- The Burner Sequencer's state (R87, R90, R95 to R111); mainStation is burner A's station as it last stood in view (R102). -/
structure Bsq where
  state : BsqState
  demand : Nat
  setpoint : Nat
  purge : Option Nat
  postPurge : Option Nat
  pilotTrial : Option Nat
  ignition : Option Nat
  mainTrial : Option Nat
  shortfall : Option Nat
  coolerLoss : Option Nat
  firingSecond : Option Nat
  interruptions : Nat
  monitor : Monitor
  rampValue : Nat
  rampMoment : Nat
  trip : Option TripRecord
  lastStop : Option StopRecord
  holds : Holds
  mainStation : Option (Fin 16)
  deriving DecidableEq, Repr

/-! ## Feed Controller -/

/-- A FEED CHANNEL section (Table 7-1). -/
structure FeedCfg where
  letter : BurnerLetter
  weight : Nat
  cv : Nat
  maxRate : Nat
  maxFine : Nat
  ratePerFine : Nat
  rampRate : Nat
  pulseWeight : Nat
  stall : Nat
  deriving DecidableEq, Repr

/-- The fault causes of a feed channel (R113). -/
inductive FeedCause where
  | none | feederStall | feederReverse | estop
  deriving DecidableEq, Repr

/-- A feed channel record (R113, R122, R130, R134). -/
structure FeedChannel where
  cfg : Option FeedCfg
  cv : Nat
  cvPreload : Option Nat
  capacity : Nat
  targetHeat : Nat
  massGoal : Nat
  targetRate : Nat
  trim : Nat
  lastFine : Nat
  activeFine : Nat
  measured : Nat
  rateSeen : Bool
  delivered : Nat
  openLoop : Bool
  state : FeedState
  cause : FeedCause
  runDown : Bool
  reEvaluate : Bool
  runDownTimer : Option Nat
  runningSecond : Option Nat
  deriving DecidableEq, Repr

/-- The Feed Controller's state. -/
structure Fdc where
  channels : Vector FeedChannel 2
  deriving DecidableEq, Repr

/-! ## Grate Cooler Controller -/

/-- A COMPARTMENT section (Table 8-1); rates in 0.1 strokes/min, limits in ms. -/
structure CompCfg where
  minRate : Nat
  maxRate : Nat
  baseRate : Nat
  target : Nat
  gain : Nat
  f0 : Nat
  scale : Nat
  forwardLimit : Nat
  dwell : Nat
  returnLimit : Nat
  capacity : Nat
  deriving DecidableEq, Repr

/-- Compartment states (R136). -/
inductive CompState where
  | stopped | rest | waiting | forward | dwell | returning | fault
  deriving DecidableEq, Repr

/-- Rate modes (R136, R147). -/
inductive RateMode where
  | follow | minimum | base
  deriving DecidableEq, Repr

/-- Compartment fault causes (R136). -/
inductive CompCause where
  | none | strokeTimeout | limitConflict | estop
  deriving DecidableEq, Repr

/-- A compartment's running timer (R136). -/
inductive CompTimer where
  | forwardLimit | dwell | returnLimit
  deriving DecidableEq, Repr

/-- A compartment record (R136), with the two limit lines as the controller last took them (log 15). -/
structure Compartment where
  cfg : Option CompCfg
  baseRate : Nat
  shadow : Nat
  preload : Nat
  mode : RateMode
  pressure : Nat
  pressureValid : Bool
  due : Option Nat
  state : CompState
  stopAtEnd : Bool
  faultPending : Bool
  cause : CompCause
  timer : Option (CompTimer × Nat)
  endForward : Bool
  endReturn : Bool
  deriving DecidableEq, Repr

/-- The Grate Cooler Controller's state: compartments, hydraulic grant and its queue (R145), fans (R149). -/
structure Gcc where
  comps : Vector Compartment 4
  holder : Option (Fin 4)
  queue : List (Fin 4)
  fans : Vector Nat 4
  fanSecond : Option Nat
  deriving DecidableEq, Repr

/-! ## Alarm Unit -/

/-- An ALARM POINT section (R154); delays in seconds. -/
structure PointCfg where
  kind : CondKind
  inst : Nat
  cls : AlarmClass
  latched : Bool
  onDelay : Nat
  offDelay : Nat
  threshold : Nat
  deriving DecidableEq, Repr

/-- A point's running delay (R155). -/
inductive Delay where
  | on (ends : Nat)
  | off (ends : Nat)
  deriving DecidableEq, Repr

/-- The announced state: the state peers hold, or UNKNOWN (R154). -/
inductive Announced where
  | known (s : AlarmState)
  | unknown
  deriving DecidableEq, Repr

/-- An alarm point record (R154). -/
structure Point where
  cfg : Option PointCfg
  watched : Bool
  qualified : Bool
  delay : Option Delay
  state : AlarmState
  gone : Bool
  occurrence : Byte
  raiseTime : Word
  raiseShift : Half
  shelf : Option Nat
  pending : Bool
  announced : Announced
  firstOut : Bool
  deriving DecidableEq, Repr

/-- One entry of the floor mirror (R167). -/
structure MirrorEntry where
  owner : Fin 16
  body : AlarmBody
  silent : Bool
  deriving DecidableEq, Repr

/-- One entry of the condition table that stands present (R153). -/
structure Condition where
  kind : CondKind
  inst : Nat
  deriving DecidableEq, Repr

/-- The Alarm Unit's state. The condition table holds the conditions that are present. -/
structure Alm where
  present : List Condition
  points : Vector Point 32
  active : List (Fin 32)
  trip : Option TripRequest
  epoch : Byte
  recent : List Nat
  flood : Bool
  mirror : List MirrorEntry
  overflow : Nat
  epochs : Vector (Option Byte) 16
  deriving DecidableEq, Repr

/-! ## Shift Report Unit -/

/-- A feed channel's counts (R177, R181). -/
structure FeedCounts where
  mass : Nat
  heat : Nat
  revolutions : Nat
  runningSeconds : Nat
  faults : Nat
  deriving DecidableEq, Repr

/-- The burner's counts (R177, R181). -/
structure BurnerCounts where
  firingSeconds : Nat
  starts : Nat
  trips : Nat
  list : List TripEntry
  deriving DecidableEq, Repr

/-- A compartment's counts (R177, R181). -/
structure CompCounts where
  strokes : Nat
  faults : Nat
  deriving DecidableEq, Repr

/-- The alarm counts (R177, R181). -/
structure AlarmCounts where
  raises : Nat
  peakActive : Nat
  floods : Nat
  noticesLost : Nat
  acksTooLate : Nat
  deriving DecidableEq, Repr

/-- The loop counts (R177, R181). -/
structure LoopCounts where
  trainsMissed : Nat
  claimRounds : Nat
  notUpSeconds : Nat
  deriving DecidableEq, Repr

/-- The open accumulators (R177). -/
structure Accumulators where
  startTime : Word
  interrupted : Bool
  feed : Vector FeedCounts 2
  burner : BurnerCounts
  comps : Vector CompCounts 4
  fanSeconds : Nat
  alarm : AlarmCounts
  loop : LoopCounts
  saturated : Bool
  deriving DecidableEq, Repr

/-- Close causes (R181). -/
inductive CloseCause where
  | boundary | advance | localClose | interrupted
  deriving DecidableEq, Repr

/-- The marks of a floor section entry (R178, R179). -/
inductive PeerMark where
  | outstanding | collected | absent
  deriving DecidableEq, Repr

/-- One peer entry of a report's floor section (R181). -/
structure PeerTotals where
  station : Fin 16
  mark : PeerMark
  heat : Word
  firing : Word
  strokes : Word
  trips : Half
  deriving DecidableEq, Repr

/-- A shift report (R181): the feed and cooler sections list the configured channels and compartments. -/
structure Report where
  shift : Half
  startTime : Word
  endTime : Word
  cause : CloseCause
  interrupted : Bool
  complete : Bool
  saturated : Bool
  feed : List (Fin 2 × FeedCounts)
  burner : Option BurnerCounts
  cooler : Option (List (Fin 4 × CompCounts) × Nat)
  alarm : AlarmCounts
  loop : LoopCounts
  floor : List PeerTotals
  deriving DecidableEq, Repr

/-- The Shift Report Unit's state. -/
structure Sru where
  time : Word
  second : Option Nat
  shift : Half
  acc : Accumulators
  lastLength : Nat
  unresolved : Bool
  ring : List Report
  arrivals : Nat
  skipRefresh : Bool
  runTotals : Vector Nat 2
  notUp : Option Nat
  deriving DecidableEq, Repr

/-! ## Panel Port -/

/-- A LOOP section; times in ms, grace in s. -/
structure LoopCfg where
  cycle : Nat
  watchMultiple : Nat
  rank : Nat
  claimLimit : Nat
  grace : Nat
  deriving DecidableEq, Repr

/-- A SERVICE section: period in s, open fraction in %. -/
structure ServiceCfg where
  period : Nat
  openFraction : Nat
  deriving DecidableEq, Repr

/-- A FLOOD section. -/
structure FloodCfg where
  high : Nat
  low : Nat
  deriving DecidableEq, Repr

/-- The configuration record (R191): a section instance is present when its loaded mark is set. -/
structure ConfigRecord where
  station : Option Nat
  loop : Option LoopCfg
  shift : Option (List Nat)
  service : Option ServiceCfg
  flood : Option FloodCfg
  channels : Vector (Option ChannelCfg) 8
  lines : Vector (Option LineCfg) 12
  outputs : Vector (Option OutCfg) 16
  burner : Option BurnerCfg
  feeds : Vector (Option FeedCfg) 2
  comps : Vector (Option CompCfg) 4
  points : Vector (Option PointCfg) 32
  deriving DecidableEq, Repr

/-- The service window's states (R195). -/
inductive Window where
  | idle | awaitingFirst | closed | openPart
  deriving DecidableEq, Repr

/-- The host event categories in the order of R190. -/
inductive HostEvent where
  | alarmChange | reportComplete | loopState | burnerState | feedFault | grateFault | lapse | configMismatch
  deriving DecidableEq, Repr

/-- The reset cause (R197). -/
inductive ResetCause where
  | none | powerOn | resetLine
  deriving DecidableEq, Repr

/-- Response codes in the order of Table 12-8, codes 1 to 10. -/
inductive RespCode where
  | ok | pending | busy | checkError | wrongState | badField | notConfigured | refused | tooLate | queueFull
  deriving DecidableEq, Repr

/-- A finished response (R187, 12.2). -/
structure Response where
  tag : Byte
  code : RespCode
  reason : Byte
  body : List Byte
  deriving DecidableEq, Repr

/-- A refusal note: BUSY or CHECK ERROR with its tag (R187). -/
structure Note where
  code : RespCode
  tag : Byte
  deriving DecidableEq, Repr

/-- Which of the four cases of R187 an outgoing record is. -/
inductive OutSource where
  | note | held | pendingReply | noneReply
  deriving DecidableEq, Repr

/-- The record fixed when select was asserted (R187). -/
structure Outgoing where
  source : OutSource
  bytes : List Byte
  deriving DecidableEq, Repr

/-- The Panel Port's state; clockedOut is what the station sent in the latest transaction (R188; log 52). -/
structure Ppt where
  started : Bool
  cfg : ConfigRecord
  sig : Option Half
  window : Window
  openAt : Option Nat
  periodEnd : Option Nat
  present : Bool
  events : Byte
  cause : ResetCause
  slot : Option (Byte × Instr)
  holder : Option Response
  note : Option Note
  outgoing : Option Outgoing
  clockedOut : List Byte
  deriving DecidableEq, Repr

/-! ## The station and the machine -/

/-- The station: its time base, its undelivered internal events, what its last command sent at LOOP OUT, and its nine
blocks. -/
structure Station where
  now : Nat
  signals : List Instr
  draws : Nat
  loopOut : List (List Byte)
  resetHeld : Bool
  lpc : Lpc
  piu : Piu
  dou : Dou
  bsq : Bsq
  fdc : Fdc
  gcc : Gcc
  alm : Alm
  sru : Sru
  ppt : Ppt
  deriving DecidableEq, Repr

/-- The machine: the station and the commands waiting for it, first in first out. -/
structure State where
  dev : Station
  pending : List Instr
  deriving DecidableEq, Repr

/-- No rule of the manual stops the part, so there is no fault. -/
inductive Fault where
  deriving DecidableEq, Repr

/-- The reasons a command has no meaning. -/
inductive Refusal where
  /-- Raised by exec alone, for a command whose meaning is not written yet. Safe: the model stops. No arm uses it. -/
  | notModelled (mnemonic : String)
  deriving DecidableEq, Repr

/-! ## First states of the blocks -/

/-- A counter after a reset (R21). -/
def Counter.zero : Counter := { count := 0, overflowed := false }

/-- The loop counters after a reset (R21). -/
def Counters.zero : Counters :=
  { trainsSeen := .zero, headErrors := .zero, slotErrors := .zero, trainsMissed := .zero,
    lateRotations := .zero, noticesLost := .zero, claimRounds := .zero, breakEntries := .zero }

/-- A floor image entry after a reset (R8). -/
def FloorEntry.first : FloorEntry := { image := none, seq := 0, age := 255, seen := false }

/-- The staging record after a reset: no parts (R12). -/
def Staging.first : Staging :=
  { panel := none, alarm := none, openShift := none, burner := none, feed := none, cooler := none,
    summary := none, closing := none }

/-- Sixteen empty slot positions. -/
def emptySlots : List (List Byte) := List.replicate 16 [0#8]

/-- The Loop Controller after either reset (R1, R2, R4, R8, R9, R12, R14, R21, R25, R33, R39, R40, R41, R42, R49, R52). -/
def Lpc.first : Lpc :=
  { state := .bypassed, origin := false, bypass := true, lastHead := none, floor := Vector.replicate 16 .first,
    prevWrite := false, live := [], staging := .first, release := .idle, awaiting := false, returned := emptySlots,
    loopSize := 0, watch := none, claimLimit := none, claimSend := none, breakSend := none, grace := .idle,
    loopLost := none, breakReport := none, counters := .zero, queue := [], nextSeq := 0, lossHold := none,
    taken := Vector.replicate 16 [] }

/-- A pulse channel after either reset, its pin at the given level (R57; log 7). -/
def Channel.first (pin : Bool) : Channel :=
  { pin := pin, accepted := pin, wait := none, restarted := 0, mode := none, phase := .disabled, heldWidth := none,
    lastPeriod := 0, lastWidth := 0, lastTicks := 0, lastCount := 0, edges := 0, overflow := false, position := 0,
    direction := .none, interval := 0, revCounts := 0, indexed := false, phaseErrors := 0, valid := false, events := 0,
    stall := 0, still := none, counted := none }

/-- An input line after either reset, its pin at the given level (R69; log 7). -/
def InputLine.first (pin : Bool) : InputLine := { pin := pin, active := false, pending := none }

/-- A cleared output line record with its pin low (R73). -/
def OutLine.first : OutLine :=
  { cfg := none, preload := 0, active := 0, firstWrite := false, position := 0, step := 0, patternEnd := none,
    carrierEnd := none, activeEnd := none, on := false, burst := .idle, inPulse := false, pulseEnd := none,
    spacingEnd := none, refusals := 0, forced := false, pin := false }

/-- A scanner's fields after either reset (R90; log 26). -/
def Scanner.first : Scanner := { good := 0, bad := 0, lastPeriod := 0, verdict := .noSignal }

/-- The Burner Sequencer after either reset (R87). -/
def Bsq.first : Bsq :=
  { state := .off, demand := 0, setpoint := 0, purge := none, postPurge := none, pilotTrial := none, ignition := none,
    mainTrial := none, shortfall := none, coolerLoss := none, firingSecond := none, interruptions := 0,
    monitor := { status := .none, proving := 0, failTimer := none, scanners := Vector.replicate 2 .first },
    rampValue := 0, rampMoment := 0, trip := none, lastStop := none,
    holds := { flameFail := none, ignitionFail := none, mainFlameFail := none, purgeAirLost := none,
               airFlowLost := none, coolerLoss := none }
    mainStation := none }

/-- A feed channel record after either reset (R113). -/
def FeedChannel.first : FeedChannel :=
  { cfg := none, cv := 0, cvPreload := none, capacity := 0, targetHeat := 0, massGoal := 0, targetRate := 0, trim := 1000,
    lastFine := 0, activeFine := 0, measured := 0, rateSeen := false, delivered := 0, openLoop := false, state := .off,
    cause := .none, runDown := false, reEvaluate := false, runDownTimer := none, runningSecond := none }

/-- A compartment record after either reset (R136); the rate mode and the due time, none, are log 33's. -/
def Compartment.first : Compartment :=
  { cfg := none, baseRate := 0, shadow := 0, preload := 0, mode := .minimum, pressure := 0, pressureValid := false,
    due := none, state := .stopped, stopAtEnd := false, faultPending := false, cause := .none, timer := none,
    endForward := false, endReturn := false }

/-- The Grate Cooler Controller after either reset (R136, R145, R149). -/
def Gcc.first : Gcc :=
  { comps := Vector.replicate 4 .first, holder := none, queue := [], fans := Vector.replicate 4 0, fanSecond := none }

/-- An alarm point record that is not configured (R154). -/
def Point.first : Point :=
  { cfg := none, watched := false, qualified := false, delay := none, state := .normal, gone := false, occurrence := 0,
    raiseTime := 0, raiseShift := 0, shelf := none, pending := false, announced := .known .normal, firstOut := false }

/-- The Alarm Unit after either reset, with the alarm epoch that the reset leaves (R153, R154, R158, R159, R166 to R168). -/
def Alm.first (epoch : Byte) : Alm :=
  { present := [], points := Vector.replicate 32 .first, active := [], trip := none, epoch := epoch, recent := [],
    flood := false, mirror := [], overflow := 0, epochs := Vector.replicate 16 none }

/-- Open accumulators at zero, of a shift that starts at a time with a given peak (R177, R178). -/
def Accumulators.opened (time : Word) (peak : Nat) : Accumulators :=
  { startTime := time, interrupted := false,
    feed := Vector.replicate 2 { mass := 0, heat := 0, revolutions := 0, runningSeconds := 0, faults := 0 },
    burner := { firingSeconds := 0, starts := 0, trips := 0, list := [] },
    comps := Vector.replicate 4 { strokes := 0, faults := 0 }, fanSeconds := 0,
    alarm := { raises := 0, peakActive := peak, floods := 0, noticesLost := 0, acksTooLate := 0 },
    loop := { trainsMissed := 0, claimRounds := 0, notUpSeconds := 0 }, saturated := false }

/-- The Shift Report Unit at power-on, its second timer started at a moment (R172, R184). -/
def Sru.first (now : Nat) : Sru :=
  { time := 0, second := some (now + Config.secondTicks), shift := 0, acc := .opened 0 0, lastLength := 0,
    unresolved := false, ring := [], arrivals := 0, skipRefresh := false, runTotals := Vector.replicate 2 0, notUp := none }

/-- The configuration record after either reset: nothing loaded (R191). -/
def ConfigRecord.first : ConfigRecord :=
  { station := none, loop := none, shift := none, service := none, flood := none,
    channels := Vector.replicate 8 none, lines := Vector.replicate 12 none, outputs := Vector.replicate 16 none,
    burner := none, feeds := Vector.replicate 2 none, comps := Vector.replicate 4 none,
    points := Vector.replicate 32 none }

/-- The Panel Port after a reset with its cause (R187, R188, R190, R191, R195, R197). -/
def Ppt.first (cause : ResetCause) : Ppt :=
  { started := false, cfg := .first, sig := none, window := .idle, openAt := none, periodEnd := none, present := false,
    events := 0, cause := cause, slot := none, holder := none, note := none, outgoing := none, clockedOut := [] }

/-- The station right after power-on, its pins low and its time base at 0 (log 7, 8). -/
def Station.first : Station :=
  { now := 0, signals := [], draws := 0, loopOut := [], resetHeld := false, lpc := .first,
    piu := { channels := Vector.replicate 8 (.first false), lines := Vector.replicate 12 (.first false) },
    dou := { lines := Vector.replicate 16 .first }, bsq := .first, fdc := { channels := Vector.replicate 2 .first },
    gcc := .first, alm := .first 0, sru := .first 0, ppt := .first .powerOn }

/-- The machine right after reset: power-on, with no command waiting (log 8). -/
def State.reset : State := { dev := .first, pending := [] }

end Sys2Proof.Machine
end

