-- ==== Sys2Proof/Machine/Ops.lean ====
section
/-! DEFINITION. The shared operations on the station: how a command acts, internal events, host events, answers to requests,
contributions, timers, and the accessors of the frozen configuration. -/

namespace Sys2Proof.Machine

/-! ## Vectors and saturating counts -/

/-- A vector with one element changed by a function. -/
def vecModify {α : Type} {n : Nat} (v : Vector α n) (i : Fin n) (f : α → α) : Vector α n :=
  v.set i.val (f v[i]) i.isLt

/-- Addition that holds at a top value (00_scope.md, "Counters and saturation"). -/
def satAdd (top a b : Nat) : Nat := min top (a + b)

/-- The tops of the fixed widths (R21, R182). -/
def top8 : Nat := 255
def top16 : Nat := 65535
def top32 : Nat := 4294967295

/-- A loop counter counts one: at 65,535 it stays and its overflow mark is set (R21). -/
def Counter.bump (c : Counter) : Counter :=
  if c.count ≥ top16 then { c with overflowed := true } else { c with count := c.count + 1 }

/-- A value limited to a range (00_scope.md, "Arithmetic"). -/
def clamp (lo hi : Int) (x : Int) : Nat := (max lo (min hi x)).toNat

/-- A figure in a four-byte field: itself where it fits, else a free value (log 20). -/
def wire32 (n : Nat) : Word := if n ≤ top32 then BitVec.ofNat 32 n else Config.wideField n

/-! ## The blocks of the station, one update each -/

def Station.onLpc (f : Lpc → Lpc) (d : Station) : Station := { d with lpc := f d.lpc }
def Station.onPiu (f : Piu → Piu) (d : Station) : Station := { d with piu := f d.piu }
def Station.onDou (f : Dou → Dou) (d : Station) : Station := { d with dou := f d.dou }
def Station.onBsq (f : Bsq → Bsq) (d : Station) : Station := { d with bsq := f d.bsq }
def Station.onFdc (f : Fdc → Fdc) (d : Station) : Station := { d with fdc := f d.fdc }
def Station.onGcc (f : Gcc → Gcc) (d : Station) : Station := { d with gcc := f d.gcc }
def Station.onAlm (f : Alm → Alm) (d : Station) : Station := { d with alm := f d.alm }
def Station.onSru (f : Sru → Sru) (d : Station) : Station := { d with sru := f d.sru }
def Station.onPpt (f : Ppt → Ppt) (d : Station) : Station := { d with ppt := f d.ppt }

/-- A write to the staging record (R12). -/
def Station.onStaging (f : Staging → Staging) (d : Station) : Station :=
  d.onLpc fun l => { l with staging := f l.staging }

/-- A change of the loop counters (R21). -/
def Station.onCounters (f : Counters → Counters) (d : Station) : Station :=
  d.onLpc fun l => { l with counters := f l.counters }

def Station.onChannel (i : Fin 8) (f : Channel → Channel) (d : Station) : Station :=
  d.onPiu fun p => { p with channels := vecModify p.channels i f }
def Station.onInput (i : Fin 12) (f : InputLine → InputLine) (d : Station) : Station :=
  d.onPiu fun p => { p with lines := vecModify p.lines i f }
def Station.onOut (i : Fin 16) (f : OutLine → OutLine) (d : Station) : Station :=
  d.onDou fun o => { o with lines := vecModify o.lines i f }
def Station.onFeed (i : Fin 2) (f : FeedChannel → FeedChannel) (d : Station) : Station :=
  d.onFdc fun c => { c with channels := vecModify c.channels i f }
def Station.onComp (i : Fin 4) (f : Compartment → Compartment) (d : Station) : Station :=
  d.onGcc fun g => { g with comps := vecModify g.comps i f }
def Station.onPoint (i : Fin 32) (f : Point → Point) (d : Station) : Station :=
  d.onAlm fun a => { a with points := vecModify a.points i f }

/-- A change made for each index in turn, the lowest first. Where the changes raise events or make reports and no rule orders the instances,
this order is the model's (log 63, log 70). -/
def forAll {n : Nat} (f : Fin n → Station → Station) (d : Station) : Station :=
  (List.finRange n).foldl (fun d i => f i d) d

/-! ## Commands, internal events and what leaves the station -/

/-- The station as a command finds it: the command is no longer an undelivered internal event, and LOOP OUT has sent nothing
yet (log 2, log 6). -/
def Station.take (c : Instr) (d : Station) : Station :=
  { d with signals := d.signals.erase c, loopOut := [] }

/-- A command's meaning: an effect on the station as the command finds it. The queue of commands is untouched. -/
def act (c : Instr) (f : Station → Station) (s : State) : Host.Outcome State Fault Refusal :=
  .next { s with dev := f (s.dev.take c) }

/-- An internal event is raised for its receiver (log 2). -/
def Station.raise (c : Instr) (d : Station) : Station := { d with signals := d.signals ++ [c] }

/-- A frame leaves at LOOP OUT (R2). -/
def Station.send (frame : List Byte) (d : Station) : Station := { d with loopOut := d.loopOut ++ [frame] }

/-- A block's count is handed to the Shift Report Unit as an event of its own (R177). -/
def Station.contribute (c : Contribution) (d : Station) : Station := d.raise (.sruContribution c)

/-- The bit of a host event in the event set (R190, R201). -/
def HostEvent.bit : HostEvent → Byte
  | .alarmChange => 1
  | .reportComplete => 2
  | .loopState => 4
  | .burnerState => 8
  | .feedFault => 16
  | .grateFault => 32
  | .lapse => 64
  | .configMismatch => 128

/-- A host event is posted: its category is present (R190). -/
def Station.post (e : HostEvent) (d : Station) : Station :=
  d.onPpt fun p => { p with events := p.events ||| e.bit }

/-- The codes of the reasons given with REFUSED (Table 12-8). -/
inductive Reason where
  | notUp | panelAbsent | lockout | notOff | tripRequest | idFan | noFeed | noCooler | mainBurner | tripPoint
  | ownTripRequest | peerTripRequest | estop | limitConflict | noEntry | ownerSilent | tripClass | early | noReport
  | missingSection | floodThresholds | doubleAssignment | mode | absentInstance | kind | igniterTiming | dutyLines
  | parameterOrder | strokeTiming
  deriving DecidableEq, Repr

/-- A reason's code, 1 to 29 (Table 12-8). -/
def Reason.code (r : Reason) : Byte := BitVec.ofNat 8 (r.ctorIdx + 1)

/-- The owner answers the working request: the response enters the holder under the request's tag and the slot becomes EMPTY
(R187). A request command that came without a transaction is answered under tag 0 (log 5). -/
def Station.answer (code : RespCode) (reason : Byte) (body : List Byte) (d : Station) : Station :=
  d.onPpt fun p =>
    { p with holder := some { tag := (match p.slot with | some (t, _) => t | none => 0), code := code,
                              reason := reason, body := body }
             slot := none }

def Station.ok (d : Station) : Station := d.answer .ok 0 []
def Station.okWith (body : List Byte) (d : Station) : Station := d.answer .ok 0 body
def Station.refuse (r : Reason) (d : Station) : Station := d.answer .refused r.code []
def Station.wrongState (d : Station) : Station := d.answer .wrongState 0 []
def Station.badField (d : Station) : Station := d.answer .badField 0 []
def Station.notConfigured (d : Station) : Station := d.answer .notConfigured 0 []

/-! ## Moments -/

/-- The moment a number of milliseconds from now. -/
def Station.inMs (d : Station) (ms : Nat) : Nat := d.now + ms * Config.msTicks

/-- The moment a number of seconds from now. -/
def Station.inSec (d : Station) (s : Nat) : Nat := d.now + s * Config.secondTicks

/-- The milliseconds left until a moment, truncated. -/
def Station.msLeft (d : Station) (ends : Nat) : Nat := (ends - d.now) / Config.msTicks

/-! ## The frozen configuration -/

def Station.cfg (d : Station) : ConfigRecord := d.ppt.cfg

/-- The own station's index, its station number less 1 (R3). -/
def Station.own (d : Station) : Fin 16 := Fin.ofNat 16 ((d.cfg.station.getD 1) - 1)

/-- The LOOP section. -/
def Station.loopCfg (d : Station) : LoopCfg :=
  d.cfg.loop.getD { cycle := 10, watchMultiple := 3, rank := 15, claimLimit := 20, grace := 0 }

def Station.boundaries (d : Station) : List Nat := d.cfg.shift.getD []

/-- A station number as its one-byte field. -/
def stationByte (i : Fin 16) : Byte := BitVec.ofNat 8 (i.val + 1)

/-- The index of a station number 1 to 16 (00_scope.md, "Numbering"). -/
def stationIdx (b : Byte) : Option (Fin 16) :=
  if h : 1 ≤ b.toNat ∧ b.toNat ≤ 16 then some ⟨b.toNat - 1, by omega⟩ else none

/-- The duties of the station: a loaded section of the duty (11_panel_port, 11.3). -/
def Station.burnerDuty (d : Station) : Bool := d.cfg.burner.isSome
def Station.feedDuty (d : Station) : Bool := d.cfg.feeds.toList.any Option.isSome
def Station.coolerDuty (d : Station) : Bool := d.cfg.comps.toList.any Option.isSome

/-- The first input line with a function and instance (R70). The instance counts for END FORWARD, END RETURN and INDEX. -/
def Station.findInput (d : Station) (fn : LineFn) (inst : Nat) : Option (Fin 12) :=
  (List.finRange 12).find? fun i =>
    match d.cfg.lines[i] with
    | some c => c.fn == fn && (c.inst == inst || !(fn == .endForward || fn == .endReturn || fn == .index))
    | none => false

/-- The line state of the line with a function that has no instance: ACTIVE, or not (R69). -/
def Station.lineActive (d : Station) (fn : LineFn) : Bool :=
  match d.findInput fn 0 with
  | some i => d.piu.lines[i].active
  | none => false

/-- The first pulse channel with a function and instance (R56). -/
def Station.findChannel (d : Station) (fn : ChannelFn) (inst : Nat) : Option (Fin 8) :=
  (List.finRange 8).find? fun i =>
    match d.cfg.channels[i] with
    | some c => c.fn == fn && c.inst == inst
    | none => false

/-- The line with an output function and instance (R72). The instance counts for FEEDER, FAN and the stroke lines. -/
def Station.findOut (d : Station) (kind : OutKind) (fn : OutFn) (inst : Nat) : Option (Fin 16) :=
  (List.finRange 16).find? fun i =>
    match d.dou.lines[i].cfg with
    | some c => c.kind == kind && c.fn == fn &&
        (c.inst == inst || fn == .pilotValve || fn == .mainFuelRelease || fn == .igniter)
    | none => false

/-- The timebase in µs per tick (R59). -/
def tbMicros : Timebase → Nat
  | .us1 => 1
  | .us8 => 8
  | .us64 => 64
  | .us512 => 512

end Sys2Proof.Machine
end

