-- ==== Sys2Proof/Machine/Flags.lean ====
section
/-! DEFINITION. Derived values: check codes, the live set, images in view, burner and cooler readings, and the attention
line. -/

namespace Sys2Proof.Machine

/-! ## The check code (12_record_formats.md) -/

/-- One bit of the cyclic code with generator x^16 + x^12 + x^5 + 1. -/
def crcBit (c : Nat) : Nat :=
  if c.testBit 15 then Nat.xor ((2 * c) % 65536) 0x1021 else (2 * c) % 65536

/-- One byte of the code, most significant bit first. -/
def crcByte (c : Nat) (b : Byte) : Nat :=
  crcBit (crcBit (crcBit (crcBit (crcBit (crcBit (crcBit (crcBit (Nat.xor c (b.toNat * 256)))))))))

/-- The code carried on over bytes in order. (The match makes evaluation settle each byte before the next.) -/
def crcFrom : Nat → List Byte → Nat
  | c, [] => c
  | c, b :: rest =>
    match crcByte c b with
    | 0 => crcFrom 0 rest
    | n + 1 => crcFrom (n + 1) rest

/-- The check code over bytes: the code started from FFFF hexadecimal, with no final inversion. -/
def checkCode (bytes : List Byte) : Half := BitVec.ofNat 16 (crcFrom 0xFFFF bytes)

/-! ## What the station sees of the floor -/

/-- The live peers of the table: age below 3, the own station excluded (R9). -/
def liveOf (own : Fin 16) (floor : Vector FloorEntry 16) : List (Fin 16) :=
  (List.finRange 16).filter fun i => i != own && floor[i].age < 3

/-- The images in view: those of the live set, with the own entry once it is SEEN, in station order (R93). -/
def Station.inView (d : Station) : List (Fin 16 × Image) :=
  (List.finRange 16).filterMap fun i =>
    if d.lpc.live.contains i || (i == d.own && d.lpc.floor[i].seen) then
      d.lpc.floor[i].image.map fun img => (i, img)
    else none

/-- Burner X's station: the lowest-numbered station whose image in view has a burner part with the letter (R93, R117). -/
def Station.burnerStation (d : Station) (x : BurnerLetter) : Option (Fin 16 × Image × BurnerPart) :=
  d.inView.findSome? fun e =>
    match e.2.burner with
    | some b => if b.letter == x then some (e.1, e.2, b) else none
    | none => none

/-- A burner part shows MAIN TRIAL or FIRING (R93, R117). -/
def BurnerPart.alight (b : BurnerPart) : Bool := b.state == .mainTrial || b.state == .firing

/-- Burner X is alight (R117). -/
def Station.alight (d : Station) (x : BurnerLetter) : Bool :=
  match d.burnerStation x with
  | some (_, _, b) => b.alight
  | none => false

/-- Burner A firing (R93). -/
def Station.aFiring (d : Station) : Bool :=
  match d.burnerStation .a with
  | some (_, _, b) => b.state == .firing
  | none => false

/-- Demand of X: the image's heat demand when X is alight, else 0 (R117). -/
def Station.demandOf (d : Station) (x : BurnerLetter) : Nat :=
  match d.burnerStation x with
  | some (_, _, b) => if b.alight then b.demand.toNat else 0
  | none => 0

/-- The lowest-numbered station in view with its trip request set (R93, R102). -/
def Station.tripInView (d : Station) : Option (Fin 16 × Image) := d.inView.find? fun e => e.2.tripRequest

/-- The feed entries of the images in view that serve a letter, each with its station (R93, R117). -/
def Station.feedInView (d : Station) (x : BurnerLetter) : List (Fin 16 × FeedEntry) :=
  d.inView.flatMap fun e =>
    match e.2.feed with
    | some l => (l.filter fun f => f.letter == x).map fun f => (e.1, f)
    | none => []

/-- The available channels for X: entries in READY or RUNNING (R117). -/
def Station.available (d : Station) (x : BurnerLetter) : List (Fin 16 × FeedEntry) :=
  (d.feedInView x).filter fun e => e.2.state == .ready || e.2.state == .running

/-- The delivered heat of every channel in view that serves X, whatever its state (R93). -/
def Station.deliveredHeat (d : Station) (x : BurnerLetter) : Nat :=
  ((d.feedInView x).map fun e => e.2.delivered.toNat).sum

/-- Cooler running: some image in view shows its cooler RUNNING or DEGRADED (R93). -/
def Station.coolerRunning (d : Station) : Bool :=
  d.inView.any fun e =>
    match e.2.cooler with
    | some c => c.state == .running || c.state == .degraded
    | none => false

/-- The attention line: asserted while the host event set is not empty (R190). -/
def Station.attn (d : Station) : Bool := d.ppt.events != 0

/-- A condition stands present in the condition table (R153). -/
def Station.condition (d : Station) (k : CondKind) (inst : Nat) : Bool :=
  d.alm.present.contains { kind := k, inst := inst }

end Sys2Proof.Machine
end

