-- ==== Sys2Proof/Machine/Notices.lean ====
section
/-! DEFINITION. The outgoing notice queue (03_notices_and_seen_marks.md): submission, placement and judgement, as operations on
the Loop Controller's record. -/

namespace Sys2Proof.Machine

/-- The mark of a station in a seen mask (R41, Table 12-3). -/
def markOf (i : Fin 16) : Half := 1 <<< i.val

/-- A notice as it enters the queue (R42, R43). -/
def QueueEntry.fresh (b : NoticeBody) : QueueEntry := { body := b, placed := false, seq := 0, mask := 0, rotations := 0 }

/-- A submission coalesces with a waiting entry: both are ALARM STATE for one point (R43). -/
def QueueEntry.coalesces (b : NoticeBody) (e : QueueEntry) : Bool :=
  match b, e.body with
  | .alarmState x, .alarmState y => x.point == y.point
  | _, _ => false

/-- The entries in flight: the first four (R42). -/
def Lpc.inFlight (l : Lpc) : List QueueEntry := l.queue.take 4

/-- The waiting entries (R42). -/
def Lpc.waiting (l : Lpc) : List QueueEntry := l.queue.drop 4

/-- A submission finds a waiting entry to coalesce with (R43). -/
def Lpc.mayCoalesce (b : NoticeBody) (l : Lpc) : Bool := l.waiting.any (QueueEntry.coalesces b)

/-- A submission is accepted: it coalesces, or a place is free (R43). -/
def Lpc.accepts (b : NoticeBody) (l : Lpc) : Bool := l.mayCoalesce b || l.queue.length < 16

/-- The queue after an accepted submission (R43). -/
def Lpc.submitted (b : NoticeBody) (l : Lpc) : Lpc :=
  { l with
    queue :=
      if l.mayCoalesce b then
        l.inFlight ++ l.waiting.map fun e => if e.coalesces b then { e with body := b } else e
      else l.queue ++ [.fresh b] }

/-- A submission answered accepted (true) or refused (false); a refused one changes nothing (R43, R44). -/
def Station.submit (b : NoticeBody) (d : Station) : Station × Bool :=
  if d.lpc.accepts b then (d.onLpc (Lpc.submitted b), true) else (d, false)

/-! ## Placement (R45, R48) -/

/-- In-flight entries placed in order: an entry not yet placed takes the next sequence number (R41, R45). -/
def placeEntries : Byte → List QueueEntry → List QueueEntry × Byte
  | n, [] => ([], n)
  | n, e :: es =>
    if e.placed then
      let r := placeEntries n es
      (e :: r.1, r.2)
    else
      let r := placeEntries (n + 1) es
      ({ e with placed := true, seq := n, rotations := 0 } :: r.1, r.2)

/-- The record placed for an entry: its accumulated mask with the own mark set (R45). -/
def QueueEntry.record (own : Fin 16) (e : QueueEntry) : Notice :=
  { sender := stationByte own, seq := e.seq, mask := e.mask ||| markOf own, body := e.body }

/-- The Loop Controller after placing its in-flight entries (R45). -/
def Lpc.placed (l : Lpc) : Lpc :=
  let r := placeEntries l.nextSeq l.inFlight
  { l with queue := r.1 ++ l.waiting, nextSeq := r.2 }

/-- The floor times of the TIME SET entries placed for the first time (R45). -/
def Lpc.firstTimeSets (l : Lpc) : List Word :=
  l.inFlight.filterMap fun e =>
    match e.body with
    | .timeSet t => if e.placed then none else some t
    | _ => none

/-! ## Judgement (R46, R47) -/

/-- What a return decides for an entry (R47). -/
inductive Judged where
  | complete
  | kept (e : QueueEntry)
  | lost (e : QueueEntry)
  deriving DecidableEq, Repr

/-- One placed entry judged against a live set with the records of the returned slot (R47). An entry whose sequence number no record
carries has come back with no new mark (log 47). -/
def QueueEntry.judge (live : List (Fin 16)) (records : List Notice) (e : QueueEntry) : Judged :=
  let mask := match records.find? fun r => r.seq == e.seq with
    | some r => e.mask ||| r.mask
    | none => e.mask
  if live.all fun i => mask &&& markOf i != 0 then .complete
  else if e.rotations + 1 ≥ 3 then .lost { e with mask := mask, rotations := 3 }
  else .kept { e with mask := mask, rotations := e.rotations + 1 }

/-- An in-flight entry at a return: one that is not placed is not judged (R46). -/
def QueueEntry.atReturn (live : List (Fin 16)) (records : List Notice) (e : QueueEntry) : Judged :=
  if e.placed then e.judge live records else .kept e

/-- The queue after the judgement of a return (R47). -/
def Lpc.judged (records : List Notice) (l : Lpc) : Lpc :=
  { l with
    queue := (l.inFlight.filterMap fun e =>
        match e.atReturn l.live records with
        | .kept e => some e
        | _ => none) ++ l.waiting }

/-- The bodies of the notices that a return loses, in queue order (R47, R49). -/
def Lpc.losses (records : List Notice) (l : Lpc) : List NoticeBody :=
  l.inFlight.filterMap fun e =>
    match e.atReturn l.live records with
    | .lost e => some e.body
    | _ => none

end Sys2Proof.Machine
end

