-- ==== Sys2Proof/Machine/Alarm.lean ====
section
/-! DEFINITION. The Alarm Unit (09_alarm_points_active_list_and_floor_mirror.md): conditions, points, trip request,
announcement, acknowledgement, shelving, flood, the floor mirror, and the meanings of its commands but the reads. -/

namespace Sys2Proof.Machine

/-! ## Announcement (R160, R161) -/

/-- The ALARM STATE body of a point as it stands (R160). -/
def Point.body (i : Fin 32) (c : PointCfg) (p : Point) : AlarmBody :=
  { point := BitVec.ofNat 8 i.val, occurrence := p.occurrence, state := p.state, cls := c.cls, kind := some c.kind,
    raiseTime := p.raiseTime, firstOut := if p.firstOut then 1 else 0 }

/-- Announcements of the point are deferred: class LOW in FLOOD (R166). -/
def Station.deferred (c : PointCfg) (d : Station) : Bool := c.cls == .low && d.alm.flood

/-- A point's state submitted: accepted, it is what peers hold; refused, the point is announce pending (R160, R44). -/
def Station.submitPoint (i : Fin 32) (c : PointCfg) (d : Station) : Station :=
  match d.submit (.alarmState (d.alm.points[i].body i c)) with
  | (d, true) => d.onPoint i fun p => { p with pending := false, announced := .known p.state }
  | (d, false) => d.onPoint i fun p => { p with pending := true }

/-- A point that must be announced (R160). -/
def Station.announce (i : Fin 32) (d : Station) : Station :=
  match d.alm.points[i].cfg with
  | none => d
  | some c =>
    if d.alm.points[i].shelf.isSome then d
    else if d.deferred c || d.alm.points[i].pending then d.onPoint i fun p => { p with pending := true }
    else d.submitPoint i c

/-- A resubmission pass over points in order (R160). -/
def Station.resubmitFrom : List (Fin 32) → Station → Station
  | [], d => d
  | i :: rest, d =>
    match d.alm.points[i].cfg with
    | none => Station.resubmitFrom rest d
    | some c =>
      if !d.alm.points[i].pending || d.alm.points[i].shelf.isSome || d.deferred c then Station.resubmitFrom rest d
      else if d.alm.points[i].announced = .known d.alm.points[i].state then
        Station.resubmitFrom rest (d.onPoint i fun p => { p with pending := false })
      else if d.lpc.accepts (.alarmState (d.alm.points[i].body i c)) then Station.resubmitFrom rest (d.submitPoint i c)
      else d

/-- A resubmission pass (R160). -/
def Station.resubmit (d : Station) : Station := d.resubmitFrom (List.finRange 32)

/-! ## Trip request and summary (R159, R169) -/

/-- The lowest-indexed configured point that watches a condition (R159). -/
def Station.findPoint (k : CondKind) (inst : Nat) (d : Station) : Option (Fin 32) :=
  (List.finRange 32).find? fun i =>
    match d.alm.points[i].cfg with
    | some c => c.kind == k && c.inst == inst
    | none => false

/-- The trip request as the points and the ESTOP condition give it (R159). -/
def Station.tripNow (d : Station) : Option TripRequest :=
  match d.alm.active.findSome? fun i =>
      match d.alm.points[i].cfg with
      | some c => if c.cls = .trip then some { point := some i, kind := c.kind : TripRequest } else none
      | none => none with
  | some t => some t
  | none => if d.condition .estop 0 then some { point := d.findPoint .estop 0, kind := .estop } else none

/-- The request is recomputed; a change is staged and posted (R159). -/
def Station.recomputeTrip (d : Station) : Station :=
  if d.tripNow = d.alm.trip then d
  else
    (((d.onAlm fun a => { a with trip := d.tripNow }).onStaging fun g =>
      { g with alarm := some { epoch := d.alm.epoch, trip := d.tripNow } })).post .alarmChange

/-- A point counts in the summary: configured and not shelved (R169). -/
def Point.visible (p : Point) : Bool := p.cfg.isSome && p.shelf.isNone

/-- The unacknowledged count (R169). -/
def Alm.unacked (a : Alm) : Nat :=
  (a.points.toList.filter fun p => p.visible && (p.state == .raisedUnacked || p.state == .returnedUnacked)).length

/-- Some visible point of a class stands raised (R169). -/
def Alm.raisedClass (a : Alm) (k : AlarmClass) : Bool :=
  a.points.toList.any fun p => p.visible && (p.state == .raisedUnacked || p.state == .raisedAcked) &&
    (match p.cfg with | some c => c.cls == k | none => false)

/-- The alarm summary (R169). -/
def Alm.summary (a : Alm) : AlarmSummary :=
  { unacked := BitVec.ofNat 8 a.unacked
    highest := if a.raisedClass .trip then .trip else if a.raisedClass .high then .high
      else if a.raisedClass .low then .low else .none
    flood := if a.flood then 1 else 0 }

/-- The alarm summary is written whole (R169). -/
def Station.writeSummary (d : Station) : Station := d.onStaging fun g => { g with summary := some d.alm.summary }

/-! ## Points (R155 to R158) -/

/-- The point's class is TRIP. -/
def Station.isTripPoint (i : Fin 32) (d : Station) : Bool :=
  match d.alm.points[i].cfg with
  | some c => c.cls == .trip
  | none => false

/-- What follows a point's raise or change of state (R157, R159, R169). -/
def Station.pointChanged (i : Fin 32) (d : Station) : Station :=
  let d := (d.announce i).post .alarmChange
  (if d.isTripPoint i then d.recomputeTrip else d).writeSummary

/-- The active list is replaced; a change of its length is handed to the Shift Report Unit (R158). -/
def Station.setActive (l : List (Fin 32)) (d : Station) : Station :=
  let before := d.alm.active.length
  let d := d.onAlm fun a => { a with active := l }
  if l.length = before then d else d.contribute (.activeLength l.length)

/-- The FLOOD section's thresholds (R166). -/
def Station.floodCfg (d : Station) : FloodCfg := d.cfg.flood.getD { high := 32, low := 0 }

/-- A raise enters the recent-raise list, and may bring the station into FLOOD (R166). -/
def Station.addRecent (d : Station) : Station :=
  let d := d.onAlm fun a => { a with recent := (a.recent.drop (a.recent.length - 31)) ++ [d.now] }
  if !d.alm.flood && d.alm.recent.length > d.floodCfg.high then
    (((d.onAlm fun a => { a with flood := true }).contribute .floodEpisode).writeSummary).post .alarmChange
  else d

/-- The raise of a point (R157). It is announced after the five steps, so a LOW raise that brings the station into FLOOD is itself deferred
(log 72). -/
def Station.raisePoint (i : Fin 32) (d : Station) : Station :=
  let d := d.onPoint i fun p =>
    { p with occurrence := p.occurrence + 1, raiseTime := d.sru.time, raiseShift := d.sru.shift,
             state := .raisedUnacked, gone := false }
  let d := d.setActive ((d.alm.active.filter (· != i)) ++ [i])
  ((d.addRecent).contribute .raise).pointChanged i

/-- A point's entry to NORMAL (R157, R158). -/
def Station.pointNormal (i : Fin 32) (d : Station) : Station :=
  let d := d.onPoint i fun p => { p with state := .normal, gone := false, firstOut := false }
  (d.setActive (d.alm.active.filter (· != i))).pointChanged i

/-- The qualified condition becomes present and the point raises (R155, Table 9-2). -/
def Station.qualify (i : Fin 32) (d : Station) : Station :=
  let d := d.onPoint i fun p => { p with qualified := true, delay := none }
  match d.alm.points[i].state, d.alm.points[i].gone with
  | .normal, _ => d.raisePoint i
  | .returnedUnacked, _ => d.raisePoint i
  | .raisedUnacked, true => d.raisePoint i
  | _, _ => d

/-- The qualified condition becomes absent and the point returns (R155, Table 9-2). -/
def Station.unqualify (i : Fin 32) (d : Station) : Station :=
  let d := d.onPoint i fun p => { p with qualified := false, delay := none }
  match d.alm.points[i].state with
  | .raisedUnacked =>
    if (match d.alm.points[i].cfg with | some c => c.latched | none => false) then d.onPoint i fun p => { p with gone := true }
    else (d.onPoint i fun p => { p with state := .returnedUnacked }).pointChanged i
  | .raisedAcked => d.pointNormal i
  | _ => d

/-- A watched condition is passed to a point (R155). -/
def Station.setWatched (i : Fin 32) (v : Bool) (d : Station) : Station :=
  match d.alm.points[i].cfg with
  | none => d
  | some c =>
    if d.alm.points[i].watched = v then d
    else
      let d := d.onPoint i fun p => { p with watched := v }
      match d.alm.points[i].qualified, v with
      | false, true =>
        if c.onDelay = 0 then d.qualify i else d.onPoint i fun p => { p with delay := some (.on (d.inSec c.onDelay)) }
      | true, false =>
        if c.offDelay = 0 then d.unqualify i else d.onPoint i fun p => { p with delay := some (.off (d.inSec c.offDelay)) }
      | _, _ => d.onPoint i fun p => { p with delay := none }

/-! ## Conditions (R153, R156) -/

/-- A point watches a kind and instance of the condition table; pressure points judge for themselves (R156). -/
def Point.watches (k : CondKind) (inst : Nat) (p : Point) : Bool :=
  match p.cfg with
  | some c => c.kind == k && c.inst == inst
  | none => false

/-- A block reports a condition present or absent (R153); the points that watch it take it lowest index first (log 63). -/
def Station.report (k : CondKind) (inst : Nat) (present : Bool) (d : Station) : Station :=
  if d.condition k inst = present then d
  else
    let c : Condition := { kind := k, inst := inst }
    let d := d.onAlm fun a =>
      { a with present := if present then a.present ++ [c] else a.present.filter (· != c) }
    let d := forAll (fun i d => if d.alm.points[i].watches k inst then d.setWatched i present else d) d
    if k = .estop then d.recomputeTrip else d

/-- A pressure handed for a compartment number, or none for no pressure: the pressure points judge it, lowest index first (R156; log 63). -/
def Station.handPressure (comp : Nat) (pressure : Option Nat) (d : Station) : Station :=
  forAll (fun i d =>
    match d.alm.points[i].cfg with
    | some c =>
      if c.inst = comp && (c.kind == .pressureHigh || c.kind == .pressureLow) then
        d.setWatched i (match pressure with
          | some x => if c.kind = .pressureHigh then x > c.threshold else x < c.threshold
          | none => false)
      else d
    | none => d) d

/-! ## Acknowledgement, first-out, lost notices, shelving -/

/-- An acknowledgement of the current occurrence (Table 9-2). -/
def Station.ackPoint (i : Fin 32) (d : Station) : Station :=
  match d.alm.points[i].state, d.alm.points[i].gone with
  | .raisedUnacked, false => (d.onPoint i fun p => { p with state := .raisedAcked }).pointChanged i
  | .raisedUnacked, true => d.pointNormal i
  | .returnedUnacked, _ => d.pointNormal i
  | _, _ => d

/-- A configured own point by its index byte. -/
def Station.ownPoint (b : Byte) (d : Station) : Option (Fin 32) :=
  if h : b.toNat < 32 then
    if d.alm.points[b.toNat].cfg.isSome then some ⟨b.toNat, h⟩ else none
  else none

/-- An ACK REQUEST applied at its target (R164). -/
def Station.applyAck (point occurrence : Byte) (d : Station) : Station :=
  match d.ownPoint point with
  | none => d
  | some i => if d.alm.points[i].occurrence = occurrence then d.ackPoint i else d.contribute .ackTooLate

/-- A first-out flag that changes is announced (R157), but that one set on a point in NORMAL is carried from its next raise on (R159;
log 19). -/
def Station.setFirstOut (i : Fin 32) (v : Bool) (d : Station) : Station :=
  if d.alm.points[i].firstOut = v then d
  else
    let d := d.onPoint i fun p => { p with firstOut := v }
    if v && d.alm.points[i].state == .normal then d else d.announce i

/-- A trip hands a first-out that names an own point: its flag is set and every other cleared (R159). -/
def Station.handFirstOut (i : Fin 32) (d : Station) : Station :=
  forAll (fun j d => if j = i then d else d.setFirstOut j false) (d.setFirstOut i true)

/-- What the Alarm Unit does with a notice the Loop Controller has lost (R161). -/
def Station.almNoticeLost (b : NoticeBody) (d : Station) : Station :=
  let d := d.contribute .noticeLost
  match b with
  | .alarmState a =>
    match d.ownPoint a.point with
    | none => d
    | some i =>
      match d.alm.points[i].cfg with
      | none => d
      | some c =>
        if d.alm.points[i].shelf.isSome then d.onPoint i fun p => { p with announced := .unknown }
        else if d.alm.points[i].pending || d.deferred c then
          d.onPoint i fun p => { p with announced := .unknown, pending := true }
        else d.submitPoint i c
  | _ => d

/-- A point is unshelved, and announced when peers may hold another state (R165). -/
def Station.unshelvePoint (i : Fin 32) (d : Station) : Station :=
  if d.alm.points[i].shelf.isNone then d
  else
    let d := (d.onPoint i fun p => { p with shelf := none }).writeSummary
    if d.alm.points[i].state ≠ .normal || d.alm.points[i].announced ≠ .known .normal then d.announce i else d

/-! ## The floor mirror (R167, R168) -/

/-- The mirror is replaced; a change posts ALARM CHANGE (R167). -/
def Station.setMirror (m : List MirrorEntry) (d : Station) : Station :=
  if m = d.alm.mirror then d else (d.onAlm fun a => { a with mirror := m }).post .alarmChange

/-- A station's alarm epoch is checked against the recorded one (R168). -/
def Station.checkEpoch (i : Fin 16) (d : Station) : Station :=
  match d.lpc.floor[i].image with
  | none => d
  | some g =>
    if d.alm.epochs[i] = some g.epoch then d
    else
      let d := if d.alm.epochs[i].isNone then d else d.setMirror (d.alm.mirror.filter fun e => e.owner != i)
      d.onAlm fun a => { a with epochs := vecModify a.epochs i fun _ => some g.epoch }

/-- An entry is the one of an owner and a point. -/
def MirrorEntry.isFor (owner : Fin 16) (point : Byte) (e : MirrorEntry) : Bool := e.owner == owner && e.body.point == point

/-- The mirror without its earliest entry of class LOW in RAISED ACKED, if there is one (R167). -/
def dropAckedLow : List MirrorEntry → Option (List MirrorEntry)
  | [] => none
  | e :: rest =>
    if e.body.cls = .low && e.body.state = .raisedAcked then some rest else (dropAckedLow rest).map fun l => e :: l

/-- An ALARM STATE notice applied to the mirror after the epoch check (R167). -/
def Station.applyAlarm (owner : Fin 16) (b : AlarmBody) (d : Station) : Station :=
  let d := d.checkEpoch owner
  let others := d.alm.mirror.filter fun e => !e.isFor owner b.point
  match d.alm.mirror.find? fun e => e.isFor owner b.point with
  | some e =>
    if b.state = .normal then d.setMirror others
    else d.setMirror (others ++ [{ e with body := b }])
  | none =>
    if b.state = .normal then d
    else
      let added : MirrorEntry := { owner := owner, body := b, silent := false }
      if d.alm.mirror.length < 64 then d.setMirror (d.alm.mirror ++ [added])
      else match dropAckedLow d.alm.mirror with
        | some m => d.setMirror (m ++ [added])
        | none => d.onAlm fun a => { a with overflow := satAdd top16 a.overflow 1 }

/-! ## The start (R154, R166, R169) -/

/-- A configured point at the accepted START, its watched condition taken from the condition table (R154). -/
def Station.startPoint (i : Fin 32) (d : Station) : Station :=
  match d.cfg.points[i] with
  | none => d
  | some c =>
    let d := d.onPoint i fun _ => { Point.first with cfg := some c }
    if d.condition c.kind c.inst then d.setWatched i true else d

/-- The Alarm Unit at the accepted START (R154, R166, R169). The points start lowest index first (log 70). -/
def Station.startAlarms (d : Station) : Station :=
  let d := d.onAlm fun a => { a with epoch := a.epoch + 1, flood := false }
  let d := (d.onStaging fun g => { g with alarm := some { epoch := d.alm.epoch, trip := d.alm.trip } }).writeSummary
  forAll Station.startPoint d

/-! ## Meanings -/

/-- ON_DELAY_EXPIRY (R155): the qualified condition becomes present and the point raises. -/
def execOnDelayExpiry (point : Fin 32) (s : State) : Host.Outcome State Fault Refusal :=
  act (.onDelayExpiry point) (fun d =>
    match d.alm.points[point].delay with
    | some (.on _) => d.qualify point
    | _ => d) s

/-- OFF_DELAY_EXPIRY (R155): the qualified condition becomes absent and the point returns. -/
def execOffDelayExpiry (point : Fin 32) (s : State) : Host.Outcome State Fault Refusal :=
  act (.offDelayExpiry point) (fun d =>
    match d.alm.points[point].delay with
    | some (.off _) => d.unqualify point
    | _ => d) s

/-- ALM_PLACE_FREE (R44, R160): a resubmission pass. -/
def execAlmPlaceFree (s : State) : Host.Outcome State Fault Refusal :=
  act .almPlaceFree Station.resubmit s

/-- RECENT_RAISE_EXPIRY (R166): the oldest entry leaves the recent-raise list, and FLOOD may end. -/
def execRecentRaiseExpiry (s : State) : Host.Outcome State Fault Refusal :=
  act .recentRaiseExpiry (fun d =>
    if d.alm.recent.isEmpty then d
    else
      let d := d.onAlm fun a => { a with recent := a.recent.tail }
      if d.alm.flood && d.alm.recent.length ≤ d.floodCfg.low then
        (((d.onAlm fun a => { a with flood := false }).writeSummary).post .alarmChange).resubmit
      else d) s

/-- ALM_FLOOR_REFRESH (R168): epochs are checked for the peers in view and owner silent marks are set and cleared. -/
def execAlmFloorRefresh (s : State) : Host.Outcome State Fault Refusal :=
  act .almFloorRefresh (fun d =>
    let d := (d.inView.map (·.1)).foldl (fun d i => if i = d.own then d else d.checkEpoch i) d
    d.setMirror (d.alm.mirror.map fun e => { e with silent := !d.lpc.live.contains e.owner })) s

/-- ACK_ALARM on an own point (R162). -/
def Station.ownAck (point occurrence : Byte) (d : Station) : Station :=
  match d.ownPoint point with
  | none => d.badField
  | some i =>
    if d.alm.points[i].occurrence ≠ occurrence then d.answer .tooLate 0 []
    else (d.ackPoint i).ok

/-- ACK_ALARM on a peer's point (R163). -/
def Station.remoteAck (owner : Fin 16) (point occurrence : Byte) (d : Station) : Station :=
  match d.alm.mirror.find? fun e => e.isFor owner point with
  | none => d.refuse .noEntry
  | some e =>
    if e.silent then d.refuse .ownerSilent
    else if e.body.occurrence ≠ occurrence then d.answer .tooLate 0 []
    else if e.body.state = .raisedAcked then d.ok
    else match d.submit (.ackRequest (stationByte owner) point occurrence) with
      | (d, true) => d.ok
      | (d, false) => d.answer .queueFull 0 []

/-- ACK_ALARM (R162, R163): the fields are checked, then the own point or the mirror entry. -/
def execAckAlarm (station point occurrence : Byte) (s : State) : Host.Outcome State Fault Refusal :=
  act (.ackAlarm station point occurrence) (fun d =>
    if !d.ppt.started then d.wrongState
    else match stationIdx station with
      | none => d.badField
      | some i =>
        if point.toNat > 31 then d.badField
        else if i = d.own then d.ownAck point occurrence
        else d.remoteAck i point occurrence) s

/-- SHELVE (R165): the point is shelved for the duration. -/
def execShelve (point : Byte) (minutes : Half) (s : State) : Host.Outcome State Fault Refusal :=
  act (.shelve point minutes) (fun d =>
    if !d.ppt.started then d.wrongState
    else match d.ownPoint point with
      | none => d.badField
      | some i =>
        if minutes.toNat < 1 || minutes.toNat > 480 then d.badField
        else if d.isTripPoint i then d.refuse .tripClass
        else
          ((d.onPoint i fun p =>
            { p with shelf := some (d.inSec (60 * minutes.toNat)), pending := false }).writeSummary).ok) s

/-- UNSHELVE (R165). -/
def execUnshelve (point : Byte) (s : State) : Host.Outcome State Fault Refusal :=
  act (.unshelve point) (fun d =>
    if !d.ppt.started then d.wrongState
    else match d.ownPoint point with
      | none => d.badField
      | some i => (d.unshelvePoint i).ok) s

/-- SHELF_EXPIRY (R165): the point is unshelved. -/
def execShelfExpiry (point : Fin 32) (s : State) : Host.Outcome State Fault Refusal :=
  act (.shelfExpiry point) (fun d => d.unshelvePoint point) s

end Sys2Proof.Machine
end

