-- ==== Sys2Proof/Machine/Drive.lean ====
section
/-! DEFINITION. The Drive Output Unit (05_drive_output_lines_and_rate_modulation.md): carrier, pattern, preload and active value,
valve, stroke and igniter lines, the force, and the meanings of its commands but READ OUTPUT. -/

namespace Sys2Proof.Machine

/-- The answer to a command on a line (R72). -/
inductive DouAnswer where
  | done | refused | heldOff
  deriving DecidableEq, Repr

/-! ## Settings of a line (Table 5-1) -/

def OutLine.kind (l : OutLine) : OutKind :=
  match l.cfg with
  | some c => c.kind
  | none => .unused

def OutLine.isStroke (l : OutLine) : Bool := l.kind == .strokeForward || l.kind == .strokeReturn

/-- A line's owner by its kind and function (Table 5-1). -/
def OutLine.owner (l : OutLine) : Owner :=
  match l.cfg with
  | none => .noOwner
  | some c =>
    match c.kind with
    | .unused => .noOwner
    | .valve | .igniter => .burnerSequencer
    | .strokeForward | .strokeReturn => .grateCooler
    | .reference => if c.fn = .feeder then .feedController else .grateCooler

/-- The line is forced by the emergency stop (Table 5-1). -/
def OutLine.forcible (l : OutLine) : Bool :=
  match l.cfg with
  | none => false
  | some c =>
    match c.kind with
    | .unused => false
    | .reference => c.fn == .feeder
    | _ => true

/-! ## Carrier and pattern (R74 to R76) -/

/-- The rank of each pattern position (Table 5-2). -/
def patternRank (p : Nat) : Nat :=
  [0, 8, 4, 12, 2, 10, 6, 14, 1, 9, 5, 13, 3, 11, 7, 15].getD p 15

/-- The step of a carrier period that starts in a position with an active value (R75). -/
def stepFor (active position : Nat) : Nat :=
  active / 16 + (if patternRank position < active % 16 then 1 else 0)

/-- The pin level of the inactive part: low, or high where the polarity is INVERTED (R74). -/
def OutLine.inactiveLevel (l : OutLine) : Bool :=
  match l.cfg with
  | some c => c.inverted
  | none => false

def OutLine.carrierPeriod (l : OutLine) : Nat :=
  match l.cfg with
  | some c => c.carrier
  | none => 0

def OutLine.intervalTicks (l : OutLine) : Nat :=
  match l.cfg with
  | some c => c.interval * Config.msTicks
  | none => 0

/-- The length of the active part of a carrier period (R74). -/
def activePart (period step : Nat) : Nat := period * step / 255

/-- A carrier period starts with a step (R74). -/
def OutLine.startPeriod (now step : Nat) (l : OutLine) : OutLine :=
  let len := activePart l.carrierPeriod step
  { l with
    step := step
    carrierEnd := some (now + l.carrierPeriod)
    activeEnd := if len = 0 || len = l.carrierPeriod then none else some (now + len)
    pin := if len = 0 then l.inactiveLevel else !l.inactiveLevel }

/-- The pin goes inactive at once, and the step in force is 0 (R74). -/
def OutLine.goInactive (l : OutLine) : OutLine := { l with step := 0, activeEnd := none, pin := l.inactiveLevel }

/-- The pattern restarts at position 0 with a fresh modulation interval (R76). -/
def OutLine.restartPattern (now : Nat) (l : OutLine) : OutLine :=
  { l with position := 0, patternEnd := some (now + l.intervalTicks) }

/-- The active value change event to the owner of a REFERENCE line (R79). -/
def OutCfg.changeEvent (c : OutCfg) (v : Nat) (cause : ChangeCause) : Instr :=
  if c.fn = .feeder then .fdcActiveValueChange (Fin.ofNat 2 (c.inst - 1)) v cause
  else .gccFanActiveValueChange (Fin.ofNat 4 (c.inst - 1)) v cause

/-- The active value of a line is set; a change is delivered to the owner (R79). -/
def Station.setActiveValue (i : Fin 16) (v : Nat) (cause : ChangeCause) (d : Station) : Station :=
  if d.dou.lines[i].active = v then d
  else
    let d := d.onOut i fun l => { l with active := v }
    match d.dou.lines[i].cfg with
    | some c => d.raise (c.changeEvent v cause)
    | none => d

/-! ## Commands on a REFERENCE line (R77, R78, R85) -/

/-- SET PRELOAD by an owner (R72, R77, R78, R85). -/
def Station.setPreload (i : Fin 16) (who : Owner) (value : Nat) (d : Station) : Station × DouAnswer :=
  let l := d.dou.lines[i]
  if l.kind ≠ .reference || l.owner ≠ who then (d, .refused)
  else
    let v := min 4080 value
    let d := d.onOut i fun l => { l with preload := v, firstWrite := l.firstWrite && v == 0 }
    if l.forced then (d, .done)
    else if v = 0 then
      ((d.setActiveValue i 0 .immediate).onOut i fun l => l.goInactive.restartPattern d.now, .done)
    else if l.firstWrite then
      ((d.setActiveValue i v .immediate).onOut i fun l => l.restartPattern d.now, .done)
    else (d, .done)

/-! ## Commands on VALVE and STROKE lines (R80, R81, R85) -/

/-- The other stroke line of the same compartment (R81). -/
def Station.strokePartner (l : OutLine) (d : Station) : Option (Fin 16) :=
  match l.cfg with
  | some c =>
    match c.kind with
    | .strokeForward => d.findOut .strokeReturn .compartment c.inst
    | .strokeReturn => d.findOut .strokeForward .compartment c.inst
    | _ => none
  | none => none

/-- A stroke line's partner is ON (R81). -/
def Station.partnerOn (l : OutLine) (d : Station) : Bool :=
  match d.strokePartner l with
  | some j => d.dou.lines[j].on
  | none => false

/-- LINE ON by an owner (R72, R80, R81, R85). -/
def Station.lineOn (i : Fin 16) (who : Owner) (d : Station) : Station × DouAnswer :=
  let l := d.dou.lines[i]
  if !(l.kind == .valve || l.isStroke) || l.owner ≠ who then (d, .refused)
  else if l.forced then (d, .heldOff)
  else if d.partnerOn l then (d.onOut i fun l => { l with refusals := satAdd top16 l.refusals 1 }, .refused)
  else (d.onOut i fun l => { l with on := true, pin := true }, .done)

/-- LINE OFF by an owner (R72, R80, R81, R85). -/
def Station.lineOff (i : Fin 16) (who : Owner) (d : Station) : Station × DouAnswer :=
  let l := d.dou.lines[i]
  if !(l.kind == .valve || l.isStroke) || l.owner ≠ who then (d, .refused)
  else (d.onOut i fun l => { l with on := false, pin := false }, .done)

/-! ## Commands on the IGNITER line (R82, R83, R85) -/

/-- A pulse starts (R82). -/
def OutLine.startPulse (now : Nat) (l : OutLine) : OutLine :=
  match l.cfg with
  | some c =>
    { l with inPulse := true, pin := true, pulseEnd := some (now + c.pulseWidth * 100),
             spacingEnd := some (now + c.spacing * Config.msTicks) }
  | none => l

/-- The line goes IDLE with the pin low (R83). -/
def OutLine.goIdle (l : OutLine) : OutLine :=
  { l with burst := .idle, inPulse := false, pin := false, pulseEnd := none, spacingEnd := none }

/-- BURST START by an owner (R72, R82, R85). -/
def Station.burstStart (i : Fin 16) (who : Owner) (d : Station) : Station × DouAnswer :=
  let l := d.dou.lines[i]
  if l.kind ≠ .igniter || l.owner ≠ who then (d, .refused)
  else if l.forced then (d, .heldOff)
  else if l.burst = .idle then (d.onOut i fun l => { l.startPulse d.now with burst := .bursting }, .done)
  else (d, .done)

/-- BURST END by an owner (R72, R83). -/
def Station.burstEnd (i : Fin 16) (who : Owner) (d : Station) : Station × DouAnswer :=
  let l := d.dou.lines[i]
  if l.kind ≠ .igniter || l.owner ≠ who then (d, .refused)
  else if l.burst = .bursting then
    (d.onOut i fun l => if l.inPulse then { l with burst := .ending, spacingEnd := none } else l.goIdle, .done)
  else (d, .done)

/-- BURST CUT by an owner (R72, R83). -/
def Station.burstCut (i : Fin 16) (who : Owner) (d : Station) : Station × DouAnswer :=
  let l := d.dou.lines[i]
  if l.kind ≠ .igniter || l.owner ≠ who then (d, .refused)
  else if l.burst = .idle then (d, .done)
  else (d.onOut i OutLine.goIdle, .done)

/-! ## The force (R84, R85) -/

/-- One line at the start of the force (R84). -/
def Station.forceLine (i : Fin 16) (d : Station) : Station :=
  let l := d.dou.lines[i]
  if !l.forcible then d
  else
    let d := d.onOut i fun l => { l with forced := true }
    match l.kind with
    | .reference =>
      ((d.onOut i fun l => { l with preload := 0 }).setActiveValue i 0 .force).onOut i fun l =>
        l.goInactive.restartPattern d.now
    | .igniter => d.onOut i OutLine.goIdle
    | _ => d.onOut i fun l => { l with on := false, pin := false }

/-! ## The start (R73) -/

/-- A line at the accepted START (R73). -/
def OutLine.started (now : Nat) (cfg : Option OutCfg) : OutLine :=
  match cfg with
  | none => .first
  | some c =>
    let l := { OutLine.first with cfg := some c }
    if c.kind = .reference then { (l.restartPattern now).startPeriod now 0 with firstWrite := true } else l

/-- The Drive Output Unit at the accepted START (R72, R73). -/
def Station.startOutputs (d : Station) : Station :=
  forAll (fun i d => d.onOut i fun _ => .started d.now d.cfg.outputs[i]) d

/-! ## Meanings -/

/-- PATTERN_TIMER_EXPIRY (R76, R77): the position advances; at the pattern end the active value takes the preload unless the
line is forced. -/
def execPatternTimerExpiry (line : Fin 16) (s : State) : Host.Outcome State Fault Refusal :=
  act (.patternTimerExpiry line) (fun d =>
    let l := d.dou.lines[line]
    if l.patternEnd.isNone then d
    else if l.position < 15 then
      d.onOut line fun l => { l with position := l.position + 1, patternEnd := some (d.now + l.intervalTicks) }
    else
      let d := d.onOut line fun l => l.restartPattern d.now
      if l.forced then d else d.setActiveValue line l.preload .patternEnd) s

/-- CARRIER_PERIOD_START (R74, R75): a carrier period starts, its step fixed by the active value and the position. -/
def execCarrierPeriodStart (line : Fin 16) (s : State) : Host.Outcome State Fault Refusal :=
  act (.carrierPeriodStart line) (fun d =>
    if d.dou.lines[line].carrierEnd.isNone then d
    else d.onOut line fun l => l.startPeriod d.now (stepFor l.active l.position)) s

/-- ACTIVE_PART_END (R74): the active part ends and the pin goes to the inactive level. -/
def execActivePartEnd (line : Fin 16) (s : State) : Host.Outcome State Fault Refusal :=
  act (.activePartEnd line) (fun d =>
    if d.dou.lines[line].activeEnd.isNone then d
    else d.onOut line fun l => { l with activeEnd := none, pin := l.inactiveLevel }) s

/-- IGNITER_PULSE_WIDTH_EXPIRY (R82, R83): the pulse ends; in ENDING the line goes IDLE. -/
def execIgniterPulseWidthExpiry (s : State) : Host.Outcome State Fault Refusal :=
  act .igniterPulseWidthExpiry (fun d =>
    match d.findOut .igniter .igniter 0 with
    | none => d
    | some i =>
      if d.dou.lines[i].pulseEnd.isNone then d
      else d.onOut i fun l =>
        if l.burst = .ending then l.goIdle else { l with inPulse := false, pin := false, pulseEnd := none }) s

/-- IGNITER_SPACING_EXPIRY (R82): in BURSTING the next pulse starts. -/
def execIgniterSpacingExpiry (s : State) : Host.Outcome State Fault Refusal :=
  act .igniterSpacingExpiry (fun d =>
    match d.findOut .igniter .igniter 0 with
    | none => d
    | some i =>
      if d.dou.lines[i].spacingEnd.isNone || d.dou.lines[i].burst ≠ .bursting then d
      else d.onOut i fun l => l.startPulse d.now) s

/-- DOU_FORCE_START (R84): the force starts on every forced line. The FORCE active value changes of two FEEDER lines, which R79 leaves without
an order, are raised lowest output line first (log 70). -/
def execDouForceStart (s : State) : Host.Outcome State Fault Refusal :=
  act .douForceStart (fun d => forAll Station.forceLine d) s

/-- DOU_FORCE_END (R85): every forced flag is cleared. -/
def execDouForceEnd (s : State) : Host.Outcome State Fault Refusal :=
  act .douForceEnd (fun d => forAll (fun i d => d.onOut i fun l => { l with forced := false }) d) s

end Sys2Proof.Machine
end

