-- ==== Sys2Proof/Machine/Burner.lean ====
section
/-! DEFINITION. The Burner Sequencer (06_burner_sequencer_and_flame_monitor.md): its lines, flame monitor, transitions, trip, and
the meanings of its commands. -/

namespace Sys2Proof.Machine

/-! ## Parts and lines (R87 to R89) -/

/-- The burner part is written to the staging record (R87). -/
def Station.stageBurner (d : Station) : Station :=
  match d.cfg.burner with
  | none => d
  | some c => d.onStaging fun g =>
      { g with burner := some { letter := c.letter, state := d.bsq.state, demand := wire32 d.bsq.demand } }

/-- A state is recorded with its heat demand: the part is written and BURNER STATE posted (R87). -/
def Station.recordState (st : BsqState) (demand : Nat) (d : Station) : Station :=
  ((d.onBsq fun b => { b with state := st, demand := demand }).stageBurner).post .burnerState

/-- LINE ON to one of the burner's valves; a line that is not there answers done. -/
def Station.valveOn (fn : OutFn) (d : Station) : Station × DouAnswer :=
  match d.findOut .valve fn 0 with
  | some i => d.lineOn i .burnerSequencer
  | none => (d, .done)

/-- LINE OFF to one of the burner's valves. -/
def Station.valveOff (fn : OutFn) (d : Station) : Station :=
  match d.findOut .valve fn 0 with
  | some i => (d.lineOff i .burnerSequencer).1
  | none => d

/-- BURST START, BURST END and BURST CUT to the igniter. -/
def Station.igniterStart (d : Station) : Station × DouAnswer :=
  match d.findOut .igniter .igniter 0 with
  | some i => d.burstStart i .burnerSequencer
  | none => (d, .done)
def Station.igniterEnd (d : Station) : Station :=
  match d.findOut .igniter .igniter 0 with
  | some i => (d.burstEnd i .burnerSequencer).1
  | none => d
def Station.igniterCut (d : Station) : Station :=
  match d.findOut .igniter .igniter 0 with
  | some i => (d.burstCut i .burnerSequencer).1
  | none => d

/-- Every fuel line off (R88, R101 step 1). -/
def Station.fuelOff (d : Station) : Station := ((d.valveOff .mainFuelRelease).valveOff .pilotValve).igniterCut

/-! ## The flame monitor (R90 to R92) -/

/-- A monitor armed or disarmed: counts zero and the fail timer stopped (R90). -/
def Monitor.clear (st : FlameStatus) (m : Monitor) : Monitor :=
  { status := st, proving := 0, failTimer := none,
    scanners := Vector.ofFn fun i => { m.scanners[i] with good := 0, bad := 0 } }

def Bsq.arm (b : Bsq) : Bsq := { b with monitor := b.monitor.clear .proving }
def Bsq.disarm (b : Bsq) : Bsq := { b with monitor := b.monitor.clear .none }

def Monitor.onScanner (i : Fin 2) (f : Scanner → Scanner) (m : Monitor) : Monitor :=
  { m with scanners := vecModify m.scanners i f }

/-- A scanner is configured: a pulse channel serves it (R90). -/
def Station.scannerConfigured (d : Station) (i : Fin 2) : Bool := (d.findChannel .flameScanner (i.val + 1)).isSome

/-- The greatest good run among the configured scanners (R91). -/
def Station.bestRun (d : Station) : Nat :=
  (List.finRange 2).foldl
    (fun m i => if d.scannerConfigured i then max m d.bsq.monitor.scanners[i].good else m) 0

/-- The bad run of every configured scanner is at 2 (R92). -/
def Station.allBad (d : Station) : Bool :=
  (List.finRange 2).all fun i => !d.scannerConfigured i || d.bsq.monitor.scanners[i].bad ≥ 2

/-! ## First-out and conditions (R102 to R105) -/

/-- The condition kind of the same name as a cause kind; TRIP REQUEST and MAIN BURNER LOST have none (R102, R103). -/
def causeCondition : CauseKind → Option CondKind
  | .flameFail => some .flameFail
  | .ignitionFail => some .ignitionFail
  | .mainFlameFail => some .mainFlameFail
  | .purgeAirLost => some .purgeAirLost
  | .airFlowLost => some .airFlowLost
  | .estop => some .estop
  | .coolerLoss => some .coolerLoss
  | .loopLost => some .loopLost
  | .tripRequest => none
  | .mainBurnerLost => none

/-- The trip hold of a cause kind (R103). -/
def causeHold : CauseKind → Option HoldKind
  | .flameFail => some .flameFail
  | .ignitionFail => some .ignitionFail
  | .mainFlameFail => some .mainFlameFail
  | .purgeAirLost => some .purgeAirLost
  | .airFlowLost => some .airFlowLost
  | .coolerLoss => some .coolerLoss
  | _ => none

def holdCondition : HoldKind → CondKind
  | .flameFail => .flameFail
  | .ignitionFail => .ignitionFail
  | .mainFlameFail => .mainFlameFail
  | .purgeAirLost => .purgeAirLost
  | .airFlowLost => .airFlowLost
  | .coolerLoss => .coolerLoss

def Holds.get (h : Holds) : HoldKind → Option Nat
  | .flameFail => h.flameFail
  | .ignitionFail => h.ignitionFail
  | .mainFlameFail => h.mainFlameFail
  | .purgeAirLost => h.purgeAirLost
  | .airFlowLost => h.airFlowLost
  | .coolerLoss => h.coolerLoss

def Holds.set (h : Holds) (v : Option Nat) : HoldKind → Holds
  | .flameFail => { h with flameFail := v }
  | .ignitionFail => { h with ignitionFail := v }
  | .mainFlameFail => { h with mainFlameFail := v }
  | .purgeAirLost => { h with purgeAirLost := v }
  | .airFlowLost => { h with airFlowLost := v }
  | .coolerLoss => { h with coolerLoss := v }

/-- COOLER LOSS is present while the cooler loss timer or its trip hold runs (R103, R105). -/
def Station.reportCooler (d : Station) : Station :=
  d.report .coolerLoss 0 (d.bsq.coolerLoss.isSome || d.bsq.holds.coolerLoss.isSome)

/-- A point index byte as a point number, 255 for none (12_record_formats.md); 32 to 254 are read as none too (log 50). -/
def pointOfByte (b : Byte) : Option Nat := if b.toNat ≤ 31 then some b.toNat else none

/-- A point number as an own point. -/
def ownPointOfByte (b : Byte) : Option (Fin 32) := if h : b.toNat < 32 then some ⟨b.toNat, h⟩ else none

/-- The first-out reference of a trip request in view (R102). -/
def Station.tripRequestRef (d : Station) : FirstOut :=
  match d.tripInView with
  | none => .peer none none none
  | some (i, g) =>
    match g.firstKind with
    | some k =>
      if i = d.own then .localRef (ownPointOfByte g.firstPoint) k
      else .peer (some (i.val + 1)) (pointOfByte g.firstPoint) (some k)
    | none => .peer (some (i.val + 1)) (pointOfByte g.firstPoint) none

/-- The first-out reference of MAIN BURNER LOST: burner A's station as it last stood in view (R102). -/
def Station.mainLostRef (d : Station) : FirstOut :=
  match d.bsq.mainStation with
  | none => .peer none none none
  | some i =>
    match d.lpc.floor[i].image with
    | some g =>
      if g.tripRequest then .peer (some (i.val + 1)) (pointOfByte g.firstPoint) g.firstKind
      else .peer (some (i.val + 1)) none none
    | none => .peer (some (i.val + 1)) none none

/-- The first-out reference of a cause (R102). -/
def Station.firstOutOf (cause : CauseKind) (d : Station) : FirstOut :=
  match causeCondition cause with
  | some k => .localRef (d.findPoint k 0) k
  | none => if cause = .tripRequest then d.tripRequestRef else d.mainLostRef

/-- The trip's entry for the Shift Report Unit (R101 step 5; log 27). -/
def Station.tripEntry (cause : CauseKind) (first : FirstOut) (d : Station) : TripEntry :=
  match first with
  | .localRef p k =>
    { time := d.sru.time, cause := cause, station := some (d.own.val + 1), point := p.map (·.val), condition := some k }
  | .peer st p k => { time := d.sru.time, cause := cause, station := st, point := p, condition := k }

/-! ## Leaving a state (R88, R96, R101, R106) -/

/-- Every sequence timer, the ramp's second timer and the supervision timers stopped (R101 step 2, R106, R111). -/
def Bsq.stopTimers (b : Bsq) : Bsq :=
  { b with purge := none, postPurge := none, pilotTrial := none, ignition := none, mainTrial := none, shortfall := none,
           coolerLoss := none, firingSecond := none }

/-- A trip hold starts and its condition is present (R103). -/
def Station.startHold (k : HoldKind) (d : Station) : Station :=
  (d.onBsq fun b => { b with holds := b.holds.set (some (d.now + Config.tripHoldTicks)) k }).report (holdCondition k) 0 true

/-- The first-out reference is handed to the Alarm Unit (R101 step 6). -/
def Station.handRef (first : FirstOut) (d : Station) : Station :=
  match first with
  | .localRef (some i) _ => d.handFirstOut i
  | _ => d

/-- A trip (R101). HEAT SHORTFALL and COOLER LOSS, to which R104 and R105 give no place among the steps, are reported after step 7
(log 57). -/
def Station.trip (cause : CauseKind) (d : Station) : Station :=
  let first := d.firstOutOf cause
  let was := d.bsq.state
  let d := (d.fuelOff.onBsq fun b => b.stopTimers.disarm).recordState .lockout 0
  let d := d.onBsq fun b => { b with trip := some { time := d.sru.time, state := was, cause := cause, first := first } }
  let d := (d.contribute (.trip (d.tripEntry cause first))).handRef first
  let d := match causeHold cause with
    | some k => d.startHold k
    | none => d
  (d.report .heatShortfall 0 false).reportCooler

/-- The last stop record is set (R96, R106). -/
def Station.recordStop (r : StopReason) (d : Station) : Station :=
  d.onBsq fun b => { b with lastStop := some { reason := r, time := d.sru.time } }

/-- PURGE is left for OFF (R96, R106). -/
def Station.stopPurge (r : StopReason) (d : Station) : Station :=
  ((d.onBsq Bsq.stopTimers).recordState .off 0).recordStop r

/-- A trial or FIRING is stopped into POST-PURGE (R106). -/
def Station.stopBurner (r : StopReason) (d : Station) : Station :=
  match d.cfg.burner with
  | none => d
  | some c =>
    let d := (d.fuelOff.onBsq fun b => b.stopTimers.disarm).recordState .postPurge 0
    let d := (d.onBsq fun b => { b with postPurge := some (d.inSec c.purgeTime) }).recordStop r
    (d.report .heatShortfall 0 false).reportCooler

/-! ## Entering a state (R95, R97, R98) -/

/-- Entry to PILOT TRIAL; a held-off answer trips at once (R89, R97). -/
def Station.enterPilot (c : BurnerCfg) (d : Station) : Station :=
  let d := (d.onBsq fun b => { b with purge := none }).recordState .pilotTrial 0
  match d.valveOn .pilotValve with
  | (d, .heldOff) => d.trip .estop
  | (d, _) =>
    match d.igniterStart with
    | (d, .heldOff) => d.trip .estop
    | (d, _) => d.onBsq fun b =>
        { b.arm with pilotTrial := some (d.inSec c.pilotLimit), ignition := some (d.inSec c.ignitionTime) }

/-- Flame proven in PILOT TRIAL: entry to MAIN TRIAL; a held-off answer trips at once (R89, R97). -/
def Station.enterMain (c : BurnerCfg) (d : Station) : Station :=
  let d := (d.onBsq fun b => { b with pilotTrial := none, ignition := none }).igniterCut
  let d := d.recordState .mainTrial c.lightOff
  match d.valveOn .mainFuelRelease with
  | (d, .heldOff) => d.trip .estop
  | (d, _) => d.onBsq fun b => { b with mainTrial := some (d.inSec c.mainLimit) }

/-- Success of MAIN TRIAL: entry to FIRING (R98, R99, R111). -/
def Station.enterFiring (c : BurnerCfg) (d : Station) : Station :=
  let d := (d.onBsq fun b => { b with mainTrial := none }).valveOff .pilotValve
  let d := d.recordState .firing c.lightOff
  (d.onBsq fun b =>
    { b with rampValue := c.lightOff, rampMoment := d.now, firingSecond := some (d.inSec 1) }).contribute .burnerStart

/-- The purge under an air flow that is proven or not, at entry to PURGE (R95). -/
def Station.enterPurge (c : BurnerCfg) (d : Station) : Station :=
  let d := (d.onBsq fun b => { b with interruptions := 0, purge := none }).recordState .purge 0
  if d.lineActive .airFlowProven then d.onBsq fun b => { b with purge := some (d.inSec c.purgeTime) } else d

/-- Flame lost (R92, R98, R100). -/
def Station.flameLost (d : Station) : Station :=
  let d := d.onBsq fun b => { b with monitor := { b.monitor with status := .lost, failTimer := none } }
  match d.bsq.state with
  | .mainTrial => d.trip .mainFlameFail
  | .firing => d.trip .flameFail
  | _ => d

/-- A good capture of a scanner while the monitor is armed (R91). -/
def Station.goodCapture (c : BurnerCfg) (i : Fin 2) (d : Station) : Station :=
  let restart := some (d.inSec c.failResponse)
  let d := d.onBsq fun b =>
    { b with monitor := b.monitor.onScanner i fun s => { s with good := min 8 (s.good + 1), bad := 0 } }
  match d.bsq.monitor.status with
  | .proven => d.onBsq fun b => { b with monitor := { b.monitor with failTimer := restart } }
  | .proving =>
    let d := d.onBsq fun b => { b with monitor := { b.monitor with proving := d.bestRun } }
    if d.bsq.monitor.scanners[i].good ≥ c.proofCount then
      let d := d.onBsq fun b => { b with monitor := { b.monitor with status := .proven, failTimer := restart } }
      if d.bsq.state = .pilotTrial then d.enterMain c else d
    else d
  | _ => d

/-- A bad capture or NO SIGNAL of a scanner while the monitor is armed (R91, R92). -/
def Station.badCapture (i : Fin 2) (d : Station) : Station :=
  let d := d.onBsq fun b =>
    { b with monitor := b.monitor.onScanner i fun s => { s with good := 0, bad := min 2 (s.bad + 1) } }
  match d.bsq.monitor.status with
  | .proving => d.onBsq fun b => { b with monitor := { b.monitor with proving := d.bestRun } }
  | .proven => if d.allBad then d.flameLost else d
  | _ => d

/-! ## The floor (R93 to R105) -/

/-- Permissive 8 and the watch on burner A: a condition on A that only burner B has (R94, R100). -/
def BurnerCfg.needsA (c : BurnerCfg) : Bool := c.letter == .b

/-- The first of permissives 4, 6, 7 and 8 that no longer holds (R96). -/
def Station.purgeStop (c : BurnerCfg) (d : Station) : Option StopReason :=
  if d.tripInView.isSome then some .tripRequest
  else if (d.available c.letter).isEmpty then some .noFeed
  else if c.coolerRequired && !d.coolerRunning then some .noCooler
  else if c.needsA && !d.aFiring then some .mainBurner
  else none

/-- The trip cause a refreshed image gives (R100). -/
def Station.refreshTrip (c : BurnerCfg) (d : Station) : Option CauseKind :=
  if d.tripInView.isSome then some .tripRequest
  else if c.needsA && !d.alight .a then some .mainBurnerLost
  else none

/-- The ramp target (R99). -/
def Bsq.rampTarget (c : BurnerCfg) (b : Bsq) : Nat := max b.setpoint c.lightOff

/-- A value moved toward a target by at most a step. -/
def moveToward (value target step : Nat) : Nat :=
  if value ≤ target then min target (value + step) else max target (value - step)

/-- The demand of the ramp at a moment (R99). -/
def Bsq.rampDemand (c : BurnerCfg) (now : Nat) (b : Bsq) : Nat :=
  moveToward b.rampValue (b.rampTarget c) (c.rampRate * ((now - b.rampMoment) / Config.msTicks) / 1000)

/-- The ramp at a refresh in FIRING (R99). -/
def Station.rampNow (c : BurnerCfg) (d : Station) : Station :=
  if d.bsq.rampDemand c d.now = d.bsq.demand then d
  else (d.onBsq fun b => { b with demand := b.rampDemand c d.now }).stageBurner

/-- The supervision of delivered heat at a refresh in FIRING (R104). -/
def Station.checkShortfall (c : BurnerCfg) (d : Station) : Station :=
  if d.deliveredHeat c.letter < d.bsq.demand * (100 - c.tolerance) / 100 then
    if d.bsq.shortfall.isNone then
      d.onBsq fun b => { b with shortfall := some (d.inSec c.shortfallDelay) }
    else d
  else (d.onBsq fun b => { b with shortfall := none }).report .heatShortfall 0 false

/-- The supervision of the cooler at a refresh in FIRING (R105). -/
def Station.checkCooler (c : BurnerCfg) (d : Station) : Station :=
  if !c.coolerRequired then d
  else if d.coolerRunning then (d.onBsq fun b => { b with coolerLoss := none }).reportCooler
  else if d.bsq.coolerLoss.isSome then d
  else
    let d := (d.onBsq fun b => { b with coolerLoss := some (d.inSec c.coolerLossTime) }).reportCooler
    if c.coolerLossTime = 0 then d.trip .coolerLoss else d

/-- Burner A's station is noted while it stands in view (R102). -/
def Station.noteMain (d : Station) : Station :=
  match d.burnerStation .a with
  | some (i, _, _) => d.onBsq fun b => { b with mainStation := some i }
  | none => d

/-- A floor image refreshed signal taken in UP (R93, R96, R98, R99, R100, R104, R105). In FIRING the heat is looked at before the
cooler (log 58). -/
def Station.burnerRefresh (c : BurnerCfg) (d : Station) : Station :=
  let d := d.noteMain
  match d.bsq.state with
  | .purge =>
    match d.purgeStop c with
    | some r => d.stopPurge r
    | none => d
  | .pilotTrial =>
    match d.refreshTrip c with
    | some k => d.trip k
    | none => d
  | .mainTrial =>
    match d.refreshTrip c with
    | some k => d.trip k
    | none =>
      if d.bsq.monitor.status = .proven && d.deliveredHeat c.letter > 0 then d.enterFiring c else d
  | .firing =>
    match d.refreshTrip c with
    | some k => d.trip k
    | none => ((d.rampNow c).checkShortfall c).checkCooler c
  | _ => d

/-- A lapse or loop stop by state (R108, R109). -/
def Station.softStop (r : StopReason) (d : Station) : Station :=
  match d.bsq.state with
  | .purge => d.stopPurge r
  | .pilotTrial => d.stopBurner r
  | .mainTrial => d.stopBurner r
  | _ => d

/-- The states in which an ESTOP trips the burner (Table 6-2). -/
def BsqState.active : BsqState → Bool
  | .purge | .pilotTrial | .mainTrial | .firing => true
  | _ => false

/-- The states in which the loss of air flow trips the burner (Table 6-2). -/
def BsqState.pastPurge : BsqState → Bool
  | .pilotTrial | .mainTrial | .firing => true
  | _ => false

/-- A burner request is answered WRONG STATE before START and NOT CONFIGURED without BURNER duty (R87). -/
def Station.burnerRequest (f : BurnerCfg → Station → Station) (d : Station) : Station :=
  if !d.ppt.started then d.wrongState
  else match d.cfg.burner with
    | none => d.notConfigured
    | some c => f c d

/-! ## Meanings -/

/-- The first permissive that fails at BURNER START (R94). -/
def Station.startRefusal (c : BurnerCfg) (d : Station) : Option Reason :=
  if d.lpc.state ≠ .up then some .notUp
  else if !d.ppt.present then some .panelAbsent
  else if d.bsq.state = .lockout then some .lockout
  else if d.bsq.state ≠ .off then some .notOff
  else if d.tripInView.isSome then some .tripRequest
  else if !d.lineActive .idFanRunning then some .idFan
  else if (d.available c.letter).isEmpty then some .noFeed
  else if c.coolerRequired && !d.coolerRunning then some .noCooler
  else if c.needsA && !d.aFiring then some .mainBurner
  else none

/-- BURNER_START (R94, R95): the permissives are checked in order, and PURGE is entered when all hold. -/
def execBurnerStart (s : State) : Host.Outcome State Fault Refusal :=
  act .burnerStart (Station.burnerRequest fun c d =>
    match d.startRefusal c with
    | some r => d.refuse r
    | none => (d.noteMain.enterPurge c).ok) s

/-- BURNER_STOP (R106). -/
def execBurnerStop (s : State) : Host.Outcome State Fault Refusal :=
  act .burnerStop (Station.burnerRequest fun _ d =>
    match d.bsq.state with
    | .off => d.wrongState
    | .lockout => d.wrongState
    | .purge => (d.stopPurge .stop).ok
    | .postPurge => d.ok
    | _ => (d.stopBurner .stop).ok) s

/-- Every own point of class TRIP is in NORMAL (R107). -/
def Station.tripPointsNormal (d : Station) : Bool :=
  d.alm.points.toList.all fun p =>
    match p.cfg with
    | some c => c.cls != .trip || p.state == .normal
    | none => true

/-- Some image of the live set shows its trip request (R107). -/
def Station.peerTripRequest (d : Station) : Bool :=
  d.lpc.live.any fun i =>
    match d.lpc.floor[i].image with
    | some g => g.tripRequest
    | none => false

/-- LOCKOUT_RESET (R107). -/
def execLockoutReset (s : State) : Host.Outcome State Fault Refusal :=
  act .lockoutReset (Station.burnerRequest fun _ d =>
    if d.bsq.state ≠ .lockout then d.wrongState
    else if !d.tripPointsNormal then d.refuse .tripPoint
    else if d.alm.trip.isSome then d.refuse .ownTripRequest
    else if d.peerTripRequest then d.refuse .peerTripRequest
    else (d.recordState .off 0).ok) s

/-- SET_HEAT_DEMAND (R99): the setpoint is stored; in FIRING the ramp starts again from the standing demand. -/
def execSetHeatDemand (setpoint : Word) (s : State) : Host.Outcome State Fault Refusal :=
  act (.setHeatDemand setpoint) (Station.burnerRequest fun c d =>
    if setpoint.toNat > c.maxDemand then d.badField
    else
      (d.onBsq fun b =>
        { b with setpoint := setpoint.toNat
                 rampValue := if b.state = .firing then b.demand else b.rampValue
                 rampMoment := if b.state = .firing then d.now else b.rampMoment }).ok) s

/-- BSQ_SCANNER_CAPTURE (R90, R91): the capture is judged against the band and the monitor follows. -/
def execBsqScannerCapture (scanner : Fin 2) (period width : Nat) (tb : Timebase) (s : State) :
    Host.Outcome State Fault Refusal :=
  act (.bsqScannerCapture scanner period width tb) (fun d =>
    match d.cfg.burner with
    | none => d
    | some c =>
      if !d.scannerConfigured scanner then d
      else
        let us := period * tbMicros tb
        let good := c.bandMin ≤ us && us ≤ c.bandMax
        let d := d.onBsq fun b =>
          { b with monitor := b.monitor.onScanner scanner fun s =>
              { s with lastPeriod := us, verdict := if good then .good else .bad } }
        if d.bsq.monitor.status = .none then d
        else if good then d.goodCapture c scanner else d.badCapture scanner) s

/-- BSQ_SCANNER_NO_SIGNAL (R90, R91): a bad event whose verdict is NO SIGNAL. It carries no period, and the last period stays (log 71). -/
def execBsqScannerNoSignal (scanner : Fin 2) (s : State) : Host.Outcome State Fault Refusal :=
  act (.bsqScannerNoSignal scanner) (fun d =>
    match d.cfg.burner with
    | none => d
    | some _ =>
      if !d.scannerConfigured scanner then d
      else
        let d := d.onBsq fun b =>
          { b with monitor := b.monitor.onScanner scanner fun s => { s with verdict := .noSignal } }
        if d.bsq.monitor.status = .none then d else d.badCapture scanner) s

/-- FLAME_FAIL_TIMER_EXPIRY (R92): the flame is LOST. -/
def execFlameFailTimerExpiry (s : State) : Host.Outcome State Fault Refusal :=
  act .flameFailTimerExpiry (fun d => if d.bsq.monitor.failTimer.isNone then d else d.flameLost) s

/-- BSQ_AIR_FLOW_CHANGE (R95, R100). -/
def execBsqAirFlowChange (active : Bool) (s : State) : Host.Outcome State Fault Refusal :=
  act (.bsqAirFlowChange active) (fun d =>
    match d.cfg.burner with
    | none => d
    | some c =>
      if d.bsq.state = .purge then
        if active then d.onBsq fun b => { b with purge := some (d.inSec c.purgeTime) }
        else if d.bsq.purge.isNone then d
        else
          let d := d.onBsq fun b => { b with purge := none, interruptions := b.interruptions + 1 }
          if d.bsq.interruptions ≥ 3 then d.trip .purgeAirLost else d
      else if d.bsq.state.pastPurge && !active then d.trip .airFlowLost
      else d) s

/-- BSQ_ID_FAN_CHANGE (R96): permissive 5 is checked again in PURGE. -/
def execBsqIdFanChange (active : Bool) (s : State) : Host.Outcome State Fault Refusal :=
  act (.bsqIdFanChange active) (fun d =>
    if d.bsq.state = .purge && !active then d.stopPurge .idFan else d) s

/-- BSQ_ESTOP_CHANGE (R110): a change to ACTIVE trips a burner in an active state. -/
def execBsqEstopChange (active : Bool) (s : State) : Host.Outcome State Fault Refusal :=
  act (.bsqEstopChange active) (fun d => if active && d.bsq.state.active then d.trip .estop else d) s

/-- BSQ_PURGE_TIMER_EXPIRY (R95, R97): entry to PILOT TRIAL. -/
def execBsqPurgeTimerExpiry (s : State) : Host.Outcome State Fault Refusal :=
  act .bsqPurgeTimerExpiry (fun d =>
    match d.cfg.burner with
    | none => d
    | some c => if d.bsq.purge.isSome && d.bsq.state = .purge then d.enterPilot c else d) s

/-- BSQ_IGNITION_TIMER_EXPIRY (R97): the burst is ended. -/
def execBsqIgnitionTimerExpiry (s : State) : Host.Outcome State Fault Refusal :=
  act .bsqIgnitionTimerExpiry (fun d =>
    if d.bsq.ignition.isNone then d else (d.onBsq fun b => { b with ignition := none }).igniterEnd) s

/-- PILOT_TRIAL_LIMIT_EXPIRY (R97): a trip with IGNITION FAIL. -/
def execPilotTrialLimitExpiry (s : State) : Host.Outcome State Fault Refusal :=
  act .pilotTrialLimitExpiry (fun d => if d.bsq.pilotTrial.isNone then d else d.trip .ignitionFail) s

/-- MAIN_TRIAL_LIMIT_EXPIRY (R98): a trip with MAIN FLAME FAIL. -/
def execMainTrialLimitExpiry (s : State) : Host.Outcome State Fault Refusal :=
  act .mainTrialLimitExpiry (fun d => if d.bsq.mainTrial.isNone then d else d.trip .mainFlameFail) s

/-- POST_PURGE_TIMER_EXPIRY (R106): entry to OFF. -/
def execPostPurgeTimerExpiry (s : State) : Host.Outcome State Fault Refusal :=
  act .postPurgeTimerExpiry (fun d =>
    if d.bsq.postPurge.isNone then d
    else (d.onBsq fun b => { b with postPurge := none }).recordState .off 0) s

/-- SHORTFALL_TIMER_EXPIRY (R104): HEAT SHORTFALL is present. -/
def execShortfallTimerExpiry (s : State) : Host.Outcome State Fault Refusal :=
  act .shortfallTimerExpiry (fun d =>
    if d.bsq.shortfall.isNone then d
    else (d.onBsq fun b => { b with shortfall := none }).report .heatShortfall 0 true) s

/-- COOLER_LOSS_TIMER_EXPIRY (R105): a trip with COOLER LOSS. -/
def execCoolerLossTimerExpiry (s : State) : Host.Outcome State Fault Refusal :=
  act .coolerLossTimerExpiry (fun d => if d.bsq.coolerLoss.isNone then d else d.trip .coolerLoss) s

/-- TRIP_HOLD_EXPIRY (R103): the hold ends and its condition is absent. -/
def execTripHoldExpiry (kind : HoldKind) (s : State) : Host.Outcome State Fault Refusal :=
  act (.tripHoldExpiry kind) (fun d =>
    if (d.bsq.holds.get kind).isNone then d
    else
      let d := d.onBsq fun b => { b with holds := b.holds.set none kind }
      if kind = .coolerLoss then d.reportCooler else d.report (holdCondition kind) 0 false) s

/-- FIRING_SECOND_TIMER_EXPIRY (R111): one firing second, and the timer starts again. -/
def execFiringSecondTimerExpiry (s : State) : Host.Outcome State Fault Refusal :=
  act .firingSecondTimerExpiry (fun d =>
    if d.bsq.firingSecond.isNone then d
    else (d.onBsq fun b => { b with firingSecond := some (d.inSec 1) }).contribute .firingSecond) s

/-- BSQ_FLOOR_REFRESH (R93): acted on in UP alone. -/
def execBsqFloorRefresh (s : State) : Host.Outcome State Fault Refusal :=
  act .bsqFloorRefresh (fun d =>
    match d.cfg.burner with
    | none => d
    | some c => if d.lpc.state = .up then d.burnerRefresh c else d) s

/-- BSQ_LEFT_UP (R108). -/
def execBsqLeftUp (s : State) : Host.Outcome State Fault Refusal :=
  act .bsqLeftUp (Station.softStop .loop) s

/-- BSQ_LOOP_GRACE_EXPIRY (R108): a trip with LOOP LOST in FIRING. -/
def execBsqLoopGraceExpiry (s : State) : Host.Outcome State Fault Refusal :=
  act .bsqLoopGraceExpiry (fun d => if d.bsq.state = .firing then d.trip .loopLost else d) s

/-- BSQ_PANEL_LAPSE (R109). -/
def execBsqPanelLapse (s : State) : Host.Outcome State Fault Refusal :=
  act .bsqPanelLapse (Station.softStop .lapse) s

end Sys2Proof.Machine
end

