-- ==== Sys2Proof/Machine/Pulse.lean ====
section
/-! DEFINITION. The Pulse Input Unit (04_pulse_channels_and_input_lines.md): filter, capture counter, the three modes, input lines,
and the meanings of its commands but READ INPUT. -/

namespace Sys2Proof.Machine

/-! ## Channels (R57 to R59) -/

/-- The filter setting in µs (R58). -/
def filterMicros : Filter → Nat
  | .off => 0
  | .us4 => 4
  | .us16 => 16
  | .us64 => 64

/-- The capture counter's value: whole ticks since its restart, held at 16,777,215 (R59, R64). -/
def Channel.counterAt (now : Nat) (tb : Timebase) (c : Channel) : Nat :=
  min (Config.counterSpan - 1) ((now - c.restarted) / tbMicros tb)

/-- One more event since the enable, saturating (R68). -/
def Channel.count (c : Channel) : Channel := { c with events := satAdd top32 c.events 1 }

/-- The first phase of a mode (R57). -/
def PulseMode.firstPhase : PulseMode → ChannelPhase
  | .quadrature => .counting
  | _ => .seeking

/-- A channel at the accepted START: enabled when it is assigned (R56, R57). -/
def Channel.started (now : Nat) (cfg : Option ChannelCfg) (c : Channel) : Channel :=
  match cfg with
  | none => c
  | some k =>
    if k.fn = .unassigned then c
    else { Channel.first c.pin with mode := c.mode, phase := k.mode.firstPhase, restarted := now }

/-- The capture event to the channel's owner (R61). -/
def ChannelCfg.captureEvent (k : ChannelCfg) (period width : Nat) (d : Station) : Station :=
  match k.fn with
  | .flameScanner => d.raise (.bsqScannerCapture (Fin.ofNat 2 (k.inst - 1)) period width k.tb)
  | .pressure => d.raise (.gccPressureCapture (Fin.ofNat 4 (k.inst - 1)) period width k.tb)
  | _ => d

/-- The NO SIGNAL event to the channel's owner (R61, R63). -/
def ChannelCfg.noSignalEvent (k : ChannelCfg) (d : Station) : Station :=
  match k.fn with
  | .flameScanner => d.raise (.bsqScannerNoSignal (Fin.ofNat 2 (k.inst - 1)))
  | .pressure => d.raise (.gccPressureNoSignal (Fin.ofNat 4 (k.inst - 1)))
  | .weigher => d.raise (.fdcWeigherNoSignal (Fin.ofNat 2 (k.inst - 1)))
  | _ => d

/-! ## PERIOD and COUNT-WINDOW (R60 to R63) -/

/-- An accepted edge in PERIOD mode (Table 4-3). -/
def Station.periodEdge (ch : Fin 8) (k : ChannelCfg) (isActive : Bool) (d : Station) : Station :=
  let c := d.piu.channels[ch]
  let n := c.counterAt d.now k.tb
  match c.phase, isActive with
  | .seeking, true => d.onChannel ch fun c => { c with restarted := d.now, heldWidth := none, phase := .timing }
  | .timing, true =>
    let width := c.heldWidth.getD 0
    k.captureEvent n width (d.onChannel ch fun c =>
      { c.count with lastPeriod := n, lastWidth := width, valid := true, restarted := d.now, heldWidth := none })
  | .timing, false =>
    if c.heldWidth.isNone then d.onChannel ch fun c => { c with heldWidth := some n } else d
  | _, _ => d

/-- An accepted edge in COUNT-WINDOW mode (Table 4-4). -/
def Station.windowEdge (ch : Fin 8) (k : ChannelCfg) (isActive : Bool) (d : Station) : Station :=
  let c := d.piu.channels[ch]
  let n := c.counterAt d.now k.tb
  match c.phase, isActive with
  | .seeking, true =>
    d.onChannel ch fun c => { c with restarted := d.now, edges := 0, overflow := false, phase := .counting }
  | .counting, true =>
    if c.edges + 1 < k.count then d.onChannel ch fun c => { c with edges := c.edges + 1 }
    else
      (d.onChannel ch fun c =>
        { c.count with lastTicks := n, lastCount := k.count, valid := true, restarted := d.now, edges := 0,
                       overflow := false }).raise
        (.fdcWeigherWindow (Fin.ofNat 2 (k.inst - 1)) n k.count c.overflow k.tb)
  | _, _ => d

/-! ## QUADRATURE (R64 to R67) -/

/-- The pair of a channel by its lower channel (R56). -/
def pairBase (ch : Fin 8) : Fin 8 := ⟨ch.val - ch.val % 2, by omega⟩

/-- The other channel of a pair. -/
def pairMate (ch : Fin 8) : Fin 8 := if ch.val % 2 = 0 then Fin.ofNat 8 (ch.val + 1) else pairBase ch

/-- The direction of a change of one input, from the new level of that input and the level of the other (the table of R64). -/
def decodeDirection (isA level other swapped : Bool) : Direction :=
  if ((if isA then level != other else level == other) != swapped) then .forward else .reverse

/-- The direction change that a counted edge raises, if it raises one (R64, R65). -/
def Channel.turns (k : ChannelCfg) (dir : Direction) (pos : Half) (c : Channel) : Option Instr :=
  if c.direction != .none && c.direction != dir then some (.fdcDirectionChange (Fin.ofNat 2 (k.inst - 1)) dir pos) else none

/-- A counted edge on the pair record, by a change of an input (R64, R65, R67). -/
def Station.countedEdge (base input : Fin 8) (k : ChannelCfg) (dir : Direction) (d : Station) : Station :=
  let c := d.piu.channels[base]
  let pos := if dir = .forward then c.position + 1 else c.position - 1
  let raised := c.turns k dir pos
  let d := d.onChannel base fun c =>
    { c with position := pos, interval := c.counterAt d.now k.tb, restarted := d.now,
             still := if c.stall = 0 then none else some (d.inMs c.stall), direction := dir
             events := if raised.isSome then satAdd top32 c.events 1 else c.events
             counted := some { moment := d.now, input := input, raised := raised, position := c.position,
                               direction := c.direction, interval := c.interval, restarted := c.restarted,
                               events := c.events, still := c.still } }
  match raised with
  | some e => d.raise e
  | none => d

/-- The last counted edge is taken back: the pair record stands as without it, and the direction change that it raised is withdrawn
if nothing has taken it yet; one that was taken stands (R64; log 35). What an index edge or a still event in between has shown of the edge
stands too: the last revolution counts, the revolution counts of the index event, the position of the still event (log 67). -/
def Station.takeBackEdge (base : Fin 8) (u : CountedEdge) (d : Station) : Station :=
  let d := d.onChannel base fun c =>
    { c with position := u.position, direction := u.direction, interval := u.interval, restarted := u.restarted,
             events := u.events, still := u.still, counted := none }
  match u.raised with
  | some e => { d with signals := (d.signals.reverse.erase e).reverse }
  | none => d

/-- An accepted edge in QUADRATURE mode. A change of both inputs at one tick is a phase error and moves nothing, whether both waits
run out together or the edge of the other input has been counted at this tick (R64; log 35). The lower channel's count sense is the
pair's (log 48). -/
def Station.quadratureEdge (ch : Fin 8) (k : ChannelCfg) (level bothChange : Bool) (d : Station) : Station :=
  let base := pairBase ch
  let mate := pairMate ch
  let phaseError := fun d : Station => d.onChannel base fun c => { c with phaseErrors := satAdd top16 c.phaseErrors 1 }
  if bothChange then phaseError (d.onChannel mate fun c => { c with accepted := !c.accepted, wait := none })
  else
    match d.piu.channels[base].counted.filter fun u => u.moment == d.now && u.input == mate with
    | some u => phaseError (d.takeBackEdge base u)
    | none =>
      let swapped := match d.cfg.channels[base] with
        | some b => b.swapped
        | none => k.swapped
      d.countedEdge base ch k (decodeDirection (ch == base) level d.piu.channels[mate].accepted swapped)

/-- What else happens to a pair at the moment of a counted edge counts whether or not the edge is taken back (R64; log 67). -/
def Channel.alsoWithout (f : CountedEdge → CountedEdge) (c : Channel) : Channel := { c with counted := c.counted.map f }

/-- An index edge of a pair by its lower channel (R66). Its revolution counts include an edge counted before it, also one that the other
input's edge of the same tick takes back afterwards (log 67). -/
def Station.indexEdge (base : Fin 8) (d : Station) : Station :=
  let c := d.piu.channels[base]
  match d.cfg.channels[base] with
  | none => d
  | some k =>
    if c.phase = .disabled then d
    else
      let counts := c.position.toInt.natAbs
      let owner := Fin.ofNat 2 (k.inst - 1)
      let d := d.onChannel base fun c =>
        c.count.alsoWithout fun u => { u with position := 0, events := satAdd top32 u.events 1 }
      if c.indexed then
        (d.onChannel base fun c => { c with position := 0, revCounts := counts, valid := true }).raise
          (.fdcIndex owner false counts)
      else (d.onChannel base fun c => { c with position := 0, indexed := true }).raise (.fdcIndex owner true 0)

/-- A stall time written for a feed channel's pair, if it has one (R67). -/
def Station.writeStall (feed : Fin 2) (ms : Nat) (d : Station) : Station :=
  match d.findChannel .encoder (feed.val + 1) with
  | none => d
  | some ch =>
    let still := if ms = 0 then none else some (d.inMs ms)
    d.onChannel ch fun c => { c with stall := ms, still := still }.alsoWithout fun u => { u with still := still }

/-! ## Input lines (R69, R70) -/

/-- The logical level of a pin: true is ACTIVE (R69). -/
def LineCfg.logical (c : LineCfg) (pin : Bool) : Bool := pin != c.activeLow

/-- A line change delivered to its receivers (R70). -/
def Station.deliverLine (line : Fin 12) (c : LineCfg) (active : Bool) (d : Station) : Station :=
  match c.fn with
  | .airFlowProven => d.raise (.bsqAirFlowChange active)
  | .idFanRunning => d.raise (.bsqIdFanChange active)
  | .estop =>
    ((((d.raise (if active then .douForceStart else .douForceEnd)).raise (.bsqEstopChange active)).raise
      (.fdcEstopChange active)).raise (.gccEstopChange active)).report .estop 0 active
  | .endForward => d.raise (.gccEndForwardChange (Fin.ofNat 4 (c.inst - 1)) active)
  | .endReturn => d.raise (.gccEndReturnChange (Fin.ofNat 4 (c.inst - 1)) active)
  | .index => if active then d.indexEdge (Fin.ofNat 8 c.inst) else d
  | .general => d.report .inputLine line.val active
  | .unused => d

/-- The pending change of a line takes effect (R69, R70). -/
def Station.changeLine (line : Fin 12) (d : Station) : Station :=
  match d.cfg.lines[line], d.piu.lines[line].pending with
  | some c, some w =>
    (d.onInput line fun l => { l with active := w.level, pending := none }).deliverLine line c w.level
  | _, _ => d

/-- A line at the accepted START: a pin at its active level starts a pending change (R69). -/
def InputLine.started (d : Station) (cfg : Option LineCfg) (l : InputLine) : InputLine :=
  match cfg with
  | none => l
  | some c =>
    if c.fn != .unused && c.logical l.pin then
      { l with active := false, pending := some { level := true, due := d.inMs c.debounce } }
    else { l with active := false, pending := none }

/-- The Pulse Input Unit at the accepted START (R56, R57, R69). -/
def Station.startInputs (d : Station) : Station :=
  let d := forAll (fun i d => d.onChannel i (Channel.started d.now d.cfg.channels[i])) d
  forAll (fun i d => d.onInput i (InputLine.started d d.cfg.lines[i])) d

/-! ## Meanings -/

/-- PULSE_PIN_CHANGE (R58): the filter starts or drops its wait. A disabled channel does not watch its pin (R57). With the
filter off, a second change at the tick of the first drops its wait, and neither is accepted (log 55). A return at the very moment at which
the wait is due, taken before the edge, drops the wait as an earlier one does (log 68). -/
def execPulsePinChange (ch : Fin 8) (level : Bool) (s : State) : Host.Outcome State Fault Refusal :=
  act (.pulsePinChange ch level) (fun d =>
    let c := d.piu.channels[ch]
    if c.pin = level then d
    else if c.phase = .disabled then d.onChannel ch fun c => { c with pin := level, accepted := level, wait := none }
    else
      let f := match d.cfg.channels[ch] with
        | some k => filterMicros k.filter
        | none => 0
      d.onChannel ch fun c =>
        { c with pin := level, wait := if level = c.accepted then none else some { level := level, due := d.now + f } }) s

/-- ACCEPTED_EDGE (R58, R60, R62, R64): the level is accepted and the mode handles the edge. -/
def execAcceptedEdge (ch : Fin 8) (level : Bool) (s : State) : Host.Outcome State Fault Refusal :=
  act (.acceptedEdge ch level) (fun d =>
    let c := d.piu.channels[ch]
    match d.cfg.channels[ch] with
    | none => d
    | some k =>
      if c.phase = .disabled || c.accepted = level then d
      else
        let mate := d.piu.channels[pairMate ch]
        let both := match c.wait, mate.wait with
          | some a, some b => a.due == b.due
          | _, _ => false
        let d := d.onChannel ch fun c => { c with pin := level, accepted := level, wait := none }
        match k.mode with
        | .period => d.periodEdge ch k (level != k.falling)
        | .countWindow => d.windowEdge ch k (level != k.falling)
        | .quadrature => d.quadratureEdge ch k level both) s

/-- CAPTURE_OVERFLOW (R60 to R63): NO SIGNAL in PERIOD and COUNT-WINDOW; in QUADRATURE the counter holds (R64). -/
def execCaptureOverflow (ch : Fin 8) (s : State) : Host.Outcome State Fault Refusal :=
  act (.captureOverflow ch) (fun d =>
    match d.cfg.channels[ch] with
    | none => d
    | some k =>
      if d.piu.channels[ch].phase = .disabled then d
      else
        match k.mode with
        | .period => k.noSignalEvent (d.onChannel ch fun c =>
            { c.count with valid := false, restarted := d.now, heldWidth := none, phase := .seeking })
        | .countWindow => k.noSignalEvent (d.onChannel ch fun c =>
            { c.count with valid := false, restarted := d.now, overflow := c.overflow || c.phase == .counting })
        | .quadrature => d) s

/-- STILL_TIMER_EXPIRY (R67): a still event, and the timer starts again. -/
def execStillTimerExpiry (pair : Fin 4) (s : State) : Host.Outcome State Fault Refusal :=
  act (.stillTimerExpiry pair) (fun d =>
    let ch := Fin.ofNat 8 (2 * pair.val)
    let c := d.piu.channels[ch]
    match d.cfg.channels[ch] with
    | none => d
    | some k =>
      if c.still.isNone then d
      else
        let still := some (d.inMs c.stall)
        (d.onChannel ch fun c => { c.count with valid := false, still := still }.alsoWithout fun u =>
          { u with still := still, events := satAdd top32 u.events 1 }).raise
          (.fdcStill (Fin.ofNat 2 (k.inst - 1)) c.position)) s

/-- INPUT_PIN_CHANGE (R69): a pending change starts or is cancelled; with a debounce time of 0 the line changes at once
(log 36). In CONFIG the pins are not watched. A return at the very moment at which the pending change is due, taken before LINE_CHANGE,
cancels it as an earlier one does (log 68). -/
def execInputPinChange (line : Fin 12) (level : Bool) (s : State) : Host.Outcome State Fault Refusal :=
  act (.inputPinChange line level) (fun d =>
    let l := d.piu.lines[line]
    if l.pin = level then d
    else
      let d := d.onInput line fun l => { l with pin := level }
      match d.cfg.lines[line] with
      | none => d
      | some c =>
        if !d.ppt.started || c.fn == .unused then d
        else if c.logical level = l.active then d.onInput line fun l => { l with pending := none }
        else
          let d := d.onInput line fun l => { l with pending := some { level := c.logical level, due := d.inMs c.debounce } }
          if c.debounce = 0 then d.changeLine line else d) s

/-- LINE_CHANGE (R69, R70): the pending change has held for its debounce time. -/
def execLineChange (line : Fin 12) (s : State) : Host.Outcome State Fault Refusal :=
  act (.lineChange line) (fun d => d.changeLine line) s

end Sys2Proof.Machine
end

