-- ==== Sys2Proof/Machine/Feed.lean ====
section
/-! DEFINITION. The Feed Controller (07_fuel_feeding_and_heat_sharing.md): heat sharing, channel states, references, and the
meanings of its commands. -/

namespace Sys2Proof.Machine

/-! ## Figures (R117, R118, R120 to R122) -/

/-- The capacity of a channel, kW (R117). -/
def FeedCfg.capacityAt (c : FeedCfg) (cv : Nat) : Nat := c.maxRate * cv / 3600

/-- A channel's share of a demand in the first pass (R118). -/
def firstShare (demand total capacity weight : Nat) : Nat :=
  if total = 0 then 0 else min capacity (demand * weight / total)

/-- The heat targets of the available channels, each given as capacity and weight (R118). -/
def shareHeat (demand : Nat) (l : List (Nat × Nat)) : List Nat :=
  let total := (l.map (·.2)).sum
  let first := l.map fun e => (e.1, firstShare demand total e.1 e.2)
  let excess := demand - (first.map (·.2)).sum
  let headroom := (first.map fun e => e.1 - e.2).sum
  first.map fun e => e.2 + (if excess < headroom then (e.1 - e.2) * excess / headroom else e.1 - e.2)

/-- The mass goal of a target heat, kg/h (R120). -/
def FeedChannel.goal (k : FeedCfg) (c : FeedChannel) : Nat := min k.maxRate (c.targetHeat * 3600 / c.cv)

/-- The ramp step, kg/h (R120). -/
def FeedCfg.rampStep (k : FeedCfg) (cycle : Nat) : Nat := max 1 (k.rampRate * cycle / 1000)

/-- A rate moved toward a goal by at most one step (R120). -/
def rampRateTo (rate goal step : Nat) : Nat := if rate ≤ goal then min goal (rate + step) else max goal (rate - step)

/-- The fine reference of a target mass rate (R121). -/
def FeedChannel.fine (k : FeedCfg) (c : FeedChannel) : Nat :=
  min k.maxFine (c.targetRate * 100000 / (k.ratePerFine * c.trim))

/-- The estimated rate, kg/h (R122). -/
def FeedChannel.estimated (k : FeedCfg) (c : FeedChannel) : Nat := c.activeFine * k.ratePerFine * c.trim / 100000

/-- A channel in RUNNING or HELD. -/
def FeedState.turning : FeedState → Bool
  | .running | .held => true
  | _ => false

/-- The measured rate is the rate basis (R122). -/
def FeedChannel.measuredBasis (weigher : Bool) (c : FeedChannel) : Bool := weigher && !c.openLoop && c.rateSeen

/-- The rate basis (R122). -/
def FeedChannel.basis (k : FeedCfg) (weigher : Bool) (c : FeedChannel) : Nat :=
  if c.measuredBasis weigher then c.measured else c.estimated k

/-- The delivered heat (R122). -/
def FeedChannel.deliveredNow (k : FeedCfg) (weigher : Bool) (c : FeedChannel) : Nat :=
  if c.state.turning then c.basis k weigher * c.cv / 3600 else 0

/-- The trim after a window (R124). -/
def adjustTrim (trim measured target : Nat) : Nat :=
  clamp 750 1250 ((trim : Int) + Int.tdiv ((trim : Int) * ((measured : Int) - target)) (8 * target))

/-! ## Channel operations -/

def Station.hasWeigher (d : Station) (ch : Fin 2) : Bool := (d.findChannel .weigher (ch.val + 1)).isSome

/-- The published entry of a channel (R116). -/
def FeedChannel.entry (ch : Fin 2) (c : FeedChannel) : Option FeedEntry :=
  c.cfg.map fun k =>
    { channel := BitVec.ofNat 8 (ch.val + 1), letter := k.letter, state := c.state, weight := BitVec.ofNat 8 k.weight,
      capacity := wire32 c.capacity, delivered := wire32 c.delivered }

/-- The feed part is written to the staging record (R116). -/
def Station.stageFeed (d : Station) : Station :=
  if d.feedDuty then
    d.onStaging fun g => { g with feed := some ((List.finRange 2).filterMap fun i => (d.fdc.channels[i]).entry i) }
  else d

/-- The delivered heat is recomputed and the part written (R122). -/
def Station.recomputeDelivered (ch : Fin 2) (k : FeedCfg) (d : Station) : Station :=
  (d.onFeed ch fun c => { c with delivered := c.deliveredNow k (d.hasWeigher ch) }).stageFeed

/-- SET PRELOAD to the channel's FEEDER line (R114, R121). -/
def Station.writeFeeder (ch : Fin 2) (v : Nat) (d : Station) : Station :=
  let d := match d.findOut .reference .feeder (ch.val + 1) with
    | some i => (d.setPreload i .feedController v).1
    | none => d
  d.onFeed ch fun c => { c with lastFine := v }

/-- The fine reference is recomputed and written when it has changed (R121). -/
def Station.updateFine (ch : Fin 2) (k : FeedCfg) (d : Station) : Station :=
  let v := d.fdc.channels[ch].fine k
  if v = d.fdc.channels[ch].lastFine then d else d.writeFeeder ch v

/-- The writes of 0 and the clears at every entry to OFF, READY or FAULT (R114, R125, R126, R130, R134). -/
def Station.quiesce (ch : Fin 2) (d : Station) : Station :=
  let d := d.onFeed ch fun c =>
    { c with targetHeat := 0, massGoal := 0, targetRate := 0, openLoop := false, runDown := false, reEvaluate := false,
             runDownTimer := none, runningSecond := none }
  ((d.writeFeeder ch 0).writeStall ch 0).report .weigherSilent (ch.val + 1) false

/-- FEEDER STALL and FEEDER REVERSE as the fault cause gives them (R134). -/
def Station.reportFeed (ch : Fin 2) (d : Station) : Station :=
  let c := d.fdc.channels[ch]
  let inFault := c.state == .fault
  (d.report .feederStall (ch.val + 1) (inFault && c.cause == .feederStall)).report .feederReverse (ch.val + 1)
    (inFault && c.cause == .feederReverse)

/-- Entry to OFF or READY (R114, R115); the reports come in the order of log 74. -/
def Station.restFeed (st : FeedState) (ch : Fin 2) (k : FeedCfg) (d : Station) : Station :=
  let d := (d.quiesce ch).onFeed ch fun c => { c with state := st, cause := .none }
  (d.reportFeed ch).recomputeDelivered ch k

/-- Entry to FAULT, or a change of cause within it (R114, R132). R114 gives the reports of R125 and R134 no place: WEIGHER SILENT goes absent
with the writes of 0, the fault's own condition is reported after the count and FEED FAULT (log 74). -/
def Station.faultFeed (cause : FeedCause) (ch : Fin 2) (k : FeedCfg) (d : Station) : Station :=
  let again := d.fdc.channels[ch].state == .fault
  let d := (d.quiesce ch).onFeed ch fun c => { c with state := .fault, cause := cause }
  let d := if again then d else (d.contribute (.feedFault ch)).post .feedFault
  (d.reportFeed ch).recomputeDelivered ch k

/-- Entry to RUNNING from READY (R119, R126, R134). -/
def Station.runFeed (ch : Fin 2) (k : FeedCfg) (d : Station) : Station :=
  let d := d.onFeed ch fun c =>
    { c with state := .running, targetRate := 0, rateSeen := false, runningSecond := some (d.inSec 1) }
  (d.writeStall ch k.stall).recomputeDelivered ch k

/-- Entry to RUNNING from HELD, the target mass rate kept (R126, R131). -/
def Station.resumeFeed (ch : Fin 2) (k : FeedCfg) (d : Station) : Station :=
  let d := d.onFeed ch fun c => { c with state := .running }
  (d.writeStall ch k.stall).recomputeDelivered ch k

/-- The run-down timer starts (R130). -/
def Station.startRunDown (ch : Fin 2) (d : Station) : Station :=
  d.onFeed ch fun c => { c with runDown := true, runDownTimer := some (d.inMs d.loopCfg.cycle) }

/-- An operation on each configured channel in turn (R113). No rule says which of the two is first within a step of R119 or at one ESTOP or
left UP; channel 1 is (log 70). -/
def Station.eachFeed (f : Fin 2 → FeedCfg → Station → Station) (d : Station) : Station :=
  forAll (fun ch d =>
    match d.fdc.channels[ch].cfg with
    | some k => f ch k d
    | none => d) d

/-! ## The refresh (R119) -/

/-- Step 1: a CV preload is taken (R133). -/
def Station.takeCv (ch : Fin 2) (k : FeedCfg) (d : Station) : Station :=
  match d.fdc.channels[ch].cvPreload with
  | none => d
  | some cv =>
    (d.onFeed ch fun c => { c with cv := cv, cvPreload := none, capacity := k.capacityAt cv }).recomputeDelivered ch k

/-- The pair record of the channel's encoder shows REVERSE (R127). -/
def Station.turnsBack (ch : Fin 2) (d : Station) : Bool :=
  match d.findChannel .encoder (ch.val + 1) with
  | some i => d.piu.channels[i].direction == .reverse
  | none => false

/-- Step 2: a channel is moved by the floor image (R119, R127, R131). -/
def Station.moveFeed (ch : Fin 2) (k : FeedCfg) (d : Station) : Station :=
  let c := d.fdc.channels[ch]
  match c.state with
  | .ready => if d.alight k.letter then d.runFeed ch k else d
  | .running =>
    if !d.alight k.letter then d.restFeed .ready ch k
    else if d.turnsBack ch then d.faultFeed .feederReverse ch k
    else d
  | .held =>
    if !c.reEvaluate then d
    else
      let d := d.onFeed ch fun c => { c with reEvaluate := false, runDown := false, runDownTimer := none }
      if d.alight k.letter then d.resumeFeed ch k else d.restFeed .ready ch k
  | _ => d

/-- The capacity a channel in view is shared by: an own channel that has just taken a CV uses its new capacity (R117, R133;
log 17). -/
def Station.sharedCapacity (taken : List (Fin 2)) (e : Fin 16 × FeedEntry) (d : Station) : Nat :=
  match taken.find? fun ch => e.1 == d.own && e.2.channel.toNat == ch.val + 1 with
  | some ch => d.fdc.channels[ch].capacity
  | none => e.2.capacity.toNat

/-- The target heat that the sharing gives an own channel, 0 where it is not available in view, as where the own image still shows a
resumed channel HELD (R118; log 59). -/
def Station.targetOf (taken : List (Fin 2)) (ch : Fin 2) (k : FeedCfg) (d : Station) : Nat :=
  let l := d.available k.letter
  let targets := shareHeat (d.demandOf k.letter) (l.map fun e => (d.sharedCapacity taken e, e.2.weight.toNat))
  match (l.zip targets).find? fun p => p.1.1 == d.own && p.1.2.channel.toNat == ch.val + 1 with
  | some p => p.2
  | none => 0

/-- Step 3: a channel takes its target heat (R119). -/
def Station.takeTarget (taken : List (Fin 2)) (ch : Fin 2) (k : FeedCfg) (d : Station) : Station :=
  let c := d.fdc.channels[ch]
  let t := if c.state = .ready || c.state = .running then d.targetOf taken ch k else 0
  d.onFeed ch fun c => { c with targetHeat := t }

/-- Step 4: a RUNNING channel's reference follows its target heat (R120, R121). -/
def Station.followTarget (ch : Fin 2) (k : FeedCfg) (d : Station) : Station :=
  if d.fdc.channels[ch].state ≠ .running then d
  else
    let step := k.rampStep d.loopCfg.cycle
    (d.onFeed ch fun c =>
      { c with massGoal := c.goal k, targetRate := rampRateTo c.targetRate (c.goal k) step }).updateFine ch k

/-- The channels with a CV preload waiting. -/
def Station.cvWaiting (d : Station) : List (Fin 2) :=
  (List.finRange 2).filter fun ch => d.fdc.channels[ch].cvPreload.isSome

/-- A floor image refreshed signal (R119, R133). -/
def Station.feedRefresh (d : Station) : Station :=
  let taken := d.cvWaiting
  let d := d.eachFeed Station.takeCv
  if d.lpc.state ≠ .up then d
  else (((d.eachFeed Station.moveFeed).eachFeed (Station.takeTarget taken)).eachFeed Station.followTarget).stageFeed

/-! ## The start (R113) -/

/-- The Feed Controller at the accepted START (R113). -/
def Station.startFeed (d : Station) : Station :=
  (forAll (fun (ch : Fin 2) d =>
    match d.cfg.feeds[ch] with
    | some k => d.onFeed ch fun _ => { FeedChannel.first with cfg := some k, cv := k.cv, capacity := k.capacityAt k.cv }
    | none => d) d).stageFeed

/-! ## Requests (R115, R133) -/

/-- A channel number that is a configured channel. -/
def Station.feedIdx (b : Byte) (d : Station) : Option (Fin 2 × FeedCfg) :=
  if h : 1 ≤ b.toNat ∧ b.toNat ≤ 2 then
    (d.fdc.channels[b.toNat - 1]'(by omega)).cfg.map fun k => (⟨b.toNat - 1, by omega⟩, k)
  else none

/-- The checks every feed request passes (R115). -/
def Station.feedRequest (channel : Byte) (f : Fin 2 → FeedCfg → Station → Station) (d : Station) : Station :=
  if !d.ppt.started then d.wrongState
  else if !d.feedDuty then d.notConfigured
  else match d.feedIdx channel with
    | none => d.badField
    | some (ch, k) => f ch k d

/-! ## Meanings -/

/-- FEED_ENABLE (R115). -/
def execFeedEnable (channel : Byte) (s : State) : Host.Outcome State Fault Refusal :=
  act (.feedEnable channel) (Station.feedRequest channel fun ch k d =>
    if d.fdc.channels[ch].state ≠ .off then d.wrongState
    else if d.lineActive .estop then d.refuse .estop
    else (d.restFeed .ready ch k).ok) s

/-- FEED_DISABLE (R115): OFF with the reference 0 at once; in OFF nothing changes. -/
def execFeedDisable (channel : Byte) (s : State) : Host.Outcome State Fault Refusal :=
  act (.feedDisable channel) (Station.feedRequest channel fun ch k d =>
    if d.fdc.channels[ch].state = .off then d.ok else (d.restFeed .off ch k).ok) s

/-- FEED_CLEAR_FAULT (R115). -/
def execFeedClearFault (channel : Byte) (s : State) : Host.Outcome State Fault Refusal :=
  act (.feedClearFault channel) (Station.feedRequest channel fun ch k d =>
    if d.fdc.channels[ch].state ≠ .fault then d.wrongState
    else if d.lineActive .estop then d.refuse .estop
    else (d.restFeed .ready ch k).ok) s

/-- CALORIFIC_UPDATE (R133): the CV waits in the preload. -/
def execCalorificUpdate (channel : Byte) (cv : Half) (s : State) : Host.Outcome State Fault Refusal :=
  act (.calorificUpdate channel cv) (Station.feedRequest channel fun ch _ d =>
    if cv.toNat < 5000 || cv.toNat > 35000 then d.badField
    else (d.onFeed ch fun c => { c with cvPreload := some cv.toNat }).ok) s

/-- FDC_FLOOR_REFRESH (R119, R133). -/
def execFdcFloorRefresh (s : State) : Host.Outcome State Fault Refusal :=
  act .fdcFloorRefresh Station.feedRefresh s

/-- The measured mass rate of a window, none for a window of 0 ticks or past an overflow (R123 step 5). -/
def windowRate (pulse ticks count : Nat) (overflow : Bool) (tb : Timebase) : Option Nat :=
  if overflow || ticks = 0 then none else some (count * pulse * 3600000000 / (ticks * tbMicros tb))

/-- FDC_WEIGHER_WINDOW (R123, R124): mass and heat are counted, the rate is measured and the trim adjusted. A window that gives no rate,
one of 0 ticks too, leaves the rate seen flag (log 51). -/
def execFdcWeigherWindow (ch : Fin 2) (ticks count : Nat) (overflow : Bool) (tb : Timebase) (s : State) :
    Host.Outcome State Fault Refusal :=
  act (.fdcWeigherWindow ch ticks count overflow tb) (fun d =>
    match d.fdc.channels[ch].cfg with
    | none => d
    | some k =>
      let c := d.fdc.channels[ch]
      let mass := count * k.pulseWeight
      let rate := windowRate k.pulseWeight ticks count overflow tb
      let d := d.contribute (.fuel ch mass (mass * c.cv / 1000))
      let d := if c.openLoop then
          (d.onFeed ch fun c => { c with openLoop := false }).report .weigherSilent (ch.val + 1) false
        else d
      let d := match rate with
        | some r => d.onFeed ch fun c => { c with measured := r, rateSeen := c.rateSeen || c.state.turning }
        | none => d
      let d := match rate with
        | some r =>
          if c.state.turning && !c.openLoop && c.targetRate > 0 then
            (d.onFeed ch fun c => { c with trim := adjustTrim c.trim r c.targetRate }).updateFine ch k
          else d
        | none => d
      d.recomputeDelivered ch k) s

/-- FDC_WEIGHER_NO_SIGNAL (R125): a turning channel goes open-loop. -/
def execFdcWeigherNoSignal (ch : Fin 2) (s : State) : Host.Outcome State Fault Refusal :=
  act (.fdcWeigherNoSignal ch) (fun d =>
    match d.fdc.channels[ch].cfg with
    | none => d
    | some k =>
      if d.fdc.channels[ch].state.turning then
        ((d.onFeed ch fun c => { c with openLoop := true }).report .weigherSilent (ch.val + 1) true).recomputeDelivered ch k
      else d) s

/-- FDC_DIRECTION_CHANGE (R127): REVERSE puts a turning channel in FAULT. -/
def execFdcDirectionChange (ch : Fin 2) (direction : Direction) (position : Half) (s : State) :
    Host.Outcome State Fault Refusal :=
  act (.fdcDirectionChange ch direction position) (fun d =>
    match d.fdc.channels[ch].cfg with
    | none => d
    | some k =>
      if d.fdc.channels[ch].state.turning && direction == .reverse then d.faultFeed .feederReverse ch k else d) s

/-- FDC_INDEX (R128): a whole revolution is handed to the Shift Report Unit. -/
def execFdcIndex (ch : Fin 2) (first : Bool) (counts : Nat) (s : State) : Host.Outcome State Fault Refusal :=
  act (.fdcIndex ch first counts) (fun d =>
    if first || d.fdc.channels[ch].cfg.isNone then d else d.contribute (.revolution ch)) s

/-- FDC_STILL (R126): a turning channel enters FAULT with FEEDER STALL. -/
def execFdcStill (ch : Fin 2) (position : Half) (s : State) : Host.Outcome State Fault Refusal :=
  act (.fdcStill ch position) (fun d =>
    match d.fdc.channels[ch].cfg with
    | none => d
    | some k => if d.fdc.channels[ch].state.turning then d.faultFeed .feederStall ch k else d) s

/-- FDC_ACTIVE_VALUE_CHANGE (R122): the last active value reported is kept and the delivered heat recomputed. -/
def execFdcActiveValueChange (ch : Fin 2) (value : Nat) (cause : ChangeCause) (s : State) :
    Host.Outcome State Fault Refusal :=
  act (.fdcActiveValueChange ch value cause) (fun d =>
    match d.fdc.channels[ch].cfg with
    | none => d
    | some k => (d.onFeed ch fun c => { c with activeFine := value }).recomputeDelivered ch k) s

/-- FDC_ESTOP_CHANGE (R132): every configured channel enters FAULT with cause ESTOP. -/
def execFdcEstopChange (active : Bool) (s : State) : Host.Outcome State Fault Refusal :=
  act (.fdcEstopChange active) (fun d => if active then d.eachFeed (Station.faultFeed .estop) else d) s

/-- FDC_LEFT_UP (R129): RUNNING channels enter HELD. -/
def execFdcLeftUp (s : State) : Host.Outcome State Fault Refusal :=
  act .fdcLeftUp (fun d => d.eachFeed fun ch k d =>
    if d.fdc.channels[ch].state = .running then
      (d.onFeed ch fun c => { c with state := .held }).recomputeDelivered ch k
    else d) s

/-- FDC_LOOP_GRACE_EXPIRY (R130): HELD channels begin their run-down. -/
def execFdcLoopGraceExpiry (s : State) : Host.Outcome State Fault Refusal :=
  act .fdcLoopGraceExpiry (fun d => d.eachFeed fun ch _ d =>
    if d.fdc.channels[ch].state = .held then d.startRunDown ch else d) s

/-- FDC_ENTERED_UP (R131): HELD channels are to be re-evaluated. -/
def execFdcEnteredUp (s : State) : Host.Outcome State Fault Refusal :=
  act .fdcEnteredUp (fun d => d.eachFeed fun ch _ d =>
    if d.fdc.channels[ch].state = .held then d.onFeed ch fun c => { c with reEvaluate := true } else d) s

/-- RUN_DOWN_TIMER_EXPIRY (R130): the rate falls by one ramp step, to READY at 0. -/
def execRunDownTimerExpiry (ch : Fin 2) (s : State) : Host.Outcome State Fault Refusal :=
  act (.runDownTimerExpiry ch) (fun d =>
    match d.fdc.channels[ch].cfg with
    | none => d
    | some k =>
      if d.fdc.channels[ch].runDownTimer.isNone then d
      else
        let step := k.rampStep d.loopCfg.cycle
        let d := (d.onFeed ch fun c => { c with targetRate := c.targetRate - step }).updateFine ch k
        if d.fdc.channels[ch].targetRate = 0 then d.restFeed .ready ch k else d.startRunDown ch) s

/-- RUNNING_SECOND_TIMER_EXPIRY (R134): one running second, and the timer starts again. -/
def execRunningSecondTimerExpiry (ch : Fin 2) (s : State) : Host.Outcome State Fault Refusal :=
  act (.runningSecondTimerExpiry ch) (fun d =>
    if d.fdc.channels[ch].runningSecond.isNone then d
    else (d.onFeed ch fun c => { c with runningSecond := some (d.inSec 1) }).contribute (.runningSecond ch)) s

end Sys2Proof.Machine
end

