-- ==== Sys2Proof/Machine/Grate.lean ====
section
/-! DEFINITION. The Grate Cooler Controller (08_grate_cooler.md): strokes, the hydraulic grant, faults, rates, fans, and the
meanings of its commands. -/

namespace Sys2Proof.Machine

/-! ## Publication (R148) -/

/-- The cycling states (R136). -/
def CompState.cycling : CompState → Bool
  | .rest | .waiting | .forward | .dwell | .returning => true
  | _ => false

/-- The configured compartment records. -/
def Gcc.configured (g : Gcc) : List Compartment := g.comps.toList.filter fun c => c.cfg.isSome

def Gcc.cyclingCount (g : Gcc) : Nat := (g.configured.filter fun c => c.state.cycling).length

def Gcc.faultCount (g : Gcc) : Nat := (g.configured.filter fun c => c.state == .fault).length

/-- The cooler state (R148). -/
def Gcc.coolerState (g : Gcc) : CoolerState :=
  if g.cyclingCount > 0 then (if g.faultCount > 0 then .degraded else .running)
  else if g.faultCount > 0 then .fault else .stopped

/-- The throughput, 0.1 t/h (R148). -/
def Gcc.throughput (g : Gcc) : Nat :=
  min top16 ((g.configured.map fun c =>
    match c.cfg with
    | some k => if c.state.cycling then c.shadow * k.capacity * 6 / 1000 else 0
    | none => 0).sum)

/-- The cooler part (R148). -/
def Gcc.part (g : Gcc) : CoolerPart :=
  { state := g.coolerState, cycling := BitVec.ofNat 8 g.cyclingCount, throughput := BitVec.ofNat 16 g.throughput }

/-- The cooler part is written to the staging record (R148). -/
def Station.stageCooler (d : Station) : Station :=
  if d.coolerDuty then d.onStaging fun g => { g with cooler := some d.gcc.part } else d

/-! ## Lines and conditions -/

/-- LINE ON to a stroke line of a compartment; a line that is not there answers done. -/
def Station.strokeOn (kind : OutKind) (i : Fin 4) (d : Station) : Station × DouAnswer :=
  match d.findOut kind .compartment (i.val + 1) with
  | some l => d.lineOn l .grateCooler
  | none => (d, .done)

/-- LINE OFF to a stroke line of a compartment. -/
def Station.strokeOff (kind : OutKind) (i : Fin 4) (d : Station) : Station :=
  match d.findOut kind .compartment (i.val + 1) with
  | some l => (d.lineOff l .grateCooler).1
  | none => d

def Station.reportTimeout (i : Fin 4) (v : Bool) (d : Station) : Station := d.report .grateStrokeTimeout (i.val + 1) v
def Station.reportConflict (i : Fin 4) (v : Bool) (d : Station) : Station := d.report .limitConflict (i.val + 1) v

/-! ## Faults and the grant (R138, R141 to R143, R145) -/

/-- Entry to FAULT, or a change of cause within it; the grant is left free for another (R141, R142, R143). The emergency stop leaves
fault pending and stop-at-stroke-end as they stand: of the entries to FAULT, R142 alone names no clearing (log 62). -/
def Station.faultComp (cause : CompCause) (i : Fin 4) (d : Station) : Station :=
  let again := d.gcc.comps[i].state == .fault
  let d := (d.strokeOff .strokeForward i).strokeOff .strokeReturn i
  let d := d.onGcc fun g =>
    { g with queue := g.queue.filter (· != i), holder := if g.holder = some i then none else g.holder }
  let d := d.onComp i fun c =>
    { c with state := .fault, cause := cause, timer := none
             faultPending := cause == .estop && c.faultPending, stopAtEnd := cause == .estop && c.stopAtEnd }
  let d := if again then d else (d.contribute (.grateFault i)).post .grateFault
  let d := if cause = .estop then (d.reportTimeout i false).reportConflict i false else d
  d.stageCooler

/-- The period of a stroke rate, ms (section 8.2). -/
def strokePeriod (rate : Nat) : Nat := 600000 / rate

/-- The steps of a grant up to the LINE ON (R138 steps 1 to 3). -/
def Station.beginForward (i : Fin 4) (k : CompCfg) (d : Station) : Station :=
  d.onComp i fun c =>
    { c with shadow := c.preload, due := some (d.inMs (strokePeriod c.preload)), state := .forward,
             timer := some (.forwardLimit, d.inMs k.forwardLimit) }

/-- The grant passes to the head of the queue while it is free; a held-off LINE ON faults the compartment and the grant
passes on (R138, R142, R145). The number bounds the compartments that can be tried: each try shortens the queue. -/
def Station.passGrant : Nat → Station → Station
  | 0, d => d
  | n + 1, d =>
    match d.gcc.holder, d.gcc.queue with
    | none, i :: rest =>
      match d.gcc.comps[i].cfg with
      | none => Station.passGrant n (d.onGcc fun g => { g with queue := rest })
      | some k =>
        let d := (d.onGcc fun g => { g with holder := some i, queue := rest }).beginForward i k
        match d.strokeOn .strokeForward i with
        | (d, .heldOff) => Station.passGrant n (d.faultComp .estop i)
        | (d, .done) => (d.contribute (.stroke i)).stageCooler
        | (d, .refused) => d.stageCooler
    | _, _ => d

/-- The grant passes on (R145). -/
def Station.grant (d : Station) : Station := d.passGrant 5

/-- The holder releases the grant, which passes on (R145). -/
def Station.releaseGrant (i : Fin 4) (d : Station) : Station :=
  if d.gcc.holder = some i then (d.onGcc fun g => { g with holder := none }).grant else d

/-- A compartment's fault, after which the grant passes on (R141, R142, R145). -/
def Station.faultAndPass (cause : CompCause) (i : Fin 4) (d : Station) : Station := (d.faultComp cause i).grant

/-- The queue's order: next due time, then compartment number (R145). -/
def Gcc.before (g : Gcc) (a b : Fin 4) : Bool :=
  let da := (g.comps[a].due).getD 0
  let db := (g.comps[b].due).getD 0
  da < db || (da == db && a < b)

/-- A compartment placed in the queue at the position its due time gives (R145). -/
def Gcc.insert (g : Gcc) (i : Fin 4) : List (Fin 4) :=
  let others := g.queue.filter (· != i)
  (others.filter fun j => g.before j i) ++ i :: others.filter fun j => !g.before j i

/-- Entry to WAITING: the compartment joins the queue, and the grant passes if it is free (R137, R145). -/
def Station.wait (i : Fin 4) (d : Station) : Station :=
  let d := d.onComp i fun c => { c with state := .waiting }
  ((d.onGcc fun g => { g with queue := g.insert i }).grant).stageCooler

/-- Entry to REST; a due time already reached leads to WAITING at once (R137). -/
def Station.rest (i : Fin 4) (d : Station) : Station :=
  let d := d.onComp i fun c => { c with state := .rest }
  if (d.gcc.comps[i].due).getD 0 ≤ d.now then d.wait i else d.stageCooler

/-- Entry to RETURN; a held-off answer is the emergency stop (R140, R142). -/
def Station.startReturn (i : Fin 4) (k : CompCfg) (d : Station) : Station :=
  let d := d.onComp i fun c => { c with state := .returning, timer := some (.returnLimit, d.inMs k.returnLimit) }
  match d.strokeOn .strokeReturn i with
  | (d, .heldOff) => d.faultAndPass .estop i
  | (d, _) => d.stageCooler

/-- A limit conflict (R141). -/
def Station.limitConflict (i : Fin 4) (d : Station) : Station :=
  if d.gcc.comps[i].state = .fault then d
  else ((d.faultComp .limitConflict i).reportConflict i true).grant

/-- END FORWARD to ACTIVE in FORWARD (R139). -/
def Station.endForward (i : Fin 4) (k : CompCfg) (d : Station) : Station :=
  let d := (d.strokeOff .strokeForward i).onComp i fun c => { c with state := .dwell, timer := none }
  let d := d.releaseGrant i
  if k.dwell = 0 then d.startReturn i k
  else (d.onComp i fun c => { c with timer := some (.dwell, d.inMs k.dwell) }).stageCooler

/-- END RETURN to ACTIVE in RETURN (R140). -/
def Station.endReturn (i : Fin 4) (d : Station) : Station :=
  let d := (d.strokeOff .strokeReturn i).onComp i fun c => { c with timer := none }
  if d.gcc.comps[i].faultPending then d.faultAndPass .strokeTimeout i
  else if d.gcc.comps[i].stopAtEnd then
    (d.onComp i fun c => { c with state := .stopped, stopAtEnd := false }).stageCooler
  else d.rest i

/-! ## Rates (R146, R147) -/

def Station.hasPressure (d : Station) (i : Fin 4) : Bool := (d.findChannel .pressure (i.val + 1)).isSome

/-- The follow rate (R146). -/
def Compartment.followRate (k : CompCfg) (c : Compartment) : Nat :=
  clamp k.minRate k.maxRate ((c.baseRate : Int) + Int.tdiv ((k.gain : Int) * ((c.pressure : Int) - k.target)) 1000)

/-- The rate preload that a rate mode gives afresh (the table of R147). -/
def Compartment.freshPreload (k : CompCfg) (c : Compartment) : Nat :=
  match c.mode with
  | .minimum => k.minRate
  | .base => c.baseRate
  | .follow => if c.pressureValid then c.followRate k else c.baseRate

/-- The pressure of a capture in Pa, none for a period of 0 ticks (R146). -/
def pressureOf (k : CompCfg) (period : Nat) (tb : Timebase) : Option Nat :=
  if period = 0 then none
  else some (clamp 0 30000 (((1000000 / (period * tbMicros tb) : Nat) - (k.f0 : Int)) * k.scale))

/-- The rate mode of a compartment (R147). -/
def Station.rateMode (d : Station) (i : Fin 4) : RateMode :=
  if !d.alight .a then .minimum else if d.hasPressure i then .follow else .base

/-- A compartment's rate mode judged at a refresh (R147). -/
def Station.judgeMode (i : Fin 4) (d : Station) : Station :=
  match d.gcc.comps[i].cfg with
  | none => d
  | some k =>
    let m := d.rateMode i
    if m = d.gcc.comps[i].mode then d
    else d.onComp i fun c => { c with mode := m, preload := { c with mode := m }.freshPreload k }

/-! ## The start (R136) -/

/-- The Grate Cooler Controller at the accepted START (R136, R148). -/
def Station.startCooler (d : Station) : Station :=
  (forAll (fun (i : Fin 4) d =>
    match d.cfg.comps[i] with
    | some k => d.onComp i fun _ =>
        { Compartment.first with cfg := some k, baseRate := k.baseRate, shadow := k.minRate, preload := k.minRate }
    | none => d) d).stageCooler

/-! ## Requests (R144) -/

/-- A compartment number that is a configured compartment. -/
def Station.compIdx (b : Byte) (d : Station) : Option (Fin 4 × CompCfg) :=
  if h : 1 ≤ b.toNat ∧ b.toNat ≤ 4 then
    (d.gcc.comps[b.toNat - 1]'(by omega)).cfg.map fun k => (⟨b.toNat - 1, by omega⟩, k)
  else none

/-- The checks every cooler request passes before its own fields (R144). -/
def Station.coolerRequest (f : Station → Station) (d : Station) : Station :=
  if !d.ppt.started then d.wrongState else if !d.coolerDuty then d.notConfigured else f d

/-- The checks of a request that names a compartment (R144). -/
def Station.compRequest (comp : Byte) (f : Fin 4 → CompCfg → Station → Station) (d : Station) : Station :=
  d.coolerRequest fun d =>
    match d.compIdx comp with
    | none => d.badField
    | some (i, k) => f i k d

/-- The states of a stroke in progress (R144). -/
def CompState.inStroke : CompState → Bool
  | .forward | .dwell | .returning => true
  | _ => false

/-! ## Meanings -/

/-- COOLER_ENABLE (R144). -/
def execCoolerEnable (compartment : Byte) (s : State) : Host.Outcome State Fault Refusal :=
  act (.coolerEnable compartment) (Station.compRequest compartment fun i _ d =>
    let c := d.gcc.comps[i]
    if c.state = .stopped then
      if d.lineActive .estop then d.refuse .estop
      else ((d.onComp i fun c => { c with due := some d.now }).rest i).ok
    else if c.state.inStroke && c.stopAtEnd then (d.onComp i fun c => { c with stopAtEnd := false }).ok
    else d.wrongState) s

/-- COOLER_DISABLE (R144). -/
def execCoolerDisable (compartment : Byte) (s : State) : Host.Outcome State Fault Refusal :=
  act (.coolerDisable compartment) (Station.compRequest compartment fun i _ d =>
    match d.gcc.comps[i].state with
    | .stopped => d.ok
    | .rest => ((d.onComp i fun c => { c with state := .stopped, due := none }).stageCooler).ok
    | .waiting =>
      (((d.onComp i fun c => { c with state := .stopped }).onGcc fun g =>
        { g with queue := g.queue.filter (· != i) }).stageCooler).ok
    | .fault => d.wrongState
    | _ => (d.onComp i fun c => { c with stopAtEnd := true }).ok) s

/-- SET_STROKE_BASE (R147). -/
def execSetStrokeBase (compartment : Byte) (rate : Half) (s : State) : Host.Outcome State Fault Refusal :=
  act (.setStrokeBase compartment rate) (Station.compRequest compartment fun i k d =>
    if rate.toNat < k.minRate || rate.toNat > k.maxRate then d.badField
    else
      (d.onComp i fun c =>
        { c with baseRate := rate.toNat
                 preload := if c.mode = .minimum then c.preload
                   else { c with baseRate := rate.toNat }.freshPreload k }).ok) s

/-- GRATE_CLEAR_FAULT (R143). -/
def execGrateClearFault (compartment : Byte) (s : State) : Host.Outcome State Fault Refusal :=
  act (.grateClearFault compartment) (Station.compRequest compartment fun i _ d =>
    let c := d.gcc.comps[i]
    if c.state ≠ .fault then d.wrongState
    else if d.lineActive .estop then d.refuse .estop
    else if c.endForward && c.endReturn then d.refuse .limitConflict
    else
      let d := d.onComp i fun c => { c with state := .stopped, cause := .none }
      (((d.reportTimeout i false).reportConflict i false).stageCooler).ok) s

/-- SET_FAN (R149): SET PRELOAD to the fan's line. -/
def execSetFan (fan : Byte) (reference : Half) (s : State) : Host.Outcome State Fault Refusal :=
  act (.setFan fan reference) (Station.coolerRequest fun d =>
    if fan.toNat < 1 || fan.toNat > 4 || reference.toNat > 4080 then d.badField
    else match d.findOut .reference .fan fan.toNat with
      | none => d.badField
      | some l => (d.setPreload l .grateCooler reference.toNat).1.ok) s

/-- DUE_TIME_REACHED (R137): a compartment in REST enters WAITING. -/
def execDueTimeReached (comp : Fin 4) (s : State) : Host.Outcome State Fault Refusal :=
  act (.dueTimeReached comp) (fun d => if d.gcc.comps[comp].state = .rest then d.wait comp else d) s

/-- GCC_END_FORWARD_CHANGE (R137, R139, R141). -/
def execGccEndForwardChange (comp : Fin 4) (active : Bool) (s : State) : Host.Outcome State Fault Refusal :=
  act (.gccEndForwardChange comp active) (fun d =>
    match d.gcc.comps[comp].cfg with
    | none => d
    | some k =>
      let d := d.onComp comp fun c => { c with endForward := active }
      if !active then d
      else if d.gcc.comps[comp].endReturn then d.limitConflict comp
      else if d.gcc.comps[comp].state = .forward then d.endForward comp k
      else d) s

/-- GCC_END_RETURN_CHANGE (R137, R140, R141). -/
def execGccEndReturnChange (comp : Fin 4) (active : Bool) (s : State) : Host.Outcome State Fault Refusal :=
  act (.gccEndReturnChange comp active) (fun d =>
    match d.gcc.comps[comp].cfg with
    | none => d
    | some _ =>
      let d := d.onComp comp fun c => { c with endReturn := active }
      if !active then d
      else if d.gcc.comps[comp].endForward then d.limitConflict comp
      else if d.gcc.comps[comp].state = .returning then d.endReturn comp
      else d) s

/-- A compartment's running timer is of a kind (R136). -/
def Compartment.runs (t : CompTimer) (c : Compartment) : Bool :=
  match c.timer with
  | some (u, _) => u == t
  | none => false

/-- FORWARD_LIMIT_EXPIRY (R139): RETURN with fault pending, and the grant is released. -/
def execForwardLimitExpiry (comp : Fin 4) (s : State) : Host.Outcome State Fault Refusal :=
  act (.forwardLimitExpiry comp) (fun d =>
    match d.gcc.comps[comp].cfg with
    | none => d
    | some k =>
      if !d.gcc.comps[comp].runs .forwardLimit then d
      else
        let d := (d.strokeOff .strokeForward comp).onComp comp fun c =>
          { c with faultPending := true, cause := .strokeTimeout, state := .returning, timer := none }
        ((d.reportTimeout comp true).releaseGrant comp).startReturn comp k) s

/-- DWELL_EXPIRY (R140): entry to RETURN. -/
def execDwellExpiry (comp : Fin 4) (s : State) : Host.Outcome State Fault Refusal :=
  act (.dwellExpiry comp) (fun d =>
    match d.gcc.comps[comp].cfg with
    | none => d
    | some k => if d.gcc.comps[comp].runs .dwell then d.startReturn comp k else d) s

/-- RETURN_LIMIT_EXPIRY (R140): FAULT with GRATE STROKE TIMEOUT. -/
def execReturnLimitExpiry (comp : Fin 4) (s : State) : Host.Outcome State Fault Refusal :=
  act (.returnLimitExpiry comp) (fun d =>
    if d.gcc.comps[comp].runs .returnLimit then
      ((d.faultComp .strokeTimeout comp).reportTimeout comp true).grant
    else d) s

/-- GCC_ESTOP_CHANGE (R142): every configured compartment enters FAULT with cause ESTOP; queue and grant are emptied first,
so no grant passes (log 16). No rule orders the compartments; the lowest is first (log 70). -/
def execGccEstopChange (active : Bool) (s : State) : Host.Outcome State Fault Refusal :=
  act (.gccEstopChange active) (fun d =>
    if !active then d
    else forAll (fun i d => if d.gcc.comps[i].cfg.isSome then d.faultComp .estop i else d)
      (d.onGcc fun g => { g with holder := none, queue := [] })) s

/-- GCC_PRESSURE_CAPTURE (R146): the pressure is taken, handed on, and followed in FOLLOW. -/
def execGccPressureCapture (comp : Fin 4) (period width : Nat) (tb : Timebase) (s : State) :
    Host.Outcome State Fault Refusal :=
  act (.gccPressureCapture comp period width tb) (fun d =>
    match d.gcc.comps[comp].cfg with
    | none => d
    | some k =>
      match pressureOf k period tb with
      | none => d
      | some p =>
        ((d.onComp comp fun c => { c with pressure := p, pressureValid := true }).handPressure (comp.val + 1) (some p)).onComp
          comp fun c => if c.mode = .follow then { c with preload := c.followRate k } else c) s

/-- GCC_PRESSURE_NO_SIGNAL (R146): no pressure is handed on, and FOLLOW falls to the base rate. -/
def execGccPressureNoSignal (comp : Fin 4) (s : State) : Host.Outcome State Fault Refusal :=
  act (.gccPressureNoSignal comp) (fun d =>
    match d.gcc.comps[comp].cfg with
    | none => d
    | some _ =>
      ((d.onComp comp fun c => { c with pressureValid := false }).handPressure (comp.val + 1) none).onComp comp fun c =>
        if c.mode = .follow then { c with preload := c.baseRate } else c) s

/-- GCC_FLOOR_REFRESH (R147): each compartment's rate mode is judged, in every loop state. -/
def execGccFloorRefresh (s : State) : Host.Outcome State Fault Refusal :=
  act .gccFloorRefresh (forAll Station.judgeMode) s

/-- GCC_FAN_ACTIVE_VALUE_CHANGE (R149): the value is kept, and the fan run second timer runs while any fan does. -/
def execGccFanActiveValueChange (fan : Fin 4) (value : Nat) (cause : ChangeCause) (s : State) :
    Host.Outcome State Fault Refusal :=
  act (.gccFanActiveValueChange fan value cause) (fun d =>
    let d := d.onGcc fun g => { g with fans := vecModify g.fans fan fun _ => value }
    if d.gcc.fans.toList.any fun v => v > 0 then
      if d.gcc.fanSecond.isSome then d else d.onGcc fun g => { g with fanSecond := some (d.inSec 1) }
    else d.onGcc fun g => { g with fanSecond := none }) s

/-- FAN_RUN_SECOND_TIMER_EXPIRY (R149): one fan run second, and the timer starts again. -/
def execFanRunSecondTimerExpiry (s : State) : Host.Outcome State Fault Refusal :=
  act .fanRunSecondTimerExpiry (fun d =>
    if d.gcc.fanSecond.isNone then d
    else (d.onGcc fun g => { g with fanSecond := some (d.inSec 1) }).contribute .fanSecond) s

end Sys2Proof.Machine
end

