-- ==== Sys2Proof/Machine/Frames.lean ====
section
/-! DEFINITION. The layouts of ring frames (12_record_formats.md, 12.1): heads, slots, station images, notices and marks, read
from bytes and written as bytes. -/

namespace Sys2Proof.Machine

/-! ## Fields -/

def byte16 (h : Half) : List Byte := [(h >>> 8).setWidth 8, h.setWidth 8]
def byte32 (w : Word) : List Byte :=
  [(w >>> 24).setWidth 8, (w >>> 16).setWidth 8, (w >>> 8).setWidth 8, w.setWidth 8]

def be16 (a b : Byte) : Half := a ++ b
def be32 (a b c e : Byte) : Word := a ++ b ++ c ++ e

/-- One byte, two bytes and four bytes read from the front. -/
def read8 : List Byte → Option (Byte × List Byte)
  | a :: r => some (a, r)
  | _ => none
def read16 : List Byte → Option (Half × List Byte)
  | a :: b :: r => some (be16 a b, r)
  | _ => none
def read32 : List Byte → Option (Word × List Byte)
  | a :: b :: c :: e :: r => some (be32 a b c e, r)
  | _ => none

/-- Bytes with their check code after them. -/
def withCheck (bytes : List Byte) : List Byte := bytes ++ byte16 (checkCode bytes)

/-! ## Codes (Table 12-5) -/

def letterCode : BurnerLetter → Byte
  | .a => 1
  | .b => 2
def letterOf (b : Byte) : Option BurnerLetter := if b = 1 then some .a else if b = 2 then some .b else none

def seqCode (s : BsqState) : Byte := BitVec.ofNat 8 s.ctorIdx
def seqOf (b : Byte) : Option BsqState :=
  [BsqState.off, .purge, .pilotTrial, .mainTrial, .firing, .postPurge, .lockout][b.toNat]?

def feedCode (s : FeedState) : Byte := BitVec.ofNat 8 s.ctorIdx
def feedOf (b : Byte) : Option FeedState := [FeedState.off, .ready, .running, .held, .fault][b.toNat]?

def coolerCode (s : CoolerState) : Byte := BitVec.ofNat 8 s.ctorIdx
def coolerOf (b : Byte) : Option CoolerState := [CoolerState.stopped, .running, .degraded, .fault][b.toNat]?

def alarmCode (s : AlarmState) : Byte := BitVec.ofNat 8 s.ctorIdx
def alarmOf (b : Byte) : Option AlarmState :=
  [AlarmState.normal, .raisedUnacked, .raisedAcked, .returnedUnacked][b.toNat]?

def classCode (c : AlarmClass) : Byte := BitVec.ofNat 8 c.ctorIdx
def classOf (b : Byte) : Option AlarmClass := [AlarmClass.none, .low, .high, .trip][b.toNat]?

/-- Condition kinds 1 to 21; 0 is none. -/
def kindCode : Option CondKind → Byte
  | none => 0
  | some k => BitVec.ofNat 8 (k.ctorIdx + 1)
def kindOf (b : Byte) : Option (Option CondKind) :=
  if b = 0 then some none
  else ([CondKind.flameFail, .ignitionFail, .mainFlameFail, .purgeAirLost, .airFlowLost, .estop, .feederStall,
    .feederReverse, .weigherSilent, .heatShortfall, .coolerLoss, .grateStrokeTimeout, .limitConflict, .pressureHigh,
    .pressureLow, .loopLost, .duplicateStation, .configMismatch, .noticeLoss, .panelAbsent,
    .inputLine][b.toNat - 1]?).map some

/-! ## Notices (Table 12-3) -/

def NoticeBody.code : NoticeBody → Byte
  | .alarmState _ => 1
  | .ackRequest .. => 2
  | .timeSet _ => 3

def AlarmBody.bytes (b : AlarmBody) : List Byte :=
  [b.point, b.occurrence, alarmCode b.state, classCode b.cls, kindCode b.kind] ++ byte32 b.raiseTime ++ [b.firstOut]

def NoticeBody.bytes : NoticeBody → List Byte
  | .alarmState b => b.bytes
  | .ackRequest t p o => [t, p, o]
  | .timeSet t => byte32 t

def Notice.bytes (n : Notice) : List Byte :=
  [n.body.code, n.sender, n.seq] ++ byte16 n.mask ++ n.body.bytes

def readAlarmBody (l : List Byte) : Option (AlarmBody × List Byte) := do
  let (point, l) ← read8 l
  let (occurrence, l) ← read8 l
  let (st, l) ← read8 l
  let (cl, l) ← read8 l
  let (k, l) ← read8 l
  let (t, l) ← read32 l
  let (f, l) ← read8 l
  let st ← alarmOf st
  let cl ← classOf cl
  let k ← kindOf k
  return ({ point := point, occurrence := occurrence, state := st, cls := cl, kind := k, raiseTime := t, firstOut := f }, l)

def readNoticeBody (code : Byte) (l : List Byte) : Option (NoticeBody × List Byte) :=
  if code = 1 then (readAlarmBody l).map fun r => (.alarmState r.1, r.2)
  else if code = 2 then
    match l with
    | t :: p :: o :: r => some (.ackRequest t p o, r)
    | _ => none
  else if code = 3 then (read32 l).map fun r => (.timeSet r.1, r.2)
  else none

def readNotice (l : List Byte) : Option (Notice × List Byte) := do
  let (code, l) ← read8 l
  let (sender, l) ← read8 l
  let (seq, l) ← read8 l
  let (mask, l) ← read16 l
  let (body, l) ← readNoticeBody code l
  return ({ sender := sender, seq := seq, mask := mask, body := body }, l)

/-- A number of records in order. -/
def readMany {α : Type} (one : List Byte → Option (α × List Byte)) : Nat → List Byte → Option (List α × List Byte)
  | 0, l => some ([], l)
  | n + 1, l => do
    let (x, l) ← one l
    let (xs, l) ← readMany one n l
    return (x :: xs, l)

/-! ## Station images (Table 12-2) -/

def BurnerPart.bytes (b : BurnerPart) : List Byte := [letterCode b.letter, seqCode b.state] ++ byte32 b.demand
def FeedEntry.bytes (e : FeedEntry) : List Byte :=
  [e.channel, letterCode e.letter, feedCode e.state, e.weight] ++ byte32 e.capacity ++ byte32 e.delivered
def feedPartBytes (l : List FeedEntry) : List Byte := BitVec.ofNat 8 l.length :: l.flatMap FeedEntry.bytes
def CoolerPart.bytes (c : CoolerPart) : List Byte := [coolerCode c.state, c.cycling] ++ byte16 c.throughput
def AlarmSummary.bytes (a : AlarmSummary) : List Byte := [a.unacked, classCode a.highest, a.flood]
def ClosingPart.bytes (c : ClosingPart) : List Byte :=
  byte16 c.shift ++ byte32 c.heat ++ byte32 c.firing ++ byte32 c.strokes ++ byte16 c.trips

def bitByte (b : Bool) (n : Nat) : Byte := if b then BitVec.ofNat 8 (2 ^ n) else 0

def Image.flags (g : Image) : Byte :=
  bitByte g.panelPresent 0 ||| bitByte g.tripRequest 1 ||| bitByte g.burner.isSome 2 ||| bitByte g.feed.isSome 3 |||
    bitByte g.cooler.isSome 4

/-- A station image as bytes (Table 12-2). -/
def Image.bytes (g : Image) : List Byte :=
  [g.station, g.seq] ++ byte16 g.sig ++ [g.epoch, g.flags, g.firstPoint, kindCode g.firstKind] ++ byte16 g.openShift ++
    (match g.burner with | some b => b.bytes | none => []) ++
    (match g.feed with | some f => feedPartBytes f | none => []) ++
    (match g.cooler with | some c => c.bytes | none => []) ++
    g.summary.bytes ++ g.closing.bytes ++ (BitVec.ofNat 8 g.notices.length :: g.notices.flatMap Notice.bytes)

def readBurner (l : List Byte) : Option (BurnerPart × List Byte) := do
  let (x, l) ← read8 l
  let (st, l) ← read8 l
  let (dem, l) ← read32 l
  let x ← letterOf x
  let st ← seqOf st
  return ({ letter := x, state := st, demand := dem }, l)

def readFeedEntry (l : List Byte) : Option (FeedEntry × List Byte) := do
  let (ch, l) ← read8 l
  let (x, l) ← read8 l
  let (st, l) ← read8 l
  let (w, l) ← read8 l
  let (cap, l) ← read32 l
  let (del, l) ← read32 l
  let x ← letterOf x
  let st ← feedOf st
  return ({ channel := ch, letter := x, state := st, weight := w, capacity := cap, delivered := del }, l)

/-- A feed part: the entry count is 1 or 2 (R199). -/
def readFeedPart (l : List Byte) : Option (List FeedEntry × List Byte) := do
  let (n, l) ← read8 l
  if n = 1 || n = 2 then readMany readFeedEntry n.toNat l else none

def readCooler (l : List Byte) : Option (CoolerPart × List Byte) := do
  let (st, l) ← read8 l
  let (n, l) ← read8 l
  let (t, l) ← read16 l
  let st ← coolerOf st
  return ({ state := st, cycling := n, throughput := t }, l)

def readSummary (l : List Byte) : Option (AlarmSummary × List Byte) := do
  let (n, l) ← read8 l
  let (c, l) ← read8 l
  let (f, l) ← read8 l
  let c ← classOf c
  return ({ unacked := n, highest := c, flood := f }, l)

def readClosing (l : List Byte) : Option (ClosingPart × List Byte) := do
  let (s, l) ← read16 l
  let (h, l) ← read32 l
  let (f, l) ← read32 l
  let (k, l) ← read32 l
  let (t, l) ← read16 l
  return ({ shift := s, heat := h, firing := f, strokes := k, trips := t }, l)

/-- The notice list: the count is 0 to 4 (R199). -/
def readNotices (l : List Byte) : Option (List Notice × List Byte) := do
  let (n, l) ← read8 l
  if n.toNat ≤ 4 then readMany readNotice n.toNat l else none

/-- A part that is present when its flag is set. -/
def readIf {α : Type} (flag : Bool) (one : List Byte → Option (α × List Byte)) (l : List Byte) :
    Option (Option α × List Byte) :=
  if flag then (one l).map fun r => (some r.1, r.2) else some (none, l)

/-- A station image that meets the format checks (R199). -/
def readImage (l : List Byte) : Option Image := do
  let (st, l) ← read8 l
  let (seq, l) ← read8 l
  let (sig, l) ← read16 l
  let (epoch, l) ← read8 l
  let (flags, l) ← read8 l
  let (fp, l) ← read8 l
  let (fk, l) ← read8 l
  let (sh, l) ← read16 l
  let fk ← kindOf fk
  let (burner, l) ← readIf (flags.getLsbD 2) readBurner l
  let (feed, l) ← readIf (flags.getLsbD 3) readFeedPart l
  let (cooler, l) ← readIf (flags.getLsbD 4) readCooler l
  let (summary, l) ← readSummary l
  let (closing, l) ← readClosing l
  let (notices, l) ← readNotices l
  if flags.toNat < 32 && l.isEmpty && notices.all (fun n => n.sender == st) then
    some { station := st, seq := seq, sig := sig, epoch := epoch, panelPresent := flags.getLsbD 0,
           tripRequest := flags.getLsbD 1, firstPoint := fp, firstKind := fk, openShift := sh, burner := burner,
           feed := feed, cooler := cooler, summary := summary, closing := closing, notices := notices }
  else none

/-! ## Slots and trains (Table 12-1; R3, R6) -/

/-- An image in a slot position: length, image, check code. -/
def slotBytes (g : Image) : List Byte := withCheck (BitVec.ofNat 8 g.bytes.length :: g.bytes)

/-- The condition of a slot position (R6). -/
inductive SlotView where
  | empty
  | pass (g : Image)
  | fail
  deriving DecidableEq, Repr

/-- A slot position checked (R6, R199). A position the train does not reach fails (log 11). -/
def viewSlot (i : Fin 16) (raw : List Byte) : SlotView :=
  match raw with
  | [] => .fail
  | n :: rest =>
    if n = 0 then .empty
    else if withCheck (n :: rest.take n.toNat) = raw then
      match readImage (rest.take n.toNat) with
      | some g => if g.station = stationByte i then .pass g else .fail
      | none => .fail
    else .fail

/-- The slot positions after a head, and what follows them. -/
def splitSlots : Nat → List Byte → List (List Byte) × List Byte
  | 0, l => ([], l)
  | k + 1, [] => let r := splitSlots k []; ([] :: r.1, r.2)
  | k + 1, n :: rest =>
    if n = 0 then
      let r := splitSlots k rest
      ([n] :: r.1, r.2)
    else
      let r := splitSlots k (rest.drop (n.toNat + 2))
      ((n :: rest.take (n.toNat + 2)) :: r.1, r.2)

/-- A train as it arrives: its head's bytes after the type, its head if it passes, its slot positions, what follows. -/
structure Train where
  headBytes : List Byte
  head : Option Head
  slots : List (List Byte)
  rest : List Byte
  deriving DecidableEq, Repr

/-- The bytes of a head after the frame type byte, without the check code (Table 12-1). -/
def Head.fields (h : Head) : List Byte :=
  [h.origin] ++ byte16 h.seq ++ byte32 h.time ++ byte16 h.shift ++ [h.size] ++ byte16 h.sig

/-- A whole head with its frame type and check code. -/
def Head.bytes (h : Head) : List Byte := withCheck (1 :: h.fields)

/-- The fields of a head read from its bytes. -/
def readHeadFields (l : List Byte) : Option Head := do
  let (o, l) ← read8 l
  let (seq, l) ← read16 l
  let (t, l) ← read32 l
  let (sh, l) ← read16 l
  let (n, l) ← read8 l
  let (sig, _) ← read16 l
  return { origin := o, seq := seq, time := t, shift := sh, size := n, sig := sig }

/-- The head passes: check code, origin station and loop size (R4). -/
def readHead (l : List Byte) : Option Head :=
  if withCheck (1 :: l.take 12) = 1 :: l then
    match readHeadFields l with
    | some h =>
      if 1 ≤ h.origin.toNat && h.origin.toNat ≤ 16 && 1 ≤ h.size.toNat && h.size.toNat ≤ 16 then some h else none
    | none => none
  else none

/-- A train read from the bytes after its frame type byte. -/
def readTrain (body : List Byte) : Train :=
  let r := splitSlots 16 (body.drop 14)
  { headBytes := body.take 14, head := readHead (body.take 14), slots := r.1, rest := r.2 }

/-- A train's frame with the given slot positions; a position that a train cut short did not reach is the empty list of bytes
(log 11). -/
def Train.frame (t : Train) (slots : List (List Byte)) : List Byte := 1 :: t.headBytes ++ slots.flatten ++ t.rest

/-! ## Marks (Table 12-4; R28, R199) -/

/-- A claim mark's fields (R28). -/
structure ClaimMark where
  rank : Byte
  station : Byte
  hops : Byte
  deriving DecidableEq, Repr

/-- A break mark's fields. -/
structure BreakMark where
  station : Byte
  hops : Byte
  deriving DecidableEq, Repr

def ClaimMark.frame (m : ClaimMark) : List Byte := withCheck [2, m.rank, m.station, m.hops]
/-- A break mark's frame; its fourth byte is 0, whatever that byte was in the mark it repeats (R199; log 46). -/
def BreakMark.frame (m : BreakMark) : List Byte := withCheck [3, m.station, m.hops, 0]

def goodStation (b : Byte) : Bool := 1 ≤ b.toNat && b.toNat ≤ 16

/-- A claim mark that is not damaged (R199). -/
def readClaimMark (body : List Byte) : Option ClaimMark :=
  match body with
  | [r, s, h, a, b] =>
    if withCheck [2, r, s, h] = [2, r, s, h, a, b] && goodStation s && r.toNat ≤ 14 && h.toNat ≤ 15 then
      some { rank := r, station := s, hops := h }
    else none
  | _ => none

/-- A break mark that is not damaged; its fourth byte is not looked at (R199; log 46). -/
def readBreakMark (body : List Byte) : Option BreakMark :=
  match body with
  | [s, h, z, a, b] =>
    if withCheck [3, s, h, z] = [3, s, h, z, a, b] && goodStation s && h.toNat ≤ 15 then
      some { station := s, hops := h }
    else none
  | _ => none

end Sys2Proof.Machine
end

