-- ==== Sys2Proof/Machine/Shift.lean ====
section
/-! DEFINITION. The Shift Report Unit (10_shift_clock_and_shift_reports.md): floor clock, open shift, accumulators, closing,
collection and the report ring, and the meanings of its commands but READ REPORT. -/

namespace Sys2Proof.Machine

/-! ## Accumulators (R177, R182, R183) -/

/-- The saturated flag is set by an addition past the top (R182). -/
def Accumulators.mark (a : Accumulators) (past : Bool) : Accumulators := { a with saturated := a.saturated || past }

def Accumulators.onFeed (ch : Fin 2) (f : FeedCounts → FeedCounts) (a : Accumulators) : Accumulators :=
  { a with feed := vecModify a.feed ch f }

def Accumulators.onComp (c : Fin 4) (f : CompCounts → CompCounts) (a : Accumulators) : Accumulators :=
  { a with comps := vecModify a.comps c f }

/-- A contribution added to the open accumulators, each count saturating at the top of its width (R177, R182). -/
def Accumulators.add (a : Accumulators) : Contribution → Accumulators
  | .fuel ch mass heat =>
    (a.onFeed ch fun f => { f with mass := satAdd top32 f.mass mass, heat := satAdd top32 f.heat heat }).mark
      (a.feed[ch].mass + mass > top32 || a.feed[ch].heat + heat > top32)
  | .revolution ch =>
    (a.onFeed ch fun f => { f with revolutions := satAdd top32 f.revolutions 1 }).mark (a.feed[ch].revolutions + 1 > top32)
  | .runningSecond ch =>
    (a.onFeed ch fun f => { f with runningSeconds := satAdd top32 f.runningSeconds 1 }).mark
      (a.feed[ch].runningSeconds + 1 > top32)
  | .feedFault ch =>
    (a.onFeed ch fun f => { f with faults := satAdd top16 f.faults 1 }).mark (a.feed[ch].faults + 1 > top16)
  | .firingSecond =>
    { a with burner := { a.burner with firingSeconds := satAdd top32 a.burner.firingSeconds 1 } }.mark
      (a.burner.firingSeconds + 1 > top32)
  | .burnerStart =>
    { a with burner := { a.burner with starts := satAdd top16 a.burner.starts 1 } }.mark (a.burner.starts + 1 > top16)
  | .trip e =>
    { a with burner := { a.burner with
        trips := satAdd top16 a.burner.trips 1
        list := if a.burner.list.length < 8 then a.burner.list ++ [e] else a.burner.list } }.mark
      (a.burner.trips + 1 > top16)
  | .stroke c =>
    (a.onComp c fun f => { f with strokes := satAdd top32 f.strokes 1 }).mark (a.comps[c].strokes + 1 > top32)
  | .grateFault c =>
    (a.onComp c fun f => { f with faults := satAdd top16 f.faults 1 }).mark (a.comps[c].faults + 1 > top16)
  | .fanSecond => { a with fanSeconds := satAdd top32 a.fanSeconds 1 }.mark (a.fanSeconds + 1 > top32)
  | .raise => { a with alarm := { a.alarm with raises := satAdd top16 a.alarm.raises 1 } }.mark (a.alarm.raises + 1 > top16)
  | .activeLength n => { a with alarm := { a.alarm with peakActive := max a.alarm.peakActive n } }
  | .floodEpisode =>
    { a with alarm := { a.alarm with floods := satAdd top16 a.alarm.floods 1 } }.mark (a.alarm.floods + 1 > top16)
  | .noticeLost =>
    { a with alarm := { a.alarm with noticesLost := satAdd top16 a.alarm.noticesLost 1 } }.mark
      (a.alarm.noticesLost + 1 > top16)
  | .ackTooLate =>
    { a with alarm := { a.alarm with acksTooLate := satAdd top16 a.alarm.acksTooLate 1 } }.mark
      (a.alarm.acksTooLate + 1 > top16)
  | .trainMissed =>
    { a with loop := { a.loop with trainsMissed := satAdd top16 a.loop.trainsMissed 1 } }.mark
      (a.loop.trainsMissed + 1 > top16)
  | .claimRound =>
    { a with loop := { a.loop with claimRounds := satAdd top16 a.loop.claimRounds 1 } }.mark
      (a.loop.claimRounds + 1 > top16)

/-- A contribution taken by the unit: the accumulators, the run total of a mass (R183), the length most recently handed
(R177). -/
def Sru.take (c : Contribution) (r : Sru) : Sru :=
  { r with
    acc := r.acc.add c
    runTotals := match c with
      | .fuel ch mass _ => vecModify r.runTotals ch fun t => satAdd top32 t mass
      | _ => r.runTotals
    lastLength := match c with
      | .activeLength n => n
      | _ => r.lastLength }

/-! ## Reports (R178 to R181) -/

/-- The closing totals of a report: fuel heat and strokes summed, each within its 32 bits (R178 step 6; log 30). They are those of the report's
own sections, so a duty or a compartment that is not configured adds nothing to them (log 75). -/
def Report.closing (r : Report) : ClosingPart :=
  { shift := r.shift
    heat := BitVec.ofNat 32 (min top32 ((r.feed.map fun e => e.2.heat).sum))
    firing := BitVec.ofNat 32 (match r.burner with | some b => b.firingSeconds | none => 0)
    strokes := BitVec.ofNat 32 (min top32 (match r.cooler with | some c => (c.1.map fun e => e.2.strokes).sum | none => 0))
    trips := BitVec.ofNat 16 (match r.burner with | some b => b.trips | none => 0) }

/-- A report completed: every peer still OUTSTANDING is ABSENT with zero totals (R180). -/
def Report.completed (r : Report) : Report :=
  { r with
    complete := true
    floor := r.floor.map fun e => if e.mark = .outstanding then { e with mark := .absent } else e }

/-- The report that is COLLECTING: the newest, if it is not COMPLETE (R180, R181). -/
def Sru.collecting (r : Sru) : Option Report :=
  match r.ring.getLast? with
  | some rep => if rep.complete then none else some rep
  | none => none

/-- The newest report replaced. -/
def Sru.setNewest (rep : Report) (r : Sru) : Sru := { r with ring := r.ring.dropLast ++ [rep] }

/-- The COLLECTING report, if any, becomes COMPLETE, and REPORT COMPLETE is posted (R180). -/
def Station.completeReport (d : Station) : Station :=
  match d.sru.collecting with
  | some rep => (d.onSru fun r => r.setNewest rep.completed).post .reportComplete
  | none => d

/-- The report a close makes, before its state is settled (R178 steps 2 and 3). The cooler section lists the configured compartments (log
75). -/
def Station.newReport (d : Station) (cause : CloseCause) : Report :=
  let a := d.sru.acc
  { shift := d.sru.shift, startTime := a.startTime, endTime := d.sru.time, cause := cause, interrupted := a.interrupted,
    complete := false, saturated := a.saturated,
    feed := (List.finRange 2).filterMap fun i => if d.cfg.feeds[i].isSome then some (i, a.feed[i]) else none,
    burner := if d.burnerDuty then some a.burner else none,
    cooler := if d.coolerDuty then
        some ((List.finRange 4).filterMap (fun i => if d.cfg.comps[i].isSome then some (i, a.comps[i]) else none),
          a.fanSeconds)
      else none,
    alarm := a.alarm, loop := a.loop,
    floor := if cause = .interrupted then [] else d.lpc.live.map fun i =>
      { station := i, mark := .outstanding, heat := 0, firing := 0, strokes := 0, trips := 0 } }

/-- A report placed at the end of the ring; at 8 the oldest is removed first (R181). -/
def placeReport (ring : List Report) (rep : Report) : List Report := ring.drop (ring.length - 7) ++ [rep]

/-- The open shift number is set and published in the common part (R174). -/
def Station.openShift (n : Half) (d : Station) : Station :=
  (d.onSru fun r => { r with shift := n }).onStaging fun g => { g with openShift := some n }

/-- A close with a cause, opening a number (R178). -/
def Station.closeShift (cause : CloseCause) (n : Half) (d : Station) : Station :=
  let d := d.completeReport
  let raw := d.newReport cause
  let atOnce := raw.floor.isEmpty || d.lpc.state != .up
  let rep := if atOnce then raw.completed else raw
  let d := d.onSru fun r =>
    { r with ring := placeReport r.ring rep, acc := .opened r.time r.lastLength, unresolved := false, arrivals := 0 }
  let d := if atOnce then d.post .reportComplete else d
  (d.onStaging fun g => { g with closing := some rep.closing }).openShift n

/-- A provisional station takes its first number without a close (R174, R175). -/
def Station.adoptShift (n : Half) (d : Station) : Station :=
  (d.onSru fun r => { r with acc := { r.acc with startTime := r.time } }).openShift n

/-- The close cause on learning a number greater than the open one: INTERRUPTED while unresolved (R184), else BOUNDARY for
the next number and ADVANCE past it (R174, R175). -/
def Sru.learnCause (r : Sru) (n : Half) : CloseCause :=
  if r.unresolved then .interrupted else if n.toNat = r.shift.toNat + 1 then .boundary else .advance

/-- A head's floor time and shift number are taken (R174, R184). A close by the head keeps the refresh of the same arrival
from being examined (R179; log 28). A head without a shift number gives the time alone and leaves an unresolved shift (log 64). -/
def Station.takeHead (time : Word) (h : Half) (d : Station) : Station :=
  let d := d.onSru fun r => { r with time := time }
  if h = 0 then d
  else if d.sru.shift = 0 then d.adoptShift h
  else if h.toNat > d.sru.shift.toNat then
    (d.closeShift (d.sru.learnCause h) h).onSru fun r => { r with skipRefresh := true }
  else d.onSru fun r => { r with unresolved := false }

/-- The greatest open shift number among the images of the live set, 0 for none (R175). -/
def Station.greatestLive (d : Station) : Nat :=
  d.lpc.live.foldl (fun m i => max m (match d.lpc.floor[i].image with | some g => g.openShift.toNat | none => 0)) 0

/-- The convergence rule at a release (R175, R184). -/
def Station.converge (d : Station) : Station :=
  let m := d.greatestLive
  if d.sru.shift = 0 then d.adoptShift (BitVec.ofNat 16 (max m 1))
  else if m > d.sru.shift.toNat then d.closeShift (d.sru.learnCause (BitVec.ofNat 16 m)) (BitVec.ofNat 16 m)
  else d.onSru fun r => { r with unresolved := false }

/-- A crossing, handled by the state of the station (R173). -/
def Station.crossing (d : Station) : Station :=
  if d.sru.shift = 0 || d.sru.shift.toNat = 65535 then d
  else if d.lpc.state = .up then
    if d.lpc.origin then d.closeShift .boundary (d.sru.shift + 1) else d
  else d.closeShift .localClose (d.sru.shift + 1)

/-- The seconds up to a time whose seconds of day equal a boundary. -/
def boundaryCount (b t : Nat) : Nat := if t < b then 0 else (t - b) / Config.daySeconds + 1

/-- Some second after the old time and up to the new one stands at a shift boundary (R176). -/
def crossesBoundary (boundaries : List Nat) (old new : Nat) : Bool :=
  boundaries.any fun b => boundaryCount b old < boundaryCount b new

/-- A TIME SET handed to the unit: the clock is set, and a forward set over a boundary is one crossing (R176). -/
def Station.applyTimeSet (time : Word) (d : Station) : Station :=
  let old := d.sru.time
  let d := d.onSru fun r => { r with time := time }
  if time.toNat > old.toNat && crossesBoundary d.boundaries old.toNat time.toNat then d.crossing else d

/-- The floor section entry of a peer after one examined refresh (R179). -/
def PeerTotals.examine (shift : Half) (floor : Vector FloorEntry 16) (e : PeerTotals) : PeerTotals :=
  if e.mark ≠ .outstanding then e
  else match floor[e.station].image with
    | some g =>
      if g.closing.shift = shift then
        { e with mark := .collected, heat := g.closing.heat, firing := g.closing.firing,
                 strokes := g.closing.strokes, trips := g.closing.trips }
      else if g.closing.shift.toNat > shift.toNat then { e with mark := .absent }
      else e
    | none => e

/-- One examined refresh of a COLLECTING report (R179, R180). -/
def Station.examineReport (d : Station) : Station :=
  match d.sru.collecting with
  | none => d
  | some rep =>
    let rep := { rep with floor := rep.floor.map (PeerTotals.examine rep.shift d.lpc.floor) }
    let d := d.onSru fun r => { r.setNewest rep with arrivals := r.arrivals + 1 }
    if d.sru.arrivals ≥ 4 || rep.floor.all (fun e => e.mark != .outstanding) then d.completeReport else d

/-! ## Meanings -/

/-- SECOND_TIMER_EXPIRY (R172, R173): the clock advances; from START an advance onto a boundary is a crossing. -/
def execSecondTimerExpiry (s : State) : Host.Outcome State Fault Refusal :=
  act .secondTimerExpiry (fun d =>
    if d.sru.second.isNone then d
    else
      let d := d.onSru fun r => { r with time := r.time + 1, second := some (d.inSec 1) }
      if d.ppt.started && d.boundaries.contains (d.sru.time.toNat % Config.daySeconds) then d.crossing else d) s

/-- NOT_UP_SECOND_TIMER_EXPIRY (R177): one second not UP, and the timer starts again. -/
def execNotUpSecondTimerExpiry (s : State) : Host.Outcome State Fault Refusal :=
  act .notUpSecondTimerExpiry (fun d =>
    if d.sru.notUp.isNone then d
    else d.onSru fun r =>
      { r with
        acc := { r.acc with loop := { r.acc.loop with notUpSeconds := satAdd top32 r.acc.loop.notUpSeconds 1 } }.mark
          (r.acc.loop.notUpSeconds + 1 > top32)
        notUp := some (d.inSec 1) }) s

/-- SRU_CONTRIBUTION (R177, R182, R183): a count is added. -/
def execSruContribution (c : Contribution) (s : State) : Host.Outcome State Fault Refusal :=
  act (.sruContribution c) (fun d => d.onSru fun r => r.take c) s

/-- SRU_FLOOR_REFRESH (R179, R180): a COLLECTING report is examined in UP, but not at the refresh of the arrival whose head
closed the shift. -/
def execSruFloorRefresh (s : State) : Host.Outcome State Fault Refusal :=
  act .sruFloorRefresh (fun d =>
    let skip := d.sru.skipRefresh
    let d := d.onSru fun r => { r with skipRefresh := false }
    if d.lpc.state = .up && !skip then d.examineReport else d) s

/-- SRU_LEFT_UP (R177, R180): a COLLECTING report is completed and the not-UP second timer starts. -/
def execSruLeftUp (s : State) : Host.Outcome State Fault Refusal :=
  act .sruLeftUp (fun d => d.completeReport.onSru fun r => { r with notUp := some (d.inSec 1) }) s

/-- SRU_ENTERED_UP (R177): the not-UP second timer stops. -/
def execSruEnteredUp (s : State) : Host.Outcome State Fault Refusal :=
  act .sruEnteredUp (fun d => d.onSru fun r => { r with notUp := none }) s

end Sys2Proof.Machine
end

