-- ==== Sys2Proof/Machine/Loop.lean ====
section
/-! DEFINITION. The Loop Controller (01_the_floor_loop_trains_slots_and_the_floor_image.md, 02_loop_recovery_claim_and_break_search.md,
03_notices_and_seen_marks.md): train arrivals, slots, releases, departures, claims and break search, and the meanings of its
commands but the reads. -/

namespace Sys2Proof.Machine

/-! ## Loop states (R16, R24 to R27, R29, R36) -/

def Station.ownByte (d : Station) : Byte := stationByte d.own

/-- The station's config signature (R194). -/
def Station.ownSig (d : Station) : Half := d.ppt.sig.getD 0

/-- A loop state is entered: LOOP STATE is posted (R20). -/
def Station.loopState (st : LoopState) (d : Station) : Station :=
  (d.onLpc fun l => { l with state := st }).post .loopState

/-- The train watch starts (R16). -/
def Station.startWatch (d : Station) : Station :=
  d.onLpc fun l => { l with watch := some (d.inMs (d.loopCfg.watchMultiple * d.loopCfg.cycle)) }

/-- Loop grace expiry delivered (R25). -/
def Station.graceExpired (d : Station) : Station :=
  ((d.onLpc fun l => { l with grace := .expired }).raise .bsqLoopGraceExpiry).raise .fdcLoopGraceExpiry

/-- A departure from UP into a loop state (R24, R25). -/
def Station.departUp (st : LoopState) (d : Station) : Station :=
  let grace := d.loopCfg.grace
  let d := d.onLpc fun l =>
    { l with origin := false, watch := none, release := .idle, awaiting := false, prevWrite := false,
             loopLost := some d.sru.time, grace := .running (d.inSec grace) }
  let d := ((d.report .loopLost 0 true).raise .bsqLeftUp).raise .fdcLeftUp |>.raise .sruLeftUp
  (if grace = 0 then d.graceExpired else d).loopState st

/-- An entry to UP (R17, R27). -/
def Station.enterUp (d : Station) : Station :=
  let d := d.onLpc fun l => { l with claimSend := none, breakSend := none, claimLimit := none, grace := .idle }
  (((d.startWatch.report .loopLost 0 false).raise .fdcEnteredUp).raise .sruEnteredUp).loopState .up

/-- The own claim mark is sent, and the 1 ms send timer starts again (R29). -/
def Station.sendClaim (d : Station) : Station :=
  (d.send (ClaimMark.frame { rank := BitVec.ofNat 8 d.loopCfg.rank, station := d.ownByte, hops := 0 })).onLpc fun l =>
    { l with claimSend := some (d.now + Config.markTicks) }

/-- The own break mark is sent, and the 1 ms send timer starts again (R36). -/
def Station.sendBreak (d : Station) : Station :=
  (d.send (BreakMark.frame { station := d.ownByte, hops := 0 })).onLpc fun l =>
    { l with breakSend := some (d.now + Config.markTicks) }

/-- The claim limit starts (R33). -/
def Station.startClaimLimit (d : Station) : Station :=
  d.onLpc fun l => { l with claimLimit := some (d.inMs d.loopCfg.claimLimit), breakSend := none }

/-- Entry to DEFERRING from a state that is not CLAIMING (R32, R33). -/
def Station.defer (d : Station) : Station := d.startClaimLimit.loopState .deferring

/-- Entry to CLAIMING, or DEFERRING at rank 15, from a state that is neither (R16, R29). -/
def Station.enterClaim (d : Station) : Station :=
  if d.loopCfg.rank ≤ 14 then (d.startClaimLimit.loopState .claiming).sendClaim else d.defer

/-! ## Heads (R4) -/

/-- A head error is counted (R21). -/
def Station.headError (d : Station) : Station := d.onCounters fun c => { c with headErrors := c.headErrors.bump }

/-- CONFIG MISMATCH judged by a head's signature (R4). -/
def Station.judgeConfig (sig : Half) (d : Station) : Station :=
  let differs := sig != d.ownSig
  let before := d.condition .configMismatch 0
  let d := d.report .configMismatch 0 differs
  if differs && !before then d.post .configMismatch else d

/-- A good head taken (R4). -/
def Station.takeGoodHead (h : Head) (d : Station) : Station :=
  let d := d.onLpc fun l => { l with lastHead := some h }
  let d := if d.lpc.state = .joining || d.lpc.state = .up then d.startWatch else d
  let d := d.judgeConfig h.sig
  if d.lpc.state = .up && !d.lpc.origin then d.takeHead h.time h.shift else d

/-- A head taken, or a head error counted (R4). -/
def Station.headOrError (h : Option Head) (d : Station) : Station :=
  match h with
  | some h => d.takeGoodHead h
  | none => d.headError

/-! ## Peer slots and notices (R6, R7, R51 to R53) -/

/-- A position that is not fresh: the age rises, and an entry that is NEVER SEEN stays at 255 (R7). -/
def FloorEntry.older (e : FloorEntry) : FloorEntry := if e.seen then { e with age := min 255 (e.age + 1) } else e

/-- A passing image is fresh against an entry (R7). -/
def FloorEntry.freshFor (g : Image) (e : FloorEntry) : Bool := !e.seen || g.seq != e.seq

/-- An entry after a passing image (R7). -/
def FloorEntry.take (g : Image) (e : FloorEntry) : FloorEntry :=
  if e.freshFor g then { image := some g, seq := g.seq, age := 0, seen := true } else e.older

/-- A new record of a fresh slot handed to the block its kind names (R53). -/
def Station.applyNotice (sender : Fin 16) (b : NoticeBody) (d : Station) : Station :=
  match b with
  | .alarmState a => d.applyAlarm sender a
  | .ackRequest t p o => if t = d.ownByte then d.applyAck p o else d
  | .timeSet t => if d.lpc.origin then d.applyTimeSet t else d

/-- The records of a passing slot taken: each new one of a fresh slot is applied, and the taken list replaced (R51, R52). -/
def Station.takeNotices (i : Fin 16) (g : Image) (fresh wasLive : Bool) (d : Station) : Station :=
  let known := if fresh && !wasLive then [] else d.lpc.taken[i]
  let d := g.notices.foldl
    (fun d n => if fresh && !known.contains n.seq then d.applyNotice i n.body else d) d
  d.onLpc fun l => { l with taken := vecModify l.taken i fun _ => g.notices.map (·.seq) }

/-- The slot with the own seen mark set in each record, its check code recomputed where that changed a mark (R51). -/
def markSlot (own : Fin 16) (g : Image) (raw : List Byte) : List Byte :=
  if g.notices.all fun n => n.mask &&& markOf own != 0 then raw
  else slotBytes { g with notices := g.notices.map fun n => { n with mask := n.mask ||| markOf own } }

/-- A slot error is counted (R6). -/
def Station.slotError (d : Station) : Station := d.onCounters fun c => { c with slotErrors := c.slotErrors.bump }

def Station.onEntry (i : Fin 16) (f : FloorEntry → FloorEntry) (d : Station) : Station :=
  d.onLpc fun l => { l with floor := vecModify l.floor i f }

/-- One peer slot position taken, with or without its notices; the slot as it goes on (R6, R7, R51). -/
def Station.takeSlot (notices : Bool) (i : Fin 16) (raw : List Byte) (d : Station) : Station × List Byte :=
  match viewSlot i raw with
  | .empty => (d.onEntry i FloorEntry.older, raw)
  | .fail => ((d.onEntry i FloorEntry.older).slotError, raw)
  | .pass g =>
    let e := d.lpc.floor[i]
    let d := d.onEntry i (FloorEntry.take g)
    if notices then (d.takeNotices i g (e.freshFor g) (e.age < 3), markSlot d.own g raw) else (d, raw)

/-- One slot position taken in its turn: a peer's as takeSlot says, the own one left alone. -/
def Station.takePosition (notices : Bool) (i : Fin 16) (raw : List Byte) (d : Station) : Station × List Byte :=
  if i = d.own then (d, raw) else d.takeSlot notices i raw

/-- Slot positions taken in order; the positions as they go on. -/
def Station.takePositions (notices : Bool) (slots : List (List Byte)) :
    List (Fin 16) → Station → Station × List (List Byte)
  | [], d => (d, [])
  | i :: rest, d =>
    let q := d.takePosition notices i (slots.getD i.val [])
    let r := Station.takePositions notices slots rest q.1
    (r.1, q.2 :: r.2)

/-- The peer slot positions taken in slot order, and the live set recomputed (R9, R10 steps 2 and 3). -/
def Station.takeSlots (notices : Bool) (slots : List (List Byte)) (d : Station) : Station × List (List Byte) :=
  let r := Station.takePositions notices slots (List.finRange 16) d
  (r.1.onLpc fun l => { l with live := liveOf r.1.own l.floor }, r.2)

/-- The own slot position where it passes; a failed one counts a slot error (R6). -/
def Station.checkOwn (slots : List (List Byte)) (d : Station) : Station × Option Image :=
  match viewSlot d.own (slots.getD d.own.val []) with
  | .pass g => (d, some g)
  | .fail => (d.slotError, none)
  | .empty => (d, none)

/-- Floor image refreshed, signalled to the five jobs (R10 step 7). -/
def Station.signalRefresh (d : Station) : Station :=
  ((((d.raise .bsqFloorRefresh).raise .fdcFloorRefresh).raise .gccFloorRefresh).raise .almFloorRefresh).raise
    .sruFloorRefresh

/-! ## The own slot (R11, R12, R18, R46 to R49) -/

/-- The common part, duty parts, summary and closing part copied from the staging record, with the notices (R11). -/
def Staging.image (g : Staging) (station seq : Byte) (notices : List Notice) : Image :=
  let trip := match g.alarm with
    | some a => a.trip
    | none => none
  { station := station, seq := seq
    sig := match g.panel with | some p => p.sig | none => 0
    epoch := match g.alarm with | some a => a.epoch | none => 0
    panelPresent := match g.panel with | some p => p.present | none => false
    tripRequest := trip.isSome
    firstPoint := match trip with
      | some t => (match t.point with | some p => BitVec.ofNat 8 p.val | none => 255)
      | none => 255
    firstKind := trip.map (·.kind)
    openShift := g.openShift.getD 0
    burner := g.burner, feed := g.feed, cooler := g.cooler
    summary := g.summary.getD { unacked := 0, highest := .none, flood := 0 }
    closing := g.closing.getD { shift := 0, heat := 0, firing := 0, strokes := 0, trips := 0 }
    notices := notices }

/-- The own slot written: in-flight notices are placed and the image becomes the publish copy (R11, R45). -/
def Station.writeOwn (d : Station) : Station × List Byte :=
  let d := d.onLpc Lpc.placed
  let g := d.lpc.staging.image d.ownByte (d.lpc.floor[d.own].seq + 1) (d.lpc.inFlight.map (QueueEntry.record d.own))
  let d := (d.onEntry d.own fun _ => { image := some g, seq := g.seq, age := 0, seen := true }).onLpc fun l =>
    { l with prevWrite := true }
  (d, slotBytes g)

/-- The returning own slot differs from the publish copy (R18). -/
def Station.isDuplicate (g : Image) (d : Station) : Bool :=
  let e := d.lpc.floor[d.own]
  g.seq != e.seq || (match e.image with | some p => g.sig != p.sig | none => false)

/-- A notice is lost (R49). -/
def Station.loseNotice (b : NoticeBody) (d : Station) : Station :=
  let d := d.onCounters fun c => { c with noticesLost := c.noticesLost.bump }
  let d := (d.almNoticeLost b).report .noticeLoss 0 true
  d.onLpc fun l => { l with lossHold := some (d.now + Config.noticeLossTicks) }

/-- The notices in flight judged at a return, with the records that came back (R46, R47). -/
def Station.judgeReturn (records : List Notice) (d : Station) : Station :=
  let full := d.lpc.queue.length ≥ 16
  let losses := d.lpc.losses records
  let d := d.onLpc (Lpc.judged records)
  let freed := full && d.lpc.queue.length < 16
  let d := losses.foldl (fun d b => d.loseNotice b) d
  if freed then d.raise .almPlaceFree else d

/-- DUPLICATE STATION found: the station leaves UP for LISTEN ONLY (R18). -/
def Station.foundDuplicate (d : Station) : Station := (d.departUp .listenOnly).report .duplicateStation 0 true

/-- Step 4 of R10: the own slot checked, compared and judged; true when a duplicate was found (R18, R46). -/
def Station.judgeOwn (slots : List (List Byte)) (d : Station) : Station × Bool :=
  let r := d.checkOwn slots
  if !r.1.lpc.prevWrite then (r.1, false)
  else match r.2 with
    | some g => if r.1.isDuplicate g then (r.1.foundDuplicate, true) else (r.1.judgeReturn g.notices, false)
    | none => (r.1.judgeReturn [], false)

/-! ## Release (R14, R15, R175) -/

/-- The head of a new train (R15). -/
def Station.newHead (d : Station) : Head :=
  { origin := d.ownByte
    seq := match d.lpc.lastHead with | some h => h.seq + 1 | none => 0
    time := d.sru.time, shift := d.sru.shift, size := BitVec.ofNat 8 d.lpc.loopSize, sig := d.ownSig }

/-- A train is released: convergence, head, the returned peer slots, the own slot; a TIME SET placed for the first time is
applied once the head is built (R15, R45, R175; log 38). A position that the returned train did not reach sends no byte (log 11). -/
def Station.release (d : Station) : Station :=
  let d := d.converge
  let h := d.newHead
  let times := d.lpc.firstTimeSets
  let r := d.writeOwn
  let slots := (List.finRange 16).map fun i => if i = r.1.own then r.2 else r.1.lpc.returned.getD i.val [0]
  let d := (r.1.onLpc fun l =>
    { l with lastHead := some h, release := .running (r.1.inMs r.1.loopCfg.cycle), awaiting := true }).send
    (h.bytes ++ slots.flatten)
  times.foldl (fun d t => d.applyTimeSet t) d

/-! ## Arrivals (R5, R10, R13, R17, R19, R35) -/

/-- An arrival in UP at a station that is not origin (R10). Where it shows a duplicate, the train goes on as it arrived, without the
seen marks of step 2 (R18; log 45). Of a train cut short, a position not reached sends no byte, so the own slot follows the last
position that is there (log 11). -/
def Station.arriveMember (t : Train) (d : Station) : Station :=
  let d := d.headOrError t.head
  let r := d.takeSlots true t.slots
  let q := r.1.judgeOwn t.slots
  if q.2 then (q.1.send (t.frame t.slots)).signalRefresh
  else
    let w := q.1.writeOwn
    (w.1.send (t.frame (r.2.set w.1.own.val w.2))).signalRefresh

/-- The return of the origin's train (R13, R14). -/
def Station.arriveReturn (t : Train) (d : Station) : Station :=
  let d := d.headOrError t.head
  let r := d.takeSlots true t.slots
  let q := r.1.judgeOwn t.slots
  if q.2 then q.1.signalRefresh
  else
    let late := q.1.lpc.release == .expired
    let d := (q.1.onLpc fun l => { l with returned := r.2, awaiting := false }).signalRefresh
    if late then (d.onCounters fun c => { c with lateRotations := c.lateRotations.bump }).release else d

/-- The origin yields to one with a lower number (R5). -/
def Station.yieldOrigin (d : Station) : Station :=
  (d.onLpc fun l => { l with origin := false, release := .idle, awaiting := false, prevWrite := false }).post .loopState

/-- A train arrival in UP (R5, R10, R13). -/
def Station.arriveUp (t : Train) (d : Station) : Station :=
  match t.head with
  | none => if d.lpc.origin then d.arriveReturn t else d.arriveMember t
  | some h =>
    if d.lpc.origin then
      if h.origin = d.ownByte then d.arriveReturn t
      else if h.origin.toNat < d.ownByte.toNat then d.yieldOrigin.arriveMember t
      else d.headError
    else if h.origin = d.ownByte then d.headError.onLpc fun l => { l with prevWrite := false }
    else d.arriveMember t

/-- An arrival of which only the table is updated: head, slots without notices, own position, refresh; repeated unchanged
once BYPASS is released (R10, R17, R19, R35). -/
def Station.arriveListening (t : Train) (d : Station) : Station :=
  let d := d.headOrError t.head
  let r := d.takeSlots false t.slots
  let d := (r.1.checkOwn t.slots).1
  (if d.lpc.bypass then d else d.send (t.frame t.slots)).signalRefresh

/-- A train arrival in JOINING (R17). The entry to UP restarts the watch even where the train is then absorbed (log 13). -/
def Station.arriveJoining (t : Train) (d : Station) : Station :=
  match t.head with
  | none => d.arriveListening t
  | some _ =>
    if d.lpc.bypass then (d.arriveListening t).onLpc fun l => { l with bypass := false }
    else d.enterUp.arriveUp t

/-- A train arrival in CLAIMING, DEFERRING or BREAK SEARCH (R35). The slots of an own old train are not looked at, so they count no
slot error (log 53). -/
def Station.arriveRecovery (t : Train) (d : Station) : Station :=
  match t.head with
  | none => d.arriveListening t
  | some h => if h.origin = d.ownByte then d.headError else d.enterUp.arriveUp t

/-- A train arrival is handled by the loop state (R1). -/
def Station.arrive (t : Train) (d : Station) : Station :=
  if d.lpc.state = .bypassed then d
  else
    let d := d.onCounters fun c => { c with trainsSeen := c.trainsSeen.bump }
    match d.lpc.state with
    | .bypassed => d
    | .joining => d.arriveJoining t
    | .up => d.arriveUp t
    | .listenOnly => d.arriveListening t
    | .claiming | .deferring | .breakSearch => d.arriveRecovery t

/-! ## Marks (R28 to R38) -/

/-- A bid's place in the order of bids: rank, then station number (R28). -/
def ClaimMark.better (rank : Nat) (station : Byte) (m : ClaimMark) : Bool :=
  m.rank.toNat < rank || (m.rank.toNat == rank && m.station.toNat < station.toNat)

/-- The own mark: the own number and the own rank (R28). -/
def Station.isOwnClaim (m : ClaimMark) (d : Station) : Bool :=
  m.station == d.ownByte && m.rank.toNat == d.loopCfg.rank

/-- A claim mark repeated with its hop count one higher, but not at hop count 15 (R34). -/
def Station.repeatClaim (m : ClaimMark) (d : Station) : Station :=
  if m.hops.toNat ≥ 15 then d else d.send (ClaimMark.frame { m with hops := m.hops + 1 })

/-- A break mark repeated with its hop count one higher, but not at hop count 15 (R34). -/
def Station.repeatBreak (m : BreakMark) (d : Station) : Station :=
  if m.hops.toNat ≥ 15 then d else d.send (BreakMark.frame { m with hops := m.hops + 1 })

/-- The claim is won (R31). -/
def Station.winClaim (m : ClaimMark) (d : Station) : Station :=
  let d := (d.onCounters fun c => { c with claimRounds := c.claimRounds.bump }).contribute .claimRound
  let d := d.enterUp.onLpc fun l => { l with origin := true, loopSize := m.hops.toNat + 1, returned := emptySlots }
  d.release

/-- A claim mark that arrives with BYPASS released (R30, R32, R34, R37, R38). -/
def Station.arriveClaim (m : ClaimMark) (d : Station) : Station :=
  let own := d.isOwnClaim m
  let better := m.better d.loopCfg.rank d.ownByte
  match d.lpc.state with
  | .claiming =>
    if own then d.winClaim m
    else if better then ((d.onLpc fun l => { l with claimSend := none }).repeatClaim m).loopState .deferring
    else d
  | .breakSearch =>
    if own then d.enterClaim
    else if d.loopCfg.rank = 15 || better then (d.repeatClaim m).defer
    else d.enterClaim
  | _ => if own then d else d.repeatClaim m

/-- A break mark that arrives with BYPASS released (R34, R37, R39). -/
def Station.arriveBreak (m : BreakMark) (d : Station) : Station :=
  let own := m.station == d.ownByte
  match d.lpc.state with
  | .breakSearch =>
    if own then d.enterClaim
    else (d.repeatBreak m).onLpc fun l =>
      { l with breakSend := none, breakReport := some { station := m.station, hops := m.hops.toNat + 1 } }
  | _ => if own then d else d.repeatBreak m

/-! ## The start (R17, R26) -/

/-- The Loop Controller at the accepted START (R17, R26). -/
def Station.startLoop (d : Station) : Station := (d.startWatch.report .loopLost 0 true).loopState .joining

/-! ## Meanings -/

/-- TRAIN_ARRIVAL (R10, R13, R17, R19, R35): the bytes after the frame type byte are a train. -/
def execTrainArrival (body : List Byte) (s : State) : Host.Outcome State Fault Refusal :=
  act (.trainArrival body) (Station.arrive (readTrain body)) s

/-- FRAME_OF_UNKNOWN_TYPE (R199): discarded, one head error. -/
def execFrameOfUnknownType (frameType : Byte) (s : State) : Host.Outcome State Fault Refusal :=
  act (.frameOfUnknownType frameType) Station.headError s

/-- CLAIM_MARK_ARRIVAL (R28, R30): a damaged mark is discarded; with BYPASS asserted the relay carries marks past. -/
def execClaimMarkArrival (body : List Byte) (s : State) : Host.Outcome State Fault Refusal :=
  act (.claimMarkArrival body) (fun d =>
    match readClaimMark body with
    | none => d
    | some m => if d.lpc.bypass then d else d.arriveClaim m) s

/-- BREAK_MARK_ARRIVAL (R34, R37). -/
def execBreakMarkArrival (body : List Byte) (s : State) : Host.Outcome State Fault Refusal :=
  act (.breakMarkArrival body) (fun d =>
    match readBreakMark body with
    | none => d
    | some m => if d.lpc.bypass then d else d.arriveBreak m) s

/-- CLAIM_MARK_SEND (R29): one more own claim mark while in CLAIMING. -/
def execClaimMarkSend (s : State) : Host.Outcome State Fault Refusal :=
  act .claimMarkSend (fun d =>
    if d.lpc.state = .claiming && d.lpc.claimSend.isSome then d.sendClaim else d) s

/-- BREAK_MARK_SEND (R36): one more own break mark while sending in BREAK SEARCH. -/
def execBreakMarkSend (s : State) : Host.Outcome State Fault Refusal :=
  act .breakMarkSend (fun d =>
    if d.lpc.state = .breakSearch && d.lpc.breakSend.isSome then d.sendBreak else d) s

/-- TRAIN_WATCH_EXPIRY (R16): a train missed; UP or JOINING is left for CLAIMING or DEFERRING. -/
def execTrainWatchExpiry (s : State) : Host.Outcome State Fault Refusal :=
  act .trainWatchExpiry (fun d =>
    if d.lpc.watch.isNone then d
    else
      let d := ((d.onLpc fun l => { l with watch := none }).onCounters fun c =>
        { c with trainsMissed := c.trainsMissed.bump }).contribute .trainMissed
      match d.lpc.state with
      | .up => (d.departUp .up).enterClaim
      | .joining => (d.onLpc fun l => { l with bypass := false }).enterClaim
      | _ => d) s

/-- RELEASE_TIMER_EXPIRY (R14): a new train if the last one has returned, else a late rotation is awaited. -/
def execReleaseTimerExpiry (s : State) : Host.Outcome State Fault Refusal :=
  act .releaseTimerExpiry (fun d =>
    match d.lpc.release with
    | .running _ =>
      if d.lpc.awaiting then d.onLpc fun l => { l with release := .expired } else d.release
    | _ => d) s

/-- CLAIM_LIMIT_EXPIRY (R33, R36): entry to BREAK SEARCH. -/
def execClaimLimitExpiry (s : State) : Host.Outcome State Fault Refusal :=
  act .claimLimitExpiry (fun d =>
    if d.lpc.claimLimit.isSome && (d.lpc.state = .claiming || d.lpc.state = .deferring) then
      let d := (d.onLpc fun l => { l with claimLimit := none, claimSend := none, breakReport := none }).onCounters fun c =>
        { c with breakEntries := c.breakEntries.bump }
      (d.loopState .breakSearch).sendBreak
    else d) s

/-- LOOP_GRACE_EXPIRY (R25): a running grace goes to EXPIRED and is delivered. -/
def execLoopGraceExpiry (s : State) : Host.Outcome State Fault Refusal :=
  act .loopGraceExpiry (fun d =>
    match d.lpc.grace with
    | .running _ => d.graceExpired
    | _ => d) s

/-- NOTICE_LOSS_HOLD_EXPIRY (R49): NOTICE LOSS is absent. -/
def execNoticeLossHoldExpiry (s : State) : Host.Outcome State Fault Refusal :=
  act .noticeLossHoldExpiry (fun d =>
    if d.lpc.lossHold.isNone then d
    else (d.onLpc fun l => { l with lossHold := none }).report .noticeLoss 0 false) s

end Sys2Proof.Machine
end

