-- ==== Sys2Proof/Machine/Operands.lean ====
section
/-! DEFINITION. The operand forms of the panel requests: the fields of each configuration section (11_panel_port, Tables 4-1 to
9-1) and the request bodies (Table 12-6), read from bytes. -/

namespace Sys2Proof.Machine

/-! ## Fields of a section (R191, R201) -/

/-- A field: its width in bytes and the values within its range. -/
structure Field where
  width : Nat
  ok : Nat → Bool

/-- A field whose range is a span. -/
def span (width lo hi : Nat) : Field := { width := width, ok := fun v => decide (lo ≤ v) && decide (v ≤ hi) }

/-- An enumerated field of codes 0 to n - 1. -/
def choice (n : Nat) : Field := span 1 0 (n - 1)

/-- A yes-or-no field. -/
def yesNo : Field := choice 2

/-- A number most significant byte first. -/
def beNat (l : List Byte) : Nat := l.foldl (fun n b => n * 256 + b.toNat) 0

/-- The values of fields read in order; none when the bytes do not have the fields' whole length. -/
def readFields : List Field → List Byte → Option (List Nat)
  | [], [] => some []
  | [], _ :: _ => none
  | f :: fs, l =>
    if l.length < f.width then none
    else (readFields fs (l.drop f.width)).map fun vs => beNat (l.take f.width) :: vs

/-- The number of the first field out of its range, counted from a number (R191, R201). -/
def firstBad : Nat → List Field → List Nat → Option Nat
  | n, f :: fs, v :: vs => if f.ok v then firstBad (n + 1) fs vs else some n
  | _, _, _ => none

/-! ## Enumerations, coded from 0 in the order they are first listed (R201; log 22) -/

def channelFnOf : Nat → ChannelFn
  | 0 => .flameScanner
  | 1 => .pressure
  | 2 => .weigher
  | 3 => .encoder
  | _ => .unassigned
def pulseModeOf : Nat → PulseMode
  | 0 => .period
  | 1 => .countWindow
  | _ => .quadrature
def filterOf : Nat → Filter
  | 0 => .off
  | 1 => .us4
  | 2 => .us16
  | _ => .us64
def timebaseOf : Nat → Timebase
  | 0 => .us1
  | 1 => .us8
  | 2 => .us64
  | _ => .us512
def lineFnOf : Nat → LineFn
  | 0 => .airFlowProven
  | 1 => .idFanRunning
  | 2 => .estop
  | 3 => .endForward
  | 4 => .endReturn
  | 5 => .index
  | 6 => .general
  | _ => .unused
def outKindOf : Nat → OutKind
  | 0 => .reference
  | 1 => .valve
  | 2 => .igniter
  | 3 => .strokeForward
  | 4 => .strokeReturn
  | _ => .unused
def outFnOf : Nat → OutFn
  | 0 => .feeder
  | 1 => .fan
  | 2 => .pilotValve
  | 3 => .mainFuelRelease
  | 4 => .igniter
  | _ => .compartment
def letterOfNat : Nat → BurnerLetter
  | 1 => .a
  | _ => .b
def openFractionOf : Nat → Nat
  | 0 => 50
  | 1 => 75
  | _ => 100
def classOfNat : Nat → AlarmClass
  | 1 => .low
  | 2 => .high
  | _ => .trip
def condOfNat (n : Nat) : CondKind :=
  match kindOf (BitVec.ofNat 8 n) with
  | some (some k) => k
  | _ => .flameFail

/-! ## Instance ranges by function (Tables 4-1, 4-6, 5-1; log 23): the byte is the instance number itself -/

/-- A channel's instance is one of its function's (Table 4-1; log 23). -/
def channelInstOk (fn inst : Nat) : Bool :=
  match channelFnOf fn with
  | .flameScanner => inst == 1 || inst == 2
  | .pressure => 1 ≤ inst && inst ≤ 4
  | .weigher => inst == 1 || inst == 2
  | .encoder => inst == 1 || inst == 2
  | .unassigned => true

/-- A line's instance is one of its function's (Table 4-6; log 23). A GENERAL line's instance is its line number whatever its byte says, and
any byte passes (log 23, log 49). -/
def lineInstOk (fn inst : Nat) : Bool :=
  match lineFnOf fn with
  | .endForward => 1 ≤ inst && inst ≤ 4
  | .endReturn => 1 ≤ inst && inst ≤ 4
  | .index => inst == 0 || inst == 2 || inst == 4 || inst == 6
  | _ => true

/-- An output line's instance is one of its function's (Table 5-1; log 23). -/
def outInstOk (fn inst : Nat) : Bool :=
  match outFnOf fn with
  | .feeder => inst == 1 || inst == 2
  | .fan => 1 ≤ inst && inst ≤ 4
  | .compartment => 1 ≤ inst && inst ≤ 4
  | _ => true

/-! ## Sections (Table 11-2) -/

/-- The section kinds, codes 1 to 12 (Table 12-8). -/
inductive SectionKind where
  | station | loop | shift | service | flood | inputChannel | inputLine | outputLine | burner | feedChannel
  | compartment | alarmPoint
  deriving DecidableEq, Repr

def SectionKind.code (k : SectionKind) : Byte := BitVec.ofNat 8 (k.ctorIdx + 1)

def sectionKindOf (b : Byte) : Option SectionKind :=
  if b = 0 then none
  else [SectionKind.station, .loop, .shift, .service, .flood, .inputChannel, .inputLine, .outputLine, .burner,
    .feedChannel, .compartment, .alarmPoint][b.toNat - 1]?

/-- The instance numbers of a kind (Table 11-2, R201). -/
def SectionKind.instanceOk (k : SectionKind) (inst : Nat) : Bool :=
  match k with
  | .inputChannel => inst < 8
  | .inputLine => inst < 12
  | .outputLine => inst < 16
  | .feedChannel => 1 ≤ inst && inst ≤ 2
  | .compartment => 1 ≤ inst && inst ≤ 4
  | .alarmPoint => inst < 32
  | _ => inst == 0

/-- The fields of a section in record order; a range that depends on an earlier field takes it from the values read. Of the two parameters
whose table names another field as a bound, START judges that relation, and the own range here is the model's: the light-off demand 1 to
400,000 kW, the base rate 20 to 300 (R191; log 23). -/
def SectionKind.fields (k : SectionKind) (vs : List Nat) : List Field :=
  let v := fun n => vs.getD n 0
  match k with
  | .station => [span 1 1 16]
  | .loop => [span 1 10 100, span 1 3 10, span 1 0 15, span 2 20 500, span 1 0 30]
  | .shift =>
    [span 1 1 4, span 4 0 86399] ++ [2, 3, 4].map fun n =>
      { width := 4, ok := fun b => if n ≤ v 0 then decide (v (n - 1) < b) && decide (b ≤ 86399) else b == 0 }
  | .service => [span 1 1 16, choice 3]
  | .flood => [span 1 4 32, span 1 0 31]
  | .inputChannel =>
    [choice 5, { width := 1, ok := channelInstOk (v 0) }, choice 3, choice 2, choice 4, choice 4, span 1 1 255, choice 2]
  | .inputLine => [choice 8, { width := 1, ok := lineInstOk (v 0) }, choice 2, span 1 0 100]
  | .outputLine =>
    [choice 6, choice 6, { width := 1, ok := outInstOk (v 1) }, span 2 100 10000, choice 2, span 2 10 1000, span 1 1 100,
     span 1 1 100]
  | .burner =>
    [span 1 1 2, span 4 5000 125000, span 4 5000 125000, span 1 2 8, span 1 1 4, span 2 30 600, span 1 5 15, span 1 1 15,
     span 1 5 30, span 4 1 400000, span 4 100 400000, span 2 1 10000, yesNo, span 2 0 600, span 1 1 50, span 2 5 600]
  | .feedChannel =>
    [span 1 1 2, span 1 0 100, span 2 5000 35000, span 2 1 60000, span 2 1 4080, span 4 1 100000, span 2 1 60000,
     span 2 1 1000, { width := 2, ok := fun n => n == 0 || (decide (10 ≤ n) && decide (n ≤ 60000)) }]
  | .compartment =>
    [span 2 20 300, span 2 20 300, span 2 20 300, span 2 0 30000, span 2 0 1000, span 2 0 20000, span 2 1 1000,
     span 2 100 30000, span 2 0 10000, span 2 100 30000, span 2 1 65535]
  | .alarmPoint => [span 1 1 21, span 1 0 255, span 1 1 3, yesNo, span 1 0 60, span 1 0 60, span 2 0 30000]

/-- A section's length in bytes (R201). -/
def SectionKind.length (k : SectionKind) : Nat := ((k.fields []).map Field.width).sum

/-- A vector with one place set, where the place exists. -/
def setAt {α : Type} {n : Nat} (v : Vector (Option α) n) (i : Nat) (x : α) : Vector (Option α) n :=
  if h : i < n then v.set i (some x) h else v

/-! The settings of a section from its values in record order. -/

def loopOf (v : Nat → Nat) : LoopCfg :=
  { cycle := v 0, watchMultiple := v 1, rank := v 2, claimLimit := v 3, grace := v 4 }
def serviceOf (v : Nat → Nat) : ServiceCfg := { period := v 0, openFraction := openFractionOf (v 1) }
def floodOf (v : Nat → Nat) : FloodCfg := { high := v 0, low := v 1 }
def channelOf (v : Nat → Nat) : ChannelCfg :=
  { fn := channelFnOf (v 0), inst := v 1, mode := pulseModeOf (v 2), falling := v 3 == 1, filter := filterOf (v 4),
    tb := timebaseOf (v 5), count := v 6, swapped := v 7 == 1 }
def lineOf (v : Nat → Nat) : LineCfg := { fn := lineFnOf (v 0), inst := v 1, activeLow := v 2 == 1, debounce := v 3 }
def outputOf (v : Nat → Nat) : OutCfg :=
  { kind := outKindOf (v 0), fn := outFnOf (v 1), inst := v 2, carrier := v 3, inverted := v 4 == 1, interval := v 5,
    pulseWidth := v 6, spacing := v 7 }
def burnerOf (v : Nat → Nat) : BurnerCfg :=
  { letter := letterOfNat (v 0), bandMin := v 1, bandMax := v 2, proofCount := v 3, failResponse := v 4,
    purgeTime := v 5, pilotLimit := v 6, ignitionTime := v 7, mainLimit := v 8, lightOff := v 9, maxDemand := v 10,
    rampRate := v 11, coolerRequired := v 12 == 1, coolerLossTime := v 13, tolerance := v 14, shortfallDelay := v 15 }
def feedSectionOf (v : Nat → Nat) : FeedCfg :=
  { letter := letterOfNat (v 0), weight := v 1, cv := v 2, maxRate := v 3, maxFine := v 4, ratePerFine := v 5,
    rampRate := v 6, pulseWeight := v 7, stall := v 8 }
def compartmentOf (v : Nat → Nat) : CompCfg :=
  { minRate := v 0, maxRate := v 1, baseRate := v 2, target := v 3, gain := v 4, f0 := v 5, scale := v 6,
    forwardLimit := v 7, dwell := v 8, returnLimit := v 9, capacity := v 10 }
def alarmPointOf (v : Nat → Nat) : PointCfg :=
  { kind := condOfNat (v 0), inst := v 1, cls := classOfNat (v 2), latched := v 3 == 1, onDelay := v 4, offDelay := v 5,
    threshold := v 6 }

/-- A whole section stored in the configuration record from its values (R191). -/
def SectionKind.store (k : SectionKind) (inst : Nat) (vs : List Nat) (r : ConfigRecord) : ConfigRecord :=
  let v := fun n => vs.getD n 0
  match k with
  | .station => { r with station := some (v 0) }
  | .loop => { r with loop := some (loopOf v) }
  | .shift => { r with shift := some ((vs.drop 1).take (v 0)) }
  | .service => { r with service := some (serviceOf v) }
  | .flood => { r with flood := some (floodOf v) }
  | .inputChannel => { r with channels := setAt r.channels inst (channelOf v) }
  | .inputLine => { r with lines := setAt r.lines inst (lineOf v) }
  | .outputLine => { r with outputs := setAt r.outputs inst (outputOf v) }
  | .burner => { r with burner := some (burnerOf v) }
  | .feedChannel => { r with feeds := setAt r.feeds (inst - 1) (feedSectionOf v) }
  | .compartment => { r with comps := setAt r.comps (inst - 1) (compartmentOf v) }
  | .alarmPoint => { r with points := setAt r.points inst (alarmPointOf v) }

/-! ## Requests (Table 12-6, Table 12-8; R200) -/

/-- A CONFIGURE body: its length is the named section's, where it names one (R200). -/
def configureOf (body : List Byte) : Option Instr :=
  match body with
  | k :: i :: fields =>
    match sectionKindOf k with
    | some s => if fields.length = s.length then some (.configure k i fields) else none
    | none => some (.configure k i fields)
  | _ => none

/-- Requests without a body, by kind code (Table 12-8). -/
def bareRequest (kind : Nat) : Option Instr :=
  match kind with
  | 2 => some .start
  | 3 => some .service
  | 4 => some .readEvents
  | 5 => some .readResetCause
  | 7 => some .burnerStart
  | 8 => some .burnerStop
  | 9 => some .lockoutReset
  | 28 => some .readCounters
  | 29 => some .readBreak
  | _ => none

/-- Requests with a body of one byte. -/
def byteRequest (kind : Nat) (a : Byte) : Option Instr :=
  match kind with
  | 6 => some (.readStatus a)
  | 11 => some (.feedEnable a)
  | 12 => some (.feedDisable a)
  | 13 => some (.feedClearFault a)
  | 15 => some (.coolerEnable a)
  | 16 => some (.coolerDisable a)
  | 18 => some (.grateClearFault a)
  | 22 => some (.unshelve a)
  | 23 => some (.readAlarms a)
  | 24 => some (.readMirror a)
  | 27 => some (.readFloor a)
  | 30 => some (.readInput a)
  | 31 => some (.readOutput a)
  | _ => none

/-- Requests with a body of three bytes. -/
def tripleRequest (kind : Nat) (a b c : Byte) : Option Instr :=
  match kind with
  | 14 => some (.calorificUpdate a (be16 b c))
  | 17 => some (.setStrokeBase a (be16 b c))
  | 19 => some (.setFan a (be16 b c))
  | 20 => some (.ackAlarm a b c)
  | 21 => some (.shelve a (be16 b c))
  | _ => none

/-- The request command of a kind code and a body, none where the kind is unknown or the length wrong (R200). -/
def requestOf (kind : Byte) (body : List Byte) : Option Instr :=
  if kind = 1 then configureOf body
  else match body with
    | [] => bareRequest kind.toNat
    | [a] => byteRequest kind.toNat a
    | [a, b] => if kind = 26 then some (.readReport a b) else none
    | [a, b, c] => tripleRequest kind.toNat a b c
    | [a, b, c, e] =>
      if kind = 10 then some (.setHeatDemand (be32 a b c e))
      else if kind = 25 then some (.setFloorTime (be32 a b c e))
      else none
    | _ => none

end Sys2Proof.Machine
end

