-- ==== Sys2Proof/Machine/Panel.lean ====
section
/-! DEFINITION. The Panel Port (11_panel_port_start_up_configuration_and_service_wi.md): transactions, configuration, START, the
service window, and the meanings of the commands that are its own, with SET FLOOR TIME, whose notice it submits. -/

namespace Sys2Proof.Machine

/-! ## Records (12.2) -/

def RespCode.code (c : RespCode) : Byte := BitVec.ofNat 8 (c.ctorIdx + 1)

/-- A response record (12.2). -/
def responseRecord (tag code reason : Byte) (body : List Byte) : List Byte :=
  withCheck ([1, tag, code, reason] ++ byte16 (BitVec.ofNat 16 body.length) ++ body)

/-- A record of kind NONE: tag 0, code 0, no body (12.2). -/
def noneRecord : List Byte := withCheck [0, 0, 0, 0, 0, 0]

/-- The record that goes out, fixed when select is asserted (R187). -/
def Ppt.outgoingNow (p : Ppt) : Outgoing :=
  match p.note, p.holder, p.slot with
  | some n, _, _ => { source := .note, bytes := responseRecord n.tag n.code.code 0 [] }
  | none, some r, _ => { source := .held, bytes := responseRecord r.tag r.code.code r.reason r.body }
  | none, none, some (t, _) => { source := .pendingReply, bytes := responseRecord t RespCode.pending.code 0 [] }
  | none, none, none => { source := .noneReply, bytes := noneRecord }

/-- What a transaction of a number of bytes clocks out: the record, and 0 past its end (R188). -/
def Outgoing.clocked (n : Nat) (o : Outgoing) : List Byte := (o.bytes ++ List.replicate n 0).take n

/-- What arrived in a transaction (R188, R200). -/
inductive Incoming where
  | short
  | badCheck (tag : Byte)
  | record (kind tag : Byte) (body : List Byte)
  deriving DecidableEq, Repr

/-- An incoming record judged as it arrives: a body length above 240 is answered CHECK ERROR, a record cut short is a short
transaction, bytes beyond the record are ignored (R188, R200). -/
def judgeIncoming (bytes : List Byte) : Incoming :=
  match bytes with
  | kind :: tag :: n1 :: n0 :: rest =>
    let n := (be16 n1 n0).toNat
    if n > 240 then .badCheck tag
    else if rest.length < n + 2 then .short
    else
      let body := rest.take n
      if withCheck ([kind, tag, n1, n0] ++ body) = [kind, tag, n1, n0] ++ rest.take (n + 2) then .record kind tag body
      else .badCheck tag
  | _ => .short

/-- What was sent under case 1 or case 2 is cleared (R187). -/
def Ppt.clearSent (s : OutSource) (p : Ppt) : Ppt :=
  match s with
  | .note => { p with note := none }
  | .held => { p with holder := none }
  | _ => p

/-- A response placed with no owner involved (R189, R200). -/
def Ppt.reject (tag : Byte) (p : Ppt) : Ppt :=
  { p with holder := some { tag := tag, code := .badField, reason := 0, body := [] } }

/-- An incoming request record taken at select release (R187, R189, R200). -/
def Station.takeRecord (kind tag : Byte) (body : List Byte) (d : Station) : Station :=
  if kind = 0 && body.isEmpty then d
  else if d.ppt.slot.isSome || d.ppt.holder.isSome then
    d.onPpt fun p => { p with note := some { code := .busy, tag := tag } }
  else match requestOf kind body with
    | none => d.onPpt (Ppt.reject tag)
    | some c => (d.onPpt fun p => { p with slot := some (tag, c) }).raise c

/-! ## CONFIGURE (R191) -/

/-- The section's effect on a channel's record: its mode is the one last configured (R57). -/
def SectionKind.configured (k : SectionKind) (inst : Nat) (d : Station) : Station :=
  if k = .inputChannel then
    let i := Fin.ofNat 8 inst
    match d.cfg.channels[i] with
    | some c => d.onChannel i fun r => { r with mode := some c.mode }
    | none => d
  else d

/-- A section judged field by field and stored (R191). -/
def Station.loadSection (k : SectionKind) (inst : Nat) (bytes : List Byte) (d : Station) : Station :=
  match readFields (k.fields []) bytes with
  | none => d.badField
  | some vs =>
    match firstBad 1 (k.fields vs) vs with
    | some n => d.answer .badField (BitVec.ofNat 8 n) []
    | none => (k.configured inst (d.onPpt fun p => { p with cfg := k.store inst vs p.cfg })).ok

/-! ## The checks of START (R192) -/

/-- A check that failed: its reason, the section kind and the instance at fault. -/
structure StartFault where
  reason : Reason
  kind : SectionKind
  inst : Nat
  deriving DecidableEq, Repr

/-- A fault of an instance when a check does not hold. -/
def require (ok : Bool) (r : Reason) (k : SectionKind) (inst : Nat) : Option StartFault :=
  if ok then none else some { reason := r, kind := k, inst := inst }

/-- The first fault of a list of checks. -/
def firstFault (l : List (Option StartFault)) : Option StartFault := l.findSome? id

namespace Check

/-- Step 1. -/
def sections (r : ConfigRecord) : Option StartFault :=
  firstFault
    [require r.station.isSome .missingSection .station 0, require r.loop.isSome .missingSection .loop 0,
     require r.shift.isSome .missingSection .shift 0, require r.service.isSome .missingSection .service 0,
     require r.flood.isSome .missingSection .flood 0]

/-- Step 2. -/
def flood (r : ConfigRecord) : Option StartFault :=
  match r.flood with
  | some f => require (f.low < f.high) .floodThresholds .flood 0
  | none => none

/-- The mode a function requires (Table 4-1). -/
def modeFor : ChannelFn → PulseMode
  | .weigher => .countWindow
  | .encoder => .quadrature
  | _ => .period

/-- Two channels may not carry one function and instance, but for the two of an ENCODER pair (R56). -/
def channelClash (i j : Fin 8) (a b : ChannelCfg) : Bool :=
  a.fn == b.fn && a.inst == b.inst && !(a.fn == .encoder && i.val / 2 == j.val / 2)

/-- An ENCODER's pair carries the same instance, filter and timebase on both channels (R56; a pair that differs is MODE: log 24). -/
def pairWhole (r : ConfigRecord) (i : Fin 8) (c : ChannelCfg) : Bool :=
  let j := Fin.ofNat 8 (if i.val % 2 = 0 then i.val + 1 else i.val - 1)
  match r.channels[j] with
  | some m => m.fn == .encoder && m.inst == c.inst && m.filter == c.filter && m.tb == c.tb
  | none => false

/-- Step 3 for one channel (R56). A pair whose channels differ in instance, filter or timebase is MODE at its lower channel, as is one
without its mate (log 24). -/
def channel (r : ConfigRecord) (i : Fin 8) : Option StartFault :=
  match r.channels[i] with
  | none => none
  | some c =>
    if c.fn = .unassigned then none
    else
      let clash := (List.finRange 8).any fun j =>
        j < i && (match r.channels[j] with | some b => channelClash i j c b | none => false)
      firstFault
        [require (!clash) .doubleAssignment .inputChannel i.val,
         require (c.mode == modeFor c.fn && (c.fn != .encoder || pairWhole r i c)) .mode .inputChannel i.val]

/-- A function of an input line has instances of its own (Table 4-6). -/
def lineHasInst (fn : LineFn) : Bool := fn == .endForward || fn == .endReturn || fn == .index

def lineClash (a b : LineCfg) : Bool :=
  a.fn == b.fn && a.fn != .general && a.fn != .unused && (!lineHasInst a.fn || a.inst == b.inst)

/-- An INDEX line names an ENCODER pair, a limit line a compartment (R70). -/
def linePresent (r : ConfigRecord) (c : LineCfg) : Bool :=
  match c.fn with
  | .index => [c.inst, c.inst + 1].all fun n =>
      match r.channels[Fin.ofNat 8 n] with
      | some k => k.fn == .encoder
      | none => false
  | .endForward => (r.comps[Fin.ofNat 4 (c.inst - 1)]).isSome
  | .endReturn => (r.comps[Fin.ofNat 4 (c.inst - 1)]).isSome
  | _ => true

/-- Step 4 for one line (R70). -/
def line (r : ConfigRecord) (i : Fin 12) : Option StartFault :=
  match r.lines[i] with
  | none => none
  | some c =>
    let clash := (List.finRange 12).any fun j =>
      j < i && (match r.lines[j] with | some b => lineClash c b | none => false)
    firstFault
      [require (!clash) .doubleAssignment .inputLine i.val, require (linePresent r c) .absentInstance .inputLine i.val]

/-- The function is one that Table 5-1 allows for the kind (R72); the table gives an UNUSED line none, and any is let pass (log 56). -/
def kindAllows (k : OutKind) (f : OutFn) : Bool :=
  match k with
  | .reference => f == .feeder || f == .fan
  | .valve => f == .pilotValve || f == .mainFuelRelease
  | .igniter => f == .igniter
  | .strokeForward => f == .compartment
  | .strokeReturn => f == .compartment
  | .unused => true

def outHasInst (f : OutFn) : Bool := f == .feeder || f == .fan || f == .compartment

/-- Two sections assign one function and instance twice; an UNUSED line takes no part (R72; log 56). Only lines of one kind clash, so a
repeated function and instance under another kind is KIND (log 24). -/
def outClash (a b : OutCfg) : Bool :=
  a.kind != .unused && a.kind == b.kind && a.fn == b.fn && (!outHasInst a.fn || a.inst == b.inst)

/-- Step 5 for one line (R72). -/
def output (r : ConfigRecord) (i : Fin 16) : Option StartFault :=
  match r.outputs[i] with
  | none => none
  | some c =>
    let clash := (List.finRange 16).any fun j =>
      j < i && (match r.outputs[j] with | some b => outClash c b | none => false)
    firstFault
      [require (!clash) .doubleAssignment .outputLine i.val, require (kindAllows c.kind c.fn) .kind .outputLine i.val,
       require (c.kind != .igniter || c.pulseWidth < 10 * c.spacing) .igniterTiming .outputLine i.val]

def hasOut (r : ConfigRecord) (k : OutKind) (f : OutFn) (inst : Nat) : Bool :=
  r.outputs.toList.any fun o =>
    match o with
    | some c => c.kind == k && c.fn == f && (!outHasInst f || c.inst == inst)
    | none => false

def hasLine (r : ConfigRecord) (f : LineFn) (inst : Nat) : Bool :=
  r.lines.toList.any fun o =>
    match o with
    | some c => c.fn == f && (!lineHasInst f || c.inst == inst)
    | none => false

def hasChannel (r : ConfigRecord) (f : ChannelFn) (inst : Nat) : Bool :=
  r.channels.toList.any fun o =>
    match o with
    | some c => c.fn == f && c.inst == inst
    | none => false

/-- Step 6 (06_burner_sequencer_and_flame_monitor.md, the list before Table 6-1). -/
def burner (r : ConfigRecord) : Option StartFault :=
  match r.burner with
  | none => none
  | some c =>
    firstFault
      [require (hasOut r .valve .pilotValve 0 && hasOut r .igniter .igniter 0 && hasOut r .valve .mainFuelRelease 0 &&
        hasChannel r .flameScanner 1 && hasLine r .airFlowProven 0 && hasLine r .idFanRunning 0) .dutyLines .burner 0,
       require (c.ignitionTime ≤ c.pilotLimit && c.lightOff ≤ c.maxDemand && c.bandMin < c.bandMax) .parameterOrder
        .burner 0]

/-- The station has a duty section (R192). -/
def anyDuty (r : ConfigRecord) : Bool :=
  r.burner.isSome || r.feeds.toList.any Option.isSome || r.comps.toList.any Option.isSome

/-- Step 7 for one channel number (07_fuel_feeding_and_heat_sharing.md, the list before Table 7-1; log 24). -/
def feed (r : ConfigRecord) (i : Fin 2) : Option StartFault :=
  let n := i.val + 1
  if (r.feeds[i]).isSome then require (hasOut r .reference .feeder n) .dutyLines .feedChannel n
  else require (!(hasChannel r .weigher n || hasChannel r .encoder n)) .absentInstance .feedChannel n

/-- Step 8 for one compartment number (R150). -/
def comp (r : ConfigRecord) (i : Fin 4) : Option StartFault :=
  let n := i.val + 1
  match r.comps[i] with
  | some c =>
    firstFault
      [require (hasOut r .strokeForward .compartment n && hasOut r .strokeReturn .compartment n &&
        hasLine r .endForward n && hasLine r .endReturn n) .dutyLines .compartment n,
       require (c.minRate ≤ c.maxRate && c.minRate ≤ c.baseRate && c.baseRate ≤ c.maxRate) .parameterOrder .compartment n,
       require (c.forwardLimit + c.dwell + c.returnLimit ≤ strokePeriod c.maxRate) .strokeTiming .compartment n]
  | none => require (!hasChannel r .pressure n) .absentInstance .compartment n

/-- The instance of a point exists on the station (R154, Table 9-1). Instance 0 of a kind that takes no other is there on every station, with
or without the duty or the line that reports the kind (log 69). -/
def pointPresent (r : ConfigRecord) (c : PointCfg) : Bool :=
  let feedThere := (c.inst == 1 && (r.feeds[0]).isSome) || (c.inst == 2 && (r.feeds[1]).isSome)
  let compThere := 1 ≤ c.inst && c.inst ≤ 4 && (r.comps[Fin.ofNat 4 (c.inst - 1)]).isSome
  match c.kind with
  | .feederStall => feedThere
  | .feederReverse => feedThere
  | .weigherSilent => feedThere
  | .grateStrokeTimeout => compThere
  | .limitConflict => compThere
  | .pressureHigh => compThere
  | .pressureLow => compThere
  | .inputLine => c.inst < 12 &&
      (match r.lines[Fin.ofNat 12 c.inst] with | some l => l.fn == .general | none => false)
  | _ => c.inst == 0

/-- Step 9 for one point (R154). -/
def point (r : ConfigRecord) (i : Fin 32) : Option StartFault :=
  match r.points[i] with
  | none => none
  | some c => require (pointPresent r c) .absentInstance .alarmPoint i.val

/-- The first check that fails, in the order of R192. -/
def all (r : ConfigRecord) : Option StartFault :=
  firstFault <|
    [sections r, flood r] ++ (List.finRange 8).map (channel r) ++ (List.finRange 12).map (line r) ++
      (List.finRange 16).map (output r) ++
      (if anyDuty r then [burner r] ++ (List.finRange 2).map (feed r) ++ (List.finRange 4).map (comp r) else []) ++
      (List.finRange 32).map (point r)

end Check

/-! ## START (R193, R194) -/

/-- The config signature over the floor-wide fields (R194, 12.1). -/
def configSignature (l : LoopCfg) (boundaries : List Nat) : Half :=
  checkCode <|
    [BitVec.ofNat 8 l.cycle, BitVec.ofNat 8 l.watchMultiple] ++ byte16 (BitVec.ofNat 16 l.claimLimit) ++
      [BitVec.ofNat 8 l.grace, BitVec.ofNat 8 boundaries.length] ++
      boundaries.flatMap fun b => byte32 (BitVec.ofNat 32 b)

/-- The Panel Port's fields of the common part are written (R12, R193, R195, R196). -/
def Station.stagePanel (d : Station) : Station :=
  d.onStaging fun g => { g with panel := some { station := d.ownByte, sig := d.ownSig, present := d.ppt.present } }

/-- The Shift Report Unit at the accepted START (R177, R184). -/
def Station.startShift (d : Station) : Station :=
  let closing := match d.sru.ring.getLast? with
    | some rep => rep.closing
    | none => { shift := 0, heat := 0, firing := 0, strokes := 0, trips := 0 }
  (d.onSru fun r => { r with notUp := some (d.inSec 1) }).onStaging fun g =>
    { g with openShift := some d.sru.shift, closing := some closing }

/-- The accepted START (R193). -/
def Station.acceptStart (d : Station) : Station :=
  let d := d.onPpt fun p =>
    { p with started := true, sig := some (configSignature d.loopCfg d.boundaries), window := .awaitingFirst }
  let d := d.stagePanel
  (((((((d.startInputs).startOutputs).startAlarms).stageBurner).startFeed).startCooler).startShift).startLoop

/-! ## The service window (R195, R196) -/

/-- The SERVICE section. -/
def Station.serviceCfg (d : Station) : ServiceCfg := d.cfg.service.getD { period := 1, openFraction := 100 }

/-- A period starts: CLOSED until the open point, which at 100 % is the start itself (R195). -/
def Station.startPeriod (d : Station) : Station :=
  let c := d.serviceCfg
  let closed := c.period * Config.secondTicks * (100 - c.openFraction) / 100
  d.onPpt fun p =>
    { p with window := if closed = 0 then .openPart else .closed
             openAt := if closed = 0 then none else some (d.now + closed)
             periodEnd := some (d.inSec c.period) }

/-- A lapse (R196). -/
def Station.lapse (d : Station) : Station :=
  let d := ((d.onPpt fun p => { p with present := false }).stagePanel).report .panelAbsent 0 true
  ((d.post .lapse).raise .bsqPanelLapse).onPpt fun p =>
    { p with window := .awaitingFirst, openAt := none, periodEnd := none }

/-! ## Meanings -/

/-- SELECT_ASSERT (R187): the outgoing record is fixed. -/
def execSelectAssert (s : State) : Host.Outcome State Fault Refusal :=
  act .selectAssert (fun d =>
    if d.ppt.outgoing.isSome then d else d.onPpt fun p => { p with outgoing := some p.outgoingNow }) s

/-- SELECT_RELEASE (R187 to R189, R200): what was sent is cleared, and the incoming request is judged, refused or handed to its
owner; a short transaction does neither. As many bytes went out as came in (log 52). -/
def execSelectRelease (bytesIn : List Byte) (s : State) : Host.Outcome State Fault Refusal :=
  act (.selectRelease bytesIn) (fun d =>
    match d.ppt.outgoing with
    | none => d
    | some o =>
      let d := d.onPpt fun p => { p with outgoing := none, clockedOut := o.clocked bytesIn.length }
      match judgeIncoming bytesIn with
      | .short => d
      | .badCheck tag =>
        (d.onPpt (Ppt.clearSent o.source)).onPpt fun p => { p with note := some { code := .checkError, tag := tag } }
      | .record kind tag body => (d.onPpt (Ppt.clearSent o.source)).takeRecord kind tag body) s

/-- CONFIGURE (R191): a section is stored in CONFIG. -/
def execConfigure (kind inst : Byte) (fields : List Byte) (s : State) : Host.Outcome State Fault Refusal :=
  act (.configure kind inst fields) (fun d =>
    if d.ppt.started then d.wrongState
    else match sectionKindOf kind with
      | none => d.badField
      | some k => if k.instanceOk inst.toNat then d.loadSection k inst.toNat fields else d.badField) s

/-- START (R192, R193): the configuration is checked, and each block makes its start. -/
def execStart (s : State) : Host.Outcome State Fault Refusal :=
  act .start (fun d =>
    if d.ppt.started then d.wrongState
    else match Check.all d.cfg with
      | some f => d.answer .refused f.reason.code [f.kind.code, BitVec.ofNat 8 f.inst]
      | none => d.acceptStart.ok) s

/-- SERVICE (R195, R196). -/
def execService (s : State) : Host.Outcome State Fault Refusal :=
  act .service (fun d =>
    match d.ppt.window with
    | .idle => d.wrongState
    | .awaitingFirst =>
      ((((d.onPpt fun p => { p with present := true }).stagePanel).report .panelAbsent 0 false).startPeriod).ok
    | .closed => d.lapse.refuse .early
    | .openPart => d.startPeriod.ok) s

/-- SERVICE_OPEN_POINT (R195): CLOSED goes to OPEN. -/
def execServiceOpenPoint (s : State) : Host.Outcome State Fault Refusal :=
  act .serviceOpenPoint (fun d =>
    if d.ppt.window = .closed && d.ppt.openAt.isSome then
      d.onPpt fun p => { p with window := .openPart, openAt := none }
    else d) s

/-- SERVICE_PERIOD_EXPIRY (R195, R196): in OPEN a lapse. -/
def execServicePeriodExpiry (s : State) : Host.Outcome State Fault Refusal :=
  act .servicePeriodExpiry (fun d => if d.ppt.window = .openPart && d.ppt.periodEnd.isSome then d.lapse else d) s

/-- READ_EVENTS (R190): the event set is answered and emptied. -/
def execReadEvents (s : State) : Host.Outcome State Fault Refusal :=
  act .readEvents (fun d => (d.onPpt fun p => { p with events := 0 }).okWith [d.ppt.events]) s

def ResetCause.code : ResetCause → Byte
  | .none => 0
  | .powerOn => 1
  | .resetLine => 2

/-- READ_RESET_CAUSE (R197): the cause is answered and set to NONE. -/
def execReadResetCause (s : State) : Host.Outcome State Fault Refusal :=
  act .readResetCause (fun d => (d.onPpt fun p => { p with cause := .none }).okWith [d.ppt.cause.code]) s

/-- SET_FLOOR_TIME (R176): a TIME SET notice is submitted. -/
def execSetFloorTime (time : Word) (s : State) : Host.Outcome State Fault Refusal :=
  act (.setFloorTime time) (fun d =>
    if !d.ppt.started then d.wrongState
    else match d.submit (.timeSet time) with
      | (d, true) => d.ok
      | (d, false) => d.answer .queueFull 0 []) s

end Sys2Proof.Machine
end

