-- ==== Sys2Proof/Machine/Reads.lean ====
section
/-! DEFINITION. What the host reads: the response bodies of the read requests (12.2, R201; log 21), the report image (Table 12-7),
and the meanings of the read commands. -/

namespace Sys2Proof.Machine

/-! ## Fields of a response body (R201) -/

/-- A figure in four bytes, the width where the chapter gives none. -/
def field32 (n : Nat) : List Byte := byte32 (wire32 n)
def field16 (n : Nat) : List Byte := byte16 (BitVec.ofNat 16 n)
def field8 (n : Nat) : List Byte := [BitVec.ofNat 8 n]

/-- A flag or mark. -/
def flag (b : Bool) : List Byte := [if b then 1 else 0]

/-- A value that may be none: a mark, then the value. -/
def optional {α : Type} (f : α → List Byte) : Option α → List Byte
  | none => [0]
  | some x => 1 :: f x

/-- A list: a count, then the entries. -/
def listed {α : Type} (f : α → List Byte) (l : List α) : List Byte := BitVec.ofNat 8 l.length :: l.flatMap f

/-- A set of station numbers as a mask. -/
def stationSet (l : List (Fin 16)) : List Byte := byte16 (l.foldl (fun m i => m ||| markOf i) 0)

/-- The milliseconds left on a timer that runs. -/
def Station.left (d : Station) (t : Option Nat) : List Byte := optional (fun e => field32 (d.msLeft e)) t

/-- A point index, 255 for none. -/
def pointByte (p : Option Nat) : List Byte := [match p with | some n => BitVec.ofNat 8 n | none => 255]

/-- A station number, 0 for none. -/
def stationField (s : Option Nat) : List Byte := [match s with | some n => BitVec.ofNat 8 n | none => 0]

/-! ## Parts of READ STATUS -/

def Head.record (h : Head) : List Byte := h.fields

/-- The LOOP part (R20); BYPASS and the conditions are flags (log 21). -/
def Station.loopPart (d : Station) : List Byte :=
  field8 d.lpc.state.ctorIdx ++ flag d.lpc.origin ++ stationSet d.lpc.live ++ optional Head.record d.lpc.lastHead ++
    [d.lpc.floor[d.own].seq] ++ flag d.lpc.bypass ++ flag (d.condition .configMismatch 0) ++
    flag (d.condition .duplicateStation 0)

def QueueEntry.statusBytes (e : QueueEntry) : List Byte :=
  [e.body.code] ++ optional (fun s => [s]) (if e.placed then some e.seq else none) ++ byte16 e.mask ++ field32 e.rotations

/-- The NOTICES part (R55). -/
def Station.noticesPart (d : Station) : List Byte :=
  field32 d.lpc.queue.length ++ field32 d.lpc.inFlight.length ++ [d.lpc.nextSeq] ++
    listed QueueEntry.statusBytes d.lpc.inFlight ++ flag (d.condition .noticeLoss 0) ++
    optional (fun e => field32 ((e - d.now) / Config.secondTicks)) d.lpc.lossHold

/-- The loaded marks of every section instance, in the order of Table 11-2 (R198). -/
def ConfigRecord.loaded (r : ConfigRecord) : List Bool :=
  [r.station.isSome, r.loop.isSome, r.shift.isSome, r.service.isSome, r.flood.isSome] ++
    r.channels.toList.map Option.isSome ++ r.lines.toList.map Option.isSome ++ r.outputs.toList.map Option.isSome ++
    [r.burner.isSome] ++ r.feeds.toList.map Option.isSome ++ r.comps.toList.map Option.isSome ++
    r.points.toList.map Option.isSome

/-- The time left to the open point in CLOSED and to the period's end in OPEN (R198). -/
def Station.windowLeft (d : Station) : List Byte :=
  match d.ppt.window with
  | .closed => d.left d.ppt.openAt
  | .openPart => d.left d.ppt.periodEnd
  | _ => [0]

/-- The PANEL part (R198). -/
def Station.panelPart (d : Station) : List Byte :=
  flag d.ppt.started ++ d.cfg.loaded.flatMap flag ++ optional byte16 d.ppt.sig ++ field8 d.ppt.window.ctorIdx ++
    d.windowLeft ++ flag d.ppt.present ++ flag (d.condition .panelAbsent 0) ++ [d.ppt.events]

/-- The code of a trip's cause kind (Table 12-5). -/
def causeCode (k : CauseKind) : Byte :=
  match causeCondition k with
  | some c => kindCode (some c)
  | none => if k = .tripRequest then 22 else 23

/-- A first-out reference with its form in front: LOCAL's kind and point, PEER's station, point and kind, each in the order of R102
(log 21). -/
def FirstOut.bytes : FirstOut → List Byte
  | .localRef p k => [0] ++ [kindCode (some k)] ++ pointByte (p.map (·.val))
  | .peer s p k => [1] ++ stationField s ++ pointByte p ++ [kindCode k]

def TripRecord.bytes (t : TripRecord) : List Byte :=
  byte32 t.time ++ [seqCode t.state, causeCode t.cause] ++ t.first.bytes

/-- The codes of the last stop reasons: STOP, LAPSE, LOOP, then the permissive reasons in the order of R94 (R112, R201). -/
def StopReason.code : StopReason → Byte
  | .stop => 0
  | .lapse => 1
  | .loop => 2
  | .tripRequest => 7
  | .idFan => 8
  | .noFeed => 9
  | .noCooler => 10
  | .mainBurner => 11

def StopRecord.bytes (r : StopRecord) : List Byte := r.reason.code :: byte32 r.time

def Scanner.bytes (s : Scanner) : List Byte :=
  field32 s.good ++ field32 s.bad ++ field32 s.lastPeriod ++ field8 s.verdict.ctorIdx

/-- The BURNER part (R112); the conditions are flags, and each sequence timer and trip hold has a fixed place, a mark and the time left where
it runs (log 21). -/
def Station.burnerPart (c : BurnerCfg) (d : Station) : List Byte :=
  let b := d.bsq
  let scanners := ((List.finRange 2).filter d.scannerConfigured).map fun i => b.monitor.scanners[i]
  [letterCode c.letter, seqCode b.state] ++ field32 b.demand ++ field32 b.setpoint ++ field32 (b.rampTarget c) ++
    field8 b.monitor.status.ctorIdx ++ field32 b.monitor.proving ++ listed Scanner.bytes scanners ++
    d.left b.purge ++ d.left b.postPurge ++ d.left b.pilotTrial ++ d.left b.ignition ++ d.left b.mainTrial ++
    d.left b.shortfall ++ d.left b.coolerLoss ++ field32 b.interruptions ++ optional TripRecord.bytes b.trip ++
    optional StopRecord.bytes b.lastStop ++ d.left b.holds.flameFail ++ d.left b.holds.ignitionFail ++
    d.left b.holds.mainFlameFail ++ d.left b.holds.purgeAirLost ++ d.left b.holds.airFlowLost ++
    d.left b.holds.coolerLoss ++ flag (d.condition .heatShortfall 0) ++ flag (d.condition .coolerLoss 0)

/-- One channel of the FEED part (R135). -/
def Station.feedStatus (ch : Fin 2) (k : FeedCfg) (d : Station) : List Byte :=
  let c := d.fdc.channels[ch]
  [feedCode c.state] ++ field8 c.cause.ctorIdx ++ [letterCode k.letter] ++ field8 k.weight ++ field16 c.cv ++
    optional field16 c.cvPreload ++ field32 c.capacity ++ field32 c.targetHeat ++ field32 c.massGoal ++
    field32 c.targetRate ++ field32 c.trim ++ field16 c.lastFine ++ field16 c.activeFine ++ field32 c.measured ++
    flag c.rateSeen ++ field8 (if c.measuredBasis (d.hasWeigher ch) then 0 else 1) ++ field32 c.delivered ++
    flag c.openLoop ++ flag c.runDown ++ flag c.reEvaluate ++ d.left c.runDownTimer ++
    flag (d.condition .feederStall (ch.val + 1)) ++ flag (d.condition .feederReverse (ch.val + 1)) ++
    flag (d.condition .weigherSilent (ch.val + 1))

/-- The FEED part (R135). -/
def Station.feedPart (d : Station) : List Byte :=
  listed (fun p : Fin 2 × FeedCfg => d.feedStatus p.1 p.2)
    ((List.finRange 2).filterMap fun i => (d.fdc.channels[i]).cfg.map fun k => (i, k))

/-- One compartment of the COOLER part (R152). A due time is its moment in µs of the time base (log 39). -/
def Station.compStatus (i : Fin 4) (d : Station) : List Byte :=
  let c := d.gcc.comps[i]
  field8 c.state.ctorIdx ++ field8 c.mode.ctorIdx ++ field32 c.shadow ++ field32 c.preload ++ field16 c.baseRate ++
    field32 c.pressure ++ flag c.pressureValid ++ optional field32 c.due ++ flag c.stopAtEnd ++ flag c.faultPending ++
    field8 c.cause.ctorIdx ++ optional (fun t => field8 t.1.ctorIdx ++ field32 (d.msLeft t.2)) c.timer

/-- The COOLER part (R152). The conditions are listed for the configured compartments, and the fan run second timer is the flag of its
running (log 60). -/
def Station.coolerPart (d : Station) : List Byte :=
  let comps := (List.finRange 4).filter fun i => (d.gcc.comps[i]).cfg.isSome
  let fans := (List.finRange 4).filter fun i => (d.findOut .reference .fan (i.val + 1)).isSome
  (match d.lpc.staging.cooler with | some p => p.bytes | none => []) ++
    optional (fun i : Fin 4 => field8 (i.val + 1)) d.gcc.holder ++
    listed (fun i : Fin 4 => field8 (i.val + 1) ++ field32 (((d.gcc.comps[i]).due).getD 0)) d.gcc.queue ++
    listed d.compStatus comps ++
    listed (fun i : Fin 4 => flag (d.condition .grateStrokeTimeout (i.val + 1)) ++
      flag (d.condition .limitConflict (i.val + 1))) comps ++
    listed (fun i : Fin 4 => field16 d.gcc.fans[i]) fans ++ flag d.gcc.fanSecond.isSome

/-- The trip request with its first-out; a clear one is its flag with 255 and 0 (R159, R171; log 66). -/
def Station.tripBytes (d : Station) : List Byte :=
  match d.alm.trip with
  | some t => flag true ++ pointByte (t.point.map (·.val)) ++ [kindCode (some t.kind)]
  | none => flag false ++ [255, 0]

/-- A point in the ALARM part; a running delay is its time left, without which delay it is (R171; log 66). -/
def Station.pointStatus (d : Station) (p : Point) : List Byte :=
  flag p.watched ++ flag p.qualified ++
    d.left (match p.delay with | some (.on e) => some e | some (.off e) => some e | none => none)

/-- The ALARM part (R171). -/
def Station.alarmPart (d : Station) : List Byte :=
  d.tripBytes ++ flag d.alm.flood ++ (match d.lpc.staging.summary with | some g => g.bytes | none => []) ++ [d.alm.epoch] ++
    listed (fun p : Point => d.pointStatus p) (d.alm.points.toList.filter fun p => p.cfg.isSome)

/-- The SHIFT part; the state of the not-UP second timer is a flag (R186; log 60). -/
def Station.shiftPart (d : Station) : List Byte :=
  let r := d.sru
  byte32 r.time ++ field32 (r.time.toNat % Config.daySeconds) ++ byte16 r.shift ++ flag (r.shift == 0) ++
    byte32 r.acc.startTime ++ flag r.acc.interrupted ++ flag r.unresolved ++ field32 r.ring.length ++
    optional (fun p : Report => byte16 p.shift) r.ring.getLast? ++
    optional (fun p : Report => byte16 p.shift ++ field32 r.arrivals ++
      stationSet ((p.floor.filter fun e => e.mark == .outstanding).map (·.station))) r.collecting ++
    field32 r.runTotals[0] ++ field32 r.runTotals[1] ++ flag r.acc.saturated ++ flag r.notUp.isSome

/-- The answer to a duty's part (R198). -/
def Station.dutyPart (sel : Byte) (body : Option (List Byte)) (d : Station) : Station :=
  if !d.ppt.started then d.wrongState
  else match body with
    | some l => d.okWith (sel :: l)
    | none => d.notConfigured

/-! ## The report image (Table 12-7) -/

def CloseCause.code (c : CloseCause) : Byte := BitVec.ofNat 8 (c.ctorIdx + 1)

def FeedCounts.bytes (e : Fin 2 × FeedCounts) : List Byte :=
  field8 (e.1.val + 1) ++ field32 e.2.mass ++ field32 e.2.heat ++ field32 e.2.revolutions ++
    field32 e.2.runningSeconds ++ field16 e.2.faults

def TripEntry.bytes (t : TripEntry) : List Byte :=
  byte32 t.time ++ [causeCode t.cause] ++ stationField t.station ++ pointByte t.point ++ [kindCode t.condition]

def BurnerCounts.bytes (b : BurnerCounts) : List Byte :=
  field32 b.firingSeconds ++ field16 b.starts ++ field16 b.trips ++ listed TripEntry.bytes b.list

def CompCounts.bytes (e : Fin 4 × CompCounts) : List Byte :=
  field8 (e.1.val + 1) ++ field32 e.2.strokes ++ field16 e.2.faults

def AlarmCounts.bytes (a : AlarmCounts) : List Byte :=
  field16 a.raises ++ field8 a.peakActive ++ field16 a.floods ++ field16 a.noticesLost ++ field16 a.acksTooLate

def LoopCounts.bytes (l : LoopCounts) : List Byte :=
  field16 l.trainsMissed ++ field16 l.claimRounds ++ field32 l.notUpSeconds

def PeerTotals.bytes (p : PeerTotals) : List Byte :=
  [stationByte p.station] ++ field8 p.mark.ctorIdx ++ byte32 p.heat ++ byte32 p.firing ++ byte32 p.strokes ++
    byte16 p.trips

def Report.flags (r : Report) : Byte :=
  bitByte r.interrupted 0 ||| bitByte r.complete 1 ||| bitByte r.saturated 2 ||| bitByte r.burner.isSome 3 |||
    bitByte r.cooler.isSome 4

/-- A report's byte image (Table 12-7). -/
def Report.image (r : Report) : List Byte :=
  byte16 r.shift ++ byte32 r.startTime ++ byte32 r.endTime ++ [r.cause.code, r.flags] ++ listed FeedCounts.bytes r.feed ++
    (match r.burner with | some b => b.bytes | none => []) ++
    (match r.cooler with | some c => listed CompCounts.bytes c.1 ++ field32 c.2 | none => []) ++
    r.alarm.bytes ++ r.loop.bytes ++ listed PeerTotals.bytes r.floor

/-- A window of 64 bytes; bytes past the end read as 0 (R185). -/
def windowOf (image : List Byte) (start : Nat) : List Byte :=
  let w := (image.drop start).take 64
  w ++ List.replicate (64 - w.length) 0

/-! ## Pages and records -/

def pageOf {α : Type} (page : Nat) (l : List α) : List α := (l.drop (8 * page)).take 8

def Announced.code : Announced → Byte
  | .known s => alarmCode s
  | .unknown => 4

/-- One entry of READ ALARMS (R171). The shelved flag is the mark byte of the minutes remaining, which follow where it is set (log 21). -/
def Station.alarmEntry (d : Station) (i : Fin 32) : List Byte :=
  let p := d.alm.points[i]
  match p.cfg with
  | none => []
  | some c =>
    field8 i.val ++ [kindCode (some c.kind)] ++ field8 c.inst ++ [classCode c.cls] ++ flag c.latched ++
      [alarmCode p.state] ++ flag p.gone ++ [p.occurrence] ++ byte32 p.raiseTime ++ byte16 p.raiseShift ++
      optional (fun e => field16 ((e - d.now) / (60 * Config.secondTicks))) p.shelf ++ flag p.pending ++
      [p.announced.code] ++ flag p.firstOut

def MirrorEntry.bytes (e : MirrorEntry) : List Byte := [stationByte e.owner] ++ e.body.bytes ++ flag e.silent

/-- A channel's section makes it an ENCODER. -/
def Station.isEncoder (ch : Fin 8) (d : Station) : Bool :=
  match d.cfg.channels[ch] with
  | some c => c.fn == .encoder
  | none => false

/-- The channel whose record READ INPUT shows: the pair's, kept at its lower channel, where both channels of the pair are ENCODER, else
the channel's own (R71). -/
def Station.recordChannel (ch : Fin 8) (d : Station) : Fin 8 :=
  bif d.isEncoder ch && d.isEncoder (pairMate ch) then pairBase ch else ch

/-- A channel's record, or the pair record for either channel of an ENCODER pair (R71). A channel without a section reads UNASSIGNED,
instance 0 and 1 µs (log 49); two ENCODER sections that differ, which CONFIG admits, are read as a pair, each with its own function,
instance and timebase (log 54). A pending count is sent in COUNTING of COUNT-WINDOW mode alone, and none for a pair (R63; log 21). -/
def Station.channelRecord (ch : Fin 8) (d : Station) : List Byte :=
  let k := d.cfg.channels[ch]
  let c := d.piu.channels[d.recordChannel ch]
  let fn := match k with | some c => c.fn | none => .unassigned
  let inst := match k with | some c => c.inst | none => 0
  let tb := match k with | some c => c.tb | none => .us1
  let counting := c.phase == .counting && c.mode == some .countWindow
  field8 fn.ctorIdx ++ field8 inst ++ optional (fun m : PulseMode => field8 m.ctorIdx) c.mode ++ field8 tb.ctorIdx ++
    field8 c.phase.ctorIdx ++ field32 c.lastPeriod ++ field32 c.lastWidth ++ field32 c.lastTicks ++ field32 c.lastCount ++
    optional field32 (if counting then some c.edges else none) ++ byte32 (c.position.signExtend 32) ++
    field8 c.direction.ctorIdx ++ field32 c.interval ++ field32 c.revCounts ++ field32 c.phaseErrors ++
    field16 c.stall ++ flag c.valid ++ field32 c.events

/-- The instance of an input line's function: a GENERAL line's is its own number, any other's is the section's (Table 4-6; log 49). -/
def LineCfg.shownInst (i : Fin 12) (c : LineCfg) : Nat := if c.fn = .general then i.val else c.inst

/-- A line of READ INPUT LINES; a line without a section is UNUSED and reads instance 0, ACTIVE HIGH and debounce 0 (R71, R192;
log 49). -/
def Station.lineRecord (d : Station) (i : Fin 12) : List Byte :=
  let c := (d.cfg.lines[i]).getD { fn := .unused, inst := 0, activeLow := false, debounce := 0 }
  let l := d.piu.lines[i]
  field8 c.fn.ctorIdx ++ field8 (c.shownInst i) ++ flag c.activeLow ++ field8 c.debounce ++ field8 (if l.active then 0 else 1) ++
    flag l.pending.isSome

/-- A line of READ OUTPUT (R86). A line without a section reads UNUSED, FEEDER and instance 0 (log 49); an owner of none is code 3 of
its enumeration, without a mark byte, and the pin level is a flag (log 21). -/
def Station.outRecord (d : Station) (i : Fin 16) : List Byte :=
  let l := d.dou.lines[i]
  let c := l.cfg.getD { kind := .unused, fn := .feeder, inst := 0, carrier := 0, inverted := false, interval := 0,
                        pulseWidth := 0, spacing := 0 }
  let commanded := field8 (if l.on then 0 else 1)
  field8 c.kind.ctorIdx ++ field8 c.fn.ctorIdx ++ field8 c.inst ++ field8 l.owner.ctorIdx ++
    (match c.kind with
     | .reference =>
       flag c.inverted ++ field16 c.carrier ++ field16 c.interval ++ field16 l.preload ++ field16 l.active ++
         flag l.firstWrite ++ field32 l.position ++ field32 l.step
     | .valve => commanded
     | .igniter => field8 l.burst.ctorIdx ++ flag l.inPulse
     | .strokeForward => commanded ++ field32 l.refusals
     | .strokeReturn => commanded ++ field32 l.refusals
     | .unused => []) ++
    flag l.forced ++ flag l.pin

def Counters.toList (c : Counters) : List Counter :=
  [c.trainsSeen, c.headErrors, c.slotErrors, c.trainsMissed, c.lateRotations, c.noticesLost, c.claimRounds, c.breakEntries]

/-- An entry of the floor image table; the image, which is none where the mark is NEVER SEEN, has its mark byte (R23, R201). -/
def Station.floorRecord (d : Station) (i : Fin 16) : List Byte :=
  let e := d.lpc.floor[i]
  flag e.seen ++ [e.seq] ++ field32 e.age ++ flag (d.lpc.live.contains i) ++
    optional Image.bytes (if e.seen then e.image else none)

def Grace.code : Grace → List Byte
  | .idle => [0]
  | .running _ => [1]
  | .expired => [2]

/-- The recovery record (R40). -/
def Station.breakRecord (d : Station) : List Byte :=
  field8 d.lpc.state.ctorIdx ++
    optional (fun r : BreakReport => r.station :: field32 r.hops) d.lpc.breakReport ++ optional byte32 d.lpc.loopLost ++
    d.lpc.grace.code ++ d.left (match d.lpc.grace with | .running e => some e | _ => none) ++ field8 d.lpc.loopSize

/-! ## Meanings -/

/-- READ_ALARMS (R171). -/
def execReadAlarms (page : Byte) (s : State) : Host.Outcome State Fault Refusal :=
  act (.readAlarms page) (fun d =>
    if !d.ppt.started then d.wrongState
    else if page.toNat > 3 then d.badField
    else d.okWith (listed d.alarmEntry (pageOf page.toNat d.alm.active) ++ field32 d.alm.active.length ++ d.tripBytes ++
      flag d.alm.flood ++ field32 d.alm.recent.length ++ field8 d.alm.unacked)) s

/-- READ_MIRROR (R171). -/
def execReadMirror (page : Byte) (s : State) : Host.Outcome State Fault Refusal :=
  act (.readMirror page) (fun d =>
    if !d.ppt.started then d.wrongState
    else if page.toNat > 7 then d.badField
    else d.okWith (listed MirrorEntry.bytes (pageOf page.toNat d.alm.mirror) ++ field32 d.alm.mirror.length ++
      field32 d.alm.overflow)) s

/-- READ_REPORT (R185). -/
def execReadReport (age offset : Byte) (s : State) : Host.Outcome State Fault Refusal :=
  act (.readReport age offset) (fun d =>
    if age.toNat > 7 then d.badField
    else match d.sru.ring.reverse[age.toNat]? with
      | none => d.refuse .noReport
      | some r =>
        if 32 * offset.toNat ≥ r.image.length then d.badField
        else d.okWith (byte16 r.shift ++ flag r.complete ++ field32 r.image.length ++
          windowOf r.image (32 * offset.toNat))) s

/-- READ_STATUS (R198, R20, R55, R112, R135, R152, R171, R186). -/
def execReadStatus (part : Byte) (s : State) : Host.Outcome State Fault Refusal :=
  act (.readStatus part) (fun d =>
    match part.toNat with
    | 1 => d.okWith (part :: d.panelPart)
    | 2 => d.okWith (part :: d.loopPart)
    | 3 => d.okWith (part :: d.noticesPart)
    | 4 => d.dutyPart part (d.cfg.burner.map fun c => d.burnerPart c)
    | 5 => d.dutyPart part (if d.feedDuty then some d.feedPart else none)
    | 6 => d.dutyPart part (if d.coolerDuty then some d.coolerPart else none)
    | 7 => d.dutyPart part (some d.alarmPart)
    | 8 => d.dutyPart part (some d.shiftPart)
    | _ => d.badField) s

/-- READ_COUNTERS (R22): the counts and marks are answered and cleared. -/
def execReadCounters (s : State) : Host.Outcome State Fault Refusal :=
  act .readCounters (fun d =>
    let l := d.lpc.counters.toList
    (d.onCounters fun _ => .zero).okWith
      ((l.flatMap fun c => field32 c.count) ++ l.flatMap fun c => flag c.overflowed)) s

/-- READ_FLOOR (R23). -/
def execReadFloor (station : Byte) (s : State) : Host.Outcome State Fault Refusal :=
  act (.readFloor station) (fun d =>
    match stationIdx station with
    | none => d.badField
    | some i => d.okWith (d.floorRecord i)) s

/-- READ_BREAK (R40). -/
def execReadBreak (s : State) : Host.Outcome State Fault Refusal :=
  act .readBreak (fun d => d.okWith d.breakRecord) s

/-- READ_INPUT (R71). -/
def execReadInput (selector : Byte) (s : State) : Host.Outcome State Fault Refusal :=
  act (.readInput selector) (fun d =>
    if h : selector.toNat < 8 then d.okWith (d.channelRecord ⟨selector.toNat, h⟩)
    else if selector = 255 then d.okWith ((List.finRange 12).flatMap d.lineRecord)
    else d.badField) s

/-- READ_OUTPUT (R86). -/
def execReadOutput (selector : Byte) (s : State) : Host.Outcome State Fault Refusal :=
  act (.readOutput selector) (fun d =>
    if h : selector.toNat < 16 then d.okWith (d.outRecord ⟨selector.toNat, h⟩)
    else if selector = 255 then d.okWith ((List.finRange 16).flatMap d.outRecord)
    else d.badField) s

end Sys2Proof.Machine
end

