-- ==== Sys2Proof/Machine/Reset.lean ====
section
/-! DEFINITION. The resets: power-on and the RESET line (R1, R57, R69, R73, R172, R184, R197 and the "both resets" of every block). -/

namespace Sys2Proof.Machine

/-- The Pulse Input Unit after either reset; the plant's pins stay at their levels (R57, R69; log 7). -/
def Piu.reset (p : Piu) : Piu :=
  { channels := Vector.ofFn fun i => .first p.channels[i].pin, lines := Vector.ofFn fun i => .first p.lines[i].pin }

/-- The Shift Report Unit at the assertion of the RESET line: what it keeps, a COLLECTING report completed, and the shift
interrupted and unresolved unless it is provisional (R180, R184). -/
def Sru.interrupt (r : Sru) : Sru :=
  { r with
    second := none, notUp := none, lastLength := 0, arrivals := 0, skipRefresh := false
    acc := { r.acc with interrupted := r.acc.interrupted || r.shift != 0 }
    unresolved := r.shift != 0
    ring := match r.collecting with
      | some rep => r.ring.dropLast ++ [rep.completed]
      | none => r.ring }

/-- POWER_ON: every block in its first state; the time base runs on and the pins stay at their levels. A RESET line that was held is taken
as released, the second timer runs, and a later release has no effect (R172; log 73). -/
def execPowerOn (s : State) : Host.Outcome State Fault Refusal :=
  act .powerOn (fun d =>
    { Station.first with now := d.now, draws := d.draws, piu := d.piu.reset, sru := .first d.now }) s

/-- RESET_LINE_ASSERT: every block in its first state but for what the RESET line keeps (R154, R172, R184, R197). Every internal event that
nothing has taken yet is dropped, a contribution to the accumulators too (R177; log 65). -/
def execResetLineAssert (s : State) : Host.Outcome State Fault Refusal :=
  act .resetLineAssert (fun d =>
    { Station.first with
      now := d.now, draws := d.draws, resetHeld := true, piu := d.piu.reset, alm := .first d.alm.epoch,
      sru := d.sru.interrupt, ppt := .first .resetLine }) s

/-- RESET_LINE_RELEASE: the second timer starts afresh from the kept floor time (R172). -/
def execResetLineRelease (s : State) : Host.Outcome State Fault Refusal :=
  act .resetLineRelease (fun d =>
    if d.resetHeld then
      { d with resetHeld := false }.onSru fun r => { r with second := some (d.inSec 1) }
    else d) s

end Sys2Proof.Machine
end

