-- ==== Sys2Proof/Machine/Dispatch.lean ====
section
/-! DEFINITION. exec: the meaning of each command, one arm per constructor of Instr, in the order of spec/opcode_table.json. -/

namespace Sys2Proof.Machine

def exec (i : Instr) (s : State) : Host.Outcome State Fault Refusal :=
  match i with
  | .powerOn => Sys2Proof.Machine.execPowerOn s
  | .resetLineAssert => Sys2Proof.Machine.execResetLineAssert s
  | .resetLineRelease => Sys2Proof.Machine.execResetLineRelease s
  | .trainArrival body => Sys2Proof.Machine.execTrainArrival body s
  | .frameOfUnknownType frameType => Sys2Proof.Machine.execFrameOfUnknownType frameType s
  | .claimMarkArrival body => Sys2Proof.Machine.execClaimMarkArrival body s
  | .breakMarkArrival body => Sys2Proof.Machine.execBreakMarkArrival body s
  | .claimMarkSend => Sys2Proof.Machine.execClaimMarkSend s
  | .breakMarkSend => Sys2Proof.Machine.execBreakMarkSend s
  | .trainWatchExpiry => Sys2Proof.Machine.execTrainWatchExpiry s
  | .releaseTimerExpiry => Sys2Proof.Machine.execReleaseTimerExpiry s
  | .claimLimitExpiry => Sys2Proof.Machine.execClaimLimitExpiry s
  | .loopGraceExpiry => Sys2Proof.Machine.execLoopGraceExpiry s
  | .noticeLossHoldExpiry => Sys2Proof.Machine.execNoticeLossHoldExpiry s
  | .pulsePinChange ch level => Sys2Proof.Machine.execPulsePinChange ch level s
  | .acceptedEdge ch level => Sys2Proof.Machine.execAcceptedEdge ch level s
  | .captureOverflow ch => Sys2Proof.Machine.execCaptureOverflow ch s
  | .stillTimerExpiry pair => Sys2Proof.Machine.execStillTimerExpiry pair s
  | .inputPinChange line level => Sys2Proof.Machine.execInputPinChange line level s
  | .lineChange line => Sys2Proof.Machine.execLineChange line s
  | .patternTimerExpiry line => Sys2Proof.Machine.execPatternTimerExpiry line s
  | .carrierPeriodStart line => Sys2Proof.Machine.execCarrierPeriodStart line s
  | .activePartEnd line => Sys2Proof.Machine.execActivePartEnd line s
  | .igniterPulseWidthExpiry => Sys2Proof.Machine.execIgniterPulseWidthExpiry s
  | .igniterSpacingExpiry => Sys2Proof.Machine.execIgniterSpacingExpiry s
  | .douForceStart => Sys2Proof.Machine.execDouForceStart s
  | .douForceEnd => Sys2Proof.Machine.execDouForceEnd s
  | .burnerStart => Sys2Proof.Machine.execBurnerStart s
  | .burnerStop => Sys2Proof.Machine.execBurnerStop s
  | .lockoutReset => Sys2Proof.Machine.execLockoutReset s
  | .setHeatDemand setpoint => Sys2Proof.Machine.execSetHeatDemand setpoint s
  | .bsqScannerCapture scanner period width tb => Sys2Proof.Machine.execBsqScannerCapture scanner period width tb s
  | .bsqScannerNoSignal scanner => Sys2Proof.Machine.execBsqScannerNoSignal scanner s
  | .flameFailTimerExpiry => Sys2Proof.Machine.execFlameFailTimerExpiry s
  | .bsqAirFlowChange active => Sys2Proof.Machine.execBsqAirFlowChange active s
  | .bsqIdFanChange active => Sys2Proof.Machine.execBsqIdFanChange active s
  | .bsqEstopChange active => Sys2Proof.Machine.execBsqEstopChange active s
  | .bsqPurgeTimerExpiry => Sys2Proof.Machine.execBsqPurgeTimerExpiry s
  | .bsqIgnitionTimerExpiry => Sys2Proof.Machine.execBsqIgnitionTimerExpiry s
  | .pilotTrialLimitExpiry => Sys2Proof.Machine.execPilotTrialLimitExpiry s
  | .mainTrialLimitExpiry => Sys2Proof.Machine.execMainTrialLimitExpiry s
  | .postPurgeTimerExpiry => Sys2Proof.Machine.execPostPurgeTimerExpiry s
  | .shortfallTimerExpiry => Sys2Proof.Machine.execShortfallTimerExpiry s
  | .coolerLossTimerExpiry => Sys2Proof.Machine.execCoolerLossTimerExpiry s
  | .tripHoldExpiry kind => Sys2Proof.Machine.execTripHoldExpiry kind s
  | .firingSecondTimerExpiry => Sys2Proof.Machine.execFiringSecondTimerExpiry s
  | .bsqFloorRefresh => Sys2Proof.Machine.execBsqFloorRefresh s
  | .bsqLeftUp => Sys2Proof.Machine.execBsqLeftUp s
  | .bsqLoopGraceExpiry => Sys2Proof.Machine.execBsqLoopGraceExpiry s
  | .bsqPanelLapse => Sys2Proof.Machine.execBsqPanelLapse s
  | .feedEnable channel => Sys2Proof.Machine.execFeedEnable channel s
  | .feedDisable channel => Sys2Proof.Machine.execFeedDisable channel s
  | .feedClearFault channel => Sys2Proof.Machine.execFeedClearFault channel s
  | .calorificUpdate channel cv => Sys2Proof.Machine.execCalorificUpdate channel cv s
  | .fdcFloorRefresh => Sys2Proof.Machine.execFdcFloorRefresh s
  | .fdcWeigherWindow ch ticks count overflow tb => Sys2Proof.Machine.execFdcWeigherWindow ch ticks count overflow tb s
  | .fdcWeigherNoSignal ch => Sys2Proof.Machine.execFdcWeigherNoSignal ch s
  | .fdcDirectionChange ch direction position => Sys2Proof.Machine.execFdcDirectionChange ch direction position s
  | .fdcIndex ch first counts => Sys2Proof.Machine.execFdcIndex ch first counts s
  | .fdcStill ch position => Sys2Proof.Machine.execFdcStill ch position s
  | .fdcActiveValueChange ch value cause => Sys2Proof.Machine.execFdcActiveValueChange ch value cause s
  | .fdcEstopChange active => Sys2Proof.Machine.execFdcEstopChange active s
  | .fdcLeftUp => Sys2Proof.Machine.execFdcLeftUp s
  | .fdcLoopGraceExpiry => Sys2Proof.Machine.execFdcLoopGraceExpiry s
  | .fdcEnteredUp => Sys2Proof.Machine.execFdcEnteredUp s
  | .runDownTimerExpiry ch => Sys2Proof.Machine.execRunDownTimerExpiry ch s
  | .runningSecondTimerExpiry ch => Sys2Proof.Machine.execRunningSecondTimerExpiry ch s
  | .coolerEnable compartment => Sys2Proof.Machine.execCoolerEnable compartment s
  | .coolerDisable compartment => Sys2Proof.Machine.execCoolerDisable compartment s
  | .setStrokeBase compartment rate => Sys2Proof.Machine.execSetStrokeBase compartment rate s
  | .grateClearFault compartment => Sys2Proof.Machine.execGrateClearFault compartment s
  | .setFan fan reference => Sys2Proof.Machine.execSetFan fan reference s
  | .dueTimeReached comp => Sys2Proof.Machine.execDueTimeReached comp s
  | .gccEndForwardChange comp active => Sys2Proof.Machine.execGccEndForwardChange comp active s
  | .gccEndReturnChange comp active => Sys2Proof.Machine.execGccEndReturnChange comp active s
  | .forwardLimitExpiry comp => Sys2Proof.Machine.execForwardLimitExpiry comp s
  | .dwellExpiry comp => Sys2Proof.Machine.execDwellExpiry comp s
  | .returnLimitExpiry comp => Sys2Proof.Machine.execReturnLimitExpiry comp s
  | .gccEstopChange active => Sys2Proof.Machine.execGccEstopChange active s
  | .gccPressureCapture comp period width tb => Sys2Proof.Machine.execGccPressureCapture comp period width tb s
  | .gccPressureNoSignal comp => Sys2Proof.Machine.execGccPressureNoSignal comp s
  | .gccFloorRefresh => Sys2Proof.Machine.execGccFloorRefresh s
  | .gccFanActiveValueChange fan value cause => Sys2Proof.Machine.execGccFanActiveValueChange fan value cause s
  | .fanRunSecondTimerExpiry => Sys2Proof.Machine.execFanRunSecondTimerExpiry s
  | .onDelayExpiry point => Sys2Proof.Machine.execOnDelayExpiry point s
  | .offDelayExpiry point => Sys2Proof.Machine.execOffDelayExpiry point s
  | .almPlaceFree => Sys2Proof.Machine.execAlmPlaceFree s
  | .recentRaiseExpiry => Sys2Proof.Machine.execRecentRaiseExpiry s
  | .almFloorRefresh => Sys2Proof.Machine.execAlmFloorRefresh s
  | .ackAlarm station point occurrence => Sys2Proof.Machine.execAckAlarm station point occurrence s
  | .shelve point minutes => Sys2Proof.Machine.execShelve point minutes s
  | .unshelve point => Sys2Proof.Machine.execUnshelve point s
  | .shelfExpiry point => Sys2Proof.Machine.execShelfExpiry point s
  | .readAlarms page => Sys2Proof.Machine.execReadAlarms page s
  | .readMirror page => Sys2Proof.Machine.execReadMirror page s
  | .secondTimerExpiry => Sys2Proof.Machine.execSecondTimerExpiry s
  | .notUpSecondTimerExpiry => Sys2Proof.Machine.execNotUpSecondTimerExpiry s
  | .sruContribution c => Sys2Proof.Machine.execSruContribution c s
  | .sruFloorRefresh => Sys2Proof.Machine.execSruFloorRefresh s
  | .sruLeftUp => Sys2Proof.Machine.execSruLeftUp s
  | .sruEnteredUp => Sys2Proof.Machine.execSruEnteredUp s
  | .setFloorTime time => Sys2Proof.Machine.execSetFloorTime time s
  | .readReport age offset => Sys2Proof.Machine.execReadReport age offset s
  | .selectAssert => Sys2Proof.Machine.execSelectAssert s
  | .selectRelease bytesIn => Sys2Proof.Machine.execSelectRelease bytesIn s
  | .configure kind inst fields => Sys2Proof.Machine.execConfigure kind inst fields s
  | .start => Sys2Proof.Machine.execStart s
  | .service => Sys2Proof.Machine.execService s
  | .serviceOpenPoint => Sys2Proof.Machine.execServiceOpenPoint s
  | .servicePeriodExpiry => Sys2Proof.Machine.execServicePeriodExpiry s
  | .readEvents => Sys2Proof.Machine.execReadEvents s
  | .readResetCause => Sys2Proof.Machine.execReadResetCause s
  | .readStatus part => Sys2Proof.Machine.execReadStatus part s
  | .readCounters => Sys2Proof.Machine.execReadCounters s
  | .readFloor station => Sys2Proof.Machine.execReadFloor station s
  | .readBreak => Sys2Proof.Machine.execReadBreak s
  | .readInput selector => Sys2Proof.Machine.execReadInput selector s
  | .readOutput selector => Sys2Proof.Machine.execReadOutput selector s

end Sys2Proof.Machine
end

