-- ==== Sys2Proof/Machine/Timers.lean ====
section
/-! DEFINITION. How the part goes on by itself when no command waits: undelivered internal events, expiries that are due, and the
tick of the time base (log 1, 2, 3). -/

namespace Sys2Proof.Machine

/-- The block that takes a command (opcode_table.json, "actor"). Internal events reach one receiver in the order they were
raised, and between receivers no order is given (R68, R70). -/
def receiver : Instr → Nat
  | .powerOn | .resetLineAssert | .resetLineRelease => 9
  | .trainArrival _ | .frameOfUnknownType _ | .claimMarkArrival _ | .breakMarkArrival _ | .claimMarkSend | .breakMarkSend
  | .trainWatchExpiry | .releaseTimerExpiry | .claimLimitExpiry | .loopGraceExpiry | .noticeLossHoldExpiry
  | .readFloor _ | .readCounters | .readBreak => 0
  | .pulsePinChange .. | .acceptedEdge .. | .captureOverflow _ | .stillTimerExpiry _ | .inputPinChange .. | .lineChange _
  | .readInput _ => 1
  | .patternTimerExpiry _ | .carrierPeriodStart _ | .activePartEnd _ | .igniterPulseWidthExpiry | .igniterSpacingExpiry
  | .douForceStart | .douForceEnd | .readOutput _ => 2
  | .burnerStart | .burnerStop | .lockoutReset | .setHeatDemand _ | .bsqScannerCapture .. | .bsqScannerNoSignal _
  | .flameFailTimerExpiry | .bsqAirFlowChange _ | .bsqIdFanChange _ | .bsqEstopChange _ | .bsqPurgeTimerExpiry
  | .bsqIgnitionTimerExpiry | .pilotTrialLimitExpiry | .mainTrialLimitExpiry | .postPurgeTimerExpiry
  | .shortfallTimerExpiry | .coolerLossTimerExpiry | .tripHoldExpiry _ | .firingSecondTimerExpiry | .bsqFloorRefresh
  | .bsqLeftUp | .bsqLoopGraceExpiry | .bsqPanelLapse => 3
  | .feedEnable _ | .feedDisable _ | .feedClearFault _ | .calorificUpdate .. | .fdcFloorRefresh | .fdcWeigherWindow ..
  | .fdcWeigherNoSignal _ | .fdcDirectionChange .. | .fdcIndex .. | .fdcStill .. | .fdcActiveValueChange ..
  | .fdcEstopChange _ | .fdcLeftUp | .fdcLoopGraceExpiry | .fdcEnteredUp | .runDownTimerExpiry _
  | .runningSecondTimerExpiry _ => 4
  | .coolerEnable _ | .coolerDisable _ | .setStrokeBase .. | .grateClearFault _ | .setFan .. | .dueTimeReached _
  | .gccEndForwardChange .. | .gccEndReturnChange .. | .forwardLimitExpiry _ | .dwellExpiry _ | .returnLimitExpiry _
  | .gccEstopChange _ | .gccPressureCapture .. | .gccPressureNoSignal _ | .gccFloorRefresh | .gccFanActiveValueChange ..
  | .fanRunSecondTimerExpiry => 5
  | .onDelayExpiry _ | .offDelayExpiry _ | .almPlaceFree | .recentRaiseExpiry | .almFloorRefresh | .ackAlarm .. | .shelve ..
  | .unshelve _ | .shelfExpiry _ | .readAlarms _ | .readMirror _ => 6
  | .secondTimerExpiry | .notUpSecondTimerExpiry | .sruContribution _ | .sruFloorRefresh | .sruLeftUp | .sruEnteredUp
  | .readReport .. => 7
  | .setFloorTime _ | .selectAssert | .selectRelease _ | .configure .. | .start | .service | .serviceOpenPoint
  | .servicePeriodExpiry | .readEvents | .readResetCause | .readStatus _ => 8

/-- The oldest undelivered event of each receiver. -/
def frontEvents : List Nat → List Instr → List Instr
  | _, [] => []
  | seen, c :: rest =>
    if seen.contains (receiver c) then frontEvents seen rest else c :: frontEvents (receiver c :: seen) rest

/-- A command where a moment is reached. -/
def dueAt (now : Nat) (t : Option Nat) (c : Instr) : List Instr :=
  match t with
  | some e => if e ≤ now then [c] else []
  | none => []

/-- A moment while a condition holds. -/
def whileOn (b : Bool) (t : Option Nat) : Option Nat := if b then t else none

def Lpc.due (now : Nat) (l : Lpc) : List Instr :=
  dueAt now l.watch .trainWatchExpiry ++
    dueAt now (match l.release with | .running e => some e | _ => none) .releaseTimerExpiry ++
    dueAt now (whileOn (l.state == .claiming || l.state == .deferring) l.claimLimit) .claimLimitExpiry ++
    dueAt now (match l.grace with | .running e => some e | _ => none) .loopGraceExpiry ++
    dueAt now l.lossHold .noticeLossHoldExpiry ++
    dueAt now (whileOn (l.state == .claiming) l.claimSend) .claimMarkSend ++
    dueAt now (whileOn (l.state == .breakSearch) l.breakSend) .breakMarkSend

/-- A channel's filter wait, and its counter's overflow but in QUADRATURE (R58, R59, R64). -/
def Channel.due (now : Nat) (i : Fin 8) (cfg : Option ChannelCfg) (c : Channel) : List Instr :=
  match cfg with
  | none => []
  | some k =>
    if c.phase = .disabled then []
    else
      (match c.wait with
       | some w => if w.due ≤ now && w.level != c.accepted then [.acceptedEdge i w.level] else []
       | none => []) ++
        (if k.mode != .quadrature && c.restarted + Config.counterSpan * tbMicros k.tb ≤ now then [.captureOverflow i]
         else [])

def Station.dueInputs (d : Station) : List Instr :=
  ((List.finRange 8).flatMap fun i => (d.piu.channels[i]).due d.now i d.cfg.channels[i]) ++
    ((List.finRange 4).flatMap fun p =>
      let ch := Fin.ofNat 8 (2 * p.val)
      dueAt d.now (whileOn (d.cfg.channels[ch]).isSome (d.piu.channels[ch]).still) (.stillTimerExpiry p)) ++
    (List.finRange 12).flatMap fun i =>
      dueAt d.now (whileOn (d.cfg.lines[i]).isSome ((d.piu.lines[i]).pending.map (·.due))) (.lineChange i)

def Station.dueOutputs (d : Station) : List Instr :=
  ((List.finRange 16).flatMap fun i =>
    let l := d.dou.lines[i]
    dueAt d.now l.patternEnd (.patternTimerExpiry i) ++ dueAt d.now l.carrierEnd (.carrierPeriodStart i) ++
      dueAt d.now l.activeEnd (.activePartEnd i)) ++
    match d.findOut .igniter .igniter 0 with
    | some i =>
      dueAt d.now (d.dou.lines[i]).pulseEnd .igniterPulseWidthExpiry ++
        dueAt d.now (whileOn ((d.dou.lines[i]).burst == .bursting) (d.dou.lines[i]).spacingEnd) .igniterSpacingExpiry
    | none => []

def Bsq.due (now : Nat) (b : Bsq) : List Instr :=
  dueAt now b.monitor.failTimer .flameFailTimerExpiry ++ dueAt now (whileOn (b.state == .purge) b.purge) .bsqPurgeTimerExpiry ++
    dueAt now b.ignition .bsqIgnitionTimerExpiry ++ dueAt now b.pilotTrial .pilotTrialLimitExpiry ++
    dueAt now b.mainTrial .mainTrialLimitExpiry ++ dueAt now b.postPurge .postPurgeTimerExpiry ++
    dueAt now b.shortfall .shortfallTimerExpiry ++ dueAt now b.coolerLoss .coolerLossTimerExpiry ++
    dueAt now b.firingSecond .firingSecondTimerExpiry ++ dueAt now b.holds.flameFail (.tripHoldExpiry .flameFail) ++
    dueAt now b.holds.ignitionFail (.tripHoldExpiry .ignitionFail) ++
    dueAt now b.holds.mainFlameFail (.tripHoldExpiry .mainFlameFail) ++
    dueAt now b.holds.purgeAirLost (.tripHoldExpiry .purgeAirLost) ++
    dueAt now b.holds.airFlowLost (.tripHoldExpiry .airFlowLost) ++
    dueAt now b.holds.coolerLoss (.tripHoldExpiry .coolerLoss)

def Fdc.due (now : Nat) (f : Fdc) : List Instr :=
  (List.finRange 2).flatMap fun i =>
    let c := f.channels[i]
    dueAt now (whileOn c.cfg.isSome c.runDownTimer) (.runDownTimerExpiry i) ++
      dueAt now c.runningSecond (.runningSecondTimerExpiry i)

/-- A compartment's due time in REST and its running timer (R136, R137). -/
def Compartment.dueNow (now : Nat) (i : Fin 4) (c : Compartment) : List Instr :=
  dueAt now (whileOn (c.state == .rest) c.due) (.dueTimeReached i) ++
    match c.timer with
    | some (.forwardLimit, e) => dueAt now (some e) (.forwardLimitExpiry i)
    | some (.dwell, e) => dueAt now (some e) (.dwellExpiry i)
    | some (.returnLimit, e) => dueAt now (some e) (.returnLimitExpiry i)
    | none => []

def Gcc.due (now : Nat) (g : Gcc) : List Instr :=
  ((List.finRange 4).flatMap fun i => if (g.comps[i]).cfg.isSome then (g.comps[i]).dueNow now i else []) ++
    dueAt now g.fanSecond .fanRunSecondTimerExpiry

def Point.due (now : Nat) (i : Fin 32) (p : Point) : List Instr :=
  (match p.delay with
   | some (.on e) => dueAt now (some e) (.onDelayExpiry i)
   | some (.off e) => dueAt now (some e) (.offDelayExpiry i)
   | none => []) ++ dueAt now p.shelf (.shelfExpiry i)

def Alm.due (now : Nat) (a : Alm) : List Instr :=
  ((List.finRange 32).flatMap fun i => (a.points[i]).due now i) ++
    dueAt now (a.recent.head?.map (· + Config.recentRaiseTicks)) .recentRaiseExpiry

def Sru.due (now : Nat) (r : Sru) : List Instr :=
  dueAt now r.second .secondTimerExpiry ++ dueAt now r.notUp .notUpSecondTimerExpiry

def Ppt.due (now : Nat) (p : Ppt) : List Instr :=
  dueAt now (whileOn (p.window == .closed) p.openAt) .serviceOpenPoint ++
    dueAt now (whileOn (p.window == .openPart) p.periodEnd) .servicePeriodExpiry

/-- A pattern timer expiry that ends position 15 of its line, the pattern end (R76). -/
def Station.endsPattern (d : Station) : Instr → Bool
  | .patternTimerExpiry i => (d.dou.lines[i]).position ≥ 15
  | _ => false

/-- The expiries that are due. A pattern end waits until no other block has one due, so that every write and force of its moment has
come first and a restart replaces it (R76; log 61). -/
def Station.dueCommands (d : Station) : List Instr :=
  let others := d.lpc.due d.now ++ d.dueInputs ++ d.bsq.due d.now ++ d.fdc.due d.now ++ d.gcc.due d.now ++ d.alm.due d.now ++
    d.sru.due d.now ++ d.ppt.due d.now
  others ++ if others.isEmpty then d.dueOutputs else d.dueOutputs.filter fun c => !d.endsPattern c

/-- What the part may take next by itself: an undelivered event, or, where there is none, an expiry that is due. -/
def Station.ownEvents (d : Station) : List Instr :=
  if d.signals.isEmpty then d.dueCommands else frontEvents [] d.signals

/-- One tick of the time base passes (log 1). -/
def Station.tick (d : Station) : Station := { d with now := d.now + 1, loopOut := [] }

/-- Which of several events that come together is taken: the free value of log 2. -/
def Station.pickEvent (d : Station) (first : Instr) (rest : List Instr) : Instr :=
  (first :: rest).getD (Config.pick d.draws % (rest.length + 1)) first

/-- The free value's counter after a choice. -/
def Station.drawn (d : Station) : Station := { d with draws := d.draws + 1 }

end Sys2Proof.Machine
end

