-- ==== Sys2Proof/Machine/Step.lean ====
section
/-! DEFINITION. The step of the machine. -/

namespace Sys2Proof.Machine

/-- With no command waiting, the part goes on by itself (log 1): it takes an undelivered internal event or an expiry that is
due, one of them by the free value where several come together (log 2), else one tick passes. -/
def idle (s : State) : Host.Outcome State Fault Refusal :=
  match s.dev.ownEvents with
  | [] => .next { s with dev := s.dev.tick }
  | [c] => exec c s
  | c :: rest => exec (s.dev.pickEvent c rest) { s with dev := s.dev.drawn }

/-- The command at the front of the queue is taken and run on the state with the rest of the queue. -/
def step (s : State) : Host.Outcome State Fault Refusal :=
  match s.pending with
  | [] => idle s
  | c :: rest => exec c { s with pending := rest }

/-- The state with the command that a word spells put at the front of its queue, or the state where it spells none. -/
def State.withFetchWord (s : State) (nbits w : Nat) : State :=
  match decodeTableWord nbits w with
  | some c => { s with pending := c :: s.pending }
  | none => s

end Sys2Proof.Machine
end

