-- ==== Sys2Proof/Safety.lean ====
section
/-! DEFINITION. What a safe run is, and the relations that say how little a command changes. -/

namespace Sys2Proof

/-- A step of the machine from a state answers a next state. The part has no fault (no rule stops it), so a step is safe when it
is not refused. -/
def StepSafe (s : Machine.State) : Prop := ∃ t, Machine.step s = .next t

/-- Every state that a number of steps passes through has a safe step. -/
def RunSafe : Nat → Machine.State → Prop
  | 0, _ => True
  | n + 1, s => ∃ t, Machine.step s = .next t ∧ RunSafe n t

namespace Machine

/-- All that the second station may differ in from the first is what the Alarm Unit writes when conditions, points, first-out
flags or notices move: its own record, the notice queue, its two pieces of the staging record, host events posted besides those that
stood, and internal events raised after those that stood. -/
structure AlarmsOnly (a b : Station) : Prop where
  signals : a.signals <+: b.signals
  events : a.ppt.events &&& b.ppt.events = a.ppt.events
  rest : b = { a with
    signals := b.signals, alm := b.alm, ppt := { a.ppt with events := b.ppt.events }
    lpc := { a.lpc with
      queue := b.lpc.queue
      staging := { a.lpc.staging with alarm := b.lpc.staging.alarm, summary := b.lpc.staging.summary } } }

/-- Of the Alarm Unit's own record, only the points, the active list, the trip request, the recent-raise list and FLOOD may
differ, and every point keeps its settings. -/
structure PointsMove (a b : Alm) : Prop where
  alm : b = { a with points := b.points, active := b.active, trip := b.trip, recent := b.recent, flood := b.flood }
  cfg : ∀ (i : Nat) (h : i < 32), b.points[i].cfg = a.points[i].cfg

/-- A block commands its own output lines alone: no line's settings differ, and a line of another owner does not differ at all. -/
def OwnLines (who : Owner) (a b : Dou) : Prop :=
  ∀ i : Fin 16, b.lines[i].cfg = a.lines[i].cfg ∧ (a.lines[i].owner ≠ who → b.lines[i] = a.lines[i])

/-- Of the rest of the station, the Burner Sequencer changes its lines, its piece of the staging record, and what its reports and
counts move. -/
structure BurnerOnly (a b : Station) : Prop where
  lines : OwnLines .burnerSequencer a.dou b.dou
  rest : AlarmsOnly { a with
    bsq := b.bsq, dou := b.dou
    lpc := { a.lpc with staging := { a.lpc.staging with burner := b.lpc.staging.burner } } } b

/-- Of a channel, only the stall time and the still timer may differ, with the still timer that its last counted edge would put
back. -/
structure StallMoves (a b : Channel) : Prop where
  rest : b = { a with stall := b.stall, still := b.still, counted := b.counted }
  edge : b.still = a.still ∧ b.counted = a.counted ∨ b.counted = a.counted.map fun u => { u with still := b.still }

/-- Of the rest of the station, the Feed Controller changes its lines, the stall times of its encoder pairs, its piece of the staging
record, and what its reports and counts move. -/
structure FeedOnly (a b : Station) : Prop where
  lines : OwnLines .feedController a.dou b.dou
  pairs : ∀ i : Fin 8, StallMoves a.piu.channels[i] b.piu.channels[i]
  rest : AlarmsOnly { a with
    fdc := b.fdc, dou := b.dou, piu := { a.piu with channels := b.piu.channels }
    lpc := { a.lpc with staging := { a.lpc.staging with feed := b.lpc.staging.feed } } } b

/-- Of the rest of the station, the Grate Cooler Controller changes its lines, its piece of the staging record, and what its reports
and counts move. -/
structure GrateOnly (a b : Station) : Prop where
  lines : OwnLines .grateCooler a.dou b.dou
  rest : AlarmsOnly { a with
    gcc := b.gcc, dou := b.dou
    lpc := { a.lpc with staging := { a.lpc.staging with cooler := b.lpc.staging.cooler } } } b

/-- Every fuel line is off and no other line differs: main fuel release and pilot valve OFF, a burst cut (R88). -/
def FuelOff (a b : Station) : Prop :=
  ∀ i : Fin 16,
    let l := a.dou.lines[i]
    b.dou.lines[i] =
      if a.findOut .valve .mainFuelRelease 0 = some i ∨ a.findOut .valve .pilotValve 0 = some i then
        { l with on := false, pin := false }
      else if a.findOut .igniter .igniter 0 = some i ∧ l.burst ≠ .idle then
        { l with burst := .idle, inPulse := false, pin := false, pulseEnd := none, spacingEnd := none }
      else l

/-- The Burner Sequencer has left a trial or FIRING for another state: fuel off, demand 0, every sequence timer stopped, the flame
monitor disarmed, HEAT SHORTFALL absent, and COOLER LOSS as its trip hold has it (R88, R101, R103, R104, R106). -/
structure FireEnded (st : BsqState) (a b : Station) : Prop where
  fuel : FuelOff a b
  bsq : b.bsq = { a.bsq with
    state := st, demand := 0, purge := none, postPurge := b.bsq.postPurge, pilotTrial := none, ignition := none
    mainTrial := none, shortfall := none, coolerLoss := none, firingSecond := none
    monitor := { status := .none, proving := 0, failTimer := none, scanners := b.bsq.monitor.scanners }
    trip := b.bsq.trip, lastStop := b.bsq.lastStop, holds := b.bsq.holds }
  runs : ∀ i : Fin 2, b.bsq.monitor.scanners[i] = { a.bsq.monitor.scanners[i] with good := 0, bad := 0 }
  staged : ∀ c, a.cfg.burner = some c →
    b.lpc.staging.burner = some { letter := c.letter, state := st, demand := 0 }
  posted : b.ppt.events &&& 8 = 8
  shortfall : b.condition .heatShortfall 0 = false
  cooler : b.condition .coolerLoss 0 = b.bsq.holds.coolerLoss.isSome
  rest : BurnerOnly a b

/-- The first-out reference of each cause kind, and the entry that a trip hands to the Shift Report Unit: the own condition of the same name
with the lowest point that watches it; the first station in view that requests a trip; burner A's station as it last stood in view (R101,
R102, R181; the station of a LOCAL reference: log 27; a point byte of 32 to 254: log 50). -/
structure FirstOutNamed (d : Station) : Prop where
  own : ∀ (cause : CauseKind) (k : CondKind), (cause, k) ∈ ([(.estop, .estop), (.purgeAirLost, .purgeAirLost),
      (.airFlowLost, .airFlowLost), (.ignitionFail, .ignitionFail), (.mainFlameFail, .mainFlameFail), (.flameFail, .flameFail),
      (.loopLost, .loopLost), (.coolerLoss, .coolerLoss)] : List (CauseKind × CondKind)) →
    let sees := fun i : Fin 32 => ∃ c, d.alm.points[i].cfg = some c ∧ c.kind = k ∧ c.inst = 0
    (∀ i, sees i → (∀ j, j < i → ¬ sees j) → d.firstOutOf cause = .localRef (some i) k) ∧
    ((∀ i, ¬ sees i) → d.firstOutOf cause = .localRef none k)
  request : ∀ (before after : List (Fin 16 × Image)) (i : Fin 16) (g : Image), d.inView = before ++ (i, g) :: after →
    (∀ e ∈ before, e.2.tripRequest = false) → g.tripRequest = true →
    (∀ k, i = d.own → g.firstKind = some k →
      (∀ p : Fin 32, g.firstPoint.toNat = p.val → d.firstOutOf .tripRequest = .localRef (some p) k) ∧
      (31 < g.firstPoint.toNat → d.firstOutOf .tripRequest = .localRef none k)) ∧
    (i ≠ d.own → d.firstOutOf .tripRequest = .peer (some (i.val + 1))
      (if g.firstPoint.toNat ≤ 31 then some g.firstPoint.toNat else none) g.firstKind)
  main : ∀ i : Fin 16, d.bsq.mainStation = some i → ∀ g, d.lpc.floor[i].image = some g →
    d.firstOutOf .mainBurnerLost = if g.tripRequest = true then
      .peer (some (i.val + 1)) (if g.firstPoint.toNat ≤ 31 then some g.firstPoint.toNat else none) g.firstKind
    else .peer (some (i.val + 1)) none none
  entry : ∀ (cause : CauseKind) (own : Option (Fin 32)) (kind : CondKind) (station point : Option Nat)
      (peerKind : Option CondKind),
    d.tripEntry cause (.localRef own kind) = {
      time := d.sru.time, cause := cause, station := some (d.own.val + 1), point := own.map fun i => i.val
      condition := some kind } ∧
    d.tripEntry cause (.peer station point peerKind) = {
      time := d.sru.time, cause := cause, station := station, point := point, condition := peerKind }

/-- A trip has handed over a first-out that names an own point: that point alone carries the first-out flag. A flag that changed is
announced, but that set on a point in NORMAL, which waits for its next raise (R101, R157, R159, R160; log 19). -/
structure FirstOutFlagged (i : Fin 32) (a b : Station) : Prop where
  points : ∀ j : Fin 32, b.alm.points[j] = { a.alm.points[j] with
    firstOut := decide (j = i), pending := b.alm.points[j].pending, announced := b.alm.points[j].announced }
  quiet : ∀ j : Fin 32,
    a.alm.points[j].firstOut = decide (j = i) ∨ (j = i ∧ a.alm.points[j].state = .normal) ∨ a.alm.points[j].shelf ≠ none →
    b.alm.points[j].pending = a.alm.points[j].pending ∧ b.alm.points[j].announced = a.alm.points[j].announced
  told : ∀ (j : Fin 32) (c : PointCfg), a.alm.points[j].cfg = some c → a.alm.points[j].firstOut ≠ decide (j = i) →
    ¬ (j = i ∧ a.alm.points[j].state = .normal) → a.alm.points[j].shelf = none →
    let deferred := a.alm.points[j].pending = true ∨ (c.cls = .low ∧ a.alm.flood = true)
    (deferred → b.alm.points[j].pending = true ∧ b.alm.points[j].announced = a.alm.points[j].announced) ∧
    (¬ deferred → (j = i ∧ a.lpc.queue.length < 16) ∨ b.lpc.queue.length < 16 →
      b.alm.points[j].pending = false ∧ b.alm.points[j].announced = .known a.alm.points[j].state ∧
        ∃ e ∈ b.lpc.queue, e.body = .alarmState (b.alm.points[j].body j c))
  rest : b = { a with alm := { a.alm with points := b.alm.points }, lpc := { a.lpc with queue := b.lpc.queue } }

/-- A trip with a cause: LOCKOUT, the trip record, the trip handed to the Shift Report Unit, the first-out flag on the own point that the
reference names, and the hold of the cause with its condition present (R101 to R103, R159). A flag is cleared with its point's entry to
NORMAL, which the reports of HEAT SHORTFALL and COOLER LOSS absent can bring (R104, R159; log 57). -/
structure Tripped (cause : CauseKind) (a b : Station) : Prop where
  ended : FireEnded .lockout a b
  timer : b.bsq.postPurge = none
  record : b.bsq.trip =
    some { time := a.sru.time, state := a.bsq.state, cause := cause, first := a.firstOutOf cause }
  stop : b.bsq.lastStop = a.bsq.lastStop
  counted : .sruContribution (.trip (a.tripEntry cause (a.firstOutOf cause))) ∈ b.signals
  holds : b.bsq.holds = match causeHold cause with
    | some k => a.bsq.holds.set (some (a.now + 65000000)) k
    | none => a.bsq.holds
  present : ∀ k, causeHold cause = some k → b.condition (holdCondition k) 0 = true
  flagged : ∀ (i : Fin 32) (k : CondKind), a.firstOutOf cause = .localRef (some i) k →
    (∀ j : Fin 32, j ≠ i → b.alm.points[j].firstOut = false) ∧
    (b.alm.points[i].firstOut = true ∨ b.alm.points[i].state = .normal) ∧
    ((∀ c, a.alm.points[i].cfg = some c → c.inst = 0 →
        c.kind ≠ .heatShortfall ∧ (c.kind = .coolerLoss → cause = .coolerLoss)) →
      b.alm.points[i].firstOut = true)
  unflagged : (∀ (i : Fin 32) (k : CondKind), a.firstOutOf cause ≠ .localRef (some i) k) → ∀ j : Fin 32,
    (b.alm.points[j].firstOut = true → a.alm.points[j].firstOut = true) ∧
    (a.alm.points[j].firstOut = true → b.alm.points[j].firstOut = true ∨ b.alm.points[j].state = .normal)

/-- A stop into POST-PURGE for a reason, with the last stop record (R106). -/
structure StoppedBurning (r : StopReason) (c : BurnerCfg) (a b : Station) : Prop where
  ended : FireEnded .postPurge a b
  timer : b.bsq.postPurge = some (a.now + c.purgeTime * 1000000)
  record : b.bsq.trip = a.bsq.trip
  stop : b.bsq.lastStop = some { reason := r, time := a.sru.time }
  holds : b.bsq.holds = a.bsq.holds

/-- PURGE left for OFF for a reason (R96). -/
def purgeStopped (r : StopReason) (c : BurnerCfg) (a : Station) : Station :=
  { a with
    bsq := { a.bsq with
      state := .off, demand := 0, purge := none, postPurge := none, pilotTrial := none, ignition := none
      mainTrial := none, shortfall := none, coolerLoss := none, firingSecond := none
      lastStop := some { reason := r, time := a.sru.time } }
    lpc := { a.lpc with staging := { a.lpc.staging with
      burner := some { letter := c.letter, state := .off, demand := 0 } } }
    ppt := { a.ppt with events := a.ppt.events ||| 8 } }

/-- A reference line after SET PRELOAD of 0: an immediate take, but that a forced line keeps its active value and pattern (R77, R78,
R85). -/
def feederZero (now : Nat) (l : OutLine) : OutLine :=
  if l.forced then { l with preload := 0 }
  else
    { l with
      preload := 0, active := 0, step := 0, activeEnd := none, pin := l.inactiveLevel, position := 0
      patternEnd := some (now + l.intervalTicks) }

/-- An encoder pair after its stall time is written (R67). -/
def stallWritten (now ms : Nat) (c : Channel) : Channel :=
  let still := if ms = 0 then none else some (now + ms * 1000)
  { c with stall := ms, still := still, counted := c.counted.map fun u => { u with still := still } }

/-- A feed channel as its entry to OFF, READY or FAULT leaves it: reference, rates and timers cleared, its feeder line written 0, its
stall time 0, WEIGHER SILENT absent and its fault conditions as the cause gives them (R114, R125, R126, R130, R134). -/
structure FeedStopped (st : FeedState) (cause : FeedCause) (ch : Fin 2) (a b : Station) : Prop where
  channel : b.fdc.channels[ch] = { a.fdc.channels[ch] with
    state := st, cause := cause, targetHeat := 0, massGoal := 0, targetRate := 0, lastFine := 0, delivered := 0
    openLoop := false, runDown := false, reEvaluate := false, runDownTimer := none, runningSecond := none }
  others : ∀ j : Fin 2, j ≠ ch → b.fdc.channels[j] = a.fdc.channels[j]
  feeder : ∀ i : Fin 16, b.dou.lines[i] =
    if a.findOut .reference .feeder (ch.val + 1) = some i then feederZero a.now a.dou.lines[i] else a.dou.lines[i]
  told : ∀ i : Fin 16, a.findOut .reference .feeder (ch.val + 1) = some i → a.dou.lines[i].forced = false →
    a.dou.lines[i].active ≠ 0 → .fdcActiveValueChange ch 0 .immediate ∈ b.signals
  pair : ∀ i : Fin 8, b.piu.channels[i] =
    if a.findChannel .encoder (ch.val + 1) = some i then stallWritten a.now 0 a.piu.channels[i] else a.piu.channels[i]
  silent : b.condition .weigherSilent (ch.val + 1) = false
  stalled : b.condition .feederStall (ch.val + 1) = (st == .fault && cause == .feederStall)
  reversed : b.condition .feederReverse (ch.val + 1) = (st == .fault && cause == .feederReverse)
  staged : a.feedDuty = true → b.lpc.staging.feed =
    some ((List.finRange 2).filterMap fun i => (b.fdc.channels[i]).entry i)
  rest : FeedOnly a b

/-- A compartment as its entry to FAULT leaves it: both stroke lines OFF, the grant given up, no timer, and its two marks cleared but
at the emergency stop, which leaves them (R141 to R143, R145; log 62). -/
structure CompFaulted (cause : CompCause) (i : Fin 4) (a b : Station) : Prop where
  comp : b.gcc.comps[i] = { a.gcc.comps[i] with
    state := .fault, cause := cause, timer := none
    faultPending := cause == .estop && a.gcc.comps[i].faultPending
    stopAtEnd := cause == .estop && a.gcc.comps[i].stopAtEnd }
  others : ∀ j : Fin 4, j ≠ i → j ∉ a.gcc.queue → b.gcc.comps[j] = a.gcc.comps[j]
  off : ∀ (k : OutKind) (l : Fin 16), k = .strokeForward ∨ k = .strokeReturn →
    a.findOut k .compartment (i.val + 1) = some l → b.dou.lines[l] = { a.dou.lines[l] with on := false, pin := false }
  grant : b.gcc.holder ≠ some i ∧ i ∉ b.gcc.queue
  counted : a.gcc.comps[i].state ≠ .fault →
    .sruContribution (.grateFault i) ∈ b.signals ∧ b.ppt.events &&& 32 = 32
  staged : a.coolerDuty = true → b.lpc.staging.cooler = some b.gcc.part
  rest : GrateOnly a b

/-- A queue entry is the ALARM STATE notice of the point that a notice is for (R43). -/
def sameAlarm (n : NoticeBody) (e : QueueEntry) : Bool :=
  match n, e.body with
  | .alarmState x, .alarmState y => x.point == y.point
  | _, _ => false

/-- A notice finds its place in a queue: a waiting entry of its point, or a free place (R43). -/
def QueueAccepts (n : NoticeBody) (q : List QueueEntry) : Prop := (∃ e ∈ q.drop 4, sameAlarm n e = true) ∨ q.length < 16

/-- A queue has taken a notice: into the waiting entry of its point, or at the end (R43). -/
def QueueTook (n : NoticeBody) (q r : List QueueEntry) : Prop :=
  ((∃ e ∈ q.drop 4, sameAlarm n e = true) →
    r = q.take 4 ++ (q.drop 4).map fun e => if sameAlarm n e = true then { e with body := n } else e) ∧
  ((∀ e ∈ q.drop 4, sameAlarm n e = false) → r = q ++ [{ body := n, placed := false, seq := 0, mask := 0, rotations := 0 }])

/-- A configured point, as it is given to stand, has been announced: not while it is shelved; deferred in class LOW in FLOOD, with announce
pending already set, and where the queue refuses; else its notice goes into the queue (R160, R166). -/
def PointAnnounced (i : Fin 32) (c : PointCfg) (p : Point) (a b : Station) : Prop :=
  let q := b.alm.points[i]
  let n : NoticeBody := .alarmState (p.body i c)
  let deferred := p.pending = true ∨ (c.cls = .low ∧ b.alm.flood = true) ∨ ¬ QueueAccepts n a.lpc.queue
  (p.shelf ≠ none → q.pending = p.pending ∧ q.announced = p.announced ∧ b.lpc.queue = a.lpc.queue) ∧
  (p.shelf = none → deferred → q.pending = true ∧ q.announced = p.announced ∧ b.lpc.queue = a.lpc.queue) ∧
  (p.shelf = none → ¬ deferred →
    q.pending = false ∧ q.announced = .known p.state ∧ QueueTook n a.lpc.queue b.lpc.queue)

/-- A point has moved to what it is given to be, up to what its announcement leaves: the other points stand, the change is posted, the
summary and, for a TRIP point, the trip request follow, a new length of the active list and then what is told besides are handed to the
Shift Report Unit, and the point is announced (R157 to R160, R169, R170). -/
structure PointMoved (told : List Instr) (i : Fin 32) (p : Point) (a b : Station) : Prop where
  point : b.alm.points[i] = { p with pending := b.alm.points[i].pending, announced := b.alm.points[i].announced }
  others : ∀ j : Fin 32, j ≠ i → b.alm.points[j] = a.alm.points[j]
  posted : b.ppt.events = a.ppt.events ||| 1
  summary : b.lpc.staging.summary = some b.alm.summary
  trip : b.alm.trip = if (∃ c, p.cfg = some c ∧ c.cls = .trip) then b.tripNow else a.alm.trip
  staged : b.lpc.staging.alarm =
    if b.alm.trip = a.alm.trip then a.lpc.staging.alarm else some { epoch := a.alm.epoch, trip := b.alm.trip }
  signals : b.signals = a.signals ++
    (if b.alm.active.length = a.alm.active.length then []
     else [.sruContribution (.activeLength b.alm.active.length)]) ++ told
  announced : ∀ c, p.cfg = some c → PointAnnounced i c p a b
  moves : PointsMove a.alm b.alm
  rest : AlarmsOnly a b

/-- A point has moved without a raise, with the active list as given; recent raises and FLOOD stand (R157, R158, R166). -/
structure PointSettled (i : Fin 32) (p : Point) (active : List (Fin 32)) (a b : Station) : Prop where
  moved : PointMoved [] i p a b
  active : b.alm.active = active
  raises : b.alm.recent = a.alm.recent ∧ b.alm.flood = a.alm.flood

/-- A point's qualified condition has become present, the point with it as given: one that can raise does so with a new occurrence,
last in the active list, hands on the raise and a flood episode that it brings; any other only takes the condition (R155, R157, R158,
R166, R170). -/
def PointRaises (i : Fin 32) (p : Point) (a b : Station) : Prop :=
  let raises := p.state = .normal ∨ p.state = .returnedUnacked ∨ (p.state = .raisedUnacked ∧ p.gone = true)
  (raises →
    PointMoved ((if a.alm.flood = b.alm.flood then [] else [.sruContribution .floodEpisode]) ++ [.sruContribution .raise]) i
      { p with
        occurrence := p.occurrence + 1, raiseTime := a.sru.time, raiseShift := a.sru.shift, state := .raisedUnacked
        gone := false } a b ∧
    b.alm.active = (a.alm.active.filter fun j => j ≠ i) ++ [i] ∧
    b.alm.recent = a.alm.recent.drop (a.alm.recent.length - 31) ++ [a.now] ∧
    b.alm.flood = (a.alm.flood || decide (a.floodCfg.high < b.alm.recent.length))) ∧
  (¬ raises → b = { a with alm := { a.alm with points := vecModify a.alm.points i fun _ => p } })

/-- A point's qualified condition has become absent, the point with it as given: it returns, latches, or goes to NORMAL out of the active
list (R155, R157, R158). -/
def PointReturns (i : Fin 32) (latched : Bool) (p : Point) (a b : Station) : Prop :=
  let is := fun q : Point => b = { a with alm := { a.alm with points := vecModify a.alm.points i fun _ => q } }
  (p.state = .raisedUnacked → latched = true → is { p with gone := true }) ∧
  (p.state = .raisedUnacked → latched = false →
    PointSettled i { p with state := .returnedUnacked } a.alm.active a b) ∧
  (p.state = .raisedAcked →
    PointSettled i { p with state := .normal, gone := false, firstOut := false } (a.alm.active.filter fun j => j ≠ i) a b) ∧
  (p.state = .normal ∨ p.state = .returnedUnacked → is p)

/-- What the Alarm Unit makes of its record: the trip request, of the first TRIP point of the active list or of ESTOP; the alarm
summary, of the configured points that are not shelved; and the queue's answer to a notice (R43, R159, R169). -/
structure AlarmsRead (d : Station) : Prop where
  trip : ∀ (before later : List (Fin 32)) (i : Fin 32) (c : PointCfg), d.alm.active = before ++ i :: later →
    d.alm.points[i].cfg = some c → c.cls = .trip →
    (∀ j ∈ before, ∀ k, d.alm.points[j].cfg = some k → k.cls ≠ .trip) →
    d.tripNow = some { point := some i, kind := c.kind }
  estop : (∀ j ∈ d.alm.active, ∀ k, d.alm.points[j].cfg = some k → k.cls ≠ .trip) →
    let watches := fun i : Fin 32 => ∃ c, d.alm.points[i].cfg = some c ∧ c.kind = .estop ∧ c.inst = 0
    (d.condition .estop 0 = false → d.tripNow = none) ∧
    (∀ i, d.condition .estop 0 = true → watches i → (∀ j, j < i → ¬ watches j) →
      d.tripNow = some { point := some i, kind := .estop }) ∧
    (d.condition .estop 0 = true → (∀ i, ¬ watches i) → d.tripNow = some { point := none, kind := .estop })
  summary :
    let shown := (List.finRange 32).filter fun i => d.alm.points[i].cfg ≠ none ∧ d.alm.points[i].shelf = none
    let raised := fun k : AlarmClass => ∃ i ∈ shown, ∃ c, d.alm.points[i].cfg = some c ∧ c.cls = k ∧
      (d.alm.points[i].state = .raisedUnacked ∨ d.alm.points[i].state = .raisedAcked)
    d.alm.unacked = (shown.filter fun i =>
      d.alm.points[i].state = .raisedUnacked ∨ d.alm.points[i].state = .returnedUnacked).length ∧
    d.alm.summary.unacked = BitVec.ofNat 8 d.alm.unacked ∧
    d.alm.summary.flood = (if d.alm.flood = true then 1 else 0) ∧
    (raised .trip → d.alm.summary.highest = .trip) ∧
    (¬ raised .trip → raised .high → d.alm.summary.highest = .high) ∧
    (¬ raised .trip → ¬ raised .high → raised .low → d.alm.summary.highest = .low) ∧
    (¬ raised .trip → ¬ raised .high → ¬ raised .low → d.alm.summary.highest = .none)
  accepts : ∀ n : NoticeBody, d.lpc.accepts n = true ↔ QueueAccepts n d.lpc.queue
  submitted : ∀ n : NoticeBody, QueueTook n d.lpc.queue (d.lpc.submitted n).queue ∧
    d.lpc.submitted n = { d.lpc with queue := (d.lpc.submitted n).queue }

/-- A point takes a value of its watched condition: one that it had changes nothing; one that the qualified condition has already stops
the running delay; any other starts the on-delay or the off-delay, and a delay of 0 ends at once (R155). -/
def PointTakes (i : Fin 32) (v : Bool) (a b : Station) : Prop :=
  let p := a.alm.points[i]
  let q := { p with watched := v }
  let is := fun q : Point => b = { a with alm := { a.alm with points := vecModify a.alm.points i fun _ => q } }
  (p.cfg = none → b = a) ∧ (p.watched = v → b = a) ∧
  ∀ c, p.cfg = some c → p.watched ≠ v →
    (p.qualified = v → is { q with delay := none }) ∧
    (p.qualified = false → v = true →
      (c.onDelay ≠ 0 → is { q with delay := some (.on (a.now + c.onDelay * 1000000)) }) ∧
      (c.onDelay = 0 → PointRaises i { q with qualified := true, delay := none } a b)) ∧
    (p.qualified = true → v = false →
      (c.offDelay ≠ 0 → is { q with delay := some (.off (a.now + c.offDelay * 1000000)) }) ∧
      (c.offDelay = 0 → PointReturns i c.latched { q with qualified := false, delay := none } a b))

/-- One point after the other makes its change. -/
def InTurn (change : Fin 32 → Station → Station → Prop) : List (Fin 32) → Station → Station → Prop
  | [], a, b => b = a
  | i :: rest, a, b => ∃ x, change i a x ∧ InTurn change rest x b

/-- The trip request follows the points and the ESTOP condition: a change of it is staged and posted (R159). -/
def TripFollows (a b : Station) : Prop :=
  b = if a.tripNow = a.alm.trip then a else { a with
    alm := { a.alm with trip := a.tripNow }
    lpc := { a.lpc with staging := { a.lpc.staging with alarm := some { epoch := a.alm.epoch, trip := a.tripNow } } }
    ppt := { a.ppt with events := a.ppt.events ||| 1 } }

/-- A condition is reported: a value that stands changes nothing; a new one enters the table and is taken by every point that watches the
kind and instance, the lowest index first, and the trip request follows ESTOP (R153, R155, R159; log 63). -/
def Reported (k : CondKind) (inst : Nat) (v : Bool) (a b : Station) : Prop :=
  (a.condition k inst = v → b = a) ∧
  (a.condition k inst ≠ v → ∃ x,
    InTurn (fun i y z =>
        let watches := ∃ c, a.alm.points[i].cfg = some c ∧ c.kind = k ∧ c.inst = inst
        (watches → PointTakes i v y z) ∧ (¬ watches → z = y))
      (List.finRange 32)
      { a with alm := { a.alm with present :=
        (if v then a.alm.present ++ [{ kind := k, inst := inst }]
        else a.alm.present.filter fun c => decide (c ≠ ⟨k, inst⟩)) } } x ∧
    (k = .estop → TripFollows x b) ∧ (k ≠ .estop → b = x))

/-- A pressure, or none, is handed for a compartment number: the pressure points of that compartment judge it, the lowest index first
(R156; log 63). -/
def PressureHanded (comp : Nat) (pressure : Option Nat) (a b : Station) : Prop :=
  InTurn (fun i y z =>
      (∀ c, a.alm.points[i].cfg = some c → c.inst = comp →
        (c.kind = .pressureHigh → PointTakes i (pressure.any fun x => c.threshold < x) y z) ∧
        (c.kind = .pressureLow → PointTakes i (pressure.any fun x => x < c.threshold) y z)) ∧
      ((∀ c, a.alm.points[i].cfg = some c → c.inst = comp → c.kind ≠ .pressureHigh ∧ c.kind ≠ .pressureLow) → z = y))
    (List.finRange 32) a b

/-- The command runs from a state: it answers a next state with the queue untouched, and the station it leaves has a
property. -/
def Runs (c : Instr) (s : State) (P : Station → Prop) : Prop := ∃ t, exec c s = .next t ∧ t.pending = s.pending ∧ P t.dev

/-- A compartment enters WAITING behind a grant that another holds: its place in the queue is by due time, then number (R137, R145). -/
structure Waits (i : Fin 4) (a b : Station) : Prop where
  comps : b.gcc.comps = vecModify a.gcc.comps i fun c => { c with state := .waiting }
  queue :
    let due := fun j : Fin 4 => (a.gcc.comps[j].due).getD 0
    let others := a.gcc.queue.filter fun j => j ≠ i
    b.gcc.queue = (others.filter fun j => due j < due i ∨ (due j = due i ∧ j < i)) ++
      i :: others.filter fun j => ¬ (due j < due i ∨ (due j = due i ∧ j < i))
  grant : b.gcc.holder = a.gcc.holder
  rest : b = { a with
    gcc := { a.gcc with comps := b.gcc.comps, queue := b.gcc.queue }
    lpc := { a.lpc with staging := { a.lpc.staging with
      cooler := if a.coolerDuty then some b.gcc.part else a.lpc.staging.cooler } } }

/-- A compartment gets the grant and begins its stroke: the rate preload becomes the rate, the next due time follows from it, the forward
line is ON under its limit, and the stroke is counted (R138). -/
structure Strokes (i : Fin 4) (k : CompCfg) (l : Fin 16) (a b : Station) : Prop where
  comps : b.gcc.comps = vecModify a.gcc.comps i fun c => { c with
    shadow := c.preload, due := some (a.now + 600000 / c.preload * 1000), state := .forward
    timer := some (.forwardLimit, a.now + k.forwardLimit * 1000) }
  grant : b.gcc.holder = some i ∧ b.gcc.queue = []
  lines : b.dou.lines = vecModify a.dou.lines l fun x => { x with on := true, pin := true }
  rest : b = { a with
    gcc := { a.gcc with comps := b.gcc.comps, holder := some i, queue := [] }
    dou := b.dou, signals := a.signals ++ [.sruContribution (.stroke i)]
    lpc := { a.lpc with staging := { a.lpc.staging with
      cooler := if a.coolerDuty then some b.gcc.part else a.lpc.staging.cooler } } }

/-- A stroke line of a compartment stands ready to be turned on: it is there, not forced, and its partner is OFF (R81, R85). -/
def lineReady (kind other : OutKind) (i : Fin 4) (l : Fin 16) (a : Station) : Prop :=
  a.findOut kind .compartment (i.val + 1) = some l ∧ a.dou.lines[l].forced = false ∧
    ∀ m, a.findOut other .compartment (i.val + 1) = some m → a.dou.lines[m].on = false

/-- Every compartment that waits for the grant is one whose LINE ON to STROKE FORWARD will be held off (R85, R142). -/
def queueHeldOff (a : Station) : Prop :=
  a.gcc.queue.Nodup ∧ ∀ j ∈ a.gcc.queue, a.gcc.comps[j].cfg ≠ none ∧ a.gcc.comps[j].state ≠ .fault ∧
    ∃ l, a.findOut .strokeForward .compartment (j.val + 1) = some l ∧ a.dou.lines[l].forced = true

/-- The grant has passed through a queue of held-off compartments: each has entered FAULT with cause ESTOP, with the rate and the due time
of its grant set and no stroke handed on, and the queue is empty (R138, R142, R145). -/
structure QueueFaulted (a b : Station) : Prop where
  grant : b.gcc.holder = none ∧ b.gcc.queue = []
  comps : ∀ j ∈ a.gcc.queue, b.gcc.comps[j] =
    let c := a.gcc.comps[j]
    { c with
      shadow := c.preload, due := some (a.now + 600000 / c.preload * 1000), state := .fault, cause := .estop, timer := none }
  off : ∀ j ∈ a.gcc.queue, ∀ (k : OutKind) (l : Fin 16), k = .strokeForward ∨ k = .strokeReturn →
    a.findOut k .compartment (j.val + 1) = some l → b.dou.lines[l] = { a.dou.lines[l] with on := false, pin := false }
  absent : ∀ j ∈ a.gcc.queue,
    b.condition .grateStrokeTimeout (j.val + 1) = false ∧ b.condition .limitConflict (j.val + 1) = false
  counted : ∀ j ∈ a.gcc.queue, .sruContribution (.grateFault j) ∈ b.signals ∧ b.ppt.events &&& 32 = 32 ∧
    b.signals.count (.sruContribution (.stroke j)) = a.signals.count (.sruContribution (.stroke j))

/-- A request is accepted: its effect has a property, and OK is answered after it. -/
def Accepted (P : Station → Prop) (d : Station) : Prop := ∃ x, P x ∧ d = x.answer .ok 0 []

/-- The open shift is closed with a cause and the next number opened: a COLLECTING report is completed, the new report goes to the end
of a ring of at most 8, the accumulators start afresh, and the closing totals and the number are staged (R178, R180, R181; what a duty or
a compartment without a section adds to the closing totals: log 75). -/
def ShiftClosed (cause : CloseCause) (n : Half) (a b : Station) : Prop :=
  let peers := if cause = .interrupted then [] else a.lpc.live
  let atOnce := peers = [] ∨ a.lpc.state ≠ .up
  let feed := (List.finRange 2).filterMap fun i => if a.cfg.feeds[i].isSome then some (i, a.sru.acc.feed[i]) else none
  let comps := (List.finRange 4).filterMap fun i => if a.cfg.comps[i].isSome then some (i, a.sru.acc.comps[i]) else none
  let report : Report := {
    shift := a.sru.shift, startTime := a.sru.acc.startTime, endTime := a.sru.time, cause := cause,
    interrupted := a.sru.acc.interrupted, complete := decide atOnce, saturated := a.sru.acc.saturated, feed := feed,
    burner := if a.burnerDuty then some a.sru.acc.burner else none,
    cooler := if a.coolerDuty then some (comps, a.sru.acc.fanSeconds) else none,
    alarm := a.sru.acc.alarm, loop := a.sru.acc.loop,
    floor := peers.map fun i =>
      { station := i, mark := if atOnce then .absent else .outstanding, heat := 0, firing := 0, strokes := 0, trips := 0 } }
  let closing : ClosingPart := {
    shift := a.sru.shift
    heat := BitVec.ofNat 32 (min 4294967295 (feed.map fun e => e.2.heat).sum)
    firing := BitVec.ofNat 32 (if a.burnerDuty then a.sru.acc.burner.firingSeconds else 0)
    strokes := BitVec.ofNat 32 (if a.coolerDuty then min 4294967295 (comps.map fun e => e.2.strokes).sum else 0)
    trips := BitVec.ofNat 16 (if a.burnerDuty then a.sru.acc.burner.trips else 0) }
  let before := match a.sru.collecting with
    | some r => a.sru.ring.dropLast ++ [r.completed]
    | none => a.sru.ring
  b = { a with
    sru := { a.sru with
      ring := before.drop (before.length - 7) ++ [report], acc := .opened a.sru.time a.sru.lastLength
      shift := n, unresolved := false, arrivals := 0 }
    lpc := { a.lpc with staging := { a.lpc.staging with closing := some closing, openShift := some n } }
    ppt := { a.ppt with events :=
      if a.sru.collecting.isSome ∨ atOnce then a.ppt.events ||| 2 else a.ppt.events } }

/-! ## The ring -/

/-! ## What the blocks read of the floor and of their settings -/

/-- The figures that a station takes from the floor as it stands: the images in view, those of the live set and, once it is SEEN,
the own one, in station order; of each letter its burner's station, whether it is alight, its demand and its channels; trip
requests, heat and coolers (R93, R102, R117). -/
structure FloorRead (d : Station) : Prop where
  view : ∀ (i : Fin 16) (g : Image), (i, g) ∈ d.inView ↔
    (i ∈ d.lpc.live ∨ (i = d.own ∧ d.lpc.floor[i].seen = true)) ∧ d.lpc.floor[i].image = some g
  order : (d.inView.map fun e => e.1).Pairwise fun i j => i < j
  station : ∀ (x : BurnerLetter) (i : Fin 16) (g : Image) (p : BurnerPart), d.burnerStation x = some (i, g, p) ↔
    (i, g) ∈ d.inView ∧ g.burner = some p ∧ p.letter = x ∧
      ∀ (j : Fin 16) (h : Image) (q : BurnerPart), (j, h) ∈ d.inView → h.burner = some q → q.letter = x → i ≤ j
  alight : ∀ x : BurnerLetter, d.alight x = true ↔
    ∃ i g p, d.burnerStation x = some (i, g, p) ∧ (p.state = .mainTrial ∨ p.state = .firing)
  firing : d.aFiring = true ↔ ∃ i g p, d.burnerStation .a = some (i, g, p) ∧ p.state = .firing
  demand : ∀ x : BurnerLetter, (d.alight x = false → d.demandOf x = 0) ∧
    ∀ i g p, d.alight x = true → d.burnerStation x = some (i, g, p) → d.demandOf x = p.demand.toNat
  request : ∀ (i : Fin 16) (g : Image), d.tripInView = some (i, g) ↔
    (i, g) ∈ d.inView ∧ g.tripRequest = true ∧ ∀ (j : Fin 16) (h : Image), (j, h) ∈ d.inView → h.tripRequest = true → i ≤ j
  channels : ∀ x : BurnerLetter, d.feedInView x =
    d.inView.flatMap fun e => ((e.2.feed.getD []).filter fun f => f.letter = x).map fun f => (e.1, f)
  available : ∀ x : BurnerLetter,
    d.available x = (d.feedInView x).filter fun e => e.2.state = .ready ∨ e.2.state = .running
  delivered : ∀ x : BurnerLetter, d.deliveredHeat x = ((d.feedInView x).map fun e => e.2.delivered.toNat).sum
  cooler : d.coolerRunning = true ↔
    ∃ e ∈ d.inView, ∃ c, e.2.cooler = some c ∧ (c.state = .running ∨ c.state = .degraded)

/-- The settings and lines that the blocks go by: the loaded sections, the duties they give, and the first line or channel assigned
to a function and instance (R56, R70, R72, R115, R127, R193). Pilot valve, main fuel release and igniter have one instance each, as
have the lines whose state is asked for. -/
structure SettingsRead (d : Station) : Prop where
  own : ∀ n, d.ppt.cfg.station = some n → 1 ≤ n → n ≤ 16 → d.own.val + 1 = n
  loop : ∀ l, d.ppt.cfg.loop = some l → d.loopCfg = l
  shift : ∀ l, d.ppt.cfg.shift = some l → d.boundaries = l
  service : ∀ c, d.ppt.cfg.service = some c → d.serviceCfg = c
  flood : ∀ c, d.ppt.cfg.flood = some c → d.floodCfg = c
  duties : (d.burnerDuty = true ↔ d.ppt.cfg.burner ≠ none) ∧ (d.feedDuty = true ↔ ∃ i : Fin 2, d.ppt.cfg.feeds[i] ≠ none) ∧
    (d.coolerDuty = true ↔ ∃ i : Fin 4, d.ppt.cfg.comps[i] ≠ none)
  outputs : ∀ (kind : OutKind) (fn : OutFn) (inst : Nat) (i : Fin 16),
    let sits := fun j : Fin 16 => ∃ c, d.dou.lines[j].cfg = some c ∧ c.kind = kind ∧ c.fn = fn ∧
      (c.inst = inst ∨ fn = .pilotValve ∨ fn = .mainFuelRelease ∨ fn = .igniter)
    d.findOut kind fn inst = some i ↔ sits i ∧ ∀ j, j < i → ¬ sits j
  channels : ∀ (fn : ChannelFn) (inst : Nat) (i : Fin 8),
    let sits := fun j : Fin 8 => ∃ c, d.ppt.cfg.channels[j] = some c ∧ c.fn = fn ∧ c.inst = inst
    d.findChannel fn inst = some i ↔ sits i ∧ ∀ j, j < i → ¬ sits j
  lines : ∀ fn : LineFn, fn = .airFlowProven ∨ fn = .idFanRunning ∨ fn = .estop →
    let sits := fun j : Fin 12 => ∃ c, d.ppt.cfg.lines[j] = some c ∧ c.fn = fn
    (d.lineActive fn = true ↔ ∃ i, sits i ∧ (∀ j, j < i → ¬ sits j) ∧ d.piu.lines[i].active = true)
  turned : ∀ ch : Fin 2, d.turnsBack ch = true ↔
    ∃ i : Fin 8, d.findChannel .encoder (ch.val + 1) = some i ∧ d.piu.channels[i].direction = .reverse
  weigher : ∀ ch : Fin 2, d.hasWeigher ch = true ↔ d.findChannel .weigher (ch.val + 1) ≠ none

/-- The cooler part as the compartments give it: a state, a count and a throughput of those that cycle (R148). -/
structure CoolerRead (g : Gcc) : Prop where
  cycling :
    let cycles := fun i : Fin 4 => g.comps[i].cfg ≠ none ∧ g.comps[i].state ≠ .stopped ∧ g.comps[i].state ≠ .fault
    g.part.cycling = BitVec.ofNat 8 ((List.finRange 4).filter fun i => cycles i).length
  state :
    let cycles := ∃ i : Fin 4, g.comps[i].cfg ≠ none ∧ g.comps[i].state ≠ .stopped ∧ g.comps[i].state ≠ .fault
    let faults := ∃ i : Fin 4, g.comps[i].cfg ≠ none ∧ g.comps[i].state = .fault
    (¬ cycles → ¬ faults → g.part.state = .stopped) ∧ (cycles → ¬ faults → g.part.state = .running) ∧
    (cycles → faults → g.part.state = .degraded) ∧ (¬ cycles → faults → g.part.state = .fault)
  throughput : g.part.throughput = BitVec.ofNat 16 (min 65535 ((List.finRange 4).map fun i =>
    match g.comps[i].cfg with
    | some k => if g.comps[i].state = .stopped ∨ g.comps[i].state = .fault then 0
        else g.comps[i].shadow * k.capacity * 6 / 1000
    | none => 0).sum)

/-- The raw bytes of a slot position in a train's body; a position that the body does not reach has none (log 11). -/
def rawSlot (body : List Byte) (i : Fin 16) : List Byte := (splitSlots 16 (body.drop 14)).1.getD i.val []

/-- A slot position as it goes on from a station that takes notices: one that fails or is empty as it came, a passing one with the
station's mark in every record, its bytes made anew where that changes one (R6, R51). -/
def onwardSlot (own i : Fin 16) (raw : List Byte) : List Byte :=
  match viewSlot i raw with
  | .pass p =>
    if (p.notices.all fun n : Notice => n.mask &&& ((1 : Half) <<< own.val) != 0) = true then raw
    else
      let q := { p with notices := p.notices.map fun n : Notice => { n with mask := n.mask ||| ((1 : Half) <<< own.val) } }
      withCheck (BitVec.ofNat 8 q.bytes.length :: q.bytes)
  | _ => raw

/-- The returned own slot shows no second writer: no write is looked for, or sequence and signature are those of the publish copy
(R18). -/
def NoDuplicate (body : List Byte) (a : Station) : Prop :=
  ∀ g, a.lpc.prevWrite = true → viewSlot a.own (rawSlot body a.own) = .pass g →
    g.seq = a.lpc.floor[a.own].seq ∧ ∀ p, a.lpc.floor[a.own].image = some p → g.sig = p.sig

/-- A train has been handled in full in UP, without the origin flag: its notices are taken, and it goes on with its head and its
trailing bytes as they came, the own slot written anew and the own mark in every passing peer slot (R10, R11, R51, R52). -/
structure TrainWritten (body : List Byte) (a b : Station) : Prop where
  up : b.lpc.state = .up ∧ b.lpc.origin = false ∧ b.lpc.prevWrite = true
  refreshed : [.bsqFloorRefresh, .fdcFloorRefresh, .gccFloorRefresh, .almFloorRefresh, .sruFloorRefresh] <:+ b.signals
  taken : ∀ i : Fin 16, i ≠ a.own → b.lpc.taken[i] =
    match viewSlot i (rawSlot body i) with
    | .pass g => g.notices.map (·.seq)
    | _ => a.lpc.taken[i]
  written : ∃ (g : Image) (slots : List (List Byte)),
    b.lpc.floor[a.own] = { image := some g, seq := g.seq, age := 0, seen := true } ∧
    g.station = stationByte a.own ∧ g.seq = a.lpc.floor[a.own].seq + 1 ∧
    g.burner = b.lpc.staging.burner ∧ g.feed = b.lpc.staging.feed ∧ g.cooler = b.lpc.staging.cooler ∧
    b.loopOut = [1 :: body.take 14 ++ slots.flatten ++ (splitSlots 16 (body.drop 14)).2] ∧ slots.length = 16 ∧
    slots.getD a.own.val [] = withCheck (BitVec.ofNat 8 g.bytes.length :: g.bytes) ∧
    ∀ i : Fin 16, i ≠ a.own → slots.getD i.val [] = onwardSlot a.own i (rawSlot body i)

/-- A command that brings a train counts one train seen (R21). -/
def trainCounted (cmd : Instr) (d : Station) : Station :=
  let x := d.take cmd
  { x with lpc := { x.lpc with counters := { x.lpc.counters with trainsSeen := x.lpc.counters.trainsSeen.bump } } }

/-- The head of a train taken: a failed one counts a head error; a good one becomes the last head, starts the watch, is judged by its
signature and, in UP without the origin flag, gives the floor time and the open shift (R4, R174). -/
def headTaken (head : Option Head) (d : Station) : Station :=
  match head with
  | none => { d with lpc := { d.lpc with counters := { d.lpc.counters with headErrors := d.lpc.counters.headErrors.bump } } }
  | some h =>
    let x := Station.judgeConfig h.sig { d with lpc := { d.lpc with
      lastHead := some h
      watch := if d.lpc.state = .joining ∨ d.lpc.state = .up then
        some (d.now + d.loopCfg.watchMultiple * d.loopCfg.cycle * 1000) else d.lpc.watch } }
    if d.lpc.state = .up ∧ d.lpc.origin = false then x.takeHead h.time h.shift else x

/-- An image is fresh against a floor image entry (R7). -/
def isFresh (g : Image) (e : FloorEntry) : Bool := !e.seen || g.seq != e.seq

/-- One peer slot position taken: the entry moves by the table of R7, a failed slot counts a slot error, and the records of a passing one
are taken with its freshness and whether the entry was live before (R6, R7, R51, R52). -/
def peerTaken (body : List Byte) (d : Station) (i : Fin 16) : Station :=
  let e := d.lpc.floor[i]
  let older := if e.seen then { e with age := min 255 (e.age + 1) } else e
  let entry := fun x : FloorEntry => vecModify d.lpc.floor i fun _ => x
  match viewSlot i (rawSlot body i) with
  | .empty => { d with lpc := { d.lpc with floor := entry older } }
  | .fail => { d with lpc := { d.lpc with
      floor := entry older, counters := { d.lpc.counters with slotErrors := d.lpc.counters.slotErrors.bump } } }
  | .pass g => Station.takeNotices i g (isFresh g e) (e.age < 3) { d with lpc := { d.lpc with
      floor := entry (if isFresh g e then { image := some g, seq := g.seq, age := 0, seen := true } else older) } }

/-- The peer slot positions taken in slot order, and the live set recomputed (R9, R10). -/
def peersTaken (body : List Byte) (d : Station) : Station :=
  let x := ((List.finRange 16).filter fun i => i ≠ d.own).foldl (peerTaken body) d
  { x with lpc := { x.lpc with live := (List.finRange 16).filter fun i => i ≠ d.own ∧ x.lpc.floor[i].age < 3 } }

/-- The records that the own slot came back with; a failed or empty one has none (R46). -/
def ownRecords (body : List Byte) (own : Fin 16) : List Notice :=
  match viewSlot own (rawSlot body own) with
  | .pass g => g.notices
  | _ => []

/-- The own slot position looked at: a failed one counts a slot error, and with the previous write mark the queue is judged by the records
that came back, every loss is handed on, and a full queue that has room again signals place free (R6, R44, R46, R47, R49). -/
def ownJudged (body : List Byte) (d : Station) : Station :=
  let d := if viewSlot d.own (rawSlot body d.own) = .fail then
      { d with lpc := { d.lpc with counters := { d.lpc.counters with slotErrors := d.lpc.counters.slotErrors.bump } } }
    else d
  let records := ownRecords body d.own
  let x := (d.lpc.losses records).foldl (fun d b => d.loseNotice b) { d with lpc := d.lpc.judged records }
  if d.lpc.prevWrite = false then d
  else if 16 ≤ d.lpc.queue.length ∧ (d.lpc.judged records).queue.length < 16 then
    { x with signals := x.signals ++ [.almPlaceFree] }
  else x

/-- A train taken in UP, up to the writing of the own slot: head, peer slots, own slot (R10). -/
def trainTaken (body : List Byte) (d : Station) : Station :=
  ownJudged body (peersTaken body (headTaken (readHead (body.take 14)) d))

/-- The notice queue as a write of the own slot places it: each of the first four entries that is not yet placed takes the next sequence
number and begins its rotations (R41, R45). -/
def placedQueue (l : Lpc) : List QueueEntry :=
  l.queue.mapIdx fun k e =>
    if k < 4 ∧ e.placed = false then
      { e with
        placed := true, rotations := 0
        seq := l.nextSeq + BitVec.ofNat 8 ((l.queue.take k).filter fun x => !x.placed).length }
    else e

/-- The own image: the parts of the staging record and the records of the first four notices, the own mark in each (R11, R45). -/
def ownImage (d : Station) : Image :=
  let g := d.lpc.staging
  let trip := g.alarm.bind fun a => a.trip
  { station := stationByte d.own, seq := d.lpc.floor[d.own].seq + 1
    sig := (g.panel.map fun p => p.sig).getD 0, panelPresent := (g.panel.map fun p => p.present).getD false
    epoch := (g.alarm.map fun a => a.epoch).getD 0, tripRequest := trip.isSome
    firstPoint := ((trip.bind fun t => t.point).map fun i => BitVec.ofNat 8 i.val).getD 255
    firstKind := trip.map fun t => t.kind, openShift := g.openShift.getD 0
    burner := g.burner, feed := g.feed, cooler := g.cooler
    summary := g.summary.getD { unacked := 0, highest := .none, flood := 0 }
    closing := g.closing.getD { shift := 0, heat := 0, firing := 0, strokes := 0, trips := 0 }
    notices := ((placedQueue d.lpc).take 4).map fun e =>
      { sender := stationByte d.own, seq := e.seq, mask := e.mask ||| ((1 : Half) <<< d.own.val), body := e.body } }

/-- The own slot written: the notices are placed, and the image is the publish copy (R11, R45). -/
def ownWritten (d : Station) : Station :=
  { d with lpc := { d.lpc with
    queue := placedQueue d.lpc
    nextSeq := d.lpc.nextSeq + BitVec.ofNat 8 ((d.lpc.queue.take 4).filter fun x => !x.placed).length
    prevWrite := true
    floor := vecModify d.lpc.floor d.own fun _ =>
      { image := some (ownImage d), seq := (ownImage d).seq, age := 0, seen := true } } }

/-- The floor times of the TIME SET notices that the next write of the own slot places for the first time (R45). -/
def timesPlaced (l : Lpc) : List Word :=
  (l.queue.take 4).filterMap fun e =>
    match e.body with
    | .timeSet t => if e.placed then none else some t
    | _ => none

/-- A train released: the open shift converges, the head is built, the own slot is written between the returned peer slots, the release
timer starts with the return awaited, and the TIME SET notices first placed are applied (R14, R15, R45, R175; log 38). -/
def released (d : Station) : Station :=
  let c := d.converge
  let head : Head := {
    origin := stationByte c.own, seq := match c.lpc.lastHead with | some h => h.seq + 1 | none => 0
    time := c.sru.time, shift := c.sru.shift, size := BitVec.ofNat 8 c.lpc.loopSize, sig := c.ppt.sig.getD 0 }
  let slots := (List.finRange 16).map fun i =>
    if i = c.own then withCheck (BitVec.ofNat 8 (ownImage c).bytes.length :: (ownImage c).bytes)
    else c.lpc.returned.getD i.val [0]
  let w := ownWritten c
  (timesPlaced c.lpc).foldl (fun d t => d.applyTimeSet t) { w with
    lpc := { w.lpc with
      lastHead := some head, release := .running (c.now + c.loopCfg.cycle * 1000), awaiting := true }
    loopOut := w.loopOut ++ [head.bytes ++ slots.flatten] }

/-- The signals that the floor image is refreshed, to the five jobs (R10). -/
def refreshSignals : List Instr := [.bsqFloorRefresh, .fdcFloorRefresh, .gccFloorRefresh, .almFloorRefresh, .sruFloorRefresh]

/-- A train handled in full as a member: it is taken, the own slot is written, it goes on, and the refresh is signalled (R10). -/
def ArrivalWritten (body : List Byte) (a b : Station) : Prop :=
  b = { ownWritten (trainTaken body a) with
    loopOut := b.loopOut, signals := (trainTaken body a).signals ++ refreshSignals }

/-- The new records of a train, each with its slot: those of fresh peer slots that the taken list of a live peer does not hold, in slot
and list order (R52). -/
def newNotices (body : List Byte) (d : Station) : List (Fin 16 × NoticeBody) :=
  ((List.finRange 16).filter fun i => i ≠ d.own).flatMap fun i =>
    let e := d.lpc.floor[i]
    match viewSlot i (rawSlot body i) with
    | .pass g =>
      if isFresh g e then
        (g.notices.filter fun n => !(e.age < 3 && d.lpc.taken[i].contains n.seq)).map fun n => (i, n.body)
      else []
    | _ => []

/-! ## Input lines -/

/-- A line change is delivered by the line's function: an ESTOP to five receivers with its condition, an INDEX edge to its enabled pair, a
GENERAL line to the Alarm Unit (R66, R70). The first index event carries revolution counts 0 (log 41). -/
def LineDelivered (line : Fin 12) (k : LineCfg) (level : Bool) (a b : Station) : Prop :=
  let told := fun (out : List Instr) => b = { a with signals := a.signals ++ out }
  (k.fn = .airFlowProven → told [.bsqAirFlowChange level]) ∧
  (k.fn = .idFanRunning → told [.bsqIdFanChange level]) ∧
  (k.fn = .endForward → told [.gccEndForwardChange (Fin.ofNat 4 (k.inst - 1)) level]) ∧
  (k.fn = .endReturn → told [.gccEndReturnChange (Fin.ofNat 4 (k.inst - 1)) level]) ∧
  (k.fn = .estop →
    let x := { a with
      signals := a.signals ++
        [if level then .douForceStart else .douForceEnd, .bsqEstopChange level, .fdcEstopChange level,
         .gccEstopChange level] }
    b.condition .estop 0 = level ∧ Reported .estop 0 level x b ∧ AlarmsOnly x b) ∧
  (k.fn = .general →
    b.condition .inputLine line.val = level ∧ Reported .inputLine line.val level a b ∧ AlarmsOnly a b) ∧
  (k.fn = .index → level = false → b = a) ∧
  (k.fn = .index →
    let base := Fin.ofNat 8 k.inst
    a.cfg.channels[base] = none ∨ a.piu.channels[base].phase = .disabled → b = a) ∧
  (k.fn = .index → level = true → ∀ pair : ChannelCfg,
    let base := Fin.ofNat 8 k.inst
    let c := a.piu.channels[base]
    let counts := c.position.toInt.natAbs
    a.cfg.channels[base] = some pair → c.phase ≠ .disabled →
    b = { a with
      piu := { a.piu with channels := vecModify a.piu.channels base fun _ =>
        { c with
          position := 0, events := min 4294967295 (c.events + 1), indexed := true
          counted := c.counted.map fun u => { u with position := 0, events := min 4294967295 (u.events + 1) }
          revCounts := if c.indexed then counts else c.revCounts
          valid := c.indexed || c.valid } }
      signals := a.signals ++ [.fdcIndex (Fin.ofNat 2 (pair.inst - 1)) (!c.indexed) (if c.indexed then counts else 0)] })

/-! ## Feed sharing -/

/-- What a refresh in UP makes of a configured channel with an active value and the capacities the sharing uses: its state by its
burner, its target heat, and where it runs its mass goal, target rate and fine reference; its FEEDER line, the stall time of its pair, its
timers and its conditions as the state it enters gives them, and the feed part written (R114, R116, R118 to R122, R125 to R127, R131,
R133, R134). -/
def RefreshGives (ch : Fin 2) (k : FeedCfg) (cv : Nat) (capacity : Fin 16 × FeedEntry → Nat) (a b : Station) : Prop :=
  let c := a.fdc.channels[ch]
  let t := b.fdc.channels[ch]
  let alight := a.alight k.letter
  let shares := shareHeat (a.demandOf k.letter) ((a.available k.letter).map fun e => (capacity e, e.2.weight.toNat))
  let own := (((a.available k.letter).zip shares).find? fun p =>
    p.1.1 == a.own && p.1.2.channel.toNat == ch.val + 1).map (·.2)
  let st : FeedState := match c.state with
    | .ready => if alight then .running else .ready
    | .running => if alight = false then .ready else if a.turnsBack ch then .fault else .running
    | .held => if c.reEvaluate = false then .held else if alight then .running else .ready
    | x => x
  let stopped : Bool := (c.state == .running || c.state == .held) && (st == .ready || st == .fault)
  let entered : Bool := c.state != .running && st == .running
  let begun : Bool := entered && c.state == .ready
  let judged : Bool := c.state == .held && c.reEvaluate
  let from0 := if c.state = .ready then 0 else c.targetRate
  let goal := min k.maxRate (own.getD 0 * 3600 / cv)
  let step := max 1 (k.rampRate * a.loopCfg.cycle / 1000)
  let rate := if from0 ≤ goal then min goal (from0 + step) else max goal (from0 - step)
  let fine := min k.maxFine (rate * 100000 / (k.ratePerFine * c.trim))
  let seen := c.rateSeen && !begun
  let basis := if a.hasWeigher ch && !c.openLoop && seen then c.measured else c.activeFine * k.ratePerFine * c.trim / 100000
  t.state = st ∧ t.targetHeat = (if st = .ready ∨ st = .running then own.getD 0 else 0) ∧
  (st = .running → t.massGoal = goal ∧ t.targetRate = rate ∧ t.lastFine = fine) ∧
  t = { c with
    state := st, targetHeat := t.targetHeat, cv := t.cv, cvPreload := t.cvPreload, capacity := t.capacity
    cause := if stopped then (if st = .fault then .feederReverse else .none) else c.cause
    massGoal := if st = .running then goal else if stopped then 0 else c.massGoal
    targetRate := if st = .running then rate else if stopped then 0 else c.targetRate
    lastFine := if st = .running then fine else if stopped then 0 else c.lastFine
    rateSeen := seen, openLoop := c.openLoop && !stopped
    delivered :=
      if stopped then 0
      else if entered then basis * cv / 3600
      else if c.cvPreload.isSome then (if c.state = .running ∨ c.state = .held then basis * cv / 3600 else 0)
      else c.delivered
    runDown := c.runDown && !stopped && !judged, reEvaluate := c.reEvaluate && !stopped && !judged
    runDownTimer := if stopped || judged then none else c.runDownTimer
    runningSecond := if begun then some (a.now + 1000000) else if stopped then none else c.runningSecond } ∧
  (∀ i : Fin 16, a.findOut .reference .feeder (ch.val + 1) = some i →
    (stopped = true → b.dou.lines[i] = feederZero a.now a.dou.lines[i]) ∧
    (st = .running → fine ≠ c.lastFine → b.dou.lines[i].preload = min 4080 fine) ∧
    (st = .running → fine = c.lastFine → b.dou.lines[i] = a.dou.lines[i]) ∧
    (stopped = false → st ≠ .running → b.dou.lines[i] = a.dou.lines[i])) ∧
  (∀ i : Fin 8, a.findChannel .encoder (ch.val + 1) = some i → b.piu.channels[i] =
    if stopped then stallWritten a.now 0 a.piu.channels[i]
    else if entered then stallWritten a.now k.stall a.piu.channels[i]
    else a.piu.channels[i]) ∧
  (stopped = true →
    b.condition .weigherSilent (ch.val + 1) = false ∧ b.condition .feederStall (ch.val + 1) = false ∧
    b.condition .feederReverse (ch.val + 1) = (st == .fault)) ∧
  (stopped = true → st = .fault → .sruContribution (.feedFault ch) ∈ b.signals ∧ b.ppt.events &&& 16 = 16) ∧
  (a.feedDuty = true → b.lpc.staging.feed = some ((List.finRange 2).filterMap fun i => (b.fdc.channels[i]).entry i))

/-! ## Alarm passes -/

/-- A point waits for a resubmission pass: announce pending, not shelved, and not of class LOW in FLOOD (R160, R166). -/
def Station.awaitsPass (d : Station) (i : Fin 32) : Bool :=
  match d.alm.points[i].cfg with
  | none => false
  | some c => d.alm.points[i].pending && d.alm.points[i].shelf.isNone && !(c.cls == .low && d.alm.flood)

/-- The notice of a configured point as it stands (R160). -/
def Station.stateNotice (d : Station) (i : Fin 32) : Option NoticeBody :=
  d.alm.points[i].cfg.map fun c => .alarmState (d.alm.points[i].body i c)

/-- A resubmission pass has been made: the points that wait for it are taken by index up to the first refusal. Each one taken is no
longer pending and its state is announced; the notice of one whose announced state was another has been submitted and stands in the
queue (R43, R160). -/
structure Resubmitted (a b : Station) : Prop where
  pass : ∃ taken left, (List.finRange 32).filter a.awaitsPass = taken ++ left ∧
    (∀ i : Fin 32, b.alm.points[i] = if i ∈ taken then
      { a.alm.points[i] with pending := false, announced := .known a.alm.points[i].state } else a.alm.points[i]) ∧
    (let sent := taken.filter fun i => a.alm.points[i].announced ≠ .known a.alm.points[i].state
     b.lpc = sent.foldl (fun l i => match a.stateNotice i with | some n => l.submitted n | none => l) a.lpc ∧
     ∀ i ∈ sent, ∃ e ∈ b.lpc.queue, some e.body = a.stateNotice i) ∧
    (∀ i ∈ left.head?, ∀ n, a.stateNotice i = some n → b.lpc.accepts n = false) ∧
    (left ≠ [] → 16 ≤ b.lpc.queue.length)
  rest : b = { a with alm := { a.alm with points := b.alm.points }, lpc := b.lpc }

/-! ## Response bodies -/

/-- The code of a value of an enumeration: its place in the list of the values (R201). -/
def place {α : Type} [DecidableEq α] (order : List α) (x : α) : Byte := BitVec.ofNat 8 (order.idxOf x)

/-- One step of the cyclic code, generator x^16 + x^12 + x^5 + 1: the code moves one place up, and takes the generator where the bit
that leaves it differs from the bit that comes (chapter 12). -/
def codeBit (c : Half) (bit : Bool) : Half := if c.msb = bit then c <<< 1 else (c <<< 1) ^^^ 0x1021

/-- The check code over bytes in order, each most significant bit first, from FFFF hexadecimal with no final inversion (chapter 12). -/
def codeOf (bytes : List Byte) : Half :=
  (bytes.flatMap fun b => (List.finRange 8).map fun i => b.getMsbD i.val).foldl codeBit 0xFFFF

/-- How a response body, a slot image and a report image write their fields: bytes in big-endian order, figures without a width of their own
in four bytes, marks before what may be none, counts before lists, masks of stations, and the codes of Table 12-5 and R201 (a figure too
wide for its field: log 20; what no table codes: log 21), and the check code after them. -/
structure FieldsWritten : Prop where
  check : ∀ bytes : List Byte, checkCode bytes = codeOf bytes ∧ withCheck bytes = bytes ++ byte16 (codeOf bytes)
  halves : ∀ h : Half, byte16 h = [BitVec.ofNat 8 (h.toNat / 256), BitVec.ofNat 8 h.toNat]
  words : ∀ w : Word, byte32 w = [BitVec.ofNat 8 (w.toNat / 16777216), BitVec.ofNat 8 (w.toNat / 65536),
    BitVec.ofNat 8 (w.toNat / 256), BitVec.ofNat 8 w.toNat]
  figures : ∀ n : Nat, field8 n = [BitVec.ofNat 8 n] ∧ field16 n = byte16 (BitVec.ofNat 16 n) ∧
    (n ≤ 4294967295 → field32 n = byte32 (BitVec.ofNat 32 n))
  marks : flag false = [0] ∧ flag true = [1]
  options : ∀ (α : Type) (f : α → List Byte) (x : α), optional f none = [0] ∧ optional f (some x) = 1 :: f x
  lists : ∀ (α : Type) (f : α → List Byte) (l : List α), listed f l = BitVec.ofNat 8 l.length :: l.flatMap f
  sets : ∀ l : List (Fin 16), ∃ m : Half, stationSet l = byte16 m ∧ ∀ i : Fin 16, m.getLsbD i.val = decide (i ∈ l)
  timers : ∀ (d : Station) (e : Nat), d.left none = [0] ∧ d.left (some e) = 1 :: field32 ((e - d.now) / 1000)
  absent : pointByte none = [255] ∧ stationField none = [0] ∧
    ∀ n : Nat, pointByte (some n) = [BitVec.ofNat 8 n] ∧ stationField (some n) = [BitVec.ofNat 8 n]
  letters : ∀ x : BurnerLetter, letterCode x = place [.a, .b] x + 1
  burners : ∀ x : BsqState, seqCode x = place [.off, .purge, .pilotTrial, .mainTrial, .firing, .postPurge, .lockout] x
  feeds : ∀ x : FeedState, feedCode x = place [.off, .ready, .running, .held, .fault] x
  coolers : ∀ x : CoolerState, coolerCode x = place [.stopped, .running, .degraded, .fault] x
  alarms : ∀ x : AlarmState, alarmCode x = place [.normal, .raisedUnacked, .raisedAcked, .returnedUnacked] x
  announced : ∀ x : Announced, x.code = match x with
    | .known s => alarmCode s
    | .unknown => 4
  classes : ∀ x : AlarmClass, classCode x = place [.none, .low, .high, .trip] x
  kinds : ∀ x : Option CondKind, kindCode x = place
    [none, some .flameFail, some .ignitionFail, some .mainFlameFail, some .purgeAirLost, some .airFlowLost, some .estop,
     some .feederStall, some .feederReverse, some .weigherSilent, some .heatShortfall, some .coolerLoss,
     some .grateStrokeTimeout, some .limitConflict, some .pressureHigh, some .pressureLow, some .loopLost,
     some .duplicateStation, some .configMismatch, some .noticeLoss, some .panelAbsent, some .inputLine] x
  causes : ∀ x : CauseKind, causeCode x = match x with
    | .flameFail => 1
    | .ignitionFail => 2
    | .mainFlameFail => 3
    | .purgeAirLost => 4
    | .airFlowLost => 5
    | .estop => 6
    | .coolerLoss => 11
    | .loopLost => 16
    | .tripRequest => 22
    | .mainBurnerLost => 23
  firstOuts : ∀ (own : Option (Fin 32)) (kind : CondKind) (station point : Option Nat) (peerKind : Option CondKind),
    (FirstOut.localRef own kind).bytes = [0] ++ [kindCode (some kind)] ++ pointByte (own.map fun i => i.val) ∧
    (FirstOut.peer station point peerKind).bytes = [1] ++ stationField station ++ pointByte point ++ [kindCode peerKind]
  stops : ∀ x : StopReason, x.code = match x with
    | .stop => 0
    | .lapse => 1
    | .loop => 2
    | .tripRequest => 7
    | .idFan => 8
    | .noFeed => 9
    | .noCooler => 10
    | .mainBurner => 11

/-- A station image and its notices as bytes (Tables 12-2 and 12-3), and a report's image (Table 12-7). -/
structure ImagesWritten : Prop where
  alarm : ∀ b : AlarmBody, b.bytes = [b.point] ++ [b.occurrence] ++ [alarmCode b.state] ++ [classCode b.cls] ++
    [kindCode b.kind] ++ byte32 b.raiseTime ++ [b.firstOut]
  notice : ∀ n : Notice, n.bytes =
    let head := fun code : Byte => [code] ++ [n.sender] ++ [n.seq] ++ byte16 n.mask
    match n.body with
    | .alarmState b => head 1 ++ b.bytes
    | .ackRequest target point occurrence => head 2 ++ [target, point, occurrence]
    | .timeSet time => head 3 ++ byte32 time
  station : ∀ g : Image, g.bytes =
    let bit := fun (b : Bool) (n : Byte) => if b then n else 0
    let flags := bit g.panelPresent 1 ||| bit g.tripRequest 2 ||| bit g.burner.isSome 4 ||| bit g.feed.isSome 8 |||
      bit g.cooler.isSome 16
    [g.station] ++ [g.seq] ++ byte16 g.sig ++ [g.epoch] ++ [flags] ++ [g.firstPoint] ++ [kindCode g.firstKind] ++
      byte16 g.openShift ++
      (match g.burner with
        | some b => [letterCode b.letter] ++ [seqCode b.state] ++ byte32 b.demand
        | none => []) ++
      (match g.feed with
        | some l => listed (fun e : FeedEntry => [e.channel] ++ [letterCode e.letter] ++ [feedCode e.state] ++ [e.weight] ++
            byte32 e.capacity ++ byte32 e.delivered) l
        | none => []) ++
      (match g.cooler with
        | some c => [coolerCode c.state] ++ [c.cycling] ++ byte16 c.throughput
        | none => []) ++
      [g.summary.unacked] ++ [classCode g.summary.highest] ++ [g.summary.flood] ++
      byte16 g.closing.shift ++ byte32 g.closing.heat ++ byte32 g.closing.firing ++ byte32 g.closing.strokes ++
      byte16 g.closing.trips ++ listed Notice.bytes g.notices
  report : ∀ r : Report, r.image =
    let bit := fun (b : Bool) (n : Byte) => if b then n else 0
    let flags := bit r.interrupted 1 ||| bit r.complete 2 ||| bit r.saturated 4 ||| bit r.burner.isSome 8 |||
      bit r.cooler.isSome 16
    byte16 r.shift ++ byte32 r.startTime ++ byte32 r.endTime ++
      [place [.boundary, .advance, .localClose, .interrupted] r.cause + 1] ++ [flags] ++
      listed (fun e : Fin 2 × FeedCounts => field8 (e.1.val + 1) ++ field32 e.2.mass ++ field32 e.2.heat ++
        field32 e.2.revolutions ++ field32 e.2.runningSeconds ++ field16 e.2.faults) r.feed ++
      (match r.burner with
        | some b => field32 b.firingSeconds ++ field16 b.starts ++ field16 b.trips ++
            listed (fun t : TripEntry => byte32 t.time ++ [causeCode t.cause] ++ stationField t.station ++
              pointByte t.point ++ [kindCode t.condition]) b.list
        | none => []) ++
      (match r.cooler with
        | some c => listed (fun e : Fin 4 × CompCounts => field8 (e.1.val + 1) ++ field32 e.2.strokes ++
            field16 e.2.faults) c.1 ++ field32 c.2
        | none => []) ++
      field16 r.alarm.raises ++ field8 r.alarm.peakActive ++ field16 r.alarm.floods ++ field16 r.alarm.noticesLost ++
      field16 r.alarm.acksTooLate ++
      field16 r.loop.trainsMissed ++ field16 r.loop.claimRounds ++ field32 r.loop.notUpSeconds ++
      listed (fun p : PeerTotals => [BitVec.ofNat 8 (p.station.val + 1)] ++
        [place [.outstanding, .collected, .absent] p.mark] ++ byte32 p.heat ++ byte32 p.firing ++ byte32 p.strokes ++
        byte16 p.trips) r.floor

/-- An image that meets the format checks which its bytes leave open (R199). -/
structure ImageFormed (g : Image) : Prop where
  feed : ∀ l, g.feed = some l → l.length = 1 ∨ l.length = 2
  notices : g.notices.length ≤ 4
  senders : ∀ n ∈ g.notices, n.sender = g.station

/-- A slot position as a train carries it whole: the length byte 0, or a length byte with an image of that length and a check code
(Table 12-1). -/
def WholeSlot (p : List Byte) : Prop := p = [0] ∨ ∃ n image, p = n :: image ∧ n ≠ 0 ∧ image.length = n.toNat + 2

/-- How a train is read: the head by Table 12-1, sixteen slot positions that follow one another by their length bytes, and a slot by its
check code, its image and its place (R3, R4, R6, R199). A head or a slot of any other bytes does not pass. A train that ends early leaves
the position it ends in cut, and the later ones without a byte (log 11). -/
structure FramesRead : Prop where
  written : ∀ h : Head, h.bytes = withCheck
    ([1] ++ [h.origin] ++ byte16 h.seq ++ byte32 h.time ++ byte16 h.shift ++ [h.size] ++ byte16 h.sig)
  head : ∀ (l : List Byte) (h : Head), readHead l = some h ↔
    1 :: l = h.bytes ∧ 1 ≤ h.origin.toNat ∧ h.origin.toNat ≤ 16 ∧ 1 ≤ h.size.toNat ∧ h.size.toNat ≤ 16
  slots : ∀ (positions : List (List Byte)) (rest : List Byte), positions.length = 16 → (∀ p ∈ positions, WholeSlot p) →
    splitSlots 16 (positions.flatten ++ rest) = (positions, rest)
  early : ∀ (positions : List (List Byte)) (cut : List Byte), positions.length < 16 → (∀ p ∈ positions, WholeSlot p) →
    (cut = [] ∨ ∃ n image, cut = n :: image ∧ n ≠ 0 ∧ image.length < n.toNat + 2) →
    splitSlots 16 (positions.flatten ++ cut) = (positions ++ cut :: List.replicate (15 - positions.length) [], [])
  empty : ∀ (i : Fin 16) (raw : List Byte), viewSlot i raw = .empty ↔ raw.head? = some 0
  pass : ∀ (i : Fin 16) (raw : List Byte) (g : Image), viewSlot i raw = .pass g ↔
    ImageFormed g ∧ g.station = stationByte i ∧ raw = withCheck (BitVec.ofNat 8 g.bytes.length :: g.bytes)

/-- What the parts of READ STATUS and the records of READ FLOOR, READ BREAK, READ INPUT, READ OUTPUT and READ ALARMS hold, field by field in
the order of their rules (R20, R23, R40, R55, R71, R86, R112, R135, R152, R171, R186, R198; the choices are log 21, 22, 39, 49, 54, 60,
66). -/
structure BodiesHold (d : Station) : Prop where
  panel : d.panelPart =
    let r := d.ppt.cfg
    let loaded : List Bool := [r.station.isSome, r.loop.isSome, r.shift.isSome, r.service.isSome, r.flood.isSome] ++
      (List.finRange 8).map (fun i => r.channels[i].isSome) ++ (List.finRange 12).map (fun i => r.lines[i].isSome) ++
      (List.finRange 16).map (fun i => r.outputs[i].isSome) ++ [r.burner.isSome] ++
      (List.finRange 2).map (fun i => r.feeds[i].isSome) ++ (List.finRange 4).map (fun i => r.comps[i].isSome) ++
      (List.finRange 32).map fun i => r.points[i].isSome
    flag d.ppt.started ++ loaded.flatMap flag ++ optional byte16 d.ppt.sig ++
      [place [.idle, .awaitingFirst, .closed, .openPart] d.ppt.window] ++
      d.left (if d.ppt.window = .closed then d.ppt.openAt else if d.ppt.window = .openPart then d.ppt.periodEnd else none) ++
      flag d.ppt.present ++ flag (d.condition .panelAbsent 0) ++ [d.ppt.events]
  loop : d.loopPart =
    [place [.bypassed, .joining, .up, .listenOnly, .claiming, .deferring, .breakSearch] d.lpc.state] ++
      flag d.lpc.origin ++ stationSet d.lpc.live ++
      optional (fun h : Head => [h.origin] ++ byte16 h.seq ++ byte32 h.time ++ byte16 h.shift ++ [h.size] ++ byte16 h.sig)
        d.lpc.lastHead ++
      [d.lpc.floor[d.own].seq] ++ flag d.lpc.bypass ++ flag (d.condition .configMismatch 0) ++
      flag (d.condition .duplicateStation 0)
  notices : d.noticesPart =
    let inFlight := d.lpc.queue.take 4
    field32 d.lpc.queue.length ++ field32 inFlight.length ++ [d.lpc.nextSeq] ++
      listed (fun e : QueueEntry =>
        (match e.body with | .alarmState _ => [1] | .ackRequest _ _ _ => [2] | .timeSet _ => [3]) ++
          (if e.placed then [1, e.seq] else [0]) ++ byte16 e.mask ++ field32 e.rotations) inFlight ++
      flag (d.condition .noticeLoss 0) ++ optional (fun e => field32 ((e - d.now) / 1000000)) d.lpc.lossHold
  burner : ∀ c : BurnerCfg, d.burnerPart c =
    let b := d.bsq
    let configured := (List.finRange 2).filter fun i => (d.findChannel .flameScanner (i.val + 1)).isSome
    [letterCode c.letter, seqCode b.state] ++ field32 b.demand ++ field32 b.setpoint ++
      field32 (max b.setpoint c.lightOff) ++
      [place [.none, .proving, .proven, .lost] b.monitor.status] ++ field32 b.monitor.proving ++
      listed (fun x : Scanner => field32 x.good ++ field32 x.bad ++ field32 x.lastPeriod ++
        [place [.good, .bad, .noSignal] x.verdict]) (configured.map fun i => b.monitor.scanners[i]) ++
      d.left b.purge ++ d.left b.postPurge ++ d.left b.pilotTrial ++ d.left b.ignition ++ d.left b.mainTrial ++
      d.left b.shortfall ++ d.left b.coolerLoss ++ field32 b.interruptions ++
      optional (fun t : TripRecord => byte32 t.time ++ [seqCode t.state, causeCode t.cause] ++ t.first.bytes) b.trip ++
      optional (fun x : StopRecord => x.reason.code :: byte32 x.time) b.lastStop ++
      d.left b.holds.flameFail ++ d.left b.holds.ignitionFail ++ d.left b.holds.mainFlameFail ++
      d.left b.holds.purgeAirLost ++ d.left b.holds.airFlowLost ++ d.left b.holds.coolerLoss ++
      flag (d.condition .heatShortfall 0) ++ flag (d.condition .coolerLoss 0)
  feed : d.feedPart = listed (fun e : Fin 2 × FeedCfg =>
      let ch := e.1
      let k := e.2
      let c := d.fdc.channels[ch]
      let weigher := (d.findChannel .weigher (ch.val + 1)).isSome
      [feedCode c.state] ++ [place [.none, .feederStall, .feederReverse, .estop] c.cause] ++ [letterCode k.letter] ++
        field8 k.weight ++ field16 c.cv ++ optional field16 c.cvPreload ++ field32 c.capacity ++ field32 c.targetHeat ++
        field32 c.massGoal ++ field32 c.targetRate ++ field32 c.trim ++ field16 c.lastFine ++ field16 c.activeFine ++
        field32 c.measured ++ flag c.rateSeen ++ field8 (if weigher && !c.openLoop && c.rateSeen then 0 else 1) ++
        field32 c.delivered ++ flag c.openLoop ++ flag c.runDown ++ flag c.reEvaluate ++ d.left c.runDownTimer ++
        flag (d.condition .feederStall (ch.val + 1)) ++ flag (d.condition .feederReverse (ch.val + 1)) ++
        flag (d.condition .weigherSilent (ch.val + 1)))
    ((List.finRange 2).filterMap fun ch => (d.fdc.channels[ch]).cfg.map fun k => (ch, k))
  cooler : d.coolerPart =
    let comps := (List.finRange 4).filter fun i => (d.gcc.comps[i]).cfg.isSome
    let fans := (List.finRange 4).filter fun i => (d.findOut .reference .fan (i.val + 1)).isSome
    (match d.lpc.staging.cooler with
      | some p => [coolerCode p.state] ++ [p.cycling] ++ byte16 p.throughput
      | none => []) ++
      optional (fun i : Fin 4 => field8 (i.val + 1)) d.gcc.holder ++
      listed (fun i : Fin 4 => field8 (i.val + 1) ++ field32 ((d.gcc.comps[i]).due.getD 0)) d.gcc.queue ++
      listed (fun i : Fin 4 =>
        let c := d.gcc.comps[i]
        [place [.stopped, .rest, .waiting, .forward, .dwell, .returning, .fault] c.state] ++
          [place [.follow, .minimum, .base] c.mode] ++ field32 c.shadow ++ field32 c.preload ++ field16 c.baseRate ++
          field32 c.pressure ++ flag c.pressureValid ++ optional field32 c.due ++ flag c.stopAtEnd ++ flag c.faultPending ++
          [place [.none, .strokeTimeout, .limitConflict, .estop] c.cause] ++
          optional (fun t : CompTimer × Nat => [place [.forwardLimit, .dwell, .returnLimit] t.1] ++
            field32 ((t.2 - d.now) / 1000)) c.timer) comps ++
      listed (fun i : Fin 4 => flag (d.condition .grateStrokeTimeout (i.val + 1)) ++
        flag (d.condition .limitConflict (i.val + 1))) comps ++
      listed (fun i : Fin 4 => field16 d.gcc.fans[i]) fans ++ flag d.gcc.fanSecond.isSome
  request : d.tripBytes = match d.alm.trip with
    | some t => [1] ++ pointByte (t.point.map (·.val)) ++ [kindCode (some t.kind)]
    | none => [0, 255, 0]
  alarm : d.alarmPart =
    d.tripBytes ++ flag d.alm.flood ++
      (match d.lpc.staging.summary with
        | some g => [g.unacked] ++ [classCode g.highest] ++ [g.flood]
        | none => []) ++ [d.alm.epoch] ++
      listed (fun p : Point => flag p.watched ++ flag p.qualified ++
        d.left (match p.delay with | some (.on e) => some e | some (.off e) => some e | none => none))
        (((List.finRange 32).map fun i => d.alm.points[i]).filter fun p => p.cfg.isSome)
  entry : ∀ (i : Fin 32) (c : PointCfg), d.alm.points[i].cfg = some c → d.alarmEntry i =
    let p := d.alm.points[i]
    field8 i.val ++ [kindCode (some c.kind)] ++ field8 c.inst ++ [classCode c.cls] ++ flag c.latched ++
      [alarmCode p.state] ++ flag p.gone ++ [p.occurrence] ++ byte32 p.raiseTime ++ byte16 p.raiseShift ++
      optional (fun e => field16 ((e - d.now) / 60000000)) p.shelf ++ flag p.pending ++ [p.announced.code] ++
      flag p.firstOut
  mirror : ∀ e : MirrorEntry, e.bytes = [BitVec.ofNat 8 (e.owner.val + 1)] ++ e.body.bytes ++ flag e.silent
  shift : d.shiftPart =
    let r := d.sru
    let outstanding := fun p : Report => (p.floor.filter fun e => e.mark = .outstanding).map fun e => e.station
    byte32 r.time ++ field32 (r.time.toNat % 86400) ++ byte16 r.shift ++ flag (r.shift == 0) ++ byte32 r.acc.startTime ++
      flag r.acc.interrupted ++ flag r.unresolved ++ field32 r.ring.length ++
      optional (fun p : Report => byte16 p.shift) r.ring.getLast? ++
      (match r.ring.getLast? with
        | some p => if p.complete then [0]
            else [1] ++ (byte16 p.shift ++ field32 r.arrivals ++ stationSet (outstanding p))
        | none => [0]) ++
      field32 r.runTotals[0] ++ field32 r.runTotals[1] ++ flag r.acc.saturated ++ flag r.notUp.isSome
  floor : ∀ i : Fin 16, d.floorRecord i =
    let e := d.lpc.floor[i]
    flag e.seen ++ [e.seq] ++ field32 e.age ++ flag (decide (i ∈ d.lpc.live)) ++
      optional Image.bytes (if e.seen then e.image else none)
  recovery : d.breakRecord =
    [place [.bypassed, .joining, .up, .listenOnly, .claiming, .deferring, .breakSearch] d.lpc.state] ++
      optional (fun r : BreakReport => [r.station] ++ field32 r.hops) d.lpc.breakReport ++ optional byte32 d.lpc.loopLost ++
      (match d.lpc.grace with
        | .idle => [0] ++ d.left none
        | .running e => [1] ++ d.left (some e)
        | .expired => [2] ++ d.left none) ++ field8 d.lpc.loopSize
  pair : ∀ pair : Fin 4,
    let lower : Fin 8 := ⟨2 * pair.val, by omega⟩
    let upper : Fin 8 := ⟨2 * pair.val + 1, by omega⟩
    let encoder := fun i : Fin 8 => ∃ k, d.cfg.channels[i] = some k ∧ k.fn = .encoder
    (encoder lower ∧ encoder upper → d.recordChannel lower = lower ∧ d.recordChannel upper = lower) ∧
    (¬ (encoder lower ∧ encoder upper) → d.recordChannel lower = lower ∧ d.recordChannel upper = upper)
  channel : ∀ ch : Fin 8, d.channelRecord ch =
    let c := d.piu.channels[d.recordChannel ch]
    let k := d.cfg.channels[ch]
    [place [.flameScanner, .pressure, .weigher, .encoder, .unassigned] ((k.map fun k => k.fn).getD .unassigned)] ++
      field8 ((k.map fun k => k.inst).getD 0) ++
      optional (fun m : PulseMode => [place [.period, .countWindow, .quadrature] m]) c.mode ++
      [place [.us1, .us8, .us64, .us512] ((k.map fun k => k.tb).getD .us1)] ++
      [place [.disabled, .seeking, .timing, .counting] c.phase] ++ field32 c.lastPeriod ++ field32 c.lastWidth ++
      field32 c.lastTicks ++ field32 c.lastCount ++
      optional field32 (if c.phase = .counting ∧ c.mode = some .countWindow then some c.edges else none) ++
      byte32 (BitVec.ofInt 32 c.position.toInt) ++ [place [.none, .forward, .reverse] c.direction] ++ field32 c.interval ++
      field32 c.revCounts ++ field32 c.phaseErrors ++ field16 c.stall ++ flag c.valid ++ field32 c.events
  line : ∀ i : Fin 12, d.lineRecord i =
    let k := (d.cfg.lines[i]).getD { fn := .unused, inst := 0, activeLow := false, debounce := 0 }
    [place [.airFlowProven, .idFanRunning, .estop, .endForward, .endReturn, .index, .general, .unused] k.fn] ++
      field8 (if k.fn = .general then i.val else k.inst) ++ flag k.activeLow ++ field8 k.debounce ++
      [if d.piu.lines[i].active then 0 else 1] ++ flag d.piu.lines[i].pending.isSome
  output : ∀ i : Fin 16, d.outRecord i =
    let l := d.dou.lines[i]
    let ends := flag l.forced ++ flag l.pin
    let on := [if l.on then 0 else 1]
    match l.cfg with
    | none => [5, 0, 0, 3] ++ ends
    | some k =>
      [place [.reference, .valve, .igniter, .strokeForward, .strokeReturn, .unused] k.kind] ++
        [place [.feeder, .fan, .pilotValve, .mainFuelRelease, .igniter, .compartment] k.fn] ++ field8 k.inst ++
        match k.kind with
        | .reference => [if k.fn = .feeder then 0 else 1] ++ flag k.inverted ++ field16 k.carrier ++ field16 k.interval ++
            field16 l.preload ++ field16 l.active ++ flag l.firstWrite ++ field32 l.position ++ field32 l.step ++ ends
        | .valve => [2] ++ on ++ ends
        | .igniter => [2] ++ [place [.idle, .bursting, .ending] l.burst] ++ flag l.inPulse ++ ends
        | .strokeForward => [1] ++ on ++ field32 l.refusals ++ ends
        | .strokeReturn => [1] ++ on ++ field32 l.refusals ++ ends
        | .unused => [3] ++ ends

/-! ## Configuration -/

/-- A number as a field of one, two or four bytes (R201). -/
def fieldBytes (width n : Nat) : List Byte :=
  match width with
  | 1 => [BitVec.ofNat 8 n]
  | 2 => byte16 (BitVec.ofNat 16 n)
  | _ => byte32 (BitVec.ofNat 32 n)

/-- The code of a section kind (Table 12-8). -/
def kindByte (k : SectionKind) : Byte :=
  place [.station, .loop, .shift, .service, .flood, .inputChannel, .inputLine, .outputLine, .burner, .feedChannel,
    .compartment, .alarmPoint] k + 1

/-- The fields of a section in record order, each with its width and whether its value lies in its range (Tables 4-1, 4-6, 5-1, 6-1, 7-1,
8-1, 9-1 and 11-2, R191, R201; the readings of log 22 and 23). -/
def sectionTable (k : SectionKind) (v : Nat → Nat) : List (Nat × Bool) :=
  let within := fun (width n lo hi : Nat) => (width, decide (lo ≤ v n ∧ v n ≤ hi))
  match k with
  | .station => [within 1 0 1 16]
  | .loop => [within 1 0 10 100, within 1 1 3 10, within 1 2 0 15, within 2 3 20 500, within 1 4 0 30]
  | .shift => [within 1 0 1 4, within 4 1 0 86399,
      (4, decide (if 2 ≤ v 0 then v 1 < v 2 ∧ v 2 ≤ 86399 else v 2 = 0)),
      (4, decide (if 3 ≤ v 0 then v 2 < v 3 ∧ v 3 ≤ 86399 else v 3 = 0)),
      (4, decide (if 4 ≤ v 0 then v 3 < v 4 ∧ v 4 ≤ 86399 else v 4 = 0))]
  | .service => [within 1 0 1 16, within 1 1 0 2]
  | .flood => [within 1 0 4 32, within 1 1 0 31]
  | .inputChannel => [within 1 0 0 4,
      (1, decide ((v 0 = 0 ∨ v 0 = 2 ∨ v 0 = 3 → 1 ≤ v 1 ∧ v 1 ≤ 2) ∧ (v 0 = 1 → 1 ≤ v 1 ∧ v 1 ≤ 4))),
      within 1 2 0 2, within 1 3 0 1, within 1 4 0 3, within 1 5 0 3, within 1 6 1 255, within 1 7 0 1]
  | .inputLine => [within 1 0 0 7,
      (1, decide ((v 0 = 3 ∨ v 0 = 4 → 1 ≤ v 1 ∧ v 1 ≤ 4) ∧ (v 0 = 5 → v 1 = 0 ∨ v 1 = 2 ∨ v 1 = 4 ∨ v 1 = 6))),
      within 1 2 0 1, within 1 3 0 100]
  | .outputLine => [within 1 0 0 5, within 1 1 0 5,
      (1, decide ((v 1 = 0 → 1 ≤ v 2 ∧ v 2 ≤ 2) ∧ (v 1 = 1 ∨ v 1 = 5 → 1 ≤ v 2 ∧ v 2 ≤ 4))),
      within 2 3 100 10000, within 1 4 0 1, within 2 5 10 1000, within 1 6 1 100, within 1 7 1 100]
  | .burner => [within 1 0 1 2, within 4 1 5000 125000, within 4 2 5000 125000, within 1 3 2 8, within 1 4 1 4,
      within 2 5 30 600, within 1 6 5 15, within 1 7 1 15, within 1 8 5 30, within 4 9 1 400000, within 4 10 100 400000,
      within 2 11 1 10000, within 1 12 0 1, within 2 13 0 600, within 1 14 1 50, within 2 15 5 600]
  | .feedChannel => [within 1 0 1 2, within 1 1 0 100, within 2 2 5000 35000, within 2 3 1 60000, within 2 4 1 4080,
      within 4 5 1 100000, within 2 6 1 60000, within 2 7 1 1000, (2, decide (v 8 = 0 ∨ (10 ≤ v 8 ∧ v 8 ≤ 60000)))]
  | .compartment => [within 2 0 20 300, within 2 1 20 300, within 2 2 20 300, within 2 3 0 30000, within 2 4 0 1000,
      within 2 5 0 20000, within 2 6 1 1000, within 2 7 100 30000, within 2 8 0 10000, within 2 9 100 30000,
      within 2 10 1 65535]
  | .alarmPoint => [within 1 0 1 21, within 1 1 0 255, within 1 2 1 3, within 1 3 0 1, within 1 4 0 60, within 1 5 0 60,
      within 2 6 0 30000]

/-- A section's length in bytes: the sum of its field widths (R201). -/
def sectionLength (k : SectionKind) : Nat := ((sectionTable k fun _ => 0).map fun f => f.1).sum

/-- The request that a kind code and a body spell (Tables 12-6 and 12-8). A CONFIGURE body that names a section has that section's length
(R200); no other command is a request. -/
def RequestSpelled (kind : Byte) (body : List Byte) (c : Instr) : Prop :=
  match c with
  | .configure sect inst fields => kind = 1 ∧ body = sect :: inst :: fields ∧
      ∀ k, sect = kindByte k → fields.length = sectionLength k
  | .start => kind = 2 ∧ body = []
  | .service => kind = 3 ∧ body = []
  | .readEvents => kind = 4 ∧ body = []
  | .readResetCause => kind = 5 ∧ body = []
  | .readStatus part => kind = 6 ∧ body = [part]
  | .burnerStart => kind = 7 ∧ body = []
  | .burnerStop => kind = 8 ∧ body = []
  | .lockoutReset => kind = 9 ∧ body = []
  | .setHeatDemand setpoint => kind = 10 ∧ body = byte32 setpoint
  | .feedEnable channel => kind = 11 ∧ body = [channel]
  | .feedDisable channel => kind = 12 ∧ body = [channel]
  | .feedClearFault channel => kind = 13 ∧ body = [channel]
  | .calorificUpdate channel cv => kind = 14 ∧ body = [channel] ++ byte16 cv
  | .coolerEnable comp => kind = 15 ∧ body = [comp]
  | .coolerDisable comp => kind = 16 ∧ body = [comp]
  | .setStrokeBase comp rate => kind = 17 ∧ body = [comp] ++ byte16 rate
  | .grateClearFault comp => kind = 18 ∧ body = [comp]
  | .setFan fan reference => kind = 19 ∧ body = [fan] ++ byte16 reference
  | .ackAlarm station point occurrence => kind = 20 ∧ body = [station, point, occurrence]
  | .shelve point minutes => kind = 21 ∧ body = [point] ++ byte16 minutes
  | .unshelve point => kind = 22 ∧ body = [point]
  | .readAlarms page => kind = 23 ∧ body = [page]
  | .readMirror page => kind = 24 ∧ body = [page]
  | .setFloorTime time => kind = 25 ∧ body = byte32 time
  | .readReport age offset => kind = 26 ∧ body = [age, offset]
  | .readFloor station => kind = 27 ∧ body = [station]
  | .readCounters => kind = 28 ∧ body = []
  | .readBreak => kind = 29 ∧ body = []
  | .readInput selector => kind = 30 ∧ body = [selector]
  | .readOutput selector => kind = 31 ∧ body = [selector]
  | _ => False

/-- The instance numbers of a section kind (Table 11-2). -/
def sectionInstance (k : SectionKind) (inst : Nat) : Prop :=
  match k with
  | .inputChannel => inst ≤ 7
  | .inputLine => inst ≤ 11
  | .outputLine => inst ≤ 15
  | .feedChannel => 1 ≤ inst ∧ inst ≤ 2
  | .compartment => 1 ≤ inst ∧ inst ≤ 4
  | .alarmPoint => inst ≤ 31
  | _ => inst = 0

/-- The configuration record with a section's values stored whole for its instance, and nothing else changed (R191; the codes of log 22). -/
def SectionStored (k : SectionKind) (inst : Nat) (v : Nat → Nat) (a b : ConfigRecord) : Prop :=
  match k with
  | .station => b = { a with station := some (v 0) }
  | .loop => b = { a with
      loop := some { cycle := v 0, watchMultiple := v 1, rank := v 2, claimLimit := v 3, grace := v 4 } }
  | .shift => b = { a with shift := some (([1, 2, 3, 4].filter fun n => n ≤ v 0).map v) }
  | .service => b = { a with service := some { period := v 0, openFraction := [50, 75, 100].getD (v 1) 100 } }
  | .flood => b = { a with flood := some { high := v 0, low := v 1 } }
  | .inputChannel => ∃ i : Fin 8, i.val = inst ∧ b = { a with channels := vecModify a.channels i fun _ => some {
      fn := [.flameScanner, .pressure, .weigher, .encoder].getD (v 0) .unassigned, inst := v 1
      mode := [.period, .countWindow].getD (v 2) .quadrature, falling := v 3 == 1
      filter := [.off, .us4, .us16].getD (v 4) .us64, tb := [.us1, .us8, .us64].getD (v 5) .us512, count := v 6
      swapped := v 7 == 1 } }
  | .inputLine => ∃ i : Fin 12, i.val = inst ∧ b = { a with lines := vecModify a.lines i fun _ => some {
      fn := [.airFlowProven, .idFanRunning, .estop, .endForward, .endReturn, .index, .general].getD (v 0) .unused
      inst := v 1, activeLow := v 2 == 1, debounce := v 3 } }
  | .outputLine => ∃ i : Fin 16, i.val = inst ∧ b = { a with outputs := vecModify a.outputs i fun _ => some {
      kind := [.reference, .valve, .igniter, .strokeForward, .strokeReturn].getD (v 0) .unused
      fn := [.feeder, .fan, .pilotValve, .mainFuelRelease, .igniter].getD (v 1) .compartment, inst := v 2, carrier := v 3
      inverted := v 4 == 1, interval := v 5, pulseWidth := v 6, spacing := v 7 } }
  | .burner => b = { a with burner := some {
      letter := if v 0 = 1 then .a else .b, bandMin := v 1, bandMax := v 2, proofCount := v 3, failResponse := v 4
      purgeTime := v 5, pilotLimit := v 6, ignitionTime := v 7, mainLimit := v 8, lightOff := v 9, maxDemand := v 10
      rampRate := v 11, coolerRequired := v 12 == 1, coolerLossTime := v 13, tolerance := v 14, shortfallDelay := v 15 } }
  | .feedChannel => ∃ i : Fin 2, i.val + 1 = inst ∧ b = { a with feeds := vecModify a.feeds i fun _ => some {
      letter := if v 0 = 1 then .a else .b, weight := v 1, cv := v 2, maxRate := v 3, maxFine := v 4, ratePerFine := v 5
      rampRate := v 6, pulseWeight := v 7, stall := v 8 } }
  | .compartment => ∃ i : Fin 4, i.val + 1 = inst ∧ b = { a with comps := vecModify a.comps i fun _ => some {
      minRate := v 0, maxRate := v 1, baseRate := v 2, target := v 3, gain := v 4, f0 := v 5, scale := v 6
      forwardLimit := v 7, dwell := v 8, returnLimit := v 9, capacity := v 10 } }
  | .alarmPoint => ∃ i : Fin 32, i.val = inst ∧ b = { a with points := vecModify a.points i fun _ => some {
      kind := [.flameFail, .ignitionFail, .mainFlameFail, .purgeAirLost, .airFlowLost, .estop, .feederStall,
        .feederReverse, .weigherSilent, .heatShortfall, .coolerLoss, .grateStrokeTimeout, .limitConflict, .pressureHigh,
        .pressureLow, .loopLost, .duplicateStation, .configMismatch, .noticeLoss, .panelAbsent].getD (v 0 - 1) .inputLine
      inst := v 1, cls := [.low, .high].getD (v 2 - 1) .trip, latched := v 3 == 1, onDelay := v 4, offDelay := v 5
      threshold := v 6 } }

/-- A check of START: the reason of its refusal, the section kind and instance it names, and what it asks. -/
structure StartCheck where
  reason : Byte
  kind : Byte
  inst : Nat
  holds : Prop

/-- The checks of START in their order, step after step and instance after instance (R56, R70, R72, R150, R154, R192, and the lists before
Tables 6-1 and 7-1; the readings of log 24, 25, 56 and 69). -/
def startChecks (r : ConfigRecord) : List StartCheck :=
  let outThere := fun (kind : OutKind) (fn : OutFn) (n : Nat) =>
    ∃ (i : Fin 16) (c : OutCfg), r.outputs[i] = some c ∧ c.kind = kind ∧ c.fn = fn ∧ (n = 0 ∨ c.inst = n)
  let lineThere := fun (fn : LineFn) (n : Nat) =>
    ∃ (i : Fin 12) (c : LineCfg), r.lines[i] = some c ∧ c.fn = fn ∧ (n = 0 ∨ c.inst = n)
  let channelThere := fun (fn : ChannelFn) (n : Nat) =>
    ∃ (i : Fin 8) (c : ChannelCfg), r.channels[i] = some c ∧ c.fn = fn ∧ c.inst = n
  let anyDuty := r.burner ≠ none ∨ (∃ i : Fin 2, r.feeds[i] ≠ none) ∨ ∃ i : Fin 4, r.comps[i] ≠ none
  [⟨20, 1, 0, r.station ≠ none⟩, ⟨20, 2, 0, r.loop ≠ none⟩, ⟨20, 3, 0, r.shift ≠ none⟩, ⟨20, 4, 0, r.service ≠ none⟩,
   ⟨20, 5, 0, r.flood ≠ none⟩, ⟨21, 5, 0, ∀ f, r.flood = some f → f.low < f.high⟩] ++
  ((List.finRange 8).flatMap fun i =>
    [⟨22, 6, i.val, ∀ c, r.channels[i] = some c → c.fn ≠ .unassigned →
        ∀ (j : Fin 8) (b : ChannelCfg), j < i → r.channels[j] = some b → b.fn = c.fn → b.inst = c.inst →
          c.fn = .encoder ∧ j.val / 2 = i.val / 2⟩,
     ⟨23, 6, i.val, ∀ c, r.channels[i] = some c →
        (c.fn = .flameScanner ∨ c.fn = .pressure → c.mode = .period) ∧ (c.fn = .weigher → c.mode = .countWindow) ∧
        (c.fn = .encoder → c.mode = .quadrature ∧ ∃ (j : Fin 8) (m : ChannelCfg), j ≠ i ∧ j.val / 2 = i.val / 2 ∧
          r.channels[j] = some m ∧ m.fn = .encoder ∧ m.inst = c.inst ∧ m.filter = c.filter ∧ m.tb = c.tb)⟩]) ++
  ((List.finRange 12).flatMap fun i =>
    [⟨22, 7, i.val, ∀ c, r.lines[i] = some c → c.fn ≠ .general → c.fn ≠ .unused →
        ∀ (j : Fin 12) (b : LineCfg), j < i → r.lines[j] = some b → b.fn = c.fn →
          (c.fn = .endForward ∨ c.fn = .endReturn ∨ c.fn = .index) ∧ b.inst ≠ c.inst⟩,
     ⟨24, 7, i.val, ∀ c, r.lines[i] = some c →
        (c.fn = .index → (∃ k, r.channels[Fin.ofNat 8 c.inst] = some k ∧ k.fn = .encoder) ∧
          ∃ k, r.channels[Fin.ofNat 8 (c.inst + 1)] = some k ∧ k.fn = .encoder) ∧
        (c.fn = .endForward ∨ c.fn = .endReturn → r.comps[Fin.ofNat 4 (c.inst - 1)] ≠ none)⟩]) ++
  ((List.finRange 16).flatMap fun i =>
    [⟨22, 8, i.val, ∀ c, r.outputs[i] = some c → c.kind ≠ .unused →
        ∀ (j : Fin 16) (b : OutCfg), j < i → r.outputs[j] = some b → b.kind = c.kind → b.fn = c.fn →
          (c.fn = .feeder ∨ c.fn = .fan ∨ c.fn = .compartment) ∧ b.inst ≠ c.inst⟩,
     ⟨25, 8, i.val, ∀ c, r.outputs[i] = some c →
        (c.kind = .reference → c.fn = .feeder ∨ c.fn = .fan) ∧
        (c.kind = .valve → c.fn = .pilotValve ∨ c.fn = .mainFuelRelease) ∧ (c.kind = .igniter → c.fn = .igniter) ∧
        (c.kind = .strokeForward ∨ c.kind = .strokeReturn → c.fn = .compartment)⟩,
     ⟨26, 8, i.val, ∀ c, r.outputs[i] = some c → c.kind = .igniter → c.pulseWidth * 100 < c.spacing * 1000⟩]) ++
  [⟨27, 9, 0, ∀ c, r.burner = some c →
      outThere .valve .pilotValve 0 ∧ outThere .igniter .igniter 0 ∧ outThere .valve .mainFuelRelease 0 ∧
      channelThere .flameScanner 1 ∧ lineThere .airFlowProven 0 ∧ lineThere .idFanRunning 0⟩,
   ⟨28, 9, 0, ∀ c, r.burner = some c →
      c.ignitionTime ≤ c.pilotLimit ∧ c.lightOff ≤ c.maxDemand ∧ c.bandMin < c.bandMax⟩] ++
  ((List.finRange 2).flatMap fun i =>
    [⟨27, 10, i.val + 1, r.feeds[i] ≠ none → outThere .reference .feeder (i.val + 1)⟩,
     ⟨24, 10, i.val + 1, anyDuty → r.feeds[i] = none →
        ¬ channelThere .weigher (i.val + 1) ∧ ¬ channelThere .encoder (i.val + 1)⟩]) ++
  ((List.finRange 4).flatMap fun i =>
    [⟨27, 11, i.val + 1, r.comps[i] ≠ none →
        outThere .strokeForward .compartment (i.val + 1) ∧ outThere .strokeReturn .compartment (i.val + 1) ∧
        lineThere .endForward (i.val + 1) ∧ lineThere .endReturn (i.val + 1)⟩,
     ⟨28, 11, i.val + 1, ∀ c, r.comps[i] = some c → c.minRate ≤ c.baseRate ∧ c.baseRate ≤ c.maxRate⟩,
     ⟨29, 11, i.val + 1, ∀ c, r.comps[i] = some c →
        c.forwardLimit + c.dwell + c.returnLimit ≤ 600000 / c.maxRate⟩,
     ⟨24, 11, i.val + 1, anyDuty → r.comps[i] = none → ¬ channelThere .pressure (i.val + 1)⟩]) ++
  (List.finRange 32).map fun i =>
    ⟨24, 12, i.val, ∀ c, r.points[i] = some c →
      (c.kind = .feederStall ∨ c.kind = .feederReverse ∨ c.kind = .weigherSilent →
        ∃ ch : Fin 2, ch.val + 1 = c.inst ∧ r.feeds[ch] ≠ none) ∧
      (c.kind = .grateStrokeTimeout ∨ c.kind = .limitConflict ∨ c.kind = .pressureHigh ∨ c.kind = .pressureLow →
        ∃ n : Fin 4, n.val + 1 = c.inst ∧ r.comps[n] ≠ none) ∧
      (c.kind = .inputLine → ∃ (l : Fin 12) (k : LineCfg), l.val = c.inst ∧ r.lines[l] = some k ∧ k.fn = .general) ∧
      (c.kind = .flameFail ∨ c.kind = .ignitionFail ∨ c.kind = .mainFlameFail ∨ c.kind = .purgeAirLost ∨
        c.kind = .airFlowLost ∨ c.kind = .heatShortfall ∨ c.kind = .coolerLoss ∨ c.kind = .estop ∨ c.kind = .loopLost ∨
        c.kind = .duplicateStation ∨ c.kind = .configMismatch ∨ c.kind = .noticeLoss ∨ c.kind = .panelAbsent →
        c.inst = 0)⟩

/-! ## The laws of the device -/

/-- The laws that one state can break (R42, R158, R167, R174, R181, R182, R183), with what CONFIG keeps empty for them. -/
structure LawsHold (d : Station) : Prop where
  queue : d.lpc.queue.length ≤ 16
  waiting : (d.lpc.queue.drop 4).Pairwise fun x y =>
    match x.body, y.body with
    | .alarmState a, .alarmState b => a.point ≠ b.point
    | _, _ => True
  config : d.ppt.started = false → d.lpc.state = .bypassed ∧ d.alm.active = [] ∧ d.alm.mirror = [] ∧
    ∀ i : Fin 32, d.alm.points[i].cfg = none ∧ d.alm.points[i].delay = none
  active : d.alm.active.Nodup ∧ ∀ i : Fin 32, i ∈ d.alm.active ↔ d.alm.points[i].state ≠ .normal
  recent : d.alm.recent.length ≤ 32
  mirror : d.alm.mirror.length ≤ 64 ∧ (∀ e ∈ d.alm.mirror, e.owner ≠ d.own) ∧
    d.alm.mirror.Pairwise fun x y => x.owner = y.owner → x.body.point ≠ y.body.point
  ring : d.sru.ring.length ≤ 8 ∧ (∀ r ∈ d.sru.ring.dropLast, r.complete = true) ∧
    d.sru.ring.Pairwise fun x y => x.shift.toNat < y.shift.toNat
  shift : ∀ r ∈ d.sru.ring, r.shift.toNat < d.sru.shift.toNat
  totals : ∀ ch : Fin 2, d.sru.acc.feed[ch].mass ≤ d.sru.runTotals[ch] ∧ d.sru.runTotals[ch] ≤ 4294967295

/-- The first law of the device (R88): the fuel lines are on only in their states, for which the post-purge timer runs in POST-PURGE
alone. -/
structure FuelLawHolds (d : Station) : Prop where
  main : ∀ i, d.findOut .valve .mainFuelRelease 0 = some i → d.dou.lines[i].on = true →
    d.bsq.state = .mainTrial ∨ d.bsq.state = .firing
  pilot : ∀ i, d.findOut .valve .pilotValve 0 = some i → d.dou.lines[i].on = true →
    d.bsq.state = .pilotTrial ∨ d.bsq.state = .mainTrial
  igniter : ∀ i, d.findOut .igniter .igniter 0 = some i → d.dou.lines[i].burst ≠ .idle → d.bsq.state = .pilotTrial
  postPurge : d.bsq.postPurge ≠ none → d.bsq.state = .postPurge

/-- The fourth law of the device (R145): one compartment at most holds the grant, in FORWARD alone; a FORWARD line is on only while
its compartment holds it, and never together with the RETURN line. With them stands what keeps them: the queue holds the
compartments in WAITING in their order, a timer runs in its own state, and a compartment without a section, as in CONFIG, stays
STOPPED. -/
structure GrantLawHolds (d : Station) : Prop where
  forward : ∀ (i : Fin 4) (l : Fin 16), d.findOut .strokeForward .compartment (i.val + 1) = some l →
    d.dou.lines[l].on = true → d.gcc.holder = some i
  apart : ∀ (i : Fin 4) (l r : Fin 16), d.findOut .strokeForward .compartment (i.val + 1) = some l →
    d.findOut .strokeReturn .compartment (i.val + 1) = some r → ¬ (d.dou.lines[l].on = true ∧ d.dou.lines[r].on = true)
  holder : ∀ i : Fin 4, d.gcc.holder = some i ↔ d.gcc.comps[i].state = .forward
  queue : ∀ i : Fin 4, i ∈ d.gcc.queue ↔ d.gcc.comps[i].state = .waiting
  order : d.gcc.queue.Pairwise fun i j =>
    let due := fun k : Fin 4 => (d.gcc.comps[k].due).getD 0
    due i < due j ∨ (due i = due j ∧ i < j)
  timers : ∀ (i : Fin 4) (t : CompTimer) (e : Nat), d.gcc.comps[i].timer = some (t, e) →
    d.gcc.comps[i].state = match t with
      | .forwardLimit => .forward
      | .dwell => .dwell
      | .returnLimit => .returning
  absent : ∀ i : Fin 4, d.gcc.comps[i].cfg = none → d.gcc.comps[i].state = .stopped
  config : d.ppt.started = false → ∀ i : Fin 4, d.gcc.comps[i].cfg = none

end Machine

end Sys2Proof
end

