-- ==== Sys2Proof/Certificates/Slice0/Obligations.lean ====
section
/-! DEFINITION. The statements for the provers. -/

open Sys2Proof Sys2Proof.Machine


/-! ## The machine as a whole -/

/-- A step with a command waiting is that command's meaning on the state with the rest of the queue. -/
def Obligations.StepRunsFrontCommand : Prop :=
  ∀ (c : Instr) (rest : List Instr) (s : State), s.pending = c :: rest → step s = exec c { s with pending := rest }

/-- With no command waiting the part goes on by itself (log 1, log 2): it takes its one own event, one of several, or lets one
tick of the time base pass. (Which of the expiries due together wait: log 61.) -/
def Obligations.EmptyQueueGoesOnByItself : Prop :=
  ∀ s : State, s.pending = [] →
    (s.dev.ownEvents = [] → step s = .next { s with dev := { s.dev with now := s.dev.now + 1, loopOut := [] } }) ∧
    (∀ c, s.dev.ownEvents = [c] → step s = exec c s) ∧
    (2 ≤ s.dev.ownEvents.length →
      ∃ c ∈ s.dev.ownEvents, step s = exec c { s with dev := { s.dev with draws := s.dev.draws + 1 } })

/-- No rule of the manual stops the part: every run of any length goes on, whatever commands wait (the model's choice, NOTES.md
"Stops": there are none). -/
def Obligations.NoRunStops : Prop := ∀ (n : Nat) (s : State), RunSafe n s

/-! ## Resets -/

/-- What the first state holds, block by block, as the rules give it for power-on: the loop, its counters and its staging record,
channels, input and output lines, the burner with its timers, holds and monitor, feed, grate cooler and fans, the alarms with no
point configured, the shift with its open accumulators, and the Panel Port with an empty configuration record. -/
def Obligations.ResetHoldsTheStatedValues : Prop :=
  let d := State.reset.dev
  State.reset.pending = [] ∧
  (d.lpc.state = .bypassed ∧ d.lpc.origin = false ∧ d.lpc.bypass = true ∧ d.lpc.lastHead = none ∧
    d.lpc.prevWrite = false ∧ d.lpc.live = [] ∧ d.lpc.release = .idle ∧ d.lpc.awaiting = false ∧
    d.lpc.claimLimit = none ∧ d.lpc.grace = .idle ∧ d.lpc.breakReport = none ∧ d.lpc.queue = [] ∧ d.lpc.nextSeq = 0 ∧
    d.lpc.lossHold = none ∧
    d.lpc.staging = { panel := none, alarm := none, openShift := none, burner := none, feed := none, cooler := none,
                      summary := none, closing := none } ∧
    (let zero : Counter := { count := 0, overflowed := false }
     d.lpc.counters = {
      trainsSeen := zero, headErrors := zero, slotErrors := zero, trainsMissed := zero, lateRotations := zero
      noticesLost := zero, claimRounds := zero, breakEntries := zero }) ∧
    (∀ i : Fin 16, d.lpc.floor[i] = { image := none, seq := 0, age := 255, seen := false } ∧ d.lpc.taken[i] = [])) ∧
  (∀ i : Fin 8, d.piu.channels[i].mode = none ∧ d.piu.channels[i].phase = .disabled ∧ d.piu.channels[i].position = 0 ∧
    d.piu.channels[i].direction = .none ∧ d.piu.channels[i].valid = false ∧ d.piu.channels[i].events = 0 ∧
    d.piu.channels[i].phaseErrors = 0 ∧ d.piu.channels[i].stall = 0) ∧
  (∀ i : Fin 12, d.piu.lines[i].active = false ∧ d.piu.lines[i].pending = none) ∧
  (∀ i : Fin 16, d.dou.lines[i].cfg = none ∧ d.dou.lines[i].preload = 0 ∧ d.dou.lines[i].active = 0 ∧
    d.dou.lines[i].firstWrite = false ∧ d.dou.lines[i].position = 0 ∧ d.dou.lines[i].step = 0 ∧
    d.dou.lines[i].on = false ∧ d.dou.lines[i].burst = .idle ∧ d.dou.lines[i].refusals = 0 ∧
    d.dou.lines[i].forced = false ∧ d.dou.lines[i].pin = false) ∧
  (d.bsq.state = .off ∧ d.bsq.demand = 0 ∧ d.bsq.setpoint = 0 ∧ d.bsq.interruptions = 0 ∧
    d.bsq.monitor.status = .none ∧ d.bsq.monitor.proving = 0 ∧ d.bsq.monitor.failTimer = none ∧
    d.bsq.trip = none ∧ d.bsq.lastStop = none ∧
    d.bsq.purge = none ∧ d.bsq.postPurge = none ∧ d.bsq.pilotTrial = none ∧ d.bsq.ignition = none ∧ d.bsq.mainTrial = none ∧
    d.bsq.shortfall = none ∧ d.bsq.coolerLoss = none ∧ d.bsq.firingSecond = none ∧
    (∀ k : HoldKind, d.bsq.holds.get k = none) ∧
    ∀ i : Fin 2, d.bsq.monitor.scanners[i].good = 0 ∧ d.bsq.monitor.scanners[i].bad = 0) ∧
  (∀ ch : Fin 2, d.fdc.channels[ch].cfg = none ∧ d.fdc.channels[ch].state = .off ∧ d.fdc.channels[ch].trim = 1000 ∧
    d.fdc.channels[ch].cvPreload = none ∧ d.fdc.channels[ch].targetRate = 0) ∧
  (∀ i : Fin 4, d.gcc.comps[i].cfg = none ∧ d.gcc.comps[i].state = .stopped ∧ d.gcc.comps[i].cause = .none ∧
    d.gcc.comps[i].timer = none) ∧
  (d.gcc.holder = none ∧ d.gcc.queue = [] ∧ (∀ i : Fin 4, d.gcc.fans[i] = 0) ∧ d.gcc.fanSecond = none) ∧
  (d.alm.present = [] ∧ d.alm.active = [] ∧ d.alm.trip = none ∧ d.alm.epoch = 0 ∧ d.alm.recent = [] ∧
    d.alm.flood = false ∧ d.alm.mirror = [] ∧ d.alm.overflow = 0 ∧ (∀ i : Fin 16, d.alm.epochs[i] = none) ∧
    ∀ i : Fin 32, d.alm.points[i].cfg = none) ∧
  (d.sru.time = 0 ∧ d.sru.shift = 0 ∧ d.sru.ring = [] ∧ d.sru.notUp = none ∧ (∀ ch : Fin 2, d.sru.runTotals[ch] = 0) ∧
    let a := d.sru.acc
    a.startTime = 0 ∧ a.interrupted = false ∧ a.saturated = false ∧
    (∀ ch : Fin 2, a.feed[ch] = { mass := 0, heat := 0, revolutions := 0, runningSeconds := 0, faults := 0 }) ∧
    a.burner = { firingSeconds := 0, starts := 0, trips := 0, list := [] } ∧
    (∀ i : Fin 4, a.comps[i] = { strokes := 0, faults := 0 }) ∧ a.fanSeconds = 0 ∧
    a.alarm = { raises := 0, peakActive := 0, floods := 0, noticesLost := 0, acksTooLate := 0 } ∧
    a.loop = { trainsMissed := 0, claimRounds := 0, notUpSeconds := 0 }) ∧
  (d.ppt.started = false ∧ d.ppt.sig = none ∧ d.ppt.window = .idle ∧ d.ppt.present = false ∧ d.ppt.events = 0 ∧
    d.ppt.cause = .powerOn ∧ d.ppt.slot = none ∧ d.ppt.holder = none ∧ d.ppt.note = none ∧
    let r := d.ppt.cfg
    r.station = none ∧ r.loop = none ∧ r.shift = none ∧ r.service = none ∧ r.flood = none ∧
    (∀ i : Fin 8, r.channels[i] = none) ∧ (∀ i : Fin 12, r.lines[i] = none) ∧ (∀ i : Fin 16, r.outputs[i] = none) ∧
    r.burner = none ∧ (∀ i : Fin 2, r.feeds[i] = none) ∧ (∀ i : Fin 4, r.comps[i] = none) ∧
    ∀ i : Fin 32, r.points[i] = none)

/-- POWER ON, and the RESET line asserted and released: every block goes to its first state but for what the RESET line keeps (the
alarm epoch, the floor clock, the shift, the accumulators, the report ring and the run totals). That the pins keep their levels is
the model's choice (log 7), as are that the time base runs on (log 8) and that the RESET line drops every internal event not yet taken, a
contribution to the accumulators too (log 65). POWER ON releases a RESET line that was held (log 73). -/
def Obligations.ResetsPutEveryBlockInItsFirstState : Prop :=
  (∀ s : State, Runs .powerOn s fun d =>
    d.lpc = State.reset.dev.lpc ∧ d.dou = State.reset.dev.dou ∧ d.bsq = State.reset.dev.bsq ∧
    d.fdc = State.reset.dev.fdc ∧ d.gcc = State.reset.dev.gcc ∧ d.alm = State.reset.dev.alm ∧
    d.ppt = State.reset.dev.ppt ∧ d.sru = { State.reset.dev.sru with second := some (s.dev.now + 1000000) } ∧
    (∀ i : Fin 8, d.piu.channels[i] = { State.reset.dev.piu.channels[i] with
      pin := s.dev.piu.channels[i].pin, accepted := s.dev.piu.channels[i].pin }) ∧
    (∀ i : Fin 12, d.piu.lines[i] = { State.reset.dev.piu.lines[i] with pin := s.dev.piu.lines[i].pin }) ∧
    d.signals = [] ∧ d.loopOut = [] ∧ d.resetHeld = false ∧ d.now = s.dev.now) ∧
  (∀ s : State, Runs .resetLineAssert s fun d =>
    d.lpc = State.reset.dev.lpc ∧ d.dou = State.reset.dev.dou ∧ d.bsq = State.reset.dev.bsq ∧
    d.fdc = State.reset.dev.fdc ∧ d.gcc = State.reset.dev.gcc ∧
    d.alm = { State.reset.dev.alm with epoch := s.dev.alm.epoch } ∧
    d.ppt = { State.reset.dev.ppt with cause := .resetLine } ∧
    (∀ i : Fin 8, d.piu.channels[i] = { State.reset.dev.piu.channels[i] with
      pin := s.dev.piu.channels[i].pin, accepted := s.dev.piu.channels[i].pin }) ∧
    (∀ i : Fin 12, d.piu.lines[i] = { State.reset.dev.piu.lines[i] with pin := s.dev.piu.lines[i].pin }) ∧
    d.sru.time = s.dev.sru.time ∧ d.sru.second = none ∧ d.sru.notUp = none ∧ d.sru.shift = s.dev.sru.shift ∧
    d.sru.runTotals = s.dev.sru.runTotals ∧
    d.sru.acc = { s.dev.sru.acc with interrupted := s.dev.sru.acc.interrupted || s.dev.sru.shift != 0 } ∧
    d.sru.unresolved = (s.dev.sru.shift != 0) ∧
    ((∀ r ∈ s.dev.sru.ring, r.complete = true) → d.sru.ring = s.dev.sru.ring) ∧
    (∀ old r, s.dev.sru.ring = old ++ [r] → r.complete = false →
      d.sru.ring = old ++ [{ r with
        complete := true
        floor := r.floor.map fun e => if e.mark = .outstanding then { e with mark := .absent } else e }]) ∧
    d.signals = [] ∧ d.loopOut = [] ∧ d.resetHeld = true ∧ d.now = s.dev.now) ∧
  (∀ s : State, s.dev.resetHeld = true →
    exec .resetLineRelease s = .next { s with dev := { s.dev.take .resetLineRelease with
      resetHeld := false, sru := { s.dev.sru with second := some (s.dev.now + 1000000) } } })


/-! ## The ring: heads, slots and the floor image -/

/-- A train in BYPASSED changes nothing. A train whose slots alone are taken, in LISTEN ONLY, in JOINING until BYPASS is released or
where its head fails, and with a failed head in CLAIMING, DEFERRING and BREAK SEARCH, is repeated unchanged by a station whose
BYPASS is released, each peer's entry moves by the table of R7, the own entry stays, the live set is the peers of an age below 3, no
notice is taken, nothing goes to the Shift Report Unit, the state stays, and the refresh is signalled last. In JOINING the first
good arrival releases BYPASS with the watch restarted, and one with a failed head does neither. A station in UP gets to LISTEN ONLY
where its own slot comes back from a second writer: it leaves UP with DUPLICATE STATION, and a member repeats the train as it
arrived.
(A slot position that a short train does not reach fails and counts a slot error: log 11. That the repeated train of a duplicate
carries no own marks: log 45.) -/
def Obligations.ListenOnlyTakesTheFloorImageAndRepeatsTheTrain : Prop :=
  (∀ (body : List Byte) (s : State), s.dev.lpc.state = .bypassed →
    exec (.trainArrival body) s = .next { s with dev := s.dev.take (.trainArrival body) }) ∧
  (∀ (body : List Byte) (s : State),
    let slot := fun i : Fin 16 => viewSlot i ((splitSlots 16 (body.drop 14)).1.getD i.val [])
    let head := readHead (body.take 14)
    let recovery := s.dev.lpc.state = .claiming ∨ s.dev.lpc.state = .deferring ∨ s.dev.lpc.state = .breakSearch
    let joining := s.dev.lpc.state = .joining
    s.dev.lpc.state = .listenOnly ∨ (joining ∧ (s.dev.lpc.bypass = true ∨ head = none)) ∨ (recovery ∧ head = none) →
    let older := fun e : FloorEntry => if e.seen then { e with age := min 255 (e.age + 1) } else e
    Runs (.trainArrival body) s fun d =>
      d.loopOut = (if s.dev.lpc.bypass then [] else [1 :: body]) ∧ d.lpc.state = s.dev.lpc.state ∧
      d.lpc.taken = s.dev.lpc.taken ∧ d.lpc.prevWrite = s.dev.lpc.prevWrite ∧
      d.lpc.bypass = (if joining ∧ head ≠ none then false else s.dev.lpc.bypass) ∧
      d.lpc.watch = (if joining ∧ head ≠ none then
        some (s.dev.now + s.dev.loopCfg.watchMultiple * s.dev.loopCfg.cycle * 1000) else s.dev.lpc.watch) ∧
      (∀ i : Fin 16, i ≠ s.dev.own → d.lpc.floor[i] =
        match slot i with
        | .pass g =>
          if !s.dev.lpc.floor[i].seen || g.seq != s.dev.lpc.floor[i].seq then
            { image := some g, seq := g.seq, age := 0, seen := true }
          else older s.dev.lpc.floor[i]
        | _ => older s.dev.lpc.floor[i]) ∧
      d.lpc.floor[s.dev.own] = s.dev.lpc.floor[s.dev.own] ∧
      d.lpc.live = (List.finRange 16).filter (fun i => i != s.dev.own && d.lpc.floor[i].age < 3) ∧
      d.lpc.lastHead = (match head with | some h => some h | none => s.dev.lpc.lastHead) ∧
      (∀ h, head = some h → d.condition .configMismatch 0 = (h.sig != s.dev.ppt.sig.getD 0)) ∧
      d.lpc.counters = { s.dev.lpc.counters with
        trainsSeen := s.dev.lpc.counters.trainsSeen.bump
        headErrors := if head.isNone then s.dev.lpc.counters.headErrors.bump else s.dev.lpc.counters.headErrors
        slotErrors := Counter.bump^[((List.finRange 16).filter fun i => slot i == .fail).length]
          s.dev.lpc.counters.slotErrors } ∧
      d.sru = s.dev.sru ∧
      [.bsqFloorRefresh, .fdcFloorRefresh, .gccFloorRefresh, .almFloorRefresh, .sruFloorRefresh] <:+ d.signals ∧
      d.piu = s.dev.piu ∧ d.dou = s.dev.dou ∧ d.bsq = s.dev.bsq ∧ d.fdc = s.dev.fdc ∧ d.gcc = s.dev.gcc) ∧
  (∀ (body : List Byte) (s : State) (g : Image), s.dev.lpc.state = .up → s.dev.lpc.prevWrite = true →
    viewSlot s.dev.own (rawSlot body s.dev.own) = .pass g →
    (g.seq ≠ s.dev.lpc.floor[s.dev.own].seq ∨ ∃ p, s.dev.lpc.floor[s.dev.own].image = some p ∧ g.sig ≠ p.sig) →
    (∀ h, readHead (body.take 14) = some h → (h.origin = stationByte s.dev.own ↔ s.dev.lpc.origin = true)) →
    Runs (.trainArrival body) s fun d =>
      d.lpc.state = .listenOnly ∧ d.lpc.origin = false ∧ d.lpc.prevWrite = false ∧ d.lpc.watch = none ∧
      d.lpc.release = .idle ∧ d.lpc.awaiting = false ∧ d.loopOut = (if s.dev.lpc.origin then [] else [1 :: body]) ∧
      d.lpc.floor[s.dev.own] = s.dev.lpc.floor[s.dev.own] ∧ d.lpc.loopLost = some d.sru.time ∧
      d.lpc.grace = (if s.dev.loopCfg.grace = 0 then .expired else .running (s.dev.now + s.dev.loopCfg.grace * 1000000)) ∧
      d.condition .duplicateStation 0 = true ∧ d.condition .loopLost 0 = true ∧ d.ppt.events &&& 4 = 4 ∧
      .bsqLeftUp ∈ d.signals ∧ .fdcLeftUp ∈ d.signals ∧ .sruLeftUp ∈ d.signals ∧
      [.bsqFloorRefresh, .fdcFloorRefresh, .gccFloorRefresh, .almFloorRefresh, .sruFloorRefresh] <:+ d.signals)

/-- A train that a station handles in full as a member goes on with its head as it arrived, the own slot written anew, every
position that fails or is empty as it arrived, and each passing peer slot with the own seen mark; the own entry is the image
written. So it is in UP without the origin flag, at an origin that yields to a lower-numbered one, at the second good arrival in
JOINING and at the adoption in recovery, which end every mark, limit and grace; in UP and at those entries where the own slot shows
no duplicate number. Of a slot's records those that are new in a fresh slot are applied in list order, each to the block its kind
names, and the taken list is theirs. What the train leaves is its head, the peer slots, the judgement of the own slot and the own
image with the notices placed, one after the other. A head is the bytes of Table 12-1 with their check code, and reads as none where
its origin or size is out of 1 to 16 or its check code is another; slot positions follow one another by their length bytes; a slot
passes only with its check code, a well-formed image and its own station number, and a length byte of 0 is an empty one.
(A position that the train does not reach fails and sends no byte on, and bytes past its last slot go on as they came: log 11. That
every entry judged leaves the queue before a loss is handled: log 41. A placed notice without a returned record is judged as come
back with no new mark: log 47.) -/
def Obligations.UpStationRepeatsTheTrainWithItsOwnSlotWritten : Prop :=
  FramesRead ∧ (∀ (body : List Byte) (s : State),
    let own := stationByte s.dev.own
    let cmd : Instr := .trainArrival body
    let head := readHead (body.take 14)
    (s.dev.lpc.state = .up → s.dev.lpc.origin = false → (∀ h, head = some h → h.origin ≠ own) → NoDuplicate body s.dev →
      Runs cmd s fun d => TrainWritten body s.dev d ∧ ArrivalWritten body (trainCounted cmd s.dev) d) ∧
    (∀ h, head = some h → s.dev.lpc.state = .up → s.dev.lpc.origin = true → h.origin.toNat < own.toNat →
      let x := trainCounted cmd s.dev
      Runs cmd s fun d => TrainWritten body s.dev d ∧ d.lpc.release = .idle ∧ d.lpc.awaiting = false ∧
        d.ppt.events &&& 4 = 4 ∧
        ArrivalWritten body { x with
          lpc := { x.lpc with origin := false, release := .idle, awaiting := false, prevWrite := false }
          ppt := { x.ppt with events := x.ppt.events ||| 4 } } d) ∧
    (∀ h, head = some h → h.origin ≠ own → NoDuplicate body s.dev → s.dev.lpc.origin = false →
      (s.dev.lpc.state = .joining ∧ s.dev.lpc.bypass = false) ∨ s.dev.lpc.state = .claiming ∨
        s.dev.lpc.state = .deferring ∨ s.dev.lpc.state = .breakSearch →
      Runs cmd s fun d => TrainWritten body s.dev d ∧ ArrivalWritten body (trainCounted cmd s.dev).enterUp d ∧
        d.lpc.lastHead = some h ∧
        d.lpc.claimSend = none ∧ d.lpc.breakSend = none ∧ d.lpc.claimLimit = none ∧ d.lpc.grace = .idle ∧
        d.lpc.watch = some (s.dev.now + s.dev.loopCfg.watchMultiple * s.dev.loopCfg.cycle * 1000) ∧
        d.condition .loopLost 0 = false ∧ .fdcEnteredUp ∈ d.signals ∧ .sruEnteredUp ∈ d.signals ∧
        d.ppt.events &&& 4 = 4)) ∧
  (∀ (i : Fin 16) (g : Image) (fresh wasLive : Bool) (d : Station),
    let known := if fresh && !wasLive then [] else d.lpc.taken[i]
    let x := (g.notices.filter fun n => fresh && !known.contains n.seq).foldl (fun d n => d.applyNotice i n.body) d
    d.takeNotices i g fresh wasLive = { x with
      lpc := { x.lpc with taken := vecModify x.lpc.taken i fun _ => g.notices.map (·.seq) } }) ∧
  (∀ (i : Fin 16) (a : AlarmBody) (target point occurrence : Byte) (time : Word) (d : Station),
    d.applyNotice i (.alarmState a) = d.applyAlarm i a ∧
    d.applyNotice i (.ackRequest target point occurrence) =
      (if target = stationByte d.own then d.applyAck point occurrence else d) ∧
    d.applyNotice i (.timeSet time) = if d.lpc.origin then d.applyTimeSet time else d)

/-- An absorbed train counts one train seen and one head error and is neither repeated nor used: in UP at the origin, the train of a
higher-numbered origin; in UP without the flag and in the recovery states, the own old train. A frame of unknown type counts one head
error, and a loop counter at 65,535 stays there with its overflow mark set.
(That unknown frames are counted in every state, and that an absorbed own train clears the previous write, are the model's choices: log 10, log 14. That an
absorbed train's slots count no slot error in recovery: log 53.) -/
def Obligations.AbsorbedAndUnknownFramesCountAHeadErrorAndNothingElse : Prop :=
  (∀ (body : List Byte) (h : Head) (s : State), readHead (body.take 14) = some h →
    let counted := { s.dev.lpc.counters with
      trainsSeen := s.dev.lpc.counters.trainsSeen.bump
      headErrors := s.dev.lpc.counters.headErrors.bump }
    (s.dev.lpc.state = .up → s.dev.lpc.origin = true → (stationByte s.dev.own).toNat < h.origin.toNat →
      exec (.trainArrival body) s = .next { s with dev := { s.dev.take (.trainArrival body) with
        lpc := { s.dev.lpc with counters := counted } } }) ∧
    (s.dev.lpc.state = .up → s.dev.lpc.origin = false → h.origin = stationByte s.dev.own →
      exec (.trainArrival body) s = .next { s with dev := { s.dev.take (.trainArrival body) with
        lpc := { s.dev.lpc with counters := counted, prevWrite := false } } }) ∧
    (s.dev.lpc.state = .claiming ∨ s.dev.lpc.state = .deferring ∨ s.dev.lpc.state = .breakSearch →
      h.origin = stationByte s.dev.own →
      exec (.trainArrival body) s = .next { s with dev := { s.dev.take (.trainArrival body) with
        lpc := { s.dev.lpc with counters := counted } } })) ∧
  (∀ (t : Byte) (s : State),
    (s.dev.lpc.counters.headErrors.count < 65535 →
      exec (.frameOfUnknownType t) s = .next { s with dev := { s.dev.take (.frameOfUnknownType t) with
        lpc := { s.dev.lpc with counters := { s.dev.lpc.counters with headErrors :=
          { s.dev.lpc.counters.headErrors with count := s.dev.lpc.counters.headErrors.count + 1 } } } } }) ∧
    (s.dev.lpc.counters.headErrors.count = 65535 →
      exec (.frameOfUnknownType t) s = .next { s with dev := { s.dev.take (.frameOfUnknownType t) with
        lpc := { s.dev.lpc with counters := { s.dev.lpc.counters with headErrors :=
          { count := 65535, overflowed := true } } } } }))

/-- A release timer that expires before the return is awaited; one that expires after it releases a train at once: one head with the
sequence one on, the returned peer slots and the own slot written anew, the timer and the awaiting mark set again. At the return the
notices are taken and the peer slots kept; a return that comes after the timer counts a late rotation and is followed by the release at
once. The own slot that returned judges the queue, and what it loses is handed on. A return judges each placed notice in flight: complete
where its marks cover the live set, lost at its third return, else kept with the marks it has gathered.
(The head carries the floor time as it stood before an own TIME SET first placed at this release is applied: log 38. A notice without a
returned record is judged as come back with no new mark: log 47. A position that the returned train does not reach fails and sends no byte
on: log 11. The late release comes before the jobs take the refresh: log 41.) -/
def Obligations.ReleaseTimerExpiryReleasesATrainOrAwaitsTheReturn : Prop :=
  (∀ (e : Nat) (s : State), s.dev.lpc.release = .running e →
    (s.dev.lpc.awaiting = true →
      exec .releaseTimerExpiry s = .next { s with dev := { s.dev.take .releaseTimerExpiry with
        lpc := { s.dev.lpc with release := .expired } } }) ∧
    (s.dev.lpc.awaiting = false →
      Runs .releaseTimerExpiry s fun d =>
        d = released (s.dev.take .releaseTimerExpiry) ∧ d.lpc.state = s.dev.lpc.state ∧ d.lpc.origin = s.dev.lpc.origin ∧ d.lpc.prevWrite = true ∧
        d.lpc.awaiting = true ∧ d.lpc.release = .running (s.dev.now + s.dev.loopCfg.cycle * 1000) ∧
        d.lpc.live = s.dev.lpc.live ∧ d.lpc.counters = s.dev.lpc.counters ∧
        (∀ i : Fin 16, i ≠ s.dev.own → d.lpc.floor[i] = s.dev.lpc.floor[i]) ∧
        d.piu = s.dev.piu ∧ d.dou = s.dev.dou ∧ d.bsq = s.dev.bsq ∧ d.fdc = s.dev.fdc ∧ d.gcc = s.dev.gcc ∧
        d.alm = s.dev.alm ∧
        ∃ (h : Head) (g : Image),
          d.lpc.lastHead = some h ∧ h.origin = stationByte s.dev.own ∧ h.time = s.dev.sru.time ∧
          h.seq = (match s.dev.lpc.lastHead with | some l => l.seq + 1 | none => 0) ∧
          h.size = BitVec.ofNat 8 s.dev.lpc.loopSize ∧ h.sig = s.dev.ppt.sig.getD 0 ∧
          d.lpc.floor[s.dev.own] = { image := some g, seq := g.seq, age := 0, seen := true } ∧
          g.seq = s.dev.lpc.floor[s.dev.own].seq + 1 ∧
          d.loopOut = [h.bytes ++ ((List.finRange 16).map fun i =>
            if i = s.dev.own then withCheck (BitVec.ofNat 8 g.bytes.length :: g.bytes)
            else s.dev.lpc.returned.getD i.val [0]).flatten])) ∧
  (∀ (body : List Byte) (s : State), s.dev.lpc.state = .up → s.dev.lpc.origin = true →
    let own := stationByte s.dev.own
    let head := readHead (body.take 14)
    let slots := (List.finRange 16).map fun i =>
      if i = s.dev.own then rawSlot body i else onwardSlot s.dev.own i (rawSlot body i)
    (∀ h, head = some h → h.origin = own) → NoDuplicate body s.dev →
    let taken := trainTaken body (trainCounted (.trainArrival body) s.dev)
    let back := { taken with
      lpc := { taken.lpc with returned := slots, awaiting := false }, signals := taken.signals ++ refreshSignals }
    Runs (.trainArrival body) s fun d =>
      d = (if s.dev.lpc.release = .expired then
        released { back with lpc := { back.lpc with
          counters := { back.lpc.counters with lateRotations := back.lpc.counters.lateRotations.bump } } }
        else back) ∧
      d.lpc.state = .up ∧ d.lpc.origin = true ∧ d.lpc.returned = slots ∧
      (∀ i : Fin 16, i ≠ s.dev.own → d.lpc.taken[i] = match viewSlot i (rawSlot body i) with
        | .pass g => g.notices.map (·.seq)
        | _ => s.dev.lpc.taken[i]) ∧
      [.bsqFloorRefresh, .fdcFloorRefresh, .gccFloorRefresh, .almFloorRefresh, .sruFloorRefresh] <:+: d.signals ∧
      (s.dev.lpc.release ≠ .expired → d.loopOut = [] ∧ d.lpc.awaiting = false ∧ d.lpc.release = s.dev.lpc.release ∧
        d.lpc.prevWrite = s.dev.lpc.prevWrite ∧ d.lpc.floor[s.dev.own] = s.dev.lpc.floor[s.dev.own] ∧
        d.lpc.counters.lateRotations = s.dev.lpc.counters.lateRotations) ∧
      (s.dev.lpc.release = .expired → d.lpc.awaiting = true ∧ d.lpc.prevWrite = true ∧
        d.lpc.release = .running (s.dev.now + s.dev.loopCfg.cycle * 1000) ∧
        d.lpc.counters.lateRotations = s.dev.lpc.counters.lateRotations.bump ∧
        ∃ (h : Head) (g : Image), d.lpc.lastHead = some h ∧ h.origin = own ∧
          h.seq = (match head, s.dev.lpc.lastHead with | some l, _ => l.seq + 1 | none, some l => l.seq + 1 | none, none => 0) ∧
          h.size = BitVec.ofNat 8 s.dev.lpc.loopSize ∧ h.sig = s.dev.ppt.sig.getD 0 ∧
          d.lpc.floor[s.dev.own] = { image := some g, seq := g.seq, age := 0, seen := true } ∧
          g.seq = s.dev.lpc.floor[s.dev.own].seq + 1 ∧
          d.loopOut = [h.bytes ++ ((List.finRange 16).map fun i =>
            if i = s.dev.own then withCheck (BitVec.ofNat 8 g.bytes.length :: g.bytes)
            else slots.getD i.val [0]).flatten])) ∧
  (∀ (records : List Notice) (l : Lpc),
    let marks := fun e : QueueEntry => match records.find? fun r => r.seq == e.seq with
      | some r => e.mask ||| r.mask
      | none => e.mask
    let covered := fun e : QueueEntry => ∀ i ∈ l.live, marks e &&& ((1 : Half) <<< i.val) ≠ 0
    let kept := (l.queue.take 4).filterMap fun e =>
      if e.placed = false then some e
      else if covered e then none
      else if e.rotations + 1 < 3 then some { e with mask := marks e, rotations := e.rotations + 1 } else none
    l.judged records = { l with queue := kept ++ l.queue.drop 4 } ∧
    l.losses records = (l.queue.take 4).filterMap fun e =>
      if e.placed = true ∧ ¬ covered e ∧ 3 ≤ e.rotations + 1 then some e.body else none)

/-! ## Recovery: claims, break search, grace -/

/-- Outside CLAIMING and BREAK SEARCH, a station whose BYPASS is released sends another station's mark on with its hop count one
higher, a mark at hop count 15 no further, and changes nothing else; in every state but BREAK SEARCH so with a break mark. Its own mark
it discards there. In every state a damaged mark is discarded and counts nothing, and with BYPASS asserted every mark is left alone.
(A mark of hop count 15 is not repeated: log 12. The fourth byte of a break mark is sent as 0: log 46.) -/
def Obligations.MarksOfOtherStationsAreRepeatedOneHopOn : Prop :=
  (∀ (body : List Byte) (s : State),
    let claim : Instr := .claimMarkArrival body
    let brk : Instr := .breakMarkArrival body
    (s.dev.lpc.bypass = true ∨
        (∀ rank station hops : Byte, rank.toNat ≤ 14 → 1 ≤ station.toNat → station.toNat ≤ 16 → hops.toNat ≤ 15 →
          body ≠ (withCheck [2, rank, station, hops]).tail) →
      exec claim s = .next { s with dev := s.dev.take claim }) ∧
    (s.dev.lpc.bypass = true ∨
        (∀ station hops last : Byte, 1 ≤ station.toNat → station.toNat ≤ 16 → hops.toNat ≤ 15 →
          body ≠ (withCheck [3, station, hops, last]).tail) →
      exec brk s = .next { s with dev := s.dev.take brk })) ∧
  ∀ (rank station hops : Byte) (s : State), s.dev.lpc.bypass = false →
    rank.toNat ≤ 14 → 1 ≤ station.toNat → station.toNat ≤ 16 → hops.toNat ≤ 15 →
    let claim : Instr := .claimMarkArrival (withCheck [2, rank, station, hops]).tail
    let brk : Instr := .breakMarkArrival (withCheck [3, station, hops, 0]).tail
    (s.dev.lpc.state ≠ .claiming → s.dev.lpc.state ≠ .breakSearch →
      (station ≠ stationByte s.dev.own ∨ rank.toNat ≠ s.dev.loopCfg.rank) →
      exec claim s = .next { s with dev := { s.dev.take claim with
        loopOut := if hops.toNat = 15 then [] else [withCheck [2, rank, station, hops + 1]] } }) ∧
    (s.dev.lpc.state ≠ .breakSearch → station ≠ stationByte s.dev.own →
      exec brk s = .next { s with dev := { s.dev.take brk with
        loopOut := if hops.toNat = 15 then [] else [withCheck [3, station, hops + 1, 0]] } }) ∧
    (s.dev.lpc.state ≠ .claiming → s.dev.lpc.state ≠ .breakSearch →
      station = stationByte s.dev.own → rank.toNat = s.dev.loopCfg.rank →
      exec claim s = .next { s with dev := s.dev.take claim }) ∧
    (s.dev.lpc.state ≠ .breakSearch → station = stationByte s.dev.own →
      exec brk s = .next { s with dev := s.dev.take brk })

/-- In CLAIMING a better bid is repeated and conceded to, a worse one is discarded: lower rank first, then lower station.
(A better bid of hop count 15 is conceded to, though it is sent no further: log 12.) -/
def Obligations.ClaimingConcedesToTheBetterBid : Prop :=
  ∀ (rank station hops : Byte) (s : State), s.dev.lpc.bypass = false → s.dev.lpc.state = .claiming →
    rank.toNat ≤ 14 → 1 ≤ station.toNat → station.toNat ≤ 16 → hops.toNat ≤ 15 →
    let claim : Instr := .claimMarkArrival (withCheck [2, rank, station, hops]).tail
    let own := s.dev.loopCfg.rank
    let ownStation := (stationByte s.dev.own).toNat
    (rank.toNat < own ∨ (rank.toNat = own ∧ station.toNat < ownStation) →
      exec claim s = .next { s with dev := { s.dev.take claim with
        lpc := { s.dev.lpc with state := .deferring, claimSend := none }
        loopOut := if hops.toNat = 15 then [] else [withCheck [2, rank, station, hops + 1]]
        ppt := { s.dev.ppt with events := s.dev.ppt.events ||| 4 } } }) ∧
    (own < rank.toNat ∨ (rank.toNat = own ∧ ownStation < station.toNat) →
      exec claim s = .next { s with dev := s.dev.take claim })

/-- The own claim mark back in CLAIMING wins: UP with the origin flag, the loop size one more than the hops, a claim round counted,
marks and limit stopped, grace idle, LOOP LOST absent, and one train released at once.
(The TIME SET notices first placed in the released train are applied after the convergence and the head: log 38.) -/
def Obligations.OwnClaimMarkBackWinsTheClaim : Prop :=
  ∀ (hops : Byte) (s : State), s.dev.lpc.bypass = false → s.dev.lpc.state = .claiming → s.dev.loopCfg.rank ≤ 14 →
    hops.toNat ≤ 15 →
    let claim : Instr := .claimMarkArrival (withCheck [2, BitVec.ofNat 8 s.dev.loopCfg.rank, stationByte s.dev.own, hops]).tail
    let x := s.dev.take claim
    let won := Station.enterUp { x with
      lpc := { x.lpc with counters := { x.lpc.counters with claimRounds := x.lpc.counters.claimRounds.bump } }
      signals := x.signals ++ [.sruContribution .claimRound] }
    Runs claim s fun d =>
      d = released { won with lpc := { won.lpc with
        origin := true, loopSize := hops.toNat + 1, returned := List.replicate 16 [0] } } ∧
      d.lpc.state = .up ∧ d.lpc.origin = true ∧ d.lpc.loopSize = hops.toNat + 1 ∧ d.lpc.claimSend = none ∧
      d.lpc.breakSend = none ∧ d.lpc.claimLimit = none ∧ d.lpc.grace = .idle ∧
      d.lpc.watch = some (s.dev.now + s.dev.loopCfg.watchMultiple * s.dev.loopCfg.cycle * 1000) ∧
      d.lpc.release = .running (s.dev.now + s.dev.loopCfg.cycle * 1000) ∧ d.lpc.awaiting = true ∧
      d.lpc.prevWrite = true ∧ d.condition .loopLost 0 = false ∧
      d.lpc.counters = { s.dev.lpc.counters with claimRounds := s.dev.lpc.counters.claimRounds.bump } ∧
      d.lpc.breakReport = s.dev.lpc.breakReport ∧ d.lpc.loopLost = s.dev.lpc.loopLost ∧
      .sruContribution .claimRound ∈ d.signals ∧ .fdcEnteredUp ∈ d.signals ∧ .sruEnteredUp ∈ d.signals ∧
      d.ppt.events &&& 4 = 4 ∧
      ∃ (h : Head) (g : Image),
        d.lpc.lastHead = some h ∧ h.origin = stationByte s.dev.own ∧ h.size = BitVec.ofNat 8 (hops.toNat + 1) ∧
        d.lpc.floor[s.dev.own].image = some g ∧
        d.loopOut = [h.bytes ++ ((List.finRange 16).map fun i =>
          if i = s.dev.own then withCheck (BitVec.ofNat 8 g.bytes.length :: g.bytes) else [0]).flatten]

/-- In BREAK SEARCH a break mark of another station sets the break report, one hop further, and stops the own marks; the own break
mark shows the ring whole and leads to CLAIMING, or to DEFERRING at rank 15. A claim mark of another station is answered as a bid there:
a better one is repeated and conceded to in DEFERRING, as every one is at rank 15, and a worse one, or the own, leads to CLAIMING.
(A mark of hop count 15 is sent no further, but acts on the state: log 12.) -/
def Obligations.BreakSearchReportsTheUpstreamStation : Prop :=
  (∀ (station hops : Byte) (s : State), s.dev.lpc.bypass = false → s.dev.lpc.state = .breakSearch →
    1 ≤ station.toNat → station.toNat ≤ 16 → hops.toNat ≤ 15 →
    let brk : Instr := .breakMarkArrival (withCheck [3, station, hops, 0]).tail
    let limit := some (s.dev.now + s.dev.loopCfg.claimLimit * 1000)
    (station ≠ stationByte s.dev.own →
      exec brk s = .next { s with dev := { s.dev.take brk with
        lpc := { s.dev.lpc with breakSend := none, breakReport := some { station := station, hops := hops.toNat + 1 } }
        loopOut := if hops.toNat = 15 then [] else [withCheck [3, station, hops + 1, 0]] } }) ∧
    (station = stationByte s.dev.own → s.dev.loopCfg.rank ≤ 14 →
      exec brk s = .next { s with dev := { s.dev.take brk with
        lpc := { s.dev.lpc with state := .claiming, breakSend := none, claimLimit := limit
                                claimSend := some (s.dev.now + 1000) }
        loopOut := [withCheck [2, BitVec.ofNat 8 s.dev.loopCfg.rank, station, 0]]
        ppt := { s.dev.ppt with events := s.dev.ppt.events ||| 4 } } }) ∧
    (station = stationByte s.dev.own → s.dev.loopCfg.rank = 15 →
      exec brk s = .next { s with dev := { s.dev.take brk with
        lpc := { s.dev.lpc with state := .deferring, breakSend := none, claimLimit := limit }
        ppt := { s.dev.ppt with events := s.dev.ppt.events ||| 4 } } })) ∧
  (∀ (rank station hops : Byte) (s : State), s.dev.lpc.bypass = false → s.dev.lpc.state = .breakSearch →
    rank.toNat ≤ 14 → 1 ≤ station.toNat → station.toNat ≤ 16 → hops.toNat ≤ 15 → s.dev.loopCfg.rank ≤ 15 →
    let claim : Instr := .claimMarkArrival (withCheck [2, rank, station, hops]).tail
    let limit := some (s.dev.now + s.dev.loopCfg.claimLimit * 1000)
    let own := s.dev.loopCfg.rank
    let ownStation := stationByte s.dev.own
    let better := rank.toNat < own ∨ (rank.toNat = own ∧ station.toNat < ownStation.toNat)
    (own = 15 ∨ better →
      exec claim s = .next { s with dev := { s.dev.take claim with
        lpc := { s.dev.lpc with state := .deferring, breakSend := none, claimLimit := limit }
        loopOut := if hops.toNat = 15 then [] else [withCheck [2, rank, station, hops + 1]]
        ppt := { s.dev.ppt with events := s.dev.ppt.events ||| 4 } } }) ∧
    (own ≠ 15 → ¬ better →
      exec claim s = .next { s with dev := { s.dev.take claim with
        lpc := { s.dev.lpc with state := .claiming, breakSend := none, claimLimit := limit
                                claimSend := some (s.dev.now + 1000) }
        loopOut := [withCheck [2, BitVec.ofNat 8 own, ownStation, 0]]
        ppt := { s.dev.ppt with events := s.dev.ppt.events ||| 4 } } }))

/-- The send timers send one more mark and start again; the claim limit leads to BREAK SEARCH with a break entry counted, the break
report none yet and the own break mark sent; the loop grace goes to EXPIRED and is delivered to burner and feed. -/
def Obligations.RecoveryTimersSendMarksAndMoveOn : Prop :=
  ∀ (s : State) (e : Nat),
    (s.dev.lpc.state = .claiming → s.dev.lpc.claimSend = some e →
      exec .claimMarkSend s = .next { s with dev := { s.dev.take .claimMarkSend with
        lpc := { s.dev.lpc with claimSend := some (s.dev.now + 1000) }
        loopOut := [withCheck [2, BitVec.ofNat 8 s.dev.loopCfg.rank, stationByte s.dev.own, 0]] } }) ∧
    (s.dev.lpc.state = .breakSearch → s.dev.lpc.breakSend = some e →
      exec .breakMarkSend s = .next { s with dev := { s.dev.take .breakMarkSend with
        lpc := { s.dev.lpc with breakSend := some (s.dev.now + 1000) }
        loopOut := [withCheck [3, stationByte s.dev.own, 0, 0]] } }) ∧
    (s.dev.lpc.state = .claiming ∨ s.dev.lpc.state = .deferring → s.dev.lpc.claimLimit = some e →
      exec .claimLimitExpiry s = .next { s with dev := { s.dev.take .claimLimitExpiry with
        lpc := { s.dev.lpc with
          state := .breakSearch, claimLimit := none, claimSend := none, breakReport := none
          breakSend := some (s.dev.now + 1000)
          counters := { s.dev.lpc.counters with breakEntries := s.dev.lpc.counters.breakEntries.bump } }
        loopOut := [withCheck [3, stationByte s.dev.own, 0, 0]]
        ppt := { s.dev.ppt with events := s.dev.ppt.events ||| 4 } } }) ∧
    (s.dev.lpc.grace = .running e →
      exec .loopGraceExpiry s = .next { s with dev := { s.dev.take .loopGraceExpiry with
        lpc := { s.dev.lpc with grace := .expired }
        signals := s.dev.signals.erase .loopGraceExpiry ++ [.bsqLoopGraceExpiry, .fdcLoopGraceExpiry] } })

/-- A train watch that expires counts a train missed. In UP it is a departure into CLAIMING, or DEFERRING at rank 15: origin flag and
previous-write mark cleared, releases abandoned, the loop-lost moment recorded, LOOP LOST present, grace running, left UP signalled. In
JOINING it releases BYPASS and claims. -/
def Obligations.TrainWatchExpiryLeavesForTheClaim : Prop :=
  ∀ (s : State) (e : Nat), s.dev.lpc.watch = some e →
    let now := s.dev.now
    let c := s.dev.loopCfg
    let own := stationByte s.dev.own
    let missed := { s.dev.lpc.counters with trainsMissed := s.dev.lpc.counters.trainsMissed.bump }
    let claims := c.rank ≤ 14
    let mark := withCheck [2, BitVec.ofNat 8 c.rank, own, 0]
    let claimed := { s.dev.lpc with
      watch := none, counters := missed, state := if claims then .claiming else .deferring, breakSend := none
      claimLimit := some (now + c.claimLimit * 1000)
      claimSend := if claims then some (now + 1000) else s.dev.lpc.claimSend }
    (s.dev.lpc.state = .joining →
      exec .trainWatchExpiry s = .next { s with dev := { s.dev.take .trainWatchExpiry with
        lpc := { claimed with bypass := false }
        signals := s.dev.signals.erase .trainWatchExpiry ++ [.sruContribution .trainMissed]
        loopOut := if claims then [mark] else []
        ppt := { s.dev.ppt with events := s.dev.ppt.events ||| 4 } } }) ∧
    (s.dev.lpc.state = .up →
      Runs .trainWatchExpiry s fun d =>
        d.condition .loopLost 0 = true ∧ d.ppt.events &&& 4 = 4 ∧
        (if c.grace = 0 then [.bsqLeftUp, .fdcLeftUp, .sruLeftUp, .bsqLoopGraceExpiry, .fdcLoopGraceExpiry]
         else [.bsqLeftUp, .fdcLeftUp, .sruLeftUp]) <:+ d.signals ∧
        AlarmsOnly { s.dev.take .trainWatchExpiry with
          lpc := { claimed with
            origin := false, release := .idle, awaiting := false, prevWrite := false, loopLost := some s.dev.sru.time
            grace := if c.grace = 0 then .expired else .running (now + c.grace * 1000000) }
          signals := s.dev.signals.erase .trainWatchExpiry ++ [.sruContribution .trainMissed]
          loopOut := if claims then [mark] else [] } d)


/-! ## Pulse channels and input lines -/

/-- The filter and the debounce: a new level starts a wait of the filter's or the debounce time, and a level that equals the one
accepted cancels it. A pin that stands as told changes nothing; a disabled channel's pin moves with its accepted level, without a
wait, and that of a line in CONFIG, without a section or UNUSED moves alone. With a debounce time of 0 the line changes at once and
is delivered by its function.
(A disabled channel's pin is not watched, and a debounce time of 0 changes the line in the same command: log 7, log 36. The first
index event carries revolution counts 0: log 41. With the filter off, a pin that changes back at once makes no edge: log 55. A pin
that returns at the moment its wait is due cancels it: log 68.) -/
def Obligations.PinChangesStartOrCancelTheirWait : Prop :=
  (∀ (ch : Fin 8) (level : Bool) (s : State),
    let cmd : Instr := .pulsePinChange ch level
    (s.dev.piu.channels[ch].pin = level → exec cmd s = .next { s with dev := s.dev.take cmd }) ∧
    (s.dev.piu.channels[ch].pin ≠ level → s.dev.piu.channels[ch].phase = .disabled →
      exec cmd s = .next { s with dev := { s.dev.take cmd with
        piu := { s.dev.piu with channels := vecModify s.dev.piu.channels ch fun c =>
          { c with pin := level, accepted := level, wait := none } } } })) ∧
  (∀ (line : Fin 12) (level : Bool) (s : State),
    let cmd : Instr := .inputPinChange line level
    let watched := s.dev.ppt.started = true ∧ ∃ k, s.dev.cfg.lines[line] = some k ∧ k.fn ≠ .unused
    (s.dev.piu.lines[line].pin = level → exec cmd s = .next { s with dev := s.dev.take cmd }) ∧
    (s.dev.piu.lines[line].pin ≠ level → ¬ watched → exec cmd s = .next { s with dev := { s.dev.take cmd with
      piu := { s.dev.piu with lines := vecModify s.dev.piu.lines line fun l => { l with pin := level } } } })) ∧
  (∀ (ch : Fin 8) (level : Bool) (s : State) (k : ChannelCfg), s.dev.cfg.channels[ch] = some k →
    s.dev.piu.channels[ch].phase ≠ .disabled → s.dev.piu.channels[ch].pin ≠ level →
    let c := s.dev.piu.channels[ch]
    let filter := match k.filter with | .off => 0 | .us4 => 4 | .us16 => 16 | .us64 => 64
    exec (.pulsePinChange ch level) s = .next { s with dev := { s.dev.take (.pulsePinChange ch level) with
      piu := { s.dev.piu with channels := vecModify s.dev.piu.channels ch fun _ =>
        { c with pin := level
                 wait := if level = c.accepted then none else some { level := level, due := s.dev.now + filter } } } } }) ∧
  (∀ (line : Fin 12) (level : Bool) (s : State) (k : LineCfg), s.dev.cfg.lines[line] = some k → k.fn ≠ .unused →
    s.dev.ppt.started = true → s.dev.piu.lines[line].pin ≠ level →
    let cmd : Instr := .inputPinChange line level
    let l := s.dev.piu.lines[line]
    let active := level != k.activeLow
    let after := fun (x : InputLine) => { s.dev.take cmd with
      piu := { s.dev.piu with lines := vecModify s.dev.piu.lines line fun _ => x } }
    (0 < k.debounce → exec cmd s = .next { s with dev := after { l with
      pin := level
      pending := if active = l.active then none else some { level := active, due := s.dev.now + k.debounce * 1000 } } }) ∧
    (k.debounce = 0 → active = l.active → exec cmd s = .next { s with dev := after { l with pin := level, pending := none } }) ∧
    (k.debounce = 0 → active ≠ l.active → Runs cmd s
      (LineDelivered line k active (after { l with pin := level, active := active, pending := none }))))

/-- The edges of PERIOD and COUNT-WINDOW mode, phase by phase: what the channel holds afterwards and the event its owner gets.
(The capture counter is kept as the moment it last started: log 34.) -/
def Obligations.EdgesMeasurePeriodsAndWindows : Prop :=
  ∀ (ch : Fin 8) (level : Bool) (s : State) (k : ChannelCfg), s.dev.cfg.channels[ch] = some k →
    s.dev.piu.channels[ch].accepted ≠ level →
    let cmd : Instr := .acceptedEdge ch level
    let c := { s.dev.piu.channels[ch] with pin := level, accepted := level, wait := none }
    let active := level != k.falling
    let micros := match k.tb with | .us1 => 1 | .us8 => 8 | .us64 => 64 | .us512 => 512
    let ticks := min 16777215 ((s.dev.now - c.restarted) / micros)
    let events := min 4294967295 (c.events + 1)
    let after := fun (x : Channel) (out : List Instr) => exec cmd s = .next { s with dev := { s.dev.take cmd with
      piu := { s.dev.piu with channels := vecModify s.dev.piu.channels ch fun _ => x }
      signals := s.dev.signals.erase cmd ++ out } }
    (k.mode = .period →
      (c.phase = .seeking → active = true →
        after { c with restarted := s.dev.now, heldWidth := none, phase := .timing } []) ∧
      (c.phase = .seeking → active = false → after c []) ∧
      (c.phase = .timing → active = false → c.heldWidth = none → after { c with heldWidth := some ticks } []) ∧
      (c.phase = .timing → active = true →
        let x := { c with
          lastPeriod := ticks, lastWidth := c.heldWidth.getD 0, valid := true, events := events
          restarted := s.dev.now, heldWidth := none }
        (k.fn = .flameScanner →
          after x [.bsqScannerCapture (Fin.ofNat 2 (k.inst - 1)) ticks (c.heldWidth.getD 0) k.tb]) ∧
        (k.fn = .pressure →
          after x [.gccPressureCapture (Fin.ofNat 4 (k.inst - 1)) ticks (c.heldWidth.getD 0) k.tb]))) ∧
    (k.mode = .countWindow →
      (c.phase = .seeking → active = true →
        after { c with restarted := s.dev.now, edges := 0, overflow := false, phase := .counting } []) ∧
      (c.phase = .seeking ∨ c.phase = .counting → active = false → after c []) ∧
      (c.phase = .counting → active = true → c.edges + 1 < k.count → after { c with edges := c.edges + 1 } []) ∧
      (c.phase = .counting → active = true → k.count ≤ c.edges + 1 →
        after { c with
            lastTicks := ticks, lastCount := k.count, valid := true, events := events, restarted := s.dev.now
            edges := 0, overflow := false }
          [.fdcWeigherWindow (Fin.ofNat 2 (k.inst - 1)) ticks k.count c.overflow k.tb]))

/-- A counted edge of a pair: the direction is decoded from the levels before and after, the position moves by one and wraps, the
interval is captured, the still timer starts again, and a turn is delivered. A change of both inputs at one tick counts a phase error
and moves nothing: of two edges that come at one tick one after the other, the second takes the first back. (Which changes come at one
tick is read from the filter waits and from the moment of the last counted edge, and a turn that has been taken by then stands: log 35.
The count sense is the lower channel's: log 48. What an index edge or a still event in between has shown of the edge stands: log 67.) -/
def Obligations.QuadratureEdgesMoveThePosition : Prop :=
  ∀ (ch : Fin 8) (level : Bool) (s : State) (k b : ChannelCfg), s.dev.cfg.channels[ch] = some k → k.mode = .quadrature →
    let base : Fin 8 := ⟨ch.val - ch.val % 2, by omega⟩
    let mate : Fin 8 := if ch.val % 2 = 0 then Fin.ofNat 8 (ch.val + 1) else base
    s.dev.cfg.channels[base] = some b →
    s.dev.piu.channels[ch].phase ≠ .disabled → s.dev.piu.channels[ch].accepted ≠ level →
    let cmd : Instr := .acceptedEdge ch level
    let edge := fun c : Channel => { c with pin := level, accepted := level, wait := none }
    let other := s.dev.piu.channels[mate].accepted
    let forward : Bool := (if ch.val % 2 = 0 then level != other else level == other) != b.swapped
    let dir : Direction := if forward then .forward else .reverse
    let pair := s.dev.piu.channels[base]
    let position := if forward then pair.position + 1 else pair.position - 1
    let turned := pair.direction != .none && pair.direction != dir
    let micros := match k.tb with | .us1 => 1 | .us8 => 8 | .us64 => 64 | .us512 => 512
    let together := ∃ x y : Wait, s.dev.piu.channels[ch].wait = some x ∧ s.dev.piu.channels[mate].wait = some y ∧ x.due = y.due
    let both := vecModify (vecModify s.dev.piu.channels ch edge) mate fun c => { c with accepted := !c.accepted, wait := none }
    (together → exec cmd s = .next { s with dev := { s.dev.take cmd with
      piu := { s.dev.piu with
        channels := vecModify both base fun c => { c with phaseErrors := min 65535 (c.phaseErrors + 1) } } } }) ∧
    (¬ together → (∀ u, pair.counted = some u → u.moment = s.dev.now → u.input ≠ mate) →
      let told : List Instr := if turned then [.fdcDirectionChange (Fin.ofNat 2 (k.inst - 1)) dir position] else []
      let t : State := { s with dev := { s.dev.take cmd with
        piu := { s.dev.piu with channels := vecModify (vecModify s.dev.piu.channels ch edge) base fun c =>
          { c with
            position := position, direction := dir, restarted := s.dev.now
            interval := min 16777215 ((s.dev.now - pair.restarted) / micros)
            still := if pair.stall = 0 then none else some (s.dev.now + pair.stall * 1000)
            events := if turned then min 4294967295 (pair.events + 1) else pair.events
            counted := some {
              moment := s.dev.now, input := ch, raised := told.head?, position := pair.position, direction := pair.direction
              interval := pair.interval, restarted := pair.restarted, events := pair.events, still := pair.still } } }
        signals := s.dev.signals.erase cmd ++ told } }
      exec cmd s = .next t ∧
      ∀ (level' : Bool) (m : ChannelCfg), s.dev.cfg.channels[mate] = some m → m.mode = .quadrature →
        s.dev.piu.channels[mate].phase ≠ .disabled → s.dev.piu.channels[mate].accepted ≠ level' →
        let cmd' : Instr := .acceptedEdge mate level'
        let edge' := fun c : Channel => { c with pin := level', accepted := level', wait := none }
        let levels := vecModify (vecModify s.dev.piu.channels ch edge) mate edge'
        exec cmd' t = .next { s with dev := { (s.dev.take cmd).take cmd' with
          piu := { s.dev.piu with channels := vecModify levels base fun c =>
            { c with phaseErrors := min 65535 (c.phaseErrors + 1), counted := none } } } }) ∧
    (¬ together → ∀ u, pair.counted = some u → u.moment = s.dev.now → u.input = mate →
      exec cmd s = .next { s with dev := { s.dev.take cmd with
        piu := { s.dev.piu with channels := vecModify (vecModify s.dev.piu.channels ch edge) base fun c =>
          { c with
            position := u.position, direction := u.direction, interval := u.interval, restarted := u.restarted
            events := u.events, still := u.still, counted := none, phaseErrors := min 65535 (c.phaseErrors + 1) } }
        signals := match u.raised with
          | some x => ((s.dev.signals.erase cmd).reverse.erase x).reverse
          | none => s.dev.signals.erase cmd } })

/-- A capture counter that overflows gives NO SIGNAL in PERIOD and COUNT-WINDOW mode, and holds in QUADRATURE; a still timer that
expires gives a still event and starts again. -/
def Obligations.OverflowsAndStillTimersAreDelivered : Prop :=
  (∀ (ch : Fin 8) (s : State) (k : ChannelCfg), s.dev.cfg.channels[ch] = some k →
    s.dev.piu.channels[ch].phase ≠ .disabled →
    let cmd : Instr := .captureOverflow ch
    let c := s.dev.piu.channels[ch]
    let lost := { c with valid := false, restarted := s.dev.now, events := min 4294967295 (c.events + 1) }
    let after := fun (x : Channel) (out : List Instr) => exec cmd s = .next { s with dev := { s.dev.take cmd with
      piu := { s.dev.piu with channels := vecModify s.dev.piu.channels ch fun _ => x }
      signals := s.dev.signals.erase cmd ++ out } }
    (k.mode = .period → k.fn = .flameScanner →
      after { lost with heldWidth := none, phase := .seeking } [.bsqScannerNoSignal (Fin.ofNat 2 (k.inst - 1))]) ∧
    (k.mode = .period → k.fn = .pressure →
      after { lost with heldWidth := none, phase := .seeking } [.gccPressureNoSignal (Fin.ofNat 4 (k.inst - 1))]) ∧
    (k.mode = .countWindow → k.fn = .weigher →
      after { lost with overflow := c.overflow || c.phase == .counting }
        [.fdcWeigherNoSignal (Fin.ofNat 2 (k.inst - 1))]) ∧
    (k.mode = .quadrature → exec cmd s = .next { s with dev := s.dev.take cmd })) ∧
  (∀ (pair : Fin 4) (s : State) (k : ChannelCfg) (e : Nat),
    let ch : Fin 8 := ⟨2 * pair.val, by omega⟩
    let c := s.dev.piu.channels[ch]
    let cmd : Instr := .stillTimerExpiry pair
    s.dev.cfg.channels[ch] = some k → c.still = some e →
    exec cmd s = .next { s with dev := { s.dev.take cmd with
      piu := { s.dev.piu with channels := vecModify s.dev.piu.channels ch fun _ =>
        let still := some (s.dev.now + c.stall * 1000)
        { c with
          valid := false, events := min 4294967295 (c.events + 1), still := still
          counted := c.counted.map fun u => { u with events := min 4294967295 (u.events + 1), still := still } } }
      signals := s.dev.signals.erase cmd ++ [.fdcStill (Fin.ofNat 2 (k.inst - 1)) c.position] } })

/-- A pending change that has held becomes the line state and is delivered by the line's function: an ESTOP to five receivers with
its condition, an INDEX edge to its enabled pair, and to no other, a GENERAL line to the Alarm Unit. The points that watch the
condition take it, and the trip request follows ESTOP and the points: it names the TRIP point that stands first on the active list,
or else, while ESTOP is present, ESTOP with the lowest point that watches it.
(The first index event carries revolution counts 0: log 41. Points that watch one condition take it lowest index first: log 63.) -/
def Obligations.LineChangesAreDeliveredByFunction : Prop :=
  (∀ d : Station,
    let trips := fun i : Fin 32 => ∃ c, d.alm.points[i].cfg = some c ∧ c.cls = .trip
    let sees := fun i : Fin 32 => ∃ c, d.alm.points[i].cfg = some c ∧ c.kind = .estop ∧ c.inst = 0
    (∀ (before after : List (Fin 32)) (i : Fin 32) (c : PointCfg), d.alm.active = before ++ i :: after →
      (∀ j ∈ before, ¬ trips j) → d.alm.points[i].cfg = some c → c.cls = .trip →
      d.tripNow = some { point := some i, kind := c.kind }) ∧
    ((∀ j ∈ d.alm.active, ¬ trips j) → d.condition .estop 0 = false → d.tripNow = none) ∧
    ((∀ j ∈ d.alm.active, ¬ trips j) → d.condition .estop 0 = true →
      (∀ i, sees i → (∀ j, j < i → ¬ sees j) → d.tripNow = some { point := some i, kind := .estop }) ∧
      ((∀ i, ¬ sees i) → d.tripNow = some { point := none, kind := .estop }))) ∧
  ∀ (line : Fin 12) (s : State) (k : LineCfg) (w : Wait), s.dev.cfg.lines[line] = some k →
    s.dev.piu.lines[line].pending = some w →
    Runs (.lineChange line) s (LineDelivered line k w.level { s.dev.take (.lineChange line) with
      piu := { s.dev.piu with lines := vecModify s.dev.piu.lines line fun l =>
        { l with active := w.level, pending := none } } })


/-! ## Output lines -/

/-- R75: a carrier period that starts in a position takes base or base + 1 by the position's rank. The sixteen positions together
carry the fine reference; a step is at most 255. -/
def Obligations.CarrierPeriodTakesTheStepOfItsPosition : Prop :=
  let rank := fun p => [0, 8, 4, 12, 2, 10, 6, 14, 1, 9, 5, 13, 3, 11, 7, 15].getD p 15
  let stepOf := fun value p => value / 16 + (if rank p < value % 16 then 1 else 0)
  (∀ (line : Fin 16) (s : State) (c : OutCfg) (e : Nat), s.dev.dou.lines[line].cfg = some c →
    s.dev.dou.lines[line].carrierEnd = some e → s.dev.dou.lines[line].position < 16 →
    let l := s.dev.dou.lines[line]
    let step := stepOf l.active l.position
    let len := c.carrier * step / 255
    exec (.carrierPeriodStart line) s = .next { s with dev := { s.dev.take (.carrierPeriodStart line) with
      dou := { s.dev.dou with lines := vecModify s.dev.dou.lines line fun _ =>
        { l with
          step := step, carrierEnd := some (s.dev.now + c.carrier)
          activeEnd := if len = 0 ∨ len = c.carrier then none else some (s.dev.now + len)
          pin := if len = 0 then c.inverted else !c.inverted } } } }) ∧
  (∀ value, value ≤ 4080 →
    ((List.range 16).map (stepOf value)).sum = value ∧ ∀ p, p < 16 → stepOf value p ≤ 255) ∧
  (∀ p, p < 16 → stepOf 4080 p = 255 ∧ stepOf 4079 p = if p = 15 then 254 else 255) ∧
  (∀ p, p < 16 → (rank p < 8 ↔ p % 2 = 0) ∧ (rank p < 4 ↔ p % 4 = 0))

/-- The pattern timer: the position rises by one; at the pattern end it returns to 0 and, unless the line is forced, the active value
takes the preload, a change being delivered to the line's owner. -/
def Obligations.PatternEndTakesThePreload : Prop :=
  ∀ (line : Fin 16) (s : State) (c : OutCfg) (e : Nat), s.dev.dou.lines[line].cfg = some c →
    s.dev.dou.lines[line].patternEnd = some e →
    let l := s.dev.dou.lines[line]
    let cmd : Instr := .patternTimerExpiry line
    let fresh := some (s.dev.now + c.interval * 1000)
    let change : Instr := if c.fn = .feeder then .fdcActiveValueChange (Fin.ofNat 2 (c.inst - 1)) l.preload .patternEnd
      else .gccFanActiveValueChange (Fin.ofNat 4 (c.inst - 1)) l.preload .patternEnd
    let after := fun (x : OutLine) (out : List Instr) => exec cmd s = .next { s with dev := { s.dev.take cmd with
      dou := { s.dev.dou with lines := vecModify s.dev.dou.lines line fun _ => x }
      signals := s.dev.signals.erase cmd ++ out } }
    (l.position < 15 → after { l with position := l.position + 1, patternEnd := fresh } []) ∧
    (15 ≤ l.position → l.forced = true ∨ l.active = l.preload → after { l with position := 0, patternEnd := fresh } []) ∧
    (15 ≤ l.position → l.forced = false → l.active ≠ l.preload →
      after { l with position := 0, patternEnd := fresh, active := l.preload } [change])

/-- The active part of a carrier period ends with the pin inactive until the next period. The igniter's pulse ends at its width, in
ENDING with the burst; in BURSTING the spacing starts the next pulse. -/
def Obligations.ActivePartsAndIgniterPulsesEnd : Prop :=
  (∀ (line : Fin 16) (s : State) (c : OutCfg) (e : Nat), s.dev.dou.lines[line].cfg = some c →
    s.dev.dou.lines[line].activeEnd = some e →
    exec (.activePartEnd line) s = .next { s with dev := { s.dev.take (.activePartEnd line) with
      dou := { s.dev.dou with lines := vecModify s.dev.dou.lines line fun l =>
        { l with activeEnd := none, pin := c.inverted } } } }) ∧
  (∀ (s : State) (i : Fin 16) (c : OutCfg) (e : Nat), s.dev.findOut .igniter .igniter 0 = some i →
    s.dev.dou.lines[i].cfg = some c →
    let l := s.dev.dou.lines[i]
    let after := fun (cmd : Instr) (x : OutLine) => exec cmd s = .next { s with dev := { s.dev.take cmd with
      dou := { s.dev.dou with lines := vecModify s.dev.dou.lines i fun _ => x } } }
    (l.pulseEnd = some e → l.burst = .ending →
      after .igniterPulseWidthExpiry
        { l with burst := .idle, inPulse := false, pin := false, pulseEnd := none, spacingEnd := none }) ∧
    (l.pulseEnd = some e → l.burst = .bursting →
      after .igniterPulseWidthExpiry { l with inPulse := false, pin := false, pulseEnd := none }) ∧
    (l.spacingEnd = some e → l.burst = .bursting →
      after .igniterSpacingExpiry
        { l with inPulse := true, pin := true, pulseEnd := some (s.dev.now + c.pulseWidth * 100)
                 spacingEnd := some (s.dev.now + c.spacing * 1000) }))

/-- The force puts every line that Table 5-1 marks as forced off at once, tells the Feed Controller of each feeder that was running,
and changes nothing else; its end clears the forced flags and nothing else. For its owner, LINE ON drives the pin high, is held off
while forced, and is refused for a stroke line whose partner is ON; LINE OFF always drives the pin low (R80, R81, R85). SET PRELOAD stores
its value, and an unforced line takes 0, or its first value that is not 0, at once with a fresh pattern (R77, R78, R85). BURST START starts
the first pulse, or is held off while forced; BURST END lets a running pulse end; BURST CUT ends it at once (R82, R83). Whoever does not
own a line is refused.
(Of several feeders that the force stops, the lowest output line is told first: log 70.) -/
def Obligations.LinesObeyTheForceAndTheirOwners : Prop :=
  (∀ s : State, Runs .douForceStart s fun d =>
    (∀ i : Fin 16,
      let l := s.dev.dou.lines[i]
      d.dou.lines[i] = match l.cfg with
        | none => l
        | some c =>
          match c.kind with
          | .unused => l
          | .reference =>
            if c.fn = .feeder then
              { l with
                forced := true, preload := 0, active := 0, step := 0, activeEnd := none, pin := c.inverted
                position := 0, patternEnd := some (s.dev.now + c.interval * 1000) }
            else l
          | .igniter =>
            { l with forced := true, burst := .idle, inPulse := false, pin := false, pulseEnd := none, spacingEnd := none }
          | _ => { l with forced := true, on := false, pin := false }) ∧
    d = { s.dev.take .douForceStart with
      dou := d.dou
      signals := s.dev.signals.erase .douForceStart ++ (List.finRange 16).filterMap fun i =>
        match s.dev.dou.lines[i].cfg with
        | some c =>
          if c.kind = .reference ∧ c.fn = .feeder ∧ s.dev.dou.lines[i].active ≠ 0 then
            some (.fdcActiveValueChange (Fin.ofNat 2 (c.inst - 1)) 0 .force)
          else none
        | none => none }) ∧
  (∀ s : State, Runs .douForceEnd s fun d =>
    (∀ i : Fin 16, d.dou.lines[i] = { s.dev.dou.lines[i] with forced := false }) ∧
    d = { s.dev.take .douForceEnd with dou := d.dou }) ∧
  (∀ (d : Station) (i : Fin 16), let l := d.dou.lines[i]
    (l.kind = .valve ∨ l.kind = .strokeForward ∨ l.kind = .strokeReturn) →
    d.lineOff i l.owner =
      ({ d with dou := { d.dou with lines := vecModify d.dou.lines i fun _ => { l with on := false, pin := false } } }, .done) ∧
    (l.forced = true → d.lineOn i l.owner = (d, .heldOff)) ∧
    (l.forced = false → d.partnerOn l = false → d.lineOn i l.owner =
      ({ d with dou := { d.dou with lines := vecModify d.dou.lines i fun _ => { l with on := true, pin := true } } }, .done)) ∧
    (l.forced = false → d.partnerOn l = true → d.lineOn i l.owner =
      ({ d with dou := { d.dou with lines := vecModify d.dou.lines i fun _ =>
        { l with refusals := min 65535 (l.refusals + 1) } } }, .refused)) ∧
    (∀ who, who ≠ l.owner → d.lineOn i who = (d, .refused) ∧ d.lineOff i who = (d, .refused))) ∧
  (∀ (d : Station) (i : Fin 16) (c : OutCfg) (value : Nat), d.dou.lines[i].cfg = some c → c.kind = .reference →
    let l := d.dou.lines[i]
    let v := min 4080 value
    let stored := { l with preload := v, firstWrite := l.firstWrite && v == 0 }
    let taken := { stored with active := v, position := 0, patternEnd := some (d.now + c.interval * 1000) }
    let told : List Instr := if l.active = v then [] else
      [if c.fn = .feeder then .fdcActiveValueChange (Fin.ofNat 2 (c.inst - 1)) v .immediate
       else .gccFanActiveValueChange (Fin.ofNat 4 (c.inst - 1)) v .immediate]
    let after := fun (x : OutLine) (out : List Instr) =>
      d.setPreload i l.owner value = ({ d with
        dou := { d.dou with lines := vecModify d.dou.lines i fun _ => x }, signals := d.signals ++ out }, .done)
    (l.forced = true → after stored []) ∧
    (l.forced = false → v = 0 → after { taken with step := 0, activeEnd := none, pin := c.inverted } told) ∧
    (l.forced = false → v ≠ 0 → l.firstWrite = true → after taken told) ∧
    (l.forced = false → v ≠ 0 → l.firstWrite = false → after stored []) ∧
    (∀ who, who ≠ l.owner → d.setPreload i who value = (d, .refused))) ∧
  (∀ (d : Station) (i : Fin 16) (c : OutCfg), d.dou.lines[i].cfg = some c → c.kind = .igniter →
    let l := d.dou.lines[i]
    let burner := Owner.burnerSequencer
    let after := fun (x : OutLine) => ({ d with dou := { d.dou with lines := vecModify d.dou.lines i fun _ => x } }, DouAnswer.done)
    let idle := { l with burst := .idle, inPulse := false, pin := false, pulseEnd := none, spacingEnd := none }
    (l.forced = true → d.burstStart i burner = (d, .heldOff)) ∧
    (l.forced = false → l.burst = .idle → d.burstStart i burner = after { l with
      burst := .bursting, inPulse := true, pin := true, pulseEnd := some (d.now + c.pulseWidth * 100)
      spacingEnd := some (d.now + c.spacing * 1000) }) ∧
    (l.forced = false → l.burst ≠ .idle → d.burstStart i burner = (d, .done)) ∧
    (l.burst = .bursting → l.inPulse = true → d.burstEnd i burner = after { l with burst := .ending, spacingEnd := none }) ∧
    (l.burst = .bursting → l.inPulse = false → d.burstEnd i burner = after idle) ∧
    (l.burst ≠ .bursting → d.burstEnd i burner = (d, .done)) ∧
    (l.burst = .idle → d.burstCut i burner = (d, .done)) ∧
    (l.burst ≠ .idle → d.burstCut i burner = after idle) ∧
    (∀ who, who ≠ burner → d.burstStart i who = (d, .refused) ∧ d.burstEnd i who = (d, .refused) ∧
      d.burstCut i who = (d, .refused)))


/-! ## Burner sequencer -/

/-- BURNER START: the permissives are checked in the order of R94, the first that fails is answered, and PURGE is entered when all
hold, its timer running at once under proven air flow. -/
def Obligations.BurnerStartChecksPermissivesAndEntersPurge : Prop :=
  ∀ (s : State) (c : BurnerCfg), s.dev.ppt.started = true → s.dev.cfg.burner = some c →
    let d := s.dev.take .burnerStart
    let refusal : Option Byte :=
      if d.lpc.state ≠ .up then some 1
      else if d.ppt.present = false then some 2
      else if d.bsq.state = .lockout then some 3
      else if d.bsq.state ≠ .off then some 4
      else if (∃ e ∈ d.inView, e.2.tripRequest = true) then some 5
      else if d.lineActive .idFanRunning = false then some 6
      else if (∀ e ∈ d.feedInView c.letter, e.2.state ≠ .ready ∧ e.2.state ≠ .running) then some 7
      else if c.coolerRequired = true ∧ d.coolerRunning = false then some 8
      else if c.letter = .b ∧ d.aFiring = false then some 9
      else none
    (∀ r, refusal = some r → exec .burnerStart s = .next { s with dev := d.answer .refused r [] }) ∧
    (refusal = none → exec .burnerStart s = .next { s with dev :=
      { d with
        bsq := { d.bsq with
          state := .purge, demand := 0, interruptions := 0
          purge := if d.lineActive .airFlowProven then some (d.now + c.purgeTime * 1000000) else none
          mainStation := match d.burnerStation .a with | some (i, _, _) => some i | none => d.bsq.mainStation }
        lpc := { d.lpc with staging := { d.lpc.staging with
          burner := some { letter := c.letter, state := .purge, demand := 0 } } }
        ppt := { d.ppt with events := d.ppt.events ||| 8 } }.answer .ok 0 [] })

/-- BURNER STOP, a panel lapse, leaving UP and the loss of the ID fan: PURGE goes to OFF, a trial to POST-PURGE, FIRING to POST-PURGE
by BURNER STOP alone, and every stop has its record. -/
def Obligations.StopsPutTheBurnerOutByState : Prop :=
  ∀ (s : State) (c : BurnerCfg), s.dev.cfg.burner = some c →
    let soft := fun (cmd : Instr) (r : StopReason) =>
      (s.dev.bsq.state = .purge → exec cmd s = .next { s with dev := purgeStopped r c (s.dev.take cmd) }) ∧
      (s.dev.bsq.state = .pilotTrial ∨ s.dev.bsq.state = .mainTrial → Runs cmd s (StoppedBurning r c (s.dev.take cmd))) ∧
      (s.dev.bsq.state = .off ∨ s.dev.bsq.state = .firing ∨ s.dev.bsq.state = .postPurge ∨ s.dev.bsq.state = .lockout →
        exec cmd s = .next { s with dev := s.dev.take cmd })
    soft .bsqLeftUp .loop ∧ soft .bsqPanelLapse .lapse ∧
    (s.dev.bsq.state = .purge → exec (.bsqIdFanChange false) s =
      .next { s with dev := purgeStopped .idFan c (s.dev.take (.bsqIdFanChange false)) }) ∧
    (s.dev.bsq.state ≠ .purge → exec (.bsqIdFanChange false) s =
      .next { s with dev := s.dev.take (.bsqIdFanChange false) }) ∧
    (exec (.bsqIdFanChange true) s = .next { s with dev := s.dev.take (.bsqIdFanChange true) }) ∧
    (s.dev.ppt.started = true →
      let d := s.dev.take .burnerStop
      (s.dev.bsq.state = .off ∨ s.dev.bsq.state = .lockout →
        exec .burnerStop s = .next { s with dev := d.answer .wrongState 0 [] }) ∧
      (s.dev.bsq.state = .purge →
        exec .burnerStop s = .next { s with dev := purgeStopped .stop c (d.answer .ok 0 []) }) ∧
      (s.dev.bsq.state = .postPurge → exec .burnerStop s = .next { s with dev := d.answer .ok 0 [] }) ∧
      (s.dev.bsq.state = .pilotTrial ∨ s.dev.bsq.state = .mainTrial ∨ s.dev.bsq.state = .firing →
        Runs .burnerStop s (Accepted (StoppedBurning .stop c d))))

/-- Trips with the causes FLAME FAIL, MAIN FLAME FAIL, IGNITION FAIL, COOLER LOSS, LOOP LOST, AIR FLOW LOST and ESTOP: those that
the fail timer, the trial limits, the cooler loss timer and the loop grace bring as they expire, those of an air flow lost after
PURGE and of the emergency stop, and those that a held-off LINE ON or BURST START brings with cause ESTOP: at PILOT VALVE or the
igniter on entry to PILOT TRIAL, at MAIN FUEL RELEASE on entry to MAIN TRIAL, the state entered being the state at the trip. Each
trip names its first-out: the own condition of the cause's name with the lowest point that watches it, the first station in view
that requests a trip, or burner A's station; the trip's entry carries it, and an own point that it names alone carries the first-out
flag from then on, announced unless it is in NORMAL.
(PURGE AIR LOST stands in LightOffGoesFromPurgeToMainTrial, TRIP REQUEST and MAIN BURNER LOST in FloorRefreshSupervisesTheBurner.)
(The station that a LOCAL first-out names, the reports after step 7, a first-out point byte of 32 to 254 read as none, and the flag
set on a NORMAL point without an announcement are the model's choices or inferences: log 27, log 57, log 50, log 19.) -/
def Obligations.TripsOfTimersLinesAndHeldOffCommandsLockTheBurnerOut : Prop :=
  (∀ d : Station, FirstOutNamed d) ∧ (∀ (i : Fin 32) (d : Station), FirstOutFlagged i d (d.handFirstOut i)) ∧
  ∀ (s : State) (c : BurnerCfg) (e : Nat), s.dev.cfg.burner = some c →
    let b := s.dev.bsq
    let trips := fun (cmd : Instr) (cause : CauseKind) => Runs cmd s (Tripped cause (s.dev.take cmd))
    (b.monitor.failTimer = some e → b.state = .firing → trips .flameFailTimerExpiry .flameFail) ∧
    (b.monitor.failTimer = some e → b.state = .mainTrial → trips .flameFailTimerExpiry .mainFlameFail) ∧
    (b.pilotTrial = some e → trips .pilotTrialLimitExpiry .ignitionFail) ∧
    (b.mainTrial = some e → trips .mainTrialLimitExpiry .mainFlameFail) ∧
    (b.coolerLoss = some e → trips .coolerLossTimerExpiry .coolerLoss) ∧
    (b.state = .firing → trips .bsqLoopGraceExpiry .loopLost) ∧
    (b.state ≠ .firing → exec .bsqLoopGraceExpiry s = .next { s with dev := s.dev.take .bsqLoopGraceExpiry }) ∧
    (b.state = .pilotTrial ∨ b.state = .mainTrial ∨ b.state = .firing → trips (.bsqAirFlowChange false) .airFlowLost) ∧
    (b.state = .purge ∨ b.state = .pilotTrial ∨ b.state = .mainTrial ∨ b.state = .firing →
      trips (.bsqEstopChange true) .estop) ∧
    (b.state = .off ∨ b.state = .postPurge ∨ b.state = .lockout →
      exec (.bsqEstopChange true) s = .next { s with dev := s.dev.take (.bsqEstopChange true) }) ∧
    (exec (.bsqEstopChange false) s = .next { s with dev := s.dev.take (.bsqEstopChange false) }) ∧
    (∀ p g : Fin 16, b.state = .purge → b.purge = some e → s.dev.findOut .valve .pilotValve 0 = some p →
      s.dev.findOut .igniter .igniter 0 = some g → s.dev.dou.lines[p].forced = true ∨ s.dev.dou.lines[g].forced = true →
      Runs .bsqPurgeTimerExpiry s (Tripped .estop { s.dev.take .bsqPurgeTimerExpiry with
        bsq := { b with state := .pilotTrial, demand := 0, purge := none } })) ∧
    (∀ (m : Fin 16) (i : Fin 2) (period width : Nat) (tb : Timebase), s.dev.findOut .valve .mainFuelRelease 0 = some m →
      s.dev.dou.lines[m].forced = true → s.dev.scannerConfigured i = true → b.state = .pilotTrial →
      b.monitor.status = .proving → c.proofCount ≤ min 8 (b.monitor.scanners[i].good + 1) →
      c.bandMin ≤ period * tbMicros tb → period * tbMicros tb ≤ c.bandMax →
      let scanners := vecModify b.monitor.scanners i fun x =>
        { x with lastPeriod := period * tbMicros tb, verdict := .good, good := min 8 (x.good + 1), bad := 0 }
      Runs (.bsqScannerCapture i period width tb) s (Tripped .estop { s.dev.take (.bsqScannerCapture i period width tb) with
        bsq := { b with state := .mainTrial, demand := c.lightOff, monitor := { b.monitor with scanners := scanners } } }))

/-- Scanner captures: the verdict against the band, the good and bad runs, the proof of the flame, and its loss when every configured
scanner has been bad twice: a trip in MAIN TRIAL and FIRING.
(The station that a LOCAL first-out names, and the reports after a trip's step 7, are the model's choices: log 27, log 57. NO SIGNAL leaves
the last period: log 71.) -/
def Obligations.ScannerEventsProveAndLoseTheFlame : Prop :=
  ∀ (i : Fin 2) (period width : Nat) (tb : Timebase) (s : State) (c : BurnerCfg), s.dev.cfg.burner = some c →
    s.dev.scannerConfigured i = true →
    let capture : Instr := .bsqScannerCapture i period width tb
    let silence : Instr := .bsqScannerNoSignal i
    let m := s.dev.bsq.monitor
    let us := period * (match tb with | .us1 => 1 | .us8 => 8 | .us64 => 64 | .us512 => 512)
    let good := c.bandMin ≤ us ∧ us ≤ c.bandMax
    let verdict : Verdict := if good then .good else .bad
    let seen := { m.scanners[i] with lastPeriod := us, verdict := verdict }
    let best := fun v : Vector Scanner 2 =>
      max (if s.dev.scannerConfigured 0 then v[0].good else 0) (if s.dev.scannerConfigured 1 then v[1].good else 0)
    let counted := vecModify m.scanners i fun _ => { seen with good := min 8 (seen.good + 1), bad := 0 }
    let failed := vecModify m.scanners i fun _ => { seen with good := 0, bad := min 2 (seen.bad + 1) }
    let missed := vecModify m.scanners i fun x => { x with verdict := .noSignal, good := 0, bad := min 2 (x.bad + 1) }
    let lost := fun v : Vector Scanner 2 => ∀ j : Fin 2, s.dev.scannerConfigured j = true → 2 ≤ v[j].bad
    let after := fun (cmd : Instr) (x : Monitor) => exec cmd s = .next { s with dev := { s.dev.take cmd with
      bsq := { s.dev.bsq with monitor := x } } }
    (m.status = .none →
      after capture { m with scanners := vecModify m.scanners i fun _ => seen } ∧
      after silence { m with scanners := vecModify m.scanners i fun x => { x with verdict := .noSignal } }) ∧
    (m.status = .proving →
      (good → min 8 (m.scanners[i].good + 1) < c.proofCount →
        after capture { m with scanners := counted, proving := best counted }) ∧
      (good → c.proofCount ≤ min 8 (m.scanners[i].good + 1) → s.dev.bsq.state ≠ .pilotTrial →
        after capture { m with
          scanners := counted, proving := best counted, status := .proven
          failTimer := some (s.dev.now + c.failResponse * 1000000) }) ∧
      (¬ good → after capture { m with scanners := failed, proving := best failed }) ∧
      after silence { m with scanners := missed, proving := best missed }) ∧
    (m.status = .proven →
      (good → after capture { m with scanners := counted, failTimer := some (s.dev.now + c.failResponse * 1000000) }) ∧
      (¬ good → ¬ lost failed → after capture { m with scanners := failed }) ∧
      (¬ lost missed → after silence { m with scanners := missed }) ∧
      (¬ good → lost failed → s.dev.bsq.state = .firing → Runs capture s fun d =>
        Tripped .flameFail { s.dev.take capture with bsq := { s.dev.bsq with monitor := { m with scanners := failed } } } d) ∧
      (lost missed → s.dev.bsq.state = .firing → Runs silence s fun d =>
        Tripped .flameFail { s.dev.take silence with bsq := { s.dev.bsq with monitor := { m with scanners := missed } } } d) ∧
      (¬ good → lost failed → s.dev.bsq.state = .mainTrial → Runs capture s fun d =>
        Tripped .mainFlameFail
          { s.dev.take capture with bsq := { s.dev.bsq with monitor := { m with scanners := failed } } } d) ∧
      (lost missed → s.dev.bsq.state = .mainTrial → Runs silence s fun d =>
        Tripped .mainFlameFail
          { s.dev.take silence with bsq := { s.dev.bsq with monitor := { m with scanners := missed } } } d))

/-- The light-off: the purge under proven air, the pilot trial with valve, spark and armed monitor, the end of the spark, the flame
proven into MAIN TRIAL, and the end of POST-PURGE; three interruptions of the purge are a trip.
(The station that a LOCAL first-out names and the reports after a trip's step 7 are the model's choices: log 27, log 57.) -/
def Obligations.LightOffGoesFromPurgeToMainTrial : Prop :=
  ∀ (s : State) (c : BurnerCfg) (p m g : Fin 16) (lp lm lg : OutCfg) (e : Nat), s.dev.cfg.burner = some c →
    s.dev.findOut .valve .pilotValve 0 = some p → s.dev.dou.lines[p].cfg = some lp → s.dev.dou.lines[p].forced = false →
    s.dev.findOut .valve .mainFuelRelease 0 = some m → s.dev.dou.lines[m].cfg = some lm →
    s.dev.dou.lines[m].forced = false →
    s.dev.findOut .igniter .igniter 0 = some g → s.dev.dou.lines[g].cfg = some lg → s.dev.dou.lines[g].forced = false →
    let now := s.dev.now
    let b := s.dev.bsq
    let part := fun (st : BsqState) (demand : Nat) => { s.dev.lpc with staging := { s.dev.lpc.staging with
      burner := some { letter := c.letter, state := st, demand := BitVec.ofNat 32 demand } } }
    let posted := { s.dev.ppt with events := s.dev.ppt.events ||| 8 }
    let air : Instr := .bsqAirFlowChange true
    let noAir : Instr := .bsqAirFlowChange false
    (b.state = .purge →
      exec air s = .next { s with dev := { s.dev.take air with
        bsq := { b with purge := some (now + c.purgeTime * 1000000) } } }) ∧
    (b.state = .purge → b.purge = some e → b.interruptions < 2 →
      exec noAir s = .next { s with dev := { s.dev.take noAir with
        bsq := { b with purge := none, interruptions := b.interruptions + 1 } } }) ∧
    (b.state = .purge → b.purge = some e → 2 ≤ b.interruptions →
      Runs noAir s (Tripped .purgeAirLost { s.dev.take noAir with
        bsq := { b with purge := none, interruptions := b.interruptions + 1 } })) ∧
    (b.state = .purge → b.purge = some e → s.dev.dou.lines[g].burst = .idle →
      exec .bsqPurgeTimerExpiry s = .next { s with dev := { s.dev.take .bsqPurgeTimerExpiry with
        bsq := { b with
          state := .pilotTrial, demand := 0, purge := none, pilotTrial := some (now + c.pilotLimit * 1000000)
          ignition := some (now + c.ignitionTime * 1000000)
          monitor := { status := .proving, proving := 0, failTimer := none,
                       scanners := Vector.ofFn fun i => { b.monitor.scanners[i] with good := 0, bad := 0 } } }
        dou := { s.dev.dou with
          lines := vecModify (vecModify s.dev.dou.lines p fun l => { l with on := true, pin := true }) g fun l =>
            { l with
              burst := .bursting, inPulse := true, pin := true, pulseEnd := some (now + lg.pulseWidth * 100)
              spacingEnd := some (now + lg.spacing * 1000) } }
        lpc := part .pilotTrial 0
        ppt := posted } }) ∧
    (b.ignition = some e → s.dev.dou.lines[g].burst = .bursting →
      exec .bsqIgnitionTimerExpiry s = .next { s with dev := { s.dev.take .bsqIgnitionTimerExpiry with
        bsq := { b with ignition := none }
        dou := { s.dev.dou with lines := vecModify s.dev.dou.lines g fun l =>
          if l.inPulse then { l with burst := .ending, spacingEnd := none }
          else { l with burst := .idle, inPulse := false, pin := false, pulseEnd := none, spacingEnd := none } } } }) ∧
    (∀ (i : Fin 2) (period width : Nat) (tb : Timebase), s.dev.scannerConfigured i = true → b.state = .pilotTrial →
      b.monitor.status = .proving → c.proofCount ≤ min 8 (b.monitor.scanners[i].good + 1) → c.lightOff < 2 ^ 32 →
      c.bandMin ≤ period * tbMicros tb → period * tbMicros tb ≤ c.bandMax →
      Runs (.bsqScannerCapture i period width tb) s fun d =>
        d.bsq.state = .mainTrial ∧ d.bsq.demand = c.lightOff ∧ d.bsq.pilotTrial = none ∧ d.bsq.ignition = none ∧
        d.bsq.mainTrial = some (now + c.mainLimit * 1000000) ∧ d.bsq.monitor.status = .proven ∧
        d.bsq.monitor.failTimer = some (now + c.failResponse * 1000000) ∧
        d.dou.lines[m] = { s.dev.dou.lines[m] with on := true, pin := true } ∧ d.dou.lines[p] = s.dev.dou.lines[p] ∧
        (s.dev.dou.lines[g].burst ≠ .idle → d.dou.lines[g] =
          { s.dev.dou.lines[g] with burst := .idle, inPulse := false, pin := false, pulseEnd := none, spacingEnd := none }) ∧
        d.lpc = part .mainTrial c.lightOff ∧ d.ppt = posted) ∧
    (b.postPurge = some e →
      exec .postPurgeTimerExpiry s = .next { s with dev := { s.dev.take .postPurgeTimerExpiry with
        bsq := { b with state := .off, demand := 0, postPurge := none }, lpc := part .off 0, ppt := posted } })

/-- A floor image refreshed signal: in PURGE the permissives 4, 6, 7 and 8 are judged again, in a trial and FIRING a trip request in
view or burner A gone is a trip, MAIN TRIAL with flame and delivered heat goes to FIRING, and FIRING ramps its demand and supervises
the delivered heat and a required cooler, whose loss runs its timer or, at a time of 0, is a trip at once. In every other case of UP
only burner A's station is noted, and outside UP the signal is not acted on. The figures are those of the images in view: the live
set's and, once SEEN, the own one; a letter's burner station is its lowest-numbered one, alight in MAIN TRIAL or FIRING, and the
delivered heat is that of every channel that serves the letter.
(The station that a LOCAL first-out names, and a first-out point byte of 32 to 254 read as none, are the model's choices: log 27,
log 50. The heat is looked at before the cooler, and a trip's reports come after step 7: log 57, log 58.) -/
def Obligations.FloorRefreshSupervisesTheBurner : Prop :=
  (∀ d : Station, FloorRead d) ∧
  ∀ (s : State) (c : BurnerCfg), s.dev.cfg.burner = some c →
    let cmd : Instr := .bsqFloorRefresh
    let b := s.dev.bsq
    let d0 := { s.dev.take cmd with
      bsq := { b with mainStation := match s.dev.burnerStation .a with | some (i, _, _) => some i | none => b.mainStation } }
    let trip := ∃ e ∈ s.dev.inView, e.2.tripRequest = true
    let noA := c.letter = .b ∧ s.dev.alight .a = false
    let stop : Option StopReason :=
      if trip then some .tripRequest
      else if (∀ e ∈ s.dev.feedInView c.letter, e.2.state ≠ .ready ∧ e.2.state ≠ .running) then some .noFeed
      else if c.coolerRequired = true ∧ s.dev.coolerRunning = false then some .noCooler
      else if c.letter = .b ∧ s.dev.aFiring = false then some .mainBurner
      else none
    let lossAtOnce := c.coolerRequired = true ∧ s.dev.coolerRunning = false ∧ b.coolerLoss = none ∧ c.coolerLossTime = 0
    let burning := b.state = .pilotTrial ∨ b.state = .mainTrial ∨ b.state = .firing
    let target := max b.setpoint c.lightOff
    let most := c.rampRate * ((s.dev.now - b.rampMoment) / 1000) / 1000
    let ramped := if b.rampValue ≤ target then min target (b.rampValue + most) else max target (b.rampValue - most)
    (s.dev.lpc.state ≠ .up → exec cmd s = .next { s with dev := s.dev.take cmd }) ∧
    (s.dev.lpc.state = .up → b.state = .purge → exec cmd s = .next { s with dev :=
      match stop with | some r => purgeStopped r c d0 | none => d0 }) ∧
    (s.dev.lpc.state = .up → burning → trip → Runs cmd s (Tripped .tripRequest d0)) ∧
    (s.dev.lpc.state = .up → burning → ¬ trip → noA → Runs cmd s (Tripped .mainBurnerLost d0)) ∧
    (s.dev.lpc.state = .up → b.state = .mainTrial → ¬ trip → ¬ noA → b.monitor.status = .proven →
      0 < s.dev.deliveredHeat c.letter → Runs cmd s fun d =>
        d.bsq = { d0.bsq with
          state := .firing, demand := c.lightOff, mainTrial := none, rampValue := c.lightOff, rampMoment := s.dev.now
          firingSecond := some (s.dev.now + 1000000) } ∧
        (∀ i : Fin 16, d.dou.lines[i] = if s.dev.findOut .valve .pilotValve 0 = some i then
          { s.dev.dou.lines[i] with on := false, pin := false } else s.dev.dou.lines[i]) ∧
        d.signals = s.dev.signals.erase cmd ++ [.sruContribution .burnerStart] ∧ d.ppt.events = s.dev.ppt.events ||| 8) ∧
    (s.dev.lpc.state = .up → b.state = .off ∨ b.state = .postPurge ∨ b.state = .lockout → exec cmd s = .next { s with dev := d0 }) ∧
    (s.dev.lpc.state = .up → ¬ trip → ¬ noA →
      b.state = .pilotTrial ∨ (b.state = .mainTrial ∧ ¬ (b.monitor.status = .proven ∧ 0 < s.dev.deliveredHeat c.letter)) →
      exec cmd s = .next { s with dev := d0 }) ∧
    (s.dev.lpc.state = .up → b.state = .firing → ¬ trip → ¬ noA → lossAtOnce → Runs cmd s (Tripped .coolerLoss d0)) ∧
    (s.dev.lpc.state = .up → b.state = .firing → ¬ trip → ¬ noA → ¬ lossAtOnce → Runs cmd s fun d =>
      d.bsq.state = .firing ∧ d.bsq.demand = ramped ∧ BurnerOnly d0 d ∧
      (if s.dev.deliveredHeat c.letter < ramped * (100 - c.tolerance) / 100 then
        d.bsq.shortfall = some (b.shortfall.getD (s.dev.now + c.shortfallDelay * 1000000))
       else d.bsq.shortfall = none ∧ d.condition .heatShortfall 0 = false) ∧
      (c.coolerRequired = false → d.bsq.coolerLoss = b.coolerLoss) ∧
      (c.coolerRequired = true → s.dev.coolerRunning = true →
        d.bsq.coolerLoss = none ∧ d.condition .coolerLoss 0 = b.holds.coolerLoss.isSome) ∧
      (c.coolerRequired = true → s.dev.coolerRunning = false → ∀ e, b.coolerLoss = some e → d.bsq.coolerLoss = some e) ∧
      (c.coolerRequired = true → s.dev.coolerRunning = false → b.coolerLoss = none →
        d.bsq.coolerLoss = some (s.dev.now + c.coolerLossTime * 1000000) ∧ d.condition .coolerLoss 0 = true))

/-- The supervision timers and the holds: HEAT SHORTFALL becomes present, a trip hold's end makes its condition absent
(COOLER LOSS unless its timer runs), the notice loss hold's end makes NOTICE LOSS absent, and a firing second is counted. A notice
lost at a return starts the notice loss hold with NOTICE LOSS present and is counted and handed on, in a train at a member and at
the origin, and a full queue that a return shortens signals place free. (Every entry judged leaves the queue before the loss of any
is handled: log 41. A placed notice without a returned record is judged as come back with no new mark: log 47.) -/
def Obligations.SupervisionTimersAndHoldsSetConditions : Prop :=
  (∀ (s : State) (e : Nat),
    let others := fun (k : CondKind) (d : Station) =>
      ∀ k' inst, ¬ (k' = k ∧ inst = 0) → d.condition k' inst = s.dev.condition k' inst
    (s.dev.bsq.shortfall = some e → Runs .shortfallTimerExpiry s fun d =>
      d.condition .heatShortfall 0 = true ∧ others .heatShortfall d ∧
      AlarmsOnly { s.dev.take .shortfallTimerExpiry with bsq := { s.dev.bsq with shortfall := none } } d) ∧
    (∀ kind, s.dev.bsq.holds.get kind = some e → Runs (.tripHoldExpiry kind) s fun d =>
      d.condition (holdCondition kind) 0 = (kind == .coolerLoss && s.dev.bsq.coolerLoss.isSome) ∧
      others (holdCondition kind) d ∧
      AlarmsOnly { s.dev.take (.tripHoldExpiry kind) with
        bsq := { s.dev.bsq with holds := s.dev.bsq.holds.set none kind } } d) ∧
    (s.dev.lpc.lossHold = some e → Runs .noticeLossHoldExpiry s fun d =>
      d.condition .noticeLoss 0 = false ∧ others .noticeLoss d ∧
      AlarmsOnly { s.dev.take .noticeLossHoldExpiry with lpc := { s.dev.lpc with lossHold := none } } d) ∧
    (s.dev.bsq.firingSecond = some e →
      exec .firingSecondTimerExpiry s = .next { s with dev := { s.dev.take .firingSecondTimerExpiry with
        bsq := { s.dev.bsq with firingSecond := some (s.dev.now + 1000000) }
        signals := s.dev.signals.erase .firingSecondTimerExpiry ++ [.sruContribution .firingSecond] } })) ∧
  (∀ (b : NoticeBody) (d : Station),
    let x := d.loseNotice b
    x.condition .noticeLoss 0 = true ∧ .sruContribution .noticeLost ∈ x.signals ∧
    AlarmsOnly { d with lpc := { d.lpc with
      lossHold := some (d.now + 60000000)
      counters := { d.lpc.counters with noticesLost := d.lpc.counters.noticesLost.bump } } } x) ∧
  (∀ (records : List Notice) (d : Station),
    let y := (d.lpc.losses records).foldl (fun d b => d.loseNotice b) { d with lpc := d.lpc.judged records }
    d.judgeReturn records = if 16 ≤ d.lpc.queue.length ∧ (d.lpc.judged records).queue.length < 16 then
      { y with signals := y.signals ++ [.almPlaceFree] } else y) ∧
  (∀ (body : List Byte) (s : State), s.dev.lpc.state = .up → s.dev.lpc.prevWrite = true → NoDuplicate body s.dev →
    let cmd : Instr := .trainArrival body
    (∀ h, readHead (body.take 14) = some h → (h.origin = stationByte s.dev.own ↔ s.dev.lpc.origin = true)) →
    let x := peersTaken body (headTaken (readHead (body.take 14)) (trainCounted cmd s.dev))
    let records := ownRecords body s.dev.own
    let losses := x.lpc.losses records
    Runs cmd s fun d =>
      d.lpc.counters.noticesLost = Counter.bump^[losses.length] s.dev.lpc.counters.noticesLost ∧
      (losses = [] → d.lpc.lossHold = s.dev.lpc.lossHold) ∧
      (losses ≠ [] → d.lpc.lossHold = some (s.dev.now + 60000000) ∧ d.condition .noticeLoss 0 = true ∧
        .sruContribution .noticeLost ∈ d.signals) ∧
      (16 ≤ x.lpc.queue.length → (x.lpc.judged records).queue.length < 16 → .almPlaceFree ∈ d.signals))

/-- SET HEAT DEMAND stores a setpoint within the maximum demand, and in FIRING starts the ramp again from the standing demand. LOCKOUT
RESET leaves LOCKOUT for OFF when no own TRIP point, own trip request or peer's trip request stands. -/
def Obligations.HeatDemandIsSetAndLockoutIsReset : Prop :=
  ∀ (s : State) (c : BurnerCfg), s.dev.ppt.started = true → s.dev.cfg.burner = some c →
    let b := s.dev.bsq
    let after := fun (cmd : Instr) (d : Station) => exec cmd s = .next { s with dev := d }
    (∀ setpoint : Word,
      let d := s.dev.take (.setHeatDemand setpoint)
      after (.setHeatDemand setpoint)
        (if c.maxDemand < setpoint.toNat then d.answer .badField 0 []
         else Station.answer .ok 0 [] { d with bsq := { b with
           setpoint := setpoint.toNat, rampValue := if b.state = .firing then b.demand else b.rampValue
           rampMoment := if b.state = .firing then s.dev.now else b.rampMoment } })) ∧
    (let d := s.dev.take .lockoutReset
     let tripPoint := ∃ i : Fin 32, d.alm.points[i].state ≠ .normal ∧
      (match d.alm.points[i].cfg with | some k => k.cls = .trip | none => False)
     let peerTrip := ∃ i ∈ d.lpc.live, (match d.lpc.floor[i].image with | some g => g.tripRequest = true | none => False)
     (b.state ≠ .lockout → after .lockoutReset (d.answer .wrongState 0 [])) ∧
     (b.state = .lockout →
      (tripPoint → after .lockoutReset (d.answer .refused 10 [])) ∧
      (¬ tripPoint → d.alm.trip ≠ none → after .lockoutReset (d.answer .refused 11 [])) ∧
      (¬ tripPoint → d.alm.trip = none → peerTrip → after .lockoutReset (d.answer .refused 12 [])) ∧
      (¬ tripPoint → d.alm.trip = none → ¬ peerTrip → after .lockoutReset
        (Station.answer .ok 0 [] { d with
          bsq := { b with state := .off, demand := 0 }
          lpc := { d.lpc with staging := { d.lpc.staging with
            burner := some { letter := c.letter, state := .off, demand := 0 } } }
          ppt := { d.ppt with events := d.ppt.events ||| 8 } }))))


/-! ## Feed controller -/

/-- The feed requests by state, for a configured channel; any other channel number is a BAD FIELD.
(ESTOP is read from the line state: log 15; the cause is none outside FAULT: log 33.) -/
def Obligations.FeedRequestsMoveTheChannel : Prop :=
  ∀ (b : Byte) (cv : Half) (s : State), s.dev.ppt.started = true → s.dev.feedDuty = true →
    let after := fun (cmd : Instr) (d : Station) => exec cmd s = .next { s with dev := d }
    let enable : Instr := .feedEnable b
    let disable : Instr := .feedDisable b
    let clear : Instr := .feedClearFault b
    let update : Instr := .calorificUpdate b cv
    ((∀ ch : Fin 2, s.dev.fdc.channels[ch].cfg ≠ none → b.toNat ≠ ch.val + 1) →
      ∀ cmd ∈ [enable, disable, clear, update], after cmd ((s.dev.take cmd).answer .badField 0 [])) ∧
    (∀ (ch : Fin 2) (k : FeedCfg), b.toNat = ch.val + 1 → s.dev.fdc.channels[ch].cfg = some k →
      let st := s.dev.fdc.channels[ch].state
      let estop := s.dev.lineActive .estop
      (st ≠ .off → after enable ((s.dev.take enable).answer .wrongState 0 [])) ∧
      (st = .off → estop = true → after enable ((s.dev.take enable).answer .refused 13 [])) ∧
      (st = .off → estop = false → Runs enable s (Accepted (FeedStopped .ready .none ch (s.dev.take enable)))) ∧
      (st = .off → after disable ((s.dev.take disable).answer .ok 0 [])) ∧
      (st ≠ .off → Runs disable s (Accepted (FeedStopped .off .none ch (s.dev.take disable)))) ∧
      (st ≠ .fault → after clear ((s.dev.take clear).answer .wrongState 0 [])) ∧
      (st = .fault → estop = true → after clear ((s.dev.take clear).answer .refused 13 [])) ∧
      (st = .fault → estop = false → Runs clear s (Accepted (FeedStopped .ready .none ch (s.dev.take clear)))) ∧
      (cv.toNat < 5000 ∨ 35000 < cv.toNat → after update ((s.dev.take update).answer .badField 0 [])) ∧
      (5000 ≤ cv.toNat → cv.toNat ≤ 35000 → after update (Station.answer .ok 0 [] { s.dev.take update with
        fdc := { s.dev.fdc with channels := vecModify s.dev.fdc.channels ch fun c =>
          { c with cvPreload := some cv.toNat } } })))

/-- A still event and a turn to REVERSE put a turning channel in FAULT with their cause, and change no other; an ESTOP puts every configured
channel in FAULT, its FEEDER line and stall time at 0 and its conditions absent. A first entry to FAULT is counted and posted, and a channel
already in FAULT is counted no second time.
(That an entry to FAULT clears the re-evaluate mark: log 33.) -/
def Obligations.FaultEventsStopTheFeed : Prop :=
  (∀ (ch : Fin 2) (position : Half) (s : State) (k : FeedCfg), s.dev.fdc.channels[ch].cfg = some k →
    let turning := s.dev.fdc.channels[ch].state = .running ∨ s.dev.fdc.channels[ch].state = .held
    let faults := fun (cmd : Instr) (cause : FeedCause) => Runs cmd s fun d =>
      FeedStopped .fault cause ch (s.dev.take cmd) d ∧ .sruContribution (.feedFault ch) ∈ d.signals ∧
      d.ppt.events &&& 16 = 16
    let still : Instr := .fdcStill ch position
    let reverse : Instr := .fdcDirectionChange ch .reverse position
    let forward : Instr := .fdcDirectionChange ch .forward position
    (turning → faults still .feederStall) ∧ (turning → faults reverse .feederReverse) ∧
    (¬ turning → exec still s = .next { s with dev := s.dev.take still }) ∧
    (¬ turning → exec reverse s = .next { s with dev := s.dev.take reverse }) ∧
    exec forward s = .next { s with dev := s.dev.take forward }) ∧
  (∀ s : State,
    exec (.fdcEstopChange false) s = .next { s with dev := s.dev.take (.fdcEstopChange false) } ∧
    Runs (.fdcEstopChange true) s fun d =>
      FeedOnly (s.dev.take (.fdcEstopChange true)) d ∧
      ∀ ch : Fin 2,
        let c := s.dev.fdc.channels[ch]
        (c.cfg.isSome = true → c.state ≠ .fault → d.ppt.events &&& 16 = 16) ∧
        d.signals.count (.sruContribution (.feedFault ch)) =
          (s.dev.take (.fdcEstopChange true)).signals.count (.sruContribution (.feedFault ch)) +
            (if c.cfg.isSome ∧ c.state ≠ .fault then 1 else 0) ∧
        (c.cfg.isSome = true →
          (∀ i : Fin 16, s.dev.findOut .reference .feeder (ch.val + 1) = some i →
            d.dou.lines[i] = feederZero s.dev.now s.dev.dou.lines[i] ∧
            (s.dev.dou.lines[i].forced = false → s.dev.dou.lines[i].active ≠ 0 →
              .fdcActiveValueChange ch 0 .immediate ∈ d.signals)) ∧
          (∀ i : Fin 8, s.dev.findChannel .encoder (ch.val + 1) = some i →
            d.piu.channels[i] = stallWritten s.dev.now 0 s.dev.piu.channels[i]) ∧
          d.condition .weigherSilent (ch.val + 1) = false ∧ d.condition .feederStall (ch.val + 1) = false ∧
          d.condition .feederReverse (ch.val + 1) = false) ∧
        (s.dev.feedDuty = true → c.cfg.isSome = true → d.lpc.staging.feed =
          some ((List.finRange 2).filterMap fun i => (d.fdc.channels[i]).entry i)) ∧
        d.fdc.channels[ch] =
          if c.cfg.isSome then
            { c with
              state := .fault, cause := .estop, targetHeat := 0, massGoal := 0, targetRate := 0, lastFine := 0, delivered := 0
              openLoop := false, runDown := false, reEvaluate := false, runDownTimer := none, runningSecond := none }
          else c)

/-- A weigher window counts mass and heat in every state, gives a rate unless it overflowed or has no ticks, and adjusts the trim of
a turning channel whose open-loop flag was clear; the feed part with the delivered heat is staged.
(A window of 0 ticks sets no rate seen flag: log 51.) -/
def Obligations.WeigherWindowsCountMassAndAdjustTheTrim : Prop :=
  ∀ (ch : Fin 2) (ticks count : Nat) (overflow : Bool) (tb : Timebase) (s : State) (k : FeedCfg),
    s.dev.fdc.channels[ch].cfg = some k →
    let cmd : Instr := .fdcWeigherWindow ch ticks count overflow tb
    let c := s.dev.fdc.channels[ch]
    let mass := count * k.pulseWeight
    let turning : Bool := c.state == .running || c.state == .held
    let rated : Bool := !overflow && ticks != 0
    let rate := count * k.pulseWeight * 3600000000 / (ticks * (match tb with | .us1 => 1 | .us8 => 8 | .us64 => 64 | .us512 => 512))
    let moved : Int := (c.trim : Int) + Int.tdiv ((c.trim : Int) * ((rate : Int) - c.targetRate)) (8 * c.targetRate)
    let trim := if rated && turning && !c.openLoop && 0 < c.targetRate then (max 750 (min 1250 moved)).toNat else c.trim
    let fine := min k.maxFine (c.targetRate * 100000 / (k.ratePerFine * trim))
    let measured := if rated then rate else c.measured
    let seen := c.rateSeen || (rated && turning)
    let basis := if s.dev.hasWeigher ch && seen then measured else c.activeFine * k.ratePerFine * trim / 100000
    Runs cmd s fun d =>
      .sruContribution (.fuel ch mass (mass * c.cv / 1000)) ∈ d.signals ∧ d.condition .weigherSilent (ch.val + 1) =
        (if c.openLoop then false else s.dev.condition .weigherSilent (ch.val + 1)) ∧
      FeedOnly (s.dev.take cmd) d ∧ (∀ j, j ≠ ch → d.fdc.channels[j] = s.dev.fdc.channels[j]) ∧
      (s.dev.feedDuty = true → d.lpc.staging.feed =
        some ((List.finRange 2).filterMap fun i => (d.fdc.channels[i]).entry i)) ∧
      ((rated && turning && !c.openLoop && 0 < c.targetRate) = false →
        d.fdc.channels[ch] = { c with
          openLoop := false, measured := measured, rateSeen := seen
          delivered := if turning then basis * c.cv / 3600 else 0 }) ∧
      ((rated && turning && !c.openLoop && 0 < c.targetRate) = true →
        d.fdc.channels[ch] = { c with
          openLoop := false, measured := measured, rateSeen := seen, trim := trim, lastFine := fine
          delivered := basis * c.cv / 3600 } ∧
        ∀ i, s.dev.findOut .reference .feeder (ch.val + 1) = some i → fine ≠ c.lastFine →
          d.dou.lines[i].preload = min 4080 fine)

/-- R128: an index event that is not the first hands one revolution to the Shift Report Unit, in every channel state; the first hands
nothing; neither touches the rate. The revolution is counted. -/
def Obligations.IndexEventsCountRevolutions : Prop :=
  ∀ (ch : Fin 2) (counts : Nat) (s : State) (k : FeedCfg), s.dev.fdc.channels[ch].cfg = some k →
    exec (.fdcIndex ch false counts) s = .next { s with dev := { s.dev.take (.fdcIndex ch false counts) with
      signals := s.dev.signals.erase (.fdcIndex ch false counts) ++ [.sruContribution (.revolution ch)] } } ∧
    exec (.fdcIndex ch true counts) s = .next { s with dev := s.dev.take (.fdcIndex ch true counts) } ∧
    (s.dev.sru.acc.feed[ch].revolutions < 4294967295 → Runs (.sruContribution (.revolution ch)) s fun d =>
      d.sru.acc.feed[ch].revolutions = s.dev.sru.acc.feed[ch].revolutions + 1 ∧
      d.sru.acc.feed[ch].mass = s.dev.sru.acc.feed[ch].mass)

/-- NO SIGNAL of the weigher makes a turning channel open-loop with WEIGHER SILENT present and its heat estimated; an active value
change is kept and gives the delivered heat; the feed part with it is staged; a running second is counted. -/
def Obligations.SilenceActiveValuesAndSecondsAreTaken : Prop :=
  ∀ (ch : Fin 2) (s : State) (k : FeedCfg), s.dev.fdc.channels[ch].cfg = some k →
    let c := s.dev.fdc.channels[ch]
    let silence : Instr := .fdcWeigherNoSignal ch
    let turning := c.state = .running ∨ c.state = .held
    (turning → Runs silence s fun d =>
      d.condition .weigherSilent (ch.val + 1) = true ∧ d.dou = s.dev.dou ∧ d.piu = s.dev.piu ∧
      FeedOnly (s.dev.take silence) d ∧ (∀ j, j ≠ ch → d.fdc.channels[j] = s.dev.fdc.channels[j]) ∧
      (s.dev.feedDuty = true → d.lpc.staging.feed =
        some ((List.finRange 2).filterMap fun i => (d.fdc.channels[i]).entry i)) ∧
      d.fdc.channels[ch] = { c with
        openLoop := true, delivered := c.activeFine * k.ratePerFine * c.trim / 100000 * c.cv / 3600 }) ∧
    (¬ turning → exec silence s = .next { s with dev := s.dev.take silence }) ∧
    (∀ (value : Nat) (cause : ChangeCause),
      let cmd : Instr := .fdcActiveValueChange ch value cause
      let basis := if s.dev.hasWeigher ch && !c.openLoop && c.rateSeen then c.measured
        else value * k.ratePerFine * c.trim / 100000
      Runs cmd s fun d =>
        d.dou = s.dev.dou ∧ d.piu = s.dev.piu ∧ d.alm = s.dev.alm ∧ d.signals = s.dev.signals.erase cmd ∧
        FeedOnly (s.dev.take cmd) d ∧ (∀ j, j ≠ ch → d.fdc.channels[j] = s.dev.fdc.channels[j]) ∧
        (s.dev.feedDuty = true → d.lpc.staging.feed =
          some ((List.finRange 2).filterMap fun i => (d.fdc.channels[i]).entry i)) ∧
        d.fdc.channels[ch] = { c with
          activeFine := value
          delivered := if c.state = .running ∨ c.state = .held then basis * c.cv / 3600 else 0 }) ∧
    (∀ e, c.runningSecond = some e →
      exec (.runningSecondTimerExpiry ch) s = .next { s with dev := { s.dev.take (.runningSecondTimerExpiry ch) with
        fdc := { s.dev.fdc with channels := vecModify s.dev.fdc.channels ch fun c =>
          { c with runningSecond := some (s.dev.now + 1000000) } }
        signals := s.dev.signals.erase (.runningSecondTimerExpiry ch) ++ [.sruContribution (.runningSecond ch)] } })

/-- The loss of the loop: left UP holds running channels with their delivered heat computed again, loop grace starts their run-down, each
expiry lowers the rate by one ramp step, the FEEDER line following, to READY at 0, and entered UP marks held channels for judgement at the
next refresh.
(What a rest clears is in log 33.) -/
def Obligations.LoopLossHoldsThenRunsTheFeedDown : Prop :=
  (∀ s : State, Runs .fdcLeftUp s fun d =>
    d.dou = s.dev.dou ∧ d.piu = s.dev.piu ∧ d.alm = s.dev.alm ∧ FeedOnly (s.dev.take .fdcLeftUp) d ∧
    ∀ ch : Fin 2,
      let c := s.dev.fdc.channels[ch]
      (∀ k, c.cfg = some k → c.state = .running →
        let basis := if s.dev.hasWeigher ch && !c.openLoop && c.rateSeen then c.measured
          else c.activeFine * k.ratePerFine * c.trim / 100000
        d.fdc.channels[ch] = { c with state := .held, delivered := basis * c.cv / 3600 } ∧
        (s.dev.feedDuty = true → d.lpc.staging.feed =
          some ((List.finRange 2).filterMap fun i => (d.fdc.channels[i]).entry i))) ∧
      (c.cfg = none ∨ c.state ≠ .running → d.fdc.channels[ch] = c)) ∧
  (∀ s : State, Runs .fdcLoopGraceExpiry s fun d =>
    d = { s.dev.take .fdcLoopGraceExpiry with fdc := d.fdc } ∧
    ∀ ch : Fin 2,
      let c := s.dev.fdc.channels[ch]
      d.fdc.channels[ch] = if c.cfg.isSome ∧ c.state = .held then
        { c with runDown := true, runDownTimer := some (s.dev.now + s.dev.loopCfg.cycle * 1000) } else c) ∧
  (∀ s : State, Runs .fdcEnteredUp s fun d =>
    d = { s.dev.take .fdcEnteredUp with fdc := d.fdc } ∧
    ∀ ch : Fin 2,
      let c := s.dev.fdc.channels[ch]
      d.fdc.channels[ch] = if c.cfg.isSome ∧ c.state = .held then { c with reEvaluate := true } else c) ∧
  (∀ (ch : Fin 2) (s : State) (k : FeedCfg) (e : Nat), s.dev.fdc.channels[ch].cfg = some k →
    s.dev.fdc.channels[ch].runDownTimer = some e →
    let c := s.dev.fdc.channels[ch]
    let rate := c.targetRate - max 1 (k.rampRate * s.dev.loopCfg.cycle / 1000)
    Runs (.runDownTimerExpiry ch) s fun d =>
      FeedOnly (s.dev.take (.runDownTimerExpiry ch)) d ∧
      (∀ j, j ≠ ch → d.fdc.channels[j] = s.dev.fdc.channels[j]) ∧
      (rate = 0 → FeedStopped .ready .none ch (s.dev.take (.runDownTimerExpiry ch)) d) ∧
      (rate ≠ 0 →
        let fine := min k.maxFine (rate * 100000 / (k.ratePerFine * c.trim))
        d.fdc.channels[ch] = { c with
          targetRate := rate, lastFine := fine, runDown := true
          runDownTimer := some (s.dev.now + s.dev.loopCfg.cycle * 1000) } ∧
        ∀ i : Fin 16, s.dev.findOut .reference .feeder (ch.val + 1) = some i →
          (fine ≠ c.lastFine → fine ≠ 0 → s.dev.dou.lines[i].firstWrite = false →
            d.dou.lines[i] = { s.dev.dou.lines[i] with preload := min 4080 fine }) ∧
          (fine ≠ c.lastFine → fine = 0 → d.dou.lines[i] = feederZero s.dev.now s.dev.dou.lines[i]) ∧
          (fine ≠ c.lastFine → d.dou.lines[i].preload = min 4080 fine) ∧
          (fine = c.lastFine → d.dou.lines[i] = s.dev.dou.lines[i])))

/-- A floor image refreshed signal in UP: READY channels whose burner is alight run from rate 0, RUNNING ones whose burner is out
rest, held ones marked for it are judged; each then takes its share of the demand, and the rate follows it by one ramp step, the
FEEDER line with it. An entry to RUNNING writes the stall time, and one from READY clears the rate seen flag and starts the running
second; a pair that turns back is FEEDER REVERSE. Outside UP a CV waiting is all that is taken. The figures of each letter are those
of the images in view: its burner's station, alight, demand and channels, of which those READY or RUNNING are available.
(The turn-back check is of channels that were RUNNING when the refresh began: log 41. A channel that its own image does not yet show
READY or RUNNING has target heat 0: log 59.) -/
def Obligations.FloorRefreshSharesHeatAndMovesTheRate : Prop :=
  (∀ d : Station, FloorRead d) ∧
  ∀ s : State, (∀ ch : Fin 2, s.dev.fdc.channels[ch].cvPreload = none) →
    let cmd : Instr := .fdcFloorRefresh
    (s.dev.lpc.state ≠ .up → exec cmd s = .next { s with dev := s.dev.take cmd }) ∧
    (s.dev.lpc.state = .up → Runs cmd s fun d => FeedOnly (s.dev.take cmd) d ∧
      ∀ (ch : Fin 2) (k : FeedCfg), s.dev.fdc.channels[ch].cfg = some k →
        RefreshGives ch k s.dev.fdc.channels[ch].cv (fun e => e.2.capacity.toNat) s.dev d)

/-- A CV waiting is taken at the next refresh in any loop state, with capacity and delivered heat, and the feed part with them is
staged; in UP the sharing and the mass goal of that refresh use it. Heat sharing, in two passes: each channel's weighted part of the
demand, capped at its capacity and 0 without weights, then of the excess the part of its headroom, or all of it where the excess
covers the headroom, each division truncated. So no target is above its capacity, together they are at most the demand, and where
the capacities carry it they fall short by at most one unit a channel.
(An own channel that has just taken a CV is shared by its new capacity, every other by its image: log 17. The turn-back check is of
channels that were RUNNING when the refresh began: log 41. A channel that its own image does not yet show READY or RUNNING has
target heat 0: log 59.) -/
def Obligations.CalorificValuesAreTakenAndTargetsStayWithinCapacity : Prop :=
  (∀ (ch : Fin 2) (s : State) (k : FeedCfg) (cv : Nat), s.dev.lpc.state ≠ .up → s.dev.fdc.channels[ch].cfg = some k →
    s.dev.fdc.channels[ch].cvPreload = some cv → Runs .fdcFloorRefresh s fun d =>
      let c := s.dev.fdc.channels[ch]
      let basis := if s.dev.hasWeigher ch && !c.openLoop && c.rateSeen then c.measured
        else c.activeFine * k.ratePerFine * c.trim / 100000
      d.fdc.channels[ch] = { c with
        cv := cv, cvPreload := none, capacity := k.maxRate * cv / 3600
        delivered := if c.state = .running ∨ c.state = .held then basis * cv / 3600 else 0 } ∧
      (s.dev.feedDuty = true → d.lpc.staging.feed =
        some ((List.finRange 2).filterMap fun i => (d.fdc.channels[i]).entry i)) ∧
      FeedOnly (s.dev.take .fdcFloorRefresh) d ∧ d.dou = s.dev.dou ∧ d.piu = s.dev.piu ∧ d.alm = s.dev.alm) ∧
  (∀ s : State, s.dev.lpc.state = .up →
    let waiting := fun ch : Fin 2 => s.dev.fdc.channels[ch].cvPreload
    let fresh := fun ch : Fin 2 => match s.dev.fdc.channels[ch].cfg, waiting ch with
      | some k, some cv => k.maxRate * cv / 3600
      | _, _ => s.dev.fdc.channels[ch].capacity
    let capacity := fun e : Fin 16 × FeedEntry =>
      match (List.finRange 2).find? fun ch => (waiting ch).isSome && e.1 == s.dev.own && e.2.channel.toNat == ch.val + 1 with
      | some ch => fresh ch
      | none => e.2.capacity.toNat
    Runs .fdcFloorRefresh s fun d => FeedOnly (s.dev.take .fdcFloorRefresh) d ∧
      ∀ (ch : Fin 2) (k : FeedCfg), s.dev.fdc.channels[ch].cfg = some k →
        let cv := (waiting ch).getD s.dev.fdc.channels[ch].cv
        d.fdc.channels[ch].cv = cv ∧ d.fdc.channels[ch].cvPreload = none ∧ d.fdc.channels[ch].capacity = fresh ch ∧
        RefreshGives ch k cv capacity s.dev d) ∧
  (∀ (demand : Nat) (l : List (Nat × Nat)),
    (shareHeat demand l).length = l.length ∧
    (∀ p ∈ l.zip (shareHeat demand l), p.2 ≤ p.1.1) ∧
    (shareHeat demand l).sum ≤ demand ∧
    (demand ≤ (l.map (·.1)).sum → demand ≤ (shareHeat demand l).sum + l.length) ∧
    ((l.map (·.1)).sum ≤ demand → shareHeat demand l = l.map (·.1))) ∧
  (∀ (demand : Nat) (channels : List (Nat × Nat)),
    let weights := (channels.map fun c => c.2).sum
    let first := fun c : Nat × Nat => if weights = 0 then 0 else min c.1 (demand * c.2 / weights)
    let excess := demand - (channels.map first).sum
    let headroom := (channels.map fun c => c.1 - first c).sum
    (channels.map first).sum ≤ demand ∧
    shareHeat demand channels = channels.map fun c =>
      first c + if excess < headroom then (c.1 - first c) * excess / headroom else c.1 - first c)


/-! ## Grate cooler -/

/-- The compartment requests by state, for a configured compartment; any other number is a BAD FIELD.
(ESTOP is read from the line state: log 15.) -/
def Obligations.CoolerRequestsStartAndStopCompartments : Prop :=
  ∀ (b : Byte) (s : State), s.dev.ppt.started = true → s.dev.coolerDuty = true →
    let after := fun (cmd : Instr) (d : Station) => exec cmd s = .next { s with dev := d }
    let enable : Instr := .coolerEnable b
    let disable : Instr := .coolerDisable b
    let clear : Instr := .grateClearFault b
    ((∀ i : Fin 4, s.dev.gcc.comps[i].cfg ≠ none → b.toNat ≠ i.val + 1) →
      ∀ cmd ∈ [enable, disable, clear], after cmd ((s.dev.take cmd).answer .badField 0 [])) ∧
    (∀ (i : Fin 4) (k : CompCfg), b.toNat = i.val + 1 → s.dev.gcc.comps[i].cfg = some k →
      let c := s.dev.gcc.comps[i]
      let estop := s.dev.lineActive .estop
      let inStroke := c.state = .forward ∨ c.state = .dwell ∨ c.state = .returning
      let change := fun (cmd : Instr) (f : Compartment → Compartment) => { s.dev.take cmd with
        gcc := { s.dev.gcc with comps := vecModify s.dev.gcc.comps i f } }
      let stopped := fun (f : Gcc → Gcc) => Accepted (fun x => x = { s.dev.take disable with
        gcc := f s.dev.gcc
        lpc := { s.dev.lpc with staging := { s.dev.lpc.staging with cooler := some (f s.dev.gcc).part } } })
      (c.state = .stopped → estop = true → after enable ((s.dev.take enable).answer .refused 13 [])) ∧
      (c.state = .stopped → estop = false → s.dev.gcc.holder ≠ none →
        Runs enable s (Accepted (Waits i (change enable fun c => { c with due := some s.dev.now })))) ∧
      (∀ l, c.state = .stopped → estop = false → s.dev.gcc.holder = none → s.dev.gcc.queue = [] →
        lineReady .strokeForward .strokeReturn i l s.dev →
        Runs enable s (Accepted (Strokes i k l (change enable fun c => { c with due := some s.dev.now })))) ∧
      (inStroke → c.stopAtEnd = true →
        after enable ((change enable fun c => { c with stopAtEnd := false }).answer .ok 0 [])) ∧
      (c.state ≠ .stopped → ¬ (inStroke ∧ c.stopAtEnd = true) → after enable ((s.dev.take enable).answer .wrongState 0 [])) ∧
      (c.state = .stopped → after disable ((s.dev.take disable).answer .ok 0 [])) ∧
      (c.state = .rest → Runs disable s (stopped fun g =>
        { g with comps := vecModify g.comps i fun c => { c with state := .stopped, due := none } })) ∧
      (c.state = .waiting → Runs disable s (stopped fun g =>
        { g with comps := vecModify g.comps i fun c => { c with state := .stopped }
                 queue := g.queue.filter fun j => j ≠ i })) ∧
      (c.state = .fault → after disable ((s.dev.take disable).answer .wrongState 0 [])) ∧
      (inStroke → after disable ((change disable fun c => { c with stopAtEnd := true }).answer .ok 0 [])) ∧
      (c.state ≠ .fault → after clear ((s.dev.take clear).answer .wrongState 0 [])) ∧
      (c.state = .fault → estop = true → after clear ((s.dev.take clear).answer .refused 13 [])) ∧
      (c.state = .fault → estop = false → c.endForward = true ∧ c.endReturn = true →
        after clear ((s.dev.take clear).answer .refused 14 [])) ∧
      (c.state = .fault → estop = false → ¬ (c.endForward = true ∧ c.endReturn = true) →
        Runs clear s (Accepted fun x =>
          x.gcc = (change clear fun c => { c with state := .stopped, cause := .none }).gcc ∧
          x.condition .grateStrokeTimeout (i.val + 1) = false ∧ x.condition .limitConflict (i.val + 1) = false ∧
          x.lpc.staging.cooler = some x.gcc.part ∧ x.dou = s.dev.dou ∧ GrateOnly (s.dev.take clear) x)))

/-- The stroke: due time reached, forward under the grant, dwell, return, and rest until the next due time; a stop asked for is made
at the end of the stroke, and a return that ends at or after the due time leads to WAITING in the same event, STROKE RETURN being
OFF in each. The grant that FORWARD releases passes to the head of the queue, which begins its stroke in the same event. The cooler
part shows the count of cycling compartments, the state they and the faulted ones give, and the sum of the cycling compartments'
throughputs. -/
def Obligations.StrokesRunForwardDwellAndReturn : Prop :=
  ∀ (i : Fin 4) (s : State) (k : CompCfg), s.dev.gcc.comps[i].cfg = some k →
    let now := s.dev.now
    let c := s.dev.gcc.comps[i]
    let due : Instr := .dueTimeReached i
    let forward : Instr := .gccEndForwardChange i true
    let back : Instr := .gccEndReturnChange i true
    let returning := some (CompTimer.returnLimit, now + k.returnLimit * 1000)
    let alone := s.dev.gcc.holder = some i ∧ s.dev.gcc.queue = []
    (c.state = .rest → s.dev.gcc.holder ≠ none → Runs due s (Waits i (s.dev.take due))) ∧
    (∀ l, c.state = .rest → s.dev.gcc.holder = none → s.dev.gcc.queue = [] →
      lineReady .strokeForward .strokeReturn i l s.dev → Runs due s (Strokes i k l (s.dev.take due))) ∧
    (c.state ≠ .rest → exec due s = .next { s with dev := s.dev.take due }) ∧
    (∀ l, c.state = .forward → c.endReturn = false → k.dwell ≠ 0 → alone →
      s.dev.findOut .strokeForward .compartment (i.val + 1) = some l → Runs forward s fun d =>
        d.gcc.comps[i] = { c with endForward := true, state := .dwell, timer := some (.dwell, now + k.dwell * 1000) } ∧
        d.gcc.holder = none ∧ d.dou.lines[l] = { s.dev.dou.lines[l] with on := false, pin := false } ∧
        GrateOnly (s.dev.take forward) d) ∧
    (∀ (l h : Fin 16) (j : Fin 4) (rest : List (Fin 4)) (kj : CompCfg), c.state = .forward → c.endReturn = false → k.dwell ≠ 0 →
      s.dev.gcc.holder = some i → s.dev.gcc.queue = j :: rest → j ≠ i → s.dev.gcc.comps[j].cfg = some kj →
      s.dev.findOut .strokeForward .compartment (i.val + 1) = some l → lineReady .strokeForward .strokeReturn j h s.dev →
      let next := s.dev.gcc.comps[j]
      Runs forward s fun d =>
        d.gcc.comps[i] = { c with endForward := true, state := .dwell, timer := some (.dwell, now + k.dwell * 1000) } ∧
        d.gcc.holder = some j ∧ d.gcc.queue = rest ∧
        d.gcc.comps[j] = { next with
          shadow := next.preload, due := some (now + 600000 / next.preload * 1000), state := .forward
          timer := some (.forwardLimit, now + kj.forwardLimit * 1000) } ∧
        d.dou.lines[l] = { s.dev.dou.lines[l] with on := false, pin := false } ∧
        d.dou.lines[h] = { s.dev.dou.lines[h] with on := true, pin := true } ∧
        .sruContribution (.stroke j) ∈ d.signals ∧ GrateOnly (s.dev.take forward) d) ∧
    (∀ (l r : Fin 16), c.state = .forward → c.endReturn = false → k.dwell = 0 → alone →
      s.dev.findOut .strokeForward .compartment (i.val + 1) = some l →
      s.dev.findOut .strokeReturn .compartment (i.val + 1) = some r → s.dev.dou.lines[r].forced = false →
      Runs forward s fun d =>
        d.gcc.comps[i] = { c with endForward := true, state := .returning, timer := returning } ∧ d.gcc.holder = none ∧
        d.dou.lines[l] = { s.dev.dou.lines[l] with on := false, pin := false } ∧
        d.dou.lines[r] = { s.dev.dou.lines[r] with on := true, pin := true } ∧ GrateOnly (s.dev.take forward) d) ∧
    (∀ (r : Fin 16) (e : Nat), c.timer = some (.dwell, e) → lineReady .strokeReturn .strokeForward i r s.dev →
      Runs (.dwellExpiry i) s fun d =>
        d.gcc = { s.dev.gcc with comps := vecModify s.dev.gcc.comps i fun c =>
          { c with state := .returning, timer := returning } } ∧
        d.dou = { s.dev.dou with lines := vecModify s.dev.dou.lines r fun x => { x with on := true, pin := true } } ∧
        GrateOnly (s.dev.take (.dwellExpiry i)) d) ∧
    (c.state = .returning → c.endForward = false → c.faultPending = false → c.stopAtEnd = true → Runs back s fun d =>
      d.gcc = { s.dev.gcc with comps := vecModify s.dev.gcc.comps i fun c =>
        { c with endReturn := true, state := .stopped, stopAtEnd := false, timer := none } } ∧
      (∀ r, s.dev.findOut .strokeReturn .compartment (i.val + 1) = some r →
        d.dou.lines[r] = { s.dev.dou.lines[r] with on := false, pin := false }) ∧
      GrateOnly (s.dev.take back) d) ∧
    (∀ t r, c.state = .returning → c.endForward = false → c.faultPending = false → c.stopAtEnd = false →
      c.due = some t → now < t → s.dev.findOut .strokeReturn .compartment (i.val + 1) = some r → Runs back s fun d =>
        d.gcc = { s.dev.gcc with comps := vecModify s.dev.gcc.comps i fun c =>
          { c with endReturn := true, state := .rest, timer := none } } ∧
        d.dou.lines[r] = { s.dev.dou.lines[r] with on := false, pin := false } ∧ GrateOnly (s.dev.take back) d) ∧
    (∀ r, c.state = .returning → c.endForward = false → c.faultPending = false → c.stopAtEnd = false →
      (∀ t, c.due = some t → t ≤ now) → s.dev.findOut .strokeReturn .compartment (i.val + 1) = some r →
      let returned := { s.dev.take back with
        gcc := { s.dev.gcc with comps := vecModify s.dev.gcc.comps i fun c => { c with endReturn := true, timer := none } }
        dou := { s.dev.dou with lines := vecModify s.dev.dou.lines r fun x => { x with on := false, pin := false } } }
      (s.dev.gcc.holder ≠ none → Runs back s (Waits i returned)) ∧
      (∀ l, s.dev.gcc.holder = none → s.dev.gcc.queue = [] → lineReady .strokeForward .strokeReturn i l returned →
        Runs back s (Strokes i k l returned))) ∧
    exec (.gccEndForwardChange i false) s = .next { s with dev := { s.dev.take (.gccEndForwardChange i false) with
      gcc := { s.dev.gcc with comps := vecModify s.dev.gcc.comps i fun c => { c with endForward := false } } } } ∧
    exec (.gccEndReturnChange i false) s = .next { s with dev := { s.dev.take (.gccEndReturnChange i false) with
      gcc := { s.dev.gcc with comps := vecModify s.dev.gcc.comps i fun c => { c with endReturn := false } } } }

/-- The faults: both limits ACTIVE, a return that passes its limit, a forward limit passed and the return that follows it, and the
emergency stop, which faults every configured compartment and takes the grant away. A held-off LINE ON, at the grant or at the
return, is the emergency stop of that compartment, and a grant that is released passes so through a queue of held-off compartments
until it is empty.
(That no grant passes at an emergency stop is the model's choice: log 16; that the emergency stop leaves fault pending and
stop-at-stroke-end as they stand is read from R142's silence: log 62.) -/
def Obligations.StrokeFaultsStopTheCompartment : Prop :=
  (∀ (i : Fin 4) (s : State) (k : CompCfg), s.dev.gcc.comps[i].cfg = some k →
    let c := s.dev.gcc.comps[i]
    let forward : Instr := .gccEndForwardChange i true
    let back : Instr := .gccEndReturnChange i true
    let limit : Instr := .forwardLimitExpiry i
    (c.state ≠ .fault → c.endReturn = true → Runs forward s fun d =>
      d.condition .limitConflict (i.val + 1) = true ∧
      CompFaulted .limitConflict i { s.dev.take forward with gcc := { s.dev.gcc with
        comps := vecModify s.dev.gcc.comps i fun c => { c with endForward := true } } } d) ∧
    (c.state ≠ .fault → c.endForward = true → Runs back s fun d =>
      d.condition .limitConflict (i.val + 1) = true ∧
      CompFaulted .limitConflict i { s.dev.take back with gcc := { s.dev.gcc with
        comps := vecModify s.dev.gcc.comps i fun c => { c with endReturn := true } } } d) ∧
    (c.state = .returning → c.endForward = false → c.faultPending = true → Runs back s fun d =>
      CompFaulted .strokeTimeout i { s.dev.take back with gcc := { s.dev.gcc with
        comps := vecModify s.dev.gcc.comps i fun c => { c with endReturn := true } } } d) ∧
    (∀ e, c.timer = some (.returnLimit, e) → Runs (.returnLimitExpiry i) s fun d =>
      d.condition .grateStrokeTimeout (i.val + 1) = true ∧
      CompFaulted .strokeTimeout i (s.dev.take (.returnLimitExpiry i)) d) ∧
    (∀ (e : Nat) (l r : Fin 16), c.timer = some (.forwardLimit, e) →
      s.dev.findOut .strokeForward .compartment (i.val + 1) = some l →
      s.dev.findOut .strokeReturn .compartment (i.val + 1) = some r → s.dev.dou.lines[r].forced = false →
      i ∉ s.dev.gcc.queue → Runs limit s fun d =>
        d.gcc.comps[i] = { c with
          faultPending := true, cause := .strokeTimeout, state := .returning
          timer := some (.returnLimit, s.dev.now + k.returnLimit * 1000) } ∧
        d.condition .grateStrokeTimeout (i.val + 1) = true ∧ d.gcc.holder ≠ some i ∧
        d.dou.lines[l] = { s.dev.dou.lines[l] with on := false, pin := false } ∧
        d.dou.lines[r] = { s.dev.dou.lines[r] with on := true, pin := true } ∧ GrateOnly (s.dev.take limit) d) ∧
    (∀ (e : Nat) (r : Fin 16), c.timer = some (.forwardLimit, e) →
      s.dev.findOut .strokeReturn .compartment (i.val + 1) = some r → s.dev.dou.lines[r].forced = true →
      s.dev.gcc.queue = [] → Runs limit s fun d =>
        d.gcc.comps[i] = { c with faultPending := true, state := .fault, cause := .estop, timer := none } ∧
        d.gcc.holder ≠ some i ∧ d.gcc.queue = [] ∧ d.condition .grateStrokeTimeout (i.val + 1) = false ∧
        d.condition .limitConflict (i.val + 1) = false ∧ d.dou.lines[r] = { s.dev.dou.lines[r] with on := false, pin := false } ∧
        .sruContribution (.grateFault i) ∈ d.signals ∧ GrateOnly (s.dev.take limit) d) ∧
    (s.dev.gcc.holder = some i → i ∉ s.dev.gcc.queue → queueHeldOff s.dev →
      (c.state = .forward → c.endReturn = false → k.dwell ≠ 0 → Runs forward s fun d =>
        QueueFaulted (s.dev.take forward) d ∧ GrateOnly (s.dev.take forward) d ∧
        d.gcc.comps[i] = { c with
          endForward := true, state := .dwell, timer := some (.dwell, s.dev.now + k.dwell * 1000) }) ∧
      (c.state ≠ .fault → c.endReturn = true → Runs forward s fun d =>
        QueueFaulted (s.dev.take forward) d ∧ GrateOnly (s.dev.take forward) d ∧
        d.gcc.comps[i] = { c with
          endForward := true, state := .fault, cause := .limitConflict, timer := none, faultPending := false
          stopAtEnd := false }) ∧
      (∀ (e : Nat) (r : Fin 16), c.timer = some (.forwardLimit, e) →
        s.dev.findOut .strokeReturn .compartment (i.val + 1) = some r → s.dev.dou.lines[r].forced = true →
        Runs limit s fun d => QueueFaulted (s.dev.take limit) d ∧ GrateOnly (s.dev.take limit) d ∧
          d.gcc.comps[i] = { c with faultPending := true, state := .fault, cause := .estop, timer := none })) ∧
    (∀ l : Fin 16, c.state = .rest → s.dev.gcc.holder = none → s.dev.gcc.queue = [] →
      s.dev.findOut .strokeForward .compartment (i.val + 1) = some l → s.dev.dou.lines[l].forced = true →
      Runs (.dueTimeReached i) s fun d =>
        d.gcc.holder = none ∧ d.gcc.queue = [] ∧
        d.condition .grateStrokeTimeout (i.val + 1) = false ∧ d.condition .limitConflict (i.val + 1) = false ∧
        CompFaulted .estop i { s.dev.take (.dueTimeReached i) with gcc := { s.dev.gcc with
          comps := vecModify s.dev.gcc.comps i fun c =>
            { c with shadow := c.preload, due := some (s.dev.now + 600000 / c.preload * 1000) } } } d) ∧
    (∀ (e : Nat) (r : Fin 16), c.timer = some (.dwell, e) →
      s.dev.findOut .strokeReturn .compartment (i.val + 1) = some r → s.dev.dou.lines[r].forced = true →
      c.state ≠ .fault → Runs (.dwellExpiry i) s (CompFaulted .estop i (s.dev.take (.dwellExpiry i))))) ∧
  (∀ s : State,
    exec (.gccEstopChange false) s = .next { s with dev := s.dev.take (.gccEstopChange false) } ∧
    Runs (.gccEstopChange true) s fun d =>
      GrateOnly (s.dev.take (.gccEstopChange true)) d ∧ d.gcc.holder = none ∧ d.gcc.queue = [] ∧
      d.gcc.fans = s.dev.gcc.fans ∧
      ∀ i : Fin 4,
        let c := s.dev.gcc.comps[i]
        d.gcc.comps[i] = (if c.cfg.isSome then { c with state := .fault, cause := .estop, timer := none } else c) ∧
        (c.cfg.isSome = true →
          d.condition .grateStrokeTimeout (i.val + 1) = false ∧ d.condition .limitConflict (i.val + 1) = false ∧
          (∀ (k : OutKind) (l : Fin 16), k = .strokeForward ∨ k = .strokeReturn →
            s.dev.findOut k .compartment (i.val + 1) = some l →
            d.dou.lines[l] = { s.dev.dou.lines[l] with on := false, pin := false }) ∧
          (c.state ≠ .fault → d.ppt.events &&& 32 = 32)) ∧
        d.signals.count (.sruContribution (.grateFault i)) =
          (s.dev.take (.gccEstopChange true)).signals.count (.sruContribution (.grateFault i)) +
            if c.cfg.isSome ∧ c.state ≠ .fault then 1 else 0)

/-- The stroke rates: the base rate of the host, a BAD FIELD for a compartment that is not configured, the pressure that FOLLOW
follows, its loss, and the mode of each compartment at a refresh, in every loop state. Each pressure, and its loss, is judged by the
PRESSURE HIGH and PRESSURE LOW points of the compartment.
(Points of one compartment judge it lowest index first: log 63.) -/
def Obligations.StrokeRatesFollowPressureAndMode : Prop :=
  (∀ (b : Byte) (rate : Half) (s : State), s.dev.ppt.started = true → s.dev.coolerDuty = true →
    (∀ i : Fin 4, s.dev.gcc.comps[i].cfg ≠ none → b.toNat ≠ i.val + 1) →
    exec (.setStrokeBase b rate) s = .next { s with dev := (s.dev.take (.setStrokeBase b rate)).answer .badField 0 [] }) ∧
  ∀ (i : Fin 4) (s : State) (k : CompCfg), s.dev.gcc.comps[i].cfg = some k →
    let c := s.dev.gcc.comps[i]
    let follow := fun (base pressure : Nat) =>
      (max (k.minRate : Int) (min (k.maxRate : Int) ((base : Int) +
        Int.tdiv ((k.gain : Int) * ((pressure : Int) - (k.target : Int))) 1000))).toNat
    let comps := fun (f : Compartment → Compartment) => { s.dev.gcc with comps := vecModify s.dev.gcc.comps i f }
    (∀ (b : Byte) (rate : Half), b.toNat = i.val + 1 → s.dev.ppt.started = true → s.dev.coolerDuty = true →
      let cmd : Instr := .setStrokeBase b rate
      (rate.toNat < k.minRate ∨ k.maxRate < rate.toNat →
        exec cmd s = .next { s with dev := (s.dev.take cmd).answer .badField 0 [] }) ∧
      (k.minRate ≤ rate.toNat → rate.toNat ≤ k.maxRate →
        exec cmd s = .next { s with dev := Station.answer .ok 0 [] { s.dev.take cmd with
          gcc := comps fun c => { c with
            baseRate := rate.toNat
            preload := match c.mode with
              | .minimum => c.preload
              | .base => rate.toNat
              | .follow => if c.pressureValid then follow rate.toNat c.pressure else rate.toNat } } })) ∧
    (∀ (period width : Nat) (tb : Timebase),
      let cmd : Instr := .gccPressureCapture i period width tb
      let us := period * (match tb with | .us1 => 1 | .us8 => 8 | .us64 => 64 | .us512 => 512)
      let pressure := (max 0 (min 30000 (((1000000 / us : Nat) - (k.f0 : Int)) * k.scale))).toNat
      (period = 0 → exec cmd s = .next { s with dev := s.dev.take cmd }) ∧
      let after := comps fun c => { c with
        pressure := pressure, pressureValid := true
        preload := if c.mode = .follow then follow c.baseRate pressure else c.preload }
      (period ≠ 0 → Runs cmd s fun d => AlarmsOnly { s.dev.take cmd with gcc := after } d ∧
        ∃ x, PressureHanded (i.val + 1) (some pressure) { s.dev.take cmd with
            gcc := comps fun c => { c with pressure := pressure, pressureValid := true } } x ∧
          d = { x with gcc := after })) ∧
    (let cmd : Instr := .gccPressureNoSignal i
     let after := comps fun c => { c with
      pressureValid := false, preload := if c.mode = .follow then c.baseRate else c.preload }
     Runs cmd s fun d => AlarmsOnly { s.dev.take cmd with gcc := after } d ∧
      ∃ x, PressureHanded (i.val + 1) none { s.dev.take cmd with
          gcc := comps fun c => { c with pressureValid := false } } x ∧
        d = { x with gcc := after }) ∧
    (Runs .gccFloorRefresh s fun d =>
      d = { s.dev.take .gccFloorRefresh with gcc := { s.dev.gcc with comps := d.gcc.comps } } ∧
      let mode : RateMode := if s.dev.alight .a = false then .minimum
        else if (s.dev.findChannel .pressure (i.val + 1)).isSome then .follow else .base
      d.gcc.comps[i] = if mode = c.mode then c else { c with
        mode := mode
        preload := match mode with
          | .minimum => k.minRate
          | .base => c.baseRate
          | .follow => if c.pressureValid then follow c.baseRate c.pressure else c.baseRate })

/-- The fans: SET FAN writes the preload of the fan's line, the active value is kept, and fan seconds are counted while any fan turns. -/
def Obligations.FansRunAndAreCounted : Prop :=
  (∀ (b : Byte) (ref : Half) (s : State), s.dev.ppt.started = true → s.dev.coolerDuty = true →
    let cmd : Instr := .setFan b ref
    (4080 < ref.toNat ∨ b.toNat < 1 ∨ 4 < b.toNat ∨ s.dev.findOut .reference .fan b.toNat = none →
      exec cmd s = .next { s with dev := (s.dev.take cmd).answer .badField 0 [] }) ∧
    (∀ l, 1 ≤ b.toNat → b.toNat ≤ 4 → ref.toNat ≤ 4080 → s.dev.findOut .reference .fan b.toNat = some l →
      Runs cmd s (Accepted fun x => x.dou.lines[l].preload = ref.toNat ∧ OwnLines .grateCooler s.dev.dou x.dou ∧
        (∀ m, m ≠ l → x.dou.lines[m] = s.dev.dou.lines[m]) ∧
        x = { s.dev.take cmd with dou := x.dou, signals := x.signals }))) ∧
  (∀ (fan : Fin 4) (value : Nat) (cause : ChangeCause) (s : State),
    let cmd : Instr := .gccFanActiveValueChange fan value cause
    let fans := vecModify s.dev.gcc.fans fan fun _ => value
    exec cmd s = .next { s with dev := { s.dev.take cmd with
      gcc := { s.dev.gcc with
        fans := fans
        fanSecond := if (∃ i : Fin 4, 0 < fans[i]) then some (s.dev.gcc.fanSecond.getD (s.dev.now + 1000000)) else none } } }) ∧
  (∀ (s : State) (e : Nat), s.dev.gcc.fanSecond = some e →
    exec .fanRunSecondTimerExpiry s = .next { s with dev := { s.dev.take .fanRunSecondTimerExpiry with
      gcc := { s.dev.gcc with fanSecond := some (s.dev.now + 1000000) }
      signals := s.dev.signals.erase .fanRunSecondTimerExpiry ++ [.sruContribution .fanSecond] } })


/-! ## Alarm unit -/

/-- A condition that is reported is taken by the points that watch it: the on-delay or the off-delay starts, a change back stops it,
and a delay of 0 ends at once. At its end the qualified condition becomes present and a point that can raise does so, with a new
occurrence, last in the active list; or it becomes absent and the point returns, latches or goes to NORMAL out of the list. A raise
hands on itself and a flood episode that it brings, and each change a new length of the active list; the summary, the trip request
of a TRIP point and the event follow. The announcement is left out while the point is shelved, deferred as pending in class LOW in
FLOOD, where it is pending already and where the queue has no place for it, and else made.
(A RAISED UNACKED point with the gone mark that raises again is announced though its state is the same: log 18. Points that watch
one condition take it lowest index first: log 63.) -/
def Obligations.DelaysRaiseAndReturnPoints : Prop :=
  (∀ (i : Fin 32) (s : State) (c : PointCfg) (e : Nat), s.dev.alm.points[i].cfg = some c →
    let p := s.dev.alm.points[i]
    let on : Instr := .onDelayExpiry i
    let off : Instr := .offDelayExpiry i
    (p.delay = some (.on e) → Runs on s (PointRaises i { p with qualified := true, delay := none } (s.dev.take on))) ∧
    (p.delay = some (.off e) →
      Runs off s (PointReturns i c.latched { p with qualified := false, delay := none } (s.dev.take off)))) ∧
  (∀ (kind : CondKind) (inst : Nat) (v : Bool) (d : Station), Reported kind inst v d (d.report kind inst v))

/-- ACK ALARM: an own point is acknowledged in its current occurrence, leaving the list where it goes to NORMAL, and announced,
deferred or left out as a raise is; a peer's point through an ACK REQUEST notice for its mirror entry. An ACK REQUEST that a train
brings for this station is applied here: it acknowledges the own point in its current occurrence, and one for another occurrence is
counted too late. -/
def Obligations.AcknowledgementsReachOwnAndRemotePoints : Prop :=
  (∀ (station point occurrence : Byte) (s : State), s.dev.ppt.started = true →
    let cmd : Instr := .ackAlarm station point occurrence
    let d := s.dev.take cmd
    let after := fun (x : Station) => exec cmd s = .next { s with dev := x }
    (station.toNat < 1 ∨ 16 < station.toNat ∨ 31 < point.toNat → after (d.answer .badField 0 [])) ∧
    (∀ i : Fin 32, station = stationByte s.dev.own → point.toNat = i.val →
      let p := s.dev.alm.points[i]
      (p.cfg = none → after (d.answer .badField 0 [])) ∧
      (p.cfg ≠ none → p.occurrence ≠ occurrence → after (d.answer .tooLate 0 [])) ∧
      (p.cfg ≠ none → p.occurrence = occurrence → p.state = .raisedUnacked → p.gone = false →
        Runs cmd s (Accepted fun x => PointSettled i { p with state := .raisedAcked } s.dev.alm.active d x)) ∧
      (p.cfg ≠ none → p.occurrence = occurrence →
        (p.state = .raisedUnacked ∧ p.gone = true) ∨ p.state = .returnedUnacked →
        Runs cmd s (Accepted fun x => PointSettled i { p with state := .normal, gone := false, firstOut := false }
          (s.dev.alm.active.filter fun j => j ≠ i) d x)) ∧
      (p.cfg ≠ none → p.occurrence = occurrence → p.state = .normal ∨ p.state = .raisedAcked →
        after (d.answer .ok 0 []))) ∧
    (∀ owner : Fin 16, owner ≠ s.dev.own → station = stationByte owner → point.toNat ≤ 31 →
      ((∀ e ∈ s.dev.alm.mirror, ¬ (e.owner = owner ∧ e.body.point = point)) → after (d.answer .refused 15 [])) ∧
      (∀ e, (s.dev.alm.mirror.find? fun e => e.owner == owner && e.body.point == point) = some e →
        (e.silent = true → after (d.answer .refused 16 [])) ∧
        (e.silent = false → e.body.occurrence ≠ occurrence → after (d.answer .tooLate 0 [])) ∧
        (e.silent = false → e.body.occurrence = occurrence → e.body.state = .raisedAcked → after (d.answer .ok 0 [])) ∧
        (e.silent = false → e.body.occurrence = occurrence → e.body.state ≠ .raisedAcked → s.dev.lpc.queue.length < 16 →
          after (Station.answer .ok 0 [] { d with lpc := { s.dev.lpc with queue := s.dev.lpc.queue ++
            [{ body := .ackRequest station point occurrence, placed := false, seq := 0, mask := 0, rotations := 0 }] } })) ∧
        (e.silent = false → e.body.occurrence = occurrence → e.body.state ≠ .raisedAcked → 16 ≤ s.dev.lpc.queue.length →
          after (d.answer .queueFull 0 []))))) ∧
  (∀ (point occurrence : Byte) (d : Station),
    let x := d.applyAck point occurrence
    ((∀ i : Fin 32, point.toNat = i.val → d.alm.points[i].cfg = none) → x = d) ∧
    (∀ i : Fin 32, point.toNat = i.val → d.alm.points[i].cfg ≠ none →
      let p := d.alm.points[i]
      (p.occurrence ≠ occurrence → x = { d with signals := d.signals ++ [.sruContribution .ackTooLate] }) ∧
      (p.occurrence = occurrence → p.state = .raisedUnacked → p.gone = false →
        PointSettled i { p with state := .raisedAcked } d.alm.active d x) ∧
      (p.occurrence = occurrence → (p.state = .raisedUnacked ∧ p.gone = true) ∨ p.state = .returnedUnacked →
        PointSettled i { p with state := .normal, gone := false, firstOut := false }
          (d.alm.active.filter fun j => j ≠ i) d x) ∧
      (p.occurrence = occurrence → p.state = .normal ∨ p.state = .raisedAcked → x = d))) ∧
  (∀ (body : List Byte) (s : State) (i : Fin 16) (target point occurrence : Byte),
    s.dev.lpc.state = .up → s.dev.lpc.prevWrite = false →
    let cmd : Instr := .trainArrival body
    (∀ h, readHead (body.take 14) = some h → (h.origin = stationByte s.dev.own ↔ s.dev.lpc.origin = true)) →
    newNotices body s.dev = [(i, .ackRequest target point occurrence)] →
    let x := headTaken (readHead (body.take 14)) (trainCounted cmd s.dev)
    Runs cmd s fun d => d.alm = if target = stationByte s.dev.own then (x.applyAck point occurrence).alm else x.alm)

/-- Shelving: a point that is not of class TRIP is shelved for 1 to 480 minutes and leaves the summary; UNSHELVE and the expiry
bring it back, and announce or defer it where peers may hold another state. A point that is not configured is a BAD FIELD. The
summary counts the unacknowledged points that are not shelved and shows the highest class raised among them; the trip request is of
the first TRIP point in the active list, else of ESTOP with the lowest point that watches it; and a notice finds a place in the
waiting entry of its point or a free one. -/
def Obligations.ShelvingTakesAPointOutAndBack : Prop :=
  (∀ d : Station, AlarmsRead d) ∧
  (∀ (b : Byte) (minutes : Half) (s : State), s.dev.ppt.started = true →
    (∀ i : Fin 32, b.toNat = i.val → s.dev.alm.points[i].cfg = none) →
    ∀ cmd ∈ [Instr.shelve b minutes, .unshelve b], exec cmd s = .next { s with dev := (s.dev.take cmd).answer .badField 0 [] }) ∧
  ∀ (i : Fin 32) (b : Byte) (s : State) (c : PointCfg), s.dev.alm.points[i].cfg = some c → b.toNat = i.val →
    let p := s.dev.alm.points[i]
    let changed := fun (cmd : Instr) (f : Point → Point) =>
      let alm := { s.dev.alm with points := vecModify s.dev.alm.points i f }
      { s.dev.take cmd with
        alm := alm
        lpc := { s.dev.lpc with staging := { s.dev.lpc.staging with summary := some alm.summary } } }
    let back := fun (cmd : Instr) (d : Station) =>
      (p.shelf = none → d = s.dev.take cmd) ∧
      (p.shelf ≠ none → p.state = .normal → p.announced = .known .normal →
        d = changed cmd fun p => { p with shelf := none }) ∧
      (p.shelf ≠ none → p.state ≠ .normal ∨ p.announced ≠ .known .normal →
        let base := changed cmd fun p => { p with shelf := none }
        PointAnnounced i c { p with shelf := none } s.dev d ∧
        d = { base with
          alm := { base.alm with points := vecModify base.alm.points i fun q =>
            { q with pending := d.alm.points[i].pending, announced := d.alm.points[i].announced } }
          lpc := { base.lpc with queue := d.lpc.queue } })
    Runs (.shelfExpiry i) s (back (.shelfExpiry i)) ∧
    (s.dev.ppt.started = true → Runs (.unshelve b) s (Accepted (back (.unshelve b)))) ∧
    (s.dev.ppt.started = true → ∀ minutes : Half,
      let cmd : Instr := .shelve b minutes
      (minutes.toNat < 1 ∨ 480 < minutes.toNat → exec cmd s = .next { s with dev := (s.dev.take cmd).answer .badField 0 [] }) ∧
      (1 ≤ minutes.toNat → minutes.toNat ≤ 480 → c.cls = .trip →
        exec cmd s = .next { s with dev := (s.dev.take cmd).answer .refused 17 [] }) ∧
      (1 ≤ minutes.toNat → minutes.toNat ≤ 480 → c.cls ≠ .trip →
        exec cmd s = .next { s with dev := Station.answer .ok 0 [] (changed cmd fun p =>
          { p with shelf := some (s.dev.now + 60 * minutes.toNat * 1000000), pending := false }) }))

/-- The recent-raise list lets its oldest entry go, and FLOOD ends with it at the low threshold. A resubmission pass, there and at a
place free, submits what is pending by index until the queue refuses. A lost ALARM STATE is submitted again, or its point is left to
be announced. A refresh drops a peer's entries when its epoch has changed and marks silent owners; a peer's ALARM STATE, its epoch
checked first, replaces, adds or removes its entry, and a full mirror lets its earliest RAISED ACKED entry of class LOW go or counts
an overflow. A train brings both: the new ALARM STATE records of its slots, and the losses that its own slot shows.
(Every entry judged leaves the queue before the loss of any is handled: log 41. A placed notice without a returned record is judged
as come back with no new mark: log 47.) -/
def Obligations.FloodPassesAndTheMirrorFollowsTheFloor : Prop :=
  (∀ s : State,
    (Runs .almPlaceFree s (Resubmitted (s.dev.take .almPlaceFree))) ∧
    (let cmd : Instr := .recentRaiseExpiry
     (s.dev.alm.recent = [] → exec cmd s = .next { s with dev := s.dev.take cmd }) ∧
     (∀ x rest, s.dev.alm.recent = x :: rest →
      (s.dev.alm.flood = false ∨ s.dev.floodCfg.low < rest.length → exec cmd s = .next { s with dev := { s.dev.take cmd with
        alm := { s.dev.alm with recent := rest } } }) ∧
      (s.dev.alm.flood = true → rest.length ≤ s.dev.floodCfg.low →
        let alm := { s.dev.alm with recent := rest, flood := false }
        Runs cmd s (Resubmitted { s.dev.take cmd with
          alm := alm
          lpc := { s.dev.lpc with staging := { s.dev.lpc.staging with summary := some alm.summary } }
          ppt := { s.dev.ppt with events := s.dev.ppt.events ||| 1 } })))) ∧
    (let cmd : Instr := .almFloorRefresh
     let stale := fun j : Fin 16 => (s.dev.inView.any fun v => v.1 == j) && j != s.dev.own &&
      (match s.dev.lpc.floor[j].image, s.dev.alm.epochs[j] with
       | some g, some x => x != g.epoch
       | _, _ => false)
     let mirror := (s.dev.alm.mirror.filter fun e => !stale e.owner).map fun e =>
      { e with silent := !s.dev.lpc.live.contains e.owner }
     Runs cmd s fun d => d.alm.mirror = mirror ∧
      (∀ j : Fin 16, d.alm.epochs[j] =
        if (∃ v ∈ s.dev.inView, v.1 = j) ∧ j ≠ s.dev.own then s.dev.lpc.floor[j].image.map (·.epoch)
        else s.dev.alm.epochs[j]) ∧
      d = { s.dev.take cmd with
        alm := { s.dev.alm with mirror := d.alm.mirror, epochs := d.alm.epochs }
        ppt := { s.dev.ppt with events := if mirror = s.dev.alm.mirror then s.dev.ppt.events else s.dev.ppt.events ||| 1 } })) ∧
  (∀ (a : AlarmBody) (i : Fin 32) (c : PointCfg) (d : Station), a.point.toNat = i.val → d.alm.points[i].cfg = some c →
    let p := d.alm.points[i]
    let own : NoticeBody := .alarmState (p.body i c)
    let x := d.almNoticeLost (.alarmState a)
    let left := fun (q : Point) => { d with
      signals := d.signals ++ [.sruContribution .noticeLost]
      alm := { d.alm with points := vecModify d.alm.points i fun _ => q } }
    (p.shelf ≠ none → x = left { p with announced := .unknown }) ∧
    (p.shelf = none → p.pending = true ∨ (c.cls = .low ∧ d.alm.flood = true) →
      x = left { p with announced := .unknown, pending := true }) ∧
    (p.shelf = none → p.pending = false → ¬ (c.cls = .low ∧ d.alm.flood = true) →
      (d.lpc.accepts own = true →
        x = { left { p with pending := false, announced := .known p.state } with lpc := d.lpc.submitted own }) ∧
      (d.lpc.accepts own = false → x = left { p with pending := true }))) ∧
  (∀ (owner : Fin 16) (b : AlarmBody) (d : Station),
    let x := d.applyAlarm owner b
    let stale : Bool := match d.lpc.floor[owner].image, d.alm.epochs[owner] with
      | some g, some e => e != g.epoch
      | _, _ => false
    let mirror : List MirrorEntry := bif stale then d.alm.mirror.filter fun e => e.owner ≠ owner else d.alm.mirror
    let others := mirror.filter fun e => ¬ (e.owner = owner ∧ e.body.point = b.point)
    let added : MirrorEntry := { owner := owner, body := b, silent := false }
    let counted := fun (l : List MirrorEntry) (n : Nat) => x.alm.mirror = l ∧ x.alm.overflow = n
    (b.state = .normal → counted others d.alm.overflow) ∧
    (∀ e, b.state ≠ .normal → (mirror.find? fun e => e.owner = owner ∧ e.body.point = b.point) = some e →
      counted (others ++ [{ e with body := b }]) d.alm.overflow) ∧
    (b.state ≠ .normal → (∀ e ∈ mirror, ¬ (e.owner = owner ∧ e.body.point = b.point)) →
      (mirror.length < 64 → counted (mirror ++ [added]) d.alm.overflow) ∧
      (∀ early e late, 64 ≤ mirror.length → mirror = early ++ e :: late → e.body.cls = .low ∧ e.body.state = .raisedAcked →
        (∀ f ∈ early, ¬ (f.body.cls = .low ∧ f.body.state = .raisedAcked)) →
        counted (early ++ late ++ [added]) d.alm.overflow) ∧
      (64 ≤ mirror.length → (∀ f ∈ mirror, ¬ (f.body.cls = .low ∧ f.body.state = .raisedAcked)) →
        counted mirror (min 65535 (d.alm.overflow + 1)))) ∧
    x.alm.epochs[owner] = (match d.lpc.floor[owner].image with | some g => some g.epoch | none => d.alm.epochs[owner]) ∧
    (x.alm.mirror ≠ d.alm.mirror → x.ppt.events &&& 1 = 1) ∧
    x = { d with
      alm := { d.alm with mirror := x.alm.mirror, overflow := x.alm.overflow, epochs := x.alm.epochs }
      ppt := { d.ppt with events := x.ppt.events } }) ∧
  (∀ (body : List Byte) (s : State), s.dev.lpc.state = .up → NoDuplicate body s.dev →
    let cmd : Instr := .trainArrival body
    (∀ h, readHead (body.take 14) = some h → (h.origin = stationByte s.dev.own ↔ s.dev.lpc.origin = true)) →
    let x := headTaken (readHead (body.take 14)) (trainCounted cmd s.dev)
    let y := peersTaken body x
    let records := ownRecords body s.dev.own
    (∀ i b, s.dev.lpc.prevWrite = false → newNotices body s.dev = [(i, .alarmState b)] → Runs cmd s fun d =>
      d.alm = (Station.applyAlarm i b { x with lpc := { x.lpc with floor := d.lpc.floor } }).alm) ∧
    (∀ b, s.dev.lpc.prevWrite = true → y.lpc.losses records = [b] → Runs cmd s fun d =>
      d.alm = ((Station.almNoticeLost b { y with lpc := y.lpc.judged records }).report .noticeLoss 0 true).alm))


/-! ## Shift report unit -/

/-- The floor clock: each second advances it, and an advance onto a boundary closes the shift by the loop state; a not-UP second is
counted; SET FLOOR TIME submits a notice, and a TIME SET, brought to the origin by a train or first placed in its own slot at a
release, sets the clock and crosses at most once.
(Closing totals hold at their tops: log 30. What a duty or a compartment without a section adds to them: log 75. The TIME SETs first
placed at a release are applied after the convergence and the head: log 38.) -/
def Obligations.SecondsAdvanceTheClockAndCrossBoundaries : Prop :=
  (∀ (s : State) (e : Nat), s.dev.sru.second = some e →
    let time := s.dev.sru.time + 1
    let n := s.dev.sru.shift + 1
    let cmd : Instr := .secondTimerExpiry
    let d := { s.dev.take cmd with
      sru := { s.dev.sru with time := time, second := some (s.dev.now + 1000000) } }
    let crosses := s.dev.ppt.started = true ∧ time.toNat % 86400 ∈ s.dev.boundaries ∧
      s.dev.sru.shift ≠ 0 ∧ s.dev.sru.shift.toNat ≠ 65535 ∧ ¬ (s.dev.lpc.state = .up ∧ s.dev.lpc.origin = false)
    (¬ crosses → exec cmd s = .next { s with dev := d }) ∧
    (crosses → s.dev.lpc.state = .up → Runs cmd s (ShiftClosed .boundary n d)) ∧
    (crosses → s.dev.lpc.state ≠ .up → Runs cmd s (ShiftClosed .localClose n d))) ∧
  (∀ (s : State) (e : Nat), s.dev.sru.notUp = some e →
    exec .notUpSecondTimerExpiry s = .next { s with dev := { s.dev.take .notUpSecondTimerExpiry with
      sru := { s.dev.sru with
        notUp := some (s.dev.now + 1000000)
        acc := { s.dev.sru.acc with
          loop := { s.dev.sru.acc.loop with notUpSeconds := min 4294967295 (s.dev.sru.acc.loop.notUpSeconds + 1) }
          saturated := s.dev.sru.acc.saturated || decide (4294967295 < s.dev.sru.acc.loop.notUpSeconds + 1) } } } }) ∧
  (∀ (time : Word) (s : State), s.dev.ppt.started = true →
    let cmd : Instr := .setFloorTime time
    (s.dev.lpc.queue.length < 16 → exec cmd s = .next { s with dev := Station.answer .ok 0 [] { s.dev.take cmd with
      lpc := { s.dev.lpc with queue := s.dev.lpc.queue ++
        [{ body := .timeSet time, placed := false, seq := 0, mask := 0, rotations := 0 }] } } }) ∧
    (16 ≤ s.dev.lpc.queue.length → exec cmd s = .next { s with dev := (s.dev.take cmd).answer .queueFull 0 [] })) ∧
  (∀ (time : Word) (d : Station), (∀ b ∈ d.boundaries, b < 86400) →
    let set := { d with sru := { d.sru with time := time } }
    let crosses := ∃ t, d.sru.time.toNat < t ∧ t ≤ time.toNat ∧ t % 86400 ∈ d.boundaries
    (¬ crosses → d.applyTimeSet time = set) ∧ (crosses → d.applyTimeSet time = set.crossing)) ∧
  (∀ (body : List Byte) (s : State), s.dev.lpc.state = .up → s.dev.lpc.origin = true → s.dev.lpc.release ≠ .expired →
    (∀ h, readHead (body.take 14) = some h → h.origin = stationByte s.dev.own) → NoDuplicate body s.dev →
    let times := (newNotices body s.dev).filterMap fun e => match e.2 with | .timeSet t => some t | _ => none
    Runs (.trainArrival body) s fun d => d.sru = (times.foldl (fun d t => d.applyTimeSet t) s.dev).sru) ∧
  (∀ (s : State) (e : Nat), s.dev.lpc.release = .running e → s.dev.lpc.awaiting = false →
    Runs .releaseTimerExpiry s fun d =>
      d.sru = ((timesPlaced s.dev.lpc).foldl (fun d t => d.applyTimeSet t) s.dev.converge).sru)

/-- The open shift number is learned from heads and, at a release, from the live images: a provisional station adopts it without a
close, a greater number closes the open shift, a lower one changes nothing. A good head in UP without the origin flag is so taken,
and every release converges first: at the release timer, at a late return and where a claim is won.
(That a head without a shift number leaves an unresolved shift: log 64. That the refresh of that arrival is skipped is kept as a
mark: log 28. Closing totals hold at their tops: log 30. What a duty or a compartment without a section adds to them: log 75. The
TIME SETs first placed at a release are applied after the convergence and the head: log 38.) -/
def Obligations.HeadsAndReleasesMoveTheOpenShift : Prop :=
  (∀ (body : List Byte) (h : Head) (s : State), s.dev.lpc.state = .up → s.dev.lpc.origin = false →
    readHead (body.take 14) = some h → h.origin ≠ stationByte s.dev.own →
    Runs (.trainArrival body) s fun d =>
      d.sru = (s.dev.takeHead h.time h.shift).sru ∧
      d.lpc.staging.openShift = (s.dev.takeHead h.time h.shift).lpc.staging.openShift ∧
      d.lpc.staging.closing = (s.dev.takeHead h.time h.shift).lpc.staging.closing) ∧
  (let after := fun x : Station => ((timesPlaced x.lpc).foldl (fun d t => d.applyTimeSet t) x.converge).sru
   (∀ (s : State) (e : Nat), s.dev.lpc.release = .running e → s.dev.lpc.awaiting = false →
    Runs .releaseTimerExpiry s fun d => d.sru = after s.dev) ∧
   (∀ (body : List Byte) (s : State), s.dev.lpc.state = .up → s.dev.lpc.origin = true → s.dev.lpc.release = .expired →
    (∀ h, readHead (body.take 14) = some h → h.origin = stationByte s.dev.own) → NoDuplicate body s.dev →
    Runs (.trainArrival body) s fun d => d.sru = after (trainTaken body (trainCounted (.trainArrival body) s.dev))) ∧
   (∀ (hops : Byte) (s : State), s.dev.lpc.bypass = false → s.dev.lpc.state = .claiming → s.dev.loopCfg.rank ≤ 14 →
    hops.toNat ≤ 15 →
    let claim : Instr := .claimMarkArrival (withCheck [2, BitVec.ofNat 8 s.dev.loopCfg.rank, stationByte s.dev.own, hops]).tail
    let up := (s.dev.take claim).enterUp
    Runs claim s fun d => d.sru = after { up with lpc := { up.lpc with origin := true } })) ∧
  ∀ d : Station,
    let shift := d.sru.shift
    let cause := fun (n : Half) => if d.sru.unresolved then CloseCause.interrupted
      else if n.toNat = shift.toNat + 1 then .boundary else .advance
    let adopted := fun (x : Station) (n : Half) => { x with
      sru := { x.sru with shift := n, acc := { x.sru.acc with startTime := x.sru.time } }
      lpc := { x.lpc with staging := { x.lpc.staging with openShift := some n } } }
    let kept := fun (x : Station) => { x with sru := { x.sru with unresolved := false } }
    (∀ (time : Word) (head : Half),
      let set := { d with sru := { d.sru with time := time } }
      (head = 0 → d.takeHead time head = set) ∧
      (head ≠ 0 → shift = 0 → d.takeHead time head = adopted set head) ∧
      (head ≠ 0 → shift ≠ 0 → shift.toNat < head.toNat →
        ∃ x, ShiftClosed (cause head) head set x ∧
          d.takeHead time head = { x with sru := { x.sru with skipRefresh := true } }) ∧
      (head ≠ 0 → shift ≠ 0 → head.toNat ≤ shift.toNat → d.takeHead time head = kept set)) ∧
    (∀ m : Half,
      (∀ i ∈ d.lpc.live, ∀ g, d.lpc.floor[i].image = some g → g.openShift.toNat ≤ m.toNat) →
      (m = 0 ∨ ∃ i ∈ d.lpc.live, ∃ g, d.lpc.floor[i].image = some g ∧ g.openShift = m) →
      (shift = 0 → d.converge = adopted d (if m = 0 then 1 else m)) ∧
      (shift ≠ 0 → shift.toNat < m.toNat → ShiftClosed (cause m) m d d.converge) ∧
      (shift ≠ 0 → m.toNat ≤ shift.toNat → d.converge = kept d))

/-- Every contribution is added to the open accumulators, holding at its top with the saturated flag, and a mass to the run total as
well. -/
def Obligations.ContributionsAreAddedAndHoldAtTheirTops : Prop :=
  ∀ s : State,
    let a := s.dev.sru.acc
    let past := fun (top n : Nat) => a.saturated || decide (top < n)
    let took := fun (c : Contribution) (sru : Sru) =>
      exec (.sruContribution c) s = .next { s with dev := { s.dev.take (.sruContribution c) with sru := sru } }
    let adds := fun (c : Contribution) (acc : Accumulators) => took c { s.dev.sru with acc := acc }
    (∀ (ch : Fin 2),
      let f := a.feed[ch]
      let after := fun (x : FeedCounts) => vecModify a.feed ch fun _ => x
      (∀ mass heat, took (.fuel ch mass heat) { s.dev.sru with
        acc := { a with
          feed := after { f with mass := min 4294967295 (f.mass + mass), heat := min 4294967295 (f.heat + heat) }
          saturated := a.saturated || decide (4294967295 < f.mass + mass ∨ 4294967295 < f.heat + heat) }
        runTotals := vecModify s.dev.sru.runTotals ch fun t => min 4294967295 (t + mass) }) ∧
      adds (.revolution ch) { a with
        feed := after { f with revolutions := min 4294967295 (f.revolutions + 1) }
        saturated := past 4294967295 (f.revolutions + 1) } ∧
      adds (.runningSecond ch) { a with
        feed := after { f with runningSeconds := min 4294967295 (f.runningSeconds + 1) }
        saturated := past 4294967295 (f.runningSeconds + 1) } ∧
      adds (.feedFault ch) { a with
        feed := after { f with faults := min 65535 (f.faults + 1) }
        saturated := past 65535 (f.faults + 1) }) ∧
    adds .firingSecond { a with
      burner := { a.burner with firingSeconds := min 4294967295 (a.burner.firingSeconds + 1) }
      saturated := past 4294967295 (a.burner.firingSeconds + 1) } ∧
    adds .burnerStart { a with
      burner := { a.burner with starts := min 65535 (a.burner.starts + 1) }
      saturated := past 65535 (a.burner.starts + 1) } ∧
    (∀ e, adds (.trip e) { a with
      burner := { a.burner with
        trips := min 65535 (a.burner.trips + 1)
        list := if a.burner.list.length < 8 then a.burner.list ++ [e] else a.burner.list }
      saturated := past 65535 (a.burner.trips + 1) }) ∧
    (∀ i : Fin 4,
      adds (.stroke i) { a with
        comps := vecModify a.comps i fun c => { c with strokes := min 4294967295 (c.strokes + 1) }
        saturated := past 4294967295 (a.comps[i].strokes + 1) } ∧
      adds (.grateFault i) { a with
        comps := vecModify a.comps i fun c => { c with faults := min 65535 (c.faults + 1) }
        saturated := past 65535 (a.comps[i].faults + 1) }) ∧
    adds .fanSecond { a with
      fanSeconds := min 4294967295 (a.fanSeconds + 1)
      saturated := past 4294967295 (a.fanSeconds + 1) } ∧
    adds .raise { a with
      alarm := { a.alarm with raises := min 65535 (a.alarm.raises + 1) }
      saturated := past 65535 (a.alarm.raises + 1) } ∧
    (∀ n, took (.activeLength n) { s.dev.sru with
      acc := { a with alarm := { a.alarm with peakActive := max a.alarm.peakActive n } }
      lastLength := n }) ∧
    adds .floodEpisode { a with
      alarm := { a.alarm with floods := min 65535 (a.alarm.floods + 1) }
      saturated := past 65535 (a.alarm.floods + 1) } ∧
    adds .noticeLost { a with
      alarm := { a.alarm with noticesLost := min 65535 (a.alarm.noticesLost + 1) }
      saturated := past 65535 (a.alarm.noticesLost + 1) } ∧
    adds .ackTooLate { a with
      alarm := { a.alarm with acksTooLate := min 65535 (a.alarm.acksTooLate + 1) }
      saturated := past 65535 (a.alarm.acksTooLate + 1) } ∧
    adds .trainMissed { a with
      loop := { a.loop with trainsMissed := min 65535 (a.loop.trainsMissed + 1) }
      saturated := past 65535 (a.loop.trainsMissed + 1) } ∧
    adds .claimRound { a with
      loop := { a.loop with claimRounds := min 65535 (a.loop.claimRounds + 1) }
      saturated := past 65535 (a.loop.claimRounds + 1) }

/-- A COLLECTING report reads its peers' closing parts at each examined refresh and is COMPLETE at the fourth, once none is OUTSTANDING,
or when UP is left; the not-UP second timer runs from there until UP is entered.
(The skip mark is the model's: log 28.) -/
def Obligations.CollectingReportsAreExaminedAndCompleted : Prop :=
  (∀ s : State,
    let skip := s.dev.sru.skipRefresh
    let base := { s.dev.take .sruFloorRefresh with sru := { s.dev.sru with skipRefresh := false } }
    (s.dev.lpc.state ≠ .up ∨ skip = true ∨ s.dev.sru.ring = [] → exec .sruFloorRefresh s = .next { s with dev := base }) ∧
    (∀ old r, s.dev.lpc.state = .up → skip = false → s.dev.sru.ring = old ++ [r] →
      (r.complete = true → exec .sruFloorRefresh s = .next { s with dev := base }) ∧
      (r.complete = false →
        let floor := r.floor.map fun e =>
          match e.mark, s.dev.lpc.floor[e.station].image with
          | .outstanding, some g =>
            if g.closing.shift = r.shift then
              { e with
                mark := .collected, heat := g.closing.heat, firing := g.closing.firing
                strokes := g.closing.strokes, trips := g.closing.trips }
            else if r.shift.toNat < g.closing.shift.toNat then { e with mark := .absent }
            else e
          | _, _ => e
        let done := 4 ≤ s.dev.sru.arrivals + 1 ∨ ∀ e ∈ floor, e.mark ≠ .outstanding
        (¬ done → exec .sruFloorRefresh s = .next { s with dev := { base with
          sru := { base.sru with
            ring := old ++ [{ r with floor := floor }], arrivals := s.dev.sru.arrivals + 1 } } }) ∧
        (done → exec .sruFloorRefresh s = .next { s with dev := { base with
          sru := { base.sru with
            ring := old ++ [{ r with
              complete := true
              floor := floor.map fun e => if e.mark = .outstanding then { e with mark := .absent } else e }]
            arrivals := s.dev.sru.arrivals + 1 }
          ppt := { s.dev.ppt with events := s.dev.ppt.events ||| 2 } } })))) ∧
  (∀ s : State,
    let base := { s.dev.take .sruLeftUp with sru := { s.dev.sru with notUp := some (s.dev.now + 1000000) } }
    ((∀ r, s.dev.sru.ring.getLast? = some r → r.complete = true) → exec .sruLeftUp s = .next { s with dev := base }) ∧
    (∀ old r, s.dev.sru.ring = old ++ [r] → r.complete = false →
      exec .sruLeftUp s = .next { s with dev := { base with
        sru := { base.sru with
          ring := old ++ [{ r with
            complete := true
            floor := r.floor.map fun e => if e.mark = .outstanding then { e with mark := .absent } else e }] }
        ppt := { s.dev.ppt with events := s.dev.ppt.events ||| 2 } } })) ∧
  (∀ s : State, exec .sruEnteredUp s = .next { s with dev := { s.dev.take .sruEnteredUp with
    sru := { s.dev.sru with notUp := none } } })


/-! ## Panel port -/

/-- Select fixes what goes out, and what is clocked past it is 0; the release clears what was sent and takes the request, notes it
BUSY or CHECK ERROR, or answers an unknown kind, or a body of another length than its kind has, BAD FIELD; a short one changes
nothing else; the kind code and the body of each request are those of the tables; the owner's answer fills the holder and empties
the slot.
(BUSY comes before an unknown kind, and a record of kind 0 with a body is of an unknown kind: log 31. As many bytes go out as come
in: log 52.) -/
def Obligations.TransactionsSendAndTakeWholeRecords : Prop :=
  (∀ (kind : Byte) (body : List Byte) (c : Instr), requestOf kind body = some c ↔ RequestSpelled kind body c) ∧
  ∀ s : State,
    let p := s.dev.ppt
    (let after := fun (source : OutSource) (bytes : List Byte) =>
      p.outgoing = none → exec .selectAssert s = .next { s with dev := { s.dev.take .selectAssert with
        ppt := { p with outgoing := some { source := source, bytes := bytes } } } }
     let record := fun (tag : Byte) (code : RespCode) (reason : Byte) (body : List Byte) =>
      let n := BitVec.ofNat 16 body.length
      withCheck ([1, tag, code.code, reason, (n >>> 8).setWidth 8, n.setWidth 8] ++ body)
     (∀ n, p.note = some n → after .note (record n.tag n.code 0 [])) ∧
     (∀ r, p.note = none → p.holder = some r → after .held (record r.tag r.code r.reason r.body)) ∧
     (∀ t c, p.note = none → p.holder = none → p.slot = some (t, c) → after .pendingReply (record t .pending 0 [])) ∧
     (p.note = none → p.holder = none → p.slot = none → after .noneReply (withCheck [0, 0, 0, 0, 0, 0]))) ∧
    (∀ tag c code reason body, p.slot = some (tag, c) → s.dev.answer code reason body = { s.dev with
      ppt := { p with holder := some { tag := tag, code := code, reason := reason, body := body }, slot := none } }) ∧
    (∀ (bytes : List Byte) (o : Outgoing), p.outgoing = some o →
      let cmd : Instr := .selectRelease bytes
      let after := fun (q : Ppt) => exec cmd s = .next { s with dev := { s.dev.take cmd with ppt := q } }
      let idle := { p with outgoing := none, clockedOut := (o.bytes ++ List.replicate bytes.length 0).take bytes.length }
      let sent := { idle with
        note := if o.source = .note then none else p.note
        holder := if o.source = .held then none else p.holder }
      (bytes.length < 4 → after idle) ∧
      (∀ kind tag n1 n0 rest, bytes = kind :: tag :: n1 :: n0 :: rest →
        let n := n1.toNat * 256 + n0.toNat
        (240 < n → after { sent with note := some { code := .checkError, tag := tag } }) ∧
        (n ≤ 240 → rest.length < n + 2 → after idle) ∧
        (n ≤ 240 → n + 2 ≤ rest.length →
          withCheck (kind :: tag :: n1 :: n0 :: rest.take n) ≠ kind :: tag :: n1 :: n0 :: rest.take (n + 2) →
          after { sent with note := some { code := .checkError, tag := tag } })) ∧
      (∀ kind tag body extra, body.length ≤ 240 →
        let n := BitVec.ofNat 16 body.length
        bytes = withCheck ([kind, tag, (n >>> 8).setWidth 8, n.setWidth 8] ++ body) ++ extra →
        let busy := sent.slot ≠ none ∨ sent.holder ≠ none
        (kind = 0 → body = [] → after sent) ∧
        (¬ (kind = 0 ∧ body = []) → busy → after { sent with note := some { code := .busy, tag := tag } }) ∧
        (¬ (kind = 0 ∧ body = []) → ¬ busy → (∀ c, ¬ RequestSpelled kind body c) →
          after { sent with holder := some { tag := tag, code := .badField, reason := 0, body := [] } }) ∧
        (∀ c, ¬ busy → RequestSpelled kind body c →
          exec cmd s = .next { s with dev := { s.dev.take cmd with
            ppt := { sent with slot := some (tag, c) }
            signals := s.dev.signals.erase cmd ++ [c] } })))

/-- CONFIGURE stores a whole section in CONFIG, or names the first field out of its range, for the fields and ranges of every
section kind, and a body of another length than the section has is a BAD FIELD; the blocks go by the sections loaded and by the
first line or channel assigned to a function; START makes its checks in order and names the first that fails, or freezes the record
and starts every block.
(Which ranges an instance has, which a field bounded by another field, and which instance a check names is the model's reading: log
23, log 24. The codes of values and units that no table gives: log 22. An UNUSED line's function is not judged: log 56. A point of
instance 0 is present without its duty: log 69. A station without duties passes: log 25. A channel's accepted level starts as its
pin stands, in every mode: log 7. A compartment has no due time after START: log 33.) -/
def Obligations.ConfigureStoresSectionsAndStartFreezesThem : Prop :=
  (∀ d : Station, SettingsRead d) ∧
  (∀ (kind inst : Byte) (fields : List Byte) (s : State),
    let cmd : Instr := .configure kind inst fields
    let d := s.dev.take cmd
    let after := fun (x : Station) => exec cmd s = .next { s with dev := x }
    (s.dev.ppt.started = true → after (d.answer .wrongState 0 [])) ∧
    (s.dev.ppt.started = false →
      (kind = 0 ∨ 12 < kind.toNat → after (d.answer .badField 0 [])) ∧
      (∀ k : SectionKind, kind = k.code →
        (fields.length ≠ sectionLength k → after (d.answer .badField 0 [])) ∧
        (k.instanceOk inst.toNat = false → after (d.answer .badField 0 [])) ∧
        (∀ vs, k.instanceOk inst.toNat = true → readFields (k.fields []) fields = some vs →
          (∀ n, firstBad 1 (k.fields vs) vs = some n → after (d.answer .badField (BitVec.ofNat 8 n) [])) ∧
          (firstBad 1 (k.fields vs) vs = none → k ≠ .inputChannel →
            after (Station.answer .ok 0 [] { d with
              ppt := { s.dev.ppt with cfg := k.store inst.toNat vs s.dev.ppt.cfg } })) ∧
          (firstBad 1 (k.fields vs) vs = none → k = .inputChannel → Runs cmd s (Accepted fun x =>
            x.ppt = { s.dev.ppt with cfg := k.store inst.toNat vs s.dev.ppt.cfg } ∧
            (∀ i : Fin 8, x.piu.channels[i] = { s.dev.piu.channels[i] with
              mode := if i.val = inst.toNat then some (pulseModeOf (vs.getD 2 0)) else s.dev.piu.channels[i].mode }) ∧
            x = { d with ppt := x.ppt, piu := { s.dev.piu with channels := x.piu.channels } })))) ∧
      (∀ cycle multiple rank claim1 claim0 grace : Byte, kind = 2 → inst = 0 →
        fields = [cycle, multiple, rank, claim1, claim0, grace] →
        let claim := claim1.toNat * 256 + claim0.toNat
        10 ≤ cycle.toNat → cycle.toNat ≤ 100 → 3 ≤ multiple.toNat → multiple.toNat ≤ 10 → rank.toNat ≤ 15 →
        20 ≤ claim → claim ≤ 500 → grace.toNat ≤ 30 →
        after (Station.answer .ok 0 [] { d with
          ppt := { s.dev.ppt with cfg := { s.dev.ppt.cfg with
            loop := some { cycle := cycle.toNat, watchMultiple := multiple.toNat, rank := rank.toNat, claimLimit := claim,
                           grace := grace.toNat } } } })) ∧
      (∀ (k : SectionKind) (vs : List Nat),
        let v := fun n => vs.getD n 0
        let table := sectionTable k v
        kind = kindByte k → vs.length = table.length → (∀ e ∈ vs.zip table, e.1 < 256 ^ e.2.1) →
        fields = ((vs.zip table).flatMap fun e => fieldBytes e.2.1 e.1) →
        (¬ sectionInstance k inst.toNat → after (d.answer .badField 0 [])) ∧
        (sectionInstance k inst.toNat →
          (∀ before bad later, table = before ++ bad :: later → (∀ e ∈ before, e.2 = true) → bad.2 = false →
            after (d.answer .badField (BitVec.ofNat 8 (before.length + 1)) [])) ∧
          ((∀ e ∈ table, e.2 = true) → Runs cmd s (Accepted fun x =>
            SectionStored k inst.toNat v s.dev.ppt.cfg x.ppt.cfg ∧
            (∀ i : Fin 8, x.piu.channels[i] = { s.dev.piu.channels[i] with
              mode := if k = .inputChannel ∧ i.val = inst.toNat then some ([.period, .countWindow].getD (v 2) .quadrature)
                else s.dev.piu.channels[i].mode }) ∧
            x = { d with
              ppt := { s.dev.ppt with cfg := x.ppt.cfg }, piu := { s.dev.piu with channels := x.piu.channels } })))))) ∧
  (∀ s : State,
    let r := s.dev.ppt.cfg
    let d := s.dev.take .start
    let refused := fun (reason kind inst : Byte) =>
      exec .start s = .next { s with dev := d.answer .refused reason [kind, inst] }
    (s.dev.ppt.started = true → exec .start s = .next { s with dev := d.answer .wrongState 0 [] }) ∧
    (s.dev.ppt.started = false →
      (r.station = none → refused 20 1 0) ∧
      (r.station ≠ none → r.loop = none → refused 20 2 0) ∧
      (r.station ≠ none → r.loop ≠ none → r.shift = none → refused 20 3 0) ∧
      (r.station ≠ none → r.loop ≠ none → r.shift ≠ none → r.service = none → refused 20 4 0) ∧
      (r.station ≠ none → r.loop ≠ none → r.shift ≠ none → r.service ≠ none → r.flood = none → refused 20 5 0) ∧
      (∀ f, r.station ≠ none → r.loop ≠ none → r.shift ≠ none → r.service ≠ none → r.flood = some f → f.high ≤ f.low →
        refused 21 5 0) ∧
      (∀ f, Check.all r = some f → refused f.reason.code f.kind.code (BitVec.ofNat 8 f.inst)) ∧
      (∀ before c later, startChecks r = before ++ c :: later → (∀ b ∈ before, b.holds) → ¬ c.holds →
        refused c.reason c.kind (BitVec.ofNat 8 c.inst)) ∧
      ((∀ c ∈ startChecks r, c.holds) → Runs .start s (Accepted fun x =>
        let l := s.dev.loopCfg
        let sig := checkCode ([BitVec.ofNat 8 l.cycle, BitVec.ofNat 8 l.watchMultiple] ++
          byte16 (BitVec.ofNat 16 l.claimLimit) ++ [BitVec.ofNat 8 l.grace, BitVec.ofNat 8 s.dev.boundaries.length] ++
          s.dev.boundaries.flatMap fun b => byte32 (BitVec.ofNat 32 b))
        x.ppt = { s.dev.ppt with started := true, sig := some sig, window := .awaitingFirst, events := x.ppt.events } ∧
        x.ppt.events &&& 4 = 4 ∧
        x.lpc.state = .joining ∧
        x.lpc.watch = some (s.dev.now + s.dev.loopCfg.watchMultiple * s.dev.loopCfg.cycle * 1000) ∧
        x.lpc.staging.panel = some { station := stationByte s.dev.own, sig := sig, present := s.dev.ppt.present } ∧
        x.lpc.staging.openShift = some s.dev.sru.shift ∧
        x.condition .loopLost 0 = true ∧
        x.alm.epoch = s.dev.alm.epoch + 1 ∧
        (∀ (i : Fin 32) (c : PointCfg), r.points[i] = some c → x.alm.points[i].cfg = some c) ∧
        (∀ (i : Fin 32) (c : PointCfg), r.points[i] = some c → c.kind ≠ .loopLost →
          let there := s.dev.condition c.kind c.inst
          there = false ∨ c.onDelay ≠ 0 → x.alm.points[i] = { State.reset.dev.alm.points[i] with
            cfg := some c, watched := there
            delay := if there then some (.on (s.dev.now + c.onDelay * 1000000)) else none }) ∧
        (∀ i : Fin 16, x.dou.lines[i].cfg = r.outputs[i] ∧ x.dou.lines[i].active = 0 ∧ x.dou.lines[i].preload = 0 ∧
          x.dou.lines[i].on = false ∧ x.dou.lines[i].burst = .idle ∧ x.dou.lines[i].forced = false ∧
          ∀ c, r.outputs[i] = some c → c.kind = .reference →
            x.dou.lines[i].firstWrite = true ∧ x.dou.lines[i].carrierEnd = some (s.dev.now + c.carrier) ∧
            x.dou.lines[i].patternEnd = some (s.dev.now + c.interval * 1000)) ∧
        (∀ (ch : Fin 2) (k : FeedCfg), r.feeds[ch] = some k →
          x.fdc.channels[ch].cfg = some k ∧ x.fdc.channels[ch].state = .off ∧ x.fdc.channels[ch].cv = k.cv) ∧
        (∀ (i : Fin 4) (k : CompCfg), r.comps[i] = some k →
          x.gcc.comps[i] = { State.reset.dev.gcc.comps[i] with
            cfg := some k, baseRate := k.baseRate, shadow := k.minRate, preload := k.minRate, mode := .minimum
            state := .stopped }) ∧
        (∀ i : Fin 8, x.piu.channels[i] = match r.channels[i] with
          | some k => if k.fn = .unassigned then s.dev.piu.channels[i] else { State.reset.dev.piu.channels[i] with
              pin := s.dev.piu.channels[i].pin, accepted := s.dev.piu.channels[i].pin, mode := s.dev.piu.channels[i].mode
              phase := if k.mode = .quadrature then .counting else .seeking, restarted := s.dev.now }
          | none => s.dev.piu.channels[i]) ∧
        (∀ i : Fin 12, x.piu.lines[i] = match r.lines[i] with
          | some k => { s.dev.piu.lines[i] with
              active := false
              pending := if k.fn ≠ .unused ∧ s.dev.piu.lines[i].pin ≠ k.activeLow then
                some { level := true, due := s.dev.now + k.debounce * 1000 } else none }
          | none => s.dev.piu.lines[i]) ∧
        x.lpc.staging.alarm = some { epoch := x.alm.epoch, trip := x.alm.trip } ∧
        ((∀ i : Fin 32, s.dev.alm.points[i].cfg = none) → x.lpc.staging.summary = some x.alm.summary) ∧
        (∀ c, r.burner = some c → x.lpc.staging.burner =
          some { letter := c.letter, state := s.dev.bsq.state, demand := wire32 s.dev.bsq.demand }) ∧
        (s.dev.feedDuty = true → x.lpc.staging.feed =
          some ((List.finRange 2).filterMap fun ch => (x.fdc.channels[ch]).entry ch)) ∧
        (s.dev.coolerDuty = true → x.lpc.staging.cooler = some x.gcc.part) ∧
        (let none : ClosingPart := { shift := 0, heat := 0, firing := 0, strokes := 0, trips := 0 }
         x.lpc.staging.closing = some ((s.dev.sru.ring.getLast?.map Report.closing).getD none)) ∧
        x.sru = { s.dev.sru with notUp := some (s.dev.now + 1000000) } ∧ x.bsq = s.dev.bsq ∧ x.now = s.dev.now))))

/-- The service window: a SERVICE in its open part starts a period, one in its closed part and a period's end without one lapse; the event
set and the reset cause are answered and cleared. -/
def Obligations.ServiceKeepsTheWindowAndLapsesEndIt : Prop :=
  ∀ s : State,
    let d := s.dev.take .service
    let c := s.dev.serviceCfg
    let shut := c.period * 1000000 * (100 - c.openFraction) / 100
    let period := fun (x : Station) => { x with
      ppt := { x.ppt with
        window := if shut = 0 then .openPart else .closed
        openAt := if shut = 0 then none else some (s.dev.now + shut)
        periodEnd := some (s.dev.now + c.period * 1000000) } }
    let common := fun (here : Bool) => some (α := PanelCommon)
      { station := stationByte s.dev.own, sig := s.dev.ppt.sig.getD 0, present := here }
    let lapsed := fun (a b : Station) =>
      b.ppt = { a.ppt with
        present := false, window := .awaitingFirst, openAt := none, periodEnd := none, events := b.ppt.events } ∧
      b.ppt.events &&& 64 = 64 ∧ b.condition .panelAbsent 0 = true ∧ b.lpc.staging.panel = common false ∧
      .bsqPanelLapse ∈ b.signals ∧
      AlarmsOnly { a with ppt := b.ppt, lpc := { a.lpc with staging := { a.lpc.staging with panel := common false } } } b
    (s.dev.ppt.window = .idle → exec .service s = .next { s with dev := d.answer .wrongState 0 [] }) ∧
    (s.dev.ppt.window = .awaitingFirst → Runs .service s (Accepted fun x =>
      x.ppt = { (period d).ppt with present := true, events := x.ppt.events } ∧
      x.condition .panelAbsent 0 = false ∧ x.lpc.staging.panel = common true ∧
      AlarmsOnly { d with ppt := x.ppt, lpc := { d.lpc with staging := { d.lpc.staging with panel := common true } } } x)) ∧
    (s.dev.ppt.window = .closed → Runs .service s fun x => ∃ y, lapsed d y ∧ x = y.answer .refused 18 []) ∧
    (s.dev.ppt.window = .openPart → exec .service s = .next { s with dev := (period d).answer .ok 0 [] }) ∧
    (∀ e, s.dev.ppt.window = .closed → s.dev.ppt.openAt = some e →
      exec .serviceOpenPoint s = .next { s with dev := { s.dev.take .serviceOpenPoint with
        ppt := { s.dev.ppt with window := .openPart, openAt := none } } }) ∧
    (∀ e, s.dev.ppt.window = .openPart → s.dev.ppt.periodEnd = some e →
      Runs .servicePeriodExpiry s (lapsed (s.dev.take .servicePeriodExpiry))) ∧
    exec .readEvents s = .next { s with dev := Station.answer .ok 0 [s.dev.ppt.events] { s.dev.take .readEvents with
      ppt := { s.dev.ppt with events := 0 } } } ∧
    (let cause : Byte := match s.dev.ppt.cause with | .none => 0 | .powerOn => 1 | .resetLine => 2
     exec .readResetCause s = .next { s with dev := Station.answer .ok 0 [cause] { s.dev.take .readResetCause with
      ppt := { s.dev.ppt with cause := .none } } })

/-- The requests that need a start are answered WRONG STATE before it, and those of a duty NOT CONFIGURED without it; a read answers
what it names, field by field, and changes nothing but that READ COUNTERS clears what it answers. The check code is the cyclic code
of generator x^16 + x^12 + x^5 + 1 from FFFF hexadecimal, most significant bit first.
(The layouts, codes and moments of the answers are the model's: log 21, log 22, log 39; a figure too wide for its field is free: log
20. What an instance without a section reads: log 49. ENCODER sections that differ: log 54. The lists of the COOLER part, the second
timers read as flags, a clear trip request and a running delay: log 60, log 66.) -/
def Obligations.RequestsAreAnsweredAndReadsChangeNothing : Prop :=
  FieldsWritten ∧ ImagesWritten ∧ (∀ d : Station, BodiesHold d) ∧
  (∀ (a b c : Byte) (h : Half) (w : Word) (s : State) (cmd : Instr),
    let burner : List Instr := [.burnerStart, .burnerStop, .lockoutReset, .setHeatDemand w]
    let feed : List Instr := [.feedEnable a, .feedDisable a, .feedClearFault a, .calorificUpdate a h]
    let cooler : List Instr := [.coolerEnable a, .coolerDisable a, .setStrokeBase a h, .grateClearFault a, .setFan a h]
    let started : List Instr := [.ackAlarm a b c, .shelve a h, .unshelve a, .readAlarms a, .readMirror a, .setFloorTime w,
      .readStatus 4, .readStatus 5, .readStatus 6, .readStatus 7, .readStatus 8]
    let after := fun (code : RespCode) => exec cmd s = .next { s with dev := (s.dev.take cmd).answer code 0 [] }
    (s.dev.ppt.started = false → cmd ∈ burner ++ feed ++ cooler ++ started → after .wrongState) ∧
    (s.dev.ppt.started = true → s.dev.cfg.burner = none → cmd ∈ Instr.readStatus 4 :: burner → after .notConfigured) ∧
    (s.dev.ppt.started = true → s.dev.feedDuty = false → cmd ∈ Instr.readStatus 5 :: feed → after .notConfigured) ∧
    (s.dev.ppt.started = true → s.dev.coolerDuty = false → cmd ∈ Instr.readStatus 6 :: cooler → after .notConfigured)) ∧
  (∀ s : State,
    let after := fun (cmd : Instr) (code : RespCode) (reason : Byte) (body : List Byte) =>
      exec cmd s = .next { s with dev := (s.dev.take cmd).answer code reason body }
    let reads := fun (part : Byte) (body : List Byte) => after (.readStatus part) .ok 0 (part :: body)
    (∀ page : Byte, s.dev.ppt.started = true →
      (3 < page.toNat → after (.readAlarms page) .badField 0 []) ∧
      (page.toNat ≤ 3 → after (.readAlarms page) .ok 0
        (listed s.dev.alarmEntry ((s.dev.alm.active.drop (8 * page.toNat)).take 8) ++
          byte32 (wire32 s.dev.alm.active.length) ++ s.dev.tripBytes ++ [if s.dev.alm.flood then 1 else 0] ++
          byte32 (wire32 s.dev.alm.recent.length) ++ [BitVec.ofNat 8 s.dev.alm.unacked])) ∧
      (7 < page.toNat → after (.readMirror page) .badField 0 []) ∧
      (page.toNat ≤ 7 → after (.readMirror page) .ok 0
        (listed MirrorEntry.bytes ((s.dev.alm.mirror.drop (8 * page.toNat)).take 8) ++
          byte32 (wire32 s.dev.alm.mirror.length) ++ byte32 (wire32 s.dev.alm.overflow)))) ∧
    (∀ age offset : Byte,
      let cmd : Instr := .readReport age offset
      let start := 32 * offset.toNat
      (7 < age.toNat → after cmd .badField 0 []) ∧
      (age.toNat ≤ 7 → s.dev.sru.ring.length ≤ age.toNat → after cmd .refused 19 []) ∧
      (∀ older r newer, s.dev.sru.ring = older ++ r :: newer → newer.length = age.toNat → age.toNat ≤ 7 →
        (r.image.length ≤ start → after cmd .badField 0 []) ∧
        (start < r.image.length → ∃ bytes : List Byte, bytes.length = 64 ∧
          (∀ k, k < 64 → bytes[k]? = some (r.image.getD (start + k) 0)) ∧
          after cmd .ok 0 (byte16 r.shift ++ [if r.complete then 1 else 0] ++ byte32 (wire32 r.image.length) ++ bytes)))) ∧
    reads 1 s.dev.panelPart ∧ reads 2 s.dev.loopPart ∧ reads 3 s.dev.noticesPart ∧
    (∀ c, s.dev.ppt.started = true → s.dev.cfg.burner = some c → reads 4 (s.dev.burnerPart c)) ∧
    (s.dev.ppt.started = true → s.dev.feedDuty = true → reads 5 s.dev.feedPart) ∧
    (s.dev.ppt.started = true → s.dev.coolerDuty = true → reads 6 s.dev.coolerPart) ∧
    (s.dev.ppt.started = true → reads 7 s.dev.alarmPart ∧ reads 8 s.dev.shiftPart) ∧
    (∀ part : Byte, part = 0 ∨ 8 < part.toNat → after (.readStatus part) .badField 0 []) ∧
    (∀ station : Byte, station = 0 ∨ 16 < station.toNat → after (.readFloor station) .badField 0 []) ∧
    (∀ i : Fin 16, after (.readFloor (stationByte i)) .ok 0 (s.dev.floorRecord i)) ∧
    after .readBreak .ok 0 s.dev.breakRecord ∧
    (∀ i : Fin 8, after (.readInput (BitVec.ofNat 8 i.val)) .ok 0 (s.dev.channelRecord i)) ∧
    after (.readInput 255) .ok 0 ((List.finRange 12).flatMap s.dev.lineRecord) ∧
    (∀ x : Byte, 8 ≤ x.toNat → x ≠ 255 → after (.readInput x) .badField 0 []) ∧
    (∀ i : Fin 16, after (.readOutput (BitVec.ofNat 8 i.val)) .ok 0 (s.dev.outRecord i)) ∧
    after (.readOutput 255) .ok 0 ((List.finRange 16).flatMap s.dev.outRecord) ∧
    (∀ x : Byte, 16 ≤ x.toNat → x ≠ 255 → after (.readOutput x) .badField 0 []) ∧
    (let n := s.dev.lpc.counters
     let counts : List Counter := [n.trainsSeen, n.headErrors, n.slotErrors, n.trainsMissed, n.lateRotations, n.noticesLost,
      n.claimRounds, n.breakEntries]
     let zero : Counter := { count := 0, overflowed := false }
     let body := (counts.flatMap fun c => byte32 (wire32 c.count)) ++ counts.map fun c => if c.overflowed then 1 else 0
     let cleared : Counters := {
      trainsSeen := zero, headErrors := zero, slotErrors := zero, trainsMissed := zero, lateRotations := zero,
      noticesLost := zero, claimRounds := zero, breakEntries := zero }
     exec .readCounters s = .next { s with dev := Station.answer .ok 0 body { s.dev.take .readCounters with
      lpc := { s.dev.lpc with counters := cleared } } }))

/-! ## The laws of the device -/

/-- Every step keeps the laws of the device, and a step that is no power-on does not let the open shift number decrease. -/
def Obligations.StepsKeepTheLawsOfTheDevice : Prop :=
  ∀ s t : State, LawsHold s.dev → step s = .next t →
    LawsHold t.dev ∧
    (s.pending.head? ≠ some .powerOn → .powerOn ∉ s.dev.signals → s.dev.sru.shift.toNat ≤ t.dev.sru.shift.toNat)

/-- Every step keeps the first law: MAIN FUEL RELEASE is on only in MAIN TRIAL or FIRING, the PILOT VALVE only in PILOT TRIAL or
MAIN TRIAL, and the igniter bursts only in PILOT TRIAL. It keeps the fourth law: at most one compartment holds the grant, in FORWARD
alone, a FORWARD line is on only while its compartment holds it, and never together with the RETURN line; with it the queue holds
the compartments in WAITING, by due time, then number. -/
def Obligations.StepsKeepTheFuelAndGrantLaws : Prop :=
  ∀ s t : State, step s = .next t →
    (FuelLawHolds s.dev → FuelLawHolds t.dev) ∧ (GrantLawHolds s.dev → GrantLawHolds t.dev)

/-- The state after reset keeps the laws of the device, the first and the fourth among them. -/
def Obligations.ResetKeepsTheLawsOfTheDevice : Prop := 
  LawsHold State.reset.dev ∧ FuelLawHolds State.reset.dev ∧ GrantLawHolds State.reset.dev
end

