-- ==== Sys2Proof/Laws/State.lean ====
section
/-! SUPPORT. Small laws of the state: what each update of the station leaves in each field, and vectors with one element changed. -/

namespace Sys2Proof.Machine

/-! ## Vectors -/

/-- A changed vector at any place. -/
theorem vecModify_get {α : Type} {n : Nat} (v : Vector α n) (i : Fin n) (f : α → α) (j : Nat) (h : j < n) :
    (vecModify v i f)[j] = if i.val = j then f v[j] else v[j] := by
  by_cases e : i.val = j
  · subst e; simp [vecModify]
  · simp [vecModify, e]

/-- A changed vector at the changed place. -/
@[simp] theorem vecModify_same {α : Type} {n : Nat} (v : Vector α n) (i : Fin n) (f : α → α) :
    (vecModify v i f)[i.val] = f v[i.val] := by
  simp [vecModify_get]

/-- A changed vector at another place. -/
theorem vecModify_ne {α : Type} {n : Nat} (v : Vector α n) (i : Fin n) (f : α → α) (j : Nat) (h : j < n) (e : i.val ≠ j) :
    (vecModify v i f)[j] = v[j] := by
  simp [vecModify_get, e]

/-! ## Host events -/

@[simp] theorem and_or_self (x b : Byte) : x &&& (x ||| b) = x := by
  ext i hi
  simp
  exact fun h => Or.inl h

@[simp] theorem or_and_right_self (x b : Byte) : (x ||| b) &&& b = b := by
  ext i hi
  simp
  exact fun h => Or.inr h

/-- Events that stand in a set that stands in another stand in that one. -/
theorem events_trans {a b c : Byte} (h : a &&& b = a) (k : b &&& c = b) : a &&& c = a := by
  rw [← h, BitVec.and_assoc, k]

/-! ## The updates of the station, field by field -/

namespace Station
variable (d : Station)

@[simp] theorem onLpc_fields (f : Lpc → Lpc) :
    (d.onLpc f).now = d.now ∧ (d.onLpc f).signals = d.signals ∧ (d.onLpc f).draws = d.draws ∧
    (d.onLpc f).loopOut = d.loopOut ∧ (d.onLpc f).resetHeld = d.resetHeld ∧ (d.onLpc f).lpc = f d.lpc ∧
    (d.onLpc f).piu = d.piu ∧ (d.onLpc f).dou = d.dou ∧ (d.onLpc f).bsq = d.bsq ∧ (d.onLpc f).fdc = d.fdc ∧
    (d.onLpc f).gcc = d.gcc ∧ (d.onLpc f).alm = d.alm ∧ (d.onLpc f).sru = d.sru ∧ (d.onLpc f).ppt = d.ppt :=
  ⟨rfl, rfl, rfl, rfl, rfl, rfl, rfl, rfl, rfl, rfl, rfl, rfl, rfl, rfl⟩

@[simp] theorem onPiu_fields (f : Piu → Piu) :
    (d.onPiu f).now = d.now ∧ (d.onPiu f).signals = d.signals ∧ (d.onPiu f).draws = d.draws ∧
    (d.onPiu f).loopOut = d.loopOut ∧ (d.onPiu f).resetHeld = d.resetHeld ∧ (d.onPiu f).lpc = d.lpc ∧
    (d.onPiu f).piu = f d.piu ∧ (d.onPiu f).dou = d.dou ∧ (d.onPiu f).bsq = d.bsq ∧ (d.onPiu f).fdc = d.fdc ∧
    (d.onPiu f).gcc = d.gcc ∧ (d.onPiu f).alm = d.alm ∧ (d.onPiu f).sru = d.sru ∧ (d.onPiu f).ppt = d.ppt :=
  ⟨rfl, rfl, rfl, rfl, rfl, rfl, rfl, rfl, rfl, rfl, rfl, rfl, rfl, rfl⟩

@[simp] theorem onDou_fields (f : Dou → Dou) :
    (d.onDou f).now = d.now ∧ (d.onDou f).signals = d.signals ∧ (d.onDou f).draws = d.draws ∧
    (d.onDou f).loopOut = d.loopOut ∧ (d.onDou f).resetHeld = d.resetHeld ∧ (d.onDou f).lpc = d.lpc ∧
    (d.onDou f).piu = d.piu ∧ (d.onDou f).dou = f d.dou ∧ (d.onDou f).bsq = d.bsq ∧ (d.onDou f).fdc = d.fdc ∧
    (d.onDou f).gcc = d.gcc ∧ (d.onDou f).alm = d.alm ∧ (d.onDou f).sru = d.sru ∧ (d.onDou f).ppt = d.ppt :=
  ⟨rfl, rfl, rfl, rfl, rfl, rfl, rfl, rfl, rfl, rfl, rfl, rfl, rfl, rfl⟩

@[simp] theorem onBsq_fields (f : Bsq → Bsq) :
    (d.onBsq f).now = d.now ∧ (d.onBsq f).signals = d.signals ∧ (d.onBsq f).draws = d.draws ∧
    (d.onBsq f).loopOut = d.loopOut ∧ (d.onBsq f).resetHeld = d.resetHeld ∧ (d.onBsq f).lpc = d.lpc ∧
    (d.onBsq f).piu = d.piu ∧ (d.onBsq f).dou = d.dou ∧ (d.onBsq f).bsq = f d.bsq ∧ (d.onBsq f).fdc = d.fdc ∧
    (d.onBsq f).gcc = d.gcc ∧ (d.onBsq f).alm = d.alm ∧ (d.onBsq f).sru = d.sru ∧ (d.onBsq f).ppt = d.ppt :=
  ⟨rfl, rfl, rfl, rfl, rfl, rfl, rfl, rfl, rfl, rfl, rfl, rfl, rfl, rfl⟩

@[simp] theorem onFdc_fields (f : Fdc → Fdc) :
    (d.onFdc f).now = d.now ∧ (d.onFdc f).signals = d.signals ∧ (d.onFdc f).draws = d.draws ∧
    (d.onFdc f).loopOut = d.loopOut ∧ (d.onFdc f).resetHeld = d.resetHeld ∧ (d.onFdc f).lpc = d.lpc ∧
    (d.onFdc f).piu = d.piu ∧ (d.onFdc f).dou = d.dou ∧ (d.onFdc f).bsq = d.bsq ∧ (d.onFdc f).fdc = f d.fdc ∧
    (d.onFdc f).gcc = d.gcc ∧ (d.onFdc f).alm = d.alm ∧ (d.onFdc f).sru = d.sru ∧ (d.onFdc f).ppt = d.ppt :=
  ⟨rfl, rfl, rfl, rfl, rfl, rfl, rfl, rfl, rfl, rfl, rfl, rfl, rfl, rfl⟩

@[simp] theorem onGcc_fields (f : Gcc → Gcc) :
    (d.onGcc f).now = d.now ∧ (d.onGcc f).signals = d.signals ∧ (d.onGcc f).draws = d.draws ∧
    (d.onGcc f).loopOut = d.loopOut ∧ (d.onGcc f).resetHeld = d.resetHeld ∧ (d.onGcc f).lpc = d.lpc ∧
    (d.onGcc f).piu = d.piu ∧ (d.onGcc f).dou = d.dou ∧ (d.onGcc f).bsq = d.bsq ∧ (d.onGcc f).fdc = d.fdc ∧
    (d.onGcc f).gcc = f d.gcc ∧ (d.onGcc f).alm = d.alm ∧ (d.onGcc f).sru = d.sru ∧ (d.onGcc f).ppt = d.ppt :=
  ⟨rfl, rfl, rfl, rfl, rfl, rfl, rfl, rfl, rfl, rfl, rfl, rfl, rfl, rfl⟩

@[simp] theorem onAlm_fields (f : Alm → Alm) :
    (d.onAlm f).now = d.now ∧ (d.onAlm f).signals = d.signals ∧ (d.onAlm f).draws = d.draws ∧
    (d.onAlm f).loopOut = d.loopOut ∧ (d.onAlm f).resetHeld = d.resetHeld ∧ (d.onAlm f).lpc = d.lpc ∧
    (d.onAlm f).piu = d.piu ∧ (d.onAlm f).dou = d.dou ∧ (d.onAlm f).bsq = d.bsq ∧ (d.onAlm f).fdc = d.fdc ∧
    (d.onAlm f).gcc = d.gcc ∧ (d.onAlm f).alm = f d.alm ∧ (d.onAlm f).sru = d.sru ∧ (d.onAlm f).ppt = d.ppt :=
  ⟨rfl, rfl, rfl, rfl, rfl, rfl, rfl, rfl, rfl, rfl, rfl, rfl, rfl, rfl⟩

@[simp] theorem onSru_fields (f : Sru → Sru) :
    (d.onSru f).now = d.now ∧ (d.onSru f).signals = d.signals ∧ (d.onSru f).draws = d.draws ∧
    (d.onSru f).loopOut = d.loopOut ∧ (d.onSru f).resetHeld = d.resetHeld ∧ (d.onSru f).lpc = d.lpc ∧
    (d.onSru f).piu = d.piu ∧ (d.onSru f).dou = d.dou ∧ (d.onSru f).bsq = d.bsq ∧ (d.onSru f).fdc = d.fdc ∧
    (d.onSru f).gcc = d.gcc ∧ (d.onSru f).alm = d.alm ∧ (d.onSru f).sru = f d.sru ∧ (d.onSru f).ppt = d.ppt :=
  ⟨rfl, rfl, rfl, rfl, rfl, rfl, rfl, rfl, rfl, rfl, rfl, rfl, rfl, rfl⟩

@[simp] theorem onPpt_fields (f : Ppt → Ppt) :
    (d.onPpt f).now = d.now ∧ (d.onPpt f).signals = d.signals ∧ (d.onPpt f).draws = d.draws ∧
    (d.onPpt f).loopOut = d.loopOut ∧ (d.onPpt f).resetHeld = d.resetHeld ∧ (d.onPpt f).lpc = d.lpc ∧
    (d.onPpt f).piu = d.piu ∧ (d.onPpt f).dou = d.dou ∧ (d.onPpt f).bsq = d.bsq ∧ (d.onPpt f).fdc = d.fdc ∧
    (d.onPpt f).gcc = d.gcc ∧ (d.onPpt f).alm = d.alm ∧ (d.onPpt f).sru = d.sru ∧ (d.onPpt f).ppt = f d.ppt :=
  ⟨rfl, rfl, rfl, rfl, rfl, rfl, rfl, rfl, rfl, rfl, rfl, rfl, rfl, rfl⟩

@[simp] theorem onStaging_fields (f : Staging → Staging) :
    (d.onStaging f).now = d.now ∧ (d.onStaging f).signals = d.signals ∧ (d.onStaging f).draws = d.draws ∧
    (d.onStaging f).loopOut = d.loopOut ∧ (d.onStaging f).resetHeld = d.resetHeld ∧
    (d.onStaging f).lpc = { d.lpc with staging := f d.lpc.staging } ∧ (d.onStaging f).piu = d.piu ∧
    (d.onStaging f).dou = d.dou ∧ (d.onStaging f).bsq = d.bsq ∧ (d.onStaging f).fdc = d.fdc ∧
    (d.onStaging f).gcc = d.gcc ∧ (d.onStaging f).alm = d.alm ∧ (d.onStaging f).sru = d.sru ∧
    (d.onStaging f).ppt = d.ppt :=
  ⟨rfl, rfl, rfl, rfl, rfl, rfl, rfl, rfl, rfl, rfl, rfl, rfl, rfl, rfl⟩

@[simp] theorem onCounters_fields (f : Counters → Counters) :
    (d.onCounters f).now = d.now ∧ (d.onCounters f).signals = d.signals ∧ (d.onCounters f).draws = d.draws ∧
    (d.onCounters f).loopOut = d.loopOut ∧ (d.onCounters f).resetHeld = d.resetHeld ∧
    (d.onCounters f).lpc = { d.lpc with counters := f d.lpc.counters } ∧ (d.onCounters f).piu = d.piu ∧
    (d.onCounters f).dou = d.dou ∧ (d.onCounters f).bsq = d.bsq ∧ (d.onCounters f).fdc = d.fdc ∧
    (d.onCounters f).gcc = d.gcc ∧ (d.onCounters f).alm = d.alm ∧ (d.onCounters f).sru = d.sru ∧
    (d.onCounters f).ppt = d.ppt :=
  ⟨rfl, rfl, rfl, rfl, rfl, rfl, rfl, rfl, rfl, rfl, rfl, rfl, rfl, rfl⟩

@[simp] theorem onChannel_fields (i : Fin 8) (f : Channel → Channel) :
    (d.onChannel i f).now = d.now ∧ (d.onChannel i f).signals = d.signals ∧ (d.onChannel i f).draws = d.draws ∧
    (d.onChannel i f).loopOut = d.loopOut ∧ (d.onChannel i f).resetHeld = d.resetHeld ∧
    (d.onChannel i f).lpc = d.lpc ∧ (d.onChannel i f).piu = { d.piu with channels := vecModify d.piu.channels i f } ∧
    (d.onChannel i f).dou = d.dou ∧ (d.onChannel i f).bsq = d.bsq ∧ (d.onChannel i f).fdc = d.fdc ∧
    (d.onChannel i f).gcc = d.gcc ∧ (d.onChannel i f).alm = d.alm ∧ (d.onChannel i f).sru = d.sru ∧
    (d.onChannel i f).ppt = d.ppt :=
  ⟨rfl, rfl, rfl, rfl, rfl, rfl, rfl, rfl, rfl, rfl, rfl, rfl, rfl, rfl⟩

@[simp] theorem onInput_fields (i : Fin 12) (f : InputLine → InputLine) :
    (d.onInput i f).now = d.now ∧ (d.onInput i f).signals = d.signals ∧ (d.onInput i f).draws = d.draws ∧
    (d.onInput i f).loopOut = d.loopOut ∧ (d.onInput i f).resetHeld = d.resetHeld ∧ (d.onInput i f).lpc = d.lpc ∧
    (d.onInput i f).piu = { d.piu with lines := vecModify d.piu.lines i f } ∧ (d.onInput i f).dou = d.dou ∧
    (d.onInput i f).bsq = d.bsq ∧ (d.onInput i f).fdc = d.fdc ∧ (d.onInput i f).gcc = d.gcc ∧
    (d.onInput i f).alm = d.alm ∧ (d.onInput i f).sru = d.sru ∧ (d.onInput i f).ppt = d.ppt :=
  ⟨rfl, rfl, rfl, rfl, rfl, rfl, rfl, rfl, rfl, rfl, rfl, rfl, rfl, rfl⟩

@[simp] theorem onOut_fields (i : Fin 16) (f : OutLine → OutLine) :
    (d.onOut i f).now = d.now ∧ (d.onOut i f).signals = d.signals ∧ (d.onOut i f).draws = d.draws ∧
    (d.onOut i f).loopOut = d.loopOut ∧ (d.onOut i f).resetHeld = d.resetHeld ∧ (d.onOut i f).lpc = d.lpc ∧
    (d.onOut i f).piu = d.piu ∧ (d.onOut i f).dou = { d.dou with lines := vecModify d.dou.lines i f } ∧
    (d.onOut i f).bsq = d.bsq ∧ (d.onOut i f).fdc = d.fdc ∧ (d.onOut i f).gcc = d.gcc ∧ (d.onOut i f).alm = d.alm ∧
    (d.onOut i f).sru = d.sru ∧ (d.onOut i f).ppt = d.ppt :=
  ⟨rfl, rfl, rfl, rfl, rfl, rfl, rfl, rfl, rfl, rfl, rfl, rfl, rfl, rfl⟩

@[simp] theorem onFeed_fields (i : Fin 2) (f : FeedChannel → FeedChannel) :
    (d.onFeed i f).now = d.now ∧ (d.onFeed i f).signals = d.signals ∧ (d.onFeed i f).draws = d.draws ∧
    (d.onFeed i f).loopOut = d.loopOut ∧ (d.onFeed i f).resetHeld = d.resetHeld ∧ (d.onFeed i f).lpc = d.lpc ∧
    (d.onFeed i f).piu = d.piu ∧ (d.onFeed i f).dou = d.dou ∧ (d.onFeed i f).bsq = d.bsq ∧
    (d.onFeed i f).fdc = { d.fdc with channels := vecModify d.fdc.channels i f } ∧ (d.onFeed i f).gcc = d.gcc ∧
    (d.onFeed i f).alm = d.alm ∧ (d.onFeed i f).sru = d.sru ∧ (d.onFeed i f).ppt = d.ppt :=
  ⟨rfl, rfl, rfl, rfl, rfl, rfl, rfl, rfl, rfl, rfl, rfl, rfl, rfl, rfl⟩

@[simp] theorem onComp_fields (i : Fin 4) (f : Compartment → Compartment) :
    (d.onComp i f).now = d.now ∧ (d.onComp i f).signals = d.signals ∧ (d.onComp i f).draws = d.draws ∧
    (d.onComp i f).loopOut = d.loopOut ∧ (d.onComp i f).resetHeld = d.resetHeld ∧ (d.onComp i f).lpc = d.lpc ∧
    (d.onComp i f).piu = d.piu ∧ (d.onComp i f).dou = d.dou ∧ (d.onComp i f).bsq = d.bsq ∧
    (d.onComp i f).fdc = d.fdc ∧ (d.onComp i f).gcc = { d.gcc with comps := vecModify d.gcc.comps i f } ∧
    (d.onComp i f).alm = d.alm ∧ (d.onComp i f).sru = d.sru ∧ (d.onComp i f).ppt = d.ppt :=
  ⟨rfl, rfl, rfl, rfl, rfl, rfl, rfl, rfl, rfl, rfl, rfl, rfl, rfl, rfl⟩

@[simp] theorem onPoint_fields (i : Fin 32) (f : Point → Point) :
    (d.onPoint i f).now = d.now ∧ (d.onPoint i f).signals = d.signals ∧ (d.onPoint i f).draws = d.draws ∧
    (d.onPoint i f).loopOut = d.loopOut ∧ (d.onPoint i f).resetHeld = d.resetHeld ∧ (d.onPoint i f).lpc = d.lpc ∧
    (d.onPoint i f).piu = d.piu ∧ (d.onPoint i f).dou = d.dou ∧ (d.onPoint i f).bsq = d.bsq ∧
    (d.onPoint i f).fdc = d.fdc ∧ (d.onPoint i f).gcc = d.gcc ∧
    (d.onPoint i f).alm = { d.alm with points := vecModify d.alm.points i f } ∧ (d.onPoint i f).sru = d.sru ∧
    (d.onPoint i f).ppt = d.ppt :=
  ⟨rfl, rfl, rfl, rfl, rfl, rfl, rfl, rfl, rfl, rfl, rfl, rfl, rfl, rfl⟩

@[simp] theorem raise_fields (c : Instr) :
    (d.raise c).now = d.now ∧ (d.raise c).signals = d.signals ++ [c] ∧ (d.raise c).draws = d.draws ∧
    (d.raise c).loopOut = d.loopOut ∧ (d.raise c).resetHeld = d.resetHeld ∧ (d.raise c).lpc = d.lpc ∧
    (d.raise c).piu = d.piu ∧ (d.raise c).dou = d.dou ∧ (d.raise c).bsq = d.bsq ∧ (d.raise c).fdc = d.fdc ∧
    (d.raise c).gcc = d.gcc ∧ (d.raise c).alm = d.alm ∧ (d.raise c).sru = d.sru ∧ (d.raise c).ppt = d.ppt :=
  ⟨rfl, rfl, rfl, rfl, rfl, rfl, rfl, rfl, rfl, rfl, rfl, rfl, rfl, rfl⟩

@[simp] theorem send_fields (x : List Byte) :
    (d.send x).now = d.now ∧ (d.send x).signals = d.signals ∧ (d.send x).draws = d.draws ∧
    (d.send x).loopOut = d.loopOut ++ [x] ∧ (d.send x).resetHeld = d.resetHeld ∧ (d.send x).lpc = d.lpc ∧
    (d.send x).piu = d.piu ∧ (d.send x).dou = d.dou ∧ (d.send x).bsq = d.bsq ∧ (d.send x).fdc = d.fdc ∧
    (d.send x).gcc = d.gcc ∧ (d.send x).alm = d.alm ∧ (d.send x).sru = d.sru ∧ (d.send x).ppt = d.ppt :=
  ⟨rfl, rfl, rfl, rfl, rfl, rfl, rfl, rfl, rfl, rfl, rfl, rfl, rfl, rfl⟩

@[simp] theorem contribute_fields (c : Contribution) :
    (d.contribute c).now = d.now ∧ (d.contribute c).signals = d.signals ++ [.sruContribution c] ∧
    (d.contribute c).draws = d.draws ∧ (d.contribute c).loopOut = d.loopOut ∧
    (d.contribute c).resetHeld = d.resetHeld ∧ (d.contribute c).lpc = d.lpc ∧ (d.contribute c).piu = d.piu ∧
    (d.contribute c).dou = d.dou ∧ (d.contribute c).bsq = d.bsq ∧ (d.contribute c).fdc = d.fdc ∧
    (d.contribute c).gcc = d.gcc ∧ (d.contribute c).alm = d.alm ∧ (d.contribute c).sru = d.sru ∧
    (d.contribute c).ppt = d.ppt :=
  ⟨rfl, rfl, rfl, rfl, rfl, rfl, rfl, rfl, rfl, rfl, rfl, rfl, rfl, rfl⟩

@[simp] theorem post_fields (e : HostEvent) :
    (d.post e).now = d.now ∧ (d.post e).signals = d.signals ∧ (d.post e).draws = d.draws ∧
    (d.post e).loopOut = d.loopOut ∧ (d.post e).resetHeld = d.resetHeld ∧ (d.post e).lpc = d.lpc ∧
    (d.post e).piu = d.piu ∧ (d.post e).dou = d.dou ∧ (d.post e).bsq = d.bsq ∧ (d.post e).fdc = d.fdc ∧
    (d.post e).gcc = d.gcc ∧ (d.post e).alm = d.alm ∧ (d.post e).sru = d.sru ∧
    (d.post e).ppt = { d.ppt with events := d.ppt.events ||| e.bit } :=
  ⟨rfl, rfl, rfl, rfl, rfl, rfl, rfl, rfl, rfl, rfl, rfl, rfl, rfl, rfl⟩

@[simp] theorem take_fields (c : Instr) :
    (d.take c).now = d.now ∧ (d.take c).signals = d.signals.erase c ∧ (d.take c).draws = d.draws ∧
    (d.take c).loopOut = [] ∧ (d.take c).resetHeld = d.resetHeld ∧ (d.take c).lpc = d.lpc ∧ (d.take c).piu = d.piu ∧
    (d.take c).dou = d.dou ∧ (d.take c).bsq = d.bsq ∧ (d.take c).fdc = d.fdc ∧ (d.take c).gcc = d.gcc ∧
    (d.take c).alm = d.alm ∧ (d.take c).sru = d.sru ∧ (d.take c).ppt = d.ppt :=
  ⟨rfl, rfl, rfl, rfl, rfl, rfl, rfl, rfl, rfl, rfl, rfl, rfl, rfl, rfl⟩

@[simp] theorem answer_fields (code : RespCode) (reason : Byte) (body : List Byte) :
    (d.answer code reason body).now = d.now ∧ (d.answer code reason body).signals = d.signals ∧
    (d.answer code reason body).draws = d.draws ∧ (d.answer code reason body).loopOut = d.loopOut ∧
    (d.answer code reason body).resetHeld = d.resetHeld ∧ (d.answer code reason body).lpc = d.lpc ∧
    (d.answer code reason body).piu = d.piu ∧ (d.answer code reason body).dou = d.dou ∧
    (d.answer code reason body).bsq = d.bsq ∧ (d.answer code reason body).fdc = d.fdc ∧
    (d.answer code reason body).gcc = d.gcc ∧ (d.answer code reason body).alm = d.alm ∧
    (d.answer code reason body).sru = d.sru ∧
    (d.answer code reason body).ppt = { d.ppt with
      holder := some { tag := (match d.ppt.slot with | some (t, _) => t | none => 0), code := code, reason := reason, body := body }
      slot := none } :=
  ⟨rfl, rfl, rfl, rfl, rfl, rfl, rfl, rfl, rfl, rfl, rfl, rfl, rfl, rfl⟩

theorem ok_eq : d.ok = d.answer .ok 0 [] := rfl
theorem wrongState_eq : d.wrongState = d.answer .wrongState 0 [] := rfl
theorem badField_eq : d.badField = d.answer .badField 0 [] := rfl
theorem notConfigured_eq : d.notConfigured = d.answer .notConfigured 0 [] := rfl
theorem okWith_eq (body : List Byte) : d.okWith body = d.answer .ok 0 body := rfl
theorem refuse_eq (r : Reason) : d.refuse r = d.answer .refused r.code [] := rfl

end Station

/-! ## What every command does to the queue -/

/-- A command's meaning answers a next state, with the queue untouched. -/
theorem act_spec (c : Instr) (f : Station → Station) (s : State) :
    act c f s = .next { dev := f (s.dev.take c), pending := s.pending } := rfl

end Sys2Proof.Machine
end

