-- ==== Sys2Proof/Laws/Alarm.lean ====
section
/-! SUPPORT. What the Alarm Unit's operations change: everything they do stays within AlarmsOnly, and what moves the points keeps
the condition table; which first-out flags a report and a first-out handed over move; what a resubmission pass submits. -/

namespace Sys2Proof.Machine

theorem AlarmsOnly.refl (d : Station) : AlarmsOnly d d := ⟨List.prefix_refl _, BitVec.and_self, rfl⟩

theorem AlarmsOnly.trans {a b c : Station} (h : AlarmsOnly a b) (k : AlarmsOnly b c) : AlarmsOnly a c :=
  ⟨h.signals.trans k.signals, events_trans h.events k.events, by rw [k.rest, h.rest]⟩

namespace AlarmsOnly
variable {a b : Station} (h : AlarmsOnly a b)
include h

theorem now : b.now = a.now := (congrArg Station.now h.rest :)
theorem draws : b.draws = a.draws := (congrArg Station.draws h.rest :)
theorem loopOut : b.loopOut = a.loopOut := (congrArg Station.loopOut h.rest :)
theorem resetHeld : b.resetHeld = a.resetHeld := (congrArg Station.resetHeld h.rest :)
theorem piu : b.piu = a.piu := (congrArg Station.piu h.rest :)
theorem dou : b.dou = a.dou := (congrArg Station.dou h.rest :)
theorem bsq : b.bsq = a.bsq := (congrArg Station.bsq h.rest :)
theorem fdc : b.fdc = a.fdc := (congrArg Station.fdc h.rest :)
theorem gcc : b.gcc = a.gcc := (congrArg Station.gcc h.rest :)
theorem sru : b.sru = a.sru := (congrArg Station.sru h.rest :)
theorem ppt : b.ppt = { a.ppt with events := b.ppt.events } := (congrArg Station.ppt h.rest :)
theorem lpc : b.lpc = { a.lpc with
    queue := b.lpc.queue
    staging := { a.lpc.staging with alarm := b.lpc.staging.alarm, summary := b.lpc.staging.summary } } :=
  (congrArg Station.lpc h.rest :)

end AlarmsOnly

theorem PointsMove.refl (a : Alm) : PointsMove a a := ⟨rfl, fun _ _ => rfl⟩

theorem PointsMove.trans {a b c : Alm} (h : PointsMove a b) (k : PointsMove b c) : PointsMove a c :=
  ⟨by rw [k.alm, h.alm], fun i hi => (k.cfg i hi).trans (h.cfg i hi)⟩

theorem PointsMove.present {a b : Alm} (h : PointsMove a b) : b.present = a.present := by rw [h.alm]
theorem PointsMove.epoch {a b : Alm} (h : PointsMove a b) : b.epoch = a.epoch := by rw [h.alm]
theorem PointsMove.mirror {a b : Alm} (h : PointsMove a b) : b.mirror = a.mirror := by rw [h.alm]
theorem PointsMove.overflow {a b : Alm} (h : PointsMove a b) : b.overflow = a.overflow := by rw [h.alm]
theorem PointsMove.epochs {a b : Alm} (h : PointsMove a b) : b.epochs = a.epochs := by rw [h.alm]

/-- An operation moves points: all it does stays within the Alarm Unit, and its tables stand. -/
structure MovesPoints (a b : Station) : Prop where
  only : AlarmsOnly a b
  move : PointsMove a.alm b.alm

namespace MovesPoints

theorem refl (d : Station) : MovesPoints d d := ⟨.refl d, .refl _⟩

theorem trans {a b c : Station} (h : MovesPoints a b) (k : MovesPoints b c) : MovesPoints a c :=
  ⟨h.only.trans k.only, h.move.trans k.move⟩

variable {d e : Station}

theorem post (h : MovesPoints d e) (x : HostEvent) : MovesPoints d (e.post x) :=
  h.trans ⟨⟨by simp, by simp, rfl⟩, .refl _⟩

theorem raise (h : MovesPoints d e) (x : Instr) : MovesPoints d (e.raise x) :=
  h.trans ⟨⟨by simp, by simp, rfl⟩, .refl _⟩

theorem contribute (h : MovesPoints d e) (x : Contribution) : MovesPoints d (e.contribute x) := h.raise _

theorem onPoint (h : MovesPoints d e) (i : Fin 32) (f : Point → Point)
    (hf : ∀ p, (f p).cfg = p.cfg := by intro p; rfl) : MovesPoints d (e.onPoint i f) :=
  h.trans ⟨⟨by simp, by simp, rfl⟩, by constructor <;> simp [vecModify_get, apply_ite Point.cfg, hf]⟩

theorem stageAlarm (h : MovesPoints d e) (x : Option AlarmCommon) :
    MovesPoints d (e.onStaging fun g => { g with alarm := x }) :=
  h.trans ⟨⟨by simp, by simp, rfl⟩, .refl _⟩

theorem writeSummary (h : MovesPoints d e) : MovesPoints d e.writeSummary :=
  h.trans ⟨⟨by simp [Station.writeSummary], by simp [Station.writeSummary], rfl⟩, .refl _⟩

theorem setTrip (h : MovesPoints d e) (x : Option TripRequest) : MovesPoints d (e.onAlm fun a => { a with trip := x }) :=
  h.trans ⟨⟨by simp, by simp, rfl⟩, by constructor <;> simp⟩

theorem recomputeTrip (h : MovesPoints d e) : MovesPoints d e.recomputeTrip := by
  unfold Station.recomputeTrip
  split
  · exact h
  · exact ((h.setTrip _).stageAlarm _).post _

theorem submit (h : MovesPoints d e) (b : NoticeBody) : MovesPoints d (e.submit b).1 := by
  unfold Station.submit
  split
  · exact h.trans ⟨⟨by simp, by simp, rfl⟩, .refl _⟩
  · exact h

theorem submitPoint (h : MovesPoints d e) (i : Fin 32) (c : PointCfg) : MovesPoints d (e.submitPoint i c) := by
  have k := h.submit (.alarmState (e.alm.points[i].body i c))
  unfold Station.submitPoint
  split <;> rename_i eq <;> rw [eq] at k <;> exact k.onPoint i _

theorem announce (h : MovesPoints d e) (i : Fin 32) : MovesPoints d (e.announce i) := by
  unfold Station.announce
  split
  · exact h
  · split
    · exact h
    · split
      · exact h.onPoint i _
      · exact h.submitPoint i _

theorem resubmitFrom (h : MovesPoints d e) (l : List (Fin 32)) : MovesPoints d (Station.resubmitFrom l e) := by
  induction l generalizing e with
  | nil => exact h
  | cons i l ih =>
    unfold Station.resubmitFrom
    split
    · exact ih h
    · split
      · exact ih h
      · split
        · exact ih (h.onPoint i _)
        · split
          · exact ih (h.submitPoint i _)
          · exact h

theorem resubmit (h : MovesPoints d e) : MovesPoints d e.resubmit := h.resubmitFrom _

theorem pointChanged (h : MovesPoints d e) (i : Fin 32) : MovesPoints d (e.pointChanged i) := by
  unfold Station.pointChanged
  dsimp only
  split
  · exact ((h.announce i).post _).recomputeTrip.writeSummary
  · exact ((h.announce i).post _).writeSummary

theorem setActive (h : MovesPoints d e) (l : List (Fin 32)) : MovesPoints d (e.setActive l) := by
  have k : MovesPoints d (e.onAlm fun a => { a with active := l }) :=
    h.trans ⟨⟨by simp, by simp, rfl⟩, by constructor <;> simp⟩
  unfold Station.setActive
  dsimp only
  split
  · exact k
  · exact k.contribute _

theorem addRecent (h : MovesPoints d e) : MovesPoints d e.addRecent := by
  have k : MovesPoints d (e.onAlm fun a => { a with recent := (a.recent.drop (a.recent.length - 31)) ++ [e.now] }) :=
    h.trans ⟨⟨by simp, by simp, rfl⟩, by constructor <;> simp⟩
  have flood (e : Station) : MovesPoints e (e.onAlm fun a => { a with flood := true }) :=
    ⟨⟨by simp, by simp, rfl⟩, by constructor <;> simp⟩
  unfold Station.addRecent
  dsimp only
  split
  · exact (((k.trans (flood _)).contribute _).writeSummary).post _
  · exact k

theorem raisePoint (h : MovesPoints d e) (i : Fin 32) : MovesPoints d (e.raisePoint i) := by
  unfold Station.raisePoint
  dsimp only
  refine MovesPoints.pointChanged (.contribute (.addRecent (.setActive ?_ _)) _) i
  exact h.onPoint i _

theorem pointNormal (h : MovesPoints d e) (i : Fin 32) : MovesPoints d (e.pointNormal i) := by
  unfold Station.pointNormal
  dsimp only
  refine MovesPoints.pointChanged (.setActive ?_ _) i
  exact h.onPoint i _

theorem qualify (h : MovesPoints d e) (i : Fin 32) : MovesPoints d (e.qualify i) := by
  have k := h.onPoint i (fun p => { p with qualified := true, delay := none })
  unfold Station.qualify
  dsimp only
  split <;> first | exact k.raisePoint i | exact k

theorem unqualify (h : MovesPoints d e) (i : Fin 32) : MovesPoints d (e.unqualify i) := by
  have k := h.onPoint i (fun p => { p with qualified := false, delay := none })
  unfold Station.unqualify
  dsimp only
  repeat' split
  all_goals first
    | with_reducible exact k
    | with_reducible exact k.pointNormal i
    | with_reducible exact k.onPoint i _
    | with_reducible exact .pointChanged (k.onPoint i _) i

theorem setWatched (h : MovesPoints d e) (i : Fin 32) (v : Bool) : MovesPoints d (e.setWatched i v) := by
  have k := h.onPoint i (fun p => { p with watched := v })
  unfold Station.setWatched
  split
  · exact h
  · split
    · exact h
    · dsimp only
      split
      · split
        · exact k.qualify i
        · exact k.onPoint i _
      · split
        · exact k.unqualify i
        · exact k.onPoint i _
      · exact k.onPoint i _

theorem forAll {n : Nat} (f : Fin n → Station → Station) (hf : ∀ i x, MovesPoints d x → MovesPoints d (f i x))
    (h : MovesPoints d e) : MovesPoints d (Machine.forAll f e) := by
  unfold Machine.forAll
  generalize List.finRange n = l
  induction l generalizing e with
  | nil => exact h
  | cons i l ih => exact ih (hf i e h)

theorem handPressure (h : MovesPoints d e) (comp : Nat) (p : Option Nat) : MovesPoints d (e.handPressure comp p) :=
  forAll _ (fun i x k => by
    split
    · split
      · exact k.setWatched i _
      · exact k
    · exact k) h

theorem ackPoint (h : MovesPoints d e) (i : Fin 32) : MovesPoints d (e.ackPoint i) := by
  unfold Station.ackPoint
  split
  · exact (h.onPoint i _).pointChanged i
  · exact h.pointNormal i
  · exact h.pointNormal i
  · exact h

theorem applyAck (h : MovesPoints d e) (p o : Byte) : MovesPoints d (e.applyAck p o) := by
  unfold Station.applyAck
  split
  · exact h
  · split
    · exact h.ackPoint _
    · exact h.contribute _

theorem setFirstOut (h : MovesPoints d e) (i : Fin 32) (v : Bool) : MovesPoints d (e.setFirstOut i v) := by
  have k := h.onPoint i (fun p => { p with firstOut := v })
  unfold Station.setFirstOut
  dsimp only
  split
  · exact h
  · split
    · exact k
    · exact k.announce i

theorem handFirstOut (h : MovesPoints d e) (i : Fin 32) : MovesPoints d (e.handFirstOut i) :=
  forAll _ (fun j x k => by
    split
    · exact k
    · exact k.setFirstOut j false) (h.setFirstOut i true)

theorem almNoticeLost (h : MovesPoints d e) (b : NoticeBody) : MovesPoints d (e.almNoticeLost b) := by
  have k := h.contribute .noticeLost
  unfold Station.almNoticeLost
  dsimp only
  split
  · split
    · exact k
    · split
      · exact k
      · split
        · exact k.onPoint _ _
        · split
          · exact k.onPoint _ _
          · exact k.submitPoint _ _
  · exact k

theorem unshelvePoint (h : MovesPoints d e) (i : Fin 32) : MovesPoints d (e.unshelvePoint i) := by
  have k := (h.onPoint i (fun p => { p with shelf := none })).writeSummary
  unfold Station.unshelvePoint
  dsimp only
  split
  · exact h
  · split
    · exact k.announce i
    · exact k

end MovesPoints

/-! ## A report of a condition -/

/-- The condition table with a condition set present or absent. -/
def Alm.withCondition (k : CondKind) (inst : Nat) (v : Bool) (a : Alm) : Alm :=
  { a with present :=
      if v then a.present ++ [{ kind := k, inst := inst }] else a.present.filter (· != { kind := k, inst := inst }) }

/-- All that a report does: nothing where the condition stands so, else the table changes and points move. -/
theorem report_spec (k : CondKind) (inst : Nat) (v : Bool) (d : Station) :
    (d.condition k inst = v ∧ d.report k inst v = d) ∨
      (d.condition k inst ≠ v ∧ MovesPoints (d.onAlm (Alm.withCondition k inst v)) (d.report k inst v)) := by
  unfold Station.report
  split
  · exact Or.inl ⟨by assumption, rfl⟩
  · refine Or.inr ⟨by assumption, ?_⟩
    have m : MovesPoints (d.onAlm (Alm.withCondition k inst v))
        (forAll (fun i d => if d.alm.points[i].watches k inst then d.setWatched i v else d)
          (d.onAlm (Alm.withCondition k inst v))) :=
      MovesPoints.forAll _ (fun i x h => by
        split
        · exact h.setWatched i v
        · exact h) (.refl _)
    dsimp only
    split
    · exact m.recomputeTrip
    · exact m

/-- A report stays within the Alarm Unit. -/
theorem report_only (k : CondKind) (inst : Nat) (v : Bool) (d : Station) : AlarmsOnly d (d.report k inst v) := by
  rcases report_spec k inst v d with ⟨_, h⟩ | ⟨_, h⟩
  · rw [h]; exact .refl d
  · exact AlarmsOnly.trans ⟨by simp, by simp, rfl⟩ h.only

/-- The condition stands as it was reported. -/
theorem report_condition (k : CondKind) (inst : Nat) (v : Bool) (d : Station) :
    (d.report k inst v).condition k inst = v := by
  rcases report_spec k inst v d with ⟨hv, h⟩ | ⟨_, h⟩
  · rw [h]; exact hv
  · unfold Station.condition
    rw [h.move.present]
    cases v <;> simp [Alm.withCondition]

/-- A report leaves every other condition as it was. -/
theorem report_other (k : CondKind) (inst : Nat) (v : Bool) (d : Station) (k' : CondKind) (inst' : Nat)
    (ne : ¬ (k' = k ∧ inst' = inst)) : (d.report k inst v).condition k' inst' = d.condition k' inst' := by
  rcases report_spec k inst v d with ⟨_, h⟩ | ⟨_, h⟩
  · rw [h]
  · unfold Station.condition
    rw [h.move.present]
    cases v <;> simp [Alm.withCondition] <;> grind

/-! ## First-out flags -/

/-- An operation tells of one point: no other point moves, and the point keeps its state and its first-out flag. -/
structure PointTold (i : Fin 32) (a b : Station) : Prop where
  others : ∀ j : Fin 32, j ≠ i → b.alm.points[j] = a.alm.points[j]
  flag : b.alm.points[i].firstOut = a.alm.points[i].firstOut
  state : b.alm.points[i].state = a.alm.points[i].state

namespace PointTold
variable {i : Fin 32} {a b c : Station}

theorem refl (i : Fin 32) (a : Station) : PointTold i a a := ⟨fun _ _ => rfl, rfl, rfl⟩

theorem trans (h : PointTold i a b) (k : PointTold i b c) : PointTold i a c :=
  ⟨fun j ne => (k.others j ne).trans (h.others j ne), k.flag.trans h.flag, k.state.trans h.state⟩

theorem points (h : PointTold i a b) (e : c.alm.points = b.alm.points) : PointTold i a c :=
  ⟨fun j ne => by rw [e]; exact h.others j ne, by rw [e]; exact h.flag, by rw [e]; exact h.state⟩

theorem onPoint (h : PointTold i a b) (f : Point → Point)
    (hf : ∀ p, (f p).firstOut = p.firstOut ∧ (f p).state = p.state := by intro p; exact ⟨rfl, rfl⟩) :
    PointTold i a (b.onPoint i f) :=
  h.trans ⟨fun j ne => by simp [vecModify_get, Fin.val_inj, ne.symm], by simp [hf], by simp [hf]⟩

theorem submitPoint (h : PointTold i a b) (c : PointCfg) : PointTold i a (b.submitPoint i c) := by
  have k : (b.submit (.alarmState (b.alm.points[i].body i c))).1.alm.points = b.alm.points := by
    unfold Station.submit
    split <;> rfl
  unfold Station.submitPoint
  split <;> rename_i eq <;> rw [eq] at k <;> exact (h.points k).onPoint _

theorem announce (h : PointTold i a b) : PointTold i a (b.announce i) := by
  unfold Station.announce
  split
  · exact h
  · split
    · exact h
    · split
      · exact h.onPoint _
      · exact h.submitPoint _

end PointTold

theorem recomputeTrip_points (d : Station) : d.recomputeTrip.alm.points = d.alm.points := by
  unfold Station.recomputeTrip
  split <;> rfl

theorem setActive_points (l : List (Fin 32)) (d : Station) : (d.setActive l).alm.points = d.alm.points := by
  unfold Station.setActive
  dsimp only
  split <;> rfl

theorem addRecent_points (d : Station) : d.addRecent.alm.points = d.alm.points := by
  unfold Station.addRecent
  dsimp only
  split <;> rfl

theorem PointTold.pointChanged {i : Fin 32} {a b : Station} (h : PointTold i a b) : PointTold i a (b.pointChanged i) := by
  have k : PointTold i a ((b.announce i).post .alarmChange) := h.announce.points rfl
  unfold Station.pointChanged
  dsimp only
  split
  · exact k.points (recomputeTrip_points _)
  · exact k.points rfl

/-- A watched condition that moved one point: its flag stands, but that a point which entered NORMAL carries none. -/
structure FlagMoves (v : Bool) (i : Fin 32) (a b : Station) : Prop where
  others : ∀ j : Fin 32, j ≠ i → b.alm.points[j] = a.alm.points[j]
  flag : b.alm.points[i].firstOut = a.alm.points[i].firstOut ∨
    (v = false ∧ b.alm.points[i].firstOut = false ∧ b.alm.points[i].state = .normal)

namespace FlagMoves
variable {v : Bool} {i : Fin 32} {a b c : Station}

theorem told (h : FlagMoves v i a b) (k : PointTold i b c) : FlagMoves v i a c :=
  ⟨fun j ne => (k.others j ne).trans (h.others j ne), by rw [k.flag, k.state]; exact h.flag⟩

theorem onPoint (h : PointTold i a b) (f : Point → Point) (hf : ∀ p, (f p).firstOut = p.firstOut := by intro p; rfl) :
    FlagMoves v i a (b.onPoint i f) :=
  ⟨fun j ne => by simpa [vecModify_get, Fin.val_inj, ne.symm] using h.others j ne, by simpa [hf] using .inl h.flag⟩

end FlagMoves

theorem PointTold.moves {v : Bool} {i : Fin 32} {a b : Station} (h : PointTold i a b) : FlagMoves v i a b :=
  ⟨h.others, .inl h.flag⟩

theorem raisePoint_flag (v : Bool) {i : Fin 32} {a b : Station} (h : PointTold i a b) : FlagMoves v i a (b.raisePoint i) := by
  unfold Station.raisePoint
  dsimp only
  refine FlagMoves.told ?_ (PointTold.pointChanged
    ((PointTold.refl i _).points ((addRecent_points _).trans (setActive_points ..))))
  exact FlagMoves.onPoint h _

theorem pointNormal_flag {i : Fin 32} {a b : Station} (h : PointTold i a b) : FlagMoves false i a (b.pointNormal i) := by
  have k : FlagMoves false i a (b.onPoint i fun p => { p with state := .normal, gone := false, firstOut := false }) :=
    ⟨fun j ne => by simpa [vecModify_get, Fin.val_inj, ne.symm] using h.others j ne, .inr (by simp)⟩
  unfold Station.pointNormal
  dsimp only
  exact k.told (PointTold.pointChanged ((PointTold.refl i _).points (setActive_points ..)))

theorem setWatched_flag (i : Fin 32) (v : Bool) (d : Station) : FlagMoves v i d (d.setWatched i v) := by
  have k := (PointTold.refl i d).onPoint (fun p => { p with watched := v })
  unfold Station.setWatched
  split
  · exact (PointTold.refl i d).moves
  · split
    · exact (PointTold.refl i d).moves
    · dsimp only
      split
      · split
        · have q := k.onPoint (fun p => { p with qualified := true, delay := none })
          unfold Station.qualify
          dsimp only
          split <;> first | exact raisePoint_flag true q | exact q.moves
        · exact (k.onPoint _).moves
      · split
        · have q := k.onPoint (fun p => { p with qualified := false, delay := none })
          unfold Station.unqualify
          dsimp only
          repeat' split
          all_goals first
            | with_reducible exact q.moves
            | with_reducible exact pointNormal_flag q
            | with_reducible exact FlagMoves.onPoint q _
            | with_reducible exact (FlagMoves.onPoint q _).told (.pointChanged (.refl _ _))
        · exact (k.onPoint _).moves
      · exact (k.onPoint _).moves

/-- What a pass over the points leaves of each, where the operation on one moves no other. -/
theorem pass_points (P : Fin 32 → Point → Point → Prop) (f : Fin 32 → Station → Station) (d : Station)
    (others : ∀ i x (j : Fin 32), j ≠ i → (f i x).alm.points[j] = x.alm.points[j])
    (own : ∀ i x, x.alm.points[i] = d.alm.points[i] → P i d.alm.points[i] (f i x).alm.points[i]) (j : Fin 32) :
    P j d.alm.points[j] (forAll f d).alm.points[j] := by
  suffices h : ∀ l : List (Fin 32), l.Nodup → ∀ x : Station, (∀ i ∈ l, x.alm.points[i] = d.alm.points[i]) →
      (j ∉ l → (l.foldl (fun d i => f i d) x).alm.points[j] = x.alm.points[j]) ∧
      (j ∈ l → P j d.alm.points[j] (l.foldl (fun d i => f i d) x).alm.points[j]) by
    exact (h _ (List.nodup_finRange 32) d fun _ _ => rfl).2 (List.mem_finRange j)
  intro l nd
  induction l with
  | nil => intro x _; exact ⟨fun _ => rfl, fun h => absurd h List.not_mem_nil⟩
  | cons i l ih =>
    intro x same
    rw [List.nodup_cons] at nd
    have step := ih nd.2 (f i x) fun k hk =>
      (others i x k fun e => nd.1 (e ▸ hk)).trans (same k (List.mem_cons_of_mem _ hk))
    rw [List.foldl_cons]
    refine ⟨fun hj => ?_, fun hj => ?_⟩
    · rw [List.mem_cons, not_or] at hj
      exact (step.1 hj.2).trans (others i x j hj.1)
    · by_cases m : j ∈ l
      · exact step.2 m
      · obtain rfl : j = i := by simpa [m] using hj
        rw [step.1 m]
        exact own j x (same j List.mem_cons_self)

/-- A report moves a point: not at all where the point does not watch the condition, and else its flag stands, but that a report of
absence can bring the point to NORMAL without it. -/
def ReportMoves (k : CondKind) (inst : Nat) (v : Bool) (p q : Point) : Prop :=
  q = p ∨ (p.watches k inst = true ∧ (q.firstOut = p.firstOut ∨ (v = false ∧ q.firstOut = false ∧ q.state = .normal)))

theorem report_points (k : CondKind) (inst : Nat) (v : Bool) (d : Station) (j : Fin 32) :
    ReportMoves k inst v d.alm.points[j] (d.report k inst v).alm.points[j] := by
  have pass (x : Station) := pass_points (fun _ => ReportMoves k inst v)
    (fun i d => if d.alm.points[i].watches k inst then d.setWatched i v else d) x
    (fun i x j ne => by
      split
      · exact (setWatched_flag i v x).others j ne
      · rfl)
    (fun i x hx => by
      rw [← hx]
      split
      · exact .inr ⟨by assumption, (setWatched_flag i v x).flag⟩
      · exact .inl rfl) j
  have run : d.condition k inst ≠ v → d.report k inst v =
      (fun e : Station => if k = .estop then e.recomputeTrip else e)
        (forAll (fun i d => if d.alm.points[i].watches k inst then d.setWatched i v else d)
          (d.onAlm (Alm.withCondition k inst v))) := by
    intro ne
    unfold Station.report
    rw [if_neg ne]
    rfl
  by_cases h : d.condition k inst = v
  · unfold Station.report
    rw [if_pos h]
    exact .inl rfl
  · have p := pass (d.onAlm (Alm.withCondition k inst v))
    generalize forAll (fun i d => if d.alm.points[i].watches k inst then d.setWatched i v else d)
      (d.onAlm (Alm.withCondition k inst v)) = e at p run
    have q : (d.report k inst v).alm.points[j] = e.alm.points[j] := by
      rw [run h]
      dsimp only
      split
      · exact congrArg (fun x : Vector Point 32 => x[j]) (recomputeTrip_points e)
      · rfl
    rw [q]
    exact p

/-- A point's first-out flag after it is set; no other point moves. -/
theorem setFirstOut_spec (i : Fin 32) (v : Bool) (d : Station) :
    (∀ j : Fin 32, j ≠ i → (d.setFirstOut i v).alm.points[j] = d.alm.points[j]) ∧
      (d.setFirstOut i v).alm.points[i].firstOut = v := by
  unfold Station.setFirstOut
  split
  · rename_i h
    exact ⟨fun _ _ => rfl, h⟩
  · have k : ∀ j : Fin 32, j ≠ i → (d.onPoint i fun p => { p with firstOut := v }).alm.points[j] = d.alm.points[j] :=
      fun j ne => by simp [vecModify_get, Fin.val_inj, ne.symm]
    have own : (d.onPoint i fun p => { p with firstOut := v }).alm.points[i].firstOut = v := by simp
    dsimp only
    split
    · exact ⟨k, own⟩
    · have t := (PointTold.refl i (d.onPoint i fun p => { p with firstOut := v })).announce
      exact ⟨fun j ne => (t.others j ne).trans (k j ne), t.flag.trans own⟩

/-- After a first-out is handed over, the flag stands on the named point alone (R159). -/
theorem handFirstOut_flag (i : Fin 32) (d : Station) (j : Fin 32) :
    (d.handFirstOut i).alm.points[j].firstOut = decide (j = i) := by
  have set := (setFirstOut_spec i true d).2
  exact pass_points (fun j _ q => q.firstOut = decide (j = i)) (fun j d => if j = i then d else d.setFirstOut j false)
    (d.setFirstOut i true)
    (fun k x j ne => by
      split
      · rfl
      · exact (setFirstOut_spec k false x).1 j ne)
    (fun k x hx => by
      split
      · rename_i e
        subst e
        rw [hx, set]
        simp
      · rename_i e
        rw [(setFirstOut_spec k false x).2]
        simp [e]) j

/-! ## A resubmission pass -/

/-- A submission stands in the queue, as a waiting entry it coalesced with or as a new one (R43). -/
theorem submitted_mem (b : NoticeBody) (l : Lpc) : ∃ e ∈ (l.submitted b).queue, e.body = b := by
  unfold Lpc.submitted
  by_cases h : l.mayCoalesce b = true
  · obtain ⟨e, me, he⟩ := List.any_eq_true.mp h
    refine ⟨{ e with body := b }, ?_, rfl⟩
    simp only [h, if_true, List.mem_append, List.mem_map]
    exact Or.inr ⟨e, me, by simp [he]⟩
  · exact ⟨.fresh b, by simp [h], rfl⟩

/-- A submission leaves every entry it does not coalesce with (R43). -/
theorem submitted_keeps (b : NoticeBody) (l : Lpc) {e : QueueEntry} (he : e ∈ l.queue) (ne : e.coalesces b = false) :
    e ∈ (l.submitted b).queue := by
  unfold Lpc.submitted
  split
  · have : e ∈ l.inFlight ++ l.waiting := by unfold Lpc.inFlight Lpc.waiting; rw [List.take_append_drop]; exact he
    rw [List.mem_append] at this ⊢
    rcases this with h | h
    · exact Or.inl h
    · exact Or.inr (List.mem_map.mpr ⟨e, h, by simp [ne]⟩)
  · exact List.mem_append_left _ he

/-- A submission of points one after another. -/
def Station.sendAll (d : Station) (l : List (Fin 32)) (x : Lpc) : Lpc :=
  l.foldl (fun x i => match d.stateNotice i with | some n => x.submitted n | none => x) x

theorem Station.sendAll_append (d : Station) (l m : List (Fin 32)) (x : Lpc) :
    d.sendAll (l ++ m) x = d.sendAll m (d.sendAll l x) := List.foldl_append

theorem Station.sendAll_congr {d e : Station} {l : List (Fin 32)} {x : Lpc} (h : ∀ i ∈ l, d.stateNotice i = e.stateNotice i) :
    d.sendAll l x = e.sendAll l x := by
  induction l generalizing x with
  | nil => rfl
  | cons i l ih =>
    show d.sendAll l _ = e.sendAll l _
    dsimp only
    rw [h i (by simp)]
    exact ih fun j hj => h j (by simp [hj])

/-- The notices of two points do not coalesce. -/
theorem stateNotice_apart {d : Station} {i j : Fin 32} (ne : i ≠ j) {n : NoticeBody} (hn : d.stateNotice j = some n)
    {e : QueueEntry} (he : some e.body = d.stateNotice i) : e.coalesces n = false := by
  unfold Station.stateNotice at hn he
  obtain ⟨c, _, rfl⟩ := Option.map_eq_some_iff.mp hn
  obtain ⟨c', _, hb⟩ := Option.map_eq_some_iff.mp he.symm
  have : BitVec.ofNat 8 j.val ≠ BitVec.ofNat 8 i.val := by
    intro h
    have h := congrArg BitVec.toNat h
    simp only [BitVec.toNat_ofNat] at h
    exact ne (Fin.ext (by omega))
  simp only [QueueEntry.coalesces, ← hb, Point.body, beq_eq_false_iff_ne]
  exact this

/-- What is sent stays in the queue while other points are sent. -/
theorem sendAll_keeps (d : Station) (l : List (Fin 32)) (x : Lpc) {i : Fin 32} (hi : i ∉ l) {e : QueueEntry} (me : e ∈ x.queue)
    (he : some e.body = d.stateNotice i) : e ∈ (d.sendAll l x).queue := by
  induction l generalizing x with
  | nil => exact me
  | cons j l ih =>
    rw [List.mem_cons, not_or] at hi
    refine ih _ hi.2 ?_
    dsimp only
    split
    · rename_i n hn
      exact submitted_keeps n x me (stateNotice_apart hi.1 hn he)
    · exact me

/-- Every point sent has its notice in the queue. -/
theorem sendAll_mem (d : Station) (l : List (Fin 32)) (nd : l.Nodup) (x : Lpc) {i : Fin 32} (hi : i ∈ l)
    (cfg : (d.stateNotice i).isSome) : ∃ e ∈ (d.sendAll l x).queue, some e.body = d.stateNotice i := by
  induction l generalizing x with
  | nil => simp at hi
  | cons j l ih =>
    rw [List.nodup_cons] at nd
    rcases List.mem_cons.mp hi with rfl | h
    · obtain ⟨n, hn⟩ := Option.isSome_iff_exists.mp cfg
      obtain ⟨e, me, he⟩ := submitted_mem n x
      refine ⟨e, ?_, by rw [he, hn]⟩
      show e ∈ (d.sendAll l _).queue
      refine sendAll_keeps d l _ nd.1 ?_ (by rw [he, hn])
      dsimp only
      rw [hn]
      exact me
    · exact ih nd.2 _ h

/-- A pass over a list of points. -/
structure PassOver (l : List (Fin 32)) (a b : Station) : Prop where
  pass : ∃ taken left, l.filter a.awaitsPass = taken ++ left ∧
    (∀ i : Fin 32, b.alm.points[i] = if i ∈ taken then
      { a.alm.points[i] with pending := false, announced := .known a.alm.points[i].state } else a.alm.points[i]) ∧
    b.lpc = a.sendAll (taken.filter fun i => a.alm.points[i].announced ≠ .known a.alm.points[i].state) a.lpc ∧
    (∀ i ∈ left.head?, ∀ n, a.stateNotice i = some n → b.lpc.accepts n = false) ∧
    (left ≠ [] → 16 ≤ b.lpc.queue.length)
  rest : b = { a with alm := { a.alm with points := b.alm.points }, lpc := b.lpc }

theorem PassOver.skip {l : List (Fin 32)} {i : Fin 32} {a b : Station} (h : PassOver l a b) (ni : a.awaitsPass i = false) :
    PassOver (i :: l) a b := by
  obtain ⟨⟨t, f, hl, hp⟩, r⟩ := h
  exact ⟨⟨t, f, by rw [List.filter_cons, if_neg (by simp [ni]), hl], hp⟩, r⟩

/-- The station with one point taken by a pass. -/
def Station.passed (i : Fin 32) (x : Lpc) (a : Station) : Station :=
  { a with
    alm := { a.alm with points := vecModify a.alm.points i fun p => { p with pending := false, announced := .known p.state } }
    lpc := x }

theorem PassOver.take {l : List (Fin 32)} {i : Fin 32} {a b : Station} (ni : i ∉ l) (x : Lpc)
    (yes : a.awaitsPass i = true)
    (hx : x = a.sendAll (if a.alm.points[i].announced ≠ .known a.alm.points[i].state then [i] else []) a.lpc)
    (h : PassOver l (a.passed i x) b) : PassOver (i :: l) a b := by
  obtain ⟨⟨t, f, hl, hp, hq, hf, hn⟩, r⟩ := h
  have point (j : Fin 32) : (a.passed i x).alm.points[j] =
      if j = i then { a.alm.points[i] with pending := false, announced := .known a.alm.points[i].state } else a.alm.points[j] := by
    unfold Station.passed
    simp only [Fin.getElem_fin, vecModify_get]
    by_cases e : j = i
    · subst e; simp
    · simp [e, Fin.val_inj, Ne.symm e]
  have same (j : Fin 32) (nj : j ∈ l) : (a.passed i x).alm.points[j] = a.alm.points[j] := by
    rw [point, if_neg fun e : j = i => ni (by rw [← e]; exact nj)]
  have awaits (j : Fin 32) (nj : j ∈ l) : (a.passed i x).awaitsPass j = a.awaitsPass j := by
    unfold Station.awaitsPass
    rw [same j nj]; rfl
  have notice (j : Fin 32) (nj : j ∈ l) : (a.passed i x).stateNotice j = a.stateNotice j := by
    unfold Station.stateNotice
    rw [same j nj]
  have memt : ∀ j ∈ t, j ∈ l := fun j hj => (List.mem_filter.mp (hl ▸ List.mem_append_left f hj : j ∈ l.filter _)).1
  have memf : ∀ j ∈ f, j ∈ l := fun j hj => (List.mem_filter.mp (hl ▸ List.mem_append_right t hj : j ∈ l.filter _)).1
  have it : i ∉ t := fun h => ni (memt i h)
  refine ⟨⟨i :: t, f, ?_, ?_, ?_, ?_, hn⟩, r.trans rfl⟩
  · rw [List.filter_cons, if_pos yes, List.cons_append, ← hl]
    congr 1
    exact List.filter_congr fun j hj => (awaits j hj).symm
  · intro j
    rw [hp j, point j]
    by_cases e : j = i
    · subst e; simp [it]
    · simp [e]
  · rw [hq]
    have split : (i :: t).filter (fun i => a.alm.points[i].announced ≠ .known a.alm.points[i].state) =
        (if a.alm.points[i].announced ≠ .known a.alm.points[i].state then [i] else []) ++
          t.filter fun j => (a.passed i x).alm.points[j].announced ≠ .known (a.passed i x).alm.points[j].state := by
      have keep : (t.filter fun j => decide ((a.passed i x).alm.points[j].announced ≠ .known (a.passed i x).alm.points[j].state)) =
          t.filter fun j => decide (a.alm.points[j].announced ≠ .known a.alm.points[j].state) :=
        List.filter_congr fun j hj => by rw [same j (memt j hj)]
      rw [keep, List.filter_cons]
      by_cases c : a.alm.points[i].announced = .known a.alm.points[i].state
      · rw [if_neg (by simpa using c), if_neg (by simpa using c)]; rfl
      · rw [if_pos (by simpa using c), if_pos c]; rfl
    rw [split, Station.sendAll_append, ← hx]
    show Station.sendAll _ _ x = _
    exact Station.sendAll_congr fun j hj => notice j (memt j (List.mem_filter.mp hj).1)
  · intro j hj n e
    refine hf j hj n ?_
    rw [notice j (memf j (List.mem_of_mem_head? hj))]
    exact e

/-- A resubmission pass over a list of points. -/
theorem resubmitFrom_spec (l : List (Fin 32)) (nd : l.Nodup) (d : Station) : PassOver l d (d.resubmitFrom l) := by
  induction l generalizing d with
  | nil => exact ⟨⟨[], [], rfl, by simp [Station.resubmitFrom], rfl, by simp, by simp⟩, rfl⟩
  | cons i l ih =>
    rw [List.nodup_cons] at nd
    unfold Station.resubmitFrom
    split
    · rename_i h
      exact (ih nd.2 d).skip (by unfold Station.awaitsPass; rw [h])
    · rename_i c h
      have waits : d.awaitsPass i = !(!d.alm.points[i].pending || d.alm.points[i].shelf.isSome || d.deferred c) := by
        unfold Station.awaitsPass Station.deferred
        rw [h]
        cases d.alm.points[i].shelf <;> cases d.alm.points[i].pending <;> simp
      have note : d.stateNotice i = some (.alarmState (d.alm.points[i].body i c)) := by unfold Station.stateNotice; rw [h]; rfl
      split
      · rename_i no
        exact (ih nd.2 d).skip (by rw [waits, no]; rfl)
      · rename_i yes
        have yes : d.awaitsPass i = true := by rw [waits]; simpa using yes
        split
        · rename_i known
          have e : (d.onPoint i fun p => { p with pending := false }) = d.passed i d.lpc := by
            unfold Station.passed Station.onPoint Station.onAlm
            have : (vecModify d.alm.points i fun p => { p with pending := false }) =
                vecModify d.alm.points i fun p => { p with pending := false, announced := .known p.state } := by
              apply Vector.ext
              intro j hj
              rw [vecModify_get, vecModify_get]
              split
              · rename_i e
                have e : d.alm.points[j] = d.alm.points[i] := by subst e; rfl
                rw [e, ← known]
              · rfl
            dsimp only
            rw [this]
          rw [e]
          exact .take nd.1 _ yes (by rw [if_neg (by simpa using known)]; rfl) (ih nd.2 _)
        · rename_i differs
          split
          · rename_i ok
            have e : d.submitPoint i c = d.passed i (d.lpc.submitted (.alarmState (d.alm.points[i].body i c))) := by
              unfold Station.submitPoint Station.submit
              rw [if_pos ok]
              rfl
            rw [e]
            exact .take nd.1 _ yes (by rw [if_pos differs]; simp only [Station.sendAll, List.foldl_cons, List.foldl_nil, note]) (ih nd.2 _)
          · rename_i full
            have no : d.lpc.accepts (.alarmState (d.alm.points[i].body i c)) = false := by simpa using full
            refine ⟨⟨[], i :: l.filter d.awaitsPass, by rw [List.filter_cons, if_pos yes]; rfl, by simp, rfl, ?_, ?_⟩, rfl⟩
            · intro j hj n hn
              simp only [List.head?_cons, Option.mem_def, Option.some.injEq] at hj
              subst hj
              rw [note] at hn
              cases hn
              exact no
            · intro _
              have := no
              unfold Lpc.accepts at this
              simp only [Bool.or_eq_false_iff, decide_eq_false_iff_not] at this
              omega

/-- All that a resubmission pass does (R160). -/
theorem resubmit_spec (d : Station) : Resubmitted d d.resubmit := by
  obtain ⟨⟨t, f, hl, hp, hq, hf, hn⟩, r⟩ := resubmitFrom_spec _ (List.nodup_finRange 32) d
  refine ⟨⟨t, f, hl, hp, ⟨hq, fun i hi => ?_⟩, hf, hn⟩, r⟩
  have nd : t.Nodup := (List.nodup_append.mp (hl ▸ (List.nodup_finRange 32).filter d.awaitsPass)).1
  have waits : d.awaitsPass i = true :=
    (List.mem_filter.mp (hl ▸ List.mem_append_left f (List.mem_filter.mp hi).1 : i ∈ (List.finRange 32).filter d.awaitsPass)).2
  show ∃ e ∈ (d.resubmitFrom (List.finRange 32)).lpc.queue, _
  rw [hq]
  refine sendAll_mem d _ (nd.filter _) d.lpc hi ?_
  unfold Station.stateNotice
  unfold Station.awaitsPass at waits
  cases h : d.alm.points[i].cfg with
  | none => rw [h] at waits; simp at waits
  | some c => rfl

end Sys2Proof.Machine
end

