-- ==== Sys2Proof/Laws/Drive.lean ====
section
/-! SUPPORT. What a command on an output line changes: one line of its owner and, for a preload, one internal event. -/

namespace Sys2Proof.Machine

theorem OwnLines.refl (who : Owner) (a : Dou) : OwnLines who a a := fun _ => ⟨rfl, fun _ => rfl⟩

/-- Lines whose settings are the same have the same owner. -/
theorem owner_of_cfg {l m : OutLine} (h : l.cfg = m.cfg) : l.owner = m.owner := by simp [OutLine.owner, h]

theorem kind_of_cfg {l m : OutLine} (h : l.cfg = m.cfg) : l.kind = m.kind := by simp [OutLine.kind, h]

theorem OwnLines.trans {who : Owner} {a b c : Dou} (h : OwnLines who a b) (k : OwnLines who b c) : OwnLines who a c :=
  fun i => ⟨(k i).1.trans (h i).1, fun n => ((k i).2 (by rw [owner_of_cfg (h i).1]; exact n)).trans ((h i).2 n)⟩

/-- One line changed, its settings kept, by its owner. -/
theorem OwnLines.one {who : Owner} (a : Dou) (i : Fin 16) (f : OutLine → OutLine) (hf : (f a.lines[i]).cfg = a.lines[i].cfg)
    (own : a.lines[i].owner = who) : OwnLines who a { a with lines := vecModify a.lines i f } := by
  intro j
  simp only [Fin.getElem_fin, vecModify_get]
  by_cases e : i.val = j.val
  · obtain rfl : i = j := Fin.ext e
    exact ⟨by simpa using hf, fun n => absurd own n⟩
  · simp [e]

/-- The lines with their settings decide which line carries a function. -/
theorem findOut_congr {a b : Station} (h : ∀ i : Fin 16, b.dou.lines[i].cfg = a.dou.lines[i].cfg) (k : OutKind) (f : OutFn)
    (n : Nat) : b.findOut k f n = a.findOut k f n := by
  unfold Station.findOut
  simp only [h]

/-- The line that carries a kind and function has them in its settings. -/
theorem findOut_cfg {d : Station} {k : OutKind} {f : OutFn} {n : Nat} {i : Fin 16} (h : d.findOut k f n = some i) :
    ∃ c, d.dou.lines[i].cfg = some c ∧ c.kind = k ∧ c.fn = f ∧
      (c.inst = n ∨ f = .pilotValve ∨ f = .mainFuelRelease ∨ f = .igniter) := by
  have e := List.find?_some h
  split at e
  · next c hc =>
    refine ⟨c, hc, ?_⟩
    simp at e
    grind
  · simp at e

/-! ## Commands -/

/-- What a command on a line may change: its owner's line, and events of changed active values. -/
structure LineCommand (who : Owner) (a b : Station) : Prop where
  lines : OwnLines who a.dou b.dou
  signals : a.signals <+: b.signals
  rest : b = { a with dou := b.dou, signals := b.signals }

theorem LineCommand.refl (who : Owner) (d : Station) : LineCommand who d d := ⟨.refl _ _, List.prefix_refl _, rfl⟩

theorem LineCommand.trans {who : Owner} {a b c : Station} (h : LineCommand who a b) (k : LineCommand who b c) :
    LineCommand who a c :=
  ⟨h.lines.trans k.lines, h.signals.trans k.signals, by rw [k.rest, h.rest]⟩

/-- A line of its owner changed with its settings kept. -/
theorem LineCommand.onOut {who : Owner} {a b : Station} (h : LineCommand who a b) (i : Fin 16) (f : OutLine → OutLine)
    (own : b.dou.lines[i].owner = who) (hf : ∀ l, (f l).cfg = l.cfg := by intro l; rfl) : LineCommand who a (b.onOut i f) :=
  h.trans ⟨by simpa using OwnLines.one _ i f (hf _) own, by simp, rfl⟩

theorem lineOn_command (i : Fin 16) (who : Owner) (d : Station) : LineCommand who d (d.lineOn i who).1 := by
  unfold Station.lineOn
  dsimp only
  split
  · exact .refl ..
  · next h =>
    simp at h
    split
    · exact .refl ..
    · split
      · exact (LineCommand.refl ..).onOut i _ h.2
      · exact (LineCommand.refl ..).onOut i _ h.2

theorem lineOff_command (i : Fin 16) (who : Owner) (d : Station) : LineCommand who d (d.lineOff i who).1 := by
  unfold Station.lineOff
  dsimp only
  split
  · exact .refl ..
  · next h =>
    simp at h
    exact (LineCommand.refl ..).onOut i _ h.2

theorem startPulse_cfg (now : Nat) (l : OutLine) : (l.startPulse now).cfg = l.cfg := by
  unfold OutLine.startPulse
  split <;> simp_all

theorem burstStart_command (i : Fin 16) (who : Owner) (d : Station) : LineCommand who d (d.burstStart i who).1 := by
  unfold Station.burstStart
  dsimp only
  split
  · exact .refl ..
  · next h =>
    simp at h
    split
    · exact .refl ..
    · split
      · exact (LineCommand.refl ..).onOut i _ h.2 fun l => startPulse_cfg _ l
      · exact .refl ..

theorem burstEnd_command (i : Fin 16) (who : Owner) (d : Station) : LineCommand who d (d.burstEnd i who).1 := by
  unfold Station.burstEnd
  dsimp only
  split
  · exact .refl ..
  · next h =>
    simp at h
    split
    · exact (LineCommand.refl ..).onOut i _ h.2 fun l => by split <;> rfl
    · exact .refl ..

theorem burstCut_command (i : Fin 16) (who : Owner) (d : Station) : LineCommand who d (d.burstCut i who).1 := by
  unfold Station.burstCut
  dsimp only
  split
  · exact .refl ..
  · next h =>
    simp at h
    split
    · exact .refl ..
    · exact (LineCommand.refl ..).onOut i _ h.2

theorem setActiveValue_command (i : Fin 16) (v : Nat) (cause : ChangeCause) (who : Owner) (d : Station)
    (own : d.dou.lines[i].owner = who) : LineCommand who d (d.setActiveValue i v cause) := by
  have k := (LineCommand.refl who d).onOut i (fun l => { l with active := v }) own
  unfold Station.setActiveValue
  split
  · exact .refl ..
  · dsimp only
    split
    · exact k.trans ⟨.refl _ _, by simp, rfl⟩
    · exact k

theorem LineCommand.owner {who : Owner} {a b : Station} (h : LineCommand who a b) (i : Fin 16) :
    b.dou.lines[i].owner = a.dou.lines[i].owner := owner_of_cfg (h.lines i).1

theorem setPreload_command (i : Fin 16) (who : Owner) (v : Nat) (d : Station) :
    LineCommand who d (d.setPreload i who v).1 := by
  unfold Station.setPreload
  dsimp only
  split
  · exact .refl ..
  · next h =>
    simp at h
    have k := (LineCommand.refl who d).onOut i
      (fun l => { l with preload := min 4080 v, firstWrite := l.firstWrite && min 4080 v == 0 }) h.2
    have own := (k.owner i).trans h.2
    have k0 := fun x => k.trans (setActiveValue_command i x .immediate who _ own)
    split
    · exact k
    · split
      · exact (k0 _).onOut i _ (((k0 _).owner i).trans h.2)
      · split
        · exact (k0 _).onOut i _ (((k0 _).owner i).trans h.2)
        · exact k

/-! ## Commands by the owner -/

/-- The settings of a line give its kind and owner (Table 5-1). -/
theorem line_of_cfg {l : OutLine} {c : OutCfg} (h : l.cfg = some c) :
    l.kind = c.kind ∧ l.owner = match c.kind with
      | .unused => .noOwner
      | .valve => .burnerSequencer
      | .igniter => .burnerSequencer
      | .strokeForward => .grateCooler
      | .strokeReturn => .grateCooler
      | .reference => if c.fn = .feeder then .feedController else .grateCooler := by
  refine ⟨by simp [OutLine.kind, h], ?_⟩
  cases hk : c.kind <;> simp [OutLine.owner, h, hk]

/-- A valve or a stroke line. -/
def OutLine.isLevel (l : OutLine) : Prop := l.kind = .valve ∨ l.kind = .strokeForward ∨ l.kind = .strokeReturn

theorem isLevel_guard {l : OutLine} (h : l.isLevel) : (l.kind == .valve || l.isStroke) = true := by
  rcases h with h | h | h <;> simp [OutLine.isStroke, h]

/-- LINE OFF by the owner of a valve or stroke line. -/
theorem lineOff_owned {i : Fin 16} {who : Owner} {d : Station} (k : d.dou.lines[i].isLevel)
    (own : d.dou.lines[i].owner = who) :
    d.lineOff i who = (d.onOut i fun l => { l with on := false, pin := false }, .done) := by
  unfold Station.lineOff
  dsimp only
  rw [if_neg]
  simp only [isLevel_guard k, own]
  simp

/-- LINE ON by the owner of a valve or stroke line. -/
theorem lineOn_owned {i : Fin 16} {who : Owner} {d : Station} (k : d.dou.lines[i].isLevel)
    (own : d.dou.lines[i].owner = who) :
    d.lineOn i who =
      if d.dou.lines[i].forced then (d, .heldOff)
      else if d.partnerOn d.dou.lines[i] then (d.onOut i fun l => { l with refusals := satAdd top16 l.refusals 1 }, .refused)
      else (d.onOut i fun l => { l with on := true, pin := true }, .done) := by
  unfold Station.lineOn
  dsimp only
  rw [if_neg]
  simp only [isLevel_guard k, own]
  simp

/-- BURST CUT by the owner of the igniter line. -/
theorem burstCut_owned {i : Fin 16} {who : Owner} {d : Station} (k : d.dou.lines[i].kind = .igniter)
    (own : d.dou.lines[i].owner = who) :
    d.burstCut i who = (if d.dou.lines[i].burst = .idle then d else d.onOut i OutLine.goIdle, .done) := by
  unfold Station.burstCut
  dsimp only
  rw [if_neg (by simp only [k, own]; simp)]
  split <;> rfl

/-- SET PRELOAD by the owner of a reference line. -/
theorem setPreload_owned {i : Fin 16} {who : Owner} {v : Nat} {d : Station} (k : d.dou.lines[i].kind = .reference)
    (own : d.dou.lines[i].owner = who) :
    (d.setPreload i who v).1 =
      let l := d.dou.lines[i]
      let w := min 4080 v
      let e := d.onOut i fun l => { l with preload := w, firstWrite := l.firstWrite && w == 0 }
      if l.forced then e
      else if w = 0 then (e.setActiveValue i 0 .immediate).onOut i fun l => l.goInactive.restartPattern d.now
      else if l.firstWrite then (e.setActiveValue i w .immediate).onOut i fun l => l.restartPattern d.now
      else e := by
  unfold Station.setPreload
  dsimp only
  rw [if_neg (by simp only [k, own]; simp)]
  split
  · rfl
  · split
    · rfl
    · split <;> rfl

end Sys2Proof.Machine
end

