-- ==== Sys2Proof/Laws/Burner.lean ====
section
/-! SUPPORT. What the Burner Sequencer's operations change: everything they do stays within BurnerOnly; what a trip and a stop
do. -/

namespace Sys2Proof.Machine

namespace BurnerOnly

theorem refl (d : Station) : BurnerOnly d d := ⟨.refl _ _, .refl d⟩

theorem trans {a b c : Station} (h : BurnerOnly a b) (k : BurnerOnly b c) : BurnerOnly a c :=
  ⟨h.lines.trans k.lines, h.rest.signals.trans k.rest.signals, events_trans h.rest.events k.rest.events,
    by rw [k.rest.rest, h.rest.rest]⟩

variable {a b c : Station}

theorem alarms (h : BurnerOnly a b) (k : AlarmsOnly b c) : BurnerOnly a c :=
  h.trans ⟨by rw [k.dou]; exact .refl _ _, k.signals, k.events, by rw [k.rest]⟩

theorem command (h : BurnerOnly a b) (k : LineCommand .burnerSequencer b c) : BurnerOnly a c :=
  h.trans ⟨k.lines, k.signals, by rw [k.rest]; simp, by rw [k.rest]⟩

theorem onBsq (h : BurnerOnly a b) (f : Bsq → Bsq) : BurnerOnly a (b.onBsq f) :=
  h.trans ⟨.refl _ _, by simp, by simp, rfl⟩

theorem post (h : BurnerOnly a b) (e : HostEvent) : BurnerOnly a (b.post e) :=
  h.trans ⟨.refl _ _, by simp, by simp, rfl⟩

theorem contribute (h : BurnerOnly a b) (x : Contribution) : BurnerOnly a (b.contribute x) :=
  h.trans ⟨.refl _ _, by simp, by simp, rfl⟩

theorem report (h : BurnerOnly a b) (k : CondKind) (n : Nat) (v : Bool) : BurnerOnly a (b.report k n v) :=
  h.alarms (report_only k n v b)

theorem reportCooler (h : BurnerOnly a b) : BurnerOnly a b.reportCooler := h.report ..

theorem stageBurner (h : BurnerOnly a b) : BurnerOnly a b.stageBurner := by
  unfold Station.stageBurner
  split
  · exact h
  · exact h.trans ⟨.refl _ _, by simp, by simp, rfl⟩

theorem recordState (h : BurnerOnly a b) (st : BsqState) (n : Nat) : BurnerOnly a (b.recordState st n) :=
  ((h.onBsq _).stageBurner).post _

theorem valveOn (h : BurnerOnly a b) (fn : OutFn) : BurnerOnly a (b.valveOn fn).1 := by
  unfold Station.valveOn
  split
  · exact h.command (lineOn_command ..)
  · exact h

theorem valveOff (h : BurnerOnly a b) (fn : OutFn) : BurnerOnly a (b.valveOff fn) := by
  unfold Station.valveOff
  split
  · exact h.command (lineOff_command ..)
  · exact h

theorem igniterStart (h : BurnerOnly a b) : BurnerOnly a b.igniterStart.1 := by
  unfold Station.igniterStart
  split
  · exact h.command (burstStart_command ..)
  · exact h

theorem igniterEnd (h : BurnerOnly a b) : BurnerOnly a b.igniterEnd := by
  unfold Station.igniterEnd
  split
  · exact h.command (burstEnd_command ..)
  · exact h

theorem igniterCut (h : BurnerOnly a b) : BurnerOnly a b.igniterCut := by
  unfold Station.igniterCut
  split
  · exact h.command (burstCut_command ..)
  · exact h

theorem fuelOff (h : BurnerOnly a b) : BurnerOnly a b.fuelOff := ((h.valveOff _).valveOff _).igniterCut

theorem startHold (h : BurnerOnly a b) (k : HoldKind) : BurnerOnly a (b.startHold k) := (h.onBsq _).report ..

theorem handRef (h : BurnerOnly a b) (x : FirstOut) : BurnerOnly a (b.handRef x) := by
  unfold Station.handRef
  split
  · exact h.alarms ((MovesPoints.refl _).handFirstOut _).only
  · exact h

theorem trip (h : BurnerOnly a b) (cause : CauseKind) : BurnerOnly a (b.trip cause) := by
  have k (f : Bsq → Bsq) (e : Contribution) (x : FirstOut) :=
    (((((h.fuelOff.onBsq fun b => b.stopTimers.disarm).recordState .lockout 0).onBsq f).contribute e).handRef x)
  unfold Station.trip
  dsimp only
  split
  · exact (((k _ _ _).startHold _).report ..).reportCooler
  · exact ((k _ _ _).report ..).reportCooler

theorem recordStop (h : BurnerOnly a b) (r : StopReason) : BurnerOnly a (b.recordStop r) := h.onBsq _

theorem stopPurge (h : BurnerOnly a b) (r : StopReason) : BurnerOnly a (b.stopPurge r) :=
  ((h.onBsq _).recordState ..).recordStop r

theorem stopBurner (h : BurnerOnly a b) (r : StopReason) : BurnerOnly a (b.stopBurner r) := by
  unfold Station.stopBurner
  split
  · exact h
  · exact ((((((h.fuelOff.onBsq _).recordState ..).onBsq _).recordStop r).report ..).reportCooler)

theorem enterPilot (h : BurnerOnly a b) (x : BurnerCfg) : BurnerOnly a (b.enterPilot x) := by
  have k := (h.onBsq fun b => { b with purge := none }).recordState .pilotTrial 0
  have k1 := k.valveOn .pilotValve
  unfold Station.enterPilot
  dsimp only
  split
  · next e => rw [e] at k1; exact k1.trip _
  · next e =>
    rw [e] at k1
    have k2 := k1.igniterStart
    split
    · next e' => rw [e'] at k2; exact k2.trip _
    · next e' => rw [e'] at k2; exact k2.onBsq _

theorem enterMain (h : BurnerOnly a b) (x : BurnerCfg) : BurnerOnly a (b.enterMain x) := by
  have k := ((h.onBsq fun b => { b with pilotTrial := none, ignition := none }).igniterCut).recordState .mainTrial x.lightOff
  have k1 := k.valveOn .mainFuelRelease
  unfold Station.enterMain
  dsimp only
  split
  · next e => rw [e] at k1; exact k1.trip _
  · next e => rw [e] at k1; exact k1.onBsq _

theorem enterFiring (h : BurnerOnly a b) (x : BurnerCfg) : BurnerOnly a (b.enterFiring x) :=
  ((((h.onBsq _).valveOff _).recordState ..).onBsq _).contribute _

theorem enterPurge (h : BurnerOnly a b) (x : BurnerCfg) : BurnerOnly a (b.enterPurge x) := by
  unfold Station.enterPurge
  dsimp only
  split
  · exact ((h.onBsq _).recordState ..).onBsq _
  · exact (h.onBsq _).recordState ..

theorem flameLost (h : BurnerOnly a b) : BurnerOnly a b.flameLost := by
  unfold Station.flameLost
  dsimp only
  split
  · exact (h.onBsq _).trip _
  · exact (h.onBsq _).trip _
  · exact h.onBsq _

theorem goodCapture (h : BurnerOnly a b) (x : BurnerCfg) (i : Fin 2) : BurnerOnly a (b.goodCapture x i) := by
  have k := h.onBsq (fun b =>
    { b with monitor := b.monitor.onScanner i fun s => { s with good := min 8 (s.good + 1), bad := 0 } })
  unfold Station.goodCapture
  dsimp only
  repeat' split
  all_goals first
    | with_reducible exact k
    | with_reducible exact k.onBsq _
    | with_reducible exact (k.onBsq _).onBsq _
    | with_reducible exact ((k.onBsq _).onBsq _).enterMain x

theorem badCapture (h : BurnerOnly a b) (i : Fin 2) : BurnerOnly a (b.badCapture i) := by
  have k := h.onBsq (fun b =>
    { b with monitor := b.monitor.onScanner i fun s => { s with good := 0, bad := min 2 (s.bad + 1) } })
  unfold Station.badCapture
  dsimp only
  repeat' split
  all_goals first
    | with_reducible exact k
    | with_reducible exact k.onBsq _
    | with_reducible exact k.flameLost

theorem rampNow (h : BurnerOnly a b) (x : BurnerCfg) : BurnerOnly a (b.rampNow x) := by
  unfold Station.rampNow
  split
  · exact h
  · exact (h.onBsq _).stageBurner

theorem checkShortfall (h : BurnerOnly a b) (x : BurnerCfg) : BurnerOnly a (b.checkShortfall x) := by
  unfold Station.checkShortfall
  split
  · split
    · exact h.onBsq _
    · exact h
  · exact (h.onBsq _).report ..

theorem checkCooler (h : BurnerOnly a b) (x : BurnerCfg) : BurnerOnly a (b.checkCooler x) := by
  unfold Station.checkCooler
  dsimp only
  repeat' split
  all_goals first
    | with_reducible exact h
    | with_reducible exact (h.onBsq _).reportCooler
    | with_reducible exact ((h.onBsq _).reportCooler).trip _

theorem noteMain (h : BurnerOnly a b) : BurnerOnly a b.noteMain := by
  unfold Station.noteMain
  split
  · exact h.onBsq _
  · exact h

theorem burnerRefresh (h : BurnerOnly a b) (x : BurnerCfg) : BurnerOnly a (b.burnerRefresh x) := by
  have k := h.noteMain
  unfold Station.burnerRefresh
  dsimp only
  repeat' split
  all_goals first
    | with_reducible exact k
    | with_reducible exact k.stopPurge _
    | with_reducible exact k.trip _
    | with_reducible exact k.enterFiring x
    | with_reducible exact ((k.rampNow x).checkShortfall x).checkCooler x

theorem softStop (h : BurnerOnly a b) (r : StopReason) : BurnerOnly a (b.softStop r) := by
  unfold Station.softStop
  split
  · exact h.stopPurge r
  · exact h.stopBurner r
  · exact h.stopBurner r
  · exact h

end BurnerOnly

/-! ## Fuel off, trips and stops -/

theorem LineCommand.bsq {who : Owner} {a b : Station} (h : LineCommand who a b) : b.bsq = a.bsq := by rw [h.rest]

/-- A valve off: its line, if there is one, and no other. -/
theorem valveOff_lines (fn : OutFn) (d : Station) (i : Fin 16) :
    (d.valveOff fn).dou.lines[i] =
      if d.findOut .valve fn 0 = some i then { d.dou.lines[i] with on := false, pin := false } else d.dou.lines[i] := by
  unfold Station.valveOff
  cases h : d.findOut .valve fn 0 with
  | none => simp
  | some j =>
    obtain ⟨c, hc, hk, -⟩ := findOut_cfg h
    have e := line_of_cfg hc
    rw [hk] at e
    have own : d.dou.lines[j].owner = .burnerSequencer := e.2
    dsimp only
    rw [lineOff_owned (Or.inl e.1) own]
    simp only [Station.onOut_fields, Fin.getElem_fin, vecModify_get, Option.some.injEq, Fin.ext_iff]

/-- The igniter cut: its line, if it bursts, and no other. -/
theorem igniterCut_lines (d : Station) (i : Fin 16) :
    d.igniterCut.dou.lines[i] =
      if d.findOut .igniter .igniter 0 = some i ∧ d.dou.lines[i].burst ≠ .idle then d.dou.lines[i].goIdle
      else d.dou.lines[i] := by
  unfold Station.igniterCut
  cases h : d.findOut .igniter .igniter 0 with
  | none => simp
  | some j =>
    obtain ⟨c, hc, hk, -⟩ := findOut_cfg h
    have e := line_of_cfg hc
    rw [hk] at e
    have own : d.dou.lines[j].owner = .burnerSequencer := e.2
    dsimp only
    rw [burstCut_owned e.1 own]
    dsimp only
    split
    · next b =>
      refine (if_neg ?_).symm
      rintro ⟨x, y⟩
      cases x
      exact y b
    · next b =>
      simp only [Station.onOut_fields, Fin.getElem_fin, vecModify_get, Option.some.injEq]
      by_cases f : j = i
      · subst f; simp only [Fin.getElem_fin] at b; simp [b]
      · simp [f, Fin.ext_iff.not.mp f]

/-- Fuel off, line by line. -/
theorem fuelOff_lines (d : Station) : FuelOff d d.fuelOff := by
  intro i
  have f : ∀ (e : Station) (fn : OutFn) (k : OutKind) (g : OutFn), (e.valveOff fn).findOut k g 0 = e.findOut k g 0 :=
    fun e fn k g => findOut_congr (fun j => by rw [valveOff_lines]; split <;> rfl) k g 0
  have one : ∀ {k k' : OutKind} {g g' : OutFn} {i : Fin 16}, d.findOut k g 0 = some i → d.findOut k' g' 0 = some i →
      k = k' ∧ g = g' := by
    intro k k' g g' i h h'
    obtain ⟨c, hc, hk, hf, -⟩ := findOut_cfg h
    obtain ⟨c', hc', hk', hf', -⟩ := findOut_cfg h'
    rw [hc] at hc'
    cases hc'
    exact ⟨hk ▸ hk', hf ▸ hf'⟩
  unfold Station.fuelOff
  rw [igniterCut_lines, f, f, valveOff_lines, f, valveOff_lines]
  by_cases m : d.findOut .valve .mainFuelRelease 0 = some i
  · have p : d.findOut .valve .pilotValve 0 ≠ some i := fun x => by cases (one m x).2
    have g : d.findOut .igniter .igniter 0 ≠ some i := fun x => by cases (one m x).1
    simp [m, p, g]
  · by_cases p : d.findOut .valve .pilotValve 0 = some i
    · have g : d.findOut .igniter .igniter 0 ≠ some i := fun x => by cases (one p x).1
      simp [m, p, g]
    · simp only [m, p, or_self, if_false]
      rfl

/-- Fuel off touches the output lines alone. -/
theorem fuelOff_rest (d : Station) : d.fuelOff = { d with dou := d.fuelOff.dou } := by
  have off : ∀ (e : Station) (i : Fin 16) (who : Owner), (e.lineOff i who).1 = { e with dou := (e.lineOff i who).1.dou } := by
    intro e i who
    unfold Station.lineOff
    dsimp only
    split <;> rfl
  have v : ∀ (e : Station) (fn : OutFn), e.valveOff fn = { e with dou := (e.valveOff fn).dou } := by
    intro e fn
    unfold Station.valveOff
    split
    · exact off ..
    · rfl
  have c : ∀ e : Station, e.igniterCut = { e with dou := e.igniterCut.dou } := by
    intro e
    unfold Station.igniterCut
    split
    · unfold Station.burstCut
      dsimp only
      split
      · rfl
      · split <;> rfl
    · rfl
  unfold Station.fuelOff
  rw [c, v, v]

/-- The monitor of an ended fire. -/
theorem clear_scanners (st : FlameStatus) (m : Monitor) (i : Fin 2) :
    (m.clear st).scanners[i] = { m.scanners[i] with good := 0, bad := 0 } := by
  simp [Monitor.clear]

/-- Figures that fit are written as they are. -/
theorem wire32_zero : wire32 0 = 0 := rfl

/-- A state recorded: the burner's own state and demand, its staged part, and the host event. -/
theorem recordState_spec (st : BsqState) (n : Nat) (d : Station) :
    d.recordState st n = { d with
      bsq := { d.bsq with state := st, demand := n }
      lpc := { d.lpc with staging := { d.lpc.staging with
        burner := match d.cfg.burner with
          | some c => some { letter := c.letter, state := st, demand := wire32 n }
          | none => d.lpc.staging.burner } }
      ppt := { d.ppt with events := d.ppt.events ||| 8 } } := by
  unfold Station.recordState Station.stageBurner
  have e : (d.onBsq fun b => { b with state := st, demand := n }).cfg = d.cfg := rfl
  rw [e]
  cases d.cfg.burner <;> rfl

theorem AlarmsOnly.onBsq {a b : Station} (h : AlarmsOnly a b) (f : Bsq → Bsq) : AlarmsOnly (a.onBsq f) (b.onBsq f) := by
  refine ⟨h.signals, h.events, ?_⟩
  simp only [Station.onBsq]
  rw [h.bsq]
  exact congrArg (fun x : Station => { x with bsq := f a.bsq }) h.rest

/-- The station with the fire ended and its state recorded. -/
def Station.fireEnded (st : BsqState) (d : Station) : Station :=
  { d with
    dou := d.fuelOff.dou
    bsq := { d.bsq with
      state := st, demand := 0, purge := none, postPurge := none, pilotTrial := none, ignition := none
      mainTrial := none, shortfall := none, coolerLoss := none, firingSecond := none
      monitor := d.bsq.monitor.clear .none }
    lpc := { d.lpc with staging := { d.lpc.staging with
      burner := match d.cfg.burner with
        | some c => some { letter := c.letter, state := st, demand := 0 }
        | none => d.lpc.staging.burner } }
    ppt := { d.ppt with events := d.ppt.events ||| 8 } }

theorem fireEnded_eq (st : BsqState) (d : Station) :
    (d.fuelOff.onBsq fun b => b.stopTimers.disarm).recordState st 0 = d.fireEnded st := by
  rw [recordState_spec, fuelOff_rest]
  rfl

/-- What a fire that ended holds after conditions and points have moved. -/
theorem fireEnded_spec (st : BsqState) (f : Bsq → Bsq) (x : List Instr) {d e : Station}
    (hf : ∀ b, f b = { b with postPurge := (f b).postPurge, trip := (f b).trip, lastStop := (f b).lastStop,
                              holds := (f b).holds })
    (h : AlarmsOnly { d.fireEnded st with bsq := f (d.fireEnded st).bsq, signals := d.signals ++ x } e)
    (hs : e.condition .heatShortfall 0 = false) (hc : e.condition .coolerLoss 0 = e.bsq.holds.coolerLoss.isSome) :
    FireEnded st d e := by
  have dou : e.dou = d.fuelOff.dou := h.dou
  have bsq : e.bsq = f (d.fireEnded st).bsq := h.bsq
  refine ⟨fun i => ?_, ?_, fun i => ?_, fun c k => ?_, ?_, hs, hc, ?_⟩
  · rw [dou]
    exact fuelOff_lines d i
  · rw [bsq, hf]
    rfl
  · rw [bsq, hf]
    exact clear_scanners ..
  · rw [h.lpc]
    simp only [Station.fireEnded, k]
  · have y : (8 : Byte) &&& (d.ppt.events ||| 8) = 8 := by rw [BitVec.and_comm, or_and_right_self]
    have z := events_trans y h.events
    rw [BitVec.and_comm]
    exact z
  · have o := (BurnerOnly.refl d).fuelOff.lines
    refine ⟨by rw [dou]; exact o, (List.prefix_append ..).trans h.signals, ?_, ?_⟩
    · exact events_trans (b := d.ppt.events ||| 8) (by simp) h.events
    · have burner : e.lpc.staging.burner = (d.fireEnded st).lpc.staging.burner := by rw [h.lpc]
      exact h.rest.trans (by rw [bsq, dou, burner]; rfl)

theorem handRef_only (x : FirstOut) (d : Station) : AlarmsOnly d (d.handRef x) := by
  unfold Station.handRef
  split
  · exact ((MovesPoints.refl _).handFirstOut _).only
  · exact .refl _

theorem handRef_cfg (x : FirstOut) (d : Station) (j : Fin 32) : (d.handRef x).alm.points[j].cfg = d.alm.points[j].cfg := by
  unfold Station.handRef
  split
  · exact ((MovesPoints.refl _).handFirstOut _).move.cfg j j.isLt
  · rfl

/-- A first-out that names no own point moves nothing. -/
theorem handRef_other {x : FirstOut} (no : ∀ i k, x ≠ .localRef (some i) k) (d : Station) : d.handRef x = d := by
  unfold Station.handRef
  split
  · exact absurd rfl (no _ _)
  · rfl

theorem report_cfg (k : CondKind) (inst : Nat) (v : Bool) (d : Station) (j : Fin 32) :
    (d.report k inst v).alm.points[j].cfg = d.alm.points[j].cfg := by
  rcases report_spec k inst v d with ⟨_, h⟩ | ⟨_, h⟩
  · rw [h]
  · exact h.move.cfg j j.isLt

/-- The reports of HEAT SHORTFALL absent and of COOLER LOSS leave a point's flag, but that a point they bring to NORMAL carries none. -/
theorem endReports_flag (v : Bool) (d : Station) (j : Fin 32) :
    let e := (d.report .heatShortfall 0 false).report .coolerLoss 0 v
    (e.alm.points[j].firstOut = d.alm.points[j].firstOut ∨
      (e.alm.points[j].firstOut = false ∧ e.alm.points[j].state = .normal)) ∧
    (d.alm.points[j].watches .heatShortfall 0 = false → (d.alm.points[j].watches .coolerLoss 0 = true → v = true) →
      e.alm.points[j].firstOut = d.alm.points[j].firstOut) := by
  dsimp only
  have p := report_points .heatShortfall 0 false d j
  have q := report_points .coolerLoss 0 v (d.report .heatShortfall 0 false) j
  have c := report_cfg .heatShortfall 0 false d j
  generalize d.alm.points[j] = a at p c ⊢
  generalize d.report .heatShortfall 0 false = y at q c p ⊢
  generalize y.alm.points[j] = b at p q c ⊢
  generalize (y.report .coolerLoss 0 v).alm.points[j] = e at q ⊢
  rcases p with rfl | ⟨w, p⟩
  · rcases q with rfl | ⟨w', q | ⟨rfl, f, n⟩⟩
    · exact ⟨.inl rfl, fun _ _ => rfl⟩
    · exact ⟨.inl q, fun _ _ => q⟩
    · exact ⟨.inr ⟨f, n⟩, fun _ hv => absurd (hv w') (by simp)⟩
  · have apart : ¬ b.watches .coolerLoss 0 = true := by
      unfold Point.watches at w ⊢
      rw [c]
      revert w
      cases a.cfg with
      | none => simp
      | some x => simp only [Bool.and_eq_true, beq_iff_eq]; rintro ⟨e, _⟩; simp [e]
    rcases q with rfl | ⟨w', _⟩
    · refine ⟨?_, fun nw => absurd w (by simp [nw])⟩
      rcases p with p | ⟨_, f, n⟩
      · exact .inl p
      · exact .inr ⟨f, n⟩
    · exact absurd w' apart

/-- Everything a trip does. -/
theorem trip_spec (cause : CauseKind) (d : Station) : Tripped cause d (d.trip cause) := by
  let first := d.firstOutOf cause
  let record : Bsq → Bsq := fun b =>
    { b with trip := some { time := d.sru.time, state := d.bsq.state, cause := cause, first := first } }
  let held : Bsq → Bsq := fun b =>
    { b with holds := match causeHold cause with
        | some k => b.holds.set (some (d.now + Config.tripHoldTicks)) k
        | none => b.holds }
  let told := (((d.fireEnded .lockout).onBsq record).contribute (.trip (d.tripEntry cause first))).handRef first
  have hTold : AlarmsOnly (((d.fireEnded .lockout).onBsq record).contribute (.trip (d.tripEntry cause first))) told := by
    exact handRef_only ..
  have now : told.now = d.now := hTold.now
  let held' := match causeHold cause with
    | some k => told.startHold k
    | none => told
  have hHeld : AlarmsOnly (told.onBsq held) held' := by
    simp only [held', held]
    cases causeHold cause with
    | none => exact .refl _
    | some k =>
      unfold Station.startHold
      rw [now]
      exact report_only ..
  have run : d.trip cause = (held'.report .heatShortfall 0 false).reportCooler := by
    unfold Station.trip
    dsimp only
    rw [fireEnded_eq]
    rfl
  have tail : AlarmsOnly held' (d.trip cause) := by
    rw [run]
    exact (report_only ..).trans (report_only ..)
  have all := ((hTold.onBsq held).trans hHeld).trans tail
  have toldCfg (j : Fin 32) : told.alm.points[j].cfg = d.alm.points[j].cfg := by
    exact handRef_cfg first _ j
  have heldFlag (j : Fin 32) : held'.alm.points[j].firstOut = told.alm.points[j].firstOut ∧
      held'.alm.points[j].cfg = told.alm.points[j].cfg := by
    simp only [held']
    cases causeHold cause with
    | none => exact ⟨rfl, rfl⟩
    | some k =>
      refine ⟨?_, report_cfg ..⟩
      rcases report_points (holdCondition k) 0 true
          (told.onBsq fun b => { b with holds := b.holds.set (some (told.now + Config.tripHoldTicks)) k }) j with e | ⟨_, e | ⟨e, _⟩⟩
      · exact congrArg Point.firstOut e
      · exact e
      · exact absurd e (by simp)
  have bsq : (d.trip cause).bsq = held (record (d.fireEnded .lockout).bsq) := all.bsq
  have cool : (d.trip cause).condition .coolerLoss 0 = (d.trip cause).bsq.holds.coolerLoss.isSome := by
    rw [bsq, run]
    unfold Station.reportCooler
    rw [report_condition, (report_only ..).bsq, hHeld.bsq]
    have : (told.onBsq held).bsq = held (record (d.fireEnded .lockout).bsq) := by
      simp only [Station.onBsq_fields]
      rw [hTold.bsq]
      rfl
    rw [this]
    rfl
  have short : (d.trip cause).condition .heatShortfall 0 = false := by
    rw [run]
    unfold Station.reportCooler
    rw [report_other _ _ _ _ _ _ (by simp), report_condition]
  have present : ∀ k, causeHold cause = some k → (d.trip cause).condition (holdCondition k) 0 = true := by
    intro k hk
    by_cases c : k = .coolerLoss
    · subst c
      show (d.trip cause).condition .coolerLoss 0 = true
      rw [cool, bsq]
      simp only [held, hk]
      rfl
    · have ne : ∀ k' : CondKind, k' = .heatShortfall ∨ k' = .coolerLoss → ¬ (holdCondition k = k' ∧ 0 = 0) := by
        rintro k' (rfl | rfl) <;> cases k <;> simp [holdCondition] at c ⊢
      rw [run]
      unfold Station.reportCooler
      rw [report_other _ _ _ _ _ _ (ne _ (.inr rfl)), report_other _ _ _ _ _ _ (ne _ (.inl rfl))]
      simp only [held', hk]
      unfold Station.startHold
      exact report_condition ..
  obtain ⟨v, closed⟩ : ∃ v, d.trip cause = (held'.report .heatShortfall 0 false).report .coolerLoss 0 v := ⟨_, run⟩
  have coolNow : (d.trip cause).condition .coolerLoss 0 = v := by
    rw [closed]
    exact report_condition ..
  have finish (j : Fin 32) := endReports_flag v held' j
  refine ⟨fireEnded_spec .lockout (held ∘ record) [.sruContribution (.trip (d.tripEntry cause first))] (fun b => rfl) all short
    cool, ?_, ?_, ?_, ?_, ?_, present, fun i k hi => ?_, fun no j => ?_⟩
  · rw [bsq]; rfl
  · rw [bsq]
  · rw [bsq]; rfl
  · exact all.signals.subset (by simp [Station.contribute, Station.raise, first])
  · rw [bsq]; rfl
  · have set : ∀ j, told.alm.points[j].firstOut = decide (j = i) := by
      intro j
      have e : told = (((d.fireEnded .lockout).onBsq record).contribute (.trip (d.tripEntry cause first))).handFirstOut i := by
        simp only [told, first, hi]
        rfl
      rw [e]
      exact handFirstOut_flag i _ j
    have flag (j : Fin 32) : (d.trip cause).alm.points[j].firstOut = decide (j = i) ∨
        ((d.trip cause).alm.points[j].firstOut = false ∧ (d.trip cause).alm.points[j].state = .normal) := by
      rw [← set j, ← (heldFlag j).1, closed]
      exact (finish j).1
    refine ⟨fun j ne => ?_, ?_, fun only => ?_⟩
    · rcases flag j with f | ⟨f, _⟩
      · rw [f]; simp [ne]
      · exact f
    · rcases flag i with f | ⟨_, n⟩
      · exact .inl (by rw [f]; simp)
      · exact .inr n
    · have f := (finish i).2
      have cfg : held'.alm.points[i].cfg = d.alm.points[i].cfg := ((heldFlag i).2).trans (toldCfg i)
      rw [closed, f, (heldFlag i).1, set i]
      · simp
      · unfold Point.watches
        rw [cfg]
        cases e : d.alm.points[i].cfg with
        | none => rfl
        | some c => have := only c e; simp only [Bool.and_eq_false_iff, beq_eq_false_iff_ne]; grind
      · unfold Point.watches
        rw [cfg]
        cases e : d.alm.points[i].cfg with
        | none => simp
        | some c =>
          have o := only c e
          simp only [Bool.and_eq_true, beq_iff_eq]
          rintro ⟨kind, inst⟩
          rw [← coolNow]
          exact present .coolerLoss (by rw [(o inst).2 kind]; rfl)
  · have keep : told.alm.points[j] = d.alm.points[j] := by
      have e : told = ((d.fireEnded .lockout).onBsq record).contribute (.trip (d.tripEntry cause first)) := handRef_other no _
      rw [e]
      rfl
    have flag : (d.trip cause).alm.points[j].firstOut = d.alm.points[j].firstOut ∨
        ((d.trip cause).alm.points[j].firstOut = false ∧ (d.trip cause).alm.points[j].state = .normal) := by
      rw [← keep, ← (heldFlag j).1, closed]
      exact (finish j).1
    rcases flag with f | ⟨f, n⟩
    · exact ⟨fun h => by rw [← f]; exact h, fun h => .inl (by rw [f]; exact h)⟩
    · exact ⟨fun h => absurd (f.symm.trans h) Bool.false_ne_true, fun _ => .inr n⟩

/-- Everything a stop into POST-PURGE does. -/
theorem stopBurner_spec (r : StopReason) (c : BurnerCfg) (d : Station) (h : d.cfg.burner = some c) :
    StoppedBurning r c d (d.stopBurner r) := by
  let f : Bsq → Bsq := fun b =>
    { b with postPurge := some (d.now + c.purgeTime * 1000000), lastStop := some { reason := r, time := d.sru.time } }
  have run : d.stopBurner r = (((d.fireEnded .postPurge).onBsq f).report .heatShortfall 0 false).reportCooler := by
    unfold Station.stopBurner
    rw [h]
    dsimp only
    rw [fireEnded_eq]
    rfl
  have all : AlarmsOnly ((d.fireEnded .postPurge).onBsq f) (d.stopBurner r) := by
    rw [run]
    exact (report_only ..).trans (report_only ..)
  have bsq : (d.stopBurner r).bsq = f (d.fireEnded .postPurge).bsq := all.bsq
  have cool : (d.stopBurner r).condition .coolerLoss 0 = (d.stopBurner r).bsq.holds.coolerLoss.isSome := by
    rw [bsq, run]
    unfold Station.reportCooler
    rw [report_condition, (report_only ..).bsq]
    rfl
  have short : (d.stopBurner r).condition .heatShortfall 0 = false := by
    rw [run]
    unfold Station.reportCooler
    rw [report_other _ _ _ _ _ _ (by simp), report_condition]
  refine ⟨fireEnded_spec .postPurge f [] (fun b => rfl) ?_ short cool, ?_, ?_, ?_, ?_⟩
  · simpa [Station.onBsq, Station.fireEnded] using all
  all_goals (rw [bsq]; try rfl)

end Sys2Proof.Machine
end

