-- ==== Sys2Proof/Laws/Feed.lean ====
section
/-! SUPPORT. What the Feed Controller's operations change: everything they do stays within FeedOnly; what entry to OFF, READY and
FAULT does. -/

namespace Sys2Proof.Machine

theorem StallMoves.refl (c : Channel) : StallMoves c c := ⟨rfl, .inl ⟨rfl, rfl⟩⟩

theorem StallMoves.trans {a b c : Channel} (h : StallMoves a b) (k : StallMoves b c) : StallMoves a c := by
  refine ⟨by rw [k.rest, h.rest], ?_⟩
  rcases k.edge with ⟨ks, kc⟩ | k
  · rw [ks, kc]
    exact h.edge
  · refine .inr ?_
    rcases h.edge with ⟨_, h⟩ | h <;> rw [k, h]
    rw [Option.map_map]
    rfl

namespace FeedOnly

theorem refl (d : Station) : FeedOnly d d := ⟨.refl _ _, fun _ => .refl _, .refl d⟩

theorem trans {a b c : Station} (h : FeedOnly a b) (k : FeedOnly b c) : FeedOnly a c :=
  ⟨h.lines.trans k.lines, fun i => (h.pairs i).trans (k.pairs i), h.rest.signals.trans k.rest.signals,
    events_trans h.rest.events k.rest.events, by rw [k.rest.rest, h.rest.rest]⟩

variable {a b c : Station}

theorem alarms (h : FeedOnly a b) (k : AlarmsOnly b c) : FeedOnly a c :=
  h.trans ⟨by rw [k.dou]; exact .refl _ _, fun i => by rw [k.piu]; exact .refl _, k.signals, k.events, by rw [k.rest]⟩

theorem command (h : FeedOnly a b) (k : LineCommand .feedController b c) : FeedOnly a c :=
  h.trans ⟨k.lines, fun i => by rw [k.rest]; exact .refl _, k.signals, by rw [k.rest]; simp, by rw [k.rest]⟩

theorem onFeed (h : FeedOnly a b) (ch : Fin 2) (f : FeedChannel → FeedChannel) : FeedOnly a (b.onFeed ch f) :=
  h.trans ⟨.refl _ _, fun _ => .refl _, by simp, by simp, rfl⟩

theorem post (h : FeedOnly a b) (e : HostEvent) : FeedOnly a (b.post e) :=
  h.trans ⟨.refl _ _, fun _ => .refl _, by simp, by simp, rfl⟩

theorem contribute (h : FeedOnly a b) (x : Contribution) : FeedOnly a (b.contribute x) :=
  h.trans ⟨.refl _ _, fun _ => .refl _, by simp, by simp, rfl⟩

theorem report (h : FeedOnly a b) (k : CondKind) (n : Nat) (v : Bool) : FeedOnly a (b.report k n v) :=
  h.alarms (report_only k n v b)

theorem stageFeed (h : FeedOnly a b) : FeedOnly a b.stageFeed := by
  unfold Station.stageFeed
  split
  · exact h.trans ⟨.refl _ _, fun _ => .refl _, by simp, by simp, rfl⟩
  · exact h

theorem recomputeDelivered (h : FeedOnly a b) (ch : Fin 2) (k : FeedCfg) : FeedOnly a (b.recomputeDelivered ch k) :=
  (h.onFeed ch _).stageFeed

theorem writeFeeder (h : FeedOnly a b) (ch : Fin 2) (v : Nat) : FeedOnly a (b.writeFeeder ch v) := by
  unfold Station.writeFeeder
  dsimp only
  split
  · exact (h.command (setPreload_command ..)).onFeed ch _
  · exact h.onFeed ch _

theorem updateFine (h : FeedOnly a b) (ch : Fin 2) (k : FeedCfg) : FeedOnly a (b.updateFine ch k) := by
  unfold Station.updateFine
  dsimp only
  split
  · exact h
  · exact h.writeFeeder ch _

theorem writeStall (h : FeedOnly a b) (ch : Fin 2) (n : Nat) : FeedOnly a (b.writeStall ch n) := by
  unfold Station.writeStall
  split
  · exact h
  · refine h.trans ⟨.refl _ _, fun i => ?_, by simp, by simp, rfl⟩
    simp only [Station.onChannel_fields, Fin.getElem_fin, vecModify_get]
    split
    · exact ⟨rfl, .inr rfl⟩
    · exact .refl _

theorem quiesce (h : FeedOnly a b) (ch : Fin 2) : FeedOnly a (b.quiesce ch) :=
  (((h.onFeed ch _).writeFeeder ch 0).writeStall ch 0).report ..

theorem reportFeed (h : FeedOnly a b) (ch : Fin 2) : FeedOnly a (b.reportFeed ch) := (h.report ..).report ..

theorem restFeed (h : FeedOnly a b) (st : FeedState) (ch : Fin 2) (k : FeedCfg) : FeedOnly a (b.restFeed st ch k) :=
  (((h.quiesce ch).onFeed ch _).reportFeed ch).recomputeDelivered ch k

theorem faultFeed (h : FeedOnly a b) (x : FeedCause) (ch : Fin 2) (k : FeedCfg) : FeedOnly a (b.faultFeed x ch k) := by
  unfold Station.faultFeed
  dsimp only
  split
  · exact (((h.quiesce ch).onFeed ch _).reportFeed ch).recomputeDelivered ch k
  · exact (((((h.quiesce ch).onFeed ch _).contribute _).post _).reportFeed ch).recomputeDelivered ch k

theorem runFeed (h : FeedOnly a b) (ch : Fin 2) (k : FeedCfg) : FeedOnly a (b.runFeed ch k) :=
  ((h.onFeed ch _).writeStall ch _).recomputeDelivered ch k

theorem resumeFeed (h : FeedOnly a b) (ch : Fin 2) (k : FeedCfg) : FeedOnly a (b.resumeFeed ch k) :=
  ((h.onFeed ch _).writeStall ch _).recomputeDelivered ch k

theorem forAll {n : Nat} (f : Fin n → Station → Station) (hf : ∀ i x, FeedOnly a x → FeedOnly a (f i x))
    (h : FeedOnly a b) : FeedOnly a (Machine.forAll f b) := by
  unfold Machine.forAll
  generalize List.finRange n = l
  induction l generalizing b with
  | nil => exact h
  | cons i l ih => exact ih (hf i b h)

theorem eachFeed (h : FeedOnly a b) (f : Fin 2 → FeedCfg → Station → Station)
    (hf : ∀ ch k x, FeedOnly a x → FeedOnly a (f ch k x)) : FeedOnly a (b.eachFeed f) :=
  forAll _ (fun ch x hx => by
    split
    · exact hf ch _ x hx
    · exact hx) h

theorem takeCv (h : FeedOnly a b) (ch : Fin 2) (k : FeedCfg) : FeedOnly a (b.takeCv ch k) := by
  unfold Station.takeCv
  split
  · exact h
  · exact (h.onFeed ch _).recomputeDelivered ch k

theorem moveFeed (h : FeedOnly a b) (ch : Fin 2) (k : FeedCfg) : FeedOnly a (b.moveFeed ch k) := by
  unfold Station.moveFeed
  dsimp only
  repeat' split
  all_goals first
    | with_reducible exact h
    | with_reducible exact h.runFeed ch k
    | with_reducible exact h.restFeed _ ch k
    | with_reducible exact h.faultFeed _ ch k
    | with_reducible exact (h.onFeed ch _).resumeFeed ch k
    | with_reducible exact (h.onFeed ch _).restFeed _ ch k

theorem followTarget (h : FeedOnly a b) (ch : Fin 2) (k : FeedCfg) : FeedOnly a (b.followTarget ch k) := by
  unfold Station.followTarget
  split
  · exact h
  · exact (h.onFeed ch _).updateFine ch k

theorem feedRefresh (h : FeedOnly a b) : FeedOnly a b.feedRefresh := by
  have k := h.eachFeed _ fun ch k _ hx => takeCv hx ch k
  unfold Station.feedRefresh
  dsimp only
  split
  · exact k
  · exact (((k.eachFeed _ fun ch k _ hx => moveFeed hx ch k).eachFeed _ fun ch k _ hx => hx.onFeed ch _).eachFeed _
      fun ch k _ hx => followTarget hx ch k).stageFeed

end FeedOnly

/-! ## Writes of the reference and the stall time -/

/-- A preload written to a channel's feeder line, if it has one. -/
theorem writeFeeder_rest (ch : Fin 2) (v : Nat) (d : Station) :
    d.writeFeeder ch v = { d with
      fdc := { d.fdc with channels := vecModify d.fdc.channels ch fun c => { c with lastFine := v } }
      dou := (d.writeFeeder ch v).dou, signals := (d.writeFeeder ch v).signals } := by
  have k : ∀ i, (d.setPreload i .feedController v).1 =
      { d with dou := (d.setPreload i .feedController v).1.dou, signals := (d.setPreload i .feedController v).1.signals } :=
    fun i => (setPreload_command i .feedController v d).rest
  unfold Station.writeFeeder
  dsimp only
  split
  · next i _ =>
    simp only [Station.onFeed]
    rw [k i]
    rfl
  · rfl

/-- The feeder line of a channel has the channel's owner and event. -/
theorem feeder_line {ch : Fin 2} {d : Station} {i : Fin 16} (h : d.findOut .reference .feeder (ch.val + 1) = some i) :
    d.dou.lines[i].kind = .reference ∧ d.dou.lines[i].owner = .feedController ∧
      ∃ c, d.dou.lines[i].cfg = some c ∧ ∀ v x, c.changeEvent v x = .fdcActiveValueChange ch v x := by
  obtain ⟨c, hc, hk, hf, hn⟩ := findOut_cfg h
  have e := line_of_cfg hc
  rw [hk] at e
  dsimp only at e
  rw [if_pos hf] at e
  refine ⟨e.1, e.2, c, hc, fun v x => ?_⟩
  have inst : c.inst = ch.val + 1 := by simpa using hn
  have e : Fin.ofNat 2 (ch.val + 1 - 1) = ch := by ext; simp
  simp only [OutCfg.changeEvent, hf, inst, if_true, e]

/-- A write of 0 by the owner of a reference line. -/
theorem setPreload_zero {i : Fin 16} {who : Owner} {d : Station} (k : d.dou.lines[i].kind = .reference)
    (own : d.dou.lines[i].owner = who) :
    (d.setPreload i who 0).1 = { d with
      dou := { d.dou with lines := vecModify d.dou.lines i (feederZero d.now) }
      signals := d.signals ++
        if d.dou.lines[i].forced = false ∧ d.dou.lines[i].active ≠ 0 then
          (match d.dou.lines[i].cfg with | some c => [c.changeEvent 0 .immediate] | none => [])
        else [] } := by
  rw [setPreload_owned k own]
  dsimp only
  have two : ∀ (v : Vector OutLine 16) (f g : OutLine → OutLine),
      vecModify (vecModify v i f) i g = vecModify v i fun l => g (f l) := by
    intro v f g
    simp [vecModify]
  have here : ∀ (v : Vector OutLine 16) (f g : OutLine → OutLine), f v[i] = g v[i] → vecModify v i f = vecModify v i g := by
    intro v f g h
    simp only [vecModify, h]
  by_cases fo : d.dou.lines[i].forced = true
  · rw [if_pos fo]
    have fo' : d.dou.lines[i.val].forced = true := fo
    simp only [Station.onOut, Station.onDou, fo]
    simp
    refine here _ _ _ ?_
    simp [feederZero, fo']
  · rw [if_neg fo, if_pos (by simp)]
    unfold Station.setActiveValue
    have act : (d.onOut i fun l => { l with preload := min 4080 0, firstWrite := l.firstWrite && min 4080 0 == 0 }).dou.lines[i].active
        = d.dou.lines[i].active := by simp
    rw [act]
    have fo' : d.dou.lines[i].forced = false := by simpa using fo
    by_cases ac : d.dou.lines[i].active = 0
    · rw [if_pos ac]
      simp only [Station.onOut, Station.onDou, two, ac]
      simp
      refine here _ _ _ ?_
      simp only [feederZero, fo']
      simp only [OutLine.goInactive, OutLine.restartPattern, Bool.false_eq_true, if_false, ← ac]
      rfl
    · rw [if_neg ac]
      dsimp only
      have cfg : ((d.onOut i fun l => { l with preload := min 4080 0, firstWrite := l.firstWrite && min 4080 0 == 0 }).onOut i
          fun l => { l with active := 0 }).dou.lines[i].cfg = d.dou.lines[i].cfg := by simp
      rw [cfg]
      have line : ∀ y : List Instr,
          ({ (((d.onOut i fun l => { l with preload := min 4080 0, firstWrite := l.firstWrite && min 4080 0 == 0 }).onOut i
            fun l => { l with active := 0 })) with signals := y }.onOut i
              fun l => l.goInactive.restartPattern d.now) =
          { d with dou := { d.dou with lines := vecModify d.dou.lines i (feederZero d.now) }, signals := y } := by
        intro y
        simp only [Station.onOut, Station.onDou, two]
        simp
        refine here _ _ _ ?_
        simp only [feederZero, fo']
        simp only [OutLine.goInactive, OutLine.restartPattern, Bool.false_eq_true, if_false]
        rfl
      cases hc : d.dou.lines[i].cfg with
      | none =>
        dsimp only
        rw [ite_self, List.append_nil]
        exact line d.signals
      | some c =>
        dsimp only
        rw [if_pos ⟨fo', ac⟩]
        exact line (d.signals ++ [c.changeEvent 0 .immediate])

/-- A write of 0 to a channel's feeder line, line by line and event by event. -/
theorem writeFeeder_zero (ch : Fin 2) (d : Station) :
    (∀ i : Fin 16, (d.writeFeeder ch 0).dou.lines[i] =
      if d.findOut .reference .feeder (ch.val + 1) = some i then feederZero d.now d.dou.lines[i] else d.dou.lines[i]) ∧
    (∀ i : Fin 16, d.findOut .reference .feeder (ch.val + 1) = some i → d.dou.lines[i].forced = false →
      d.dou.lines[i].active ≠ 0 → .fdcActiveValueChange ch 0 .immediate ∈ (d.writeFeeder ch 0).signals) := by
  unfold Station.writeFeeder
  dsimp only
  cases h : d.findOut .reference .feeder (ch.val + 1) with
  | none => exact ⟨fun i => by simp, fun i hi => by simp at hi⟩
  | some j =>
    obtain ⟨k, own, c, hc, ev⟩ := feeder_line h
    dsimp only
    rw [setPreload_zero k own]
    refine ⟨fun i => ?_, fun i hi fo ac => ?_⟩
    · simp only [Station.onFeed_fields, Fin.getElem_fin, vecModify_get, Option.some.injEq, Fin.ext_iff]
    · obtain rfl : j = i := by simpa using hi
      rw [if_pos ⟨fo, ac⟩, hc]
      simp [ev]

/-- A stall time written, channel by channel. -/
theorem writeStall_channels (ch : Fin 2) (n : Nat) (d : Station) (i : Fin 8) :
    (d.writeStall ch n).piu.channels[i] =
      if d.findChannel .encoder (ch.val + 1) = some i then stallWritten d.now n d.piu.channels[i]
      else d.piu.channels[i] := by
  unfold Station.writeStall
  cases h : d.findChannel .encoder (ch.val + 1) with
  | none => simp
  | some j =>
    simp only [Station.onChannel_fields, Fin.getElem_fin, vecModify_get, Option.some.injEq, Fin.ext_iff,
      Channel.alsoWithout, stallWritten]
    rfl

theorem writeStall_rest (ch : Fin 2) (n : Nat) (d : Station) :
    d.writeStall ch n = { d with piu := (d.writeStall ch n).piu } := by
  unfold Station.writeStall
  split <;> rfl

theorem stageFeed_rest (d : Station) : d.stageFeed = { d with lpc := { d.lpc with staging := { d.lpc.staging with
    feed := if d.feedDuty then some ((List.finRange 2).filterMap fun i => (d.fdc.channels[i]).entry i)
      else d.lpc.staging.feed } } } := by
  unfold Station.stageFeed
  split
  · simp [Station.onStaging, Station.onLpc]
  · simp

/-- The clears at entry to OFF, READY and FAULT. -/
def FeedChannel.cleared (c : FeedChannel) : FeedChannel :=
  { c with targetHeat := 0, massGoal := 0, targetRate := 0, openLoop := false, runDown := false, reEvaluate := false,
           runDownTimer := none, runningSecond := none }

/-- What quiescing a channel does. -/
theorem quiesce_spec (ch : Fin 2) (d : Station) :
    (d.quiesce ch).fdc = { d.fdc with
      channels := vecModify d.fdc.channels ch fun c => { c.cleared with lastFine := 0 } } ∧
    (∀ i : Fin 16, (d.quiesce ch).dou.lines[i] =
      if d.findOut .reference .feeder (ch.val + 1) = some i then feederZero d.now d.dou.lines[i] else d.dou.lines[i]) ∧
    (∀ i : Fin 16, d.findOut .reference .feeder (ch.val + 1) = some i → d.dou.lines[i].forced = false →
      d.dou.lines[i].active ≠ 0 → .fdcActiveValueChange ch 0 .immediate ∈ (d.quiesce ch).signals) ∧
    (∀ i : Fin 8, (d.quiesce ch).piu.channels[i] =
      if d.findChannel .encoder (ch.val + 1) = some i then stallWritten d.now 0 d.piu.channels[i]
      else d.piu.channels[i]) ∧
    (d.quiesce ch).condition .weigherSilent (ch.val + 1) = false := by
  have hq : d.quiesce ch =
      (((d.onFeed ch FeedChannel.cleared).writeFeeder ch 0).writeStall ch 0).report .weigherSilent (ch.val + 1) false := rfl
  have aq := report_only .weigherSilent (ch.val + 1) false (((d.onFeed ch FeedChannel.cleared).writeFeeder ch 0).writeStall ch 0)
  have zero := writeFeeder_zero ch (d.onFeed ch FeedChannel.cleared)
  have piu : ((d.onFeed ch FeedChannel.cleared).writeFeeder ch 0).piu = d.piu := by rw [writeFeeder_rest]; rfl
  have find : ((d.onFeed ch FeedChannel.cleared).writeFeeder ch 0).findChannel .encoder (ch.val + 1) =
      d.findChannel .encoder (ch.val + 1) := by rw [writeFeeder_rest]; rfl
  rw [hq]
  refine ⟨?_, fun i => ?_, fun i hi fo ac => ?_, fun i => ?_, report_condition ..⟩
  · rw [aq.fdc, writeStall_rest, writeFeeder_rest]
    simp [vecModify]
  · rw [aq.dou, writeStall_rest]
    exact zero.1 i
  · refine aq.signals.subset ?_
    rw [writeStall_rest]
    exact zero.2 i hi fo ac
  · rw [aq.piu, writeStall_channels, find, piu]
    rfl

/-- What reporting a channel's fault conditions and publishing its delivered heat do, in a channel that does not turn. -/
theorem publishFeed_spec (ch : Fin 2) (k : FeedCfg) (e : Station) (idle : e.fdc.channels[ch].state.turning = false) :
    let t := (e.reportFeed ch).recomputeDelivered ch k
    let c := e.fdc.channels[ch]
    t.fdc = { e.fdc with channels := vecModify e.fdc.channels ch fun c => { c with delivered := 0 } } ∧
      t.dou = e.dou ∧ t.piu = e.piu ∧ e.signals <+: t.signals ∧ t.ppt.cfg = e.ppt.cfg ∧
      e.ppt.events &&& t.ppt.events = e.ppt.events ∧
      t.condition .weigherSilent (ch.val + 1) = e.condition .weigherSilent (ch.val + 1) ∧
      t.condition .feederStall (ch.val + 1) = (c.state == .fault && c.cause == .feederStall) ∧
      t.condition .feederReverse (ch.val + 1) = (c.state == .fault && c.cause == .feederReverse) ∧
      (e.feedDuty = true → t.lpc.staging.feed = some ((List.finRange 2).filterMap fun i => (t.fdc.channels[i]).entry i)) := by
  intro t c
  have ar : AlarmsOnly e (e.reportFeed ch) := (report_only ..).trans (report_only ..)
  have ht : t = ((e.reportFeed ch).onFeed ch fun c =>
    { c with delivered := c.deliveredNow k ((e.reportFeed ch).hasWeigher ch) }).stageFeed := rfl
  rw [stageFeed_rest] at ht
  have duty : (e.reportFeed ch).feedDuty = e.feedDuty := by
    unfold Station.feedDuty Station.cfg
    rw [ar.ppt]
  refine ⟨?_, by rw [ht]; exact ar.dou, by rw [ht]; exact ar.piu, by rw [ht]; exact ar.signals, ?_, by rw [ht]; exact ar.events,
    ?_, ?_, ?_, fun h => ?_⟩
  · rw [ht]
    simp only [Station.onFeed_fields, ar.fdc, vecModify]
    simp only [Fin.getElem_fin] at idle
    simp [FeedChannel.deliveredNow, idle]
  · rw [ht]
    show (e.reportFeed ch).ppt.cfg = _
    rw [ar.ppt]
  · rw [ht]
    exact (report_other _ _ _ _ _ _ (by simp)).trans (report_other _ _ _ _ _ _ (by simp))
  · rw [ht]
    exact (report_other _ _ _ _ _ _ (by simp)).trans (report_condition ..)
  · rw [ht]
    exact report_condition ..
  · have d2 : ((e.reportFeed ch).onFeed ch fun c =>
        { c with delivered := c.deliveredNow k ((e.reportFeed ch).hasWeigher ch) }).feedDuty = true := duty.trans h
    rw [ht]
    simp only [d2, if_true]

/-- A count and a host event on the way. -/
theorem FeedOnly.counted {a b : Station} (h : FeedOnly a b) (x : List Instr) (ev : Byte) :
    FeedOnly a { b with signals := b.signals ++ x, ppt := { b.ppt with events := b.ppt.events ||| ev } } :=
  h.trans ⟨.refl _ _, fun _ => .refl _, by simp, by simp, rfl⟩

/-- What an entry to OFF, READY or FAULT leaves alone. -/
theorem stopFeed_only (st : FeedState) (cause : FeedCause) (ch : Fin 2) (k : FeedCfg) (d e : Station) (x : List Instr) (ev : Byte)
    (h : e = { (d.quiesce ch).onFeed ch (fun c => { c with state := st, cause := cause }) with
      signals := (d.quiesce ch).signals ++ x, ppt := { (d.quiesce ch).ppt with events := (d.quiesce ch).ppt.events ||| ev } }) :
    FeedOnly d ((e.reportFeed ch).recomputeDelivered ch k) := by
  have q := ((FeedOnly.refl d).quiesce ch |>.onFeed ch fun c => { c with state := st, cause := cause }).counted x ev
  refine FeedOnly.recomputeDelivered (FeedOnly.reportFeed ?_ ch) ch k
  rw [h]
  exact q

/-- The whole of an entry to OFF, READY or FAULT, with what else is counted and posted on the way. -/
theorem stopFeed_spec (st : FeedState) (cause : FeedCause) (ch : Fin 2) (k : FeedCfg) (d e : Station) (x : List Instr) (ev : Byte)
    (idle : st.turning = false)
    (h : e = { (d.quiesce ch).onFeed ch (fun c => { c with state := st, cause := cause }) with
      signals := (d.quiesce ch).signals ++ x, ppt := { (d.quiesce ch).ppt with events := (d.quiesce ch).ppt.events ||| ev } }) :
    FeedStopped st cause ch d ((e.reportFeed ch).recomputeDelivered ch k) := by
  obtain ⟨q1, q2, q3, q4, q5⟩ := quiesce_spec ch d
  have fdc : e.fdc = { d.fdc with channels := vecModify d.fdc.channels ch fun c =>
      { c.cleared with lastFine := 0, state := st, cause := cause } } := by
    rw [h]
    simp [q1, vecModify]
  have state : e.fdc.channels[ch].state = st ∧ e.fdc.channels[ch].cause = cause := by
    rw [fdc]
    simp
  have only : FeedOnly d ((e.reportFeed ch).recomputeDelivered ch k) := stopFeed_only st cause ch k d e x ev h
  have dou : e.dou = (d.quiesce ch).dou := by rw [h]; rfl
  have piu : e.piu = (d.quiesce ch).piu := by rw [h]; rfl
  have alm : e.condition .weigherSilent (ch.val + 1) = (d.quiesce ch).condition .weigherSilent (ch.val + 1) := by rw [h]; rfl
  have sig : e.signals = (d.quiesce ch).signals ++ x := by rw [h]
  clear h
  obtain ⟨p1, p2, p3, p4, p5, p6, p7, p8, p9, p10⟩ := publishFeed_spec ch k e (by rw [state.1]; exact idle)
  have duty : e.feedDuty = d.feedDuty := by
    unfold Station.feedDuty Station.cfg
    rw [← p5, only.rest.rest]
  refine ⟨?_, fun j hj => ?_, fun i => ?_, fun i hi fo ac => ?_, fun i => ?_, ?_, ?_, ?_, fun on => p10 (duty.trans on), only⟩
  · rw [p1, fdc]
    simp [FeedChannel.cleared]
  · rw [p1, fdc]
    have ne : ch.val ≠ j.val := fun c => hj (Fin.ext c.symm)
    simp [vecModify_ne _ _ _ _ _ ne]
  · rw [p2, dou]
    exact q2 i
  · refine p4.subset ?_
    rw [sig]
    exact List.mem_append_left _ (q3 i hi fo ac)
  · rw [p3, piu]
    exact q4 i
  · rw [p7, alm]
    exact q5
  · rw [p8, state.1, state.2]
  · rw [p9, state.1, state.2]

/-- Everything an entry to OFF or READY does. -/
theorem restFeed_spec (st : FeedState) (ch : Fin 2) (k : FeedCfg) (d : Station) (idle : st.turning = false) :
    FeedStopped st .none ch d (d.restFeed st ch k) := by
  refine stopFeed_spec st .none ch k d _ [] 0 idle ?_
  simp [Station.onFeed, Station.onFdc]

/-- Everything an entry to FAULT does, the count and the host event at a first entry among it. -/
theorem faultFeed_spec (cause : FeedCause) (ch : Fin 2) (k : FeedCfg) (d : Station) :
    FeedStopped .fault cause ch d (d.faultFeed cause ch k) ∧
      (d.fdc.channels[ch].state ≠ .fault →
        .sruContribution (.feedFault ch) ∈ (d.faultFeed cause ch k).signals ∧
          (d.faultFeed cause ch k).ppt.events &&& 16 = 16) := by
  unfold Station.faultFeed
  dsimp only
  by_cases a : d.fdc.channels[ch].state = .fault
  · refine ⟨?_, fun n => absurd a n⟩
    rw [if_pos (by simpa using a)]
    refine stopFeed_spec .fault cause ch k d _ [] 0 rfl ?_
    simp [Station.onFeed, Station.onFdc]
  · rw [if_neg (by simpa using a)]
    let e := (((d.quiesce ch).onFeed ch fun c => { c with state := .fault, cause := cause }).contribute (.feedFault ch)).post
      .feedFault
    have ar : AlarmsOnly e (e.reportFeed ch) := (report_only ..).trans (report_only ..)
    have tail : ∀ x : Station, (x.recomputeDelivered ch k).signals = x.signals ∧ (x.recomputeDelivered ch k).ppt = x.ppt := by
      intro x
      unfold Station.recomputeDelivered
      rw [stageFeed_rest]
      exact ⟨rfl, rfl⟩
    refine ⟨stopFeed_spec .fault cause ch k d _ [.sruContribution (.feedFault ch)] 16 rfl rfl, fun _ => ⟨?_, ?_⟩⟩
    · rw [(tail _).1]
      exact ar.signals.subset (by simp [e])
    · rw [(tail _).2]
      have y := events_trans (a := 16) (b := e.ppt.events) (by
        rw [BitVec.and_comm]
        simp [e, HostEvent.bit]) ar.events
      rw [BitVec.and_comm]
      exact y

end Sys2Proof.Machine
end

