-- ==== Sys2Proof/Laws/Floor.lean ====
section
/-! SUPPORT. What a station reads of the floor and of its settings, and what it publishes of its cooler and its alarms (R56, R70, R72, R93,
R117, R148, R159, R169). -/

namespace Sys2Proof.Machine

/-! ## First of an index range -/

/-- The first index with a property is found (the shape of every lookup by function and instance). -/
theorem find_finRange {n : Nat} (p : Fin n → Bool) (i : Fin n) :
    (List.finRange n).find? p = some i ↔ p i = true ∧ ∀ j, j < i → p j = false := by
  rw [List.find?_eq_some_iff_append]
  constructor
  · rintro ⟨hp, l, r, e, hl⟩
    refine ⟨hp, fun j hj => ?_⟩
    have hs : (List.finRange n).Pairwise (· < ·) := List.pairwise_lt_finRange n
    rw [e] at hs
    have hm : j ∈ l ++ i :: r := e ▸ List.mem_finRange j
    rcases List.mem_append.1 hm with h | h
    · simpa using hl j h
    · rcases List.mem_cons.1 h with rfl | h
      · omega
      · have := (List.pairwise_cons.1 (List.pairwise_append.1 hs).2.1).1 j h
        omega
  · rintro ⟨hp, h⟩
    obtain ⟨l, r, e⟩ := List.append_of_mem (List.mem_finRange i)
    refine ⟨hp, l, r, e, fun j hj => ?_⟩
    have hs : (List.finRange n).Pairwise (· < ·) := List.pairwise_lt_finRange n
    rw [e] at hs
    have := (List.pairwise_append.1 hs).2.2 j hj i List.mem_cons_self
    simp [h j this]

/-- A lookup finds the first index with what its test says. -/
theorem find_iff {n : Nat} {p : Fin n → Bool} {P : Fin n → Prop} (h : ∀ j, p j = true ↔ P j) (i : Fin n) :
    (List.finRange n).find? p = some i ↔ P i ∧ ∀ j, j < i → ¬ P j := by
  rw [find_finRange]
  simp only [← h, Bool.not_eq_true]

/-! ## Images in view -/

theorem mem_inView (d : Station) (i : Fin 16) (g : Image) : (i, g) ∈ d.inView ↔
    (i ∈ d.lpc.live ∨ (i = d.own ∧ d.lpc.floor[i].seen = true)) ∧ d.lpc.floor[i].image = some g := by
  simp only [Station.inView, List.mem_filterMap, List.mem_finRange, true_and]
  constructor
  · rintro ⟨j, h⟩
    split at h
    · rename_i hv
      obtain ⟨img, hi, e⟩ := Option.map_eq_some_iff.1 h
      obtain ⟨rfl, rfl⟩ := Prod.mk.inj e
      exact ⟨by simpa using hv, hi⟩
    · cases h
  · rintro ⟨hv, hi⟩
    refine ⟨i, ?_⟩
    rw [if_pos (by simpa using hv), hi]
    rfl

theorem inView_order (d : Station) : (d.inView.map fun e => e.1).Pairwise fun i j => i < j := by
  rw [List.pairwise_map]
  unfold Station.inView
  refine List.Pairwise.filterMap _ ?_ (List.pairwise_lt_finRange 16)
  intro i j hij a ha b hb
  have key : ∀ (k : Fin 16) (x : Fin 16 × Image), (if (d.lpc.live.contains k || k == d.own && d.lpc.floor[k].seen) = true then
      Option.map (fun img => (k, img)) d.lpc.floor[k].image else none) = some x → x.1 = k := by
    intro k x h
    split at h
    · obtain ⟨img, -, rfl⟩ := Option.map_eq_some_iff.1 h
      rfl
    · cases h
  rw [key i a ha, key j b hb]
  exact hij

/-- The first entry of the view with a property, and every other that has it comes later. -/
theorem findSome_inView {α : Type} (d : Station) (f : Fin 16 × Image → Option α) (x : α) :
    d.inView.findSome? f = some x ↔ ∃ e ∈ d.inView, f e = some x ∧ ∀ o ∈ d.inView, (f o).isSome → e.1 ≤ o.1 := by
  rw [List.findSome?_eq_some_iff]
  have hs := inView_order d
  rw [List.pairwise_map] at hs
  constructor
  · rintro ⟨l, e, r, hl, hf, hn⟩
    rw [hl] at hs
    refine ⟨e, by simp [hl], hf, fun o ho hso => ?_⟩
    rw [hl] at ho
    rcases List.mem_append.1 ho with h | h
    · rw [hn o h] at hso
      cases hso
    · rcases List.mem_cons.1 h with rfl | h
      · exact le_refl _
      · exact le_of_lt ((List.pairwise_cons.1 (List.pairwise_append.1 hs).2.1).1 o h)
  · rintro ⟨e, he, hf, hn⟩
    obtain ⟨l, r, hl⟩ := List.append_of_mem he
    refine ⟨l, e, r, hl, hf, fun o ho => ?_⟩
    cases h : f o with
    | none => rfl
    | some y =>
      have h1 := hn o (by simp [hl, ho]) (by simp [h])
      rw [hl] at hs
      have := (List.pairwise_append.1 hs).2.2 o ho e List.mem_cons_self
      omega

theorem burnerStation_eq_some (d : Station) (x : BurnerLetter) (i : Fin 16) (g : Image) (p : BurnerPart) :
    d.burnerStation x = some (i, g, p) ↔ (i, g) ∈ d.inView ∧ g.burner = some p ∧ p.letter = x ∧
      ∀ (j : Fin 16) (h : Image) (q : BurnerPart), (j, h) ∈ d.inView → h.burner = some q → q.letter = x → i ≤ j := by
  unfold Station.burnerStation
  rw [findSome_inView]
  constructor
  · rintro ⟨⟨j, h⟩, he, hf, hn⟩
    dsimp only at hf
    split at hf
    · rename_i b hb
      split at hf
      · rename_i hx
        cases hf
        refine ⟨he, hb, by simpa using hx, fun k m q hk hm hq => hn (k, m) hk ?_⟩
        simp [hm, hq]
      · cases hf
    · cases hf
  · rintro ⟨he, hb, hx, hn⟩
    refine ⟨(i, g), he, by simp [hb, hx], fun o ho hs => ?_⟩
    rcases o with ⟨j, h⟩
    dsimp only at hs
    split at hs
    · rename_i q hq
      split at hs
      · rename_i hx'
        exact hn j h q ho hq (by simpa using hx')
      · cases hs
    · cases hs

/-- What a station takes from the floor (R93, R102, R117). -/
theorem floorRead (d : Station) : FloorRead d where
  view := mem_inView d
  order := inView_order d
  station := burnerStation_eq_some d
  alight x := by
    unfold Station.alight BurnerPart.alight
    rcases h : d.burnerStation x with _ | ⟨i, g, p⟩
    · simp
    · simp
  firing := by
    unfold Station.aFiring
    rcases h : d.burnerStation .a with _ | ⟨i, g, p⟩
    · simp
    · simp
  demand x := by
    unfold Station.alight Station.demandOf
    rcases h : d.burnerStation x with _ | ⟨i, g, p⟩
    · simp
    · simp only [Option.some.injEq, Prod.mk.injEq]
      refine ⟨fun e => by simp [e], ?_⟩
      rintro j m q e ⟨rfl, rfl, rfl⟩
      simp [e]
  request i g := by
    have hs := inView_order d
    rw [List.pairwise_map] at hs
    unfold Station.tripInView
    rw [List.find?_eq_some_iff_append]
    constructor
    · rintro ⟨ht, l, r, hl, hn⟩
      refine ⟨by simp [hl], ht, fun j h hj hr => ?_⟩
      rw [hl] at hj hs
      rcases List.mem_append.1 hj with hm | hm
      · have := hn _ hm
        simp [hr] at this
      · rcases List.mem_cons.1 hm with e | hm
        · cases e
          exact le_refl _
        · exact le_of_lt ((List.pairwise_cons.1 (List.pairwise_append.1 hs).2.1).1 _ hm)
    · rintro ⟨he, ht, hn⟩
      obtain ⟨l, r, hl⟩ := List.append_of_mem he
      refine ⟨ht, l, r, hl, fun o ho => ?_⟩
      rw [hl] at hs
      have := (List.pairwise_append.1 hs).2.2 o ho _ List.mem_cons_self
      cases h : o.2.tripRequest with
      | false => rfl
      | true =>
        have := hn o.1 o.2 (by simp [hl, ho]) h
        dsimp only at *
        omega
  channels x := by
    unfold Station.feedInView
    congr 1
    funext e
    cases e.2.feed with
    | none => rfl
    | some l =>
      simp only [Option.getD_some]
      congr 2
  available x := by
    unfold Station.available
    congr 1
    funext e
    cases e.2.state <;> rfl
  delivered x := rfl
  cooler := by
    unfold Station.coolerRunning
    rw [List.any_eq_true]
    constructor
    · rintro ⟨e, he, h⟩
      refine ⟨e, he, ?_⟩
      split at h
      · exact ⟨_, ‹_›, by simpa using h⟩
      · cases h
    · rintro ⟨e, he, c, hc, h⟩
      exact ⟨e, he, by simpa [hc] using h⟩

/-- What the blocks go by (R56, R70, R72, R193). -/
theorem settingsRead (d : Station) : SettingsRead d where
  own n h h1 h2 := by
    simp only [Station.own, Station.cfg, h, Option.getD_some, Fin.ofNat]
    omega
  loop l h := by simp [Station.loopCfg, Station.cfg, h]
  shift l h := by simp [Station.boundaries, Station.cfg, h]
  service c h := by simp [Station.serviceCfg, Station.cfg, h]
  flood c h := by simp [Station.floodCfg, Station.cfg, h]
  duties := by
    have any : ∀ {α : Type} {n : Nat} (v : Vector (Option α) n), v.toList.any Option.isSome = true ↔ ∃ i : Fin n, v[i] ≠ none := by
      intro α n v
      simp only [List.any_eq_true, Vector.mem_toList_iff, Vector.mem_iff_getElem]
      constructor
      · rintro ⟨x, ⟨i, hi, rfl⟩, h⟩
        exact ⟨⟨i, hi⟩, by simpa [Option.isSome_iff_ne_none] using h⟩
      · rintro ⟨i, h⟩
        exact ⟨_, ⟨i.val, i.isLt, rfl⟩, by simpa [Option.isSome_iff_ne_none] using h⟩
    exact ⟨by simp [Station.burnerDuty, Station.cfg, Option.isSome_iff_ne_none], any _, any _⟩
  outputs kind fn inst i := by
    intro sits
    unfold Station.findOut
    refine find_iff (P := sits) (fun j => ?_) i
    dsimp only [sits]
    cases d.dou.lines[j].cfg <;> simp [or_assoc, and_assoc]
  channels fn inst i := by
    intro sits
    unfold Station.findChannel Station.cfg
    refine find_iff (P := sits) (fun j => ?_) i
    dsimp only [sits]
    cases d.ppt.cfg.channels[j] <;> simp
  lines fn h := by
    unfold Station.lineActive
    have key : ∀ i : Fin 12, d.findInput fn 0 = some i ↔ (∃ c, d.ppt.cfg.lines[i] = some c ∧ c.fn = fn) ∧
        ∀ j, j < i → ¬ ∃ c, d.ppt.cfg.lines[j] = some c ∧ c.fn = fn := by
      intro i
      unfold Station.findInput Station.cfg
      refine find_iff (P := fun j => ∃ c, d.ppt.cfg.lines[j] = some c ∧ c.fn = fn) (fun j => ?_) i
      rcases h with rfl | rfl | rfl <;> cases d.ppt.cfg.lines[j] <;> simp
    cases h : d.findInput fn 0 with
    | none =>
      simp only [Bool.false_eq_true, false_iff]
      rintro ⟨i, h1, h2, -⟩
      rw [(key i).2 ⟨h1, h2⟩] at h
      cases h
    | some i =>
      obtain ⟨h1, h2⟩ := (key i).1 h
      constructor
      · exact fun e => ⟨i, h1, h2, e⟩
      · rintro ⟨j, k1, k2, e⟩
        rw [(key j).2 ⟨k1, k2⟩] at h
        cases h
        exact e
  turned ch := by
    unfold Station.turnsBack
    cases d.findChannel .encoder (ch.val + 1) <;> simp
  weigher ch := by simp [Station.hasWeigher, Option.isSome_iff_ne_none]

/-! ## Cooler part and alarm summary -/

theorem vec_toList {α : Type} {n : Nat} (v : Vector α n) : v.toList = (List.finRange n).map fun i => v[i] := by
  apply List.ext_getElem
  · simp
  · intro i h1 h2
    simp

/-- How many configured compartments have a property, counted over the compartment numbers. -/
theorem configured_filter (g : Gcc) (p : Compartment → Bool) : (g.configured.filter p).length =
    ((List.finRange 4).filter fun i => (g.comps[i].cfg.isSome && p g.comps[i])).length := by
  simp only [Gcc.configured, vec_toList, List.filter_map, List.length_map, List.filter_filter]
  congr 2
  funext i
  simp [Bool.and_comm]

theorem filter_pos {n : Nat} (p : Fin n → Bool) : 0 < ((List.finRange n).filter p).length ↔ ∃ i, p i = true := by
  simp [List.length_pos_iff_exists_mem]

theorem sum_configured (g : Gcc) (F : Compartment → Nat) (hF : ∀ c, c.cfg = none → F c = 0) :
    (g.configured.map F).sum = ((List.finRange 4).map fun i => F g.comps[i]).sum := by
  rw [Gcc.configured, vec_toList]
  induction List.finRange 4 with
  | nil => rfl
  | cons i l ih =>
    simp only [List.map_cons, List.sum_cons, ← ih]
    cases h : g.comps[i].cfg with
    | none => rw [List.filter_cons_of_neg (by simpa using h), hF _ h, Nat.zero_add]
    | some k => rw [List.filter_cons_of_pos (by simpa using Option.isSome_of_mem h), List.map_cons, List.sum_cons]

/-- The cooler part as the compartments give it (R148). -/
theorem coolerRead (g : Gcc) : CoolerRead g where
  cycling := by
    have : g.cyclingCount = _ := configured_filter g _
    simp only [Gcc.part, this]
    congr 3
    funext i
    rw [Bool.eq_iff_iff]
    cases g.comps[i].state <;> simp [CompState.cycling, Option.isSome_iff_ne_none]
  state := by
    have hc : 0 < g.cyclingCount ↔
        ∃ i : Fin 4, g.comps[i].cfg ≠ none ∧ g.comps[i].state ≠ .stopped ∧ g.comps[i].state ≠ .fault := by
      rw [Gcc.cyclingCount, configured_filter, filter_pos]
      refine exists_congr fun i => ?_
      cases g.comps[i].state <;> simp [CompState.cycling, Option.isSome_iff_ne_none]
    have hf : 0 < g.faultCount ↔ ∃ i : Fin 4, g.comps[i].cfg ≠ none ∧ g.comps[i].state = .fault := by
      rw [Gcc.faultCount, configured_filter, filter_pos]
      refine exists_congr fun i => ?_
      cases g.comps[i].state <;> simp [Option.isSome_iff_ne_none]
    simp only [Gcc.part, Gcc.coolerState, ← hc, ← hf]
    refine ⟨?_, ?_, ?_, ?_⟩ <;> intro h1 h2 <;> simp [h1, h2]
  throughput := by
    unfold Gcc.part Gcc.throughput
    dsimp only
    rw [sum_configured g _ fun c h => by simp [h]]
    congr 3
    refine List.map_congr_left fun i _ => ?_
    cases h : g.comps[i].cfg with
    | none => rfl
    | some k => cases g.comps[i].state <;> rfl

/-- The first value along a list is that of the first element that has one. -/
theorem findSome_first {α β : Type} {f : α → Option β} {l r : List α} {x : α} {y : β} (hl : ∀ z ∈ l, f z = none) (hx : f x = some y) :
    (l ++ x :: r).findSome? f = some y := by
  rw [List.findSome?_append, List.findSome?_eq_none_iff.2 hl, List.findSome?_cons, hx]
  rfl

/-- What the Alarm Unit makes of its record (R43, R159, R169). -/
theorem alarmsRead (d : Station) : AlarmsRead d where
  trip before later i c h hc ht hn := by
    unfold Station.tripNow
    rw [h, findSome_first (l := before) (y := { point := some i, kind := c.kind })]
    · intro j hj
      split
      · rename_i k hk
        rw [if_neg (hn j hj k hk)]
      · rfl
    · rw [hc]
      exact if_pos ht
  estop hn := by
    intro watches
    have key : ∀ i, d.findPoint .estop 0 = some i ↔ watches i ∧ ∀ j, j < i → ¬ watches j := by
      intro i
      unfold Station.findPoint
      refine find_iff (P := watches) (fun j => ?_) i
      dsimp only [watches]
      cases d.alm.points[j].cfg <;> simp
    unfold Station.tripNow
    rw [List.findSome?_eq_none_iff.2]
    · refine ⟨fun h => by simp [h], fun i h hi hl => by simp [h, (key i).2 ⟨hi, hl⟩], fun h hl => ?_⟩
      cases hp : d.findPoint .estop 0 with
      | none => simp [h]
      | some i => exact (hl i ((key i).1 hp).1).elim
    · intro j hj
      split
      · rename_i k hk
        rw [if_neg (hn j hj k hk)]
      · rfl
  summary := by
    have vis : ∀ p : Point, p.visible = decide (p.cfg ≠ none ∧ p.shelf = none) := by
      intro p
      unfold Point.visible
      cases p.cfg <;> cases p.shelf <;> simp
    have hr : ∀ k : AlarmClass, d.alm.raisedClass k = true ↔
        ∃ i ∈ (List.finRange 32).filter (fun i => d.alm.points[i].cfg ≠ none ∧ d.alm.points[i].shelf = none),
          ∃ c, d.alm.points[i].cfg = some c ∧ c.cls = k ∧
            (d.alm.points[i].state = .raisedUnacked ∨ d.alm.points[i].state = .raisedAcked) := by
      intro k
      unfold Alm.raisedClass
      rw [vec_toList, List.any_map, List.any_eq_true]
      simp only [List.mem_filter, List.mem_finRange, true_and, Function.comp]
      refine exists_congr fun i => ?_
      rw [vis]
      cases d.alm.points[i].cfg <;> simp
      tauto
    refine ⟨?_, rfl, rfl, ?_⟩
    · unfold Alm.unacked
      rw [vec_toList, List.filter_map, List.length_map, List.filter_filter]
      congr 2
      funext i
      rw [Bool.eq_iff_iff]
      simp [vis]
      tauto
    · simp only [← hr]
      clear hr vis
      unfold Alm.summary
      dsimp only
      refine ⟨fun h => if_pos h, fun h h' => ?_, fun h h' h'' => ?_, fun h h' h'' => ?_⟩
      · rw [if_neg h, if_pos h']
      · rw [if_neg h, if_neg h', if_pos h'']
      · rw [if_neg h, if_neg h', if_neg h'']
  accepts n := by
    have : ∀ e : QueueEntry, e.coalesces n = sameAlarm n e := fun _ => rfl
    simp [Lpc.accepts, Lpc.mayCoalesce, Lpc.waiting, QueueAccepts, this]
  submitted n := by
    have : ∀ e : QueueEntry, e.coalesces n = sameAlarm n e := fun e => rfl
    refine ⟨⟨fun h => ?_, fun h => ?_⟩, rfl⟩
    · have : d.lpc.mayCoalesce n = true := by simpa [Lpc.mayCoalesce, Lpc.waiting, this] using h
      simp only [Lpc.submitted, this, if_true]
      rfl
    · have : d.lpc.mayCoalesce n = false := by simpa [Lpc.mayCoalesce, Lpc.waiting, this] using h
      simp only [Lpc.submitted, this]
      rfl

end Sys2Proof.Machine
end

