-- ==== Sys2Proof/Laws/Frames.lean ====
section
/-! SUPPORT. What frames are read from their bytes (chapter 12, R199), and that the check code is the cyclic code of chapter 12. -/

namespace Sys2Proof.Machine

/-! ## Readers and writers of fields -/

theorem be16_eq_iff (a b : Byte) (h : Half) : be16 a b = h ↔ [a, b] = byte16 h := by
  constructor
  · rintro rfl
    simp only [byte16, be16, List.cons.injEq, and_true]
    constructor <;> ext i hi <;> simp <;> grind
  · intro e
    simp only [byte16, List.cons.injEq, and_true] at e
    obtain ⟨rfl, rfl⟩ := e
    ext i hi
    simp [be16]
    grind

theorem be32_eq_iff (a b c e : Byte) (w : Word) : be32 a b c e = w ↔ [a, b, c, e] = byte32 w := by
  constructor
  · rintro rfl
    simp only [byte32, be32, List.cons.injEq, and_true]
    refine ⟨?_, ?_, ?_, ?_⟩ <;> ext i hi <;> simp <;> grind
  · intro e
    simp only [byte32, List.cons.injEq, and_true] at e
    obtain ⟨rfl, rfl, rfl, rfl⟩ := e
    ext i hi
    simp [be32]
    grind

/-- A reader takes from the front exactly what a writer writes of the values that are fit to be written. -/
def Reads {α : Type} (one : List Byte → Option (α × List Byte)) (write : α → List Byte) (fit : α → Prop) : Prop :=
  ∀ l x r, one l = some (x, r) ↔ fit x ∧ l = write x ++ r

/-- What is read first is written first. -/
theorem reads_bind {α β : Type} {one : List Byte → Option (α × List Byte)} {write : α → List Byte} {fit : α → Prop}
    (h : Reads one write fit) {l : List Byte} {f : α × List Byte → Option β} {y : β} :
    (one l >>= f) = some y ↔ ∃ x r, fit x ∧ l = write x ++ r ∧ f (x, r) = some y := by
  simp only [bind, Option.bind_eq_some_iff, Prod.exists, h _ _ _, and_assoc]

theorem reads_read8 : Reads read8 (fun b => [b]) fun _ => True := by
  intro l x r
  rcases l with _ | ⟨a, l⟩ <;> simp [read8]

theorem reads_read16 : Reads read16 byte16 fun _ => True := by
  intro l x r
  rcases l with _ | ⟨a, _ | ⟨b, l⟩⟩
  · simp [read16, byte16]
  · simp [read16, byte16]
  · have h := be16_eq_iff a b x
    simp only [byte16, List.cons.injEq, and_true] at h
    simp [read16, h, byte16, and_assoc]

theorem reads_read32 : Reads read32 byte32 fun _ => True := by
  intro l x r
  rcases l with _ | ⟨a, _ | ⟨b, _ | ⟨c, _ | ⟨e, l⟩⟩⟩⟩
  case cons.cons.cons.cons =>
    have h := be32_eq_iff a b c e x
    simp only [byte32, List.cons.injEq, and_true] at h
    simp [read32, h, byte32, and_assoc]
  all_goals simp [read32, byte32]

theorem reads_many {α : Type} {one : List Byte → Option (α × List Byte)} {write : α → List Byte} {fit : α → Prop}
    (h : Reads one write fit) (n : Nat) (l : List Byte) (xs : List α) (r : List Byte) :
    readMany one n l = some (xs, r) ↔ (xs.length = n ∧ ∀ x ∈ xs, fit x) ∧ l = xs.flatMap write ++ r := by
  induction n generalizing l xs r with
  | zero => cases xs <;> simp [readMany]
  | succ n ih =>
    cases xs with
    | nil => simp [readMany, Option.bind_eq_some_iff]
    | cons x xs =>
      simp only [readMany, bind, Option.bind_eq_some_iff, Prod.exists, h _ _ _, ih, pure, Option.some.injEq, Prod.mk.injEq,
        List.cons.injEq]
      constructor
      · rintro ⟨y, a, ⟨hy, rfl⟩, ys, b, ⟨⟨hl, hf⟩, rfl⟩, ⟨rfl, rfl⟩, rfl⟩
        refine ⟨⟨by simp [hl], ?_⟩, by simp⟩
        intro z hz
        rcases List.mem_cons.1 hz with rfl | hz
        · exact hy
        · exact hf z hz
      · rintro ⟨⟨hl, hf⟩, rfl⟩
        exact ⟨x, xs.flatMap write ++ r, ⟨hf x List.mem_cons_self, by simp⟩, xs, r,
          ⟨⟨by simpa using hl, fun z hz => hf z (List.mem_cons_of_mem _ hz)⟩, rfl⟩, ⟨rfl, rfl⟩, rfl⟩

theorem letterOf_eq_some (b : Byte) (x : BurnerLetter) : letterOf b = some x ↔ b = letterCode x := by
  revert b; cases x <;> decide +kernel
theorem seqOf_eq_some (b : Byte) (x : BsqState) : seqOf b = some x ↔ b = seqCode x := by
  revert b; cases x <;> decide +kernel
theorem feedOf_eq_some (b : Byte) (x : FeedState) : feedOf b = some x ↔ b = feedCode x := by
  revert b; cases x <;> decide +kernel
theorem coolerOf_eq_some (b : Byte) (x : CoolerState) : coolerOf b = some x ↔ b = coolerCode x := by
  revert b; cases x <;> decide +kernel
theorem alarmOf_eq_some (b : Byte) (x : AlarmState) : alarmOf b = some x ↔ b = alarmCode x := by
  revert b; cases x <;> decide +kernel
theorem classOf_eq_some (b : Byte) (x : AlarmClass) : classOf b = some x ↔ b = classCode x := by
  revert b; cases x <;> decide +kernel
theorem kindOf_eq_some (b : Byte) (x : Option CondKind) : kindOf b = some x ↔ b = kindCode x := by
  revert b; rcases x with _ | x
  · decide +kernel
  · cases x <;> decide +kernel

theorem reads_burner : Reads readBurner BurnerPart.bytes fun _ => True := by
  intro l x r
  simp only [readBurner, bind, Option.bind_eq_some_iff, Prod.exists, reads_read8 _ _ _, reads_read32 _ _ _, letterOf_eq_some,
    seqOf_eq_some, pure, Option.some.injEq, Prod.mk.injEq, BurnerPart.bytes]
  constructor
  · rintro ⟨_, _, ⟨-, rfl⟩, _, _, ⟨-, rfl⟩, _, _, ⟨-, rfl⟩, _, rfl, _, rfl, rfl, rfl⟩
    simp
  · rintro ⟨-, rfl⟩
    exact ⟨_, _, ⟨trivial, rfl⟩, _, _, ⟨trivial, rfl⟩, _, _, ⟨trivial, rfl⟩, _, rfl, _, rfl, rfl, rfl⟩

theorem reads_feedEntry : Reads readFeedEntry FeedEntry.bytes fun _ => True := by
  intro l x r
  simp only [readFeedEntry, bind, Option.bind_eq_some_iff, Prod.exists, reads_read8 _ _ _, reads_read32 _ _ _, letterOf_eq_some,
    feedOf_eq_some, pure, Option.some.injEq, Prod.mk.injEq, FeedEntry.bytes]
  constructor
  · rintro ⟨_, _, ⟨-, rfl⟩, _, _, ⟨-, rfl⟩, _, _, ⟨-, rfl⟩, _, _, ⟨-, rfl⟩, _, _, ⟨-, rfl⟩, _, _, ⟨-, rfl⟩, _, rfl, _, rfl, rfl, rfl⟩
    simp
  · rintro ⟨-, rfl⟩
    simp only [List.append_assoc]
    exact ⟨_, _, ⟨trivial, rfl⟩, _, _, ⟨trivial, rfl⟩, _, _, ⟨trivial, rfl⟩, _, _, ⟨trivial, rfl⟩, _, _,
      ⟨trivial, rfl⟩, _, _, ⟨trivial, rfl⟩, _, rfl, _, rfl, rfl, rfl⟩

theorem reads_feedPart : Reads readFeedPart feedPartBytes fun l => l.length = 1 ∨ l.length = 2 := by
  intro l x r
  simp only [readFeedPart, bind, Option.bind_eq_some_iff, Prod.exists, reads_read8 _ _ _, Bool.or_eq_true, decide_eq_true_eq,
    Option.ite_none_right_eq_some, reads_many reads_feedEntry, feedPartBytes]
  constructor
  · rintro ⟨n, _, ⟨-, rfl⟩, hn, ⟨hl, -⟩, rfl⟩
    rcases hn with rfl | rfl <;> simp_all
  · rintro ⟨hl, rfl⟩
    refine ⟨BitVec.ofNat 8 x.length, x.flatMap FeedEntry.bytes ++ r, ⟨trivial, by simp⟩, ?_, ⟨?_, by simp⟩, rfl⟩ <;>
      rcases hl with h | h <;> simp [h]

theorem reads_cooler : Reads readCooler CoolerPart.bytes fun _ => True := by
  intro l x r
  simp only [readCooler, bind, Option.bind_eq_some_iff, Prod.exists, reads_read8 _ _ _, reads_read16 _ _ _, coolerOf_eq_some,
    pure, Option.some.injEq, Prod.mk.injEq, CoolerPart.bytes]
  constructor
  · rintro ⟨_, _, ⟨-, rfl⟩, _, _, ⟨-, rfl⟩, _, _, ⟨-, rfl⟩, _, rfl, rfl, rfl⟩
    simp
  · rintro ⟨-, rfl⟩
    exact ⟨_, _, ⟨trivial, rfl⟩, _, _, ⟨trivial, rfl⟩, _, _, ⟨trivial, rfl⟩, _, rfl, rfl, rfl⟩

theorem reads_summary : Reads readSummary AlarmSummary.bytes fun _ => True := by
  intro l x r
  simp only [readSummary, bind, Option.bind_eq_some_iff, Prod.exists, reads_read8 _ _ _, classOf_eq_some, pure,
    Option.some.injEq, Prod.mk.injEq, AlarmSummary.bytes]
  constructor
  · rintro ⟨_, _, ⟨-, rfl⟩, _, _, ⟨-, rfl⟩, _, _, ⟨-, rfl⟩, _, rfl, rfl, rfl⟩
    simp
  · rintro ⟨-, rfl⟩
    exact ⟨_, _, ⟨trivial, rfl⟩, _, _, ⟨trivial, rfl⟩, _, _, ⟨trivial, rfl⟩, _, rfl, rfl, rfl⟩

theorem reads_closing : Reads readClosing ClosingPart.bytes fun _ => True := by
  intro l x r
  simp only [readClosing, bind, Option.bind_eq_some_iff, Prod.exists, reads_read16 _ _ _, reads_read32 _ _ _, pure,
    Option.some.injEq, Prod.mk.injEq, ClosingPart.bytes]
  constructor
  · rintro ⟨_, _, ⟨-, rfl⟩, _, _, ⟨-, rfl⟩, _, _, ⟨-, rfl⟩, _, _, ⟨-, rfl⟩, _, _, ⟨-, rfl⟩, rfl, rfl⟩
    simp
  · rintro ⟨-, rfl⟩
    simp only [List.append_assoc]
    exact ⟨_, _, ⟨trivial, rfl⟩, _, _, ⟨trivial, rfl⟩, _, _, ⟨trivial, rfl⟩, _, _, ⟨trivial, rfl⟩, _, _, ⟨trivial, rfl⟩, rfl, rfl⟩

theorem reads_alarmBody : Reads readAlarmBody AlarmBody.bytes fun _ => True := by
  intro l x r
  simp only [readAlarmBody, bind, Option.bind_eq_some_iff, Prod.exists, reads_read8 _ _ _, reads_read32 _ _ _, alarmOf_eq_some,
    classOf_eq_some, kindOf_eq_some, pure, Option.some.injEq, Prod.mk.injEq, AlarmBody.bytes]
  constructor
  · rintro ⟨_, _, ⟨-, rfl⟩, _, _, ⟨-, rfl⟩, _, _, ⟨-, rfl⟩, _, _, ⟨-, rfl⟩, _, _, ⟨-, rfl⟩, _, _, ⟨-, rfl⟩, _, _, ⟨-, rfl⟩,
      _, rfl, _, rfl, _, rfl, rfl, rfl⟩
    simp
  · rintro ⟨-, rfl⟩
    simp only [List.append_assoc]
    exact ⟨_, _, ⟨trivial, rfl⟩, _, _, ⟨trivial, rfl⟩, _, _, ⟨trivial, rfl⟩, _, _, ⟨trivial, rfl⟩, _, _, ⟨trivial, rfl⟩,
      _, _, ⟨trivial, rfl⟩, _, _, ⟨trivial, rfl⟩, _, rfl, _, rfl, _, rfl, rfl, rfl⟩

theorem readNoticeBody_iff (code : Byte) (l : List Byte) (x : NoticeBody) (r : List Byte) :
    readNoticeBody code l = some (x, r) ↔ code = x.code ∧ l = x.bytes ++ r := by
  unfold readNoticeBody
  split
  · rename_i h
    subst h
    cases x <;> simp [reads_alarmBody _ _ _, NoticeBody.code, NoticeBody.bytes]
  · split
    · rename_i h
      subst h
      rcases l with _ | ⟨a, _ | ⟨b, _ | ⟨c, l⟩⟩⟩ <;> cases x <;> simp [NoticeBody.code, NoticeBody.bytes, and_assoc]
    · split
      · rename_i h
        subst h
        cases x <;> simp [reads_read32 _ _ _, NoticeBody.code, NoticeBody.bytes]
      · cases x <;> simp_all [NoticeBody.code]

theorem reads_notice : Reads readNotice Notice.bytes fun _ => True := by
  intro l x r
  simp only [readNotice, bind, Option.bind_eq_some_iff, Prod.exists, reads_read8 _ _ _, reads_read16 _ _ _, readNoticeBody_iff,
    pure, Option.some.injEq, Prod.mk.injEq, Notice.bytes]
  constructor
  · rintro ⟨_, _, ⟨-, rfl⟩, _, _, ⟨-, rfl⟩, _, _, ⟨-, rfl⟩, _, _, ⟨-, rfl⟩, _, _, ⟨rfl, rfl⟩, rfl, rfl⟩
    simp
  · rintro ⟨-, rfl⟩
    simp only [List.append_assoc]
    exact ⟨_, _, ⟨trivial, rfl⟩, _, _, ⟨trivial, rfl⟩, _, _, ⟨trivial, rfl⟩, _, _, ⟨trivial, rfl⟩, _, _, ⟨rfl, rfl⟩, rfl, rfl⟩

theorem reads_notices : Reads readNotices (fun l => BitVec.ofNat 8 l.length :: l.flatMap Notice.bytes) fun l => l.length ≤ 4 := by
  intro l x r
  simp only [readNotices, bind, Option.bind_eq_some_iff, Prod.exists, reads_read8 _ _ _, Option.ite_none_right_eq_some,
    reads_many reads_notice]
  constructor
  · rintro ⟨n, _, ⟨-, rfl⟩, hn, ⟨hl, -⟩, rfl⟩
    simp_all
  · rintro ⟨hl, rfl⟩
    have e : (BitVec.ofNat 8 x.length).toNat = x.length := by simp; omega
    exact ⟨BitVec.ofNat 8 x.length, x.flatMap Notice.bytes ++ r, ⟨trivial, by simp⟩, by omega, ⟨⟨e.symm, by simp⟩, rfl⟩⟩

theorem reads_readIf {α : Type} {one : List Byte → Option (α × List Byte)} {write : α → List Byte} {fit : α → Prop}
    (h : Reads one write fit) (flag : Bool) :
    Reads (readIf flag one) (fun x => x.elim [] write) fun x =>
      flag = x.isSome ∧ ∀ y, x = some y → fit y := by
  intro l x r
  cases flag <;> cases x <;> simp [readIf, h _ _ _]

/-! ## Images, slots and heads -/

/-- The flags byte of an image as its bits. -/
theorem flags_bits (g : Image) : g.flags.getLsbD 0 = g.panelPresent ∧ g.flags.getLsbD 1 = g.tripRequest ∧
    g.flags.getLsbD 2 = g.burner.isSome ∧ g.flags.getLsbD 3 = g.feed.isSome ∧ g.flags.getLsbD 4 = g.cooler.isSome ∧
    g.flags.toNat < 32 := by
  unfold Image.flags
  generalize g.panelPresent = a, g.tripRequest = b, g.burner.isSome = c, g.feed.isSome = d, g.cooler.isSome = e
  revert a b c d e
  decide

/-- A flags byte below 32 is that of an image with its bits. -/
theorem flags_of_bits (b : Byte) (h : b.toNat < 32) :
    bitByte (b.getLsbD 0) 0 ||| bitByte (b.getLsbD 1) 1 ||| bitByte (b.getLsbD 2) 2 ||| bitByte (b.getLsbD 3) 3 |||
      bitByte (b.getLsbD 4) 4 = b := by
  revert b
  decide +kernel

/-- An image's parts in order, a part that is not there without a byte (Table 12-2). -/
theorem Image.bytes_eq (g : Image) : g.bytes = [g.station] ++ ([g.seq] ++ (byte16 g.sig ++ ([g.epoch] ++ ([g.flags] ++
    ([g.firstPoint] ++ ([kindCode g.firstKind] ++ (byte16 g.openShift ++ (g.burner.elim [] BurnerPart.bytes ++
    (g.feed.elim [] feedPartBytes ++ (g.cooler.elim [] CoolerPart.bytes ++ (g.summary.bytes ++ (g.closing.bytes ++
    (BitVec.ofNat 8 g.notices.length :: g.notices.flatMap Notice.bytes ++ []))))))))))))) := by
  unfold Image.bytes
  cases g.burner <;> cases g.feed <;> cases g.cooler <;> simp

/-- An image is read from exactly the bytes that it is written in, if it is formed (R199). -/
theorem readImage_iff (l : List Byte) (g : Image) : readImage l = some g ↔ ImageFormed g ∧ l = g.bytes := by
  constructor
  · intro e
    unfold readImage at e
    obtain ⟨st, l, -, rfl, e1⟩ := (reads_bind reads_read8).1 e
    obtain ⟨seq, l, -, rfl, e2⟩ := (reads_bind reads_read8).1 e1
    obtain ⟨sig, l, -, rfl, e3⟩ := (reads_bind reads_read16).1 e2
    obtain ⟨epoch, l, -, rfl, e4⟩ := (reads_bind reads_read8).1 e3
    obtain ⟨flags, l, -, rfl, e5⟩ := (reads_bind reads_read8).1 e4
    obtain ⟨fp, l, -, rfl, e6⟩ := (reads_bind reads_read8).1 e5
    obtain ⟨fk, l, -, rfl, e7⟩ := (reads_bind reads_read8).1 e6
    obtain ⟨sh, l, -, rfl, e8⟩ := (reads_bind reads_read16).1 e7
    obtain ⟨kind, hk, e9⟩ := Option.bind_eq_some_iff.1 e8
    obtain rfl := (kindOf_eq_some _ _).1 hk
    obtain ⟨burner, l, ⟨hb, -⟩, rfl, e10⟩ := (reads_bind (reads_readIf reads_burner _)).1 e9
    obtain ⟨feed, l, ⟨hf, hl⟩, rfl, e11⟩ := (reads_bind (reads_readIf reads_feedPart _)).1 e10
    obtain ⟨cooler, l, ⟨hc, -⟩, rfl, e12⟩ := (reads_bind (reads_readIf reads_cooler _)).1 e11
    obtain ⟨summary, l, -, rfl, e13⟩ := (reads_bind reads_summary).1 e12
    obtain ⟨closing, l, -, rfl, e14⟩ := (reads_bind reads_closing).1 e13
    obtain ⟨notices, l, hn, rfl, e15⟩ := (reads_bind reads_notices).1 e14
    dsimp only at e15
    split at e15
    · rename_i h
      simp only [Bool.and_eq_true, decide_eq_true_eq, List.isEmpty_iff, List.all_eq_true, beq_iff_eq] at h
      obtain ⟨⟨h1, rfl⟩, h2⟩ := h
      cases e15
      refine ⟨⟨hl, hn, h2⟩, ?_⟩
      have := flags_of_bits flags h1
      rw [hb, hf, hc] at this
      rw [Image.bytes_eq, Image.flags, this]
    · cases e15
  · rintro ⟨⟨hf, hn, hs⟩, rfl⟩
    obtain ⟨f0, f1, f2, f3, f4, f5⟩ := flags_bits g
    rw [Image.bytes_eq]
    unfold readImage
    refine (reads_bind reads_read8).2 ⟨_, _, trivial, rfl, ?_⟩
    refine (reads_bind reads_read8).2 ⟨_, _, trivial, rfl, ?_⟩
    refine (reads_bind reads_read16).2 ⟨_, _, trivial, rfl, ?_⟩
    refine (reads_bind reads_read8).2 ⟨_, _, trivial, rfl, ?_⟩
    refine (reads_bind reads_read8).2 ⟨_, _, trivial, rfl, ?_⟩
    refine (reads_bind reads_read8).2 ⟨_, _, trivial, rfl, ?_⟩
    refine (reads_bind reads_read8).2 ⟨_, _, trivial, rfl, ?_⟩
    refine (reads_bind reads_read16).2 ⟨_, _, trivial, rfl, ?_⟩
    refine Option.bind_eq_some_iff.2 ⟨g.firstKind, (kindOf_eq_some _ _).2 rfl, ?_⟩
    refine (reads_bind (reads_readIf reads_burner _)).2 ⟨g.burner, _, ⟨f2, fun _ _ => trivial⟩, rfl, ?_⟩
    refine (reads_bind (reads_readIf reads_feedPart _)).2 ⟨g.feed, _, ⟨f3, hf⟩, rfl, ?_⟩
    refine (reads_bind (reads_readIf reads_cooler _)).2 ⟨g.cooler, _, ⟨f4, fun _ _ => trivial⟩, rfl, ?_⟩
    refine (reads_bind reads_summary).2 ⟨_, _, trivial, rfl, ?_⟩
    refine (reads_bind reads_closing).2 ⟨_, _, trivial, rfl, ?_⟩
    refine (reads_bind reads_notices).2 ⟨g.notices, [], hn, rfl, ?_⟩
    dsimp only
    rw [if_pos, f0, f1]
    simp only [Bool.and_eq_true, decide_eq_true_eq, List.isEmpty_iff, List.all_eq_true, beq_iff_eq]
    exact ⟨⟨f5, trivial⟩, hs⟩

/-- A formed image has at most 125 bytes (Table 12-2). -/
theorem ImageFormed.length_le {g : Image} (h : ImageFormed g) : g.bytes.length ≤ 125 := by
  have notice : ∀ n : Notice, n.bytes.length ≤ 15 := by
    intro n
    rcases n with ⟨s, q, m, b⟩
    cases b <;> simp [Notice.bytes, NoticeBody.bytes, AlarmBody.bytes, byte16, byte32]
  have notices : (g.notices.flatMap Notice.bytes).length ≤ 60 := by
    have : (g.notices.flatMap Notice.bytes).length ≤ 15 * g.notices.length := by
      induction g.notices with
      | nil => simp
      | cons n l ih => simp only [List.flatMap_cons, List.length_append, List.length_cons]; have := notice n; omega
    have := h.notices
    omega
  have entries : ∀ l : List FeedEntry, (l.flatMap FeedEntry.bytes).length = 12 * l.length := by
    intro l
    induction l with
    | nil => simp
    | cons n l ih => simp [FeedEntry.bytes, byte32, ih]; omega
  have feed := h.feed
  unfold Image.bytes
  generalize g.burner = burner, g.feed = part, g.cooler = cooler at feed ⊢
  have : ∀ l, part = some l → (feedPartBytes l).length ≤ 25 := by
    intro l e
    have := feed l e
    simp only [feedPartBytes, List.length_cons, entries]
    omega
  cases burner <;> rcases part with _ | l <;> cases cooler <;>
    simp only [List.length_append, List.length_cons, List.length_nil, AlarmSummary.bytes, ClosingPart.bytes, byte16, byte32,
      BurnerPart.bytes, CoolerPart.bytes] <;> first | omega | (have := this l rfl; omega)

theorem length_withCheck (l : List Byte) : (withCheck l).length = l.length + 2 := by simp [withCheck, byte16]

/-- A slot position passes with an image exactly where it is that image at that place, with its length byte and check code (R6, R199). -/
theorem viewSlot_eq_pass (i : Fin 16) (raw : List Byte) (g : Image) : viewSlot i raw = .pass g ↔
    ImageFormed g ∧ g.station = stationByte i ∧ raw = withCheck (BitVec.ofNat 8 g.bytes.length :: g.bytes) := by
  constructor
  · intro h
    unfold viewSlot at h
    split at h
    · cases h
    · rename_i n rest
      split at h
      · cases h
      · split at h
        · rename_i hn hc
          split at h
          · rename_i g' hg
            split at h
            · rename_i hs
              cases h
              obtain ⟨hw, hb⟩ := (readImage_iff _ _).1 hg
              refine ⟨hw, hs, ?_⟩
              have hl := congrArg List.length hc
              simp only [length_withCheck, List.length_cons, List.length_take] at hl
              have : g.bytes.length = n.toNat := by rw [← hb, List.length_take]; omega
              rw [this, ← hb, BitVec.ofNat_toNat, BitVec.setWidth_eq, hc]
            · cases h
          · cases h
        · cases h
  · rintro ⟨hw, hs, rfl⟩
    have hl := hw.length_le
    have h0 : 0 < g.bytes.length := by simp [Image.bytes]
    have e : (BitVec.ofNat 8 g.bytes.length).toNat = g.bytes.length := by simp; omega
    have ht : List.take g.bytes.length (g.bytes ++ byte16 (checkCode (BitVec.ofNat 8 g.bytes.length :: g.bytes))) = g.bytes :=
      List.take_left
    have hz : BitVec.ofNat 8 g.bytes.length ≠ 0 := by
      intro h
      rw [h] at e
      simp at e
      omega
    simp only [withCheck, List.cons_append, viewSlot, hz, if_false, e, ht, if_true, (readImage_iff _ _).2 ⟨hw, rfl⟩, hs]

/-- A slot position is empty where its length byte is 0 (R6). -/
theorem viewSlot_eq_empty (i : Fin 16) (raw : List Byte) : viewSlot i raw = .empty ↔ raw.head? = some 0 := by
  unfold viewSlot
  rcases raw with _ | ⟨n, rest⟩
  · simp
  · simp only [List.head?_cons, Option.some.injEq]
    split
    · simpa
    · rename_i h
      simp only [h, iff_false]
      split
      · split
        · split <;> simp
        · simp
      · simp

/-- A whole position is taken off the front. -/
theorem splitSlots_whole {p : List Byte} (h : WholeSlot p) (k : Nat) (l : List Byte) :
    splitSlots (k + 1) (p ++ l) = (p :: (splitSlots k l).1, (splitSlots k l).2) := by
  rcases h with rfl | ⟨n, image, rfl, hn, hl⟩
  · simp [splitSlots]
  · simp only [List.cons_append, splitSlots, hn, if_false]
    rw [← hl, List.drop_left, List.take_left]

theorem splitSlots_positions (positions : List (List Byte)) (k : Nat) (l : List Byte) (h : ∀ p ∈ positions, WholeSlot p) :
    splitSlots (positions.length + k) (positions.flatten ++ l) = (positions ++ (splitSlots k l).1, (splitSlots k l).2) := by
  induction positions with
  | nil => simp
  | cons p ps ih =>
    have := ih fun q hq => h q (List.mem_cons_of_mem _ hq)
    rw [List.length_cons, Nat.add_right_comm, List.flatten_cons, List.append_assoc,
      splitSlots_whole (h p List.mem_cons_self), this]
    rfl

theorem splitSlots_nil (k : Nat) : splitSlots k [] = (List.replicate k [], []) := by
  induction k with
  | zero => rfl
  | succ k ih => simp [splitSlots, ih, List.replicate_succ]

theorem splitSlots_cut (k : Nat) {cut : List Byte}
    (h : cut = [] ∨ ∃ n image, cut = n :: image ∧ n ≠ 0 ∧ image.length < n.toNat + 2) :
    splitSlots (k + 1) cut = (cut :: List.replicate k [], []) := by
  rcases h with rfl | ⟨n, image, rfl, hn, hl⟩
  · simp [splitSlots, splitSlots_nil]
  · simp only [splitSlots, hn, if_false]
    rw [List.drop_of_length_le (by omega), List.take_of_length_le (by omega), splitSlots_nil]

theorem readHead_iff (l : List Byte) (h : Head) : readHead l = some h ↔
    1 :: l = h.bytes ∧ 1 ≤ h.origin.toNat ∧ h.origin.toNat ≤ 16 ∧ 1 ≤ h.size.toNat ∧ h.size.toNat ≤ 16 := by
  have fields : ∀ m : List Byte, readHeadFields m = some h ↔ ∃ r, m = h.fields ++ r := by
    intro m
    simp only [readHeadFields, bind, Option.bind_eq_some_iff, Prod.exists, reads_read8 _ _ _, reads_read16 _ _ _, reads_read32 _ _ _, pure,
      Option.some.injEq, Head.fields]
    constructor
    · rintro ⟨_, _, ⟨-, rfl⟩, _, _, ⟨-, rfl⟩, _, _, ⟨-, rfl⟩, _, _, ⟨-, rfl⟩, _, _, ⟨-, rfl⟩, _, r, ⟨-, rfl⟩, rfl⟩
      exact ⟨r, by simp⟩
    · rintro ⟨r, rfl⟩
      simp only [List.append_assoc]
      exact ⟨_, _, ⟨trivial, rfl⟩, _, _, ⟨trivial, rfl⟩, _, _, ⟨trivial, rfl⟩, _, _, ⟨trivial, rfl⟩, _, _, ⟨trivial, rfl⟩, _, r,
        ⟨trivial, rfl⟩, rfl⟩
  have len : h.fields.length = 12 := by simp [Head.fields, byte16, byte32]
  constructor
  · intro e
    unfold readHead at e
    split at e
    · rename_i hc
      split at e
      · rename_i h' he
        split at e
        · rename_i hr
          cases e
          simp only [Bool.and_eq_true, decide_eq_true_eq] at hr
          obtain ⟨r, hm⟩ := (fields _).1 he
          have ht : l.take 12 = h.fields := by rw [hm, ← len, List.take_left]
          rw [ht] at hc
          exact ⟨hc.symm, hr.1.1.1, hr.1.1.2, hr.1.2, hr.2⟩
        · cases e
      · cases e
    · cases e
  · rintro ⟨e, h1, h2, h3, h4⟩
    have el : l = h.fields ++ byte16 (checkCode (1 :: h.fields)) := by
      simpa [Head.bytes, withCheck] using e
    have ht : l.take 12 = h.fields := by rw [el, ← len, List.take_left]
    unfold readHead
    rw [ht, if_pos (by rw [e]; rfl), (fields l).2 ⟨_, el⟩]
    simp [h1, h2, h3, h4]

/-- How trains are read (R3, R4, R6, R199). -/
theorem framesRead : FramesRead where
  written h := by simp [Head.bytes, Head.fields]
  head := readHead_iff
  slots positions rest hl hp := by
    have := splitSlots_positions positions 0 rest hp
    rw [hl] at this
    simpa [splitSlots] using this
  early positions cut hl hp hc := by
    have := splitSlots_positions positions (15 - positions.length + 1) cut hp
    rw [splitSlots_cut _ hc, show positions.length + (15 - positions.length + 1) = 16 by omega] at this
    exact this
  empty := viewSlot_eq_empty
  pass := viewSlot_eq_pass

/-! ## The check code -/

/-- One bit of the code with nothing coming in, on sixteen bits. -/
theorem crcBit_toNat (c : Half) : crcBit c.toNat = (codeBit c false).toNat := by
  unfold crcBit codeBit
  have h : (2 * c.toNat) % 65536 = (c <<< 1).toNat := by
    rw [BitVec.toNat_shiftLeft, Nat.shiftLeft_eq]
    omega
  have t : c.toNat.testBit 15 = c.msb := by
    rw [BitVec.testBit_toNat, BitVec.msb_eq_getLsbD_last]
  rw [h, t]
  cases c.msb
  · simp
  · simp only [if_true, Bool.true_eq_false, if_false, BitVec.toNat_xor]
    rfl

theorem codeBit_xor (c e : Half) (a b : Bool) : codeBit (c ^^^ e) (a ^^ b) = codeBit c a ^^^ codeBit e b := by
  unfold codeBit
  rw [BitVec.msb_xor, BitVec.shiftLeft_xor_distrib]
  cases c.msb <;> cases e.msb <;> cases a <;> cases b <;> simp <;>
    first | done | (ext i hi; simp only [BitVec.getElem_xor]; grind)

theorem foldl_codeBit_xor (l : List (Bool × Bool)) (c e : Half) :
    (l.map fun p => p.1 ^^ p.2).foldl codeBit (c ^^^ e) = (l.map (·.1)).foldl codeBit c ^^^ (l.map (·.2)).foldl codeBit e := by
  induction l generalizing c e with
  | nil => rfl
  | cons p l ih => simp only [List.map_cons, List.foldl_cons, codeBit_xor, ih]

/-- The bits of a byte, the most significant first. -/
def bitsOf (b : Byte) : List Bool := (List.finRange 8).map fun i => b.getMsbD i.val

theorem byte_into_code (b : Byte) : (bitsOf b).foldl codeBit 0 = (bitsOf 0).foldl codeBit (b.setWidth 16 <<< 8) := by
  revert b
  decide +kernel

theorem crcByte_toNat (c : Half) (b : Byte) : crcByte c.toNat b = ((bitsOf b).foldl codeBit c).toNat := by
  have h : c.toNat.xor (b.toNat * 256) = (c ^^^ b.setWidth 16 <<< 8).toNat := by
    rw [BitVec.toNat_xor, BitVec.toNat_shiftLeft, BitVec.toNat_setWidth, Nat.shiftLeft_eq]
    have := b.isLt
    rw [Nat.mod_eq_of_lt (show b.toNat < 2 ^ 16 by omega), Nat.mod_eq_of_lt (by omega)]
    rfl
  have step : ∀ (x : Half) (y : Byte), (bitsOf y).foldl codeBit x = (bitsOf 0).foldl codeBit (x ^^^ y.setWidth 16 <<< 8) := by
    intro x y
    have e := foldl_codeBit_xor ((bitsOf 0).zip (bitsOf y)) x 0
    have e' := foldl_codeBit_xor ((bitsOf 0).zip (bitsOf 0)) x (y.setWidth 16 <<< 8)
    have z : ((bitsOf 0).zip (bitsOf y)).map (fun p => p.1 ^^ p.2) = bitsOf y := by
      simp [bitsOf, List.finRange_succ]
    have z1 : ((bitsOf 0).zip (bitsOf y)).map (·.1) = bitsOf 0 := by simp [bitsOf, List.finRange_succ]
    have z2 : ((bitsOf 0).zip (bitsOf y)).map (·.2) = bitsOf y := by simp [bitsOf, List.finRange_succ]
    rw [z, z1, z2, byte_into_code] at e
    simpa [bitsOf, List.finRange_succ] using e.trans e'.symm
  rw [step, crcByte, h]
  simp only [crcBit_toNat]
  rfl

theorem crcFrom_cons (c : Nat) (b : Byte) (l : List Byte) : crcFrom c (b :: l) = crcFrom (crcByte c b) l := by
  rw [crcFrom]
  cases crcByte c b <;> rfl

theorem crcFrom_toNat (l : List Byte) (c : Half) : crcFrom c.toNat l = ((l.flatMap bitsOf).foldl codeBit c).toNat := by
  induction l generalizing c with
  | nil => rfl
  | cons b l ih => rw [crcFrom_cons, crcByte_toNat, ih, List.flatMap_cons, List.foldl_append]

/-- The check code is the cyclic code of chapter 12. -/
theorem checkCode_eq (bytes : List Byte) : checkCode bytes = codeOf bytes := by
  have h := crcFrom_toNat bytes 0xFFFF
  rw [checkCode, show (0xFFFF : Nat) = (0xFFFF : Half).toNat from rfl, h, BitVec.ofNat_toNat, BitVec.setWidth_eq]
  rfl

end Sys2Proof.Machine
end

