-- ==== Sys2Proof/Laws/Grate.lean ====
section
/-! SUPPORT. What the Grate Cooler Controller's operations change: everything they do stays within GrateOnly; what the passing of
the grant keeps, and what entry to FAULT does. -/

namespace Sys2Proof.Machine

namespace GrateOnly

theorem refl (d : Station) : GrateOnly d d := ⟨.refl _ _, .refl d⟩

theorem trans {a b c : Station} (h : GrateOnly a b) (k : GrateOnly b c) : GrateOnly a c :=
  ⟨h.lines.trans k.lines, h.rest.signals.trans k.rest.signals, events_trans h.rest.events k.rest.events,
    by rw [k.rest.rest, h.rest.rest]⟩

variable {a b c : Station}

theorem alarms (h : GrateOnly a b) (k : AlarmsOnly b c) : GrateOnly a c :=
  h.trans ⟨by rw [k.dou]; exact .refl _ _, k.signals, k.events, by rw [k.rest]⟩

theorem command (h : GrateOnly a b) (k : LineCommand .grateCooler b c) : GrateOnly a c :=
  h.trans ⟨k.lines, k.signals, by rw [k.rest]; simp, by rw [k.rest]⟩

theorem onGcc (h : GrateOnly a b) (f : Gcc → Gcc) : GrateOnly a (b.onGcc f) :=
  h.trans ⟨.refl _ _, by simp, by simp, rfl⟩

theorem onComp (h : GrateOnly a b) (i : Fin 4) (f : Compartment → Compartment) : GrateOnly a (b.onComp i f) :=
  h.trans ⟨.refl _ _, by simp, by simp, rfl⟩

theorem post (h : GrateOnly a b) (e : HostEvent) : GrateOnly a (b.post e) :=
  h.trans ⟨.refl _ _, by simp, by simp, rfl⟩

theorem contribute (h : GrateOnly a b) (x : Contribution) : GrateOnly a (b.contribute x) :=
  h.trans ⟨.refl _ _, by simp, by simp, rfl⟩

theorem report (h : GrateOnly a b) (k : CondKind) (n : Nat) (v : Bool) : GrateOnly a (b.report k n v) :=
  h.alarms (report_only k n v b)

theorem reportTimeout (h : GrateOnly a b) (i : Fin 4) (v : Bool) : GrateOnly a (b.reportTimeout i v) := h.report ..

theorem reportConflict (h : GrateOnly a b) (i : Fin 4) (v : Bool) : GrateOnly a (b.reportConflict i v) := h.report ..

theorem stageCooler (h : GrateOnly a b) : GrateOnly a b.stageCooler := by
  unfold Station.stageCooler
  split
  · exact h.trans ⟨.refl _ _, by simp, by simp, rfl⟩
  · exact h

theorem strokeOn (h : GrateOnly a b) (k : OutKind) (i : Fin 4) : GrateOnly a (b.strokeOn k i).1 := by
  unfold Station.strokeOn
  split
  · exact h.command (lineOn_command ..)
  · exact h

theorem strokeOff (h : GrateOnly a b) (k : OutKind) (i : Fin 4) : GrateOnly a (b.strokeOff k i) := by
  unfold Station.strokeOff
  split
  · exact h.command (lineOff_command ..)
  · exact h

theorem faultComp (h : GrateOnly a b) (x : CompCause) (i : Fin 4) : GrateOnly a (b.faultComp x i) := by
  have tail : ∀ e, GrateOnly a e →
      GrateOnly a (if x = .estop then (e.reportTimeout i false).reportConflict i false else e).stageCooler := by
    intro e he
    split
    · exact ((he.reportTimeout i false).reportConflict i false).stageCooler
    · exact he.stageCooler
  unfold Station.faultComp
  refine tail _ ?_
  split
  · exact (((h.strokeOff _ i).strokeOff _ i).onGcc _).onComp i _
  · exact (((((h.strokeOff _ i).strokeOff _ i).onGcc _).onComp i _).contribute _).post _

theorem beginForward (h : GrateOnly a b) (i : Fin 4) (k : CompCfg) : GrateOnly a (b.beginForward i k) := h.onComp i _

theorem passGrant (h : GrateOnly a b) (n : Nat) : GrateOnly a (b.passGrant n) := by
  induction n generalizing b with
  | zero => exact h
  | succ n ih =>
    unfold Station.passGrant
    split
    · next i rest _ _ =>
      split
      · exact ih (h.onGcc _)
      · next k _ =>
        have g := ((h.onGcc fun g => { g with holder := some i, queue := rest }).beginForward i k).strokeOn .strokeForward i
        dsimp only
        split
        · next e => rw [e] at g; exact ih (g.faultComp _ _)
        · next e => rw [e] at g; exact (g.contribute _).stageCooler
        · next e => rw [e] at g; exact g.stageCooler
    · exact h

theorem grant (h : GrateOnly a b) : GrateOnly a b.grant := h.passGrant 5

theorem releaseGrant (h : GrateOnly a b) (i : Fin 4) : GrateOnly a (b.releaseGrant i) := by
  unfold Station.releaseGrant
  split
  · exact (h.onGcc _).grant
  · exact h

theorem faultAndPass (h : GrateOnly a b) (x : CompCause) (i : Fin 4) : GrateOnly a (b.faultAndPass x i) :=
  (h.faultComp x i).grant

theorem wait (h : GrateOnly a b) (i : Fin 4) : GrateOnly a (b.wait i) := (((h.onComp i _).onGcc _).grant).stageCooler

theorem rest' (h : GrateOnly a b) (i : Fin 4) : GrateOnly a (b.rest i) := by
  unfold Station.rest
  dsimp only
  split
  · exact (h.onComp i _).wait i
  · exact (h.onComp i _).stageCooler

theorem startReturn (h : GrateOnly a b) (i : Fin 4) (k : CompCfg) : GrateOnly a (b.startReturn i k) := by
  have g := (h.onComp i fun c => { c with state := .returning, timer := some (.returnLimit, b.inMs k.returnLimit) }).strokeOn
    .strokeReturn i
  unfold Station.startReturn
  dsimp only
  split
  · next e => rw [e] at g; exact g.faultAndPass _ i
  · next e => rw [e] at g; exact g.stageCooler

theorem limitConflict (h : GrateOnly a b) (i : Fin 4) : GrateOnly a (b.limitConflict i) := by
  unfold Station.limitConflict
  split
  · exact h
  · exact ((h.faultComp _ i).reportConflict i true).grant

theorem endForward (h : GrateOnly a b) (i : Fin 4) (k : CompCfg) : GrateOnly a (b.endForward i k) := by
  have g := ((h.strokeOff .strokeForward i).onComp i fun c => { c with state := .dwell, timer := none }).releaseGrant i
  unfold Station.endForward
  dsimp only
  split
  · exact g.startReturn i k
  · exact (g.onComp i _).stageCooler

theorem endReturn (h : GrateOnly a b) (i : Fin 4) : GrateOnly a (b.endReturn i) := by
  have g := (h.strokeOff .strokeReturn i).onComp i fun c => { c with timer := none }
  unfold Station.endReturn
  dsimp only
  split
  · exact g.faultAndPass _ i
  · split
    · exact (g.onComp i _).stageCooler
    · exact g.rest' i

theorem judgeMode (h : GrateOnly a b) (i : Fin 4) : GrateOnly a (b.judgeMode i) := by
  unfold Station.judgeMode
  dsimp only
  repeat' split
  all_goals first
    | with_reducible exact h
    | with_reducible exact h.onComp i _

theorem forAll {n : Nat} (f : Fin n → Station → Station) (hf : ∀ i x, GrateOnly a x → GrateOnly a (f i x))
    (h : GrateOnly a b) : GrateOnly a (Machine.forAll f b) := by
  unfold Machine.forAll
  generalize List.finRange n = l
  induction l generalizing b with
  | nil => exact h
  | cons i l ih => exact ih (hf i b h)

end GrateOnly

/-! ## What another compartment keeps -/

/-- A compartment, its stroke lines and its conditions do not differ, it gains no grant and joins no queue. -/
structure KeepsComp (j : Fin 4) (a b : Station) : Prop where
  cfg : ∀ i : Fin 16, b.dou.lines[i].cfg = a.dou.lines[i].cfg
  comp : b.gcc.comps[j] = a.gcc.comps[j]
  lines : ∀ (k : OutKind) (l : Fin 16), a.findOut k .compartment (j.val + 1) = some l → b.dou.lines[l] = a.dou.lines[l]
  conds : ∀ kind, kind = .grateStrokeTimeout ∨ kind = .limitConflict →
    b.condition kind (j.val + 1) = a.condition kind (j.val + 1)
  holder : a.gcc.holder ≠ some j → b.gcc.holder ≠ some j
  queue : j ∉ a.gcc.queue → j ∉ b.gcc.queue

namespace KeepsComp
variable {j : Fin 4} {a b c : Station}

theorem refl (j : Fin 4) (d : Station) : KeepsComp j d d :=
  ⟨fun _ => rfl, rfl, fun _ _ _ => rfl, fun _ _ => rfl, fun h => h, fun h => h⟩

theorem trans (h : KeepsComp j a b) (k : KeepsComp j b c) : KeepsComp j a c :=
  ⟨fun i => (k.cfg i).trans (h.cfg i), k.comp.trans h.comp,
    fun o l e => (k.lines o l (by rw [findOut_congr h.cfg]; exact e)).trans (h.lines o l e),
    fun x hx => (k.conds x hx).trans (h.conds x hx), fun n => k.holder (h.holder n), fun n => k.queue (h.queue n)⟩

theorem onComp (h : KeepsComp j a b) {i : Fin 4} (ne : i ≠ j) (f : Compartment → Compartment) : KeepsComp j a (b.onComp i f) :=
  h.trans ⟨fun _ => rfl, vecModify_ne _ _ _ _ _ (fun e => ne (Fin.ext e)), fun _ _ _ => rfl, fun _ _ => rfl, fun n => n,
    fun n => n⟩

theorem contribute (h : KeepsComp j a b) (x : Contribution) : KeepsComp j a (b.contribute x) :=
  h.trans ⟨fun _ => rfl, rfl, fun _ _ _ => rfl, fun _ _ => rfl, fun n => n, fun n => n⟩

theorem post (h : KeepsComp j a b) (x : HostEvent) : KeepsComp j a (b.post x) :=
  h.trans ⟨fun _ => rfl, rfl, fun _ _ _ => rfl, fun _ _ => rfl, fun n => n, fun n => n⟩

theorem stageCooler (h : KeepsComp j a b) : KeepsComp j a b.stageCooler := by
  unfold Station.stageCooler
  split
  · exact h.trans ⟨fun _ => rfl, rfl, fun _ _ _ => rfl, fun _ _ => rfl, fun n => n, fun n => n⟩
  · exact h

theorem onGcc (h : KeepsComp j a b) (f : Gcc → Gcc) (hc : (f b.gcc).comps = b.gcc.comps)
    (hh : b.gcc.holder ≠ some j → (f b.gcc).holder ≠ some j) (hq : j ∉ b.gcc.queue → j ∉ (f b.gcc).queue) :
    KeepsComp j a (b.onGcc f) :=
  h.trans ⟨fun _ => rfl, by simp [hc], fun _ _ _ => rfl, fun _ _ => rfl, hh, hq⟩

theorem report (h : KeepsComp j a b) {i : Fin 4} (ne : i ≠ j) (k : CondKind) (v : Bool) :
    KeepsComp j a (b.report k (i.val + 1) v) := by
  have r := report_only k (i.val + 1) v b
  refine h.trans ⟨fun _ => by rw [r.dou], by rw [r.gcc], fun _ _ _ => by rw [r.dou], fun x hx => ?_, by rw [r.gcc]; exact id,
    by rw [r.gcc]; exact id⟩
  exact report_other _ _ _ _ _ _ fun e => ne (Fin.ext (by omega))

/-- A line of another compartment changed. -/
theorem onOut (h : KeepsComp j a b) {i : Fin 4} (ne : i ≠ j) {k : OutKind} {l : Fin 16}
    (e : b.findOut k .compartment (i.val + 1) = some l) (f : OutLine → OutLine) (hf : (f b.dou.lines[l]).cfg = b.dou.lines[l].cfg) :
    KeepsComp j a (b.onOut l f) := by
  refine h.trans ⟨fun m => ?_, rfl, fun k' l' e' => ?_, fun _ _ => rfl, fun n => n, fun n => n⟩
  · simp only [Station.onOut_fields, Fin.getElem_fin, vecModify_get]
    split
    · next q => simp only [Fin.getElem_fin] at hf; simpa [← q] using hf
    · rfl
  · have apart : l.val ≠ l'.val := by
      intro q
      obtain rfl : l = l' := Fin.ext q
      obtain ⟨c, hc, -, -, hn⟩ := findOut_cfg e
      obtain ⟨c', hc', -, -, hn'⟩ := findOut_cfg e'
      rw [hc] at hc'
      cases hc'
      simp at hn hn'
      exact ne (Fin.ext (by omega))
    exact vecModify_ne _ _ _ _ _ apart

/-- The stroke line of a compartment is a stroke line of the Grate Cooler Controller. -/
theorem strokeLine {d : Station} {k : OutKind} {n : Nat} {l : Fin 16} (hk : k = .strokeForward ∨ k = .strokeReturn)
    (e : d.findOut k .compartment n = some l) : d.dou.lines[l].isLevel ∧ d.dou.lines[l].owner = .grateCooler := by
  obtain ⟨c, hc, hck, -, -⟩ := findOut_cfg e
  have q := line_of_cfg hc
  rcases hk with rfl | rfl <;> rw [hck] at q <;> exact ⟨by unfold OutLine.isLevel; rw [q.1]; simp, q.2⟩

theorem strokeOff (h : KeepsComp j a b) {i : Fin 4} (ne : i ≠ j) {k : OutKind} (hk : k = .strokeForward ∨ k = .strokeReturn) :
    KeepsComp j a (b.strokeOff k i) := by
  unfold Station.strokeOff
  split
  · next l e =>
    have q := strokeLine hk e
    rw [lineOff_owned q.1 q.2]
    exact h.onOut ne e _ rfl
  · exact h

theorem strokeOn (h : KeepsComp j a b) {i : Fin 4} (ne : i ≠ j) {k : OutKind} (hk : k = .strokeForward ∨ k = .strokeReturn) :
    KeepsComp j a (b.strokeOn k i).1 := by
  unfold Station.strokeOn
  split
  · next l e =>
    have q := strokeLine hk e
    rw [lineOn_owned q.1 q.2]
    split
    · exact h
    · split
      · exact h.onOut ne e _ rfl
      · exact h.onOut ne e _ rfl
  · exact h

theorem faultComp (h : KeepsComp j a b) {i : Fin 4} (ne : i ≠ j) (x : CompCause) : KeepsComp j a (b.faultComp x i) := by
  have tail : ∀ e, KeepsComp j a e →
      KeepsComp j a (if x = .estop then (e.reportTimeout i false).reportConflict i false else e).stageCooler := by
    intro e he
    split
    · exact ((he.report ne _ false).report ne _ false).stageCooler
    · exact he.stageCooler
  have base : ∀ f, KeepsComp j a ((((b.strokeOff .strokeForward i).strokeOff .strokeReturn i).onGcc fun g =>
      { g with queue := g.queue.filter (· != i), holder := if g.holder = some i then none else g.holder }).onComp i f) := by
    intro f
    refine KeepsComp.onComp (KeepsComp.onGcc ((h.strokeOff ne (.inl rfl)).strokeOff ne (.inr rfl)) _ rfl ?_ ?_) ne f
    · intro n
      dsimp only
      split
      · simp
      · exact n
    · intro n m
      exact n (List.mem_of_mem_filter m)
  unfold Station.faultComp
  refine tail _ ?_
  split
  · exact base _
  · exact ((base _).contribute _).post _

/-- The grant passes by a compartment that is not in the queue. -/
theorem passGrant (h : KeepsComp j a b) (n : Nat) (out : j ∉ b.gcc.queue) : KeepsComp j a (b.passGrant n) := by
  induction n generalizing b with
  | zero => exact h
  | succ n ih =>
    unfold Station.passGrant
    split
    · next i rest _ hq =>
      have ne : i ≠ j := fun e => out (by rw [hq, e]; simp)
      have tailOut : j ∉ rest := fun m => out (by rw [hq]; simp [m])
      split
      · exact ih (h.onGcc _ rfl (fun n => n) (fun _ => tailOut)) tailOut
      · next k _ =>
        have g : KeepsComp j b ((((b.onGcc fun g => { g with holder := some i, queue := rest }).beginForward i k).strokeOn
            .strokeForward i).1) :=
          KeepsComp.strokeOn (KeepsComp.onComp ((refl j b).onGcc _ rfl (fun _ e => ne (by simpa using e)) (fun _ => tailOut)) ne _) ne
            (.inl rfl)
        dsimp only
        split
        · next e =>
          rw [e] at g
          exact ih (h.trans (g.faultComp ne _)) ((g.faultComp ne .estop).queue out)
        · next e => rw [e] at g; exact h.trans (g.contribute _).stageCooler
        · next e => rw [e] at g; exact h.trans g.stageCooler
    · exact h

end KeepsComp

/-! ## Publication and faults -/

/-- The staged cooler part is the controller's part as it stands (R148). -/
def Station.coolerStaged (d : Station) : Prop := d.coolerDuty = true → d.lpc.staging.cooler = some d.gcc.part

theorem stageCooler_rest (d : Station) : d.stageCooler = { d with lpc := { d.lpc with staging := { d.lpc.staging with
    cooler := if d.coolerDuty then some d.gcc.part else d.lpc.staging.cooler } } } := by
  unfold Station.stageCooler
  split
  · simp [Station.onStaging, Station.onLpc]
  · simp

theorem stageCooler_staged (d : Station) : d.stageCooler.coolerStaged := by
  intro h
  rw [stageCooler_rest] at h ⊢
  have : d.coolerDuty = true := h
  simp [this]

theorem passGrant_staged (n : Nat) (d : Station) (h : d.coolerStaged) : (d.passGrant n).coolerStaged := by
  induction n generalizing d with
  | zero => exact h
  | succ n ih =>
    unfold Station.passGrant
    split
    · split
      · exact ih _ h
      · dsimp only
        split
        · exact ih _ (stageCooler_staged _)
        · exact stageCooler_staged _
        · exact stageCooler_staged _
    · exact h

/-- Both stroke lines of a compartment off. -/
theorem strokesOff_lines (i : Fin 4) (d : Station) (k : OutKind) (l : Fin 16) (hk : k = .strokeForward ∨ k = .strokeReturn)
    (e : d.findOut k .compartment (i.val + 1) = some l) :
    ((d.strokeOff .strokeForward i).strokeOff .strokeReturn i).dou.lines[l] =
      { d.dou.lines[l] with on := false, pin := false } := by
  have cfg : ∀ m : Fin 16, (d.strokeOff .strokeForward i).dou.lines[m].cfg = d.dou.lines[m].cfg := by
    intro m
    exact ((GrateOnly.refl d).strokeOff .strokeForward i).lines m |>.1
  have one : ∀ (x : Station) (q : OutKind) (m : Fin 16), q = .strokeForward ∨ q = .strokeReturn →
      (x.strokeOff q i).dou.lines[m] = if x.findOut q .compartment (i.val + 1) = some m then
        { x.dou.lines[m] with on := false, pin := false } else x.dou.lines[m] := by
    intro x q m hq
    unfold Station.strokeOff
    cases f : x.findOut q .compartment (i.val + 1) with
    | none => simp
    | some y =>
      have z := KeepsComp.strokeLine hq f
      dsimp only
      rw [lineOff_owned z.1 z.2]
      simp only [Station.onOut_fields, Fin.getElem_fin, vecModify_get, Option.some.injEq, Fin.ext_iff]
  rw [one _ _ _ (.inr rfl), one _ _ _ (.inl rfl), findOut_congr cfg]
  rcases hk with rfl | rfl
  · rw [if_pos e]
    split <;> rfl
  · have ne : d.findOut .strokeForward .compartment (i.val + 1) ≠ some l := by
      intro e'
      obtain ⟨c, hc, hk, -⟩ := findOut_cfg e
      obtain ⟨c', hc', hk', -⟩ := findOut_cfg e'
      rw [hc] at hc'
      cases hc'
      simp [hk] at hk'
    rw [if_pos e, if_neg ne]

theorem strokeOff_rest (k : OutKind) (i : Fin 4) (d : Station) : d.strokeOff k i = { d with dou := (d.strokeOff k i).dou } := by
  unfold Station.strokeOff
  split
  · unfold Station.lineOff
    dsimp only
    split <;> rfl
  · rfl

/-- Everything an entry to FAULT does before the grant passes on; the compartment leaves the queue. -/
theorem faultComp_spec (cause : CompCause) (i : Fin 4) (d : Station) :
    CompFaulted cause i d (d.faultComp cause i) ∧ (d.faultComp cause i).gcc.queue = d.gcc.queue.filter (· != i) := by
  let off := (d.strokeOff .strokeForward i).strokeOff .strokeReturn i
  let base := (off.onGcc fun g =>
    { g with queue := g.queue.filter (· != i), holder := if g.holder = some i then none else g.holder }).onComp i fun c =>
      { c with
        state := .fault, cause := cause, timer := none
        faultPending := cause == .estop && c.faultPending, stopAtEnd := cause == .estop && c.stopAtEnd }
  let told := if (d.gcc.comps[i].state == .fault) = true then base else (base.contribute (.grateFault i)).post .grateFault
  let seen := if cause = .estop then (told.reportTimeout i false).reportConflict i false else told
  have run : d.faultComp cause i = seen.stageCooler := rfl
  have offRest : off = { d with dou := off.dou } := by
    simp only [off]
    rw [strokeOff_rest, strokeOff_rest]
  have toldGcc : told.gcc = base.gcc ∧ told.dou = base.dou := by
    simp only [told]
    split <;> exact ⟨rfl, rfl⟩
  have alarms : AlarmsOnly told seen := by
    simp only [seen]
    split
    · exact (report_only ..).trans (report_only ..)
    · exact .refl _
  have gcc : (d.faultComp cause i).gcc = base.gcc := by
    rw [run, stageCooler_rest]
    exact alarms.gcc.trans toldGcc.1
  have dou : (d.faultComp cause i).dou = off.dou := by
    rw [run, stageCooler_rest]
    exact alarms.dou.trans toldGcc.2
  have offGcc : off.gcc = d.gcc := by rw [offRest]
  refine ⟨⟨?_, fun j ne _ => ?_, fun k l hk e => ?_, ⟨?_, ?_⟩, fun n => ?_, ?_, ?_⟩, ?_⟩
  · rw [gcc]
    simp [base, offGcc]
  · rw [gcc]
    have ne' : i.val ≠ j.val := fun e => ne (Fin.ext e.symm)
    simp [base, offGcc, vecModify_ne _ _ _ _ _ ne']
  · rw [dou]
    exact strokesOff_lines i d k l hk e
  · rw [gcc]
    show (if off.gcc.holder = some i then none else off.gcc.holder) ≠ some i
    split
    · exact nofun
    · assumption
  · rw [gcc]
    simp [base]
  · have t : told = (base.contribute (.grateFault i)).post .grateFault := by
      simp only [told]
      rw [if_neg (by simpa using n)]
    have s1 : .sruContribution (.grateFault i) ∈ told.signals := by rw [t]; simp
    have e1 : (32 : Byte) &&& told.ppt.events = 32 := by
      rw [t, BitVec.and_comm]
      simp [HostEvent.bit]
    have tail : (d.faultComp cause i).signals = seen.signals ∧ (d.faultComp cause i).ppt = seen.ppt := by
      rw [run, stageCooler_rest]
      exact ⟨rfl, rfl⟩
    rw [tail.1, tail.2]
    refine ⟨alarms.signals.subset s1, ?_⟩
    rw [BitVec.and_comm]
    exact events_trans e1 alarms.events
  · intro h
    refine stageCooler_staged seen ?_
    have : (d.faultComp cause i).coolerDuty = d.coolerDuty := by
      unfold Station.coolerDuty Station.cfg
      rw [((GrateOnly.refl d).faultComp cause i).rest.rest]
    rw [← run, this]
    exact h
  · exact (GrateOnly.refl d).faultComp cause i
  · rw [gcc]
    simp [base, offGcc]

/-- A faulted compartment stays so while the grant passes on. -/
theorem CompFaulted.pass {cause : CompCause} {i : Fin 4} {a b : Station} (h : CompFaulted cause i a b)
    (q : ∀ j, j ∈ b.gcc.queue → j ∈ a.gcc.queue) : CompFaulted cause i a b.grant := by
  have only := (GrateOnly.refl b).grant
  have k := (KeepsComp.refl i b).passGrant 5 h.grant.2
  have duty : b.coolerDuty = a.coolerDuty := by
    unfold Station.coolerDuty Station.cfg
    rw [h.rest.rest.rest]
  have duty' : b.grant.coolerDuty = b.coolerDuty := by
    unfold Station.coolerDuty Station.cfg
    rw [only.rest.rest]
  have cfg : ∀ m : Fin 16, b.dou.lines[m].cfg = a.dou.lines[m].cfg := fun m => (h.rest.lines m).1
  refine ⟨k.comp.trans h.comp, fun j ne out => ?_, fun o l ho e => ?_, ⟨k.holder h.grant.1, k.queue h.grant.2⟩, fun n => ?_,
    fun on => ?_, h.rest.grant⟩
  · have kj := (KeepsComp.refl j b).passGrant 5 fun m => out (q j m)
    exact kj.comp.trans (h.others j ne out)
  · rw [← h.off o l ho e]
    exact k.lines o l (by rw [findOut_congr cfg]; exact e)
  · obtain ⟨s, e⟩ := h.counted n
    refine ⟨only.rest.signals.subset s, ?_⟩
    rw [BitVec.and_comm] at e ⊢
    exact events_trans e only.rest.events
  · exact passGrant_staged 5 b (fun _ => h.staged on) (duty'.trans (duty.trans on))

/-- Everything a fault does with the grant passing on. -/
theorem faultAndPass_spec (cause : CompCause) (i : Fin 4) (d : Station) : CompFaulted cause i d (d.faultAndPass cause i) := by
  obtain ⟨h, q⟩ := faultComp_spec cause i d
  exact h.pass fun j m => by rw [q] at m; exact List.mem_of_mem_filter m

/-- A report within the Alarm Unit leaves a faulted compartment so. -/
theorem CompFaulted.alarms {cause : CompCause} {i : Fin 4} {a b c : Station} (h : CompFaulted cause i a b)
    (k : AlarmsOnly b c) : CompFaulted cause i a c := by
  refine ⟨by rw [k.gcc]; exact h.comp, fun j ne out => by rw [k.gcc]; exact h.others j ne out,
    fun o l ho e => by rw [k.dou]; exact h.off o l ho e, by rw [k.gcc]; exact h.grant, fun n => ?_, fun on => ?_, h.rest.alarms k⟩
  · obtain ⟨s, e⟩ := h.counted n
    refine ⟨k.signals.subset s, ?_⟩
    rw [BitVec.and_comm] at e ⊢
    exact events_trans e k.events
  · rw [k.gcc, k.lpc]
    exact h.staged on

end Sys2Proof.Machine
end

