-- ==== Sys2Proof/Laws/Grant.lean ====
section
/-! SUPPORT. The law of the hydraulic grant (R145): what each operation of the Grate Cooler Controller keeps of it. -/

namespace Sys2Proof.Machine

/-- A stroke line of a compartment is on. -/
def Station.strokeIsOn (k : OutKind) (d : Station) (i : Fin 4) : Prop :=
  ∃ l, d.findOut k .compartment (i.val + 1) = some l ∧ d.dou.lines[l].on = true

/-- One compartment changed. -/
def withComp (c : Fin 4 → Compartment) (i : Fin 4) (x : Compartment) (j : Fin 4) : Compartment := if i = j then x else c j

theorem withComp_same (c : Fin 4 → Compartment) (i : Fin 4) (x : Compartment) : withComp c i x i = x := if_pos rfl

theorem withComp_ne (c : Fin 4 → Compartment) {i j : Fin 4} (x : Compartment) (h : i ≠ j) : withComp c i x j = c j := if_neg h

/-- What the law of the grant says of the cooler's record and of the stroke lines that are on (R145). -/
structure GccLaw (F R : Fin 4 → Prop) (c : Fin 4 → Compartment) (holder : Option (Fin 4)) (queue : List (Fin 4)) : Prop where
  forward : ∀ i, F i → holder = some i
  apart : ∀ i, ¬ (F i ∧ R i)
  grant : ∀ i : Fin 4, holder = some i ↔ (c i).state = .forward
  waits : ∀ i : Fin 4, i ∈ queue ↔ (c i).state = .waiting
  order : queue.Pairwise fun i j =>
    ((c i).due).getD 0 < ((c j).due).getD 0 ∨ (((c i).due).getD 0 = ((c j).due).getD 0 ∧ i < j)
  timers : ∀ (i : Fin 4) (t : CompTimer) (e : Nat), (c i).timer = some (t, e) →
    (c i).state = match t with
      | .forwardLimit => .forward
      | .dwell => .dwell
      | .returnLimit => .returning
  absent : ∀ i : Fin 4, (c i).cfg = none → (c i).state = .stopped

/-- A compartment's timer runs in its own state. -/
def Compartment.timed (x : Compartment) : Prop := ∀ (t : CompTimer) (e : Nat), x.timer = some (t, e) →
  x.state = match t with
    | .forwardLimit => .forward
    | .dwell => .dwell
    | .returnLimit => .returning

namespace GccLaw
variable {F R F' R' : Fin 4 → Prop} {c : Fin 4 → Compartment} {holder : Option (Fin 4)} {queue : List (Fin 4)}

theorem lines (h : GccLaw F R c holder queue) (hF : ∀ i, F' i → holder = some i) (hR : ∀ i, ¬ (F' i ∧ R' i)) :
    GccLaw F' R' c holder queue :=
  ⟨hF, hR, h.grant, h.waits, h.order, h.timers, h.absent⟩

theorem off (h : GccLaw F R c holder queue) (hF : ∀ i, F' i → F i) (hR : ∀ i, R' i → R i) : GccLaw F' R' c holder queue :=
  h.lines (fun i x => h.forward i (hF i x)) (fun i x => h.apart i ⟨hF i x.1, hR i x.2⟩)

/-- The queue's order looks at its members alone. -/
theorem order_of {q : List (Fin 4)} {c d : Fin 4 → Compartment}
    (h : q.Pairwise fun i j => ((c i).due).getD 0 < ((c j).due).getD 0 ∨ (((c i).due).getD 0 = ((c j).due).getD 0 ∧ i < j))
    (e : ∀ i ∈ q, d i = c i) :
    q.Pairwise fun i j => ((d i).due).getD 0 < ((d j).due).getD 0 ∨ (((d i).due).getD 0 = ((d j).due).getD 0 ∧ i < j) :=
  h.imp_of_mem fun {a b} ha hb hab => by rw [e a ha, e b hb]; exact hab

/-- A compartment that neither holds the grant nor waits changes to another such state. -/
theorem quiet (h : GccLaw F R c holder queue) (i : Fin 4) (x : Compartment) (h1 : (c i).state ≠ .forward)
    (h2 : (c i).state ≠ .waiting) (f1 : x.state ≠ .forward) (f2 : x.state ≠ .waiting) (ft : x.timed)
    (fc : x.cfg = none → x.state = .stopped) : GccLaw F R (withComp c i x) holder queue := by
  refine ⟨h.forward, h.apart, fun j => ?_, fun j => ?_, order_of h.order fun j hj => withComp_ne _ _ ?_, fun j t e => ?_, fun j => ?_⟩
  · rw [h.grant j]
    by_cases e : i = j
    · subst e; rw [withComp_same]; exact iff_of_false h1 f1
    · rw [withComp_ne _ _ e]
  · rw [h.waits j]
    by_cases e : i = j
    · subst e; rw [withComp_same]; exact iff_of_false h2 f2
    · rw [withComp_ne _ _ e]
  · rintro rfl
    exact h2 ((h.waits _).1 hj)
  · by_cases e' : i = j
    · subst e'; rw [withComp_same]; exact ft t e
    · rw [withComp_ne _ _ e']; exact h.timers j t e
  · by_cases e' : i = j
    · subst e'; rw [withComp_same]; exact fc
    · rw [withComp_ne _ _ e']; exact h.absent j

/-- A compartment keeps state, timer, due time and settings. -/
theorem same (h : GccLaw F R c holder queue) (i : Fin 4) (x : Compartment) (h1 : x.state = (c i).state) (h2 : x.timer = (c i).timer)
    (h3 : x.due = (c i).due) (h4 : x.cfg = (c i).cfg) : GccLaw F R (withComp c i x) holder queue := by
  have st : ∀ j, (withComp c i x j).state = (c j).state := fun j => by
    by_cases e : i = j
    · subst e; rw [withComp_same, h1]
    · rw [withComp_ne _ _ e]
  have tm : ∀ j, (withComp c i x j).timer = (c j).timer := fun j => by
    by_cases e : i = j
    · subst e; rw [withComp_same, h2]
    · rw [withComp_ne _ _ e]
  have du : ∀ j, (withComp c i x j).due = (c j).due := fun j => by
    by_cases e : i = j
    · subst e; rw [withComp_same, h3]
    · rw [withComp_ne _ _ e]
  have cf : ∀ j, (withComp c i x j).cfg = (c j).cfg := fun j => by
    by_cases e : i = j
    · subst e; rw [withComp_same, h4]
    · rw [withComp_ne _ _ e]
  refine ⟨h.forward, h.apart, ?_, ?_, ?_, ?_, ?_⟩
  · simpa only [st] using h.grant
  · simpa only [st] using h.waits
  · simpa only [du] using h.order
  · simpa only [st, tm] using h.timers
  · simpa only [st, cf] using h.absent

/-- The holder leaves FORWARD with its line off, and gives up the grant. -/
theorem release (h : GccLaw F R c holder queue) (i : Fin 4) (x : Compartment) (h1 : (c i).state = .forward) (hF : ¬ F i)
    (f1 : x.state ≠ .forward) (f2 : x.state ≠ .waiting) (ft : x.timed) (fc : x.cfg = (c i).cfg) :
    GccLaw F R (withComp c i x) none queue := by
  have hi : holder = some i := (h.grant i).2 h1
  have only : ∀ j, (c j).state = .forward → i = j := fun j e => by
    have := (h.grant j).2 e
    rw [hi] at this
    exact Option.some.inj this
  refine ⟨fun j y => ?_, h.apart, fun j => ?_, fun j => ?_, order_of h.order fun j hj => withComp_ne _ _ ?_, fun j t e => ?_, fun j => ?_⟩
  · have := h.forward j y
    rw [hi] at this
    cases this
    exact (hF y).elim
  · refine iff_of_false (by simp) ?_
    by_cases e : i = j
    · subst e; rw [withComp_same]; exact f1
    · rw [withComp_ne _ _ e]; exact fun q => e (only j q)
  · rw [h.waits j]
    by_cases e : i = j
    · subst e; rw [withComp_same, h1]; exact iff_of_false (by simp) f2
    · rw [withComp_ne _ _ e]
  · rintro rfl
    have := (h.waits _).1 hj
    rw [h1] at this
    cases this
  · by_cases e' : i = j
    · subst e'; rw [withComp_same]; exact ft t e
    · rw [withComp_ne _ _ e']; exact h.timers j t e
  · by_cases e' : i = j
    · subst e'; rw [withComp_same, fc]
      intro q
      have := h.absent _ q
      rw [h1] at this
      cases this
    · rw [withComp_ne _ _ e']; exact h.absent j

/-- A configured compartment leaves its state, its place in the queue and the grant, its FORWARD line off. -/
theorem leave (h : GccLaw F R c holder queue) (i : Fin 4) (x : Compartment) (hF : ¬ F i) (f1 : x.state ≠ .forward)
    (f2 : x.state ≠ .waiting) (ft : x.timed) (fc : x.cfg = none → x.state = .stopped) :
    GccLaw F R (withComp c i x) (if holder = some i then none else holder) (queue.filter (· != i)) := by
  refine ⟨fun j y => ?_, h.apart, fun j => ?_, fun j => ?_, order_of (h.order.filter _) fun j hj => withComp_ne _ _ ?_, fun j t e => ?_,
    fun j => ?_⟩
  · have := h.forward j y
    rw [if_neg]
    · exact this
    · intro e
      rw [this] at e
      cases e
      exact hF y
  · by_cases e : i = j
    · subst e
      rw [withComp_same]
      refine iff_of_false ?_ f1
      split <;> simp_all
    · rw [withComp_ne _ _ e, ← h.grant j]
      split
      · rename_i hi
        rw [hi]
        simp [e]
      · rfl
  · rw [List.mem_filter, h.waits j]
    by_cases e : i = j
    · subst e; rw [withComp_same]; exact iff_of_false (by simp) f2
    · rw [withComp_ne _ _ e]; simp [Ne.symm e]
  · rintro rfl
    simp at hj
  · by_cases e' : i = j
    · subst e'; rw [withComp_same]; exact ft t e
    · rw [withComp_ne _ _ e']; exact h.timers j t e
  · by_cases e' : i = j
    · subst e'; rw [withComp_same]; exact fc
    · rw [withComp_ne _ _ e']; exact h.absent j

/-- The head of the queue takes a free grant. -/
theorem take {i : Fin 4} {rest : List (Fin 4)} (h : GccLaw F R c none (i :: rest)) (x : Compartment) (f1 : x.state = .forward)
    (ft : x.timed) (fc : x.cfg = (c i).cfg) : GccLaw F R (withComp c i x) (some i) rest := by
  have w : (c i).state = .waiting := (h.waits i).1 (by simp)
  have ord := List.pairwise_cons.1 h.order
  have ni : i ∉ rest := by
    intro hi
    have := ord.1 i hi
    omega
  have free : ∀ j : Fin 4, (c j).state ≠ .forward := by
    intro j e
    have := (h.grant j).2 e
    cases this
  refine ⟨fun j y => ?_, h.apart, fun j => ?_, fun j => ?_, order_of ord.2 fun j hj => withComp_ne _ _ ?_, fun j t e => ?_, fun j => ?_⟩
  · have := h.forward j y
    cases this
  · by_cases e : i = j
    · subst e; rw [withComp_same]; exact iff_of_true rfl f1
    · rw [withComp_ne _ _ e]; exact iff_of_false (by simp [e]) (free j)
  · by_cases e : i = j
    · subst e; rw [withComp_same]; exact iff_of_false ni (by simp [f1])
    · rw [withComp_ne _ _ e, ← h.waits j, List.mem_cons]; simp [Ne.symm e]
  · rintro rfl
    exact ni hj
  · by_cases e' : i = j
    · subst e'; rw [withComp_same]; exact ft t e
    · rw [withComp_ne _ _ e']; exact h.timers j t e
  · by_cases e' : i = j
    · subst e'; rw [withComp_same, fc]
      intro q
      have := h.absent _ q
      rw [w] at this
      cases this
    · rw [withComp_ne _ _ e']; exact h.absent j

/-- A compartment joins the queue, which keeps its order. -/
theorem join (h : GccLaw F R c holder queue) (i : Fin 4) (x : Compartment) (l : List (Fin 4)) (h1 : (c i).state ≠ .forward)
    (f1 : x.state = .waiting) (ft : x.timer = none) (fc : x.cfg ≠ none) (mem : ∀ j, j ∈ l ↔ j = i ∨ j ∈ queue)
    (ord : l.Pairwise fun j k => ((withComp c i x j).due).getD 0 < ((withComp c i x k).due).getD 0 ∨
      (((withComp c i x j).due).getD 0 = ((withComp c i x k).due).getD 0 ∧ j < k)) :
    GccLaw F R (withComp c i x) holder l := by
  refine ⟨h.forward, h.apart, fun j => ?_, fun j => ?_, ord, fun j t e => ?_, fun j => ?_⟩
  · rw [h.grant j]
    by_cases e : i = j
    · subst e; rw [withComp_same]; exact iff_of_false h1 (by simp [f1])
    · rw [withComp_ne _ _ e]
  · rw [mem, h.waits j]
    by_cases e : i = j
    · subst e; rw [withComp_same]; exact iff_of_true (.inl rfl) f1
    · rw [withComp_ne _ _ e]; simp [Ne.symm e]
  · by_cases e' : i = j
    · subst e'; rw [withComp_same, ft]; intro q; cases q
    · rw [withComp_ne _ _ e']; exact h.timers j t e
  · by_cases e' : i = j
    · subst e'; rw [withComp_same]; intro q; exact (fc q).elim
    · rw [withComp_ne _ _ e']; exact h.absent j

end GccLaw

/-! ## The law as a station stands -/

/-- The law of the grant as a station stands (R145). -/
def Station.grantLaw (d : Station) : Prop :=
  GccLaw (d.strokeIsOn .strokeForward) (d.strokeIsOn .strokeReturn) (fun i => d.gcc.comps[i]) d.gcc.holder d.gcc.queue

theorem grantLaw_iff (d : Station) : GrantLawHolds d ↔
    d.grantLaw ∧ (d.ppt.started = false → ∀ i : Fin 4, d.gcc.comps[i].cfg = none) := by
  constructor
  · intro h
    refine ⟨⟨?_, ?_, h.holder, h.queue, h.order, h.timers, h.absent⟩, h.config⟩
    · rintro i ⟨l, e, on⟩
      exact h.forward i l e on
    · rintro i ⟨⟨l, e, on⟩, r, e', on'⟩
      exact h.apart i l r e e' ⟨on, on'⟩
  · rintro ⟨h, hc⟩
    exact ⟨fun i l e on => h.forward i ⟨l, e, on⟩, fun i l r e e' on => h.apart i ⟨⟨l, e, on.1⟩, r, e', on.2⟩, h.grant, h.waits,
      h.order, h.timers, h.absent, hc⟩

namespace Station
variable {a b d : Station}

theorem strokeIsOn_congr (h : b.dou = a.dou) (k : OutKind) : b.strokeIsOn k = a.strokeIsOn k := by
  funext i
  unfold Station.strokeIsOn
  rw [findOut_congr (a := a) (b := b) (fun _ => by rw [h]), h]

theorem grantLaw.keep (h : a.grantLaw) (hg : b.gcc = a.gcc) (hd : b.dou = a.dou) : b.grantLaw := by
  unfold Station.grantLaw
  rw [strokeIsOn_congr hd, strokeIsOn_congr hd, hg]
  exact h

theorem comps_onComp (i : Fin 4) (f : Compartment → Compartment) (d : Station) :
    (fun j : Fin 4 => (d.onComp i f).gcc.comps[j]) = withComp (fun j => d.gcc.comps[j]) i (f d.gcc.comps[i]) := by
  funext j
  unfold withComp
  simp only [onComp_fields, Fin.getElem_fin, vecModify_get, Fin.val_inj]
  split
  · rename_i e; subst e; rfl
  · rfl

theorem strokeOff_gcc (k : OutKind) (i : Fin 4) (d : Station) : (d.strokeOff k i).gcc = d.gcc := by
  rw [strokeOff_rest]

/-- LINE OFF turns its line off and no other line on. -/
theorem strokeOff_on {k : OutKind} (hk : k = .strokeForward ∨ k = .strokeReturn) (i : Fin 4) (d : Station) :
    (∀ k' j, (d.strokeOff k i).strokeIsOn k' j → d.strokeIsOn k' j) ∧ ¬ (d.strokeOff k i).strokeIsOn k i := by
  unfold Station.strokeOff
  split
  · next l e =>
    have q := KeepsComp.strokeLine hk e
    rw [lineOff_owned q.1 q.2]
    have cf : ∀ m : Fin 16, (d.onOut l fun l => { l with on := false, pin := false }).dou.lines[m].cfg = d.dou.lines[m].cfg := by
      intro m
      simp only [onOut_fields, Fin.getElem_fin, vecModify_get]
      split <;> simp_all
    refine ⟨?_, ?_⟩
    · rintro k' j ⟨m, e', on⟩
      rw [findOut_congr cf] at e'
      refine ⟨m, e', ?_⟩
      simp only [onOut_fields, Fin.getElem_fin, vecModify_get] at on
      split at on
      · cases on
      · exact on
    · rintro ⟨m, e', on⟩
      rw [findOut_congr cf, e] at e'
      cases e'
      simp [vecModify_get] at on
  · next e => exact ⟨fun _ _ h => h, by rintro ⟨m, e', -⟩; rw [e] at e'; cases e'⟩

/-- LINE ON turns no line on but its own, and that one only beside a partner that is off (R81). -/
theorem strokeOn_on {k o : OutKind} (hk : (k = .strokeForward ∧ o = .strokeReturn) ∨ (k = .strokeReturn ∧ o = .strokeForward)) (i : Fin 4)
    (d : Station) : (d.strokeOn k i).1.gcc = d.gcc ∧
    (∀ k' j, (d.strokeOn k i).1.strokeIsOn k' j → d.strokeIsOn k' j ∨ (k' = k ∧ j = i ∧ ¬ d.strokeIsOn o i)) ∧
    ((d.strokeOn k i).2 = .heldOff → (d.strokeOn k i).1 = d) := by
  unfold Station.strokeOn
  split
  · next l e =>
    have q := KeepsComp.strokeLine (hk.imp And.left And.left) e
    rw [lineOn_owned q.1 q.2]
    split
    · exact ⟨rfl, fun _ _ h => .inl h, fun _ => rfl⟩
    · split
      · refine ⟨rfl, ?_, by rintro ⟨⟩⟩
        rintro k' j ⟨m, e', on⟩
        rw [findOut_congr (a := d)] at e'
        · refine .inl ⟨m, e', ?_⟩
          simp only [onOut_fields, Fin.getElem_fin, vecModify_get] at on
          split at on <;> simp_all
        · intro m
          simp only [onOut_fields, Fin.getElem_fin, vecModify_get]
          split <;> simp_all
      · next hp =>
        have cf : ∀ m : Fin 16, (d.onOut l fun l => { l with on := true, pin := true }).dou.lines[m].cfg = d.dou.lines[m].cfg := by
          intro m
          simp only [onOut_fields, Fin.getElem_fin, vecModify_get]
          split <;> simp_all
        refine ⟨rfl, ?_, by rintro ⟨⟩⟩
        rintro k' j ⟨m, e', on⟩
        rw [findOut_congr cf] at e'
        simp only [onOut_fields, Fin.getElem_fin, vecModify_get] at on
        split at on
        · next lm =>
          have lm : l = m := Fin.ext lm
          subst lm
          obtain ⟨c, hc, c1, c2, c3⟩ := findOut_cfg e
          obtain ⟨c', hc', c1', c2', c3'⟩ := findOut_cfg e'
          rw [hc] at hc'
          cases hc'
          simp at c3 c3'
          have ij : j = i := Fin.ext (by omega)
          refine .inr ⟨by rw [← c1', c1], ij, ?_⟩
          rintro ⟨r, er, onr⟩
          apply hp
          have partner : d.strokePartner d.dou.lines[l] = d.findOut o .compartment (i.val + 1) := by
            unfold Station.strokePartner
            rw [hc]
            rcases hk with ⟨rfl, rfl⟩ | ⟨rfl, rfl⟩ <;> simp [c1, c3]
          unfold Station.partnerOn
          rw [partner, er]
          exact onr
        · exact .inl ⟨m, e', on⟩
  · exact ⟨rfl, fun _ _ h => .inl h, fun _ => rfl⟩

theorem stageCooler_law (h : d.grantLaw) : d.stageCooler.grantLaw := by
  rw [stageCooler_rest]
  exact h.keep rfl rfl

theorem report_law (h : d.grantLaw) (k : CondKind) (n : Nat) (v : Bool) : (d.report k n v).grantLaw :=
  h.keep (report_only k n v d).gcc (report_only k n v d).dou

/-- An entry to FAULT keeps the law. -/
theorem faultComp_law (h : d.grantLaw) (cause : CompCause) (i : Fin 4) (hc : d.gcc.comps[i].cfg ≠ none) :
    (d.faultComp cause i).grantLaw := by
  have tail : ∀ e : Station, e.grantLaw →
      (if cause = .estop then (e.reportTimeout i false).reportConflict i false else e).stageCooler.grantLaw := by
    intro e he
    split
    · exact stageCooler_law (report_law (report_law he _ _ _) _ _ _)
    · exact stageCooler_law he
  unfold Station.faultComp
  refine tail _ ?_
  have base : (((((d.strokeOff .strokeForward i).strokeOff .strokeReturn i).onGcc fun g =>
      { g with queue := g.queue.filter (· != i), holder := if g.holder = some i then none else g.holder }).onComp i fun c =>
        { c with
          state := .fault, cause := cause, timer := none
          faultPending := cause == .estop && c.faultPending, stopAtEnd := cause == .estop && c.stopAtEnd })).grantLaw := by
    have o1 := strokeOff_on (.inl rfl : OutKind.strokeForward = .strokeForward ∨ _) i d
    have o2 := strokeOff_on (.inr rfl : OutKind.strokeReturn = .strokeForward ∨ _) i (d.strokeOff .strokeForward i)
    unfold Station.grantLaw
    rw [comps_onComp]
    have e1 : ((d.strokeOff .strokeForward i).strokeOff .strokeReturn i).gcc = d.gcc := by rw [strokeOff_gcc, strokeOff_gcc]
    simp only [onComp_fields, onGcc_fields, e1]
    refine ((h.off (F' := ((d.strokeOff .strokeForward i).strokeOff .strokeReturn i).strokeIsOn .strokeForward)
      (R' := ((d.strokeOff .strokeForward i).strokeOff .strokeReturn i).strokeIsOn .strokeReturn)
      (fun j x => o1.1 _ _ (o2.1 _ _ x)) (fun j x => o1.1 _ _ (o2.1 _ _ x))).leave i _ (fun x => o1.2 (o2.1 _ _ x)) ?_ ?_ ?_ ?_)
    · simp
    · simp
    · intro t e x; simp at x
    · intro x; exact (hc x).elim
  split
  · exact base
  · exact base.keep rfl rfl

/-- The law of the grant leaves no compartment without a section in a queue. -/
theorem grantLaw.member (h : d.grantLaw) {i : Fin 4} (hi : i ∈ d.gcc.queue) : d.gcc.comps[i].cfg ≠ none := by
  intro e
  have w := (h.waits i).1 hi
  rw [h.absent i e] at w
  cases w

theorem passGrant_law (n : Nat) (h : d.grantLaw) : (d.passGrant n).grantLaw := by
  induction n generalizing d with
  | zero => exact h
  | succ n ih =>
    unfold Station.passGrant
    split
    · next i rest hh hq =>
      have ci := h.member (i := i) (by rw [hq]; simp)
      split
      · next e => exact (ci e).elim
      · next k hk =>
        dsimp only
        have h0 := h
        unfold Station.grantLaw at h0
        rw [hh, hq] at h0
        have law : ((d.onGcc fun g => { g with holder := some i, queue := rest }).beginForward i k).grantLaw := by
          unfold Station.grantLaw Station.beginForward
          rw [comps_onComp]
          refine h0.take _ rfl ?_ rfl
          intro t e x
          simp at x
          obtain ⟨rfl, -⟩ := x
          rfl
        have hold : ((d.onGcc fun g => { g with holder := some i, queue := rest }).beginForward i k).gcc.holder = some i := rfl
        have cfg : ((d.onGcc fun g => { g with holder := some i, queue := rest }).beginForward i k).gcc.comps[i].cfg ≠ none := by
          simpa [Station.beginForward] using ci
        generalize ((d.onGcc fun g => { g with holder := some i, queue := rest }).beginForward i k) = x at law hold cfg
        have s := strokeOn_on (.inl ⟨rfl, rfl⟩ : (OutKind.strokeForward = .strokeForward ∧ OutKind.strokeReturn = .strokeReturn) ∨ _) i x
        have on : (x.strokeOn .strokeForward i).1.grantLaw := by
          unfold Station.grantLaw
          rw [s.1]
          refine law.lines ?_ ?_
          · intro j y
            rcases s.2.1 _ _ y with y | ⟨-, rfl, -⟩
            · exact law.forward j y
            · exact hold
          · rintro j ⟨y, z⟩
            have z' := (s.2.1 _ _ z).resolve_right (by rintro ⟨q, -⟩; cases q)
            rcases s.2.1 _ _ y with y' | ⟨-, ji, q⟩
            · exact law.apart j ⟨y', z'⟩
            · exact q (ji ▸ z')
        split
        · next y e =>
          have := s.2.2 (by rw [e])
          rw [e] at this
          simp only at this
          subst this
          exact ih (faultComp_law law _ _ cfg)
        · next y e =>
          rw [e] at on
          exact stageCooler_law (on.keep rfl rfl)
        · next y e =>
          rw [e] at on
          exact stageCooler_law on
    · exact h

theorem faultAndPass_law (h : d.grantLaw) (cause : CompCause) (i : Fin 4) (hc : d.gcc.comps[i].cfg ≠ none) :
    (d.faultAndPass cause i).grantLaw := passGrant_law 5 (faultComp_law h cause i hc)

/-- A compartment out of WAITING and FORWARD changes to another such state. -/
theorem quiet_law (h : d.grantLaw) (i : Fin 4) (f : Compartment → Compartment) (h1 : d.gcc.comps[i].state ≠ .forward)
    (h2 : d.gcc.comps[i].state ≠ .waiting) (f1 : (f d.gcc.comps[i]).state ≠ .forward) (f2 : (f d.gcc.comps[i]).state ≠ .waiting)
    (ft : (f d.gcc.comps[i]).timed) (fc : (f d.gcc.comps[i]).cfg = none → (f d.gcc.comps[i]).state = .stopped) :
    (d.onComp i f).grantLaw := by
  unfold Station.grantLaw
  rw [comps_onComp]
  exact GccLaw.quiet h i _ h1 h2 f1 f2 ft fc

/-- A compartment keeps state, timer, due time and settings. -/
theorem same_law (h : d.grantLaw) (i : Fin 4) (f : Compartment → Compartment) (h1 : ∀ c, (f c).state = c.state)
    (h2 : ∀ c, (f c).timer = c.timer) (h3 : ∀ c, (f c).due = c.due) (h4 : ∀ c, (f c).cfg = c.cfg) : (d.onComp i f).grantLaw := by
  unfold Station.grantLaw
  rw [comps_onComp]
  exact GccLaw.same h i _ (h1 _) (h2 _) (h3 _) (h4 _)

theorem grantLaw.untimed (h : d.grantLaw) {i : Fin 4} (h1 : d.gcc.comps[i].state ≠ .forward) (h2 : d.gcc.comps[i].state ≠ .dwell)
    (h3 : d.gcc.comps[i].state ≠ .returning) : d.gcc.comps[i].timer = none := by
  cases e : d.gcc.comps[i].timer with
  | none => rfl
  | some x =>
    have := h.timers i x.1 x.2 e
    split at this
    · exact (h1 this).elim
    · exact (h2 this).elim
    · exact (h3 this).elim

theorem startReturn_law (h : d.grantLaw) (i : Fin 4) (k : CompCfg) (hc : d.gcc.comps[i].cfg ≠ none)
    (h1 : d.gcc.comps[i].state ≠ .forward) (h2 : d.gcc.comps[i].state ≠ .waiting) : (d.startReturn i k).grantLaw := by
  unfold Station.startReturn
  dsimp only
  have law : (d.onComp i fun c => { c with state := .returning, timer := some (.returnLimit, d.inMs k.returnLimit) }).grantLaw := by
    refine quiet_law h i _ h1 h2 (by simp) (by simp) ?_ fun x => (hc x).elim
    intro t e x
    simp at x
    obtain ⟨rfl, -⟩ := x
    rfl
  have cfg : (d.onComp i fun c => { c with state := .returning, timer := some (.returnLimit, d.inMs k.returnLimit) }).gcc.comps[i].cfg ≠
      none := by simpa using hc
  generalize (d.onComp i fun c => { c with state := .returning, timer := some (.returnLimit, d.inMs k.returnLimit) }) = x at law cfg
  have s := strokeOn_on (.inr ⟨rfl, rfl⟩ : _ ∨ (OutKind.strokeReturn = .strokeReturn ∧ OutKind.strokeForward = .strokeForward)) i x
  have on : (x.strokeOn .strokeReturn i).1.grantLaw := by
    unfold Station.grantLaw
    rw [s.1]
    refine law.lines ?_ ?_
    · intro j y
      exact law.forward j ((s.2.1 _ _ y).resolve_right (by rintro ⟨q, -⟩; cases q))
    · rintro j ⟨y, z⟩
      have y' := (s.2.1 _ _ y).resolve_right (by rintro ⟨q, -⟩; cases q)
      rcases s.2.1 _ _ z with z' | ⟨-, ji, q⟩
      · exact law.apart j ⟨y', z'⟩
      · exact q (ji ▸ y')
  split
  · next y e =>
    have := s.2.2 (by rw [e])
    rw [e] at this
    simp only at this
    subst this
    exact faultAndPass_law law _ _ cfg
  · next y ans _ e =>
    rw [e] at on
    exact stageCooler_law on

/-- A compartment joins the queue and the grant passes. -/
theorem wait_law (h : d.grantLaw) (i : Fin 4) (hc : d.gcc.comps[i].cfg ≠ none) (h1 : d.gcc.comps[i].state ≠ .forward)
    (ht : d.gcc.comps[i].timer = none) : (d.wait i).grantLaw := by
  unfold Station.wait
  dsimp only
  refine stageCooler_law (passGrant_law 5 ?_)
  generalize hy : (d.onComp i fun c => { c with state := .waiting }) = y
  have yc : (fun j : Fin 4 => y.gcc.comps[j]) = withComp (fun j => d.gcc.comps[j]) i { d.gcc.comps[i] with state := .waiting } := by
    rw [← hy, comps_onComp]
  have ye : ∀ j : Fin 4, y.gcc.comps[j] = withComp (fun j => d.gcc.comps[j]) i { d.gcc.comps[i] with state := .waiting } j :=
    fun j => congrFun yc j
  have yq : y.gcc.queue = d.gcc.queue := by rw [← hy]; rfl
  have yh : y.gcc.holder = d.gcc.holder := by rw [← hy]; rfl
  have yd : y.dou = d.dou := by rw [← hy]; rfl
  have due : ∀ j : Fin 4, y.gcc.comps[j].due = d.gcc.comps[j].due := by
    intro j
    rw [ye]
    by_cases e : i = j
    · subst e; rw [withComp_same]
    · rw [withComp_ne _ _ e]
  have bef : ∀ x z : Fin 4, y.gcc.before x z = true ↔ (y.gcc.comps[x].due).getD 0 < (y.gcc.comps[z].due).getD 0 ∨
      ((y.gcc.comps[x].due).getD 0 = (y.gcc.comps[z].due).getD 0 ∧ x < z) := by
    intro x z
    simp [Gcc.before]
  have srt : (y.gcc.queue.filter (· != i)).Pairwise fun x z => (y.gcc.comps[x].due).getD 0 < (y.gcc.comps[z].due).getD 0 ∨
      ((y.gcc.comps[x].due).getD 0 = (y.gcc.comps[z].due).getD 0 ∧ x < z) := by
    simp only [due, yq]
    exact h.order.filter _
  unfold Station.grantLaw
  simp only [onGcc_fields]
  rw [strokeIsOn_congr (a := d) (k := .strokeForward) (by simp [yd]), strokeIsOn_congr (a := d) (k := .strokeReturn) (by simp [yd]), yc, yh]
  refine GccLaw.join h i { d.gcc.comps[i] with state := .waiting } _ h1 rfl ht hc ?_ ?_
  · intro j
    unfold Gcc.insert
    simp only [List.mem_append, List.mem_filter, List.mem_cons, yq]
    by_cases e : j = i
    · simp [e]
    · by_cases hb : y.gcc.before j i = true <;> simp [e, hb]
  · simp only [← ye]
    unfold Gcc.insert
    dsimp only
    rw [List.pairwise_append]
    refine ⟨srt.filter _, ?_, ?_⟩
    · rw [List.pairwise_cons]
      refine ⟨fun j hj => ?_, srt.filter _⟩
      obtain ⟨hj, nb⟩ := List.mem_filter.1 hj
      have ne : j ≠ i := by simpa using (List.mem_filter.1 hj).2
      have nb : ¬ y.gcc.before j i = true := by simpa using nb
      rw [bef] at nb
      omega
    · intro x hx z hz
      have bx := (bef x i).1 (List.mem_filter.1 hx).2
      rcases List.mem_cons.1 hz with rfl | hz
      · exact bx
      · obtain ⟨hz, nb⟩ := List.mem_filter.1 hz
        have ne : z ≠ i := by simpa using (List.mem_filter.1 hz).2
        have nb : ¬ y.gcc.before z i = true := by simpa using nb
        rw [bef] at nb
        omega

theorem rest_law (h : d.grantLaw) (i : Fin 4) (hc : d.gcc.comps[i].cfg ≠ none) (h1 : d.gcc.comps[i].state ≠ .forward)
    (h2 : d.gcc.comps[i].state ≠ .waiting) (ht : d.gcc.comps[i].timer = none) : (d.rest i).grantLaw := by
  unfold Station.rest
  dsimp only
  have law : (d.onComp i fun c => { c with state := .rest }).grantLaw := by
    refine quiet_law h i _ h1 h2 (by simp) (by simp) ?_ fun x => (hc x).elim
    intro t e x
    simp only at x
    rw [ht] at x
    cases x
  split
  · exact wait_law law i (by simpa using hc) (by simp) (by simpa using ht)
  · exact stageCooler_law law

theorem limitConflict_law (h : d.grantLaw) (i : Fin 4) (hc : d.gcc.comps[i].cfg ≠ none) : (d.limitConflict i).grantLaw := by
  unfold Station.limitConflict
  split
  · exact h
  · exact passGrant_law 5 (report_law (faultComp_law h _ _ hc) _ _ _)

/-- The holder of the grant leaves FORWARD, its line off, for a state of its own; the grant passes on. -/
theorem released_law (h : d.grantLaw) (i : Fin 4) (f : Compartment → Compartment) (g : Station → Station)
    (hg : ∀ x, (g x).gcc = x.gcc ∧ (g x).dou = x.dou) (h1 : d.gcc.comps[i].state = .forward)
    (f1 : (f d.gcc.comps[i]).state ≠ .forward) (f2 : (f d.gcc.comps[i]).state ≠ .waiting) (ft : (f d.gcc.comps[i]).timed)
    (fc : (f d.gcc.comps[i]).cfg = d.gcc.comps[i].cfg) :
    let y := (g ((d.strokeOff .strokeForward i).onComp i f)).releaseGrant i
    y.grantLaw ∧ y.gcc.comps[i] = f d.gcc.comps[i] := by
  intro y
  have o := strokeOff_on (.inl rfl : OutKind.strokeForward = .strokeForward ∨ _) i d
  have hi : d.gcc.holder = some i := (h.grant i).2 h1
  have nq : i ∉ d.gcc.queue := by
    intro hq
    have := (h.waits i).1 hq
    simp only [h1] at this
    cases this
  obtain ⟨x, hx⟩ : ∃ x, g ((d.strokeOff .strokeForward i).onComp i f) = x := ⟨_, rfl⟩
  have xg : x.gcc = ((d.strokeOff .strokeForward i).onComp i f).gcc := by rw [← hx, (hg _).1]
  have xd : x.dou = (d.strokeOff .strokeForward i).dou := by rw [← hx, (hg _).2]; rfl
  have xh : x.gcc.holder = some i := by rw [xg]; simp [strokeOff_gcc, hi]
  have xc : (fun j : Fin 4 => x.gcc.comps[j]) = withComp (fun j => d.gcc.comps[j]) i (f d.gcc.comps[i]) := by
    rw [xg, comps_onComp, strokeOff_gcc]
  have hy : y = (x.onGcc fun g => { g with holder := none }).grant := by
    simp only [y, hx, Station.releaseGrant]
    rw [if_pos xh]
  have law : (x.onGcc fun g => { g with holder := none }).grantLaw := by
    unfold Station.grantLaw
    simp only [onGcc_fields]
    rw [xc]
    rw [strokeIsOn_congr (a := d.strokeOff .strokeForward i) (k := .strokeForward) (by simp [xd]),
      strokeIsOn_congr (a := d.strokeOff .strokeForward i) (k := .strokeReturn) (by simp [xd])]
    have xq : x.gcc.queue = d.gcc.queue := by rw [xg]; simp [strokeOff_gcc]
    rw [xq]
    exact (h.off (fun j x => o.1 _ _ x) (fun j x => o.1 _ _ x)).release i _ h1 o.2 f1 f2 ft fc
  refine ⟨by rw [hy]; exact passGrant_law 5 law, ?_⟩
  rw [hy]
  have kp := (KeepsComp.refl i (x.onGcc fun g => { g with holder := none })).passGrant 5 (by simpa [xg, strokeOff_gcc] using nq)
  have := kp.comp
  rw [Station.grant, this]
  have := congrFun xc i
  simp only [withComp_same] at this
  exact this

/-- A compartment that has entered DWELL begins its dwell, or its return where it has none. -/
theorem dwell_law (h : d.grantLaw) (i : Fin 4) (k : CompCfg) (hc : d.gcc.comps[i].cfg ≠ none) (h1 : d.gcc.comps[i].state = .dwell) :
    (if k.dwell = 0 then d.startReturn i k
      else (d.onComp i fun c => { c with timer := some (.dwell, d.inMs k.dwell) }).stageCooler).grantLaw := by
  split
  · exact startReturn_law h i k hc (by rw [h1]; simp) (by rw [h1]; simp)
  · refine stageCooler_law (quiet_law h i _ (by rw [h1]; simp) (by rw [h1]; simp) (by simp only [h1]; simp) (by simp only [h1]; simp) ?_ ?_)
    · intro t n x
      simp at x
      obtain ⟨rfl, -⟩ := x
      exact h1
    · intro x; exact (hc x).elim

theorem endForward_law (h : d.grantLaw) (i : Fin 4) (k : CompCfg) (hc : d.gcc.comps[i].cfg ≠ none)
    (h1 : d.gcc.comps[i].state = .forward) : (d.endForward i k).grantLaw := by
  obtain ⟨law, e⟩ := released_law h i (fun c => { c with state := .dwell, timer := none }) id (fun _ => ⟨rfl, rfl⟩) h1 (by simp) (by simp)
    (by intro t e x; cases x) rfl
  exact dwell_law law i k (by rw [id] at e; rw [id, e]; exact hc) (by rw [id] at e; rw [id, e])

theorem endReturn_law (h : d.grantLaw) (i : Fin 4) (hc : d.gcc.comps[i].cfg ≠ none) (h1 : d.gcc.comps[i].state = .returning) :
    (d.endReturn i).grantLaw := by
  unfold Station.endReturn
  dsimp only
  have o := strokeOff_on (.inr rfl : OutKind.strokeReturn = .strokeForward ∨ _) i d
  have l0 : (d.strokeOff .strokeReturn i).grantLaw := by
    unfold Station.grantLaw
    rw [strokeOff_gcc]
    exact h.off (fun j x => o.1 _ _ x) (fun j x => o.1 _ _ x)
  have g0 : (d.strokeOff .strokeReturn i).gcc = d.gcc := strokeOff_gcc _ _ _
  have law : ((d.strokeOff .strokeReturn i).onComp i fun c => { c with timer := none }).grantLaw :=
    quiet_law l0 i _ (by rw [g0, h1]; simp) (by rw [g0, h1]; simp) (by simp only [g0, h1]; simp) (by simp only [g0, h1]; simp)
      (by intro t e x; cases x) (by rw [g0]; intro x; exact (hc x).elim)
  have st : ((d.strokeOff .strokeReturn i).onComp i fun c => { c with timer := none }).gcc.comps[i] =
      { d.gcc.comps[i] with timer := none } := by
    have := congrFun (comps_onComp i (fun c => { c with timer := none }) (d.strokeOff .strokeReturn i)) i
    simp only [withComp_same, g0] at this
    exact this
  generalize (d.strokeOff .strokeReturn i).onComp i (fun c => { c with timer := none }) = y at law st
  have c' : y.gcc.comps[i].cfg ≠ none := by rw [st]; exact hc
  have ys : y.gcc.comps[i].state = .returning := by rw [st]; exact h1
  split
  · exact faultAndPass_law law _ _ c'
  · split
    · refine stageCooler_law (quiet_law law i _ (by rw [ys]; simp) (by rw [ys]; simp) (by simp) (by simp) ?_ (fun _ => rfl))
      intro t e x
      rw [st] at x
      cases x
    · exact rest_law law i c' (by rw [ys]; simp) (by rw [ys]; simp) (by rw [st])

/-! ## The commands of the cooler -/

theorem answer_law (h : d.grantLaw) (c : RespCode) (r : Byte) (l : List Byte) : (d.answer c r l).grantLaw := by
  exact h.keep rfl rfl

theorem compRequest_law (comp : Byte) (f : Fin 4 → CompCfg → Station → Station)
    (hf : ∀ i k, d.gcc.comps[i].cfg = some k → (f i k d).grantLaw) (h : d.grantLaw) : (d.compRequest comp f).grantLaw := by
  unfold Station.compRequest Station.coolerRequest
  split
  · exact answer_law h _ _ _
  · split
    · exact answer_law h _ _ _
    · dsimp only
      split
      · exact answer_law h _ _ _
      · next i k e =>
        apply hf
        unfold Station.compIdx at e
        split at e
        · simp only [Option.map_eq_some_iff, Prod.mk.injEq] at e
          obtain ⟨c, e, rfl, rfl⟩ := e
          exact e
        · cases e

theorem grantLaw.mem_state (h : d.grantLaw) {i : Fin 4} (e : d.gcc.comps[i].state ≠ .waiting) : i ∉ d.gcc.queue :=
  fun q => e ((h.waits i).1 q)

theorem coolerEnable_law (h : d.grantLaw) (i : Fin 4) (k : CompCfg) (hk : d.gcc.comps[i].cfg = some k) :
    (let c := d.gcc.comps[i]
    if c.state = .stopped then
      if d.lineActive .estop then d.refuse .estop
      else ((d.onComp i fun c => { c with due := some d.now }).rest i).ok
    else if c.state.inStroke && c.stopAtEnd then (d.onComp i fun c => { c with stopAtEnd := false }).ok
    else d.wrongState).grantLaw := by
  dsimp only
  split
  · next e =>
    split
    · exact answer_law h _ _ _
    · have ht := h.untimed (i := i) (by rw [e]; simp) (by rw [e]; simp) (by rw [e]; simp)
      refine answer_law (rest_law (quiet_law h i _ (by rw [e]; simp) (by rw [e]; simp) (by simp only [e]; simp) (by simp only [e]; simp) ?_
        (fun _ => e)) i ?_ ?_ ?_ ?_) _ _ _
      · intro t n x
        simp only [ht] at x
        cases x
      · simpa using by rw [Fin.getElem_fin] at hk; simp [hk]
      · simpa using by rw [Fin.getElem_fin] at e; simp [e]
      · simpa using by rw [Fin.getElem_fin] at e; simp [e]
      · simpa using ht
  · split
    · exact answer_law (same_law h i (fun c => { c with stopAtEnd := false })
        (fun _ => rfl) (fun _ => rfl) (fun _ => rfl) (fun _ => rfl)) _ _ _
    · exact answer_law h _ _ _

theorem coolerDisable_law (h : d.grantLaw) (i : Fin 4) :
    (match d.gcc.comps[i].state with
    | .stopped => d.ok
    | .rest => ((d.onComp i fun c => { c with state := .stopped, due := none }).stageCooler).ok
    | .waiting =>
      (((d.onComp i fun c => { c with state := .stopped }).onGcc fun g =>
        { g with queue := g.queue.filter (· != i) }).stageCooler).ok
    | .fault => d.wrongState
    | _ => (d.onComp i fun c => { c with stopAtEnd := true }).ok).grantLaw := by
  split
  · exact answer_law h _ _ _
  · next e =>
    have ht := h.untimed (i := i) (by rw [e]; simp) (by rw [e]; simp) (by rw [e]; simp)
    refine answer_law (stageCooler_law (quiet_law h i _ (by rw [e]; simp) (by rw [e]; simp) (by simp) (by simp) ?_ fun _ => rfl)) _ _ _
    intro t n x
    simp only [ht] at x
    cases x
  · next e =>
    have ht := h.untimed (i := i) (by rw [e]; simp) (by rw [e]; simp) (by rw [e]; simp)
    refine answer_law (stageCooler_law ?_) _ _ _
    have nh : d.gcc.holder ≠ some i := by
      intro q
      have := (h.grant i).1 q
      rw [e] at this
      cases this
    have l := GccLaw.leave h i { d.gcc.comps[i] with state := .stopped } (fun x => nh (h.forward i x)) (by simp) (by simp)
      (by intro t n x; simp only [ht] at x; cases x) (fun _ => rfl)
    rw [if_neg nh] at l
    unfold Station.grantLaw
    simp only [onGcc_fields]
    rw [comps_onComp]
    exact l
  · exact answer_law h _ _ _
  · exact answer_law (same_law h i (fun c => { c with stopAtEnd := true })
      (fun _ => rfl) (fun _ => rfl) (fun _ => rfl) (fun _ => rfl)) _ _ _

theorem grateClear_law (h : d.grantLaw) (i : Fin 4) (e : d.gcc.comps[i].state = .fault) :
    ((((d.onComp i fun c => { c with state := .stopped, cause := .none }).reportTimeout i false).reportConflict i
      false).stageCooler).ok.grantLaw := by
  have ht := h.untimed (i := i) (by rw [e]; simp) (by rw [e]; simp) (by rw [e]; simp)
  refine answer_law (stageCooler_law (report_law (report_law (quiet_law h i _ (by rw [e]; simp) (by rw [e]; simp) (by simp) (by simp) ?_
    fun _ => rfl) _ _ _) _ _ _)) _ _ _
  intro t n x
  simp only [ht] at x
  cases x

theorem forwardLimit_law (h : d.grantLaw) (i : Fin 4) (k : CompCfg) (hc : d.gcc.comps[i].cfg ≠ none)
    (r : d.gcc.comps[i].runs .forwardLimit = true) :
    ((((d.strokeOff .strokeForward i).onComp i fun c =>
      { c with faultPending := true, cause := .strokeTimeout, state := .returning, timer := none }).reportTimeout i true).releaseGrant
        i |>.startReturn i k).grantLaw := by
  have h1 : d.gcc.comps[i].state = .forward := by
    unfold Compartment.runs at r
    split at r
    · next t e q =>
      have := h.timers i t e q
      simp only [beq_iff_eq] at r
      subst r
      exact this
    · cases r
  obtain ⟨law, e⟩ := released_law h i
    (fun c => { c with faultPending := true, cause := .strokeTimeout, state := .returning, timer := none })
    (fun x => x.reportTimeout i true) (fun x => ⟨(report_only _ _ _ x).gcc, (report_only _ _ _ x).dou⟩) h1 (by simp) (by simp)
    (by intro t e x; cases x) rfl
  exact startReturn_law law i k (by rw [e]; exact hc) (by rw [e]; simp) (by rw [e]; simp)

theorem returnLimit_law (h : d.grantLaw) (i : Fin 4) (r : d.gcc.comps[i].runs .returnLimit = true) :
    (((d.faultComp .strokeTimeout i).reportTimeout i true).grant).grantLaw := by
  refine passGrant_law 5 (report_law (faultComp_law h _ _ ?_) _ _ _)
  intro c
  unfold Compartment.runs at r
  split at r
  · next t e q =>
    have := h.timers i t e q
    have a := h.absent i c
    simp only [beq_iff_eq] at r
    subst r
    rw [this] at a
    cases a
  · cases r

/-- What an entry to FAULT leaves of the cooler's record and of the lines. -/
theorem faultComp_parts (cause : CompCause) (i : Fin 4) (d : Station) :
    (d.faultComp cause i).gcc = { d.gcc with
      comps := vecModify d.gcc.comps i fun c => { c with
        state := .fault, cause := cause, timer := none
        faultPending := cause == .estop && c.faultPending, stopAtEnd := cause == .estop && c.stopAtEnd }
      queue := d.gcc.queue.filter (· != i), holder := if d.gcc.holder = some i then none else d.gcc.holder } ∧
    (d.faultComp cause i).dou = ((d.strokeOff .strokeForward i).strokeOff .strokeReturn i).dou := by
  have tail : ∀ e : Station, (if cause = .estop then (e.reportTimeout i false).reportConflict i false else e).stageCooler.gcc = e.gcc ∧
      (if cause = .estop then (e.reportTimeout i false).reportConflict i false else e).stageCooler.dou = e.dou := by
    intro e
    rw [stageCooler_rest]
    split
    · exact ⟨(report_only _ _ _ _).gcc.trans (report_only _ _ _ _).gcc, (report_only _ _ _ _).dou.trans (report_only _ _ _ _).dou⟩
    · exact ⟨rfl, rfl⟩
  have e1 : ((d.strokeOff .strokeForward i).strokeOff .strokeReturn i).gcc = d.gcc := by rw [strokeOff_gcc, strokeOff_gcc]
  unfold Station.faultComp
  dsimp only
  rw [(tail _).1, (tail _).2]
  constructor
  · split <;> simp [e1]
  · split <;> simp

/-- A compartment stands in FAULT without a timer, its FORWARD line off. -/
def faulted (x : Station) (j : Fin 4) : Prop :=
  x.gcc.comps[j].state = .fault ∧ x.gcc.comps[j].timer = none ∧ ¬ x.strokeIsOn .strokeForward j

/-- An emergency stop under way: grant and queue are empty, no line is on that was off, and every compartment stands as it was or, being
configured, in FAULT. -/
structure Stopping (d x : Station) : Prop where
  grant : x.gcc.holder = none
  waits : x.gcc.queue = []
  lines : ∀ k, (k = .strokeForward ∨ k = .strokeReturn) → ∀ j, x.strokeIsOn k j → d.strokeIsOn k j
  cfg : ∀ j : Fin 4, x.gcc.comps[j].cfg = d.gcc.comps[j].cfg
  comps : ∀ j : Fin 4, x.gcc.comps[j] = d.gcc.comps[j] ∨ (d.gcc.comps[j].cfg ≠ none ∧ x.faulted j)

theorem Stopping.fault {d x : Station} (h : Stopping d x) (i : Fin 4) (hc : d.gcc.comps[i].cfg ≠ none) :
    Stopping d (x.faultComp .estop i) ∧ (x.faultComp .estop i).faulted i ∧
      ∀ j : Fin 4, x.faulted j → (x.faultComp .estop i).faulted j := by
  have p := faultComp_parts .estop i x
  have o1 := strokeOff_on (.inl rfl : OutKind.strokeForward = .strokeForward ∨ _) i x
  have o2 := strokeOff_on (.inr rfl : OutKind.strokeReturn = .strokeForward ∨ _) i (x.strokeOff .strokeForward i)
  have on : ∀ k j, (x.faultComp .estop i).strokeIsOn k j → x.strokeIsOn k j := by
    intro k j q
    rw [strokeIsOn_congr p.2] at q
    exact o1.1 _ _ (o2.1 _ _ q)
  have noti : ¬ (x.faultComp .estop i).strokeIsOn .strokeForward i := by
    intro q
    rw [strokeIsOn_congr p.2] at q
    exact o1.2 (o2.1 _ _ q)
  have at_i : (x.faultComp .estop i).gcc.comps[i].state = .fault ∧ (x.faultComp .estop i).gcc.comps[i].timer = none ∧
      (x.faultComp .estop i).gcc.comps[i].cfg = x.gcc.comps[i].cfg := by
    simp [p.1, vecModify_get]
  have other : ∀ j : Fin 4, i ≠ j → (x.faultComp .estop i).gcc.comps[j] = x.gcc.comps[j] := by
    intro j ne
    simp [p.1, vecModify_get, Fin.val_inj, ne]
  have fi : (x.faultComp .estop i).faulted i := ⟨at_i.1, at_i.2.1, noti⟩
  have fj : ∀ j : Fin 4, x.faulted j → (x.faultComp .estop i).faulted j := by
    intro j q
    by_cases ne : i = j
    · subst ne; exact fi
    · exact ⟨by rw [other j ne]; exact q.1, by rw [other j ne]; exact q.2.1, fun z => q.2.2 (on _ _ z)⟩
  refine ⟨⟨by simp [p.1, h.grant], by simp [p.1, h.waits], fun k hk j q => h.lines k hk j (on k j q), fun j => ?_, fun j => ?_⟩, fi, fj⟩
  · by_cases ne : i = j
    · subst ne; rw [at_i.2.2]; exact h.cfg i
    · rw [other j ne]; exact h.cfg j
  · by_cases ne : i = j
    · subst ne; exact .inr ⟨hc, fi⟩
    · rw [other j ne]
      exact (h.comps j).imp_right fun q => ⟨q.1, fj j q.2⟩

theorem Stopping.fold {d : Station} (l : List (Fin 4)) {x : Station} (h : Stopping d x) :
    let y := l.foldl (fun d i => if d.gcc.comps[i].cfg.isSome then d.faultComp .estop i else d) x
    Stopping d y ∧ (∀ j, x.faulted j → y.faulted j) ∧ ∀ j ∈ l, d.gcc.comps[j].cfg ≠ none → y.faulted j := by
  induction l generalizing x with
  | nil => exact ⟨h, fun _ q => q, by simp⟩
  | cons i l ih =>
    rw [List.foldl_cons]
    by_cases hc : x.gcc.comps[i].cfg.isSome = true
    · rw [if_pos hc]
      obtain ⟨s, fi, fj⟩ := h.fault i (by rw [← h.cfg i]; exact Option.isSome_iff_ne_none.1 hc)
      obtain ⟨a, b, c⟩ := ih s
      refine ⟨a, fun j q => b j (fj j q), fun j hj cj => ?_⟩
      rcases List.mem_cons.1 hj with rfl | hj
      · exact b _ fi
      · exact c j hj cj
    · rw [if_neg hc]
      obtain ⟨a, b, c⟩ := ih h
      refine ⟨a, b, fun j hj cj => ?_⟩
      rcases List.mem_cons.1 hj with rfl | hj
      · rw [h.cfg j] at hc
        exact (hc (Option.isSome_iff_ne_none.2 cj)).elim
      · exact c j hj cj

theorem Stopping.law {d y : Station} (h : d.grantLaw) (s : Stopping d y) (f : ∀ j : Fin 4, d.gcc.comps[j].cfg ≠ none → y.faulted j) :
    y.grantLaw := by
  have all : ∀ j : Fin 4, (y.gcc.comps[j].state = .stopped ∨ (y.gcc.comps[j].state = .fault ∧ y.gcc.comps[j].cfg ≠ none)) ∧
      y.gcc.comps[j].timer = none ∧ ¬ y.strokeIsOn .strokeForward j := by
    intro j
    by_cases c : d.gcc.comps[j].cfg = none
    · have st := h.absent j c
      have e := (s.comps j).resolve_right fun q => q.1 c
      rw [e]
      refine ⟨.inl st, h.untimed (by rw [st]; simp) (by rw [st]; simp) (by rw [st]; simp), fun q => ?_⟩
      have := (h.grant j).1 (h.forward j (s.lines _ (.inl rfl) j q))
      rw [st] at this
      cases this
    · have := f j c
      exact ⟨.inr ⟨this.1, by rw [s.cfg]; exact c⟩, this.2.1, this.2.2⟩
  refine ⟨fun j q => ((all j).2.2 q).elim, fun j q => (all j).2.2 q.1, fun j => ?_, fun j => ?_, ?_, fun j t e x => ?_, fun j x => ?_⟩
  · rw [s.grant]
    refine iff_of_false (by simp) ?_
    rcases (all j).1 with a | a
    · rw [a]; simp
    · rw [a.1]; simp
  · rw [s.waits]
    refine iff_of_false (by simp) ?_
    rcases (all j).1 with a | a
    · rw [a]; simp
    · rw [a.1]; simp
  · rw [s.waits]; exact .nil
  · rw [(all j).2.1] at x; cases x
  · rcases (all j).1 with a | a
    · exact a
    · exact (a.2 x).elim

/-- The emergency stop, compartment after compartment, with queue and grant empty. -/
theorem estop_law (h : d.grantLaw) :
    (forAll (fun i d => if d.gcc.comps[i].cfg.isSome then d.faultComp .estop i else d)
      (d.onGcc fun g => { g with holder := none, queue := [] })).grantLaw := by
  have s : Stopping d (d.onGcc fun g => { g with holder := none, queue := [] }) :=
    ⟨rfl, rfl, fun _ _ _ q => q, fun _ => rfl, fun _ => .inl rfl⟩
  obtain ⟨a, -, c⟩ := s.fold (List.finRange 4)
  exact a.law h fun j => c j (List.mem_finRange j)

end Station

end Sys2Proof.Machine
end

