-- ==== Sys2Proof/Laws/Loop.lean ====
section
/-! SUPPORT. What the Loop Controller's operations change: marks and trains as bytes, the slot positions of an arrival, what notices
and heads reach, and the own slot. -/

namespace Sys2Proof.Machine

/-! ## Station numbers -/

theorem stationByte_pos (i : Fin 16) : 1 ≤ (stationByte i).toNat := by revert i; decide
theorem stationByte_le (i : Fin 16) : (stationByte i).toNat ≤ 16 := by revert i; decide

theorem stationIdx_stationByte (i : Fin 16) : stationIdx (stationByte i) = some i := by revert i; decide

/-! ## Frames -/

/-- A claim mark that is not damaged is read as it was sent. -/
theorem readClaimMark_mark {r s h : Byte} (hr : r.toNat ≤ 14) (h1 : 1 ≤ s.toNat) (h2 : s.toNat ≤ 16) (hh : h.toNat ≤ 15) :
    readClaimMark (withCheck [2, r, s, h]).tail = some { rank := r, station := s, hops := h } := by
  simp [withCheck, byte16, readClaimMark, goodStation, hr, h1, h2, hh]

/-- A break mark that is not damaged is read as it was sent. -/
theorem readBreakMark_mark {s h : Byte} (h1 : 1 ≤ s.toNat) (h2 : s.toNat ≤ 16) (hh : h.toNat ≤ 15) :
    readBreakMark (withCheck [3, s, h, 0]).tail = some { station := s, hops := h } := by
  simp [withCheck, byte16, readBreakMark, goodStation, h1, h2, hh]

theorem splitSlots_length (k : Nat) (l : List Byte) : (splitSlots k l).1.length = k := by
  induction k generalizing l with
  | zero => rfl
  | succ k ih =>
    cases l with
    | nil => simp [splitSlots, ih]
    | cons n rest => simp only [splitSlots]; split <;> simp [ih]

theorem splitSlots_flatten (k : Nat) (l : List Byte) : (splitSlots k l).1.flatten ++ (splitSlots k l).2 = l := by
  induction k generalizing l with
  | zero => simp [splitSlots]
  | succ k ih =>
    cases l with
    | nil => simpa [splitSlots] using ih []
    | cons n rest => simp only [splitSlots]; split <;> simp [ih]

/-- A train repeated with the slots it came with is the train. -/
theorem frame_readTrain (body : List Byte) : (readTrain body).frame (readTrain body).slots = 1 :: body := by
  have := splitSlots_flatten 16 (body.drop 14)
  simp only [Train.frame, readTrain, List.append_assoc, List.cons_append]
  rw [this]; simp

/-! ## What notices and heads reach -/

/-- All that the second station may differ in from the first is the Alarm Unit, the Shift Report Unit, the notice queue, their pieces
of the staging record, the host events and internal events raised after those that stood. -/
structure FloorOnly (a b : Station) : Prop where
  signals : a.signals <+: b.signals
  events : a.ppt.events &&& b.ppt.events = a.ppt.events
  rest : b = { a with
    signals := b.signals, alm := b.alm, sru := b.sru, ppt := { a.ppt with events := b.ppt.events }
    lpc := { a.lpc with queue := b.lpc.queue
                        staging := { a.lpc.staging with
                          alarm := b.lpc.staging.alarm, summary := b.lpc.staging.summary
                          openShift := b.lpc.staging.openShift, closing := b.lpc.staging.closing } } }

theorem FloorOnly.refl (d : Station) : FloorOnly d d := ⟨List.prefix_refl _, BitVec.and_self, rfl⟩

theorem FloorOnly.trans {a b c : Station} (h : FloorOnly a b) (k : FloorOnly b c) : FloorOnly a c :=
  ⟨h.signals.trans k.signals, events_trans h.events k.events, by rw [k.rest, h.rest]⟩

theorem AlarmsOnly.floorOnly {a b : Station} (h : AlarmsOnly a b) : FloorOnly a b :=
  ⟨h.signals, h.events, by rw [h.rest]⟩

theorem FloorOnly.own {a b : Station} (h : FloorOnly a b) : b.own = a.own := by rw [h.rest]; rfl

theorem FloorOnly.post {a b : Station} (h : FloorOnly a b) (e : HostEvent) : FloorOnly a (b.post e) :=
  h.trans ⟨by simp, by simp, rfl⟩

/-! ## What the Shift Report Unit's operations change -/

/-- All that the second station may differ in from the first is the Shift Report Unit, its two pieces of the staging record and the
host events. -/
structure ShiftOnly (a b : Station) : Prop where
  events : a.ppt.events &&& b.ppt.events = a.ppt.events
  rest : b = { a with
    sru := b.sru, ppt := { a.ppt with events := b.ppt.events }
    lpc := { a.lpc with
      staging := { a.lpc.staging with
        openShift := b.lpc.staging.openShift, closing := b.lpc.staging.closing } } }

theorem ShiftOnly.refl (d : Station) : ShiftOnly d d := ⟨BitVec.and_self, rfl⟩

theorem ShiftOnly.trans {a b c : Station} (h : ShiftOnly a b) (k : ShiftOnly b c) : ShiftOnly a c :=
  ⟨events_trans h.events k.events, by rw [k.rest, h.rest]⟩

theorem ShiftOnly.floorOnly {a b : Station} (h : ShiftOnly a b) : FloorOnly a b :=
  ⟨by rw [h.rest], h.events, by rw [h.rest]⟩

theorem ShiftOnly.post {a b : Station} (h : ShiftOnly a b) (e : HostEvent) : ShiftOnly a (b.post e) := h.trans ⟨by simp, rfl⟩

theorem ShiftOnly.onSru {a b : Station} (h : ShiftOnly a b) (f : Sru → Sru) : ShiftOnly a (b.onSru f) := h.trans ⟨by simp, rfl⟩

theorem ShiftOnly.openShift {a b : Station} (h : ShiftOnly a b) (n : Half) : ShiftOnly a (b.openShift n) := h.trans ⟨by simp [Station.openShift], rfl⟩

theorem ShiftOnly.completeReport {a b : Station} (h : ShiftOnly a b) : ShiftOnly a b.completeReport := by
  unfold Station.completeReport
  split
  · exact (h.onSru _).post _
  · exact h

theorem ShiftOnly.stageClosing {a b : Station} (h : ShiftOnly a b) (c : ClosingPart) :
    ShiftOnly a (b.onStaging fun g => { g with closing := some c }) := h.trans ⟨by simp, rfl⟩

theorem ShiftOnly.closeShift {a b : Station} (h : ShiftOnly a b) (c : CloseCause) (n : Half) :
    ShiftOnly a (b.closeShift c n) := by
  unfold Station.closeShift
  dsimp only
  split
  · exact (((h.completeReport.onSru _).post _).stageClosing _).openShift n
  · exact ((h.completeReport.onSru _).stageClosing _).openShift n

theorem ShiftOnly.adoptShift {a b : Station} (h : ShiftOnly a b) (n : Half) : ShiftOnly a (b.adoptShift n) :=
  (h.onSru _).openShift n

theorem ShiftOnly.takeHead {a b : Station} (h : ShiftOnly a b) (t : Word) (n : Half) : ShiftOnly a (b.takeHead t n) := by
  have k := h.onSru (fun r => { r with time := t })
  unfold Station.takeHead
  dsimp only
  repeat' split
  all_goals first
    | with_reducible exact k
    | with_reducible exact k.adoptShift n
    | with_reducible exact (k.closeShift _ n).onSru _
    | with_reducible exact k.onSru _

theorem ShiftOnly.converge {a b : Station} (h : ShiftOnly a b) : ShiftOnly a b.converge := by
  unfold Station.converge
  dsimp only
  repeat' split
  all_goals first
    | with_reducible exact h.adoptShift _
    | with_reducible exact h.closeShift _ _
    | with_reducible exact h.onSru _

theorem ShiftOnly.crossing {a b : Station} (h : ShiftOnly a b) : ShiftOnly a b.crossing := by
  unfold Station.crossing
  repeat' split
  all_goals first
    | with_reducible exact h
    | with_reducible exact h.closeShift _ _

theorem ShiftOnly.applyTimeSet {a b : Station} (h : ShiftOnly a b) (t : Word) : ShiftOnly a (b.applyTimeSet t) := by
  have k := h.onSru (fun r => { r with time := t })
  unfold Station.applyTimeSet
  dsimp only
  split
  · exact k.crossing
  · exact k

/-- A close keeps the floor time. -/
theorem closeShift_time (c : CloseCause) (n : Half) (d : Station) : (d.closeShift c n).sru.time = d.sru.time := by
  have k : d.completeReport.sru.time = d.sru.time := by
    unfold Station.completeReport
    split <;> simp [Sru.setNewest]
  unfold Station.closeShift
  dsimp only
  split <;> simp [Station.openShift, k]

/-- The convergence at a release keeps the floor time. -/
theorem converge_time (d : Station) : d.converge.sru.time = d.sru.time := by
  unfold Station.converge
  dsimp only
  repeat' split
  · simp [Station.adoptShift, Station.openShift]
  · exact closeShift_time _ _ _
  · rfl

/-! ## What notices reach -/

theorem FloorOnly.takeHead {a b : Station} (h : FloorOnly a b) (t : Word) (n : Half) : FloorOnly a (b.takeHead t n) :=
  h.trans (ShiftOnly.takeHead (.refl b) t n).floorOnly

theorem FloorOnly.applyTimeSet {a b : Station} (h : FloorOnly a b) (t : Word) : FloorOnly a (b.applyTimeSet t) :=
  h.trans (ShiftOnly.applyTimeSet (.refl b) t).floorOnly

theorem FloorOnly.onAlm {a b : Station} (h : FloorOnly a b) (f : Alm → Alm) : FloorOnly a (b.onAlm f) :=
  h.trans ⟨by simp, by simp, rfl⟩

theorem FloorOnly.setMirror {a b : Station} (h : FloorOnly a b) (m : List MirrorEntry) : FloorOnly a (b.setMirror m) := by
  unfold Station.setMirror
  split
  · exact h
  · exact (h.onAlm _).post _

theorem FloorOnly.checkEpoch {a b : Station} (h : FloorOnly a b) (i : Fin 16) : FloorOnly a (b.checkEpoch i) := by
  unfold Station.checkEpoch
  dsimp only
  repeat' split
  all_goals first
    | with_reducible exact h
    | with_reducible exact h.onAlm _
    | with_reducible exact (h.setMirror _).onAlm _

theorem FloorOnly.applyAlarm {a b : Station} (h : FloorOnly a b) (i : Fin 16) (x : AlarmBody) :
    FloorOnly a (b.applyAlarm i x) := by
  have k := h.checkEpoch i
  unfold Station.applyAlarm
  dsimp only
  repeat' split
  all_goals first
    | with_reducible exact k
    | with_reducible exact k.setMirror _
    | with_reducible exact k.onAlm _

/-- A notice taken reaches the Alarm Unit and the Shift Report Unit alone. -/
theorem FloorOnly.applyNotice {a b : Station} (h : FloorOnly a b) (i : Fin 16) (x : NoticeBody) :
    FloorOnly a (b.applyNotice i x) := by
  unfold Station.applyNotice
  repeat' split
  all_goals first
    | with_reducible exact h
    | with_reducible exact h.applyAlarm _ _
    | with_reducible exact h.trans ((MovesPoints.refl _).applyAck _ _).only.floorOnly
    | with_reducible exact h.applyTimeSet _

/-- CONFIG MISMATCH judged: the condition stands as the signatures compare, and nothing else moves but alarms. -/
theorem judgeConfig_spec (sig : Half) (d : Station) :
    AlarmsOnly d (d.judgeConfig sig) ∧ (d.judgeConfig sig).condition .configMismatch 0 = (sig != d.ownSig) := by
  unfold Station.judgeConfig
  dsimp only
  split
  · exact ⟨(report_only .configMismatch 0 (sig != d.ownSig) d).trans ⟨by simp, by simp, rfl⟩, report_condition ..⟩
  · exact ⟨report_only .., report_condition ..⟩

/-! ## The slot positions of an arrival -/

/-- An entry of the floor image table after the peer's slot position (R7). -/
def entryAfter (v : SlotView) (e : FloorEntry) : FloorEntry :=
  match v with
  | .pass g => e.take g
  | _ => e.older

/-- A slot position as it goes on from a station that takes notices (R51). -/
def slotAfter (own : Fin 16) (v : SlotView) (raw : List Byte) : List Byte :=
  match v with
  | .pass g => markSlot own g raw
  | _ => raw

/-- A slot position goes on from a station that takes notices as slotAfter says. -/
theorem onwardSlot_eq (own i : Fin 16) (raw : List Byte) : onwardSlot own i raw = slotAfter own (viewSlot i raw) raw := by
  unfold onwardSlot slotAfter
  generalize viewSlot i raw = v
  cases v <;> rfl

/-- A sender's taken list after its slot position (R52). -/
def takenAfter (v : SlotView) (old : List Byte) : List Byte :=
  match v with
  | .pass g => g.notices.map (·.seq)
  | _ => old

/-- A peer's slot position fails (R6). -/
def failsAt (own : Fin 16) (slots : List (List Byte)) (i : Fin 16) : Bool :=
  i != own && viewSlot i (slots.getD i.val []) == .fail

/-- All that taking slot positions changes besides what FloorOnly names: entries, taken lists and slot errors. -/
structure TakesPositions (notices : Bool) (slots : List (List Byte)) (l : List (Fin 16)) (a : Station)
    (r : Station × List (List Byte)) : Prop where
  rest : FloorOnly { a with lpc := { a.lpc with
    floor := r.1.lpc.floor
    taken := r.1.lpc.taken
    counters := { a.lpc.counters with
      slotErrors := Counter.bump^[(l.filter fun i => failsAt a.own slots i).length] a.lpc.counters.slotErrors } } } r.1
  quiet : notices = false → r.1.alm = a.alm ∧ r.1.sru = a.sru ∧ r.1.lpc.queue = a.lpc.queue ∧
    r.1.lpc.staging = a.lpc.staging ∧ r.1.ppt = a.ppt ∧ r.1.signals = a.signals ∧ r.1.lpc.taken = a.lpc.taken
  entry : ∀ j : Fin 16, r.1.lpc.floor[j] =
    if j ∈ l ∧ j ≠ a.own then entryAfter (viewSlot j (slots.getD j.val [])) a.lpc.floor[j] else a.lpc.floor[j]
  took : ∀ j : Fin 16, r.1.lpc.taken[j] =
    if notices = true ∧ j ∈ l ∧ j ≠ a.own then takenAfter (viewSlot j (slots.getD j.val [])) a.lpc.taken[j]
    else a.lpc.taken[j]
  slot : r.2 = l.map fun i =>
    let raw := slots.getD i.val []
    if i = a.own ∨ notices = false then raw else slotAfter a.own (viewSlot i raw) raw

theorem takeNotices_only (i : Fin 16) (g : Image) (fresh live : Bool) (d : Station) :
    FloorOnly { d with lpc := { d.lpc with taken := vecModify d.lpc.taken i fun _ => g.notices.map (·.seq) } }
      (d.takeNotices i g fresh live) := by
  have key : ∀ (l : List Notice) (p : Notice → Bool) (e : Station),
      FloorOnly e (l.foldl (fun d n => if p n then d.applyNotice i n.body else d) e) := by
    intro l p
    induction l with
    | nil => exact fun e => .refl e
    | cons n l ih =>
      intro e
      simp only [List.foldl_cons]
      split
      · exact FloorOnly.trans ((FloorOnly.refl e).applyNotice i n.body) (ih _)
      · exact ih e
  have k := key g.notices (fun n => fresh && !(if fresh && !live then [] else d.lpc.taken[i]).contains n.seq) d
  unfold Station.takeNotices
  dsimp only
  refine ⟨k.signals, k.events, ?_⟩
  simp only [Station.onLpc]
  rw [k.rest]

theorem takePosition_spec (notices : Bool) (slots : List (List Byte)) (i : Fin 16) (d : Station) :
    TakesPositions notices slots [i] d
      ((d.takePosition notices i (slots.getD i.val [])).1, [(d.takePosition notices i (slots.getD i.val [])).2]) := by
  unfold Station.takePosition
  split
  · rename_i e
    subst e
    refine ⟨?_, fun _ => ⟨rfl, rfl, rfl, rfl, rfl, rfl, rfl⟩, by simp, by simp, by simp⟩
    have : ([d.own].filter fun i => failsAt d.own slots i) = [] := by simp [failsAt]
    rw [this]
    exact FloorOnly.refl d
  · rename_i e
    have entry : ∀ (v : SlotView) (j : Fin 16), viewSlot i (slots.getD i.val []) = v →
        (vecModify d.lpc.floor i (entryAfter v))[j] =
        if j ∈ [i] ∧ j ≠ d.own then entryAfter (viewSlot j (slots.getD j.val [])) d.lpc.floor[j] else d.lpc.floor[j] := by
      intro v j hv
      by_cases h : j = i
      · subst h
        rw [hv]
        simp [e]
      · have : ¬ i.val = j.val := fun x => h (Fin.ext x.symm)
        simp [vecModify_get, this, h]
    have kept : ∀ j : Fin 16, (notices = false ∨ ∀ g, viewSlot i (slots.getD i.val []) ≠ .pass g) → d.lpc.taken[j] =
        if notices = true ∧ j ∈ [i] ∧ j ≠ d.own then takenAfter (viewSlot j (slots.getD j.val [])) d.lpc.taken[j]
        else d.lpc.taken[j] := by
      intro j h
      split
      · rename_i c
        obtain ⟨n, m, _⟩ := c
        rw [List.mem_singleton.mp m]
        rcases h with h | h
        · rw [h] at n; cases n
        · unfold takenAfter
          split
          · rename_i g hg; exact absurd hg (h g)
          · rfl
      · rfl
    have goes : ∀ v : SlotView, viewSlot i (slots.getD i.val []) = v → ∀ out : List Byte,
        out = (if notices = false then slots.getD i.val [] else slotAfter d.own v (slots.getD i.val [])) →
        [out] = [i].map fun i =>
          let raw := slots.getD i.val []
          if i = d.own ∨ notices = false then raw else slotAfter d.own (viewSlot i raw) raw := by
      intro v hv out ho
      rw [ho]
      simp only [List.map_cons, hv, e, false_or, List.map_nil]
    have fails : ∀ v : SlotView, viewSlot i (slots.getD i.val []) = v →
        Counter.bump^[([i].filter fun i => failsAt d.own slots i).length] d.lpc.counters.slotErrors =
          if v = .fail then d.lpc.counters.slotErrors.bump else d.lpc.counters.slotErrors := by
      intro v hv
      have : failsAt d.own slots i = (v == .fail) := by
        simp only [failsAt, hv]
        simp [e]
      by_cases f : v = .fail <;> simp [this, f]
    unfold Station.takeSlot
    split
    · rename_i h
      refine ⟨?_, fun _ => ⟨rfl, rfl, rfl, rfl, rfl, rfl, rfl⟩, fun j => entry _ j h,
        fun j => kept j (Or.inr fun g hg => by rw [h] at hg; cases hg), goes _ h _ (by simp [slotAfter])⟩
      rw [fails _ h]
      exact FloorOnly.refl _
    · rename_i h
      refine ⟨?_, fun _ => ⟨rfl, rfl, rfl, rfl, rfl, rfl, rfl⟩, fun j => entry _ j h,
        fun j => kept j (Or.inr fun g hg => by rw [h] at hg; cases hg), goes _ h _ (by simp [slotAfter])⟩
      rw [fails _ h]
      exact FloorOnly.refl _
    · rename_i g h
      dsimp only
      split
      · rename_i hn
        have k := takeNotices_only i g (d.lpc.floor[i].freshFor g) (decide (d.lpc.floor[i].age < 3))
          (d.onEntry i (FloorEntry.take g))
        refine ⟨?_, by simp [hn], fun j => ?_, fun j => ?_, goes _ h _ (by simp [slotAfter, hn]; rfl)⟩
        · rw [fails _ h]
          refine ⟨k.signals, k.events, ?_⟩
          rw [k.rest]
          rfl
        · refine Eq.trans ?_ (entry _ j h)
          dsimp only
          rw [k.rest]
          rfl
        · dsimp only
          rw [k.rest]
          show (vecModify d.lpc.taken i fun _ => g.notices.map (·.seq))[j] = _
          by_cases c : j = i
          · subst c
            rw [if_pos ⟨hn, by simp, e⟩, h]
            simp [takenAfter]
          · simp [vecModify_get, c, Fin.val_inj, Ne.symm c]
      · rename_i hn
        refine ⟨?_, fun _ => ⟨rfl, rfl, rfl, rfl, rfl, rfl, rfl⟩, fun j => entry _ j h,
          fun j => kept j (Or.inl (by simpa using hn)), goes _ h _ (by simp [hn])⟩
        rw [fails _ h]
        exact FloorOnly.refl _

/-- Taking positions one after another takes them all. -/
theorem TakesPositions.cons {notices : Bool} {slots : List (List Byte)} {i : Fin 16} {l : List (Fin 16)} (ni : i ∉ l)
    {a : Station} {b : Station} {x : List Byte} {r : Station × List (List Byte)}
    (h : TakesPositions notices slots [i] a (b, [x])) (k : TakesPositions notices slots l b r) :
    TakesPositions notices slots (i :: l) a (r.1, x :: r.2) := by
  have hb := h.rest.rest
  dsimp only at hb
  have own : b.own = a.own := by rw [hb]; rfl
  refine ⟨?_, fun q => ?_, fun j => ?_, fun j => ?_, ?_⟩
  · refine ⟨h.rest.signals.trans k.rest.signals, events_trans h.rest.events k.rest.events, ?_⟩
    have hr := k.rest.rest
    rw [own] at hr
    rw [hr, hb]
    have split : ((i :: l).filter fun i => failsAt a.own slots i).length =
        (l.filter fun i => failsAt a.own slots i).length + ([i].filter fun i => failsAt a.own slots i).length := by
      by_cases f : failsAt a.own slots i = true <;> simp [f]
    rw [split, Function.iterate_add_apply]
  · obtain ⟨h1, h2, h3, h4, h5, h6, h7⟩ := h.quiet q
    obtain ⟨k1, k2, k3, k4, k5, k6, k7⟩ := k.quiet q
    exact ⟨k1.trans h1, k2.trans h2, k3.trans h3, k4.trans h4, k5.trans h5, k6.trans h6, k7.trans h7⟩
  · have hj : b.lpc.floor[j] = _ := h.entry j
    have kj := k.entry j
    rw [own] at kj
    rw [kj, hj]
    by_cases e : j = i
    · subst e; simp [ni]
    · simp [e]
  · have hj : b.lpc.taken[j] = _ := h.took j
    have kj := k.took j
    rw [own] at kj
    rw [kj, hj]
    by_cases e : j = i
    · subst e; simp [ni]
    · simp [e]
  · have hs := h.slot
    have ks := k.slot
    rw [own] at ks
    simp only [List.map_cons, List.map_nil, List.cons.injEq, and_true] at hs
    rw [List.map_cons, ks, ← hs]

theorem takePositions_spec (notices : Bool) (slots : List (List Byte)) (l : List (Fin 16)) (nd : l.Nodup) (d : Station) :
    TakesPositions notices slots l d (Station.takePositions notices slots l d) := by
  induction l generalizing d with
  | nil => exact ⟨.refl d, fun _ => ⟨rfl, rfl, rfl, rfl, rfl, rfl, rfl⟩, by simp [Station.takePositions], by simp [Station.takePositions], rfl⟩
  | cons i l ih =>
    rw [List.nodup_cons] at nd
    exact TakesPositions.cons nd.1 (takePosition_spec notices slots i d) (ih nd.2 _)

/-- The arrival's slot positions, taken: every peer's entry, the positions as they go on, and the live set. -/
theorem takeSlots_spec (notices : Bool) (slots : List (List Byte)) (d : Station) :
    TakesPositions notices slots (List.finRange 16) { d with lpc := { d.lpc with live := (d.takeSlots notices slots).1.lpc.live } }
        (d.takeSlots notices slots) ∧
      (d.takeSlots notices slots).1.lpc.live = liveOf d.own (d.takeSlots notices slots).1.lpc.floor := by
  have h := takePositions_spec notices slots (List.finRange 16) (List.nodup_finRange 16) d
  unfold Station.takeSlots
  generalize Station.takePositions notices slots (List.finRange 16) d = r at h
  obtain ⟨b, x⟩ := r
  have hb := h.rest.rest
  dsimp only at hb
  have own : b.own = d.own := by rw [hb]; rfl
  dsimp only
  refine ⟨⟨⟨h.rest.signals, h.rest.events, ?_⟩, h.quiet, h.entry, h.took, h.slot⟩, ?_⟩
  · simp only [Station.onLpc]
    rw [hb]
    rfl
  · simp only [Station.onLpc, own]

/-! ## Heads, the own position and the own slot -/

/-- The Loop Controller's record after a head (R4): the last head and the watch, or one head error. -/
def Lpc.afterHead (h : Option Head) (watch : Nat) (l : Lpc) : Lpc :=
  match h with
  | some h =>
    { l with lastHead := some h, watch := if l.state = .joining ∨ l.state = .up then some watch else l.watch }
  | none => { l with counters := { l.counters with headErrors := l.counters.headErrors.bump } }

/-- The moment a train watch that starts now runs out (R16). -/
def Station.watchEnd (d : Station) : Nat := d.inMs (d.loopCfg.watchMultiple * d.loopCfg.cycle)

/-- A head taken or counted: outside UP, and at the origin, nothing goes to the Shift Report Unit. -/
theorem headOrError_spec (h : Option Head) (d : Station) :
    FloorOnly { d with lpc := d.lpc.afterHead h d.watchEnd } (d.headOrError h) ∧
      (d.lpc.state ≠ .up ∨ d.lpc.origin = true →
        AlarmsOnly { d with lpc := d.lpc.afterHead h d.watchEnd } (d.headOrError h) ∧
        ∀ g, h = some g → (d.headOrError h).condition .configMismatch 0 = (g.sig != d.ownSig)) := by
  cases h with
  | none => exact ⟨FloorOnly.refl _, fun _ => ⟨AlarmsOnly.refl _, fun g e => by cases e⟩⟩
  | some h =>
    generalize he : ({ d with lpc := d.lpc.afterHead (some h) d.watchEnd } : Station) = e
    have j := judgeConfig_spec h.sig e
    have st : (e.judgeConfig h.sig).lpc.state = d.lpc.state := by rw [j.1.lpc]; subst he; rfl
    have og : (e.judgeConfig h.sig).lpc.origin = d.lpc.origin := by rw [j.1.lpc]; subst he; rfl
    have own : e.ownSig = d.ownSig := by subst he; rfl
    have run : d.headOrError (some h) =
        if d.lpc.state = .up ∧ d.lpc.origin = false then (e.judgeConfig h.sig).takeHead h.time h.shift
        else e.judgeConfig h.sig := by
      have : (if (d.onLpc fun l => { l with lastHead := some h }).lpc.state = .joining ∨
          (d.onLpc fun l => { l with lastHead := some h }).lpc.state = .up then
            (d.onLpc fun l => { l with lastHead := some h }).startWatch
          else d.onLpc fun l => { l with lastHead := some h }) = e := by
        subst he
        by_cases c : d.lpc.state = .joining ∨ d.lpc.state = .up
        · simp [Lpc.afterHead, Station.startWatch, Station.onLpc, Station.watchEnd, Station.inMs, Station.loopCfg,
            Station.cfg, c]
        · simp [Lpc.afterHead, Station.onLpc, c]
      unfold Station.headOrError Station.takeGoodHead
      dsimp only
      simp only [Bool.or_eq_true, decide_eq_true_eq, Bool.and_eq_true, Bool.not_eq_true'] at this ⊢
      rw [this, st, og]
    rw [run]
    split
    · rename_i c
      refine ⟨j.1.floorOnly.takeHead _ _, fun n => ?_⟩
      rcases n with n | n
      · exact absurd c.1 n
      · simp [n] at c
    · refine ⟨j.1.floorOnly, fun _ => ⟨j.1, fun g e => ?_⟩⟩
      cases e
      rw [j.2, own]

/-- The own slot position checked: at most one slot error. -/
theorem checkOwn_spec (slots : List (List Byte)) (d : Station) :
    d.checkOwn slots =
      ({ d with lpc := { d.lpc with counters := { d.lpc.counters with
          slotErrors := (bif viewSlot d.own (slots.getD d.own.val []) == .fail then d.lpc.counters.slotErrors.bump
            else d.lpc.counters.slotErrors) } } },
        match viewSlot d.own (slots.getD d.own.val []) with
        | .pass g => some g
        | _ => none) := by
  unfold Station.checkOwn
  split <;> rename_i h <;> rw [h] <;> rfl

/-- The image that a write of the own slot makes (R11, R45). -/
def Station.ownImage (d : Station) : Image :=
  d.lpc.staging.image (stationByte d.own) (d.lpc.floor[d.own].seq + 1) (d.lpc.placed.inFlight.map (QueueEntry.record d.own))

/-- All that writing the own slot does. -/
theorem writeOwn_spec (d : Station) :
    d.writeOwn =
      ({ d with lpc := { d.lpc.placed with
          floor := vecModify d.lpc.floor d.own fun _ =>
            { image := some d.ownImage, seq := d.lpc.floor[d.own].seq + 1, age := 0, seen := true }
          prevWrite := true } },
        withCheck (BitVec.ofNat 8 d.ownImage.bytes.length :: d.ownImage.bytes)) := rfl

/-- All that a release does (R15): the open shift converges, one train goes out, the timer and the awaiting mark are set, and a TIME
SET placed for the first time is applied. -/
theorem release_spec (d e : Station) (he : e = d.converge) :
    ShiftOnly d e ∧
      ShiftOnly
        { e with
          lpc := { e.writeOwn.1.lpc with
            lastHead := some e.newHead, release := .running (e.inMs e.loopCfg.cycle), awaiting := true }
          loopOut := e.loopOut ++ [e.newHead.bytes ++ ((List.finRange 16).map fun i =>
            if i = e.own then withCheck (BitVec.ofNat 8 e.ownImage.bytes.length :: e.ownImage.bytes)
            else e.lpc.returned.getD i.val [0]).flatten] }
        d.release := by
  refine ⟨he ▸ ShiftOnly.converge (.refl d), ?_⟩
  have times : ∀ (l : List Word) (e : Station), ShiftOnly e (l.foldl (fun d t => d.applyTimeSet t) e) := by
    intro l
    induction l with
    | nil => exact fun e => .refl e
    | cons t l ih => exact fun e => ShiftOnly.trans ((ShiftOnly.refl e).applyTimeSet t) (ih _)
  unfold Station.release
  rw [← he]
  dsimp only
  generalize e.lpc.firstTimeSets = l
  rw [writeOwn_spec]
  exact times l _

end Sys2Proof.Machine
end

