-- ==== Sys2Proof/Laws/Panel.lean ====
section
/-! SUPPORT. Which request a kind code and a body spell (Tables 12-6 and 12-8, R200). -/

namespace Sys2Proof.Machine

theorem kindByte_eq (k : SectionKind) : kindByte k = k.code := by cases k <;> rfl
theorem sectionKindOf_eq_some (b : Byte) (k : SectionKind) : sectionKindOf b = some k ↔ b = kindByte k := by
  revert b; cases k <;> decide +kernel
theorem sectionLength_eq (k : SectionKind) : sectionLength k = k.length := by cases k <;> rfl

/-- A CONFIGURE is read from a body that has the length of the section it names (R200). -/
theorem configureOf_eq_some (body : List Byte) (c : Instr) : configureOf body = some c ↔
    ∃ sect inst fields, c = .configure sect inst fields ∧ body = sect :: inst :: fields ∧
      ∀ k, sect = kindByte k → fields.length = sectionLength k := by
  unfold configureOf
  rcases body with _ | ⟨k, _ | ⟨i, fields⟩⟩
  · simp
  · simp
  · simp only [List.cons.injEq]
    cases h : sectionKindOf k with
    | none =>
      have : ∀ x, k ≠ kindByte x := fun x e => by simp [(sectionKindOf_eq_some k x).2 e] at h
      constructor
      · intro e
        cases e
        exact ⟨k, i, fields, rfl, ⟨rfl, rfl, rfl⟩, fun x e => (this x e).elim⟩
      · rintro ⟨_, _, _, rfl, ⟨rfl, rfl, rfl⟩, -⟩
        rfl
    | some s =>
      have hs := (sectionKindOf_eq_some k s).1 h
      simp only [Option.ite_none_right_eq_some, Option.some.injEq]
      constructor
      · rintro ⟨hl, rfl⟩
        refine ⟨k, i, fields, rfl, ⟨rfl, rfl, rfl⟩, fun x e => ?_⟩
        rw [(sectionKindOf_eq_some k x).2 e] at h
        cases h
        rw [hl, sectionLength_eq]
      · rintro ⟨_, _, _, rfl, ⟨rfl, rfl, rfl⟩, hl⟩
        exact ⟨by rw [hl s hs, sectionLength_eq], rfl⟩

theorem be16_byte16 (h : Half) : be16 ((h >>> 8).setWidth 8) (h.setWidth 8) = h := (be16_eq_iff _ _ _).2 rfl
theorem be32_byte32 (w : Word) : be32 ((w >>> 24).setWidth 8) ((w >>> 16).setWidth 8) ((w >>> 8).setWidth 8) (w.setWidth 8) = w :=
  (be32_eq_iff _ _ _ _ _).2 rfl

theorem bareRequest_spelled (kind : Byte) (c : Instr) (h : bareRequest kind.toNat = some c) : RequestSpelled kind [] c := by
  unfold bareRequest at h
  split at h <;> cases h <;> rename_i e <;> exact ⟨BitVec.eq_of_toNat_eq e, rfl⟩

theorem byteRequest_spelled (kind a : Byte) (c : Instr) (h : byteRequest kind.toNat a = some c) : RequestSpelled kind [a] c := by
  unfold byteRequest at h
  split at h <;> cases h <;> rename_i e <;> exact ⟨BitVec.eq_of_toNat_eq e, rfl⟩

theorem tripleRequest_spelled (kind x y z : Byte) (c : Instr) (h : tripleRequest kind.toNat x y z = some c) :
    RequestSpelled kind [x, y, z] c := by
  unfold tripleRequest at h
  split at h <;> cases h <;> rename_i e
  · exact ⟨BitVec.eq_of_toNat_eq e, congrArg (x :: ·) ((be16_eq_iff _ _ _).1 rfl)⟩
  · exact ⟨BitVec.eq_of_toNat_eq e, congrArg (x :: ·) ((be16_eq_iff _ _ _).1 rfl)⟩
  · exact ⟨BitVec.eq_of_toNat_eq e, congrArg (x :: ·) ((be16_eq_iff _ _ _).1 rfl)⟩
  · exact ⟨BitVec.eq_of_toNat_eq e, rfl⟩
  · exact ⟨BitVec.eq_of_toNat_eq e, congrArg (x :: ·) ((be16_eq_iff _ _ _).1 rfl)⟩

/-- The request command is the one that kind and body spell (Tables 12-6 and 12-8, R200). -/
theorem requestOf_eq_some (kind : Byte) (body : List Byte) (c : Instr) : requestOf kind body = some c ↔ RequestSpelled kind body c := by
  constructor
  · intro h
    unfold requestOf at h
    split at h
    · rename_i h1
      obtain ⟨sect, inst, fields, rfl, hb, hl⟩ := (configureOf_eq_some _ _).1 h
      exact ⟨h1, hb, hl⟩
    · split at h
      · exact bareRequest_spelled _ _ h
      · exact byteRequest_spelled _ _ _ h
      · split at h <;> cases h
        exact ⟨‹_›, rfl⟩
      · exact tripleRequest_spelled _ _ _ _ _ h
      · split at h
        · cases h
          exact ⟨‹_›, (be32_eq_iff _ _ _ _ _).1 rfl⟩
        · split at h <;> cases h
          exact ⟨‹_›, (be32_eq_iff _ _ _ _ _).1 rfl⟩
      · cases h
  · intro h
    cases c
    case configure sect inst fields =>
      obtain ⟨rfl, rfl, hl⟩ := h
      unfold requestOf
      rw [if_pos rfl, configureOf_eq_some]
      exact ⟨sect, inst, fields, rfl, rfl, hl⟩
    case calorificUpdate channel cv =>
      obtain ⟨rfl, rfl⟩ := h
      exact congrArg (fun x => some (Instr.calorificUpdate channel x)) (be16_byte16 cv)
    case setStrokeBase comp rate =>
      obtain ⟨rfl, rfl⟩ := h
      exact congrArg (fun x => some (Instr.setStrokeBase comp x)) (be16_byte16 rate)
    case setFan fan ref =>
      obtain ⟨rfl, rfl⟩ := h
      exact congrArg (fun x => some (Instr.setFan fan x)) (be16_byte16 ref)
    case shelve point minutes =>
      obtain ⟨rfl, rfl⟩ := h
      exact congrArg (fun x => some (Instr.shelve point x)) (be16_byte16 minutes)
    case setHeatDemand w =>
      obtain ⟨rfl, rfl⟩ := h
      exact congrArg (fun x => some (Instr.setHeatDemand x)) (be32_byte32 w)
    case setFloorTime w =>
      obtain ⟨rfl, rfl⟩ := h
      exact congrArg (fun x => some (Instr.setFloorTime x)) (be32_byte32 w)
    all_goals first
      | exact h.elim
      | (obtain ⟨rfl, rfl⟩ := h; rfl)

end Sys2Proof.Machine
end

