-- ==== Sys2Proof/WellFormed.lean ====
section
/-! DEFINITION. Well-formed commands: the ranges the rules state for the values an event carries. A request of the host
carries raw fields, since a field out of range is answered by a rule (R189), so every request is well formed. -/

namespace Sys2Proof

/-- The values of a contribution within the ranges of R102, R158 and R182. -/
def Contribution.wf : Contribution → Bool
  | .activeLength n => n ≤ 32
  | .trip e => (match e.station with | none => true | some s => 1 ≤ s && s ≤ 16) &&
      (match e.point with | none => true | some p => p ≤ 31)
  | _ => true

/-- The command's values lie in the ranges the rules state: a frame of unknown type is none of types 1, 2 and 3 (R199);
periods, widths and window ticks are 24-bit counts (R61, R63); a window's count is 1 to 255 (R62); a direction change has a
direction (R65); revolution counts are at most 32,768 (R66); an active value is at most 4080 (R75). -/
def Instr.wf : Instr → Bool
  | .frameOfUnknownType t => t != 1#8 && t != 2#8 && t != 3#8
  | .bsqScannerCapture _ p w _ => p < 16777216 && w < 16777216
  | .gccPressureCapture _ p w _ => p < 16777216 && w < 16777216
  | .fdcWeigherWindow _ t n _ _ => t < 16777216 && 1 ≤ n && n ≤ 255
  | .fdcDirectionChange _ dir _ => dir != .none
  | .fdcIndex _ _ n => n ≤ 32768
  | .fdcActiveValueChange _ v _ => v ≤ 4080
  | .gccFanActiveValueChange _ v _ => v ≤ 4080
  | .sruContribution c => c.wf
  | _ => true

end Sys2Proof
end

