-- ==== Sys2Proof/Laws/PerInstr.lean ====
section
/-! SUPPORT. The statements made of every command: what the panel hands over is well formed (R189, R200). -/

namespace Sys2Proof.Laws.WellFormed

open Machine

/-- A command that a request record gives is well formed: the record's fields may be out of range, its layout may not. -/
def Statement (i : Instr) : Prop := ∀ (kind : Byte) (body : List Byte), requestOf kind body = some i → i.wf = true

theorem configureOf_wf {body : List Byte} {i : Instr} (h : configureOf body = some i) : i.wf = true := by
  unfold configureOf at h
  repeat' split at h
  all_goals first
    | cases h; rfl
    | exact absurd h (by simp)

theorem bareRequest_wf {kind : Nat} {i : Instr} (h : bareRequest kind = some i) : i.wf = true := by
  unfold bareRequest at h
  split at h <;> cases h <;> rfl

theorem byteRequest_wf {kind : Nat} {a : Byte} {i : Instr} (h : byteRequest kind a = some i) : i.wf = true := by
  unfold byteRequest at h
  split at h <;> cases h <;> rfl

theorem tripleRequest_wf {kind : Nat} {a b c : Byte} {i : Instr} (h : tripleRequest kind a b c = some i) : i.wf = true := by
  unfold tripleRequest at h
  split at h <;> cases h <;> rfl

theorem requestOf_wf (i : Instr) : Statement i := by
  intro kind body h
  unfold requestOf at h
  split at h
  · exact configureOf_wf h
  · split at h
    · exact bareRequest_wf h
    · exact byteRequest_wf h
    · split at h
      all_goals cases h
      all_goals rfl
    · exact tripleRequest_wf h
    · repeat' split at h
      all_goals cases h <;> rfl
    · cases h

theorem powerOn : Statement .powerOn := requestOf_wf _
theorem resetLineAssert : Statement .resetLineAssert := requestOf_wf _
theorem resetLineRelease : Statement .resetLineRelease := requestOf_wf _
theorem trainArrival (body : List Byte) : Statement (.trainArrival body) := requestOf_wf _
theorem frameOfUnknownType (frameType : Byte) : Statement (.frameOfUnknownType frameType) := requestOf_wf _
theorem claimMarkArrival (body : List Byte) : Statement (.claimMarkArrival body) := requestOf_wf _
theorem breakMarkArrival (body : List Byte) : Statement (.breakMarkArrival body) := requestOf_wf _
theorem claimMarkSend : Statement .claimMarkSend := requestOf_wf _
theorem breakMarkSend : Statement .breakMarkSend := requestOf_wf _
theorem trainWatchExpiry : Statement .trainWatchExpiry := requestOf_wf _
theorem releaseTimerExpiry : Statement .releaseTimerExpiry := requestOf_wf _
theorem claimLimitExpiry : Statement .claimLimitExpiry := requestOf_wf _
theorem loopGraceExpiry : Statement .loopGraceExpiry := requestOf_wf _
theorem noticeLossHoldExpiry : Statement .noticeLossHoldExpiry := requestOf_wf _
theorem pulsePinChange (ch : Fin 8) (level : Bool) : Statement (.pulsePinChange ch level) := requestOf_wf _
theorem acceptedEdge (ch : Fin 8) (level : Bool) : Statement (.acceptedEdge ch level) := requestOf_wf _
theorem captureOverflow (ch : Fin 8) : Statement (.captureOverflow ch) := requestOf_wf _
theorem stillTimerExpiry (pair : Fin 4) : Statement (.stillTimerExpiry pair) := requestOf_wf _
theorem inputPinChange (line : Fin 12) (level : Bool) : Statement (.inputPinChange line level) := requestOf_wf _
theorem lineChange (line : Fin 12) : Statement (.lineChange line) := requestOf_wf _
theorem patternTimerExpiry (line : Fin 16) : Statement (.patternTimerExpiry line) := requestOf_wf _
theorem carrierPeriodStart (line : Fin 16) : Statement (.carrierPeriodStart line) := requestOf_wf _
theorem activePartEnd (line : Fin 16) : Statement (.activePartEnd line) := requestOf_wf _
theorem igniterPulseWidthExpiry : Statement .igniterPulseWidthExpiry := requestOf_wf _
theorem igniterSpacingExpiry : Statement .igniterSpacingExpiry := requestOf_wf _
theorem douForceStart : Statement .douForceStart := requestOf_wf _
theorem douForceEnd : Statement .douForceEnd := requestOf_wf _
theorem burnerStart : Statement .burnerStart := requestOf_wf _
theorem burnerStop : Statement .burnerStop := requestOf_wf _
theorem lockoutReset : Statement .lockoutReset := requestOf_wf _
theorem setHeatDemand (setpoint : Word) : Statement (.setHeatDemand setpoint) := requestOf_wf _
theorem bsqScannerCapture (scanner : Fin 2) (period width : Nat) (tb : Timebase) :
    Statement (.bsqScannerCapture scanner period width tb) := requestOf_wf _
theorem bsqScannerNoSignal (scanner : Fin 2) : Statement (.bsqScannerNoSignal scanner) := requestOf_wf _
theorem flameFailTimerExpiry : Statement .flameFailTimerExpiry := requestOf_wf _
theorem bsqAirFlowChange (active : Bool) : Statement (.bsqAirFlowChange active) := requestOf_wf _
theorem bsqIdFanChange (active : Bool) : Statement (.bsqIdFanChange active) := requestOf_wf _
theorem bsqEstopChange (active : Bool) : Statement (.bsqEstopChange active) := requestOf_wf _
theorem bsqPurgeTimerExpiry : Statement .bsqPurgeTimerExpiry := requestOf_wf _
theorem bsqIgnitionTimerExpiry : Statement .bsqIgnitionTimerExpiry := requestOf_wf _
theorem pilotTrialLimitExpiry : Statement .pilotTrialLimitExpiry := requestOf_wf _
theorem mainTrialLimitExpiry : Statement .mainTrialLimitExpiry := requestOf_wf _
theorem postPurgeTimerExpiry : Statement .postPurgeTimerExpiry := requestOf_wf _
theorem shortfallTimerExpiry : Statement .shortfallTimerExpiry := requestOf_wf _
theorem coolerLossTimerExpiry : Statement .coolerLossTimerExpiry := requestOf_wf _
theorem tripHoldExpiry (kind : HoldKind) : Statement (.tripHoldExpiry kind) := requestOf_wf _
theorem firingSecondTimerExpiry : Statement .firingSecondTimerExpiry := requestOf_wf _
theorem bsqFloorRefresh : Statement .bsqFloorRefresh := requestOf_wf _
theorem bsqLeftUp : Statement .bsqLeftUp := requestOf_wf _
theorem bsqLoopGraceExpiry : Statement .bsqLoopGraceExpiry := requestOf_wf _
theorem bsqPanelLapse : Statement .bsqPanelLapse := requestOf_wf _
theorem feedEnable (channel : Byte) : Statement (.feedEnable channel) := requestOf_wf _
theorem feedDisable (channel : Byte) : Statement (.feedDisable channel) := requestOf_wf _
theorem feedClearFault (channel : Byte) : Statement (.feedClearFault channel) := requestOf_wf _
theorem calorificUpdate (channel : Byte) (cv : Half) : Statement (.calorificUpdate channel cv) := requestOf_wf _
theorem fdcFloorRefresh : Statement .fdcFloorRefresh := requestOf_wf _
theorem fdcWeigherWindow (ch : Fin 2) (ticks count : Nat) (overflow : Bool) (tb : Timebase) :
    Statement (.fdcWeigherWindow ch ticks count overflow tb) := requestOf_wf _
theorem fdcWeigherNoSignal (ch : Fin 2) : Statement (.fdcWeigherNoSignal ch) := requestOf_wf _
theorem fdcDirectionChange (ch : Fin 2) (direction : Direction) (position : Half) :
    Statement (.fdcDirectionChange ch direction position) := requestOf_wf _
theorem fdcIndex (ch : Fin 2) (first : Bool) (counts : Nat) : Statement (.fdcIndex ch first counts) := requestOf_wf _
theorem fdcStill (ch : Fin 2) (position : Half) : Statement (.fdcStill ch position) := requestOf_wf _
theorem fdcActiveValueChange (ch : Fin 2) (value : Nat) (cause : ChangeCause) :
    Statement (.fdcActiveValueChange ch value cause) := requestOf_wf _
theorem fdcEstopChange (active : Bool) : Statement (.fdcEstopChange active) := requestOf_wf _
theorem fdcLeftUp : Statement .fdcLeftUp := requestOf_wf _
theorem fdcLoopGraceExpiry : Statement .fdcLoopGraceExpiry := requestOf_wf _
theorem fdcEnteredUp : Statement .fdcEnteredUp := requestOf_wf _
theorem runDownTimerExpiry (ch : Fin 2) : Statement (.runDownTimerExpiry ch) := requestOf_wf _
theorem runningSecondTimerExpiry (ch : Fin 2) : Statement (.runningSecondTimerExpiry ch) := requestOf_wf _
theorem coolerEnable (compartment : Byte) : Statement (.coolerEnable compartment) := requestOf_wf _
theorem coolerDisable (compartment : Byte) : Statement (.coolerDisable compartment) := requestOf_wf _
theorem setStrokeBase (compartment : Byte) (rate : Half) : Statement (.setStrokeBase compartment rate) := requestOf_wf _
theorem grateClearFault (compartment : Byte) : Statement (.grateClearFault compartment) := requestOf_wf _
theorem setFan (fan : Byte) (reference : Half) : Statement (.setFan fan reference) := requestOf_wf _
theorem dueTimeReached (comp : Fin 4) : Statement (.dueTimeReached comp) := requestOf_wf _
theorem gccEndForwardChange (comp : Fin 4) (active : Bool) : Statement (.gccEndForwardChange comp active) := requestOf_wf _
theorem gccEndReturnChange (comp : Fin 4) (active : Bool) : Statement (.gccEndReturnChange comp active) := requestOf_wf _
theorem forwardLimitExpiry (comp : Fin 4) : Statement (.forwardLimitExpiry comp) := requestOf_wf _
theorem dwellExpiry (comp : Fin 4) : Statement (.dwellExpiry comp) := requestOf_wf _
theorem returnLimitExpiry (comp : Fin 4) : Statement (.returnLimitExpiry comp) := requestOf_wf _
theorem gccEstopChange (active : Bool) : Statement (.gccEstopChange active) := requestOf_wf _
theorem gccPressureCapture (comp : Fin 4) (period width : Nat) (tb : Timebase) :
    Statement (.gccPressureCapture comp period width tb) := requestOf_wf _
theorem gccPressureNoSignal (comp : Fin 4) : Statement (.gccPressureNoSignal comp) := requestOf_wf _
theorem gccFloorRefresh : Statement .gccFloorRefresh := requestOf_wf _
theorem gccFanActiveValueChange (fan : Fin 4) (value : Nat) (cause : ChangeCause) :
    Statement (.gccFanActiveValueChange fan value cause) := requestOf_wf _
theorem fanRunSecondTimerExpiry : Statement .fanRunSecondTimerExpiry := requestOf_wf _
theorem onDelayExpiry (point : Fin 32) : Statement (.onDelayExpiry point) := requestOf_wf _
theorem offDelayExpiry (point : Fin 32) : Statement (.offDelayExpiry point) := requestOf_wf _
theorem almPlaceFree : Statement .almPlaceFree := requestOf_wf _
theorem recentRaiseExpiry : Statement .recentRaiseExpiry := requestOf_wf _
theorem almFloorRefresh : Statement .almFloorRefresh := requestOf_wf _
theorem ackAlarm (station point occurrence : Byte) : Statement (.ackAlarm station point occurrence) := requestOf_wf _
theorem shelve (point : Byte) (minutes : Half) : Statement (.shelve point minutes) := requestOf_wf _
theorem unshelve (point : Byte) : Statement (.unshelve point) := requestOf_wf _
theorem shelfExpiry (point : Fin 32) : Statement (.shelfExpiry point) := requestOf_wf _
theorem readAlarms (page : Byte) : Statement (.readAlarms page) := requestOf_wf _
theorem readMirror (page : Byte) : Statement (.readMirror page) := requestOf_wf _
theorem secondTimerExpiry : Statement .secondTimerExpiry := requestOf_wf _
theorem notUpSecondTimerExpiry : Statement .notUpSecondTimerExpiry := requestOf_wf _
theorem sruContribution (c : Contribution) : Statement (.sruContribution c) := requestOf_wf _
theorem sruFloorRefresh : Statement .sruFloorRefresh := requestOf_wf _
theorem sruLeftUp : Statement .sruLeftUp := requestOf_wf _
theorem sruEnteredUp : Statement .sruEnteredUp := requestOf_wf _
theorem setFloorTime (time : Word) : Statement (.setFloorTime time) := requestOf_wf _
theorem readReport (age offset : Byte) : Statement (.readReport age offset) := requestOf_wf _
theorem selectAssert : Statement .selectAssert := requestOf_wf _
theorem selectRelease (bytesIn : List Byte) : Statement (.selectRelease bytesIn) := requestOf_wf _
theorem configure (kind inst : Byte) (fields : List Byte) : Statement (.configure kind inst fields) := requestOf_wf _
theorem start : Statement .start := requestOf_wf _
theorem service : Statement .service := requestOf_wf _
theorem serviceOpenPoint : Statement .serviceOpenPoint := requestOf_wf _
theorem servicePeriodExpiry : Statement .servicePeriodExpiry := requestOf_wf _
theorem readEvents : Statement .readEvents := requestOf_wf _
theorem readResetCause : Statement .readResetCause := requestOf_wf _
theorem readStatus (part : Byte) : Statement (.readStatus part) := requestOf_wf _
theorem readCounters : Statement .readCounters := requestOf_wf _
theorem readFloor (station : Byte) : Statement (.readFloor station) := requestOf_wf _
theorem readBreak : Statement .readBreak := requestOf_wf _
theorem readInput (selector : Byte) : Statement (.readInput selector) := requestOf_wf _
theorem readOutput (selector : Byte) : Statement (.readOutput selector) := requestOf_wf _

end Sys2Proof.Laws.WellFormed
end

