-- ==== Sys2Proof/Laws/Points.lean ====
section
/-! SUPPORT. What an announcement, a raise, a return and an acknowledgement of a point do (R155, R157 to R160, R166, R169, R170). -/

namespace Sys2Proof.Machine

/-! ## Announcements (R160) -/

/-- All that an announcement of a point leaves: the two announcement fields of the point and the notice queue. -/
structure TellsOnly (i : Fin 32) (a b : Station) : Prop where
  rest : b = { a with
    alm := { a.alm with points := vecModify a.alm.points i fun p =>
      { p with pending := b.alm.points[i].pending, announced := b.alm.points[i].announced } }
    lpc := { a.lpc with queue := b.lpc.queue } }

theorem vecModify_id {α : Type} {n : Nat} (v : Vector α n) (i : Fin n) (f : α → α) (h : f v[i] = v[i]) : vecModify v i f = v := by
  ext j hj
  rw [vecModify_get]
  split
  · rename_i e
    subst e
    exact h
  · rfl

theorem vecModify_congr {α : Type} {n : Nat} (v : Vector α n) (i : Fin n) (f g : α → α) (h : f v[i] = g v[i]) :
    vecModify v i f = vecModify v i g := by
  ext j hj
  rw [vecModify_get, vecModify_get]
  split
  · rename_i e
    subst e
    exact h
  · rfl

theorem TellsOnly.of_eq {i : Fin 32} {a b : Station} (x : Bool) (y : Announced) (q : List QueueEntry) (h : b = { a with
    alm := { a.alm with points := vecModify a.alm.points i fun p => { p with pending := x, announced := y } }
    lpc := { a.lpc with queue := q } }) : TellsOnly i a b := by
  subst h
  constructor
  simp

theorem TellsOnly.refl (i : Fin 32) (a : Station) : TellsOnly i a a := by
  refine .of_eq a.alm.points[i].pending a.alm.points[i].announced a.lpc.queue ?_
  rw [vecModify_id _ _ _ rfl]

/-- An announcement moves what it must, and nothing else (R160). -/
theorem announce_spec (i : Fin 32) (d : Station) : TellsOnly i d (d.announce i) ∧
    ∀ c, d.alm.points[i].cfg = some c → PointAnnounced i c d.alm.points[i] d (d.announce i) := by
  have pend : TellsOnly i d (d.onPoint i fun p => { p with pending := true }) := by
    refine .of_eq true d.alm.points[i].announced d.lpc.queue ?_
    rw [vecModify_congr _ _ _ fun p => { p with pending := true }]
    · rfl
    · rfl
  have same : ∀ f : Point → Point, (d.onPoint i f).alm.points[i] = f d.alm.points[i] := fun f => by simp
  unfold Station.announce
  split
  · rename_i hc
    refine ⟨.refl i d, fun c h => ?_⟩
    rw [h] at hc
    cases hc
  · rename_i c hc
    have key : ∀ b : Station, TellsOnly i d b → PointAnnounced i c d.alm.points[i] d b → TellsOnly i d b ∧
        ∀ k, d.alm.points[i].cfg = some k → PointAnnounced i k d.alm.points[i] d b := by
      intro b h1 h2
      refine ⟨h1, fun k hk => ?_⟩
      rw [hk] at hc
      cases hc
      exact h2
    split
    · rename_i hs
      have hs : d.alm.points[i].shelf ≠ none := Option.isSome_iff_ne_none.1 hs
      exact key _ (.refl i d) ⟨fun _ => ⟨rfl, rfl, rfl⟩, fun h => (hs h).elim, fun h => (hs h).elim⟩
    · rename_i hs
      have hn : d.alm.points[i].shelf = none := by
        cases h : d.alm.points[i].shelf with
        | none => rfl
        | some x => exact (hs (by rw [h]; rfl)).elim
      split
      · rename_i hd
        have hdef : d.alm.points[i].pending = true ∨ (c.cls = .low ∧ d.alm.flood = true) := by
          simpa [Station.deferred, or_comm] using hd
        refine key _ pend ⟨fun h => (h hn).elim, fun _ _ => by rw [same]; exact ⟨rfl, rfl, rfl⟩, fun _ h => (h ?_).elim⟩
        rcases hdef with h | h
        · exact .inl h
        · exact .inr (.inl h)
      · rename_i hd
        have hdef : ¬ d.alm.points[i].pending = true ∧ ¬ (c.cls = .low ∧ d.alm.flood = true) := by
          have : ¬ (d.alm.points[i].pending = true ∨ (c.cls = .low ∧ d.alm.flood = true)) := by
            simpa [Station.deferred, or_comm] using hd
          exact not_or.1 this
        have acc := (alarmsRead d).accepts (.alarmState (d.alm.points[i].body i c))
        have took := ((alarmsRead d).submitted (.alarmState (d.alm.points[i].body i c))).1
        unfold Station.submitPoint Station.submit
        by_cases ha : d.lpc.accepts (.alarmState (d.alm.points[i].body i c)) = true
        · rw [if_pos ha]
          dsimp only
          refine key _ (.of_eq false (.known d.alm.points[i].state)
            (d.lpc.submitted (.alarmState (d.alm.points[i].body i c))).queue ?_) ⟨fun h => (h hn).elim, fun _ h => ?_, fun _ _ => ?_⟩
          · rw [vecModify_congr _ _ _ fun p => { p with pending := false, announced := .known p.state }]
            · rfl
            · rfl
          · rcases h with h | h | h
            · exact (hdef.1 h).elim
            · exact (hdef.2 h).elim
            · exact (h (acc.1 ha)).elim
          · simpa using took
        · rw [if_neg ha]
          dsimp only
          refine key _ pend ⟨fun h => (h hn).elim, fun _ _ => by rw [same]; exact ⟨rfl, rfl, rfl⟩, fun _ h => (h ?_).elim⟩
          exact .inr (.inr fun h => ha (acc.2 h))

theorem recomputeTrip_spec (d : Station) : d.recomputeTrip = { d with
    alm := { d.alm with trip := d.tripNow }
    lpc := { d.lpc with staging := { d.lpc.staging with
      alarm := if d.tripNow = d.alm.trip then d.lpc.staging.alarm else some { epoch := d.alm.epoch, trip := d.tripNow } } }
    ppt := { d.ppt with events := if d.tripNow = d.alm.trip then d.ppt.events else d.ppt.events ||| 1 } } := by
  unfold Station.recomputeTrip
  split
  · rename_i h
    simp [h]
  · rfl

theorem tripNow_congr {a b : Station} (h1 : b.alm.active = a.alm.active) (h2 : ∀ i : Fin 32, b.alm.points[i].cfg = a.alm.points[i].cfg)
    (h3 : b.alm.present = a.alm.present) : b.tripNow = a.tripNow := by
  unfold Station.tripNow Station.findPoint Station.condition
  simp only [h1, h2, h3]

/-- What a point's change brings with it, from a station in which the point alone has moved (R157, R159, R169). -/
theorem pointChanged_moved {told : List Instr} {i : Fin 32} {p : Point} {a b : Station} (hp : b.alm.points[i] = p)
    (ho : ∀ j : Fin 32, j ≠ i → b.alm.points[j] = a.alm.points[j]) (he : b.ppt.events ||| 1 = a.ppt.events ||| 1)
    (ht : b.alm.trip = a.alm.trip) (hs : b.lpc.staging.alarm = a.lpc.staging.alarm) (hq : b.lpc.queue = a.lpc.queue)
    (hg : b.signals = a.signals ++ (if b.alm.active.length = a.alm.active.length then []
      else [.sruContribution (.activeLength b.alm.active.length)]) ++ told)
    (hm : MovesPoints a b) : PointMoved told i p a (b.pointChanged i) ∧ (b.pointChanged i).alm.active = b.alm.active ∧
      (b.pointChanged i).alm.recent = b.alm.recent ∧ (b.pointChanged i).alm.flood = b.alm.flood := by
  have mv := hm.pointChanged i
  obtain ⟨⟨hr⟩, hn⟩ := announce_spec i b
  have same : ∀ (f : Point → Point), (vecModify b.alm.points i f)[i] = f p := fun f => by simp [← hp]
  have other : ∀ (f : Point → Point) (j : Fin 32), j ≠ i → (vecModify b.alm.points i f)[j] = a.alm.points[j] := by
    intro f j ne
    rw [← ho j ne]
    exact vecModify_ne _ _ _ _ _ fun e => ne (Fin.ext e.symm)
  generalize (b.announce i).alm.points[i].pending = u, (b.announce i).alm.points[i].announced = v,
    (b.announce i).lpc.queue = q at hr
  have whole : ∃ (x : Option TripRequest) (y : Option AlarmCommon) (e : Byte), b.pointChanged i = { b with
      alm := { b.alm with
        trip := x, points := vecModify b.alm.points i fun p => { p with pending := u, announced := v } }
      lpc := { b.lpc with
        queue := q
        staging := { b.lpc.staging with alarm := y, summary := some (b.pointChanged i).alm.summary } }
      ppt := { b.ppt with events := e } } ∧ e = a.ppt.events ||| 1 ∧
      x = (if (∃ c, p.cfg = some c ∧ c.cls = .trip) then b.tripNow else a.alm.trip) ∧
      y = (if x = a.alm.trip then a.lpc.staging.alarm else some { epoch := a.alm.epoch, trip := x }) := by
    have tp : (b.announce i).isTripPoint i = true ↔ ∃ c, p.cfg = some c ∧ c.cls = .trip := by
      have : (b.announce i).alm.points[i].cfg = p.cfg := by rw [hr, same]
      unfold Station.isTripPoint
      rw [this]
      cases p.cfg <;> simp
    have tn : ((b.announce i).post .alarmChange).tripNow = b.tripNow := by
      refine tripNow_congr ?_ ?_ ?_
      · rw [hr]; rfl
      · intro j
        rw [hr]
        simp [vecModify_get, apply_ite Point.cfg]
      · rw [hr]; rfl
    have ep : b.alm.epoch = a.alm.epoch := hm.move.epoch
    unfold Station.pointChanged
    dsimp only
    have e1 : b.ppt.events ||| 1 ||| 1 = a.ppt.events ||| 1 := by rw [BitVec.or_assoc, BitVec.or_self, he]
    by_cases h : ∃ c, p.cfg = some c ∧ c.cls = .trip
    · rw [if_pos (show (Station.isTripPoint i ((b.announce i).post .alarmChange)) = true from tp.2 h), recomputeTrip_spec, tn]
      refine ⟨b.tripNow,
        if b.tripNow = b.alm.trip then b.lpc.staging.alarm else some { epoch := b.alm.epoch, trip := b.tripNow },
        if b.tripNow = b.alm.trip then b.ppt.events ||| 1 else b.ppt.events ||| 1 ||| 1, ?_, ?_, (if_pos h).symm, ?_⟩
      · rw [hr]
        rfl
      · rw [e1, he, ite_self]
      · rw [ht, hs, ep]
    · have hf : Station.isTripPoint i ((b.announce i).post .alarmChange) ≠ true := fun e => h (tp.1 e)
      rw [if_neg hf]
      refine ⟨b.alm.trip, b.lpc.staging.alarm, b.ppt.events ||| 1, ?_, he, by rw [if_neg h, ht], by rw [ht, hs, if_pos rfl]⟩
      rw [hr]
      rfl
  obtain ⟨x, y, e, hz, rfl, hx, hy⟩ := whole
  have summary := congrArg (fun s : Station => s.lpc.staging.summary) hz
  have alm := congrArg Station.alm hz
  have queue := congrArg (fun s : Station => s.lpc.queue) hz
  have staged := congrArg (fun s : Station => s.lpc.staging.alarm) hz
  have signals := congrArg Station.signals hz
  have events := congrArg (fun s : Station => s.ppt.events) hz
  generalize b.pointChanged i = z at *
  dsimp only at summary queue staged signals events
  have zp : z.alm.points[i] = { p with pending := u, announced := v } := by rw [alm, same]
  refine ⟨⟨?_, ?_, events, summary, ?_, ?_, ?_, ?_, mv.move, mv.only⟩, by rw [alm], by rw [alm], by rw [alm]⟩
  · rw [zp]
  · intro j ne
    rw [alm]
    exact other _ j ne
  · have : z.tripNow = b.tripNow := by
      refine tripNow_congr ?_ ?_ ?_
      · rw [alm]
      · intro j
        rw [alm]
        simp [vecModify_get, apply_ite Point.cfg]
      · rw [alm]
    rw [this, alm]
    exact hx
  · rw [staged, alm]
    exact hy
  · rw [signals, hg, alm]
  · intro c hc
    have := hn c (by rw [hp, hc])
    rw [hr] at this
    unfold PointAnnounced at this ⊢
    dsimp only at this ⊢
    rw [same, hp, hq] at this
    rw [zp, queue]
    have fl : z.alm.flood = b.alm.flood := by rw [alm]
    rw [fl]
    exact this


/-- A new active list hands on its length where that changed (R158, R170). -/
theorem setActive_spec (l : List (Fin 32)) (d : Station) : d.setActive l = { d with
    alm := { d.alm with active := l }
    signals := d.signals ++ if l.length = d.alm.active.length then [] else [.sruContribution (.activeLength l.length)] } := by
  unfold Station.setActive
  dsimp only
  split
  · rw [List.append_nil]
    rfl
  · rfl

/-- The recent-raise list grows by now, and FLOOD may begin with its summary and its episode (R166, R170). -/
theorem addRecent_spec (d : Station) :
    let recent := d.alm.recent.drop (d.alm.recent.length - 31) ++ [d.now]
    let flood := d.alm.flood || decide (d.floodCfg.high < recent.length)
    ∃ (e : Byte) (y : Option AlarmSummary), d.addRecent = { d with
      alm := { d.alm with recent := recent, flood := flood }
      signals := d.signals ++ if d.alm.flood = flood then [] else [.sruContribution .floodEpisode]
      lpc := { d.lpc with staging := { d.lpc.staging with summary := y } }
      ppt := { d.ppt with events := e } } ∧ e ||| 1 = d.ppt.events ||| 1 := by
  intro recent flood
  unfold Station.addRecent
  dsimp only
  split
  · rename_i h
    simp only [Bool.and_eq_true, Bool.not_eq_true', decide_eq_true_eq] at h
    have hf : flood = true := by
      have : d.floodCfg.high < recent.length := h.2
      simp [flood, this]
    have h0 : d.alm.flood = false := h.1
    rw [hf, h0]
    refine ⟨d.ppt.events ||| 1, some { d.alm with recent := recent, flood := true : Alm }.summary, rfl, ?_⟩
    rw [BitVec.or_assoc, BitVec.or_self]
  · rename_i h
    have hf : flood = d.alm.flood := by
      by_cases hb : d.alm.flood = true
      · simp [flood, hb]
      · have h0 : d.alm.flood = false := by simpa using hb
        have : ¬ d.floodCfg.high < recent.length := fun k => h ((Bool.and_eq_true _ _).mpr ⟨by simpa using h0, decide_eq_true k⟩)
        simp [flood, h0, this]
    rw [hf, if_pos rfl, List.append_nil]
    exact ⟨d.ppt.events, d.lpc.staging.summary, rfl, rfl⟩


/-- The five steps of a raise, up to its announcement (R157, R158, R166, R170). -/
theorem raisePoint_steps (i : Fin 32) (d : Station) :
    let active := (d.alm.active.filter fun j => j != i) ++ [i]
    let recent := d.alm.recent.drop (d.alm.recent.length - 31) ++ [d.now]
    let flood := d.alm.flood || decide (d.floodCfg.high < recent.length)
    ∃ x : Station, d.raisePoint i = x.pointChanged i ∧
      x.alm = { d.alm with
        points := vecModify d.alm.points i fun p => { p with
          occurrence := p.occurrence + 1, raiseTime := d.sru.time, raiseShift := d.sru.shift, state := .raisedUnacked
          gone := false }
        active := active, recent := recent, flood := flood } ∧
      x.signals = d.signals ++ (if active.length = d.alm.active.length then [] else [.sruContribution (.activeLength active.length)]) ++
        ((if d.alm.flood = flood then [] else [.sruContribution .floodEpisode]) ++ [.sruContribution .raise]) ∧
      x.ppt.events ||| 1 = d.ppt.events ||| 1 ∧ x.lpc.queue = d.lpc.queue ∧ x.lpc.staging.alarm = d.lpc.staging.alarm ∧
      MovesPoints d x := by
  intro active recent flood
  obtain ⟨y, hy⟩ : ∃ y, y = d.onPoint i fun p => { p with
      occurrence := p.occurrence + 1, raiseTime := d.sru.time, raiseShift := d.sru.shift, state := .raisedUnacked
      gone := false } := ⟨_, rfl⟩
  have my : MovesPoints d y := hy ▸ (MovesPoints.refl d).onPoint i _
  have e1 := setActive_spec active y
  obtain ⟨e, s, h1, h2⟩ := addRecent_spec (y.setActive active)
  refine ⟨((y.setActive active).addRecent).contribute .raise, by rw [hy]; rfl, ?_, ?_, ?_, ?_, ?_,
    ((my.setActive active).addRecent).contribute .raise⟩
  · show ((y.setActive active).addRecent).alm = _
    rw [h1, e1, hy]
    rfl
  · show ((y.setActive active).addRecent).signals ++ [_] = _
    rw [h1, e1, hy]
    dsimp only
    simp only [List.append_assoc]
    rfl
  · show ((y.setActive active).addRecent).ppt.events ||| 1 = _
    rw [h1]
    dsimp only
    rw [h2, e1, hy]
    rfl
  · show ((y.setActive active).addRecent).lpc.queue = _
    rw [h1, e1, hy]
    rfl
  · show ((y.setActive active).addRecent).lpc.staging.alarm = _
    rw [h1, e1, hy]
    rfl

/-- A point given anew, by an operation that leaves its settings. -/
theorem movesPoint {i : Fin 32} {p : Point} (a : Station) (hc : p.cfg = a.alm.points[i].cfg) :
    MovesPoints a { a with alm := { a.alm with points := vecModify a.alm.points i fun _ => p } } := by
  refine ⟨⟨List.prefix_refl _, BitVec.and_self, rfl⟩, rfl, fun j h => ?_⟩
  dsimp only
  rw [vecModify_get]
  split
  · rename_i e
    subst e
    exact hc
  · rfl

theorem given_same {α : Type} {n : Nat} (v : Vector α n) (i : Fin n) (p : α) (f : α → α) :
    vecModify (vecModify v i fun _ => p) i f = vecModify v i fun _ => f p := by
  ext j hj
  simp only [vecModify_get]
  split <;> rfl

/-- What a raise of a point brings (R157, R158, R166, R170). -/
theorem raisePoint_moved {i : Fin 32} {p : Point} {a b : Station} (hc : p.cfg = a.alm.points[i].cfg)
    (hb : b = { a with alm := { a.alm with points := vecModify a.alm.points i fun _ => p } }) :
    PointMoved ((if a.alm.flood = (b.raisePoint i).alm.flood then [] else [.sruContribution .floodEpisode]) ++
        [.sruContribution .raise]) i
      { p with
        occurrence := p.occurrence + 1, raiseTime := a.sru.time, raiseShift := a.sru.shift, state := .raisedUnacked
        gone := false } a (b.raisePoint i) ∧
    (b.raisePoint i).alm.active = (a.alm.active.filter fun j => j ≠ i) ++ [i] ∧
    (b.raisePoint i).alm.recent = a.alm.recent.drop (a.alm.recent.length - 31) ++ [a.now] ∧
    (b.raisePoint i).alm.flood = (a.alm.flood || decide (a.floodCfg.high < (b.raisePoint i).alm.recent.length)) := by
  have mb := movesPoint a hc
  rw [← hb] at mb
  obtain ⟨x, e, hx, sg, ev, qu, al, mx⟩ := raisePoint_steps i b
  subst hb
  rw [given_same] at hx
  dsimp only at hx sg ev qu al
  have bne : (fun j => j != i) = fun j => decide (j ≠ i) := by
    funext j
    rw [Bool.eq_iff_iff]
    simp
  rw [bne] at hx sg
  have fl : x.alm.flood = _ := congrArg Alm.flood hx
  have ac : x.alm.active = _ := congrArg Alm.active hx
  have rc : x.alm.recent = _ := congrArg Alm.recent hx
  dsimp only at fl ac rc
  obtain ⟨h1, h2, h3, h4⟩ := pointChanged_moved (told := (if a.alm.flood = x.alm.flood then [] else [.sruContribution .floodEpisode]) ++
        [.sruContribution .raise]) (i := i) (a := a) (b := x) (p := { p with
        occurrence := p.occurrence + 1, raiseTime := a.sru.time, raiseShift := a.sru.shift, state := .raisedUnacked
        gone := false }) (by rw [hx]; simp) (fun j ne => by rw [hx]; exact vecModify_ne _ _ _ _ _ fun e => ne (Fin.ext e.symm))
        ev (by rw [hx]) al qu (by rw [sg, ac, fl]) (mb.trans mx)
  rw [e, h2, h3, h4]
  refine ⟨h1, ac, rc, ?_⟩
  rw [fl, rc]
  rfl

/-- A point that moves without a raise (R157, R158). -/
theorem pointChanged_settled {i : Fin 32} {p : Point} {a b : Station} (hc : p.cfg = a.alm.points[i].cfg)
    (hb : b = { a with alm := { a.alm with points := vecModify a.alm.points i fun _ => p } }) :
    PointSettled i p a.alm.active a (b.pointChanged i) := by
  have mb := movesPoint a hc
  rw [← hb] at mb
  obtain ⟨h1, h2, h3, h4⟩ := pointChanged_moved (told := []) (p := p) (a := a) (b := b) (i := i) (by rw [hb]; simp)
    (fun j ne => by rw [hb]; exact vecModify_ne _ _ _ _ _ fun e => ne (Fin.ext e.symm)) (by rw [hb]) (by rw [hb]) (by rw [hb])
    (by rw [hb]) (by rw [hb]; simp) mb
  exact ⟨h1, by rw [h2, hb], by rw [h3, hb], by rw [h4, hb]⟩

/-- A point's entry to NORMAL (R157, R158). -/
theorem pointNormal_settled {i : Fin 32} {p : Point} {a b : Station} (hc : p.cfg = a.alm.points[i].cfg)
    (hb : b = { a with alm := { a.alm with points := vecModify a.alm.points i fun _ => p } }) :
    PointSettled i { p with state := .normal, gone := false, firstOut := false } (a.alm.active.filter fun j => j ≠ i) a
      (b.pointNormal i) := by
  have mb := movesPoint a hc
  rw [← hb] at mb
  have bne : (fun j => j != i) = fun j => decide (j ≠ i) := by
    funext j
    rw [Bool.eq_iff_iff]
    simp
  unfold Station.pointNormal
  dsimp only
  obtain ⟨x, hx⟩ : ∃ x, x = Station.setActive
      ((b.onPoint i fun p => { p with state := .normal, gone := false, firstOut := false }).alm.active.filter
      fun j => j != i) (b.onPoint i fun p => { p with state := .normal, gone := false, firstOut := false }) := ⟨_, rfl⟩
  have mx : MovesPoints b x := hx ▸ ((MovesPoints.refl b).onPoint i _).setActive _
  rw [setActive_spec] at hx
  have hp : (b.onPoint i fun p => { p with state := .normal, gone := false, firstOut := false }).alm.points =
      vecModify a.alm.points i fun _ => { p with state := .normal, gone := false, firstOut := false } := by
    rw [hb]
    exact given_same a.alm.points i p fun p => { p with state := .normal, gone := false, firstOut := false }
  obtain ⟨h1, h2, h3, h4⟩ := pointChanged_moved (told := []) (p := { p with state := .normal, gone := false, firstOut := false })
    (a := a) (b := x) (i := i) (by rw [hx, hp]; simp)
    (fun j ne => by rw [hx, hp]; exact vecModify_ne _ _ _ _ _ fun e => ne (Fin.ext e.symm)) (by rw [hx, hb]; rfl) (by rw [hx, hb]; rfl)
    (by rw [hx, hb]; rfl) (by rw [hx, hb]; rfl) (by rw [hx, hb, List.append_nil]; rfl) (mb.trans mx)
  rw [setActive_spec]
  rw [← hx]
  refine ⟨h1, ?_, ?_, ?_⟩
  · rw [h2, hx, hb, bne]; rfl
  · rw [h3, hx, hb]; rfl
  · rw [h4, hx, hb]; rfl


/-- The qualified condition becomes present (R155, R157). -/
theorem qualify_spec (i : Fin 32) (d : Station) :
    PointRaises i { d.alm.points[i] with qualified := true, delay := none } d (d.qualify i) := by
  have hb : (d.onPoint i fun p => { p with qualified := true, delay := none }) = { d with alm := { d.alm with
      points := vecModify d.alm.points i fun _ => { d.alm.points[i] with qualified := true, delay := none } } } := by
    show ({ d with alm := { d.alm with points := vecModify d.alm.points i _ } } : Station) = _
    rw [vecModify_congr _ _ _ fun _ => { d.alm.points[i] with qualified := true, delay := none }]
    rfl
  have hp : (d.onPoint i fun p => { p with qualified := true, delay := none }).alm.points[i] =
      { d.alm.points[i] with qualified := true, delay := none } := by simp
  have hr := raisePoint_moved (p := { d.alm.points[i] with qualified := true, delay := none }) rfl hb
  unfold Station.qualify
  dsimp only
  rw [hp]
  dsimp only
  unfold PointRaises
  dsimp only
  split
  · rename_i h
    exact ⟨fun _ => hr, fun k => (k (.inl h)).elim⟩
  · rename_i h
    exact ⟨fun _ => hr, fun k => (k (.inr (.inl h))).elim⟩
  · rename_i h g
    exact ⟨fun _ => hr, fun k => (k (.inr (.inr ⟨h, g⟩))).elim⟩
  · rename_i h1 h2 h3
    refine ⟨fun k => ?_, fun _ => hb⟩
    rcases k with k | k | k
    · exact (h1 k).elim
    · exact (h2 k).elim
    · exact (h3 k.1 k.2).elim


/-- The qualified condition becomes absent (R155, R157). -/
theorem unqualify_spec (i : Fin 32) (c : PointCfg) (d : Station) (hc : d.alm.points[i].cfg = some c) :
    PointReturns i c.latched { d.alm.points[i] with qualified := false, delay := none } d (d.unqualify i) := by
  have hb : (d.onPoint i fun p => { p with qualified := false, delay := none }) = { d with alm := { d.alm with
      points := vecModify d.alm.points i fun _ => { d.alm.points[i] with qualified := false, delay := none } } } := by
    show ({ d with alm := { d.alm with points := vecModify d.alm.points i _ } } : Station) = _
    rw [vecModify_congr _ _ _ fun _ => { d.alm.points[i] with qualified := false, delay := none }]
    rfl
  have hp : (d.onPoint i fun p => { p with qualified := false, delay := none }).alm.points[i] =
      { d.alm.points[i] with qualified := false, delay := none } := by simp
  have more : ∀ f : Point → Point, ((d.onPoint i fun p => { p with qualified := false, delay := none }).onPoint i f) = { d with
      alm := { d.alm with
        points := vecModify d.alm.points i fun _ => f { d.alm.points[i] with qualified := false, delay := none } } } := by
    intro f
    rw [hb]
    show ({ d with alm := { d.alm with points := vecModify (vecModify _ _ _) i f } } : Station) = _
    rw [given_same]
  unfold Station.unqualify
  dsimp only
  rw [hp]
  dsimp only
  unfold PointReturns
  dsimp only
  split
  · rename_i h
    refine ⟨fun _ hl => ?_, fun _ hl => ?_, fun k => ?_, fun k => ?_⟩
    · split
      · exact more _
      · rename_i hk
        rw [hc] at hk
        exact (hk hl).elim
    · split
      · rename_i hk
        rw [hc] at hk
        exact absurd (show c.latched = true from hk) (by simp [hl])
      · exact pointChanged_settled (p := { d.alm.points[i] with qualified := false, delay := none, state := .returnedUnacked })
          rfl (more _)
    · rw [h] at k; cases k
    · rw [h] at k; rcases k with k | k <;> cases k
  · rename_i h
    refine ⟨fun k => ?_, fun k => ?_, fun _ => ?_, fun k => ?_⟩
    · rw [h] at k; cases k
    · rw [h] at k; cases k
    · exact pointNormal_settled (p := { d.alm.points[i] with qualified := false, delay := none }) rfl hb
    · rw [h] at k; rcases k with k | k <;> cases k
  · rename_i h1 h2
    exact ⟨fun k => (h1 k).elim, fun k => (h1 k).elim, fun k => (h2 k).elim, fun _ => hb⟩

/-- An acknowledgement of a point (R157, R162). -/
theorem ackPoint_spec (i : Fin 32) (d : Station) :
    let p := d.alm.points[i]
    (p.state = .raisedUnacked → p.gone = false → PointSettled i { p with state := .raisedAcked } d.alm.active d (d.ackPoint i)) ∧
    ((p.state = .raisedUnacked ∧ p.gone = true) ∨ p.state = .returnedUnacked →
      PointSettled i { p with state := .normal, gone := false, firstOut := false } (d.alm.active.filter fun j => j ≠ i) d
        (d.ackPoint i)) ∧
    (p.state = .normal ∨ p.state = .raisedAcked → d.ackPoint i = d) := by
  intro p
  have whole : d = { d with alm := { d.alm with points := vecModify d.alm.points i fun _ => p } } := by
    rw [vecModify_id _ _ _ rfl]
  have one : (d.onPoint i fun p => { p with state := .raisedAcked }) = { d with alm := { d.alm with
      points := vecModify d.alm.points i fun _ => { p with state := .raisedAcked } } } := by
    show ({ d with alm := { d.alm with points := vecModify d.alm.points i _ } } : Station) = _
    rw [vecModify_congr _ _ _ fun _ => { p with state := .raisedAcked }]
    rfl
  unfold Station.ackPoint
  split
  · rename_i h g
    refine ⟨fun _ _ => pointChanged_settled rfl one, fun k => ?_, fun k => ?_⟩
    · rcases k with ⟨-, k⟩ | k
      · rw [g] at k; cases k
      · rw [h] at k; cases k
    · rcases k with k | k <;> (rw [h] at k; cases k)
  · rename_i h g
    refine ⟨fun _ k => ?_, fun _ => pointNormal_settled rfl whole, fun k => ?_⟩
    · rw [g] at k; cases k
    · rcases k with k | k <;> (rw [h] at k; cases k)
  · rename_i h
    refine ⟨fun k => ?_, fun _ => pointNormal_settled rfl whole, fun k => ?_⟩
    · rw [h] at k; cases k
    · rcases k with k | k <;> (rw [h] at k; cases k)
  · rename_i h1 h2 h3
    refine ⟨fun h g => (h2 h g).elim, fun k => ?_, fun _ => rfl⟩
    rcases k with ⟨h, g⟩ | h
    · exact (h3 h g).elim
    · exact (h1 h).elim

/-- An unshelved point that peers may hold in another state is announced as it comes back, and the summary takes it in (R165). -/
theorem unshelvePoint_spec (i : Fin 32) (c : PointCfg) (d : Station) (hc : d.alm.points[i].cfg = some c)
    (hs : d.alm.points[i].shelf ≠ none) (hp : d.alm.points[i].state ≠ .normal ∨ d.alm.points[i].announced ≠ .known .normal) :
    let x := d.unshelvePoint i
    let alm := { d.alm with points := vecModify d.alm.points i fun p => { p with shelf := none } }
    PointAnnounced i c { d.alm.points[i] with shelf := none } d x ∧
    x = { d with
      alm := { alm with points := vecModify alm.points i fun q =>
        { q with pending := x.alm.points[i].pending, announced := x.alm.points[i].announced } }
      lpc := { d.lpc with queue := x.lpc.queue, staging := { d.lpc.staging with summary := some alm.summary } } } := by
  intro x alm
  let y := (d.onPoint i fun p => { p with shelf := none }).writeSummary
  have hy : y.alm.points[i] = { d.alm.points[i] with shelf := none } := by
    simp only [y, Station.writeSummary, Station.onPoint, Station.onAlm, Station.onStaging, Station.onLpc]
    rw [Fin.getElem_fin, vecModify_get, if_pos rfl]
    rfl
  have hx : x = y.announce i := by
    simp only [x, Station.unshelvePoint]
    rw [if_neg (by simpa using hs)]
    change (if (y.alm.points[i].state ≠ .normal || y.alm.points[i].announced ≠ .known .normal) = true then _ else _) = _
    rw [hy, if_pos (by simpa using hp)]
  obtain ⟨t, s⟩ := announce_spec i y
  have s := s c (by rw [hy]; exact hc)
  rw [hy, ← hx] at s
  refine ⟨s, ?_⟩
  have r := t.rest
  rw [← hx] at r
  exact r

end Sys2Proof.Machine
end

