-- ==== Sys2Proof/Laws/Pulse.lean ====
section
/-! SUPPORT. What a counted edge of a pair and its taking back change. -/

namespace Sys2Proof.Machine

/-- Two changes of one entry are one change. -/
theorem vecModify_twice {α : Type} {n : Nat} (v : Vector α n) (i : Fin n) (f g : α → α) :
    vecModify (vecModify v i f) i g = vecModify v i fun x => g (f x) := by
  simp [vecModify]

/-- A change of one entry is told by what it makes of that entry. -/
theorem vecModify_of_eq {α : Type} {n : Nat} (v : Vector α n) (i : Fin n) (f g : α → α) (h : f v[i] = g v[i]) :
    vecModify v i f = vecModify v i g := by
  simp only [vecModify]; rw [h]

/-- An edge counted and taken back at once leaves the station as it was, but that the pair has no last counted edge (R64). -/
theorem takeBackEdge_countedEdge (base input : Fin 8) (k : ChannelCfg) (dir : Direction) (d : Station) :
    ∃ u, (d.countedEdge base input k dir).piu.channels[base].counted = some u ∧ u.moment = d.now ∧ u.input = input ∧
      (d.countedEdge base input k dir).takeBackEdge base u = d.onChannel base fun c => { c with counted := none } := by
  let c := d.piu.channels[base]
  let pos := if dir = .forward then c.position + 1 else c.position - 1
  refine ⟨⟨d.now, input, c.turns k dir pos, c.position, c.direction, c.interval, c.restarted, c.events, c.still⟩,
    ?_, rfl, rfl, ?_⟩
  · unfold Station.countedEdge
    simp only []
    split <;> simp [Station.onChannel, Station.onPiu, Station.raise, c, pos]
  · unfold Station.countedEdge Station.takeBackEdge
    simp only []
    cases e : c.turns k dir pos <;> simp only [c, pos] at e <;> simp only <;>
      simp [Station.onChannel, Station.onPiu, Station.raise, vecModify_twice] <;>
      exact vecModify_of_eq _ _ _ _ rfl

end Sys2Proof.Machine
end

