-- ==== Sys2Proof/Laws/Shift.lean ====
section
/-! SUPPORT. What a close of the open shift does (R178, R180, R181). -/

namespace Sys2Proof.Machine

/-- Completing a report touches the ring and the event set alone (R180). -/
theorem completeReport_spec (d : Station) :
    (d.sru.collecting = none ∧ d.completeReport = d) ∨
      ∃ r, d.sru.collecting = some r ∧ d.completeReport = { d with
        sru := { d.sru with ring := d.sru.ring.dropLast ++ [r.completed] }
        ppt := { d.ppt with events := d.ppt.events ||| 2 } } := by
  unfold Station.completeReport
  split <;> rename_i h
  · exact Or.inr ⟨_, h, rfl⟩
  · exact Or.inl ⟨h, rfl⟩

/-- The closing totals of a fresh report, out of the open accumulators (R178 step 6). -/
theorem newReport_closing (cause : CloseCause) (d : Station) : (d.newReport cause).closing =
    { shift := d.sru.shift
      heat := BitVec.ofNat 32 (min 4294967295 ((d.newReport cause).feed.map fun e => e.2.heat).sum)
      firing := BitVec.ofNat 32 (if d.burnerDuty then d.sru.acc.burner.firingSeconds else 0)
      strokes := BitVec.ofNat 32 (if d.coolerDuty then min 4294967295 ((((List.finRange 4).filterMap fun i =>
        if d.cfg.comps[i].isSome then some (i, d.sru.acc.comps[i]) else none)).map fun e => e.2.strokes).sum else 0)
      trips := BitVec.ofNat 16 (if d.burnerDuty then d.sru.acc.burner.trips else 0) } := by
  unfold Report.closing Station.newReport
  cases d.burnerDuty
  all_goals cases d.coolerDuty <;> rfl

/-- A fresh report does not depend on what completing the one before it changes. -/
theorem newReport_of_completed (cause : CloseCause) (d : Station) : d.completeReport.newReport cause = d.newReport cause := by
  rcases completeReport_spec d with ⟨-, h⟩ | ⟨r, -, h⟩
  · rw [h]
  · rw [h]
    rfl

/-- Completing a report leaves its closing totals. -/
theorem completed_closing (r : Report) : r.completed.closing = r.closing := rfl

/-- The peers of a fresh report. -/
theorem newReport_floor (cause : CloseCause) (d : Station) : (d.newReport cause).floor =
    (if cause = .interrupted then [] else d.lpc.live).map fun i =>
      { station := i, mark := .outstanding, heat := 0, firing := 0, strokes := 0, trips := 0 } := by
  unfold Station.newReport
  by_cases h : cause = .interrupted
  · simp only [h, if_true, List.map_nil]
  · simp only [h, if_false]

/-- A close is what ShiftClosed says. -/
theorem closeShift_spec (cause : CloseCause) (n : Half) (d : Station) : ShiftClosed cause n d (d.closeShift cause n) := by
  have hs : d.completeReport.lpc = d.lpc := by
    rcases completeReport_spec d with ⟨-, h⟩ | ⟨r, -, h⟩
    all_goals rw [h]
  have ha : ((d.newReport cause).floor.isEmpty || d.lpc.state != .up) =
      decide ((if cause = .interrupted then [] else d.lpc.live) = [] ∨ d.lpc.state ≠ .up) := by
    rw [newReport_floor, Bool.eq_iff_iff]
    by_cases hc : cause = .interrupted <;> simp [hc]
  unfold ShiftClosed Station.closeShift
  simp only [newReport_of_completed, hs, apply_ite Report.closing, completed_closing, ite_self, newReport_closing, ha]
  have hf := newReport_floor cause d
  generalize (if cause = CloseCause.interrupted then [] else d.lpc.live) = peers at hf ⊢
  have hn : d.newReport cause = { d.newReport cause with
      floor := peers.map fun i => { station := i, mark := .outstanding, heat := 0, firing := 0, strokes := 0, trips := 0 } } := by
    rw [← hf]
  have hc : (d.newReport cause).completed = { d.newReport cause with
      complete := true
      floor := peers.map fun i => { station := i, mark := .absent, heat := 0, firing := 0, strokes := 0, trips := 0 } } := by
    unfold Report.completed
    rw [hf, List.map_map]
    rfl
  have ho : ∀ e : Byte, (e ||| HostEvent.reportComplete.bit) ||| HostEvent.reportComplete.bit = e ||| HostEvent.reportComplete.bit := by decide
  rw [hc]
  rcases completeReport_spec d with ⟨h, hd⟩ | ⟨r, h, hd⟩
  all_goals
    rw [hd, h]
    by_cases hp : peers = [] ∨ d.lpc.state ≠ .up
    · simp only [hp, decide_true, if_true, or_true]
      first
        | rfl
        | simp only [Station.openShift, Station.post, Station.onSru, Station.onPpt, Station.onStaging, Station.onLpc]
          rw [show d.ppt.events ||| 2 = d.ppt.events ||| HostEvent.reportComplete.bit from rfl, ho]
          rfl
    · rw [hn]
      simp only [hp, decide_false, if_false, Bool.false_eq_true]
      rfl

end Sys2Proof.Machine
end

