-- ==== Sys2Proof/Laws/Step.lean ====
section
/-! SUPPORT. What every command does alike: it answers a next state, and the queue of commands is untouched and unread. -/

namespace Sys2Proof.Machine

/-- What a command does to the station. -/
def effect (c : Instr) (d : Station) : Station :=
  match exec c { dev := d, pending := [] } with
  | .next t => t.dev
  | _ => d

theorem exec_of_act {c : Instr} (f : Station → Station) (h : ∀ s, exec c s = act c f s) (s : State) :
    exec c s = .next { s with dev := effect c s.dev } := by
  unfold effect
  rw [h, h]
  rfl

/-- Every command answers a next state, which differs in the station alone; what it does to the station does not depend on the
commands that wait. -/
theorem exec_effect (c : Instr) (s : State) : exec c s = .next { s with dev := effect c s.dev } := by
  cases c
  all_goals
    apply exec_of_act
    case h =>
    intro s
    simp only [exec,
    execPowerOn, execResetLineAssert, execResetLineRelease, execTrainArrival, execFrameOfUnknownType, execClaimMarkArrival,
    execBreakMarkArrival, execClaimMarkSend, execBreakMarkSend, execTrainWatchExpiry, execReleaseTimerExpiry,
    execClaimLimitExpiry, execLoopGraceExpiry, execNoticeLossHoldExpiry, execPulsePinChange, execAcceptedEdge,
    execCaptureOverflow, execStillTimerExpiry, execInputPinChange, execLineChange, execPatternTimerExpiry,
    execCarrierPeriodStart, execActivePartEnd, execIgniterPulseWidthExpiry, execIgniterSpacingExpiry, execDouForceStart,
    execDouForceEnd, execBurnerStart, execBurnerStop, execLockoutReset, execSetHeatDemand, execBsqScannerCapture,
    execBsqScannerNoSignal, execFlameFailTimerExpiry, execBsqAirFlowChange, execBsqIdFanChange, execBsqEstopChange,
    execBsqPurgeTimerExpiry, execBsqIgnitionTimerExpiry, execPilotTrialLimitExpiry, execMainTrialLimitExpiry,
    execPostPurgeTimerExpiry, execShortfallTimerExpiry, execCoolerLossTimerExpiry, execTripHoldExpiry,
    execFiringSecondTimerExpiry, execBsqFloorRefresh, execBsqLeftUp, execBsqLoopGraceExpiry, execBsqPanelLapse,
    execFeedEnable, execFeedDisable, execFeedClearFault, execCalorificUpdate, execFdcFloorRefresh, execFdcWeigherWindow,
    execFdcWeigherNoSignal, execFdcDirectionChange, execFdcIndex, execFdcStill, execFdcActiveValueChange, execFdcEstopChange,
    execFdcLeftUp, execFdcLoopGraceExpiry, execFdcEnteredUp, execRunDownTimerExpiry, execRunningSecondTimerExpiry,
    execCoolerEnable, execCoolerDisable, execSetStrokeBase, execGrateClearFault, execSetFan, execDueTimeReached,
    execGccEndForwardChange, execGccEndReturnChange, execForwardLimitExpiry, execDwellExpiry, execReturnLimitExpiry,
    execGccEstopChange, execGccPressureCapture, execGccPressureNoSignal, execGccFloorRefresh, execGccFanActiveValueChange,
    execFanRunSecondTimerExpiry, execOnDelayExpiry, execOffDelayExpiry, execAlmPlaceFree, execRecentRaiseExpiry,
    execAlmFloorRefresh, execAckAlarm, execShelve, execUnshelve, execShelfExpiry, execReadAlarms, execReadMirror,
    execSecondTimerExpiry, execNotUpSecondTimerExpiry, execSruContribution, execSruFloorRefresh, execSruLeftUp,
    execSruEnteredUp, execSetFloorTime, execReadReport, execSelectAssert, execSelectRelease, execConfigure, execStart,
    execService, execServiceOpenPoint, execServicePeriodExpiry, execReadEvents, execReadResetCause, execReadStatus,
    execReadCounters, execReadFloor, execReadBreak, execReadInput, execReadOutput]
    rfl

theorem exec_pending {c : Instr} {s t : State} (h : exec c s = .next t) : t.pending = s.pending := by
  rw [exec_effect] at h
  cases h
  rfl

end Sys2Proof.Machine
end

