-- ==== Sys2Proof/Tests/Slice0.lean ====
section
/-! SUPPORT. Small tests: the well-formedness smoke, worked examples, and a witness for the hypotheses of every statement. -/

namespace Sys2Proof.Tests

open Sys2Proof Sys2Proof.Machine

/-! ## Helpers -/

/-- A channel section on the 1 µs timebase, its filter off. -/
def chan (fn : ChannelFn) (inst : Nat) (mode : PulseMode) (count : Nat) : Option ChannelCfg :=
  some { fn := fn, inst := inst, mode := mode, falling := false, filter := .off, tb := .us1, count := count, swapped := false }

/-- An input line section with a debounce of 1 ms. -/
def inLine (fn : LineFn) (inst : Nat) : Option LineCfg := some { fn := fn, inst := inst, activeLow := false, debounce := 1 }

/-- An output line section. -/
def outLine (kind : OutKind) (fn : OutFn) (inst : Nat) : Option OutCfg :=
  some { kind := kind, fn := fn, inst := inst, carrier := 1000, inverted := false, interval := 10, pulseWidth := 5, spacing := 2 }

/-- A feed channel section of burner A. -/
def feedCfg (weight : Nat) : FeedCfg :=
  { letter := .a, weight := weight, cv := 20000, maxRate := 900, maxFine := 4000, ratePerFine := 1000, rampRate := 100,
    pulseWeight := 10, stall := 100 }

/-- A compartment section. -/
def compCfg : CompCfg :=
  { minRate := 20, maxRate := 40, baseRate := 30, target := 1000, gain := 10, f0 := 100, scale := 10, forwardLimit := 100,
    dwell := 50, returnLimit := 100, capacity := 100 }

/-- A burner A section. -/
def burnerCfg : BurnerCfg :=
  { letter := .a, bandMin := 5000, bandMax := 125000, proofCount := 2, failResponse := 2, purgeTime := 30, pilotLimit := 5,
    ignitionTime := 2, mainLimit := 10, lightOff := 100, maxDemand := 4000, rampRate := 50, coolerRequired := false,
    coolerLossTime := 0, tolerance := 10, shortfallDelay := 5 }

/-- An alarm point section without delays. -/
def alarm (kind : CondKind) (inst : Nat) (cls : AlarmClass) (latched : Bool) : Option PointCfg :=
  some { kind := kind, inst := inst, cls := cls, latched := latched, onDelay := 0, offDelay := 0, threshold := 0 }

/-- A record with every duty that START accepts, as station 5. -/
def record : ConfigRecord :=
  { station := some 5
    loop := some { cycle := 10, watchMultiple := 3, rank := 4, claimLimit := 100, grace := 1 }
    shift := some [5, 43200]
    service := some { period := 2, openFraction := 100 }
    flood := some { high := 6, low := 2 }
    channels := #v[chan .flameScanner 1 .period 1, chan .flameScanner 2 .period 1, chan .encoder 1 .quadrature 1,
      chan .encoder 1 .quadrature 1, chan .weigher 1 .countWindow 5, chan .pressure 1 .period 1, none, none]
    lines := #v[inLine .airFlowProven 0, inLine .idFanRunning 0, inLine .estop 0, inLine .endForward 1, inLine .endReturn 1,
      inLine .index 2, inLine .general 0, inLine .endForward 2, inLine .endReturn 2, none, none, none]
    outputs := #v[outLine .reference .feeder 1, outLine .reference .feeder 2, outLine .reference .fan 1,
      outLine .valve .pilotValve 0, outLine .valve .mainFuelRelease 0, outLine .igniter .igniter 0,
      outLine .strokeForward .compartment 1, outLine .strokeReturn .compartment 1, outLine .strokeForward .compartment 2,
      outLine .strokeReturn .compartment 2, none, none, none, none, none, none]
    burner := some burnerCfg
    feeds := #v[some (feedCfg 60), some { feedCfg 40 with stall := 0 }]
    comps := #v[some compCfg, some compCfg, none, none]
    points := (Vector.replicate 32 none).set 0 (alarm .estop 0 .trip true) |>.set 1 (alarm .inputLine 6 .low false)
      |>.set 2 (alarm .loopLost 0 .high true) |>.set 3 (alarm .panelAbsent 0 .high false) }

/-- A state with no command waiting. -/
def at_ (d : Station) : State := { dev := d, pending := [] }

/-- The station a command leaves. -/
def after (c : Instr) (d : Station) : Station :=
  match exec c (at_ d) with
  | .next t => t.dev
  | _ => d

/-- The station in CONFIG with the record loaded. -/
def loaded : Station := { Station.first with ppt := { Ppt.first .powerOn with cfg := record } }

/-- The station as START leaves it. -/
def started : Station := after .start loaded

/-- The station started and in UP. -/
def up : Station := started.onLpc fun l => { l with state := .up, bypass := false }

/-! ## Well-formed commands: an ill-formed term for each check -/

theorem test_wf_frame_type : (Instr.frameOfUnknownType 1).wf = false ∧ (Instr.frameOfUnknownType 2).wf = false ∧
    (Instr.frameOfUnknownType 3).wf = false ∧ (Instr.frameOfUnknownType 4).wf = true := by decide
theorem test_wf_scanner : (Instr.bsqScannerCapture 0 16777216 0 .us1).wf = false ∧
    (Instr.bsqScannerCapture 0 0 16777216 .us1).wf = false ∧ (Instr.bsqScannerCapture 0 16777215 0 .us1).wf = true := by decide
theorem test_wf_pressure : (Instr.gccPressureCapture 0 16777216 0 .us1).wf = false ∧
    (Instr.gccPressureCapture 0 0 16777216 .us1).wf = false := by decide
theorem test_wf_weigher : (Instr.fdcWeigherWindow 0 16777216 1 false .us1).wf = false ∧
    (Instr.fdcWeigherWindow 0 0 0 false .us1).wf = false ∧ (Instr.fdcWeigherWindow 0 0 256 false .us1).wf = false := by decide
theorem test_wf_direction : (Instr.fdcDirectionChange 0 .none 0).wf = false := by decide
theorem test_wf_index : (Instr.fdcIndex 0 false 32769).wf = false := by decide
theorem test_wf_active_value : (Instr.fdcActiveValueChange 0 4081 .force).wf = false ∧
    (Instr.gccFanActiveValueChange 0 4081 .force).wf = false := by decide
theorem test_wf_contribution : (Instr.sruContribution (.activeLength 33)).wf = false ∧
    (Instr.sruContribution (.trip { time := 0, cause := .estop, station := some 17, point := none, condition := none })).wf = false ∧
    (Instr.sruContribution (.trip { time := 0, cause := .estop, station := some 0, point := none, condition := none })).wf = false ∧
    (Instr.sruContribution (.trip { time := 0, cause := .estop, station := none, point := some 32, condition := none })).wf = false := by
  decide

/-! ## Worked examples -/

/-- A station image of a peer that fires burner A with one feed channel READY. -/
def peer (n : Byte) : Image :=
  { station := n, seq := 1, sig := 7, epoch := 1, panelPresent := true, tripRequest := false, firstPoint := 255
    firstKind := none, openShift := 9, burner := some { letter := .a, state := .firing, demand := 1000 }
    feed := some [{ channel := 1, letter := .a, state := .ready, weight := 50, capacity := 1000, delivered := 500 }]
    cooler := none, summary := { unacked := 0, highest := .none, flood := 0 }
    closing := { shift := 8, heat := 1, firing := 2, strokes := 3, trips := 4 }, notices := [] }

/-- A peer of index 2 in view with an image. -/
def seeing (g : Image) (d : Station) : Station := d.onLpc fun l =>
  { l with live := [2], floor := vecModify l.floor 2 fun _ => { image := some g, seq := g.seq, age := 0, seen := true } }

/-- A train head of an origin. -/
def head (origin : Byte) : Head := { origin := origin, seq := 4, time := 100, shift := 9, size := 4, sig := 7 }

/-- A train of that head with empty slots but for one of station 3. -/
def train (origin : Byte) (g : Option Image) : List Byte :=
  (head origin).bytes.tail ++ [0, 0] ++ (match g with | some g => slotBytes g | none => [0]) ++ List.replicate 13 0

/-- The response that waits for the host. -/
def reply (d : Station) : Option (RespCode × Byte) := d.ppt.holder.map fun r => (r.code, r.reason)

/-- A line of the plant is ACTIVE. -/
def lineOn (i : Fin 12) (d : Station) : Station := d.onInput i fun l => { l with active := true }

/-- The loop state replaced. -/
def inState (st : LoopState) (d : Station) : Station := d.onLpc fun l => { l with state := st }

/-- The LOOP section's origin rank replaced. -/
def ranked (rank : Nat) (d : Station) : Station :=
  d.onPpt fun p => { p with cfg := { p.cfg with loop := p.cfg.loop.map fun c => { c with rank := rank } } }

theorem test_no_word_spells_a_command : decodeTableWord 8 0 = none ∧ decodeTableWord 32 4294967295 = none := by decide
theorem test_start_accepts_the_record : Check.all record = none ∧ started.lpc.state = .joining ∧ started.ppt.started = true := by
  decide +kernel
theorem test_check_code_of_the_digits : checkCode [49, 50, 51, 52, 53, 54, 55, 56, 57] = 0x29B1 := by decide +kernel
theorem test_train_reads_back : readHead ((train 3 (some (peer 3))).take 14) = some (head 3) ∧
    viewSlot 2 ((splitSlots 16 ((train 3 (some (peer 3))).drop 14)).1.getD 2 []) = .pass (peer 3) := by decide +kernel
/-- The standard check value of the cyclic code, and one step of it from a code whose high bit is set and one whose is not. -/
theorem test_witness_check_code :
    codeOf [49, 50, 51, 52, 53, 54, 55, 56, 57] = 0x29B1 ∧ codeOf [] = 0xFFFF ∧ codeBit 0x8000 false = 0x1021 ∧
    codeBit 0x8000 true = 0 ∧ codeBit 1 true = 0x1023 ∧ codeBit 1 false = 2 := by decide +kernel

/-- Heads at the ends of their ranges and one past them, and one with a wrong check code (R4, R199). -/
theorem test_witness_heads :
    let bytes := fun h : Head => h.bytes.tail
    let sized := fun n => { head 3 with size := n }
    (head 3).bytes.head? = some 1 ∧ (head 3).bytes.length = 15 ∧ readHead (bytes (head 1)) = some (head 1) ∧
    readHead (bytes (head 16)) = some (head 16) ∧ readHead (bytes (head 0)) = none ∧ readHead (bytes (head 17)) = none ∧
    readHead (bytes (sized 1)) = some (sized 1) ∧ readHead (bytes (sized 16)) = some (sized 16) ∧
    readHead (bytes (sized 0)) = none ∧ readHead (bytes (sized 17)) = none ∧
    readHead ((bytes (head 3)).set 13 ((bytes (head 3)).getD 13 0 + 1)) = none ∧ readHead (bytes (head 3) ++ [0]) = none ∧
    (bytes (head 3)).take 3 = [3, 0, 4] := by decide +kernel

/-- A slot passes at its own place alone, with its check code, and a train that ends in a slot leaves it cut (R3, R6, R199; log 11). -/
theorem test_witness_slots :
    let slot := slotBytes (peer 3)
    let whole := slot :: List.replicate 15 [(0 : Byte)]
    let full := slotBytes { peer 3 with feed := (peer 3).feed.map fun l => l ++ l, notices := (List.range 4).map fun n =>
      { sender := 3, seq := BitVec.ofNat 8 n, mask := 4, body := .timeSet 9 } }
    viewSlot 2 slot = .pass (peer 3) ∧ slot = withCheck (BitVec.ofNat 8 (peer 3).bytes.length :: (peer 3).bytes) ∧
    viewSlot 3 slot = .fail ∧ viewSlot 2 (slot.set 3 9) = .fail ∧ viewSlot 2 slot.dropLast = .fail ∧ viewSlot 2 [] = .fail ∧
    viewSlot 2 [0] = .empty ∧ viewSlot 2 full ≠ .fail ∧
    viewSlot 2 (slotBytes { peer 3 with feed := some [] }) = .fail ∧
    viewSlot 2 (slotBytes { peer 3 with notices := [{ sender := 4, seq := 0, mask := 0, body := .timeSet 9 }] }) = .fail ∧
    splitSlots 16 (whole.flatten ++ [9]) = (whole, [9]) ∧ whole.length = 16 ∧
    splitSlots 16 ([0] ++ slot.take 5) = ([0] :: slot.take 5 :: List.replicate 14 [], []) ∧
    splitSlots 16 [] = (List.replicate 16 [], []) := by decide +kernel

theorem test_sharing_example : shareHeat 60000 [(35714, 60), (16666, 0), (7619, 40)] = [35714, 16666, 7619] := by decide +kernel
theorem test_pattern_example : ((List.range 16).map (stepFor 1000)).sum = 1000 ∧ stepFor 1000 0 = 63 ∧ stepFor 1000 15 = 62 := by
  decide +kernel
theorem test_joining_takes_the_first_train :
    (after (.trainArrival (train 3 (some (peer 3)))) started).lpc.floor[2].seen = true := by decide +kernel

/-- The service example of the panel port chapter: a period of 4 s at 75 %, with the responses in its order. -/
theorem test_service_example :
    let wait := fun (us : Nat) (d : Station) => { d with now := d.now + us }
    let a := after .start (loaded.onPpt fun p => { p with cfg := { p.cfg with
      service := some { period := 4, openFraction := 75 }, points := Vector.replicate 32 none } })
    let b := wait 200000 (after .service (wait 200000 a))
    let c := wait 200000 (after .readEvents b)
    let d := wait 200000 (after .service c)
    let e := wait 1700000 (after .service d)
    let f := after .service (after .serviceOpenPoint e)
    b.ppt.window = .closed ∧ b.ppt.openAt = some 1200000 ∧ c.ppt.holder.map (·.body) = some [4] ∧
      reply d = some (.refused, 18) ∧ d.ppt.window = .awaitingFirst ∧ d.ppt.events &&& 64 = 64 ∧
      reply e = some (.ok, 0) ∧ e.ppt.window = .closed ∧ f.ppt.window = .closed ∧ f.ppt.periodEnd = some 6500000 := by
  decide +kernel

/-! ## The machine and its resets -/

theorem test_front_command_is_run : step { dev := started, pending := [.readEvents] } = exec .readEvents (at_ started) := rfl
theorem test_idle_steps : State.reset.dev.ownEvents = [] ∧ { started with signals := [.bsqLeftUp] }.ownEvents = [.bsqLeftUp] ∧
    2 ≤ { started with signals := [.bsqLeftUp, .fdcLeftUp], now := 20000000 }.ownEvents.length := by decide +kernel

/-- A report that is COLLECTING, with one peer OUTSTANDING. -/
def collecting : Report :=
  { (loaded.newReport .boundary) with
    shift := 8, floor := [{ station := 2, mark := .outstanding, heat := 0, firing := 0, strokes := 0, trips := 0 }] }

theorem test_witness_resets :
    let d := started.onSru fun r => { r with ring := [collecting.completed, collecting] }
    d.sru.ring = [collecting.completed] ++ [collecting] ∧ collecting.complete = false ∧
    (∀ r ∈ started.sru.ring, r.complete = true) ∧ (after .resetLineAssert d).sru.ring = [collecting.completed, collecting.completed] ∧
    (after .resetLineAssert d).resetHeld = true ∧ (after .resetLineRelease (after .resetLineAssert d)).resetHeld = false := by
  decide +kernel

/-! ## Witnesses: the ring -/

theorem test_witness_listen_only :
    let d := (inState .listenOnly up)
    d.lpc.state = .listenOnly ∧ d.lpc.bypass = false ∧
    (after (.trainArrival (train 3 (some (peer 3)))) d).lpc.live = [2] := by decide +kernel

theorem test_witness_up_station_repeats :
    up.lpc.state = .up ∧ up.lpc.origin = false ∧
    (∀ h, readHead ((train 3 (some (peer 3))).take 14) = some h → h.origin ≠ stationByte up.own) ∧ up.lpc.prevWrite = false ∧
    (let d := after (.trainArrival (train 3 (some (peer 3)))) up
     d.lpc.prevWrite = true ∧ d.lpc.floor[up.own].seq = 1 ∧
      (after (.trainArrival (d.loopOut.getD 0 []).tail) d).lpc.floor[up.own].seq = 2) := by
  refine ⟨by decide +kernel, by decide +kernel, ?_, by decide +kernel, by decide +kernel⟩
  intro h e
  rw [show readHead ((train 3 (some (peer 3))).take 14) = some (head 3) from by decide +kernel] at e
  cases e
  decide +kernel

/-- A train of an origin with given slots. -/
def trainOf (origin : Byte) (slot : Fin 16 → List Byte) : List Byte :=
  (head origin).bytes.tail ++ (List.finRange 16).flatMap slot

/-- The station in UP after the first write of its own slot. -/
def writing : Station := after (.trainArrival (train 3 none)) up

/-- The own image as last written, changed. -/
def ownSlot (f : Image → Image) (i : Fin 16) : List Byte :=
  if i = 4 then slotBytes (f ((writing.lpc.floor[4].image).getD (peer 5))) else [0]

theorem test_witness_duplicate_and_joining :
    let mine := (writing.lpc.floor[4].image).getD (peer 5)
    let seqOn := trainOf 3 (ownSlot fun g => { g with seq := g.seq + 1 })
    let sigOn := trainOf 3 (ownSlot fun g => { g with sig := g.sig + 1 })
    let origin := writing.onLpc fun l => { l with origin := true }
    writing.own = 4 ∧ writing.lpc.state = .up ∧ writing.lpc.prevWrite = true ∧ writing.lpc.floor[4].image = some mine ∧
    viewSlot 4 (rawSlot seqOn 4) = .pass { mine with seq := mine.seq + 1 } ∧ mine.seq + 1 ≠ writing.lpc.floor[4].seq ∧
    viewSlot 4 (rawSlot sigOn 4) = .pass { mine with sig := mine.sig + 1 } ∧ mine.sig + 1 ≠ mine.sig ∧
    (head 3).origin ≠ stationByte writing.own ∧ writing.lpc.origin = false ∧ (head 5).origin = stationByte origin.own ∧
    (after (.trainArrival seqOn) writing).lpc.state = .listenOnly ∧ (after (.trainArrival seqOn) writing).loopOut = [1 :: seqOn] ∧
    (after (.trainArrival sigOn) writing).condition .duplicateStation 0 = true ∧
    (after (.trainArrival (trainOf 5 (ownSlot fun g => { g with seq := g.seq + 1 }))) origin).loopOut = [] ∧
    (after (.trainArrival (trainOf 3 (ownSlot id))) writing).lpc.state = .up ∧
    (started.lpc.state = .joining ∧ started.lpc.bypass = true ∧ readHead ((train 3 none).take 14) = some (head 3) ∧
      (after (.trainArrival (train 3 none)) started).lpc.bypass = false ∧
      readHead ((9 :: train 3 none).take 14) = none ∧ (after (.trainArrival (9 :: train 3 none)) started).lpc.bypass = true) := by
  decide +kernel

theorem test_witness_trains_handled_in_full :
    let arrive := after (.trainArrival (train 3 (some (peer 3))))
    let origin := up.onLpc fun l => { l with origin := true, release := .running 9, awaiting := true }
    (head 3).origin.toNat < (stationByte origin.own).toNat ∧ (arrive origin).lpc.origin = false ∧
    (arrive origin).lpc.release = .idle ∧ (arrive origin).lpc.floor[4].seq = 1 ∧
    ([LoopState.joining, .claiming, .deferring, .breakSearch].all fun st =>
      (inState st up).lpc.prevWrite == false && (inState st up).lpc.origin == false && (inState st up).lpc.bypass == false &&
      (arrive (inState st up)).lpc.state == .up && (arrive (inState st up)).lpc.floor[4].seq == 1) = true := by decide +kernel

theorem test_witness_taken_notices :
    let note := fun (n : Byte) (b : NoticeBody) => { sender := 3, seq := n, mask := 0, body := b : Notice }
    let alarm := { point := 4, occurrence := 9, state := .raisedUnacked, cls := .high, kind := some .estop, raiseTime := 1, firstOut := 0 }
    let g := { peer 3 with notices := [note 7 (.alarmState alarm), note 8 (.timeSet 77)] }
    let known := up.onLpc fun l => { l with taken := vecModify l.taken 2 fun _ => [7] }
    let mirror := fun d : Station => d.alm.mirror.length
    mirror (up.takeNotices 2 g true true) = 1 ∧ mirror (known.takeNotices 2 g true true) = 0 ∧
    mirror (known.takeNotices 2 g true false) = 1 ∧ mirror (up.takeNotices 2 g false true) = 0 ∧
    (up.takeNotices 2 g false true).lpc.taken[2] = [7, 8] ∧ (up.takeNotices 2 g true true).sru.time = up.sru.time ∧
    ((up.onLpc fun l => { l with origin := true }).takeNotices 2 g true true).sru.time = 77 := by decide +kernel

theorem test_witness_written_image :
    let entry := fun (n : Byte) (placed : Bool) => { body := .timeSet 0, placed := placed, seq := n, mask := 2, rotations := 1 : QueueEntry }
    let d := up.onLpc fun l => { l with nextSeq := 9, queue := [entry 7 true, entry 0 false, entry 0 false, entry 8 true, entry 0 false] }
    let x := ownWritten d
    let y := after (.trainArrival (train 3 (some (peer 3)))) d
    (placedQueue d.lpc).map (fun e => (e.placed, e.seq, e.rotations)) =
      [(true, 7, 1), (true, 9, 0), (true, 10, 0), (true, 8, 1), (false, 0, 1)] ∧
    x.lpc.nextSeq = 11 ∧ (ownImage d).notices.map (fun n => (n.sender, n.seq, n.mask)) =
      [(5, 7, 18), (5, 9, 18), (5, 10, 18), (5, 8, 18)] ∧
    y.lpc.queue = placedQueue d.lpc ∧ y.lpc.nextSeq = 11 ∧ y.lpc.floor[4].image.map (·.notices) = some (ownImage d).notices ∧
    y.lpc.floor[4].image.map (·.summary) = up.lpc.staging.summary ∧ y.lpc.floor[4].image.map (·.openShift) = some 9 ∧
    y.signals = d.signals ++ refreshSignals := by decide +kernel

theorem test_witness_absorbed :
    readHead ((train 16 none).take 14) = some (head 16) ∧ readHead ((train 5 none).take 14) = some (head 5) ∧
    (stationByte up.own).toNat < (head 16).origin.toNat ∧ (head 5).origin = stationByte up.own ∧
    (let d := up.onLpc fun l => { l with origin := true }
     d.lpc.state = .up ∧ d.lpc.origin = true ∧ (after (.trainArrival (train 16 none)) d).loopOut = []) ∧
    (up.lpc.state = .up ∧ up.lpc.origin = false ∧ (after (.trainArrival (train 5 none)) up).loopOut = []) ∧
    ([LoopState.claiming, .deferring, .breakSearch].all fun st =>
      (after (.trainArrival (train 5 none)) (inState st up)).lpc.counters.headErrors.count == 1) = true := by decide +kernel

theorem test_witness_head_error_tops :
    let d := fun n => up.onCounters fun c => { c with headErrors := { count := n, overflowed := false } }
    (d 65534).lpc.counters.headErrors.count < 65535 ∧ (d 65535).lpc.counters.headErrors.count = 65535 ∧
    (after (.frameOfUnknownType 9) (d 65534)).lpc.counters.headErrors = { count := 65535, overflowed := false } ∧
    (after (.frameOfUnknownType 9) (d 65535)).lpc.counters.headErrors = { count := 65535, overflowed := true } := by
  decide +kernel

theorem test_witness_release_timer :
    let d := fun a => up.onLpc fun l => { l with origin := true, release := .running 10, awaiting := a }
    (d true).lpc.release = .running 10 ∧ (d true).lpc.awaiting = true ∧ (d false).lpc.awaiting = false ∧
    (after .releaseTimerExpiry (d true)).lpc.release = .expired ∧ (after .releaseTimerExpiry (d false)).loopOut.length = 1 := by
  decide +kernel

theorem test_witness_return_of_the_train :
    let d := fun r => writing.onLpc fun l => { l with origin := true, release := r, awaiting := true }
    let body := train 5 (some (peer 3))
    let back := fun r => after (.trainArrival body) (d r)
    (d (.running 9)).lpc.state = .up ∧ (d (.running 9)).lpc.origin = true ∧ readHead (body.take 14) = some (head 5) ∧
    (head 5).origin = stationByte writing.own ∧ viewSlot 4 (rawSlot body 4) = .empty ∧
    (back (.running 9)).lpc.awaiting = false ∧ (back (.running 9)).loopOut = [] ∧
    (back (.running 9)).lpc.returned.getD 2 [] = slotBytes (peer 3) ∧
    (d .expired).lpc.release = .expired ∧ (back .expired).loopOut.length = 1 ∧
    (back .expired).lpc.counters.lateRotations.count = 1 ∧ (back .expired).lpc.floor[4].seq = 2 := by decide +kernel

theorem test_witness_judged_notices :
    let entry := fun (n : Byte) (placed : Bool) (rotations : Nat) =>
      { body := .timeSet 0, placed := placed, seq := n, mask := 0, rotations := rotations : QueueEntry }
    let l := { up.lpc with live := [2], queue := [entry 1 true 0, entry 2 true 1, entry 3 true 2, entry 4 false 0, entry 5 false 0] }
    let back := [{ sender := 5, seq := 1, mask := 4, body := .timeSet 0 : Notice }]
    (l.judged back).queue.map (fun e => (e.seq, e.rotations)) = [(2, 2), (4, 0), (5, 0)] ∧ l.losses back = [.timeSet 0] ∧
    (l.judged []).queue.map (fun e => (e.seq, e.rotations)) = [(1, 1), (2, 2), (4, 0), (5, 0)] := by decide +kernel

theorem test_witness_marks_repeated :
    let claim := fun r s h => Instr.claimMarkArrival (withCheck [2, r, s, h]).tail
    up.lpc.bypass = false ∧ up.lpc.state ≠ .claiming ∧ up.lpc.state ≠ .breakSearch ∧ (1 : Byte) ≠ stationByte up.own ∧
    (16 : Byte) ≠ stationByte up.own ∧ (14 : Byte).toNat ≠ up.loopCfg.rank ∧ (5 : Byte) = stationByte up.own ∧
    (after (claim 14 1 15) up).loopOut = [] ∧ (after (claim 0 16 14) up).loopOut = [withCheck [2, 0, 16, 15]] ∧
    (after (claim 14 5 0) up).loopOut = [withCheck [2, 14, 5, 1]] ∧
    (after (.breakMarkArrival (withCheck [3, 16, 0, 0]).tail) up).loopOut = [withCheck [3, 16, 1, 0]] := by decide +kernel

theorem test_witness_claiming :
    let claim := fun r s h => Instr.claimMarkArrival (withCheck [2, r, s, h]).tail
    let d := inState .claiming up
    d.lpc.bypass = false ∧ d.lpc.state = .claiming ∧ d.loopCfg.rank = 4 ∧ (stationByte d.own).toNat = 5 ∧
    (after (claim 3 16 0) d).lpc.state = .deferring ∧ (after (claim 4 4 15) d).lpc.state = .deferring ∧
    (after (claim 5 1 0) d).lpc.state = .claiming ∧ (after (claim 4 6 0) d).loopOut = [] ∧
    (after (claim 4 5 15) d).lpc.state = .up ∧ (after (claim 4 5 15) d).lpc.loopSize = 16 ∧
    (after (claim 4 5 0) d).lpc.loopSize = 1 := by decide +kernel

theorem test_witness_break_search :
    let brk := fun s h => Instr.breakMarkArrival (withCheck [3, s, h, 0]).tail
    let d := inState .breakSearch up
    d.lpc.bypass = false ∧ d.lpc.state = .breakSearch ∧ (1 : Byte) ≠ stationByte d.own ∧ (5 : Byte) = stationByte d.own ∧
    d.loopCfg.rank ≤ 14 ∧ (ranked 15 d).loopCfg.rank = 15 ∧
    (after (brk 1 15) d).lpc.breakReport = some { station := 1, hops := 16 } ∧
    (after (brk 5 3) d).lpc.state = .claiming ∧ (after (brk 5 3) (ranked 15 d)).lpc.state = .deferring := by decide +kernel

theorem test_witness_own_and_bidding_marks :
    let claim := fun r s h => Instr.claimMarkArrival (withCheck [2, r, s, h]).tail
    let d := inState .breakSearch up
    let state := fun c (d : Station) => (after c d).lpc.state
    (stationByte up.own = 5 ∧ up.loopCfg.rank = 4 ∧ d.lpc.bypass = false ∧ (ranked 15 d).loopCfg.rank ≤ 15) ∧
    (after (claim 4 5 3) up).loopOut = [] ∧ (after (.breakMarkArrival (withCheck [3, 5, 3, 0]).tail) up).loopOut = [] ∧
    state (claim 3 16 15) d = .deferring ∧ (after (claim 3 16 15) d).loopOut = [] ∧ state (claim 4 4 0) d = .deferring ∧
    state (claim 4 5 0) d = .claiming ∧ state (claim 4 6 0) d = .claiming ∧ state (claim 5 1 0) d = .claiming ∧
    (after (claim 5 1 0) d).loopOut = [withCheck [2, 4, 5, 0]] ∧ state (claim 14 16 0) (ranked 15 d) = .deferring := by
  decide +kernel

theorem test_witness_damaged_and_bypassed_marks :
    let claim : Instr := .claimMarkArrival [14, 5, 0, 0, 0]
    let brk : Instr := .breakMarkArrival [16, 0, 0, 0, 0]
    let same := fun (c : Instr) (d : Station) => decide ((after c d).lpc = d.lpc) && decide ((after c d).signals = d.signals)
    started.lpc.bypass = true ∧ (claim.wf && brk.wf) = true ∧
    ([14, 5, 0, 0, 0] : List Byte) ≠ (withCheck [2, 14, 5, 0]).tail ∧ ([16, 0, 0, 0, 0] : List Byte) ≠ (withCheck [3, 16, 0, 0]).tail ∧
    ([up, inState .claiming up, inState .breakSearch up].all fun d => same claim d && same brk d) = true ∧
    same (.claimMarkArrival (withCheck [2, 14, 5, 0]).tail) (inState .claiming started) = true ∧
    same (.breakMarkArrival (withCheck [3, 16, 0, 0]).tail) (inState .breakSearch started) = true := by decide +kernel

/-- A mark too short is no whole mark of any rank, station and hop count. -/
theorem test_witness_no_whole_mark : ∀ rank station hops : Byte,
    ([] : List Byte) ≠ (withCheck [2, rank, station, hops]).tail ∧ ([] : List Byte) ≠ (withCheck [3, station, hops, rank]).tail :=
  fun _ _ _ => ⟨fun h => absurd (congrArg List.length h) (by simp [withCheck]),
    fun h => absurd (congrArg List.length h) (by simp [withCheck])⟩

theorem test_witness_recovery_timers :
    let timed := up.onLpc fun l =>
      { l with claimSend := some 1, breakSend := some 1, claimLimit := some 1, grace := .running 1, watch := some 1 }
    (inState .claiming timed).lpc.claimSend = some 1 ∧ (inState .breakSearch timed).lpc.breakSend = some 1 ∧
    (inState .deferring timed).lpc.claimLimit = some 1 ∧ timed.lpc.grace = .running 1 ∧ timed.lpc.watch = some 1 ∧
    (after .claimMarkSend (inState .claiming timed)).loopOut = [withCheck [2, 4, 5, 0]] ∧
    (after .breakMarkSend (inState .breakSearch timed)).loopOut = [withCheck [3, 5, 0, 0]] ∧
    (after .claimLimitExpiry (inState .claiming timed)).lpc.state = .breakSearch ∧
    (after .claimLimitExpiry (inState .deferring timed)).lpc.state = .breakSearch ∧
    (after .loopGraceExpiry timed).lpc.grace = .expired ∧
    (after .trainWatchExpiry timed).lpc.state = .claiming ∧
    (after .trainWatchExpiry (ranked 15 timed)).lpc.state = .deferring ∧
    (after .trainWatchExpiry (inState .joining timed)).lpc.bypass = false := by decide +kernel

theorem test_witness_trains_of_which_the_slots_are_taken :
    let good := train 3 (some (peer 3))
    let failed := (9 : Byte) :: good.tail
    let listens := fun d : Station => let x := after (.trainArrival failed) d
      decide (x.loopOut = if d.lpc.bypass then [] else [1 :: failed]) && decide (x.lpc.state = d.lpc.state) &&
      decide (x.lpc.floor[2].seq = 1) && decide (x.lpc.live = [2]) && decide (x.lpc.counters.headErrors.count = 1) &&
      decide (x.lpc.prevWrite = d.lpc.prevWrite)
    readHead (failed.take 14) = none ∧ viewSlot 2 (rawSlot failed 2) = .pass (peer 3) ∧
    ([LoopState.listenOnly, .joining, .claiming, .deferring, .breakSearch].all fun st => listens (inState st up)) = true ∧
    listens started = true ∧ (inState .listenOnly started).lpc.bypass = true ∧ listens (inState .listenOnly started) = true ∧
    (after (.trainArrival good) (inState .bypassed up)).lpc = (inState .bypassed up).lpc ∧
    (after (.trainArrival good) started).lpc.watch = some 30000 ∧
    (after (.trainArrival failed) started).lpc.watch = started.lpc.watch := by decide +kernel

/-! ## Witnesses: pulse channels and lines -/

theorem test_witness_pin_changes :
    started.cfg.channels[0] = chan .flameScanner 1 .period 1 ∧ started.piu.channels[0].phase ≠ .disabled ∧
    started.piu.channels[0].pin ≠ true ∧ started.cfg.lines[0] = inLine .airFlowProven 0 ∧ started.ppt.started = true ∧
    started.piu.lines[0].pin ≠ true ∧
    (after (.pulsePinChange 0 true) started).piu.channels[0].wait = some { level := true, due := 0 } ∧
    (after (.pulsePinChange 0 false) (after (.pulsePinChange 0 true) started)).piu.channels[0].wait = none ∧
    (after (.inputPinChange 0 true) started).piu.lines[0].pending = some { level := true, due := 1000 } := by decide +kernel

theorem test_witness_debounce_of_zero :
    let quick := up.onPpt fun p => { p with cfg := { p.cfg with
      lines := p.cfg.lines.map fun c => c.map fun k : LineCfg => { k with debounce := 0 } } }
    quick.cfg.lines[1] = some { fn := .idFanRunning, inst := 0, activeLow := false, debounce := 0 } ∧
    quick.piu.lines[1].pin ≠ true ∧ quick.piu.lines[1].active = false ∧ (lineOn 1 quick).piu.lines[1].active = true ∧
    (after (.inputPinChange 1 true) quick).signals = up.signals ++ [.bsqIdFanChange true] ∧
    (after (.inputPinChange 1 true) (lineOn 1 quick)).signals = up.signals := by decide +kernel

/-- A channel in a phase, after some edges. -/
def phased (i : Fin 8) (ph : ChannelPhase) (edges : Nat) : Station :=
  { started with now := 10000 }.onChannel i fun c => { c with phase := ph, edges := edges, overflow := false }

theorem test_witness_period_edges :
    started.cfg.channels[5] = chan .pressure 1 .period 1 ∧ started.piu.channels[0].accepted ≠ true ∧
    (phased 0 .seeking 0).piu.channels[0].phase = .seeking ∧
    (after (.acceptedEdge 0 true) (phased 0 .seeking 0)).piu.channels[0].phase = .timing ∧
    (let high := (phased 0 .seeking 0).onChannel 0 fun c => { c with accepted := true }
     (after (.acceptedEdge 0 false) high).piu.channels[0].phase = .seeking) ∧
    (let high := (phased 0 .timing 0).onChannel 0 fun c => { c with accepted := true }
     high.piu.channels[0].heldWidth = none ∧ (after (.acceptedEdge 0 false) high).piu.channels[0].heldWidth = some 10000) ∧
    (after (.acceptedEdge 0 true) (phased 0 .timing 0)).signals =
      started.signals ++ [.bsqScannerCapture 0 10000 0 .us1] ∧
    (after (.acceptedEdge 5 true) (phased 5 .timing 0)).signals =
      started.signals ++ [.gccPressureCapture 0 10000 0 .us1] := by decide +kernel

theorem test_witness_window_edges :
    started.cfg.channels[4] = chan .weigher 1 .countWindow 5 ∧ started.piu.channels[4].accepted ≠ true ∧
    (after (.acceptedEdge 4 true) (phased 4 .seeking 0)).piu.channels[4].phase = .counting ∧
    (let high := (phased 4 .counting 0).onChannel 4 fun c => { c with accepted := true }
     (after (.acceptedEdge 4 false) high).piu.channels[4].edges = 0) ∧
    (after (.acceptedEdge 4 true) (phased 4 .counting 3)).piu.channels[4].edges = 4 ∧
    (after (.acceptedEdge 4 true) (phased 4 .counting 4)).signals =
      started.signals ++ [.fdcWeigherWindow 0 10000 5 false .us1] := by decide +kernel

theorem test_witness_quadrature :
    started.cfg.channels[2] = chan .encoder 1 .quadrature 1 ∧ started.cfg.channels[3] = chan .encoder 1 .quadrature 1 ∧
    started.piu.channels[2].phase ≠ .disabled ∧ started.piu.channels[3].phase ≠ .disabled ∧
    started.piu.channels[2].accepted ≠ true ∧ started.piu.channels[3].accepted ≠ true ∧
    started.piu.channels[2].wait = none ∧
    (after (.acceptedEdge 2 true) started).piu.channels[2].direction = .forward ∧
    (after (.acceptedEdge 3 true) started).piu.channels[2].direction = .reverse ∧
    (let w := fun c : Channel => { c with wait := some { level := true, due := 7 } }
     let both := (started.onChannel 2 w).onChannel 3 w
     (after (.acceptedEdge 3 true) both).piu.channels[2].phaseErrors = 1 ∧
     (after (.acceptedEdge 2 true) both).piu.channels[2].position = 0) ∧
    (let turned := after (.acceptedEdge 2 false) (after (.acceptedEdge 2 true) started)
     turned.signals = started.signals ++ [.fdcDirectionChange 0 .reverse 0]) := by decide +kernel

theorem test_witness_second_edge_at_one_tick :
    let back := started.onChannel 2 fun c => { c with direction := .reverse, stall := 100, still := some 7 }
    let first := after (.acceptedEdge 2 true) back
    let pair := fun d : Station => let c := d.piu.channels[2]; (c.position, c.direction, c.phaseErrors, c.events, c.still)
    let both := after (.acceptedEdge 3 true)
    first.piu.channels[2].counted.map (fun u => (u.moment, u.input, u.raised)) =
      some (first.now, 2, some (.fdcDirectionChange 0 .forward 1)) ∧
    pair first = (1, .forward, 0, 1, some 100000) ∧ pair (both first) = (0, .reverse, 1, 0, some 7) ∧
    first.signals = started.signals ++ [.fdcDirectionChange 0 .forward 1] ∧ (both first).signals = started.signals ∧
    (both first).piu.channels[2].counted = none ∧ (both { first with signals := [] }).signals = [] ∧
    (both { first with signals := [] }).piu.channels[2].position = 0 ∧
    (let later := both { first with now := 1 }
     later.piu.channels[2].position = 2 ∧ later.piu.channels[2].phaseErrors = 0) ∧
    (after (.acceptedEdge 2 false) first).piu.channels[2].direction = .reverse := by decide +kernel

theorem test_witness_overflows_and_still :
    (started.piu.channels[0].phase ≠ .disabled ∧ started.piu.channels[2].phase ≠ .disabled ∧
      started.piu.channels[4].phase ≠ .disabled ∧ started.piu.channels[5].phase ≠ .disabled) ∧
    (after (.captureOverflow 0) started).signals = started.signals ++ [.bsqScannerNoSignal 0] ∧
    (after (.captureOverflow 5) started).signals = started.signals ++ [.gccPressureNoSignal 0] ∧
    (after (.captureOverflow 4) started).signals = started.signals ++ [.fdcWeigherNoSignal 0] ∧
    (after (.captureOverflow 2) started).signals = started.signals ∧
    (let d := started.onChannel 2 fun c => { c with stall := 100, still := some 5 }
     d.piu.channels[2].still = some 5 ∧ d.cfg.channels[2] = chan .encoder 1 .quadrature 1 ∧
     (after (.stillTimerExpiry 1) d).signals = started.signals ++ [.fdcStill 0 0]) := by decide +kernel

/-- A line with a pending change. -/
def changing (i : Fin 12) (level : Bool) : Station :=
  up.onInput i fun l => { l with pending := some { level := level, due := 5 } }

theorem test_witness_line_changes :
    (∀ i : Fin 9, (up.cfg.lines[i]).isSome = true) ∧
    (changing 0 true).piu.lines[0].pending = some { level := true, due := 5 } ∧
    (after (.lineChange 0) (changing 0 true)).signals = up.signals ++ [.bsqAirFlowChange true] ∧
    (after (.lineChange 1) (changing 1 true)).signals = up.signals ++ [.bsqIdFanChange true] ∧
    (after (.lineChange 3) (changing 3 true)).signals = up.signals ++ [.gccEndForwardChange 0 true] ∧
    (after (.lineChange 8) (changing 8 false)).signals = up.signals ++ [.gccEndReturnChange 1 false] ∧
    (after (.lineChange 2) (changing 2 true)).condition .estop 0 = true ∧
    (after (.lineChange 6) (changing 6 true)).condition .inputLine 6 = true ∧
    (after (.lineChange 5) (changing 5 false)).signals = up.signals ∧
    (after (.lineChange 5) (changing 5 true)).signals = up.signals ++ [.fdcIndex 0 true 0] := by decide +kernel

theorem test_witness_trip_requests :
    let lit := up.onAlm fun a => { a with present := [{ kind := .estop, inst := 0 }] }
    let listed := fun d : Station => d.onAlm fun a => { a with active := [1, 0] }
    up.alm.active.all (fun i => i != 0) = true ∧ up.condition .estop 0 = false ∧ up.tripNow = none ∧
    lit.tripNow = some { point := some 0, kind := .estop } ∧
    (lit.onPoint 0 fun p => { p with cfg := none }).tripNow = some { point := none, kind := .estop } ∧
    (listed up).tripNow = some { point := some 0, kind := .estop } ∧
    (let d := after (.lineChange 2) (changing 2 true)
     d.alm.trip = some { point := some 0, kind := .estop } ∧ d.alm.points[0].state = .raisedUnacked ∧
      (d.lpc.staging.alarm.bind fun a => a.trip) = d.alm.trip) := by decide +kernel

theorem test_witness_pins_that_are_not_watched :
    let unused := up.onPpt fun p => { p with cfg := { p.cfg with lines := p.cfg.lines.set 0 (inLine .unused 0) } }
    let line := fun (i : Fin 12) (d : Station) => (after (.inputPinChange i true) d).piu.lines[i]
    let moved : InputLine := { pin := true, active := false, pending := none }
    let chan := fun (i : Fin 8) (d : Station) => (after (.pulsePinChange i true) d).piu.channels[i]
    started.piu.channels[6].phase = .disabled ∧ started.cfg.channels[6] = none ∧ started.piu.channels[6].pin = false ∧
    chan 6 started = { started.piu.channels[6] with pin := true, accepted := true } ∧
    loaded.piu.channels[0].phase = .disabled ∧ (chan 0 loaded).accepted = true ∧ (chan 0 loaded).wait = none ∧
    (after (.pulsePinChange 0 false) started).piu.channels[0] = started.piu.channels[0] ∧
    loaded.ppt.started = false ∧ line 0 loaded = moved ∧ up.cfg.lines[9] = none ∧ line 9 up = moved ∧
    unused.cfg.lines[0] = inLine .unused 0 ∧ line 0 unused = moved ∧
    (after (.inputPinChange 0 false) up).piu.lines[0] = up.piu.lines[0] := by decide +kernel

theorem test_witness_index_of_no_pair :
    let still := (changing 5 true).onChannel 2 fun c => { c with phase := .disabled }
    let lone := (changing 5 true).onPpt fun p => { p with cfg := { p.cfg with channels := p.cfg.channels.set 2 none } }
    still.piu.channels[2].phase = .disabled ∧ lone.cfg.channels[2] = none ∧
    (after (.lineChange 5) still).signals = up.signals ∧ (after (.lineChange 5) lone).signals = up.signals ∧
    (after (.lineChange 5) still).piu.channels[2].events = 0 ∧ (after (.lineChange 5) still).piu.lines[5].active = true := by
  decide +kernel

/-! ## Witnesses: output lines -/

theorem test_witness_carrier_and_pattern :
    let at15 := fun (f : Bool) (n : Nat) => up.onOut 0 fun l => { l with position := 15, preload := n, forced := f }
    up.dou.lines[0].cfg = outLine .reference .feeder 1 ∧ up.dou.lines[0].carrierEnd = some 1000 ∧
    up.dou.lines[0].patternEnd = some 10000 ∧ up.dou.lines[0].position < 15 ∧
    (after (.carrierPeriodStart 0) (up.onOut 0 fun l => { l with active := 4080, position := 15 })).dou.lines[0].step = 255 ∧
    (after (.patternTimerExpiry 0) up).dou.lines[0].position = 1 ∧
    (after (.patternTimerExpiry 0) (at15 true 7)).dou.lines[0].active = 0 ∧
    (after (.patternTimerExpiry 0) (at15 false 0)).dou.lines[0].position = 0 ∧
    (after (.patternTimerExpiry 0) (at15 false 7)).signals = up.signals ++ [.fdcActiveValueChange 0 7 .patternEnd] ∧
    (after (.patternTimerExpiry 2) (up.onOut 2 fun l => { l with position := 15, preload := 7 })).signals =
      up.signals ++ [.gccFanActiveValueChange 0 7 .patternEnd] := by decide +kernel

/-- The igniter line in a burst state, both its timers running. -/
def igniting (b : Burst) : Station :=
  up.onOut 5 fun l => { l with burst := b, inPulse := true, pin := true, pulseEnd := some 5, spacingEnd := some 9 }

theorem test_witness_active_parts_and_pulses :
    (up.onOut 0 fun l => { l with activeEnd := some 3 }).dou.lines[0].activeEnd = some 3 ∧
    (after (.activePartEnd 0) (up.onOut 0 fun l => { l with activeEnd := some 3, pin := true })).dou.lines[0].pin = false ∧
    up.findOut .igniter .igniter 0 = some 5 ∧ up.dou.lines[5].cfg = outLine .igniter .igniter 0 ∧
    (after .igniterPulseWidthExpiry (igniting .ending)).dou.lines[5].burst = .idle ∧
    (after .igniterPulseWidthExpiry (igniting .bursting)).dou.lines[5].inPulse = false ∧
    (after .igniterSpacingExpiry (igniting .bursting)).dou.lines[5].pulseEnd = some 500 := by decide +kernel

theorem test_witness_owned_lines :
    let fwd := up.dou.lines[6]
    fwd.kind = .strokeForward ∧ up.dou.lines[3].kind = .valve ∧ fwd.forced = false ∧ up.partnerOn fwd = false ∧
    (up.lineOn 6 fwd.owner).2 = .done ∧
    (let d := up.onOut 7 fun l => { l with on := true }
     d.partnerOn fwd = true ∧ (d.lineOn 6 fwd.owner).2 = .refused) ∧
    (let d := up.onOut 6 fun l => { l with forced := true }
     d.dou.lines[6].forced = true ∧ (d.lineOn 6 fwd.owner).2 = .heldOff) ∧
    Owner.noOwner ≠ fwd.owner ∧ (up.lineOff 6 .noOwner).2 = .refused ∧
    (after .douForceEnd (after .douForceStart up)).dou.lines[6].forced = false := by decide +kernel

theorem test_witness_preload_and_bursts :
    let line := fun (f : OutLine → OutLine) => up.onOut 0 f
    let set := fun (v : Nat) (d : Station) => (d.setPreload 0 .feedController v).1
    let igniter := fun (f : OutLine → OutLine) => up.onOut 5 f
    let burst := fun r : Station × DouAnswer => (r.1.dou.lines[5].burst, r.2)
    up.dou.lines[0].owner = .feedController ∧ up.dou.lines[0].firstWrite = true ∧ up.dou.lines[0].forced = false ∧
    (set 4081 up).dou.lines[0].active = 4080 ∧ (set 7 up).signals = up.signals ++ [.fdcActiveValueChange 0 7 .immediate] ∧
    (set 7 (line fun l => { l with firstWrite := false })).dou.lines[0].active = 0 ∧
    (set 7 (line fun l => { l with forced := true })).dou.lines[0].preload = 7 ∧
    (set 0 (line fun l => { l with active := 9, preload := 8 })).dou.lines[0].active = 0 ∧
    (up.setPreload 0 .grateCooler 7).2 = .refused ∧
    up.dou.lines[5].burst = .idle ∧ burst (up.burstStart 5 .burnerSequencer) = (.bursting, .done) ∧
    burst ((igniter fun l => { l with forced := true }).burstStart 5 .burnerSequencer) = (.idle, .heldOff) ∧
    burst ((igniting .ending).burstStart 5 .burnerSequencer) = (.ending, .done) ∧
    burst ((igniting .bursting).burstEnd 5 .burnerSequencer) = (.ending, .done) ∧
    burst ((igniter fun l => { l with burst := .bursting }).burstEnd 5 .burnerSequencer) = (.idle, .done) ∧
    burst ((igniting .ending).burstEnd 5 .burnerSequencer) = (.ending, .done) ∧
    burst ((igniting .ending).burstCut 5 .burnerSequencer) = (.idle, .done) ∧
    burst (up.burstCut 5 .burnerSequencer) = (.idle, .done) ∧ burst (up.burstStart 5 .noOwner) = (.idle, .refused) := by
  decide +kernel

/-! ## Witnesses: burner -/

/-- The burner in a state. -/
def burning (st : BsqState) (d : Station) : Station := d.onBsq fun b => { b with state := st }

/-- A station in UP with the panel present and the ID fan running, that sees a peer. -/
def readyToFire (g : Image) : Station := seeing g (lineOn 1 (up.onPpt fun p => { p with present := true }))

/-- The BURNER section replaced. -/
def withBurner (c : BurnerCfg) (d : Station) : Station := d.onPpt fun p => { p with cfg := { p.cfg with burner := some c } }

/-- The figures of the floor: a peer in the live set and the own image once SEEN, the lowest station of a letter, and the heat of its
channels (R93, R117). -/
theorem test_witness_figures_of_the_floor :
    let own := { peer 5 with burner := some { letter := .a, state := .mainTrial, demand := 77 }, tripRequest := true
                             cooler := some { state := .degraded, cycling := 1, throughput := 2 } }
    let both := fun seen => (seeing (peer 3) up).onLpc fun l => { l with
      floor := vecModify l.floor 4 fun _ => { image := some own, seq := 1, age := 0, seen := seen } }
    up.own = 4 ∧ up.inView = [] ∧ up.alight .a = false ∧ up.demandOf .a = 0 ∧
    (both true).inView = [(2, peer 3), (4, own)] ∧ (both false).inView = [(2, peer 3)] ∧
    (both true).burnerStation .a = some (2, peer 3, { letter := .a, state := .firing, demand := 1000 }) ∧
    (both true).burnerStation .b = none ∧ (both true).alight .a = true ∧ (both true).aFiring = true ∧ (both true).demandOf .a = 1000 ∧
    (both true).deliveredHeat .a = 1000 ∧ (both true).deliveredHeat .b = 0 ∧ ((both true).available .a).length = 2 ∧
    (both true).tripInView = some (4, own) ∧ (both false).tripInView = none ∧ (both true).coolerRunning = true ∧
    (both false).coolerRunning = false := by decide +kernel

theorem test_witness_burner_start :
    let d := readyToFire (peer 3)
    let try_ := fun d : Station => reply (after .burnerStart d)
    d.ppt.started = true ∧ d.cfg.burner = some burnerCfg ∧
    try_ started = some (.refused, 1) ∧ try_ up = some (.refused, 2) ∧
    try_ (burning .lockout d) = some (.refused, 3) ∧ try_ (burning .purge d) = some (.refused, 4) ∧
    try_ (readyToFire { peer 3 with tripRequest := true }) = some (.refused, 5) ∧
    try_ (d.onInput 1 fun l => { l with active := false }) = some (.refused, 6) ∧
    try_ (readyToFire { peer 3 with feed := none }) = some (.refused, 7) ∧
    try_ (withBurner { burnerCfg with coolerRequired := true } d) = some (.refused, 8) ∧
    try_ (withBurner { burnerCfg with letter := .b } (readyToFire { peer 3 with
      burner := none, feed := some [{ channel := 1, letter := .b, state := .ready, weight := 1, capacity := 1, delivered := 0 }] })) =
      some (.refused, 9) ∧
    try_ d = some (.ok, 0) ∧ (after .burnerStart d).bsq.state = .purge ∧ (after .burnerStart d).bsq.purge = none ∧
    (after .burnerStart (lineOn 0 d)).bsq.purge = some 30000000 := by decide +kernel

theorem test_witness_stops :
    let ends := fun (c : Instr) (st : BsqState) => (after c (burning st up)).bsq.state
    up.cfg.burner = some burnerCfg ∧ up.ppt.started = true ∧ (burning .purge up).bsq.state = .purge ∧
    ([Instr.bsqLeftUp, .bsqPanelLapse].all fun c => ends c .purge == .off && ends c .pilotTrial == .postPurge &&
      ends c .mainTrial == .postPurge && ends c .firing == .firing && ends c .lockout == .lockout) = true ∧
    ends (.bsqIdFanChange false) .purge = .off ∧ ends (.bsqIdFanChange false) .firing = .firing ∧
    ends .burnerStop .off = .off ∧ ends .burnerStop .lockout = .lockout ∧ ends .burnerStop .purge = .off ∧
    ends .burnerStop .postPurge = .postPurge ∧ ends .burnerStop .pilotTrial = .postPurge ∧
    ends .burnerStop .mainTrial = .postPurge ∧ ends .burnerStop .firing = .postPurge := by decide +kernel

theorem test_witness_trips :
    let timed := up.onBsq fun b => { b with
      monitor := { b.monitor with failTimer := some 1 }, pilotTrial := some 1, mainTrial := some 1, coolerLoss := some 1 }
    let cause := fun (c : Instr) (st : BsqState) => ((after c (burning st timed)).bsq.trip).map (·.cause)
    timed.bsq.monitor.failTimer = some 1 ∧ timed.bsq.coolerLoss = some 1 ∧ timed.cfg.burner = some burnerCfg ∧
    cause .flameFailTimerExpiry .firing = some .flameFail ∧ cause .flameFailTimerExpiry .mainTrial = some .mainFlameFail ∧
    cause .pilotTrialLimitExpiry .pilotTrial = some .ignitionFail ∧ cause .mainTrialLimitExpiry .mainTrial = some .mainFlameFail ∧
    cause .coolerLossTimerExpiry .firing = some .coolerLoss ∧ cause .bsqLoopGraceExpiry .firing = some .loopLost ∧
    cause .bsqLoopGraceExpiry .purge = none ∧ cause (.bsqAirFlowChange false) .pilotTrial = some .airFlowLost ∧
    cause (.bsqAirFlowChange false) .firing = some .airFlowLost ∧ cause (.bsqEstopChange true) .purge = some .estop ∧
    cause (.bsqEstopChange true) .firing = some .estop ∧ cause (.bsqEstopChange true) .off = none := by decide +kernel

/-- A flame monitor with given runs of scanner 1; scanner 2 is bad. -/
def monitored (status : FlameStatus) (good bad : Nat) (d : Station) : Station := d.onBsq fun b => { b with
  monitor := { status := status, proving := 0, failTimer := none, scanners := #v[
    { good := good, bad := bad, lastPeriod := 0, verdict := .noSignal }, { good := 0, bad := 2, lastPeriod := 0, verdict := .bad }] } }

theorem test_witness_scanners :
    let see := fun (p : Nat) (d : Station) => after (.bsqScannerCapture 0 p 0 .us1) d
    let silent := fun d : Station => after (.bsqScannerNoSignal 0) d
    up.scannerConfigured 0 = true ∧ up.scannerConfigured 1 = true ∧ up.cfg.burner = some burnerCfg ∧
    (see 5000 (monitored .none 0 0 up)).bsq.monitor.scanners[0].verdict = .good ∧
    (see 4999 (monitored .none 0 0 up)).bsq.monitor.scanners[0].verdict = .bad ∧
    (silent (monitored .none 0 0 up)).bsq.monitor.scanners[0].verdict = .noSignal ∧
    (see 5000 (monitored .proving 0 0 up)).bsq.monitor.proving = 1 ∧
    (see 125000 (monitored .proving 1 0 up)).bsq.monitor.status = .proven ∧
    (see 125001 (monitored .proving 1 0 up)).bsq.monitor.proving = 0 ∧
    (silent (monitored .proving 1 0 up)).bsq.monitor.scanners[0].bad = 1 ∧
    (see 5000 (monitored .proven 0 1 up)).bsq.monitor.failTimer = some 2000000 ∧
    (see 1 (monitored .proven 0 0 up)).bsq.monitor.status = .proven ∧
    (silent (monitored .proven 0 0 up)).bsq.monitor.status = .proven ∧
    ((see 1 (monitored .proven 0 1 (burning .firing up))).bsq.trip).map (·.cause) = some .flameFail ∧
    ((silent (monitored .proven 0 1 (burning .firing up))).bsq.trip).map (·.cause) = some .flameFail := by decide +kernel

theorem test_witness_light_off :
    let purging := fun n => burning .purge (up.onBsq fun b => { b with purge := some 5, interruptions := n })
    up.findOut .valve .pilotValve 0 = some 3 ∧ up.findOut .valve .mainFuelRelease 0 = some 4 ∧
    up.findOut .igniter .igniter 0 = some 5 ∧ up.dou.lines[3].cfg = outLine .valve .pilotValve 0 ∧
    up.dou.lines[4].cfg = outLine .valve .mainFuelRelease 0 ∧ up.dou.lines[5].cfg = outLine .igniter .igniter 0 ∧
    (up.dou.lines[3].forced = false ∧ up.dou.lines[4].forced = false ∧ up.dou.lines[5].forced = false) ∧
    up.dou.lines[5].burst = .idle ∧ (purging 1).bsq.purge = some 5 ∧
    (after (.bsqAirFlowChange true) (burning .purge up)).bsq.purge = some 30000000 ∧
    (after (.bsqAirFlowChange false) (purging 1)).bsq.interruptions = 2 ∧
    ((after (.bsqAirFlowChange false) (purging 2)).bsq.trip).map (·.cause) = some .purgeAirLost ∧
    (after .bsqPurgeTimerExpiry (purging 0)).bsq.state = .pilotTrial ∧
    (let d := (igniting .bursting).onBsq fun b => { b with ignition := some 5 }
     d.bsq.ignition = some 5 ∧ (after .bsqIgnitionTimerExpiry d).dou.lines[5].burst = .ending) ∧
    burnerCfg.proofCount ≤ min 8 (1 + 1) ∧ burnerCfg.lightOff < 2 ^ 32 ∧
    (after (.bsqScannerCapture 0 5000 0 .us1) (monitored .proving 1 0 (burning .pilotTrial up))).bsq.state = .mainTrial ∧
    (after .postPurgeTimerExpiry (burning .postPurge (up.onBsq fun b => { b with postPurge := some 5 }))).bsq.state = .off := by
  decide +kernel

theorem test_witness_burner_refresh :
    let see := fun (g : Image) (st : BsqState) => burning st (seeing g up)
    let tripped := { peer 3 with tripRequest := true }
    let b := fun st => withBurner { burnerCfg with letter := .b } (see { peer 3 with burner := none } st)
    let cause := fun d : Station => ((after .bsqFloorRefresh d).bsq.trip).map (·.cause)
    started.lpc.state ≠ .up ∧ (∃ e ∈ (see tripped .firing).inView, e.2.tripRequest = true) ∧
    (b .firing).alight .a = false ∧ (see (peer 3) .firing).inView.map (·.1) = [2] ∧
    (after .bsqFloorRefresh (see (peer 3) .purge)).bsq.state = .purge ∧
    (after .bsqFloorRefresh (see tripped .purge)).bsq.state = .off ∧
    cause (see tripped .pilotTrial) = some .tripRequest ∧ cause (see tripped .firing) = some .tripRequest ∧
    cause (b .mainTrial) = some .mainBurnerLost ∧
    (let d := monitored .proven 8 0 (see (peer 3) .mainTrial)
     0 < d.deliveredHeat .a ∧ (after .bsqFloorRefresh d).bsq.state = .firing) ∧
    (let d := (see (peer 3) .firing).onBsq fun b => { b with rampValue := 1000, setpoint := 1000, demand := 1000 }
     (after .bsqFloorRefresh d).bsq.shortfall = some 5000000 ∧ (after .bsqFloorRefresh d).bsq.demand = 1000) ∧
    (after .bsqFloorRefresh (see (peer 3) .firing)).bsq.shortfall = none := by decide +kernel

theorem test_witness_supervision :
    let held := up.onBsq fun b => { b with
      shortfall := some 1, firingSecond := some 1, coolerLoss := some 1
      holds := { flameFail := some 1, ignitionFail := some 1, mainFlameFail := some 1, purgeAirLost := some 1,
                 airFlowLost := some 1, coolerLoss := some 1 } }
    let d := held.onLpc fun l => { l with lossHold := some 1 }
    d.bsq.shortfall = some 1 ∧ d.bsq.firingSecond = some 1 ∧ d.lpc.lossHold = some 1 ∧
    ([HoldKind.flameFail, .ignitionFail, .mainFlameFail, .purgeAirLost, .airFlowLost, .coolerLoss].all fun k =>
      d.bsq.holds.get k == some 1) = true ∧
    (after .shortfallTimerExpiry d).condition .heatShortfall 0 = true ∧
    (after (.tripHoldExpiry .flameFail) d).condition .flameFail 0 = false ∧
    (after (.tripHoldExpiry .coolerLoss) d).condition .coolerLoss 0 = true ∧
    (after .noticeLossHoldExpiry d).lpc.lossHold = none ∧
    (after .firingSecondTimerExpiry d).bsq.firingSecond = some 1000000 := by decide +kernel

theorem test_witness_demand_and_lockout :
    let locked := burning .lockout up
    let reset := fun d : Station => reply (after .lockoutReset d)
    up.ppt.started = true ∧ up.cfg.burner = some burnerCfg ∧ reply (after (.setHeatDemand 4001) up) = some (.badField, 0) ∧
    (after (.setHeatDemand 4000) up).bsq.setpoint = 4000 ∧
    reset up = some (.wrongState, 0) ∧
    reset (locked.onPoint 0 fun p => { p with state := .raisedAcked }) = some (.refused, 10) ∧
    reset (locked.onAlm fun a => { a with trip := some { point := none, kind := .estop } }) = some (.refused, 11) ∧
    reset (seeing { peer 3 with tripRequest := true } locked) = some (.refused, 12) ∧
    reset locked = some (.ok, 0) ∧ (after .lockoutReset locked).bsq.state = .off := by decide +kernel

theorem test_witness_held_off_trips :
    let forced := fun (i : Fin 16) (d : Station) => d.onOut i fun l => { l with forced := true }
    let record := fun d : Station => d.bsq.trip.map fun t => (t.cause, t.state)
    let purging := burning .purge (up.onBsq fun b => { b with purge := some 5 })
    let proving := monitored .proving 1 0 (burning .pilotTrial up)
    purging.bsq.purge = some 5 ∧ (forced 3 purging).dou.lines[3].forced = true ∧
    record (after .bsqPurgeTimerExpiry (forced 3 purging)) = some (.estop, .pilotTrial) ∧
    record (after .bsqPurgeTimerExpiry (forced 5 purging)) = some (.estop, .pilotTrial) ∧
    proving.bsq.monitor.status = .proving ∧ burnerCfg.proofCount ≤ min 8 (proving.bsq.monitor.scanners[0].good + 1) ∧
    record (after (.bsqScannerCapture 0 5000 0 .us1) (forced 4 proving)) = some (.estop, .mainTrial) ∧
    record (after (.bsqScannerCapture 0 1 0 .us1) (monitored .proven 0 1 (burning .mainTrial up))) =
      some (.mainFlameFail, .mainTrial) ∧
    record (after (.bsqScannerNoSignal 0) (monitored .proven 0 1 (burning .mainTrial up))) =
      some (.mainFlameFail, .mainTrial) := by decide +kernel

theorem test_witness_cooler_supervision :
    let cooled := { peer 3 with cooler := some { state := .running, cycling := 1, throughput := 1 } }
    let firing := fun (t : Nat) (g : Image) =>
      withBurner { burnerCfg with coolerRequired := true, coolerLossTime := t } (burning .firing (seeing g up))
    let waits := fun d : Station => d.onBsq fun b => { b with coolerLoss := some 9 }
    let loss := fun d : Station => ((after .bsqFloorRefresh d).bsq.coolerLoss, (after .bsqFloorRefresh d).condition .coolerLoss 0)
    (firing 3 (peer 3)).coolerRunning = false ∧ (firing 3 cooled).coolerRunning = true ∧
    loss (firing 3 (peer 3)) = (some 3000000, true) ∧ (loss (waits (firing 3 (peer 3)))).1 = some 9 ∧
    loss (waits (firing 3 cooled)) = (none, false) ∧
    ((after .bsqFloorRefresh (firing 0 (peer 3))).bsq.trip).map (·.cause) = some .coolerLoss ∧
    ([BsqState.off, .postPurge, .lockout, .pilotTrial, .mainTrial].all fun st =>
      (after .bsqFloorRefresh (burning st (seeing (peer 3) up))).bsq.state == st) = true := by decide +kernel

theorem test_witness_lost_notices :
    let entry := fun (b : NoticeBody) (placed : Bool) => { body := b, placed := placed, seq := 1, mask := 0, rotations := 2 : QueueEntry }
    let d := up.onLpc fun l => { l with live := [2], queue := entry (.timeSet 0) true :: List.replicate 15 (entry (.timeSet 0) false) }
    16 ≤ d.lpc.queue.length ∧ (d.lpc.judged []).queue.length < 16 ∧ (d.judgeReturn []).lpc.lossHold = some 60000000 ∧
    (d.judgeReturn []).condition .noticeLoss 0 = true ∧ (d.judgeReturn []).signals.getLast? = some .almPlaceFree ∧
    (up.judgeReturn []).signals = up.signals := by decide +kernel

theorem test_witness_first_outs :
    let asked := fun (n : Byte) (k : Option CondKind) => { peer 3 with tripRequest := true, firstPoint := n, firstKind := k }
    let own := fun (n : Byte) => up.onLpc fun l =>
      { l with live := [], floor := vecModify l.floor 4 fun _ =>
        { image := some { asked n (some .estop) with station := 5 }, seq := 1, age := 0, seen := true } }
    let lost := fun (g : Image) => (seeing g up).onBsq fun b => { b with mainStation := some 2 }
    let e := up.tripEntry .estop (.localRef (some 0) .estop)
    up.firstOutOf .estop = .localRef (some 0) .estop ∧ up.firstOutOf .flameFail = .localRef none .flameFail ∧
    up.firstOutOf .loopLost = .localRef (some 2) .loopLost ∧
    (seeing (asked 31 (some .estop)) up).inView = [] ++ (2, asked 31 (some .estop)) :: [] ∧
    (seeing (asked 31 (some .estop)) up).firstOutOf .tripRequest = .peer (some 3) (some 31) (some .estop) ∧
    (seeing (asked 32 none) up).firstOutOf .tripRequest = .peer (some 3) none none ∧
    (own 31).inView.map (·.1) = [4] ∧ (own 31).own = 4 ∧ (own 31).firstOutOf .tripRequest = .localRef (some 31) .estop ∧
    (own 32).firstOutOf .tripRequest = .localRef none .estop ∧
    (lost (asked 7 (some .estop))).firstOutOf .mainBurnerLost = .peer (some 3) (some 7) (some .estop) ∧
    (lost (peer 3)).firstOutOf .mainBurnerLost = .peer (some 3) none none ∧
    (e.station, e.point, e.condition) = (some 5, some 0, some .estop) := by decide +kernel

theorem test_witness_first_out_flags :
    let raised := fun (f : Point → Point) => (up.onPoint 0 fun p => f { p with state := .raisedUnacked }).onPoint 1 fun p =>
      { p with state := .raisedUnacked, firstOut := true }
    let flags := fun d : Station => (d.alm.points[0].firstOut, d.alm.points[1].firstOut, d.alm.points[0].pending)
    let queued := fun d : Station => d.lpc.queue.length
    let low := (raised id).onAlm fun a => { a with flood := true }
    flags ((raised id).handFirstOut 0) = (true, false, false) ∧ queued ((raised id).handFirstOut 0) = queued up + 2 ∧
    ((raised id).handFirstOut 0).alm.points[0].announced = .known .raisedUnacked ∧
    flags ((raised fun p => { p with pending := true }).handFirstOut 0) = (true, false, true) ∧
    queued ((raised fun p => { p with shelf := some 9 }).handFirstOut 0) = queued up + 1 ∧
    queued (low.handFirstOut 0) = queued up + 1 ∧ (low.handFirstOut 0).alm.points[1].pending = true ∧
    flags (up.handFirstOut 0) = (true, false, false) ∧ queued (up.handFirstOut 0) = queued up ∧
    flags ((raised id).handFirstOut 1) = (false, true, false) ∧ queued ((raised id).handFirstOut 1) = queued up := by
  decide +kernel

/-- A trip moves the flag to the point it names; a flag goes with its point's entry to NORMAL, which HEAT SHORTFALL absent brings at a trip that names no point. -/
theorem test_witness_flag_cleared_at_a_trip :
    let tripped := after (.bsqEstopChange true) (burning .firing (up.onPoint 1 fun p => { p with firstOut := true }))
    let watching := (up.onAlm fun a => { a with present := a.present ++ [{ kind := .heatShortfall, inst := 0 }] }).onPoint 1 fun p =>
      { p with cfg := alarm .heatShortfall 0 .low false, watched := true, qualified := true, state := .raisedAcked
               firstOut := true }
    let d := burning .firing (watching.onPoint 2 fun p => { p with cfg := none })
    let lost := after .bsqLoopGraceExpiry d
    tripped.alm.points[0].firstOut = true ∧ tripped.alm.points[1].firstOut = false ∧
    d.condition .heatShortfall 0 = true ∧ d.firstOutOf .loopLost = .localRef none .loopLost ∧ lost.bsq.state = .lockout ∧
    lost.alm.points[1].firstOut = false ∧ lost.alm.points[1].state = .normal := by decide +kernel

/-! ## Witnesses: feed -/

/-- Feed channel 1 in a state. -/
def feeding (st : FeedState) (d : Station) : Station := d.onFeed 0 fun c => { c with state := st }

theorem test_witness_feed_requests :
    let ans := fun (c : Instr) (d : Station) => reply (after c d)
    let stopped := lineOn 2 up
    up.ppt.started = true ∧ up.feedDuty = true ∧ up.fdc.channels[0].cfg = some (feedCfg 60) ∧ stopped.lineActive .estop = true ∧
    ans (.feedEnable 0) up = some (.badField, 0) ∧ ans (.feedDisable 3) up = some (.badField, 0) ∧
    ans (.feedEnable 1) (feeding .ready up) = some (.wrongState, 0) ∧ ans (.feedEnable 1) stopped = some (.refused, 13) ∧
    (after (.feedEnable 1) up).fdc.channels[0].state = .ready ∧ ans (.feedDisable 1) up = some (.ok, 0) ∧
    (after (.feedDisable 2) (up.onFeed 1 fun c => { c with state := .running })).fdc.channels[1].state = .off ∧
    ans (.feedClearFault 1) up = some (.wrongState, 0) ∧ ans (.feedClearFault 1) (feeding .fault stopped) = some (.refused, 13) ∧
    (after (.feedClearFault 1) (feeding .fault up)).fdc.channels[0].state = .ready ∧
    ans (.calorificUpdate 1 4999) up = some (.badField, 0) ∧ ans (.calorificUpdate 1 35001) up = some (.badField, 0) ∧
    (after (.calorificUpdate 1 5000) up).fdc.channels[0].cvPreload = some 5000 ∧
    (after (.calorificUpdate 1 35000) up).fdc.channels[0].cvPreload = some 35000 := by decide +kernel

theorem test_witness_feed_faults :
    let st := fun (c : Instr) (s : FeedState) => (after c (feeding s up)).fdc.channels[0].state
    st (.fdcStill 0 0) .running = .fault ∧ st (.fdcStill 0 0) .held = .fault ∧ st (.fdcStill 0 0) .ready = .ready ∧
    st (.fdcDirectionChange 0 .reverse 0) .running = .fault ∧ st (.fdcDirectionChange 0 .reverse 0) .off = .off ∧
    st (.fdcDirectionChange 0 .forward 0) .running = .running ∧ st (.fdcEstopChange true) .off = .fault ∧
    (after (.fdcStill 0 0) (feeding .running up)).fdc.channels[0].cause = .feederStall := by decide +kernel

theorem test_witness_weigher_windows :
    let win := fun (ticks : Nat) (o : Bool) (d : Station) => after (.fdcWeigherWindow 0 ticks 5 o .us1) d
    let moving := (feeding .running up).onFeed 0 fun c => { c with targetRate := 360 }
    moving.fdc.channels[0].targetRate = 360 ∧ up.hasWeigher 0 = true ∧ up.findOut .reference .feeder 1 = some 0 ∧
    (win 500000 false moving).fdc.channels[0].measured = 360000 ∧ (win 500000 false moving).fdc.channels[0].trim = 1250 ∧
    (win 500000 false moving).dou.lines[0].preload = (win 500000 false moving).fdc.channels[0].lastFine ∧
    (win 0 false moving).fdc.channels[0].trim = 1000 ∧ (win 500000 true moving).fdc.channels[0].measured = 0 ∧
    (win 500000 false up).fdc.channels[0].trim = 1000 ∧
    (win 500000 false up).signals.contains (.sruContribution (.fuel 0 50 1000)) = true := by decide +kernel

theorem test_witness_index_and_silence :
    (after (.fdcIndex 0 false 9) up).signals = up.signals ++ [.sruContribution (.revolution 0)] ∧
    (after (.fdcIndex 0 true 0) up).signals = up.signals ∧ up.sru.acc.feed[0].revolutions < 4294967295 ∧
    (after (.sruContribution (.revolution 0)) up).sru.acc.feed[0].revolutions = 1 ∧
    (after (.fdcWeigherNoSignal 0) (feeding .running up)).condition .weigherSilent 1 = true ∧
    (after (.fdcWeigherNoSignal 0) up).condition .weigherSilent 1 = false ∧
    (after (.fdcActiveValueChange 0 2000 .patternEnd) (feeding .running up)).fdc.channels[0].delivered = 111111 ∧
    (after (.runningSecondTimerExpiry 0) (up.onFeed 0 fun c => { c with runningSecond := some 1 })).fdc.channels[0].runningSecond =
      some 1000000 := by decide +kernel

theorem test_witness_run_down :
    let held := (feeding .held up).onFeed 0 fun c => { c with targetRate := 2, runDownTimer := some 1 }
    (after .fdcLeftUp (feeding .running up)).fdc.channels[0].state = .held ∧
    (after .fdcLoopGraceExpiry held).fdc.channels[0].runDown = true ∧
    (after .fdcEnteredUp held).fdc.channels[0].reEvaluate = true ∧ held.fdc.channels[0].runDownTimer = some 1 ∧
    (after (.runDownTimerExpiry 0) held).fdc.channels[0].targetRate = 1 ∧
    (after (.runDownTimerExpiry 0) (held.onFeed 0 fun c => { c with targetRate := 1 })).fdc.channels[0].state = .ready := by
  decide +kernel

theorem test_witness_feed_refresh :
    let own := { peer 5 with feed := some [{ channel := 1, letter := .a, state := .running, weight := 50, capacity := 5000, delivered := 0 }] }
    let d := (seeing (peer 3) up).onLpc fun l =>
      { l with floor := vecModify l.floor 4 fun _ => { image := some own, seq := 1, age := 0, seen := true } }
    let refresh := fun st => (after .fdcFloorRefresh (feeding st d)).fdc.channels[0]
    (∀ ch : Fin 2, d.fdc.channels[ch].cvPreload = none) ∧ d.lpc.state = .up ∧ started.lpc.state ≠ .up ∧ d.alight .a = true ∧
    (refresh .ready).state = .running ∧ (refresh .ready).targetHeat = 500 ∧ (refresh .ready).massGoal = 90 ∧
    (refresh .ready).targetRate = 1 ∧ (refresh .running).state = .running ∧ (refresh .held).state = .held ∧
    (after .fdcFloorRefresh (feeding .running up)).fdc.channels[0].state = .ready ∧
    (let c := started.onFeed 0 fun c => { c with cvPreload := some 35000 }
     (after .fdcFloorRefresh c).fdc.channels[0].cv = 35000 ∧ (after .fdcFloorRefresh c).fdc.channels[0].capacity = 8750) := by
  decide +kernel

theorem test_witness_values_taken_in_up :
    let own := { peer 5 with feed := some [{ channel := 1, letter := .a, state := .running, weight := 50, capacity := 100, delivered := 0 }] }
    let d := (seeing (peer 3) up).onLpc fun l =>
      { l with floor := vecModify l.floor 4 fun _ => { image := some own, seq := 1, age := 0, seen := true } }
    let waiting := (feeding .running d).onFeed 0 fun c => { c with cvPreload := some 35000 }
    let plain := after .fdcFloorRefresh (feeding .running d)
    let taken := after .fdcFloorRefresh waiting
    waiting.lpc.state = .up ∧ plain.fdc.channels[0].targetHeat = 100 ∧ taken.fdc.channels[0].targetHeat = 500 ∧
    taken.fdc.channels[0].cv = 35000 ∧ taken.fdc.channels[0].cvPreload = none ∧ taken.fdc.channels[0].capacity = 8750 ∧
    taken.fdc.channels[0].massGoal = 51 ∧
    (let stopped := after (.fdcEstopChange true) (feeding .held up)
     stopped.fdc.channels[0].state = .fault ∧ stopped.signals.contains (.sruContribution (.feedFault 0)) = true ∧
      stopped.ppt.events &&& 16 = 16) := by decide +kernel

theorem test_witness_sharing : 0 ≤ ([(10, 1), (20, 3)].map (·.1) : List Nat).sum ∧ shareHeat 30 [(10, 1), (20, 3)] = [10, 20] ∧
    shareHeat 29 [(10, 1), (20, 3)] = [9, 20] ∧ shareHeat 31 [(10, 1), (20, 3)] = [10, 20] := by decide +kernel

/-- Both passes of the sharing: without weights the headroom carries all, an excess equal to the headroom fills every channel, and without
channels there is no target (R118). -/
theorem test_witness_sharing_passes :
    shareHeat 15 [(10, 0), (20, 0)] = [5, 10] ∧ shareHeat 30 [(10, 0), (20, 0)] = [10, 20] ∧ shareHeat 0 [(10, 1)] = [0] ∧
    shareHeat 100 [(10, 50), (200, 50), (30, 0)] = [10, 83, 6] ∧ shareHeat 5 [] = [] := by decide +kernel

theorem test_witness_run_down_lines :
    let held := fun (n : Nat) (f : FeedChannel → FeedChannel) => (feeding .held up).onFeed 0 fun c => f { c with
      targetRate := n, lastFine := 1, runDownTimer := some 1 }
    let x := fun n f => after (.runDownTimerExpiry 0) (held n f)
    let moved := (x 100 id).fdc.channels[0].lastFine
    up.findOut .reference .feeder 1 = some 0 ∧ up.dou.lines[0].firstWrite = true ∧ moved = 9 ∧ moved ≠ 1 ∧
    (x 100 id).dou.lines[0].preload = 9 ∧ (x 100 fun c => { c with lastFine := 9 }).dou.lines[0] = up.dou.lines[0] ∧
    (x 1 id).fdc.channels[0].state = .ready ∧ (x 0 id).fdc.channels[0].state = .ready ∧
    (let written := (held 100 id).onOut 0 fun l => { l with firstWrite := false, active := 3 }
     (after (.runDownTimerExpiry 0) written).dou.lines[0].active = 3 ∧ (after (.runDownTimerExpiry 0) written).dou.lines[0].preload = 9) ∧
    (let gone := after .fdcLeftUp ((feeding .running up).onFeed 0 fun c => { c with measured := 3600, rateSeen := true })
     gone.fdc.channels[0].state = .held ∧ gone.fdc.channels[0].delivered = 20000) := by decide +kernel

theorem test_witness_entries_of_a_refresh :
    let own := { peer 5 with feed := some [{ channel := 1, letter := .a, state := .running, weight := 50, capacity := 5000, delivered := 0 }] }
    let d := (seeing (peer 3) up).onLpc fun l =>
      { l with floor := vecModify l.floor 4 fun _ => { image := some own, seq := 1, age := 0, seen := true } }
    let refresh := fun (st : FeedState) (d : Station) => after .fdcFloorRefresh ((feeding st d).onFeed 0 fun c => { c with rateSeen := true })
    let begun := refresh .ready d
    let turning := d.onChannel 2 fun c => { c with direction := .reverse }
    let turned := refresh .running turning
    let stopped := refresh .running up
    let resumed := refresh .held (d.onFeed 0 fun c => { c with reEvaluate := true })
    d.alight .a = true ∧ up.alight .a = false ∧ turning.turnsBack 0 = true ∧ d.turnsBack 0 = false ∧
    up.findChannel .encoder 1 = some 2 ∧ begun.fdc.channels[0].state = .running ∧ begun.piu.channels[2].stall = 100 ∧
    begun.piu.channels[2].still = some 100000 ∧ begun.fdc.channels[0].rateSeen = false ∧
    begun.fdc.channels[0].runningSecond = some 1000000 ∧ begun.dou.lines[0].preload = begun.fdc.channels[0].lastFine ∧
    resumed.fdc.channels[0].state = .running ∧ resumed.fdc.channels[0].rateSeen = true ∧ resumed.piu.channels[2].stall = 100 ∧
    resumed.fdc.channels[0].runningSecond = none ∧
    turned.fdc.channels[0].state = .fault ∧ turned.fdc.channels[0].cause = .feederReverse ∧
    turned.condition .feederReverse 1 = true ∧ turned.signals.contains (.sruContribution (.feedFault 0)) = true ∧
    turned.piu.channels[2].stall = 0 ∧ stopped.fdc.channels[0].state = .ready ∧ stopped.dou.lines[0].preload = 0 ∧
    (refresh .held up).fdc.channels[0].state = .held ∧
    (begun.lpc.staging.feed.map fun es => es.map (·.state)) = some [.running, .off] := by decide +kernel

theorem test_witness_emergency_stop_of_the_feed :
    let d := ((feeding .running up).onOut 0 fun l => { l with active := 9, preload := 9 }).onChannel 2 fun c =>
      { c with stall := 100, still := some 7 }
    let x := after (.fdcEstopChange true) d
    let counts := fun d : Station => d.signals.count (.sruContribution (.feedFault 0))
    x.dou.lines[0].preload = 0 ∧ x.dou.lines[0].active = 0 ∧ x.signals.contains (.fdcActiveValueChange 0 0 .immediate) = true ∧
    x.piu.channels[2].stall = 0 ∧ x.piu.channels[2].still = none ∧ counts x = 1 ∧ counts (after (.fdcEstopChange true) x) = 1 ∧
    x.fdc.channels[0].cause = .estop := by decide +kernel

theorem test_witness_feed_part_staged :
    let staged := fun (c : Instr) (l : List (Nat × Nat)) (d : Station) =>
      (after c d).lpc.staging.feed.map (fun es => es.map fun e => (e.delivered.toNat, e.capacity.toNat)) == some l
    let turning := feeding .running up
    let valued := after (.fdcActiveValueChange 0 2000 .patternEnd) turning
    up.feedDuty = true ∧ started.lpc.state ≠ .up ∧
    staged (.fdcActiveValueChange 0 2000 .patternEnd) [(111111, 5000), (0, 5000)] turning = true ∧
    staged (.fdcWeigherNoSignal 0) [(111111, 5000), (0, 5000)] valued = true ∧
    staged (.fdcWeigherWindow 0 500000 5 false .us1) [(2000000, 5000), (0, 5000)] turning = true ∧
    staged .fdcFloorRefresh [(0, 8750), (0, 5000)] (started.onFeed 0 fun c => { c with cvPreload := some 35000 }) = true := by
  decide +kernel

/-! ## Witnesses: cooler -/

/-- Compartment 1 changed. -/
def cooling (f : Compartment → Compartment) (d : Station) : Station := d.onComp 0 f

/-- The hydraulic grant held by a compartment. -/
def granted (i : Fin 4) (d : Station) : Station := d.onGcc fun g => { g with holder := some i }

theorem test_witness_cooler_requests :
    let ans := fun (c : Instr) (d : Station) => reply (after c d)
    let comp := fun (c : Instr) (d : Station) => (after c d).gcc.comps[0]
    let st := fun s => cooling (fun c => { c with state := s }) up
    let both := cooling (fun c => { c with state := .fault, endForward := true, endReturn := true }) up
    up.ppt.started = true ∧ up.coolerDuty = true ∧ up.gcc.comps[0].cfg = some compCfg ∧ up.gcc.holder = none ∧ up.gcc.queue = [] ∧
    up.findOut .strokeForward .compartment 1 = some 6 ∧ up.findOut .strokeReturn .compartment 1 = some 7 ∧
    up.dou.lines[6].forced = false ∧ up.dou.lines[7].on = false ∧
    ans (.coolerEnable 0) up = some (.badField, 0) ∧ ans (.coolerEnable 3) up = some (.badField, 0) ∧
    ans (.coolerEnable 1) (lineOn 2 up) = some (.refused, 13) ∧
    (comp (.coolerEnable 1) (granted 1 up)).state = .waiting ∧ (comp (.coolerEnable 1) up).state = .forward ∧
    (comp (.coolerEnable 1) (cooling (fun c => { c with state := .dwell, stopAtEnd := true }) up)).stopAtEnd = false ∧
    ans (.coolerEnable 1) (st .rest) = some (.wrongState, 0) ∧ ans (.coolerDisable 1) up = some (.ok, 0) ∧
    (comp (.coolerDisable 1) (st .rest)).state = .stopped ∧ (comp (.coolerDisable 1) (st .waiting)).state = .stopped ∧
    ans (.coolerDisable 1) (st .fault) = some (.wrongState, 0) ∧ (comp (.coolerDisable 1) (st .forward)).stopAtEnd = true ∧
    ans (.grateClearFault 1) up = some (.wrongState, 0) ∧ ans (.grateClearFault 1) (lineOn 2 (st .fault)) = some (.refused, 13) ∧
    ans (.grateClearFault 1) both = some (.refused, 14) ∧ (comp (.grateClearFault 1) (st .fault)).state = .stopped := by
  decide +kernel

theorem test_witness_strokes :
    let comp := fun (c : Instr) (d : Station) => (after c d).gcc.comps[0]
    let rest := cooling (fun c => { c with state := .rest, due := some 5 }) up
    let fwd := granted 0 (cooling (fun c => { c with state := .forward }) up)
    let quick := fwd.onComp 0 fun c => { c with cfg := some { compCfg with dwell := 0 } }
    let back := fun (stop : Bool) => granted 1 (cooling (fun c => { c with state := .returning, stopAtEnd := stop, due := some 7 }) up)
    compCfg.dwell ≠ 0 ∧ (comp (.dueTimeReached 0) (granted 1 rest)).state = .waiting ∧
    (comp (.dueTimeReached 0) rest).state = .forward ∧ (comp (.dueTimeReached 0) up).state = .stopped ∧
    (comp (.gccEndForwardChange 0 true) fwd).state = .dwell ∧ fwd.gcc.holder = some 0 ∧ fwd.gcc.queue = [] ∧
    quick.gcc.comps[0].cfg = some { compCfg with dwell := 0 } ∧ quick.dou.lines[7].forced = false ∧
    (comp (.gccEndForwardChange 0 true) quick).state = .returning ∧
    (comp (.dwellExpiry 0) (cooling (fun c => { c with state := .dwell, timer := some (.dwell, 5) }) up)).state = .returning ∧
    (comp (.gccEndReturnChange 0 true) (back true)).state = .stopped ∧ (back false).now < 7 ∧
    (comp (.gccEndReturnChange 0 true) (back false)).state = .rest ∧
    (comp (.gccEndForwardChange 0 false) fwd).endForward = false := by decide +kernel

theorem test_witness_stroke_faults :
    let comp := fun (c : Instr) (f : Compartment → Compartment) => (after c (cooling f up)).gcc.comps[0]
    (comp (.gccEndForwardChange 0 true) fun c => { c with endReturn := true }).cause = .limitConflict ∧
    (comp (.gccEndReturnChange 0 true) fun c => { c with endForward := true }).cause = .limitConflict ∧
    (comp (.gccEndReturnChange 0 true) fun c =>
      { c with state := .returning, faultPending := true, cause := .strokeTimeout }).state = .fault ∧
    (comp (.returnLimitExpiry 0) fun c => { c with state := .returning, timer := some (.returnLimit, 5) }).state = .fault ∧
    (comp (.forwardLimitExpiry 0) fun c => { c with state := .forward, timer := some (.forwardLimit, 5) }).faultPending = true ∧
    (0 : Fin 4) ∉ up.gcc.queue ∧ (after (.gccEstopChange true) up).gcc.comps[1].state = .fault ∧
    (after (.gccEstopChange false) up).gcc.comps[1].state = .stopped := by decide +kernel

theorem test_witness_grant_and_held_off :
    let queued := granted 0 ((cooling (fun c => { c with state := .forward }) up).onComp 1 fun c => { c with state := .waiting, due := some 3 })
    let d := after (.gccEndForwardChange 0 true) (queued.onGcc fun g => { g with queue := [1] })
    let forced := fun (i : Fin 16) (f : Compartment → Compartment) => cooling f (up.onOut i fun l => { l with forced := true })
    let due := after (.dueTimeReached 0) (forced 6 fun c => { c with state := .rest })
    let dwell := after (.dwellExpiry 0) (forced 7 fun c => { c with state := .dwell, timer := some (.dwell, 5) })
    up.findOut .strokeForward .compartment 2 = some 8 ∧ up.gcc.comps[1].cfg = some compCfg ∧ up.dou.lines[8].forced = false ∧
    up.findOut .strokeReturn .compartment 2 = some 9 ∧ up.dou.lines[9].on = false ∧
    d.gcc.holder = some 1 ∧ d.gcc.queue = [] ∧ d.gcc.comps[0].state = .dwell ∧ d.gcc.comps[1].state = .forward ∧
    d.dou.lines[8].on = true ∧ due.gcc.comps[0].state = .fault ∧ due.gcc.comps[0].cause = .estop ∧ due.gcc.holder = none ∧
    dwell.gcc.comps[0].cause = .estop := by decide +kernel

theorem test_witness_forward_limit_held_off :
    let d := granted 0 (cooling (fun c => { c with state := .forward, timer := some (.forwardLimit, 5), stopAtEnd := true })
      (up.onOut 7 fun l => { l with forced := true }))
    let x := after (.forwardLimitExpiry 0) d
    d.findOut .strokeReturn .compartment 1 = some 7 ∧ d.gcc.queue = [] ∧ x.gcc.comps[0].state = .fault ∧
    x.gcc.comps[0].faultPending = true ∧ x.gcc.comps[0].stopAtEnd = true ∧ x.gcc.comps[0].timer = none ∧
    x.gcc.comps[0].cause = .estop ∧ x.condition .grateStrokeTimeout 1 = false ∧ x.gcc.holder = none ∧
    (let y := after (.gccEstopChange true) d
     y.gcc.comps[0].cause = .estop ∧ y.gcc.comps[0].stopAtEnd = true ∧ y.signals.count (.sruContribution (.grateFault 0)) = 1 ∧
      (after (.gccEstopChange true) y).signals.count (.sruContribution (.grateFault 0)) = 1) := by decide +kernel

theorem test_witness_stroke_rates :
    let base := fun (r : Half) (m : RateMode) (v : Bool) =>
      (after (.setStrokeBase 1 r) (cooling (fun c => { c with mode := m, pressure := 1100, pressureValid := v }) up))
    reply (base 19 .base false) = some (.badField, 0) ∧ reply (base 41 .base false) = some (.badField, 0) ∧
    (base 20 .base false).gcc.comps[0].preload = 20 ∧ (base 40 .follow true).gcc.comps[0].preload = 40 ∧
    (base 20 .follow true).gcc.comps[0].preload = 21 ∧ (base 20 .follow false).gcc.comps[0].preload = 20 ∧
    (after (.gccPressureCapture 0 0 0 .us1) up).gcc.comps[0].pressureValid = false ∧
    (after (.gccPressureCapture 0 5000 0 .us1) up).gcc.comps[0].pressure = 1000 ∧
    (after (.gccPressureNoSignal 0) (cooling (fun c => { c with pressureValid := true }) up)).gcc.comps[0].pressureValid = false ∧
    (after .gccFloorRefresh up).gcc.comps[0].mode = .minimum ∧
    (after .gccFloorRefresh (seeing (peer 3) up)).gcc.comps[0].mode = .follow ∧
    (after .gccFloorRefresh (seeing (peer 3) up)).gcc.comps[1].mode = .base := by decide +kernel

theorem test_witness_fans :
    up.findOut .reference .fan 1 = some 2 ∧ up.findOut .reference .fan 2 = none ∧
    reply (after (.setFan 1 4081) up) = some (.badField, 0) ∧ reply (after (.setFan 0 1) up) = some (.badField, 0) ∧
    reply (after (.setFan 5 1) up) = some (.badField, 0) ∧ reply (after (.setFan 2 1) up) = some (.badField, 0) ∧
    (after (.setFan 1 4080) up).dou.lines[2].preload = 4080 ∧
    (after (.gccFanActiveValueChange 0 7 .patternEnd) up).gcc.fanSecond = some 1000000 ∧
    (after .fanRunSecondTimerExpiry (up.onGcc fun g => { g with fanSecond := some 1 })).gcc.fanSecond = some 1000000 := by
  decide +kernel

theorem test_witness_return_at_the_due_time :
    let back := fun (due : Option Nat) (stop : Bool) =>
      (cooling (fun c => { c with state := .returning, due := due, stopAtEnd := stop, preload := 20 }) up).onOut 7 fun l =>
        { l with on := true, pin := true }
    let x := fun d : Station => after (.gccEndReturnChange 0 true) d
    let at5 := fun d : Station => { d with now := 5 }
    (back (some 5) false).dou.lines[7].on = true ∧ (at5 (back (some 5) false)).now = 5 ∧
    (x (at5 (back (some 5) false))).gcc.comps[0].state = .forward ∧ (x (at5 (back (some 5) false))).gcc.holder = some 0 ∧
    (x (at5 (back (some 5) false))).dou.lines[7].on = false ∧ (x (at5 (back (some 5) false))).dou.lines[6].on = true ∧
    (x (at5 (back (some 6) false))).gcc.comps[0].state = .rest ∧ (x (back none false)).gcc.comps[0].state = .forward ∧
    (x (granted 1 (at5 (back (some 5) false)))).gcc.comps[0].state = .waiting ∧
    (x (granted 1 (at5 (back (some 5) false)))).gcc.queue = [0] ∧
    (x (granted 1 (at5 (back (some 5) false)))).dou.lines[7].on = false ∧
    (x (back (some 5) true)).gcc.comps[0].state = .stopped ∧ (x (back (some 5) true)).dou.lines[7].on = false := by decide +kernel

theorem test_witness_queue_of_held_off_compartments :
    let forced := fun (i : Fin 16) (d : Station) => d.onOut i fun l => { l with forced := true }
    let queued := ((granted 0 (cooling (fun c => { c with state := .forward, timer := some (.forwardLimit, 5) }) up)).onComp 1 fun c =>
      { c with state := .waiting, due := some 3 }).onGcc fun g => { g with queue := [1] }
    let d := forced 8 queued
    let conflict := d.onComp 0 fun c => { c with endReturn := true }
    let emptied := fun (c : Instr) (st : CompState) (d : Station) => let x := after c d; let q := x.gcc.comps[1]
      decide (x.gcc.holder = none) && decide (x.gcc.queue = []) && decide (x.gcc.comps[0].state = st) &&
      decide (q.state = .fault) && decide (q.cause = .estop) && decide (q.due = some 30000000) &&
      x.signals.contains (.sruContribution (.grateFault 1)) && !x.signals.contains (.sruContribution (.stroke 1))
    d.gcc.queue = [1] ∧ d.gcc.holder = some 0 ∧ (0 : Fin 4) ∉ d.gcc.queue ∧ d.gcc.comps[1].cfg ≠ none ∧
    d.findOut .strokeForward .compartment 2 = some 8 ∧ d.dou.lines[8].forced = true ∧ d.gcc.comps[1].state ≠ .fault ∧
    emptied (.gccEndForwardChange 0 true) .dwell d = true ∧
    emptied (.gccEndForwardChange 0 true) .fault conflict = true ∧
    emptied (.forwardLimitExpiry 0) .fault (forced 7 d) = true := by
  decide +kernel

theorem test_witness_stroke_base_of_no_compartment :
    (∀ i : Fin 4, up.gcc.comps[i].cfg ≠ none → (3 : Byte).toNat ≠ i.val + 1) ∧
    ([(0 : Byte), 3, 4, 5, 255].all fun b => reply (after (.setStrokeBase b 30) up) == some (.badField, 0)) = true := by
  decide +kernel

/-- The cooler part in each of its states, and its sum of throughputs (R148). -/
theorem test_witness_cooler_part :
    let part := fun (a b : CompState) => ((up.onComp 0 fun c => { c with state := a, shadow := 40 }).onComp 1 fun c =>
      { c with state := b, shadow := 30 }).gcc.part
    part .stopped .stopped = { state := .stopped, cycling := 0, throughput := 0 } ∧
    part .rest .returning = { state := .running, cycling := 2, throughput := 42 } ∧
    part .fault .dwell = { state := .degraded, cycling := 1, throughput := 18 } ∧
    part .fault .stopped = { state := .fault, cycling := 0, throughput := 0 } := by decide +kernel

/-- A stroke of compartment 1 under the grant, with compartment 2 waiting. -/
def stroking : Station :=
  after (.coolerEnable 2) (after (.coolerEnable 1) (up.onPpt fun p => { p with holder := none }))

/-- The grant law holds of a station whose holder strokes while another waits, which passes on at the forward limit. -/
theorem test_witness_grant_law :
    stroking.gcc.holder = some 0 ∧ stroking.gcc.queue = [1] ∧ stroking.dou.lines[6].on = true ∧ GrantLawHolds stroking ∧
    (let x := after (.gccEndForwardChange 0 true) stroking
     x.gcc.holder = some 1 ∧ x.gcc.queue = [] ∧ x.dou.lines[6].on = false ∧ x.dou.lines[8].on = true ∧ GrantLawHolds x) := by
  have law : ∀ d : Station, (d.ppt.started = true ∧ (∀ i : Fin 4,
      (∀ l, d.findOut .strokeForward .compartment (i.val + 1) = some l → d.dou.lines[l].on = true → d.gcc.holder = some i) ∧
      (∀ l, d.findOut .strokeForward .compartment (i.val + 1) = some l → d.dou.lines[l].on = true →
        ∀ r, d.findOut .strokeReturn .compartment (i.val + 1) = some r → d.dou.lines[r].on = false) ∧
      (d.gcc.holder = some i ↔ d.gcc.comps[i].state = .forward) ∧ (i ∈ d.gcc.queue ↔ d.gcc.comps[i].state = .waiting) ∧
      (∀ t ∈ d.gcc.comps[i].timer, d.gcc.comps[i].state = match t.1 with
        | .forwardLimit => .forward | .dwell => .dwell | .returnLimit => .returning) ∧
      (d.gcc.comps[i].cfg = none → d.gcc.comps[i].state = .stopped)) ∧ d.gcc.queue.length ≤ 1) → GrantLawHolds d := by
    rintro d ⟨h0, h, h1⟩
    refine ⟨fun i => (h i).1, fun i l r e e' on => ?_, fun i => (h i).2.2.1, fun i => (h i).2.2.2.1, ?_, fun i t e x => ?_,
      fun i => (h i).2.2.2.2.2, fun x => ?_⟩
    · have := (h i).2.1 l e on.1 r e'
      rw [on.2] at this
      cases this
    · match q : d.gcc.queue with
      | [] => exact .nil
      | [a] => exact List.pairwise_singleton _ a
      | a :: b :: l => rw [q] at h1; simp at h1
    · exact (h i).2.2.2.2.1 (t, e) x
    · rw [h0] at x; cases x
  refine ⟨by decide +kernel, by decide +kernel, by decide +kernel, law _ (by decide +kernel), by decide +kernel, by decide +kernel,
    by decide +kernel, by decide +kernel, law _ (by decide +kernel)⟩

/-! ## Witnesses: alarms -/

/-- Point 1, a low point of an input line, changed. -/
def pointed (f : Point → Point) : Station := up.onPoint 1 f

theorem test_witness_delays :
    let on := fun (f : Point → Point) => after (.onDelayExpiry 1) (pointed fun p => f { p with delay := some (.on 5) })
    let off := fun (i : Fin 32) (f : Point → Point) =>
      (after (.offDelayExpiry i) (up.onPoint i fun p => f { p with delay := some (.off 5) })).alm.points[i]
    up.alm.points[1].cfg = alarm .inputLine 6 .low false ∧ up.alm.points[0].cfg = alarm .estop 0 .trip true ∧
    (on id).alm.points[1].state = .raisedUnacked ∧ (on id).alm.points[1].occurrence = 1 ∧
    (on fun p => { p with state := .returnedUnacked }).alm.points[1].occurrence = 1 ∧
    (on fun p => { p with state := .raisedUnacked, gone := true }).alm.points[1].gone = false ∧
    (on fun p => { p with state := .raisedAcked }).alm.points[1].state = .raisedAcked ∧
    (off 0 fun p => { p with state := .raisedUnacked }).gone = true ∧
    (off 1 fun p => { p with state := .raisedUnacked }).state = .returnedUnacked ∧
    (off 1 fun p => { p with state := .raisedAcked }).state = .normal ∧ (off 1 id).state = .normal ∧
    (off 1 fun p => { p with state := .returnedUnacked }).state = .returnedUnacked := by decide +kernel

/-- Point 2 watches the weigher of channel 1 with delays; what it holds when that condition is reported. -/
def watching (on off : Nat) (f : Point → Point) (v : Bool) (d : Station) : Point :=
  let d := d.onPoint 1 fun p => f { p with cfg := some {
    kind := .weigherSilent, inst := 1, cls := .low, latched := false, onDelay := on, offDelay := off, threshold := 0 } }
  let d := d.onAlm fun a => { a with present := if v then [] else [{ kind := .weigherSilent, inst := 1 }] }
  (d.report .weigherSilent 1 v).alm.points[1]

theorem test_witness_reported_conditions :
    let gone := fun p : Point => { p with watched := true, qualified := true, state := .raisedAcked }
    up.condition .weigherSilent 1 = false ∧ up.alm.points[1].watched = false ∧ up.alm.points[1].qualified = false ∧
    (watching 3 4 id true up).delay = some (.on 3000000) ∧ (watching 3 4 id true up).state = .normal ∧
    (watching 0 4 id true up).state = .raisedUnacked ∧ (watching 0 4 id true up).qualified = true ∧
    (watching 3 4 gone false up).delay = some (.off 4000000) ∧ (watching 3 4 gone false up).state = .raisedAcked ∧
    (watching 3 0 gone false up).state = .normal ∧
    (watching 3 4 (fun p => { p with watched := true, delay := some (.on 5) }) false up).delay = none ∧
    (watching 3 4 (fun p => { p with qualified := true, delay := some (.off 5) }) true up).delay = none ∧
    watching 3 4 (fun p => { p with watched := true }) true up = { watching 3 4 (fun p => { p with watched := true }) true up with
      delay := none, state := .normal } ∧
    (up.report .weigherSilent 1 false) = up := by decide +kernel

theorem test_witness_pressure_points :
    let d := (up.onPoint 1 fun p => { p with cfg := some {
        kind := .pressureHigh, inst := 1, cls := .low, latched := false, onDelay := 0, offDelay := 0, threshold := 999 } }).onPoint 4
      fun p => { p with cfg := some {
        kind := .pressureLow, inst := 1, cls := .low, latched := false, onDelay := 0, offDelay := 0, threshold := 1000 } }
    let high := after (.gccPressureCapture 0 5000 0 .us1) d
    let states := fun x : Station => (x.alm.points[1].state, x.alm.points[4].state)
    high.gcc.comps[0].pressure = 1000 ∧ states high = (.raisedUnacked, .normal) ∧
    states (after (.gccPressureCapture 0 5100 0 .us1) d) = (.normal, .raisedUnacked) ∧
    states (after (.gccPressureNoSignal 0) high) = (.returnedUnacked, .normal) ∧
    states (after (.gccPressureCapture 1 5000 0 .us1) d) = (.normal, .normal) := by decide +kernel

/-- A peer's point in the mirror. -/
def mirrored (silent : Bool) (st : AlarmState) : Station := up.onAlm fun a => { a with mirror := [
  { owner := 2, silent := silent
    body := { point := 4, occurrence := 9, state := st, cls := .high, kind := some .estop, raiseTime := 1, firstOut := 0 } }] }

theorem test_witness_acknowledgements :
    let ans := fun (c : Instr) (d : Station) => reply (after c d)
    let st := fun (f : Point → Point) => after (.ackAlarm 5 1 0) (pointed f)
    let full := fun d : Station => d.onLpc fun l => { l with
      queue := List.replicate 16 { body := .timeSet 0, placed := false, seq := 0, mask := 0, rotations := 0 } }
    up.ppt.started = true ∧ (5 : Byte) = stationByte up.own ∧ (3 : Byte) = stationByte 2 ∧ (2 : Fin 16) ≠ up.own ∧
    ans (.ackAlarm 0 0 0) up = some (.badField, 0) ∧ ans (.ackAlarm 17 0 0) up = some (.badField, 0) ∧
    ans (.ackAlarm 1 32 0) up = some (.badField, 0) ∧ ans (.ackAlarm 5 31 0) up = some (.badField, 0) ∧
    ans (.ackAlarm 5 1 1) up = some (.tooLate, 0) ∧ (st fun p => { p with state := .raisedUnacked }).alm.points[1].state = .raisedAcked ∧
    (st fun p => { p with state := .raisedUnacked, gone := true }).alm.points[1].state = .normal ∧
    (st fun p => { p with state := .returnedUnacked }).alm.points[1].state = .normal ∧ reply (st id) = some (.ok, 0) ∧
    reply (st fun p => { p with state := .raisedAcked }) = some (.ok, 0) ∧
    ans (.ackAlarm 3 4 9) up = some (.refused, 15) ∧ ans (.ackAlarm 3 4 9) (mirrored true .raisedUnacked) = some (.refused, 16) ∧
    ans (.ackAlarm 3 4 8) (mirrored false .raisedUnacked) = some (.tooLate, 0) ∧
    ans (.ackAlarm 3 4 9) (mirrored false .raisedAcked) = some (.ok, 0) ∧
    (after (.ackAlarm 3 4 9) (mirrored false .raisedUnacked)).lpc.queue.map (·.body) =
      up.lpc.queue.map (·.body) ++ [.ackRequest 3 4 9] ∧
    ans (.ackAlarm 3 4 9) (full (mirrored false .returnedUnacked)) = some (.queueFull, 0) := by decide +kernel

theorem test_witness_acknowledgement_requests :
    let ack := fun (occurrence : Byte) (f : Point → Point) => (pointed f).applyAck 1 occurrence
    (∀ i : Fin 32, (31 : Byte).toNat = i.val → up.alm.points[i].cfg = none) ∧ up.applyAck 31 0 = up ∧ up.applyAck 32 0 = up ∧
    (ack 1 id).signals = up.signals ++ [.sruContribution .ackTooLate] ∧
    (ack 0 fun p => { p with state := .raisedUnacked }).alm.points[1].state = .raisedAcked ∧
    (ack 0 fun p => { p with state := .raisedUnacked, gone := true }).alm.points[1].state = .normal ∧
    (ack 0 fun p => { p with state := .returnedUnacked }).alm.points[1].state = .normal ∧
    (ack 0 fun p => { p with state := .raisedAcked }).alm.points[1].state = .raisedAcked := by decide +kernel

theorem test_witness_shelving :
    let shelved := fun (f : Point → Point) => pointed fun p => f { p with shelf := some 5 }
    reply (after (.shelve 1 0) up) = some (.badField, 0) ∧ reply (after (.shelve 1 481) up) = some (.badField, 0) ∧
    reply (after (.shelve 0 1) up) = some (.refused, 17) ∧ (after (.shelve 1 480) up).alm.points[1].shelf = some 28800000000 ∧
    (after (.shelve 1 1) up).alm.points[1].shelf = some 60000000 ∧
    up.alm.points[1].shelf = none ∧ (after (.shelfExpiry 1) (shelved id)).alm.points[1].shelf = none ∧
    (shelved id).alm.points[1].announced = .known .normal ∧
    (after (.unshelve 1) (shelved fun p => { p with state := .raisedAcked })).alm.points[1].shelf = none ∧
    (after (.unshelve 2) (up.onPoint 2 fun p => { p with shelf := some 5, state := .raisedUnacked, announced := .unknown })).alm.points[2].announced =
      .known .raisedUnacked := by decide +kernel

theorem test_witness_announcements :
    let empty := fun (f : Point → Point) => (pointed fun p => f { p with shelf := some 5, state := .raisedAcked }).onLpc fun l =>
      { l with queue := [] }
    let full := fun d : Station => d.onLpc fun l => { l with
      queue := List.replicate 16 { body := .timeSet 0, placed := false, seq := 0, mask := 0, rotations := 0 } }
    let told := fun d : Station => let x := after (.unshelve 1) d
      (x.alm.points[1].announced, x.alm.points[1].pending, decide (x.lpc.queue = d.lpc.queue))
    (∀ i : Fin 32, (31 : Byte).toNat = i.val → up.alm.points[i].cfg = none) ∧
    reply (after (.shelve 31 1) up) = some (.badField, 0) ∧ reply (after (.unshelve 31) up) = some (.badField, 0) ∧
    told (empty id) = (.known .raisedAcked, false, false) ∧ told (full (empty id)) = (.known .normal, true, true) ∧
    told (empty fun p => { p with pending := true }) = (.known .normal, true, true) ∧
    told ((empty id).onAlm fun a => { a with flood := true }) = (.known .normal, true, true) := by decide +kernel

/-- A raise is announced, or deferred in class LOW in FLOOD, already pending and with a full queue; a shelved point is not announced; the new
length of the active list and a flood episode are handed on (R158, R160, R166, R170). -/
theorem test_witness_deferred_announcements :
    let full : List QueueEntry := List.replicate 16 { body := .timeSet 0, placed := false, seq := 0, mask := 0, rotations := 0 }
    let raised := fun (f : Point → Point) (a : Alm → Alm) (q : List QueueEntry) =>
      after (.onDelayExpiry 1) ((((pointed fun p => f { p with delay := some (.on 5) }).onAlm a).onLpc fun l => { l with queue := q }))
    let told := fun (x : Station) => (x.alm.points[1].announced, x.alm.points[1].pending, x.lpc.queue.length)
    let flood := fun a : Alm => { a with flood := true }
    let busy := fun a : Alm => { a with recent := List.replicate 6 0 }
    up.alm.points[1].cfg.map (·.cls) = some .low ∧ up.floodCfg.high = 6 ∧
    told (raised id id []) = (.known .raisedUnacked, false, 1) ∧ told (raised id flood []) = (.known .normal, true, 0) ∧
    told (raised (fun p => { p with pending := true }) id []) = (.known .normal, true, 0) ∧
    told (raised id id full) = (.known .normal, true, 16) ∧
    told (raised (fun p => { p with shelf := some 9 }) id []) = (.known .normal, false, 0) ∧
    (raised id id []).signals.drop up.signals.length =
      [.sruContribution (.activeLength ((raised id id []).alm.active.length)), .sruContribution .raise] ∧
    (raised id busy []).alm.flood = true ∧ (raised id busy []).signals.contains (.sruContribution .floodEpisode) = true ∧
    (up.lpc.accepts (.timeSet 3)) = true ∧ { up.lpc with queue := full }.accepts (.timeSet 3) = false := by decide +kernel

/-- The trip request is of the first TRIP point of the active list, else of ESTOP with the point that watches it; the summary shows the
highest class raised (R159, R169). -/
theorem test_witness_trip_request_and_summary :
    let raised := fun (i : Fin 32) (d : Station) => (d.onPoint i fun p => { p with state := .raisedUnacked }).onAlm fun a =>
      { a with active := a.active ++ [i] }
    let clear := up.onAlm fun a => { a with active := [], points := a.points.map fun p => { p with state := .normal } }
    let estop := fun d : Station => d.onAlm fun a => { a with present := [{ kind := .estop, inst := 0 }] }
    clear.tripNow = none ∧ (estop clear).tripNow = some { point := some 0, kind := .estop } ∧
    (raised 0 (raised 1 clear)).tripNow = some { point := some 0, kind := .estop } ∧
    (estop (clear.onPoint 0 fun p => { p with cfg := none })).tripNow = some { point := none, kind := .estop } ∧
    clear.alm.summary = { unacked := 0, highest := .none, flood := 0 } ∧ (raised 1 clear).alm.summary.highest = .low ∧
    (raised 2 (raised 1 clear)).alm.summary = { unacked := 2, highest := .high, flood := 0 } ∧
    (raised 0 (raised 2 clear)).alm.summary.highest = .trip ∧
    ((raised 2 clear).onPoint 2 fun p => { p with shelf := some 5 }).alm.summary = { unacked := 0, highest := .none, flood := 0 } := by
  decide +kernel

theorem test_witness_flood_and_mirror :
    let listed := fun (fl : Bool) (n : Nat) => up.onAlm fun a => { a with flood := fl, recent := List.replicate (n + 1) 5 }
    (listed true 2).floodCfg.low = 2 ∧ (after .recentRaiseExpiry (listed false 2)).alm.recent.length = 2 ∧
    (after .recentRaiseExpiry (listed true 3)).alm.flood = true ∧ (after .recentRaiseExpiry (listed true 2)).alm.flood = false ∧
    (after .almPlaceFree (pointed fun p => { p with state := .raisedAcked, pending := true })).alm.points[1].pending = false ∧
    (after .almFloorRefresh (mirrored false .raisedUnacked)).alm.mirror.map (·.silent) = [true] ∧
    (after .almFloorRefresh (seeing (peer 3) (mirrored true .raisedUnacked))).alm.mirror.map (·.silent) = [false] ∧
    (let d := (seeing (peer 3) (mirrored true .raisedUnacked)).onAlm fun a => { a with epochs := vecModify a.epochs 2 fun _ => some 9 }
     (after .almFloorRefresh d).alm.mirror = [] ∧ (after .almFloorRefresh d).alm.epochs[2] = some 1) := by decide +kernel

theorem test_witness_resubmission_and_lost_alarms :
    let full := fun d : Station => d.onLpc fun l => { l with
      queue := List.replicate 16 { body := .timeSet 0, placed := false, seq := 0, mask := 0, rotations := 0 } }
    let empty := fun d : Station => d.onLpc fun l => { l with queue := [] }
    let waits := empty (pointed fun p => { p with state := .raisedAcked, pending := true })
    let body := { point := 1, occurrence := 0, state := .raisedAcked, cls := .low, kind := some .inputLine, raiseTime := 0, firstOut := 0 }
    let lost := fun d : Station => d.almNoticeLost (.alarmState body)
    waits.awaitsPass 1 = true ∧ (after .almPlaceFree waits).lpc.queue.map (·.body) = [.alarmState body] ∧
    (after .almPlaceFree (full waits)).alm.points[1].pending = true ∧
    (after .recentRaiseExpiry (up.onAlm fun a => { a with recent := [] })).alm.recent = [] ∧
    (lost (pointed fun p => { p with shelf := some 5 })).alm.points[1].announced = .unknown ∧
    (lost (pointed fun p => { p with pending := true })).alm.points[1].announced = .unknown ∧
    (lost (up.onAlm fun a => { a with flood := true })).alm.points[1].pending = true ∧
    (lost (empty (pointed fun p => { p with state := .raisedAcked }))).lpc.queue.map (·.body) = [.alarmState body] ∧
    (lost (full up)).alm.points[1].pending = true := by decide +kernel

theorem test_witness_mirror_notices :
    let body := fun (point : Nat) (st : AlarmState) (cls : AlarmClass) =>
      { point := BitVec.ofNat 8 point, occurrence := 9, state := st, cls := cls, kind := some .estop, raiseTime := 1, firstOut := 0 : AlarmBody }
    let filled := fun st : AlarmState => up.onAlm fun a => { a with
      mirror := (List.range 64).map fun n => { owner := Fin.ofNat 16 (n / 32), silent := false, body := body (n % 32) st .low } }
    let points := fun d : Station => d.alm.mirror.map fun e => e.body.point.toNat
    let added := up.applyAlarm 2 (body 6 .raisedUnacked .high)
    points added = [6] ∧ points (added.applyAlarm 2 (body 7 .raisedUnacked .low)) = [6, 7] ∧
    points ((added.applyAlarm 2 (body 7 .raisedUnacked .low)).applyAlarm 2 (body 6 .raisedAcked .high)) = [7, 6] ∧
    points (added.applyAlarm 2 (body 6 .normal .high)) = [] ∧
    (points ((filled .raisedAcked).applyAlarm 2 (body 6 .raisedUnacked .high))).length = 64 ∧
    (points ((filled .raisedAcked).applyAlarm 2 (body 6 .raisedUnacked .high))).head? = some 1 ∧
    ((filled .raisedUnacked).applyAlarm 2 (body 6 .raisedUnacked .high)).alm.overflow = 1 ∧
    points ((added.onAlm fun a => { a with epochs := vecModify a.epochs 2 fun _ => some 9 }) |> seeing (peer 3) |>.applyAlarm 2
      (body 7 .raisedUnacked .low)) = [7] := by decide +kernel

/-- A first-out flag that goes is announced on a NORMAL point too, one that comes is not (R157, R159; log 19). -/
theorem test_first_out_changes_are_announced :
    let empty := fun f => (up.onLpc fun l => { l with queue := [] }).onPoint 0 f
    ((empty fun p => { p with firstOut := true }).setFirstOut 0 false).lpc.queue.length = 1 ∧
    ((empty id).setFirstOut 0 true).lpc.queue.length = 0 ∧
    ((empty fun p => { p with state := .raisedUnacked }).setFirstOut 0 true).lpc.queue.length = 1 := by decide +kernel

/-- A peer of index 2 that sends notices of its own. -/
def noticed (bodies : List NoticeBody) : Image :=
  { peer 3 with notices := bodies.mapIdx fun k b => { sender := 3, seq := BitVec.ofNat 8 k, mask := 0, body := b } }

theorem test_witness_notices_of_a_train :
    let alarm : AlarmBody := { point := 4, occurrence := 9, state := .raisedUnacked, cls := .high, kind := some .estop, raiseTime := 1, firstOut := 0 }
    let arrive := fun (b : NoticeBody) (d : Station) => after (.trainArrival (train 3 (some (noticed [b])))) d
    let unacked := pointed fun p => { p with state := .raisedUnacked }
    let body := train 3 (some (noticed [.alarmState alarm, .ackRequest 5 1 0]))
    up.lpc.state = .up ∧ up.lpc.prevWrite = false ∧ up.lpc.origin = false ∧ readHead (body.take 14) = some (head 3) ∧
    newNotices body up = [(2, .alarmState alarm), (2, .ackRequest 5 1 0)] ∧
    newNotices (train 3 (some (noticed [.alarmState alarm]))) up = [(2, .alarmState alarm)] ∧
    newNotices body (up.onLpc fun l => { l with
      taken := vecModify l.taken 2 fun _ => [0], floor := vecModify l.floor 2 fun e => { e with age := 0 } }) = [(2, .ackRequest 5 1 0)] ∧
    newNotices body (up.onLpc fun l => { l with floor := vecModify l.floor 2 fun e => { e with seen := true, seq := 1 } }) = [] ∧
    (arrive (.alarmState alarm) up).alm.mirror.length = 1 ∧ (arrive (.ackRequest 5 1 0) unacked).alm.points[1].state = .raisedAcked ∧
    (arrive (.ackRequest 6 1 0) unacked).alm.points[1].state = .raisedUnacked := by decide +kernel

/-- The station in UP after its first write, with a notice placed twice before that a return without its record loses. -/
def losing (b : NoticeBody) (more : Nat) : Station := writing.onLpc fun l => { l with
  live := [2]
  queue := { body := b, placed := true, seq := 1, mask := 0, rotations := 2 } ::
    List.replicate more { body := .timeSet 0, placed := false, seq := 0, mask := 0, rotations := 0 } }

theorem test_witness_losses_of_a_train :
    let body := train 3 (some (peer 3))
    let own := train 5 (some (peer 3))
    let x := after (.trainArrival body) (losing (.timeSet 1) 15)
    let origin := fun d : Station => d.onLpc fun l => { l with origin := true, release := .running 9, awaiting := true }
    let y := after (.trainArrival own) (origin (losing (.timeSet 1) 0))
    let alarm : AlarmBody := { point := 1, occurrence := 0, state := .normal, cls := .low, kind := some .inputLine, raiseTime := 0, firstOut := 0 }
    writing.lpc.prevWrite = true ∧ viewSlot 4 (rawSlot body 4) = .empty ∧ ownRecords body 4 = [] ∧
    (losing (.timeSet 1) 15).lpc.losses [] = [.timeSet 1] ∧
    x.lpc.lossHold = some 60000000 ∧ x.condition .noticeLoss 0 = true ∧ x.lpc.counters.noticesLost.count = 1 ∧
    x.signals.contains (.sruContribution .noticeLost) = true ∧ x.signals.contains .almPlaceFree = true ∧
    (after (.trainArrival body) writing).lpc.lossHold = none ∧
    y.lpc.lossHold = some 60000000 ∧ y.lpc.queue = [] ∧ y.lpc.awaiting = false ∧
    (after (.trainArrival body) (losing (.alarmState alarm) 0)).alm.points[1].announced = .known .normal ∧
    (after (.trainArrival body) (losing (.alarmState alarm) 0)).lpc.queue.map (·.body) = [.alarmState alarm] := by decide +kernel

/-! ## Witnesses: shifts -/

/-- The clock at a second before a boundary, in shift 8. -/
def midnight (d : Station) : Station := d.onSru fun r => { r with time := 4, shift := 8, notUp := some 1 }

theorem test_witness_clock :
    let origin := up.onLpc fun l => { l with origin := true }
    let full := up.onLpc fun l => { l with
      queue := List.replicate 16 { body := .timeSet 0, placed := false, seq := 0, mask := 0, rotations := 0 } }
    (midnight up).sru.second = some 1000000 ∧ 5 % 86400 ∈ up.boundaries ∧
    (after .secondTimerExpiry (midnight up)).sru.shift = 8 ∧ (after .secondTimerExpiry (midnight origin)).sru.shift = 9 ∧
    ((after .secondTimerExpiry (midnight origin)).sru.ring.map (·.cause)) = [.boundary] ∧
    ((after .secondTimerExpiry (midnight started)).sru.ring.map (·.cause)) = [.localClose] ∧
    (after .notUpSecondTimerExpiry (midnight up)).sru.acc.loop.notUpSeconds = 1 ∧
    up.lpc.queue.length < 16 ∧ 16 ≤ full.lpc.queue.length ∧ reply (after (.setFloorTime 1) full) = some (.queueFull, 0) ∧
    (after (.setFloorTime 1) up).lpc.queue.length = up.lpc.queue.length + 1 ∧
    (∀ b ∈ up.boundaries, b < 86400) ∧ ((midnight origin).applyTimeSet 5).sru.shift = 9 ∧
    ((midnight origin).applyTimeSet 4).sru.shift = 8 ∧ ((midnight origin).applyTimeSet 43199).sru.shift = 9 ∧
    ((midnight origin).applyTimeSet 1).sru.shift = 8 := by decide +kernel

theorem test_witness_open_shift :
    let d := midnight up
    let fresh := d.onSru fun r => { r with shift := 0 }
    (d.takeHead 9 0).sru.shift = 8 ∧ (fresh.takeHead 9 3).sru.shift = 3 ∧ (fresh.takeHead 9 3).sru.ring = [] ∧
    ((d.takeHead 9 9).sru.ring.map (·.cause)) = [.boundary] ∧ ((d.takeHead 9 10).sru.ring.map (·.cause)) = [.advance] ∧
    ((d.onSru fun r => { r with unresolved := true }).takeHead 9 10).sru.ring.map (·.cause) = [.interrupted] ∧
    (d.takeHead 9 8).sru.ring = [] ∧ fresh.converge.sru.shift = 1 ∧ (seeing (peer 3) fresh).converge.sru.shift = 9 ∧
    (seeing (peer 3) d).converge.sru.ring.map (·.cause) = [.boundary] ∧ d.converge.sru.shift = 8 := by decide +kernel

theorem test_witness_collecting :
    let d := fun (n : Nat) (st : LoopState) => inState st (up.onSru fun r => { r with ring := [collecting], arrivals := n })
    let done := fun x : Station => x.sru.ring.map (·.complete)
    (d 0 .up).sru.ring = [] ++ [collecting] ∧ collecting.complete = false ∧
    done (after .sruFloorRefresh (d 0 .joining)) = [false] ∧ done (after .sruFloorRefresh (d 2 .up)) = [false] ∧
    done (after .sruFloorRefresh (d 3 .up)) = [true] ∧ done (after .sruFloorRefresh (seeing (peer 3) (d 0 .up))) = [true] ∧
    (after .sruFloorRefresh (seeing (peer 3) (d 0 .up))).sru.ring.map (fun r => r.floor.map (·.mark)) = [[.collected]] ∧
    done (after .sruLeftUp (d 0 .up)) = [true] ∧ (after .sruEnteredUp (d 0 .up)).sru.notUp = none ∧
    (let skip := (d 3 .up).onSru fun r => { r with skipRefresh := true }
     done (after .sruFloorRefresh skip) = [false] ∧ (after .sruFloorRefresh skip).sru.skipRefresh = false) := by decide +kernel

theorem test_witness_releases :
    let timeless := fun d : Station => d.onLpc fun l => { l with queue := [
      { body := .timeSet 4, placed := true, seq := 0, mask := 0, rotations := 0 },
      { body := .timeSet 77, placed := false, seq := 0, mask := 0, rotations := 0 }] }
    let ready := timeless (up.onLpc fun l => { l with origin := true, release := .running 10 })
    let late := timeless (up.onLpc fun l => { l with origin := true, release := .expired, awaiting := true })
    let won := timeless (inState .claiming up)
    let mark : Instr := .claimMarkArrival (withCheck [2, 4, 5, 3]).tail
    let told := fun d : Station => (d.sru.time, d.lpc.queue.map (fun e => (e.placed, e.seq)), d.lpc.awaiting, d.loopOut.length)
    timesPlaced ready.lpc = [77] ∧ won.loopCfg.rank = 4 ∧ stationByte won.own = 5 ∧
    told (after .releaseTimerExpiry ready) = (77, [(true, 0), (true, 0)], true, 1) ∧
    (after .releaseTimerExpiry ready).lpc.nextSeq = 1 ∧ (after .releaseTimerExpiry ready).lpc.release = .running 10000 ∧
    told (after (.trainArrival (train 5 none)) late) = (77, [(true, 0), (true, 0)], true, 1) ∧
    told (after mark won) = (77, [(true, 0), (true, 0)], true, 1) ∧ (after mark won).lpc.loopSize = 4 ∧
    (let waits := up.onLpc fun l => { l with origin := true, release := .running 10, awaiting := true }
     (after (.trainArrival (train 5 (some (noticed [.timeSet 77])))) waits).sru.time = 77 ∧
     (after (.trainArrival (train 5 none)) waits).sru.time = up.sru.time) ∧
    (after (.trainArrival (train 3 none)) up).sru.time = 100 ∧ (after (.trainArrival (train 3 none)) up).sru.shift = 9 := by
  decide +kernel

/-! ## Witnesses: the panel port -/

/-- The response record for a host that sent a request. -/
def request (kind tag : Byte) (body : List Byte) : List Byte :=
  withCheck ([kind, tag, 0, BitVec.ofNat 8 body.length] ++ body)

theorem test_witness_transactions :
    let clear := up.onPpt fun p => { p with holder := none }
    let sel := after .selectAssert clear
    let send := fun (b : List Byte) (d : Station) => after (.selectRelease b) d
    let note := fun d : Station => d.ppt.note.map fun n => (n.code, n.tag)
    let resp := fun tag => some (α := Response) { tag := tag, code := .ok, reason := 0, body := [] }
    let worked := send (request 5 9 []) sel
    clear.ppt.outgoing = none ∧ sel.ppt.outgoing = some { source := .noneReply, bytes := withCheck [0, 0, 0, 0, 0, 0] } ∧
    (after .selectAssert (clear.onPpt fun p => { p with note := some { code := .busy, tag := 3 } })).ppt.outgoing.map (·.source) =
      some .note ∧
    (after .selectAssert (clear.onPpt fun p => { p with holder := resp 3 })).ppt.outgoing.map (·.source) = some .held ∧
    (after .selectAssert (clear.onPpt fun p => { p with slot := some (3, .service) })).ppt.outgoing.map (·.source) =
      some .pendingReply ∧
    (send [1, 2, 0] sel).ppt.note = none ∧ note (send [1, 2, 0, 241] sel) = some (.checkError, 2) ∧
    note (send (List.replicate 4 0 ++ [1]) sel) = none ∧ note (send (request 5 9 [] ++ [7]) sel) = none ∧
    note (send [5, 9, 0, 0, 0, 0] sel) = some (.checkError, 9) ∧ (send (request 0 0 []) sel).ppt.slot = none ∧
    note (send (request 5 8 []) (sel.onPpt fun p => { p with slot := some (3, .service) })) = some (.busy, 8) ∧
    reply (send (request 255 4 []) sel) = some (.badField, 0) ∧ requestOf 5 [] ≠ none ∧ requestOf 255 [] = none ∧
    worked.ppt.slot = (requestOf 5 []).map fun c => (9, c) := by decide +kernel

/-- A request of each kind in its body, and the same body one byte longer or shorter, which spells nothing (Tables 12-6 and 12-8). -/
theorem test_witness_request_bodies :
    let kinds : List (Byte × List Byte × Instr) := [(1, [1, 0, 5], .configure 1 0 [5]), (2, [], .start), (3, [], .service),
      (4, [], .readEvents), (5, [], .readResetCause), (6, [8], .readStatus 8), (7, [], .burnerStart), (8, [], .burnerStop),
      (9, [], .lockoutReset), (10, [1, 2, 3, 4], .setHeatDemand 0x01020304), (11, [1], .feedEnable 1), (12, [2], .feedDisable 2),
      (13, [1], .feedClearFault 1), (14, [1, 78, 32], .calorificUpdate 1 20000), (15, [1], .coolerEnable 1),
      (16, [1], .coolerDisable 1), (17, [1, 0, 30], .setStrokeBase 1 30), (18, [1], .grateClearFault 1), (19, [1, 1, 0], .setFan 1 256),
      (20, [5, 1, 2], .ackAlarm 5 1 2), (21, [1, 1, 224], .shelve 1 480), (22, [1], .unshelve 1), (23, [3], .readAlarms 3),
      (24, [7], .readMirror 7), (25, [0, 0, 0, 9], .setFloorTime 9), (26, [7, 1], .readReport 7 1), (27, [16], .readFloor 16),
      (28, [], .readCounters), (29, [], .readBreak), (30, [255], .readInput 255), (31, [15], .readOutput 15)]
    (kinds.all fun e => requestOf e.1 e.2.1 == some e.2.2 && requestOf e.1 (e.2.1 ++ [0]) == none &&
      (e.2.1.isEmpty || requestOf e.1 e.2.1.dropLast == none)) = true ∧
    requestOf 0 [] = none ∧ requestOf 0 [1] = none ∧ requestOf 32 [] = none ∧ requestOf 1 [0, 0] = some (.configure 0 0 []) ∧
    RequestSpelled 1 [1, 0, 5] (.configure 1 0 [5]) ∧ RequestSpelled 21 [1, 1, 224] (.shelve 1 480) ∧ ¬ RequestSpelled 0 [] .start ∧
    reply (after (.configure 1 0 []) Station.first) = some (.badField, 0) ∧
    reply (after (.configure 1 0 [5, 0]) Station.first) = some (.badField, 0) ∧ sectionLength .station = 1 ∧
    sectionLength .burner = 32 := by
  refine ⟨by decide +kernel, by decide +kernel, by decide +kernel, by decide +kernel, by decide +kernel, ?_, ?_, ?_, by decide +kernel,
    by decide +kernel, by decide +kernel, by decide +kernel⟩
  · refine ⟨rfl, rfl, fun k h => ?_⟩
    cases k <;> first | decide +kernel | exact absurd h (by decide +kernel)
  · exact ⟨rfl, by decide +kernel⟩
  · rintro ⟨h, -⟩
    cases h

/-- What is clocked past the record reads 0, and a short transaction clocks part of it (R188). -/
theorem test_bytes_past_the_record_are_zero :
    let none_ := withCheck [0, 0, 0, 0, 0, 0]
    let sel := after .selectAssert (up.onPpt fun p => { p with holder := none })
    (after (.selectRelease (List.replicate 10 0)) sel).ppt.clockedOut = none_ ++ [0, 0] ∧
    (after (.selectRelease [1, 2, 3]) sel).ppt.clockedOut = none_.take 3 := by decide +kernel

theorem test_witness_configure_and_start :
    let conf := fun (k i : Byte) (f : List Byte) (d : Station) => after (.configure k i f) d
    let ans := fun (k i : Byte) (f : List Byte) => reply (conf k i f Station.first)
    let begin_ := fun (r : ConfigRecord) => ((after .start (loaded.onPpt fun p => { p with cfg := r })).ppt.holder).map fun h =>
      (h.reason, h.body)
    ans 0 0 [] = some (.badField, 0) ∧ ans 13 0 [] = some (.badField, 0) ∧ ans 6 8 [] = some (.badField, 0) ∧
    reply (conf 1 0 [5] started) = some (.wrongState, 0) ∧ ans 1 0 [17] = some (.badField, 1) ∧
    (conf 1 0 [16] Station.first).cfg.station = some 16 ∧
    (conf 2 0 [10, 3, 15, 0, 20, 0] Station.first).cfg.loop =
      some { cycle := 10, watchMultiple := 3, rank := 15, claimLimit := 20, grace := 0 } ∧
    ans 2 0 [100, 10, 0, 1, 244, 30] = some (.ok, 0) ∧ ans 2 0 [101, 10, 0, 1, 244, 30] = some (.badField, 1) ∧
    ans 2 0 [100, 10, 0, 1, 245, 30] = some (.badField, 4) ∧
    (conf 6 7 [0, 2, 0, 0, 0, 0, 1, 0] Station.first).piu.channels[7].mode = some .period ∧
    reply (after .start started) = some (.wrongState, 0) ∧ begin_ { record with station := none } = some (20, [1, 0]) ∧
    begin_ { record with loop := none } = some (20, [2, 0]) ∧ begin_ { record with shift := none } = some (20, [3, 0]) ∧
    begin_ { record with service := none } = some (20, [4, 0]) ∧ begin_ { record with flood := none } = some (20, [5, 0]) ∧
    begin_ { record with flood := some { high := 2, low := 2 } } = some (21, [5, 0]) ∧ begin_ record = some (0, []) := by
  decide +kernel

/-- What the blocks read of their settings: the own number at its ends, the duties, and the first line or channel of a function. -/
theorem test_witness_settings :
    let station := fun n => (up.onPpt fun p => { p with cfg := { p.cfg with station := some n } }).own.val
    let twice := up.onPpt fun p => { p with cfg := { p.cfg with channels := p.cfg.channels.set 6 (chan .weigher 1 .countWindow 5) } }
    station 1 = 0 ∧ station 16 = 15 ∧ up.loopCfg.cycle = 10 ∧ up.boundaries = [5, 43200] ∧ up.floodCfg.high = 6 ∧
    up.serviceCfg.period = 2 ∧ up.burnerDuty = true ∧ Station.first.burnerDuty = false ∧ Station.first.feedDuty = false ∧
    Station.first.coolerDuty = false ∧ up.findOut .valve .pilotValve 0 = some 3 ∧ up.findOut .valve .pilotValve 9 = some 3 ∧
    up.findOut .reference .feeder 2 = some 1 ∧ up.findOut .reference .feeder 3 = none ∧ twice.findChannel .weigher 1 = some 4 ∧
    up.findChannel .weigher 2 = none ∧ up.hasWeigher 0 = true ∧ up.hasWeigher 1 = false ∧ up.turnsBack 0 = false ∧
    (up.onChannel 2 fun c => { c with direction := .reverse }).turnsBack 0 = true ∧ up.lineActive .estop = false ∧
    (lineOn 2 up).lineActive .estop = true := by decide +kernel

theorem test_witness_start_of_the_pulse_inputs :
    let high := (loaded.onInput 0 fun l => { l with pin := true }).onChannel 0 fun c => { c with pin := true }
    let x := after .start high
    x.piu.lines[0].pending = some { level := true, due := 1000 } ∧ x.piu.lines[0].active = false ∧ x.piu.lines[1].pending = none ∧
    x.piu.channels[0].accepted = true ∧ x.piu.channels[0].phase = .seeking ∧ x.piu.channels[2].phase = .counting ∧
    x.piu.channels[6].phase = .disabled ∧ x.gcc.comps[0].preload = 20 ∧ x.gcc.comps[0].mode = .minimum ∧
    x.lpc.staging.closing = some { shift := 0, heat := 0, firing := 0, strokes := 0, trips := 0 } ∧
    (∀ i : Fin 32, high.alm.points[i].cfg = none) ∧ x.lpc.staging.summary = some x.alm.summary ∧
    x.lpc.staging.burner = some { letter := .a, state := .off, demand := 0 } := by decide +kernel

/-- The bytes of a section's values. -/
def sectionBytes (k : SectionKind) (vs : List Nat) : List Byte :=
  (vs.zip (sectionTable k fun n => vs.getD n 0)).flatMap fun e => fieldBytes e.2.1 e.1

/-- A section with every value in its range, one for each kind, and a change of one value that is out of it, with that field's number. -/
def sections : List (SectionKind × Byte × List Nat × Nat × Nat) :=
  [(.station, 0, [16], 1, 17), (.loop, 0, [100, 10, 0, 500, 30], 4, 501), (.shift, 0, [2, 0, 86399, 0, 0], 3, 86400),
   (.service, 0, [16, 2], 2, 3), (.flood, 0, [4, 31], 1, 3), (.inputChannel, 7, [1, 4, 0, 1, 3, 3, 255, 1], 2, 5),
   (.inputLine, 11, [5, 6, 1, 100], 2, 3), (.outputLine, 15, [0, 1, 4, 10000, 1, 1000, 100, 100], 4, 99),
   (.burner, 0, [2, 5000, 125000, 8, 4, 600, 15, 15, 30, 400000, 400000, 10000, 1, 600, 50, 600], 10, 400001),
   (.feedChannel, 2, [1, 100, 35000, 60000, 4080, 100000, 60000, 1000, 0], 9, 9),
   (.compartment, 4, [300, 20, 300, 30000, 1000, 20000, 1000, 30000, 10000, 100, 65535], 8, 30001),
   (.alarmPoint, 31, [21, 255, 3, 1, 60, 60, 30000], 1, 22)]

theorem test_witness_sections_of_every_kind :
    (sections.all fun e =>
      let (k, inst, vs, n, bad) := e
      let v := fun m => vs.getD m 0
      let conf := fun l => after (.configure (kindByte k) inst (sectionBytes k l)) Station.first
      vs.length == (sectionTable k v).length && (sectionTable k v).all (·.2) &&
      ((vs.zip (sectionTable k v)).all fun e => decide (e.1 < 256 ^ e.2.1)) &&
      reply (conf vs) == some (.ok, 0) && reply (conf (vs.set (n - 1) bad)) == some (.badField, BitVec.ofNat 8 n)) = true ∧
    (sections.map fun e => e.1) = [.station, .loop, .shift, .service, .flood, .inputChannel, .inputLine, .outputLine, .burner,
      .feedChannel, .compartment, .alarmPoint] ∧
    (after (.configure 6 7 [1, 4, 0, 1, 3, 3, 255, 1]) Station.first).piu.channels[7].mode = some .period ∧
    (after (.configure 9 0 (sectionBytes .burner
      [2, 5000, 125000, 8, 4, 600, 15, 15, 30, 400000, 400000, 10000, 1, 600, 50, 600])) Station.first).cfg.burner =
      some { letter := .b, bandMin := 5000, bandMax := 125000, proofCount := 8, failResponse := 4, purgeTime := 600
             pilotLimit := 15, ignitionTime := 15, mainLimit := 30, lightOff := 400000, maxDemand := 400000, rampRate := 10000
             coolerRequired := true, coolerLossTime := 600, tolerance := 50, shortfallDelay := 600 } ∧
    reply (after (.configure 7 12 [5, 6, 1, 100]) Station.first) = some (.badField, 0) ∧
    reply (after (.configure 10 0 (sectionBytes .feedChannel [1, 100, 35000, 60000, 4080, 100000, 60000, 1000, 10])) Station.first) =
      some (.badField, 0) := by decide +kernel

theorem test_witness_section_instances : sectionInstance .feedChannel 1 ∧ ¬ sectionInstance .feedChannel 0 ∧
    sectionInstance .inputLine 11 ∧ ¬ sectionInstance .inputLine 12 ∧ sectionInstance .burner 0 := by
  simp [sectionInstance]

theorem test_witness_start_checks :
    let begin_ := fun (r : ConfigRecord) => ((after .start (loaded.onPpt fun p => { p with cfg := r })).ppt.holder).map fun h =>
      (h.reason, h.body)
    let chans := fun (i : Nat) (c : Option ChannelCfg) => { record with channels := record.channels.set! i c }
    let lines := fun (i : Nat) (c : Option LineCfg) => { record with lines := record.lines.set! i c }
    let outs := fun (i : Nat) (c : Option OutCfg) => { record with outputs := record.outputs.set! i c }
    let burns := fun (c : BurnerCfg) => { record with burner := some c }
    let comp := fun (c : CompCfg) => { record with comps := record.comps.set 1 (some c) }
    let point := fun (c : Option PointCfg) => { record with points := record.points.set 31 c }
    let refused : List (ConfigRecord × Byte × List Byte) :=
      [(chans 6 (chan .flameScanner 1 .period 1), 22, [6, 6]), (chans 0 (chan .flameScanner 1 .quadrature 1), 23, [6, 0]),
       (chans 3 none, 23, [6, 2]), (lines 9 (inLine .estop 0), 22, [7, 9]), (lines 9 (inLine .endForward 3), 24, [7, 9]),
       (lines 5 (inLine .index 4), 24, [7, 5]), (outs 10 (outLine .reference .feeder 1), 22, [8, 10]),
       (outs 10 (outLine .valve .feeder 1), 25, [8, 10]),
       (outs 5 ((outLine .igniter .igniter 0).map fun c => { c with pulseWidth := 20 }), 26, [8, 5]),
       (outs 3 none, 27, [9, 0]), (burns { burnerCfg with ignitionTime := 6 }, 28, [9, 0]),
       (burns { burnerCfg with lightOff := 4001 }, 28, [9, 0]), (burns { burnerCfg with bandMin := 125000 }, 28, [9, 0]),
       (outs 1 none, 27, [10, 2]), ({ record with feeds := #v[none, none] }, 24, [10, 1]), (outs 9 none, 27, [11, 2]),
       (comp { compCfg with minRate := 31 }, 28, [11, 2]), (comp { compCfg with dwell := 14801 }, 29, [11, 2]),
       (chans 6 (chan .pressure 3 .period 1), 24, [11, 3]), (point (alarm .feederStall 3 .low false), 24, [12, 31]),
       (point (alarm .inputLine 0 .low false), 24, [12, 31]), (point (alarm .estop 1 .low false), 24, [12, 31])]
    let accepted : List ConfigRecord :=
      [outs 5 ((outLine .igniter .igniter 0).map fun c => { c with pulseWidth := 19 }), burns { burnerCfg with ignitionTime := 5 },
       burns { burnerCfg with lightOff := 4000 }, burns { burnerCfg with bandMin := 124999 },
       comp { compCfg with minRate := 30 }, comp { compCfg with dwell := 14800 }, point (alarm .limitConflict 2 .low false)]
    (refused.all fun e => begin_ e.1 == some e.2) = true ∧ (accepted.all fun r => begin_ r == some (0, [])) = true := by
  decide +kernel

theorem test_witness_points_at_start :
    let lit := loaded.onAlm fun a => { a with present := [⟨.panelAbsent, 0⟩] }
    let delayed := (alarm .panelAbsent 0 .high false).map fun c => { c with onDelay := 2 }
    let slow := lit.onPpt fun p => { p with cfg := { p.cfg with points := p.cfg.points.set 3 delayed } }
    started.alm.points[0] = { Point.first with cfg := alarm .estop 0 .trip true } ∧ loaded.condition .estop 0 = false ∧
    slow.condition .panelAbsent 0 = true ∧ (after .start slow).alm.points[3].delay = some (.on 2000000) ∧
    (after .start slow).alm.points[3].watched = true := by decide +kernel

theorem test_witness_service :
    let set := fun (w : Window) (o : Option Nat) => up.onPpt fun p => { p with window := w, openAt := o, periodEnd := some 9 }
    reply (after .service Station.first) = some (.wrongState, 0) ∧ (after .service up).ppt.window = .openPart ∧
    reply (after .service (set .closed (some 5))) = some (.refused, 18) ∧ (after .service (set .openPart none)).ppt.periodEnd = some 2000000 ∧
    (after .serviceOpenPoint (set .closed (some 5))).ppt.window = .openPart ∧
    (after .servicePeriodExpiry (set .openPart none)).ppt.window = .awaitingFirst ∧
    (after .servicePeriodExpiry (set .openPart none)).condition .panelAbsent 0 = true ∧
    (after .readEvents up).ppt.events = 0 ∧ (after .readResetCause loaded).ppt.cause = .none := by decide +kernel

theorem test_witness_requests :
    let ans := fun (c : Instr) (d : Station) => reply (after c d)
    let bare := after .start (loaded.onPpt fun p => { p with cfg := { ConfigRecord.first with
      station := record.station, loop := record.loop, shift := record.shift, service := record.service, flood := record.flood } })
    bare.ppt.started = true ∧ bare.cfg.burner = none ∧ bare.feedDuty = false ∧ bare.coolerDuty = false ∧
    ans .burnerStart loaded = some (.wrongState, 0) ∧ ans (.readAlarms 0) loaded = some (.wrongState, 0) ∧
    ans (.readStatus 4) loaded = some (.wrongState, 0) ∧ ans .burnerStart bare = some (.notConfigured, 0) ∧
    ans (.readStatus 4) bare = some (.notConfigured, 0) ∧ ans (.feedEnable 1) bare = some (.notConfigured, 0) ∧
    ans (.setFan 1 1) bare = some (.notConfigured, 0) ∧ ans (.readStatus 6) bare = some (.notConfigured, 0) := by decide +kernel

theorem test_witness_reads :
    let ans := fun (c : Instr) => reply (after c up)
    let filed := up.onSru fun r => { r with ring := [collecting.completed, collecting] }
    ans (.readAlarms 3) = some (.ok, 0) ∧ ans (.readAlarms 4) = some (.badField, 0) ∧ ans (.readMirror 7) = some (.ok, 0) ∧
    ans (.readMirror 8) = some (.badField, 0) ∧ ans (.readReport 8 0) = some (.badField, 0) ∧
    ans (.readReport 7 0) = some (.refused, 19) ∧ reply (after (.readReport 1 0) filed) = some (.ok, 0) ∧
    reply (after (.readReport 0 255) filed) = some (.badField, 0) ∧ filed.sru.ring = [] ++ collecting.completed :: [collecting] ∧
    collecting.image.length ≤ 32 * 255 ∧ 0 < collecting.completed.image.length := by decide +kernel

/-- A pair record is shown where both channels are ENCODERs, and a GENERAL line shows its own number (R71). -/
theorem test_records_of_channels_and_lines :
    let lone := started.onPpt fun p => { p with cfg := { p.cfg with channels := p.cfg.channels.set 2 (chan .flameScanner 1 .period 1) } }
    started.recordChannel 3 = 2 ∧ started.recordChannel 2 = 2 ∧ lone.recordChannel 3 = 3 ∧ started.recordChannel 0 = 0 ∧
    (started.lineRecord 6).take 2 = [6, 6] ∧ (started.lineRecord 8).take 2 = [4, 2] := by decide +kernel

/-- A LOCAL first-out is its kind and then its point (R102), and the image of READ FLOOR has a mark byte (R23, R201). -/
theorem test_first_out_and_floor_image_bytes :
    (FirstOut.localRef (some 7) .flameFail).bytes = [0, 1, 7] ∧ (FirstOut.localRef none .estop).bytes = [0, 6, 255] ∧
    (FirstOut.peer (some 4) (some 5) (some .flameFail)).bytes = [1, 4, 5, 1] ∧
    Station.first.floorRecord 3 = [0, 0, 0, 0, 0, 255, 0, 0] := by decide +kernel

/-- Two changes of an unfiltered pin at one tick leave no wait (log 55). -/
theorem test_pin_back_at_once :
    let d := after (.pulsePinChange 0 true) started
    (d.piu.channels[0]).wait.isSome = true ∧ ((after (.pulsePinChange 0 false) d).piu.channels[0]).wait = none := by
  decide +kernel

theorem test_witness_reads_of_records :
    let ans := fun (c : Instr) => reply (after c up)
    ((List.range 8).all fun n => ans (.readStatus (BitVec.ofNat 8 (n + 1))) == some (.ok, 0)) = true ∧
    ans (.readStatus 0) = some (.badField, 0) ∧ ans (.readStatus 9) = some (.badField, 0) ∧
    ans (.readFloor 0) = some (.badField, 0) ∧ ans (.readFloor 16) = some (.ok, 0) ∧ ans (.readFloor 17) = some (.badField, 0) ∧
    ans .readBreak = some (.ok, 0) ∧ ans (.readInput 7) = some (.ok, 0) ∧ ans (.readInput 8) = some (.badField, 0) ∧
    ans (.readInput 255) = some (.ok, 0) ∧ ans (.readOutput 15) = some (.ok, 0) ∧ ans (.readOutput 16) = some (.badField, 0) ∧
    ans (.readOutput 255) = some (.ok, 0) ∧ ans .readCounters = some (.ok, 0) := by decide +kernel

end Sys2Proof.Tests
end

section
/-! SUPPORT. The step that R75 gives for a pattern position, and the carrier period that starts with it. -/

namespace Sys2Proof.Machine

/-! ## The ranks of the pattern positions (Table 5-2) -/

/-- As many positions have a rank below a fraction as the fraction says. -/
theorem raisedPositions_sum (f : Nat) (hf : f < 16) :
    ((List.range 16).map fun p => if patternRank p < f then 1 else 0).sum = f := by
  decide +revert

/-- The positions raised by fraction 8 are every second one, by fraction 4 every fourth. -/
theorem patternRank_even_spread (p : Nat) (hp : p < 16) :
    (patternRank p < 8 ↔ p % 2 = 0) ∧ (patternRank p < 4 ↔ p % 4 = 0) := by
  decide +revert

/-- Position 15 alone has the last rank. -/
theorem patternRank_lt_fifteen (p : Nat) (hp : p < 16) : patternRank p < 15 ↔ p ≠ 15 := by
  decide +revert

/-! ## The step (R75) -/

/-- The sixteen positions together carry the fine reference without truncation. -/
theorem stepFor_sum (value : Nat) : ((List.range 16).map (stepFor value)).sum = value := by
  have raised := raisedPositions_sum (value % 16) (Nat.mod_lt _ (by decide))
  calc ((List.range 16).map (stepFor value)).sum
      = 16 * (value / 16) + ((List.range 16).map fun p => if patternRank p < value % 16 then 1 else 0).sum := by
        unfold stepFor
        rw [List.sum_map_add, List.map_const', List.sum_replicate, List.length_range, smul_eq_mul]
    _ = value := by rw [raised, Nat.div_add_mod]

/-- A base of 255 has fraction 0, so that no step passes 255. -/
theorem stepFor_le (value p : Nat) (hv : value ≤ 4080) : stepFor value p ≤ 255 := by
  unfold stepFor
  split <;> omega

theorem stepFor_4080 (p : Nat) : stepFor 4080 p = 255 := by simp [stepFor]

theorem stepFor_4079 (p : Nat) (hp : p < 16) : stepFor 4079 p = if p = 15 then 254 else 255 := by
  have rank := patternRank_lt_fifteen p hp
  by_cases last : p = 15
  · simp [stepFor, last, patternRank]
  · simp [stepFor, rank.mpr last, last]

/-! ## The carrier period (R74) -/

/-- What a carrier period's start leaves in a line with settings. -/
theorem startPeriod_of_cfg {l : OutLine} {c : OutCfg} (h : l.cfg = some c) (now step : Nat) :
    l.startPeriod now step =
      let len := activePart c.carrier step
      { l with
        step := step, carrierEnd := some (now + c.carrier)
        activeEnd := if len = 0 ∨ len = c.carrier then none else some (now + len)
        pin := if len = 0 then c.inverted else !c.inverted } := by
  have period : l.carrierPeriod = c.carrier := by simp [OutLine.carrierPeriod, h]
  have level : l.inactiveLevel = c.inverted := by simp [OutLine.inactiveLevel, h]
  simp [OutLine.startPeriod, period, level]

/-- A change of a line is the line as changed, written in its place. -/
theorem onOut_eq_const (d : Station) (i : Fin 16) (f : OutLine → OutLine) :
    d.onOut i f = d.onOut i fun _ => f d.dou.lines[i] := rfl

/-- A running carrier starts its next period with the step of the position that stands; nothing else of the station changes. -/
theorem exec_carrierPeriodStart_running {line : Fin 16} {s : State} {e : Nat}
    (running : s.dev.dou.lines[line].carrierEnd = some e) :
    let l := s.dev.dou.lines[line]
    exec (.carrierPeriodStart line) s = .next { s with
      dev := (s.dev.take (.carrierPeriodStart line)).onOut line fun _ =>
        l.startPeriod s.dev.now (stepFor l.active l.position) } := by
  have runs : s.dev.dou.lines[line].carrierEnd.isNone ≠ true := by rw [running]; exact Bool.false_ne_true
  change execCarrierPeriodStart line s = _
  unfold execCarrierPeriodStart
  rw [act_spec, if_neg (by exact runs), onOut_eq_const]
  simp only [Station.take_fields]

/-! ## The statement -/

/-- Settles O21: the ranks are a permutation of 0 to 15, so a fraction raises as many positions as it says; the meaning of the
command is one carrier period's start with that step. -/
theorem carrierPeriodTakesTheStepOfItsPosition : Obligations.CarrierPeriodTakesTheStepOfItsPosition := by
  refine ⟨fun line s c e cfg running _ => ?period, fun value hv => ⟨stepFor_sum value, fun p _ => stepFor_le value p hv⟩,
    fun p hp => ⟨stepFor_4080 p, stepFor_4079 p hp⟩, patternRank_even_spread⟩
  case period =>
    rw [exec_carrierPeriodStart_running running, startPeriod_of_cfg cfg]
    rfl

end Sys2Proof.Machine
end

section
/-! SUPPORT. The index events of a screw's encoder pair (R128) and the count that the Shift Report Unit makes of them (R177, R182). -/

namespace Sys2Proof.Machine

/-! ## The index event (R128) -/

/-- What an index event does, marked first or not, in a channel with settings or without. The channel's state is not read. -/
theorem exec_fdcIndex (ch : Fin 2) (first : Bool) (counts : Nat) (s : State) :
    exec (.fdcIndex ch first counts) s = .next { s with
      dev := if first || s.dev.fdc.channels[ch].cfg.isNone then s.dev.take (.fdcIndex ch first counts)
        else (s.dev.take (.fdcIndex ch first counts)).contribute (.revolution ch) } := by
  change execFdcIndex ch first counts s = _
  unfold execFdcIndex
  simp only [act_spec, Station.take_fields]

/-- The event that ends a part revolution is taken off the signals, and nothing else happens. -/
theorem exec_fdcIndex_first (ch : Fin 2) (counts : Nat) (s : State) :
    exec (.fdcIndex ch true counts) s = .next { s with dev := s.dev.take (.fdcIndex ch true counts) } := by
  rw [exec_fdcIndex, Bool.true_or, if_pos rfl]

/-- The event that ends a whole revolution of a configured channel hands that revolution over. -/
theorem exec_fdcIndex_whole {ch : Fin 2} {counts : Nat} {s : State} {k : FeedCfg}
    (configured : s.dev.fdc.channels[ch].cfg = some k) :
    exec (.fdcIndex ch false counts) s = .next { s with
      dev := (s.dev.take (.fdcIndex ch false counts)).contribute (.revolution ch) } := by
  rw [exec_fdcIndex, configured, Option.isNone_some, Bool.or_false, if_neg Bool.false_ne_true]

/-! ## The count of revolutions (R177, R182) -/

/-- A contribution changes the Shift Report Unit alone. -/
theorem exec_sruContribution (c : Contribution) (s : State) :
    exec (.sruContribution c) s = .next { s with
      dev := (s.dev.take (.sruContribution c)).onSru (Sru.take c) } := by
  change execSruContribution c s = _
  unfold execSruContribution
  rw [act_spec]

/-- A revolution raises its channel's count of revolutions, which holds at its top, and none of that channel's other counts. -/
theorem Accumulators.add_revolution_feed (a : Accumulators) (ch : Fin 2) :
    (a.add (.revolution ch)).feed[ch] = { a.feed[ch] with revolutions := min top32 (a.feed[ch].revolutions + 1) } := by
  simp [Accumulators.add, Accumulators.mark, Accumulators.onFeed, satAdd]

/-- Below the top a revolution handed over is one revolution more, with the mass left as it stands. -/
theorem sruContribution_revolution_counts {ch : Fin 2} {s : State} (below : s.dev.sru.acc.feed[ch].revolutions < top32) :
    Runs (.sruContribution (.revolution ch)) s fun d =>
      d.sru.acc.feed[ch].revolutions = s.dev.sru.acc.feed[ch].revolutions + 1 ∧
      d.sru.acc.feed[ch].mass = s.dev.sru.acc.feed[ch].mass := by
  refine ⟨_, exec_sruContribution _ s, rfl, ?_⟩
  change (s.dev.sru.acc.add (.revolution ch)).feed[ch].revolutions = _ ∧ (s.dev.sru.acc.add (.revolution ch)).feed[ch].mass = _
  rw [Accumulators.add_revolution_feed, min_eq_right below]
  exact ⟨rfl, rfl⟩

/-! ## The statement -/

/-- Settles O36: a whole revolution is handed over and a part revolution is not; what is handed over is counted. -/
theorem indexEventsCountRevolutions : Obligations.IndexEventsCountRevolutions := by
  refine fun ch counts s k configured => ⟨?whole, exec_fdcIndex_first ch counts s, sruContribution_revolution_counts⟩
  case whole =>
    rw [exec_fdcIndex_whole configured]
    rfl

end Sys2Proof.Machine
end

section
/-! SUPPORT. What the operations of the Alarm Unit keep of the laws of the device: the notice queue holds at most 16 entries and waits with one
entry for a point (R43), the active list is that of the points not in NORMAL (R158), the recent-raise list holds at most 32 (R166). -/

-- Each theorem is elaborated when the ones before it are done: those that wait for them would each hold a thread.
set_option Elab.async false

namespace Sys2Proof.Machine

/-- What holds of a station and is kept by a change for each index holds after the change for all. -/
theorem forAll_keeps {n : Nat} {P : Station → Prop} (f : Fin n → Station → Station) {d : Station} (h : P d)
    (step : ∀ i x, P x → P (f i x)) : P (forAll f d) := by
  unfold forAll
  generalize List.finRange n = l
  exact List.foldlRecOn (motive := P) l _ h fun x hx i _ => step i x hx

/-! ## The notice queue (R42, R43) -/

/-- Two waiting entries are not of one point. -/
def QueueEntry.Apart (x y : QueueEntry) : Prop :=
  ∀ a b : AlarmBody, x.body = .alarmState a → y.body = .alarmState b → a.point ≠ b.point

/-- The law of the notice queue: at most 16 entries, those that wait of different points. -/
structure QueueLaw (q : List QueueEntry) : Prop where
  length : q.length ≤ 16
  waiting : (q.drop 4).Pairwise QueueEntry.Apart

theorem apart_iff (x y : QueueEntry) : x.Apart y ↔
    match x.body, y.body with
    | .alarmState a, .alarmState b => a.point ≠ b.point
    | _, _ => True := by
  unfold QueueEntry.Apart
  cases hx : x.body <;> cases hy : y.body <;> simp

theorem coalesces_iff (b : NoticeBody) (e : QueueEntry) : e.coalesces b = true ↔
    ∃ x y, b = .alarmState x ∧ e.body = .alarmState y ∧ x.point = y.point := by
  unfold QueueEntry.coalesces
  cases hb : b <;> cases he : e.body <;> simp

/-- An entry that coalesces is kept apart by what it was kept apart by. -/
theorem Apart.coalesced {b : NoticeBody} {x y : QueueEntry} (h : x.Apart y) :
    QueueEntry.Apart (if x.coalesces b then { x with body := b } else x) (if y.coalesces b then { y with body := b } else y) := by
  intro u v hu hv
  split at hu <;> split at hv
  case isTrue.isTrue hx hy =>
    obtain ⟨p, r, rfl, hxr, e1⟩ := (coalesces_iff _ _).1 hx
    obtain ⟨_, t, ⟨⟩, hyt, e2⟩ := (coalesces_iff _ _).1 hy
    exact absurd (e1.symm.trans e2) (h _ _ hxr hyt)
  case isTrue.isFalse hx _ =>
    obtain ⟨p, r, rfl, hxr, e1⟩ := (coalesces_iff _ _).1 hx
    cases hu
    exact e1 ▸ h _ _ hxr hv
  case isFalse.isTrue _ hy =>
    obtain ⟨p, r, rfl, hyr, e1⟩ := (coalesces_iff _ _).1 hy
    cases hv
    exact e1 ▸ h _ _ hu hyr
  case isFalse.isFalse => exact h _ _ hu hv

/-- An entry that coalesces with none that waits is kept apart from them. -/
theorem apart_fresh {b : NoticeBody} {x : QueueEntry} (h : x.coalesces b = false) : x.Apart (.fresh b) := by
  intro u v hu hv e
  have : x.coalesces b = true := (coalesces_iff _ _).2 ⟨v, u, hv, hu, e.symm⟩
  exact absurd (h.symm.trans this) (by decide)

/-- An accepted submission keeps the law of the queue. -/
theorem QueueLaw.submitted {l : Lpc} {b : NoticeBody} (h : QueueLaw l.queue) (ok : l.accepts b = true) :
    QueueLaw (l.submitted b).queue := by
  by_cases c : l.mayCoalesce b = true
  case pos =>
    have full : 4 ≤ l.queue.length := by
      by_contra small
      have none : l.waiting = [] := List.drop_eq_nil_iff.2 (by omega)
      simp [Lpc.mayCoalesce, none] at c
    have flight : l.inFlight.length = 4 := by simp [Lpc.inFlight]; omega
    have eq : (l.submitted b).queue =
        l.inFlight ++ l.waiting.map fun e => if e.coalesces b then { e with body := b } else e := by
      simp [Lpc.submitted, c]
    rw [eq]
    refine ⟨?_, ?_⟩
    · have := h.length
      simp [flight, Lpc.waiting]
      omega
    · rw [List.drop_left' flight, List.pairwise_map]
      exact h.waiting.imp Apart.coalesced
  case neg =>
    have eq : (l.submitted b).queue = l.queue ++ [.fresh b] := by simp [Lpc.submitted, c]
    rw [eq]
    have room : l.queue.length < 16 := by simpa [Lpc.accepts, c] using ok
    refine ⟨by simp; omega, ?_⟩
    have none : ∀ x ∈ l.queue.drop 4, x.Apart (.fresh b) := fun x hx =>
      apart_fresh (by
        simp only [Lpc.mayCoalesce, List.any_eq_true, not_exists, not_and, Bool.not_eq_true] at c
        exact c x hx)
    rw [List.drop_append]
    refine List.pairwise_append.2 ⟨h.waiting, (List.pairwise_singleton _ _).sublist (List.drop_sublist _ _), fun x hx y hy => ?_⟩
    rw [List.mem_singleton.1 (List.mem_of_mem_drop hy)]
    exact none x hx

theorem placeEntries_length (n : Byte) (l : List QueueEntry) : (placeEntries n l).1.length = l.length := by
  induction l generalizing n with
  | nil => rfl
  | cons e es ih => unfold placeEntries; split <;> simp [ih]

/-- Placing changes in-flight entries alone. -/
theorem QueueLaw.placed {l : Lpc} (h : QueueLaw l.queue) : QueueLaw l.placed.queue := by
  have len := placeEntries_length l.nextSeq l.inFlight
  have eq : l.placed.queue = (placeEntries l.nextSeq l.inFlight).1 ++ l.queue.drop 4 := rfl
  have lengths : l.inFlight.length = min 4 l.queue.length := List.length_take
  have total := h.length
  refine ⟨?_, ?_⟩
  · rw [eq, List.length_append, len, lengths, List.length_drop]; omega
  · by_cases full : 4 ≤ l.queue.length
    · rw [eq, List.drop_left' (by rw [len, lengths]; omega)]
      exact h.waiting
    · rw [eq, List.drop_eq_nil_iff.2 (by rw [List.length_append, len, lengths, List.length_drop]; omega)]
      exact .nil

/-- A judgement takes entries in flight away, so that of those that waited some may be in flight. -/
theorem QueueLaw.judged {l : Lpc} (records : List Notice) (h : QueueLaw l.queue) : QueueLaw (l.judged records).queue := by
  set kept := l.inFlight.filterMap fun e =>
    match e.atReturn l.live records with
    | .kept e => some e
    | _ => none with hk
  have eq : (l.judged records).queue = kept ++ l.queue.drop 4 := rfl
  have few : kept.length ≤ l.inFlight.length := List.length_filterMap_le _ _
  have lengths : l.inFlight.length = min 4 l.queue.length := List.length_take
  have total := h.length
  refine ⟨?_, ?_⟩
  · rw [eq, List.length_append, List.length_drop]; omega
  · rw [eq, List.drop_append, List.drop_eq_nil_iff.2 (by omega : kept.length ≤ 4), List.nil_append]
    exact h.waiting.sublist (List.drop_sublist _ _)

/-! ## The law of the alarms -/

/-- The active list is that of the points not in NORMAL, each once (R158). -/
def Alm.activeLaw (a : Alm) : Prop := a.active.Nodup ∧ ∀ i : Fin 32, i ∈ a.active ↔ (a.points[i]'i.isLt).state ≠ .normal

/-- What the operations on points keep: the laws of the queue, the active list and the recent-raise list. -/
structure AlarmLaw (d : Station) : Prop where
  queue : QueueLaw d.lpc.queue
  active : d.alm.activeLaw
  recent : d.alm.recent.length ≤ 32

namespace AlarmLaw
variable {d e : Station}

/-- What the law is said of stands. -/
theorem keep (h : AlarmLaw d) (hq : e.lpc.queue = d.lpc.queue) (ha : e.alm.active = d.alm.active)
    (hs : ∀ i : Fin 32, (e.alm.points[i]'i.isLt).state = (d.alm.points[i]'i.isLt).state) (hr : e.alm.recent = d.alm.recent) : AlarmLaw e :=
  ⟨hq ▸ h.queue, ⟨ha ▸ h.active.1, fun i => by rw [ha, hs]; exact h.active.2 i⟩, hr ▸ h.recent⟩

theorem same (h : AlarmLaw d) (hq : e.lpc.queue = d.lpc.queue) (ha : e.alm = d.alm) : AlarmLaw e :=
  h.keep hq (by rw [ha]) (fun i => by rw [ha]) (by rw [ha])

theorem post (h : AlarmLaw d) (x : HostEvent) : AlarmLaw (d.post x) := h.same rfl rfl
theorem contribute (h : AlarmLaw d) (x : Contribution) : AlarmLaw (d.contribute x) := h.same rfl rfl
theorem writeSummary (h : AlarmLaw d) : AlarmLaw d.writeSummary := h.same rfl rfl

/-- A point changed in anything but its state. -/
theorem onPoint (h : AlarmLaw d) (i : Fin 32) (f : Point → Point) (hf : (f (d.alm.points[i]'i.isLt)).state = (d.alm.points[i]'i.isLt).state) :
    AlarmLaw (d.onPoint i f) := by
  refine h.keep rfl rfl (fun j => ?_) rfl
  simp only [Station.onPoint_fields, Fin.getElem_fin, vecModify_get]
  split
  next e => rw [← Fin.ext e]; exact hf
  next => rfl

/-- A point is out of NORMAL and stands last in the active list. -/
theorem raised (h : AlarmLaw d) (i : Fin 32) (hq : e.lpc.queue = d.lpc.queue) (hr : e.alm.recent = d.alm.recent)
    (ha : e.alm.active = d.alm.active.filter (· != i) ++ [i]) (hi : (e.alm.points[i]'i.isLt).state ≠ .normal)
    (ho : ∀ j : Fin 32, j ≠ i → (e.alm.points[j]'j.isLt).state = (d.alm.points[j]'j.isLt).state) : AlarmLaw e := by
  refine ⟨hq ▸ h.queue, ⟨?_, fun j => ?_⟩, hr ▸ h.recent⟩
  · rw [ha]
    exact List.nodup_append.2 ⟨h.active.1.filter _, List.nodup_singleton i, fun x hx y hy => by
      simp only [List.mem_filter, bne_iff_ne] at hx
      rw [List.mem_singleton.1 hy]
      exact hx.2⟩
  · rw [ha]
    by_cases e : j = i
    · subst e; simpa using hi
    · rw [ho j e, ← h.active.2 j]; simp [e]

/-- A point is back in NORMAL and out of the active list. -/
theorem cleared (h : AlarmLaw d) (i : Fin 32) (hq : e.lpc.queue = d.lpc.queue) (hr : e.alm.recent = d.alm.recent)
    (ha : e.alm.active = d.alm.active.filter (· != i)) (hi : (e.alm.points[i]'i.isLt).state = .normal)
    (ho : ∀ j : Fin 32, j ≠ i → (e.alm.points[j]'j.isLt).state = (d.alm.points[j]'j.isLt).state) : AlarmLaw e := by
  refine ⟨hq ▸ h.queue, ⟨ha ▸ h.active.1.filter _, fun j => ?_⟩, hr ▸ h.recent⟩
  rw [ha]
  by_cases e : j = i
  · subst e; exact iff_of_false (by simp) (not_not.2 hi)
  · rw [ho j e, ← h.active.2 j]; simp [e]

theorem submit (h : AlarmLaw d) (b : NoticeBody) : AlarmLaw (d.submit b).1 := by
  unfold Station.submit
  split
  next ok => exact ⟨h.queue.submitted ok, h.active, h.recent⟩
  next => exact h

theorem submitPoint (h : AlarmLaw d) (i : Fin 32) (c : PointCfg) : AlarmLaw (d.submitPoint i c) := by
  have k := h.submit (.alarmState ((d.alm.points[i]'i.isLt).body i c))
  unfold Station.submitPoint
  split <;> rename_i eq <;> rw [eq] at k <;> exact k.onPoint i _ rfl

theorem announce (h : AlarmLaw d) (i : Fin 32) : AlarmLaw (d.announce i) := by
  unfold Station.announce
  split
  · exact h
  · split
    · exact h
    · split
      · exact h.onPoint i _ rfl
      · exact h.submitPoint i _

theorem resubmitFrom (h : AlarmLaw d) (l : List (Fin 32)) : AlarmLaw (d.resubmitFrom l) := by
  induction l generalizing d with
  | nil => exact h
  | cons i l ih =>
    unfold Station.resubmitFrom
    split
    · exact ih h
    · split
      · exact ih h
      · split
        · exact ih (h.onPoint i _ rfl)
        · split
          · exact ih (h.submitPoint i _)
          · exact h

theorem resubmit (h : AlarmLaw d) : AlarmLaw d.resubmit := h.resubmitFrom _

theorem recomputeTrip (h : AlarmLaw d) : AlarmLaw d.recomputeTrip := by
  rw [recomputeTrip_spec]
  exact h.keep rfl rfl (fun _ => rfl) rfl

theorem pointChanged (h : AlarmLaw d) (i : Fin 32) : AlarmLaw (d.pointChanged i) := by
  unfold Station.pointChanged
  dsimp only
  split
  · exact ((h.announce i).post _).recomputeTrip.writeSummary
  · exact ((h.announce i).post _).writeSummary

theorem addRecent (h : AlarmLaw d) : AlarmLaw d.addRecent := by
  have k : AlarmLaw (d.onAlm fun a => { a with recent := (a.recent.drop (a.recent.length - 31)) ++ [d.now] }) :=
    ⟨h.queue, h.active, by simp; omega⟩
  unfold Station.addRecent
  dsimp only
  split
  · exact k.keep rfl rfl (fun _ => rfl) rfl
  · exact k

theorem raisePoint (h : AlarmLaw d) (i : Fin 32) : AlarmLaw (d.raisePoint i) := by
  unfold Station.raisePoint
  dsimp only
  refine ((AlarmLaw.addRecent (h.raised i ?_ ?_ ?_ ?_ ?_)).contribute _).pointChanged i
  all_goals rw [setActive_spec]
  · rfl
  · rfl
  · rfl
  · simp
  · intro j ne
    simp [vecModify_get, Fin.val_ne_of_ne ne.symm]

theorem pointNormal (h : AlarmLaw d) (i : Fin 32) : AlarmLaw (d.pointNormal i) := by
  unfold Station.pointNormal
  dsimp only
  refine (h.cleared i ?_ ?_ ?_ ?_ ?_).pointChanged i
  all_goals rw [setActive_spec]
  · rfl
  · rfl
  · rfl
  · simp
  · intro j ne
    simp [vecModify_get, Fin.val_ne_of_ne ne.symm]

theorem qualify (h : AlarmLaw d) (i : Fin 32) : AlarmLaw (d.qualify i) := by
  have k : AlarmLaw (d.onPoint i fun p => { p with qualified := true, delay := none }) := h.onPoint i _ rfl
  unfold Station.qualify
  dsimp only
  split
  · exact k.raisePoint i
  · exact k.raisePoint i
  · exact k.raisePoint i
  · exact k

/-- A raised point returns to be acknowledged, or an acknowledged one stays out of NORMAL. -/
theorem moved (h : AlarmLaw d) (i : Fin 32) (f : Point → Point) (was : (d.alm.points[i]'i.isLt).state ≠ .normal)
    (is : (f (d.alm.points[i]'i.isLt)).state ≠ .normal) : AlarmLaw (d.onPoint i f) := by
  refine ⟨h.queue, ⟨h.active.1, fun j => ?_⟩, h.recent⟩
  rw [show (d.onPoint i f).alm.active = d.alm.active from rfl, h.active.2 j]
  simp only [Station.onPoint_fields, Fin.getElem_fin, vecModify_get]
  split
  next e => rw [← Fin.ext e]; exact iff_of_true was is
  next => rfl

theorem unqualify (h : AlarmLaw d) (i : Fin 32) : AlarmLaw (d.unqualify i) := by
  have k : AlarmLaw (d.onPoint i fun p => { p with qualified := false, delay := none }) := h.onPoint i _ rfl
  unfold Station.unqualify
  dsimp only
  split
  next e =>
    split_ifs
    · exact k.onPoint i _ rfl
    · exact (k.moved i _ (by rw [e]; decide) (by simp)).pointChanged i
  · exact k.pointNormal i
  · exact k

theorem setWatched (h : AlarmLaw d) (i : Fin 32) (v : Bool) : AlarmLaw (d.setWatched i v) := by
  have k : AlarmLaw (d.onPoint i fun p => { p with watched := v }) := h.onPoint i _ rfl
  unfold Station.setWatched
  split
  · exact h
  · split
    · exact h
    · dsimp only
      split
      · split
        · exact k.qualify i
        · exact k.onPoint i _ rfl
      · split
        · exact k.unqualify i
        · exact k.onPoint i _ rfl
      · exact k.onPoint i _ rfl

theorem forAll {n : Nat} (f : Fin n → Station → Station) (hf : ∀ i x, AlarmLaw x → AlarmLaw (f i x)) (h : AlarmLaw d) :
    AlarmLaw (Machine.forAll f d) :=
  forAll_keeps f h hf

theorem handPressure (h : AlarmLaw d) (comp : Nat) (p : Option Nat) : AlarmLaw (d.handPressure comp p) :=
  forAll _ (fun i x k => by
    split
    · split
      · exact k.setWatched i _
      · exact k
    · exact k) h

theorem report (h : AlarmLaw d) (k : CondKind) (inst : Nat) (v : Bool) : AlarmLaw (d.report k inst v) := by
  have pass : AlarmLaw (Machine.forAll (fun i d => if (d.alm.points[i]'i.isLt).watches k inst then d.setWatched i v else d)
      (d.onAlm (Alm.withCondition k inst v))) :=
    forAll _ (fun i x hx => by
      split
      · exact hx.setWatched i v
      · exact hx) (h.keep rfl rfl (fun _ => rfl) rfl)
  unfold Station.report
  split
  · exact h
  · dsimp only
    split
    · exact pass.recomputeTrip
    · exact pass

theorem ackPoint (h : AlarmLaw d) (i : Fin 32) : AlarmLaw (d.ackPoint i) := by
  unfold Station.ackPoint
  split
  next e _ => exact (h.moved i _ (by rw [e]; decide) (by simp)).pointChanged i
  · exact h.pointNormal i
  · exact h.pointNormal i
  · exact h

theorem applyAck (h : AlarmLaw d) (p o : Byte) : AlarmLaw (d.applyAck p o) := by
  unfold Station.applyAck
  split
  · exact h
  · split
    · exact h.ackPoint _
    · exact h.contribute _

theorem setFirstOut (h : AlarmLaw d) (i : Fin 32) (v : Bool) : AlarmLaw (d.setFirstOut i v) := by
  have k : AlarmLaw (d.onPoint i fun p => { p with firstOut := v }) := h.onPoint i _ rfl
  unfold Station.setFirstOut
  dsimp only
  split
  · exact h
  · split
    · exact k
    · exact k.announce i

theorem handFirstOut (h : AlarmLaw d) (i : Fin 32) : AlarmLaw (d.handFirstOut i) :=
  forAll _ (fun j x k => by
    split
    · exact k
    · exact k.setFirstOut j false) (h.setFirstOut i true)

theorem almNoticeLost (h : AlarmLaw d) (b : NoticeBody) : AlarmLaw (d.almNoticeLost b) := by
  have k := h.contribute .noticeLost
  unfold Station.almNoticeLost
  dsimp only
  split
  · split
    · exact k
    · split
      · exact k
      · split
        · exact k.onPoint _ _ rfl
        · split
          · exact k.onPoint _ _ rfl
          · exact k.submitPoint _ _
  · exact k

theorem unshelvePoint (h : AlarmLaw d) (i : Fin 32) : AlarmLaw (d.unshelvePoint i) := by
  have k : AlarmLaw (d.onPoint i fun p => { p with shelf := none }).writeSummary := (h.onPoint i _ rfl).writeSummary
  unfold Station.unshelvePoint
  dsimp only
  split
  · exact h
  · split
    · exact k.announce i
    · exact k

end AlarmLaw

/-! ## Points without a section, as in CONFIG -/

/-- No point has a section or a delay that runs, and none is active. -/
structure Unset (a : Alm) : Prop where
  cfg : ∀ i : Fin 32, (a.points[i]'i.isLt).cfg = none
  delay : ∀ i : Fin 32, (a.points[i]'i.isLt).delay = none
  active : a.active = []

namespace Unset
variable {d : Station}

theorem forAll_same {n : Nat} (f : Fin n → Station → Station) (hf : ∀ i, f i d = d) : Machine.forAll f d = d :=
  forAll_keeps (P := fun x => x = d) f rfl fun i x hx => by rw [hx, hf]

theorem announce_same (h : Unset d.alm) (i : Fin 32) : d.announce i = d := by
  unfold Station.announce
  rw [h.cfg]

theorem report (h : Unset d.alm) (k : CondKind) (inst : Nat) (v : Bool) : Unset (d.report k inst v).alm := by
  have pass : Machine.forAll (fun i d => if (d.alm.points[i]'i.isLt).watches k inst then d.setWatched i v else d)
      (d.onAlm (Alm.withCondition k inst v)) = d.onAlm (Alm.withCondition k inst v) :=
    forAll_same _ fun i => by
      have blind : ((d.onAlm (Alm.withCondition k inst v)).alm.points[i]'i.isLt).watches k inst = false := by
        unfold Point.watches
        rw [show ((d.onAlm (Alm.withCondition k inst v)).alm.points[i]'i.isLt).cfg = none from h.cfg i]
      rw [if_neg (by rw [blind]; decide)]
  have kept : Unset (d.onAlm (Alm.withCondition k inst v)).alm := ⟨h.cfg, h.delay, h.active⟩
  unfold Station.report
  split
  · exact h
  · dsimp only
    erw [pass]
    split
    · rw [recomputeTrip_spec]
      exact ⟨h.cfg, h.delay, h.active⟩
    · exact kept

theorem handPressure (h : Unset d.alm) (comp : Nat) (p : Option Nat) : Unset (d.handPressure comp p).alm := by
  have pass : d.handPressure comp p = d := forAll_same _ fun i => by rw [h.cfg]
  rwa [pass]

theorem onPoint (h : Unset d.alm) (i : Fin 32) (f : Point → Point) (hc : ∀ p, (f p).cfg = p.cfg)
    (hd : ∀ p, p.delay = none → (f p).delay = none) : Unset (d.onPoint i f).alm := by
  refine ⟨fun j => ?_, fun j => ?_, h.active⟩
  all_goals
    simp only [Station.onPoint_fields, Fin.getElem_fin, vecModify_get]
    split
  · rw [hc]; exact h.cfg j
  · exact h.cfg j
  · exact hd _ (h.delay j)
  · exact h.delay j

theorem setFirstOut (h : Unset d.alm) (i : Fin 32) (v : Bool) : Unset (d.setFirstOut i v).alm := by
  have k : Unset (d.onPoint i fun p => { p with firstOut := v }).alm := h.onPoint i _ (fun _ => rfl) fun _ e => e
  unfold Station.setFirstOut
  dsimp only
  split
  · exact h
  · split
    · exact k
    · rw [announce_same k]; exact k

theorem handFirstOut (h : Unset d.alm) (i : Fin 32) : Unset (d.handFirstOut i).alm :=
  forAll_keeps (P := fun x => Unset x.alm) _ (h.setFirstOut i true) fun j x hx => by
    split
    · exact hx
    · exact hx.setFirstOut j false

theorem resubmit_same (h : Unset d.alm) : d.resubmit = d := by
  suffices ∀ l, d.resubmitFrom l = d from this _
  intro l
  induction l with
  | nil => rfl
  | cons i l ih => unfold Station.resubmitFrom; rw [h.cfg]; exact ih

theorem unshelvePoint (h : Unset d.alm) (i : Fin 32) : Unset (d.unshelvePoint i).alm := by
  have k : Unset (d.onPoint i fun p => { p with shelf := none }).writeSummary.alm :=
    h.onPoint i (fun p => { p with shelf := none }) (fun _ => rfl) fun _ e => e
  unfold Station.unshelvePoint
  dsimp only
  split
  · exact h
  · split
    · rw [announce_same k]; exact k
    · exact k

end Unset

end Sys2Proof.Machine
end

section
/-! SUPPORT. What the Shift Report Unit keeps of the laws of the device: the ring holds at most 8 reports in the order of their shift numbers,
all but the newest COMPLETE and all below the open number (R174, R178, R181), and a run total is never below the open mass (R183). -/

set_option Elab.async false

namespace Sys2Proof.Machine

/-! ## The ring of reports (R181) -/

/-- A ring of reports under an open shift number. -/
structure RingLaw (l : List Report) (n : Nat) : Prop where
  length : l.length ≤ 8
  complete : ∀ r ∈ l.dropLast, r.complete = true
  order : l.Pairwise fun x y => x.shift.toNat < y.shift.toNat
  below : ∀ r ∈ l, r.shift.toNat < n

namespace RingLaw
variable {l : List Report} {n m : Nat}

/-- The newest report is replaced by one of the same shift. -/
theorem newest (h : RingLaw l n) {x y : Report} (e : l.getLast? = some x) (s : y.shift = x.shift) :
    RingLaw (l.dropLast ++ [y]) n := by
  obtain ⟨front, rfl⟩ := List.getLast?_eq_some_iff.1 e
  rw [List.dropLast_concat]
  obtain ⟨front_order, -, apart⟩ := List.pairwise_append.1 h.order
  refine ⟨by simpa using h.length, ?_, ?_, ?_⟩
  · rw [List.dropLast_concat]
    simpa using h.complete
  · refine List.pairwise_append.2 ⟨front_order, List.pairwise_singleton _ _, fun a ha b hb => ?_⟩
    rw [List.mem_singleton.1 hb, s]
    exact apart a ha x (List.mem_singleton_self x)
  · intro r hr
    rcases List.mem_append.1 hr with hr | hr
    · exact h.below r (List.mem_append_left _ hr)
    · rw [List.mem_singleton.1 hr, s]
      exact h.below x (List.mem_append_right _ (List.mem_singleton_self x))

/-- A report of the open shift is placed after COMPLETE ones, and a greater number opens. -/
theorem place (h : RingLaw l n) (all : ∀ r ∈ l, r.complete = true) {x : Report} (s : x.shift.toNat = n) (up : n < m) :
    RingLaw (placeReport l x) m := by
  have sub : (l.drop (l.length - 7)).Sublist l := List.drop_sublist _ _
  refine ⟨?_, ?_, ?_, ?_⟩
  · simp only [placeReport, List.length_append, List.length_drop, List.length_singleton]; omega
  · rw [placeReport, List.dropLast_concat]
    exact fun r hr => all r (sub.subset hr)
  · refine List.pairwise_append.2 ⟨h.order.sublist sub, List.pairwise_singleton _ _, fun a ha b hb => ?_⟩
    rw [List.mem_singleton.1 hb, s]
    exact h.below a (sub.subset ha)
  · intro r hr
    rcases List.mem_append.1 hr with hr | hr
    · exact (h.below r (sub.subset hr)).trans up
    · rw [List.mem_singleton.1 hr, s]
      exact up

/-- Under number 0 the ring is empty, so that any number may open. -/
theorem opens (h : RingLaw l 0) : RingLaw l m := by
  have empty : l = [] := List.eq_nil_iff_forall_not_mem.2 fun r hr => Nat.not_lt_zero _ (h.below r hr)
  subst empty
  exact ⟨by simp, by simp, .nil, by simp⟩

end RingLaw

/-- The open mass of a channel is within its run total, and that within its 32 bits (R183). -/
def Sru.totalsLaw (r : Sru) : Prop :=
  ∀ ch : Fin 2, r.acc.feed[ch].mass ≤ r.runTotals[ch] ∧ r.runTotals[ch] ≤ top32

/-- The laws of the Shift Report Unit. -/
structure ShiftLaw (r : Sru) : Prop where
  ring : RingLaw r.ring r.shift.toNat
  totals : r.totalsLaw

/-- From a first record to a second the laws are kept and the open number does not fall. -/
structure ShiftKept (a b : Sru) : Prop where
  law : ShiftLaw a → ShiftLaw b
  number : a.shift.toNat ≤ b.shift.toNat

namespace ShiftKept

theorem refl (a : Sru) : ShiftKept a a := ⟨id, le_refl _⟩

theorem trans {a b c : Sru} (h : ShiftKept a b) (k : ShiftKept b c) : ShiftKept a c :=
  ⟨fun x => k.law (h.law x), h.number.trans k.number⟩

/-- Ring, number and totals stand. -/
theorem same {a b : Sru} (hr : b.ring = a.ring) (hs : b.shift = a.shift) (hm : ∀ ch : Fin 2, b.acc.feed[ch].mass = a.acc.feed[ch].mass)
    (ht : b.runTotals = a.runTotals) : ShiftKept a b :=
  ⟨fun h => ⟨by rw [hr, hs]; exact h.ring, fun ch => by rw [hm, ht]; exact h.totals ch⟩, by rw [hs]⟩

end ShiftKept

/-- Only a mass that is counted changes a channel's mass. -/
theorem mass_mark (a : Accumulators) (x : Bool) (ch : Fin 2) : (a.mark x).feed[ch].mass = a.feed[ch].mass := rfl

theorem mass_onFeed (a : Accumulators) (i ch : Fin 2) (f : FeedCounts → FeedCounts) (hf : ∀ c, (f c).mass = c.mass) :
    (a.onFeed i f).feed[ch].mass = a.feed[ch].mass := by
  simp only [Accumulators.onFeed, Fin.getElem_fin, vecModify_get]
  split
  · rw [hf]
  · rfl

/-- A contribution that is no fuel mass leaves every channel's mass. -/
theorem mass_add (a : Accumulators) (c : Contribution) (h : ∀ ch m x, c ≠ .fuel ch m x) (ch : Fin 2) :
    (a.add c).feed[ch].mass = a.feed[ch].mass := by
  cases c
  case fuel i m x => exact absurd rfl (h i m x)
  case revolution | runningSecond | feedFault => exact (mass_mark _ _ ch).trans (mass_onFeed _ _ _ _ fun _ => rfl)
  all_goals rfl

/-- A contribution is added to mass and run total alike (R183). -/
theorem Sru.take_kept (c : Contribution) (r : Sru) : ShiftKept r (r.take c) := by
  by_cases fuel : ∃ i m x, c = .fuel i m x
  case pos =>
    obtain ⟨i, m, x, rfl⟩ := fuel
    refine ⟨fun h => ⟨h.ring, fun ch => ?_⟩, le_refl _⟩
    obtain ⟨low, high⟩ := h.totals ch
    simp only [Fin.getElem_fin] at low high
    simp only [Sru.take, Accumulators.add, Accumulators.mark, Accumulators.onFeed, Fin.getElem_fin, vecModify_get, satAdd]
    split
    · constructor
      · dsimp only; omega
      · exact Nat.min_le_left _ _
    · exact ⟨low, high⟩
  case neg =>
    refine .same rfl rfl (mass_add _ _ fun i m x e => fuel ⟨i, m, x, e⟩) ?_
    unfold Sru.take
    cases c
    case fuel i m x => exact absurd ⟨i, m, x, rfl⟩ fuel
    all_goals rfl

/-! ## Reports completed and closed (R178, R180) -/

theorem collecting_last {r : Sru} {x : Report} (h : r.collecting = some x) : r.ring.getLast? = some x := by
  unfold Sru.collecting at h
  split at h
  next e =>
    split at h
    · cases h
    · cases h; exact e
  · cases h

theorem collecting_none {r : Sru} (h : r.collecting = none) (l : RingLaw r.ring r.shift.toNat) : ∀ x ∈ r.ring, x.complete = true := by
  unfold Sru.collecting at h
  split at h
  next rep e =>
    obtain ⟨front, eq⟩ := List.getLast?_eq_some_iff.1 e
    split at h
    next done =>
      intro x hx
      rw [eq] at hx
      rcases List.mem_append.1 hx with hx | hx
      · exact l.complete x (by rw [eq, List.dropLast_concat]; exact hx)
      · rw [List.mem_singleton.1 hx]; exact done
    next => cases h
  next e => rw [List.getLast?_eq_none_iff.1 e]; simp

/-- A report changed in its floor section or made COMPLETE takes the place of the newest. -/
theorem setNewest_kept {r : Sru} {x y : Report} (h : r.collecting = some x) (s : y.shift = x.shift) :
    ShiftKept r { r with ring := r.ring.dropLast ++ [y] } :=
  ⟨fun l => ⟨l.ring.newest (collecting_last h) s, l.totals⟩, le_refl _⟩

theorem completeReport_kept (d : Station) : ShiftKept d.sru d.completeReport.sru := by
  obtain ⟨-, e⟩ | ⟨x, hx, e⟩ := completeReport_spec d
  · rw [e]; exact .refl _
  · rw [e]; exact setNewest_kept hx rfl

/-- Completing the COLLECTING report leaves a ring of COMPLETE ones. -/
theorem completeReport_complete (d : Station) (l : ShiftLaw d.sru) : ∀ x ∈ d.completeReport.sru.ring, x.complete = true := by
  obtain ⟨hx, e⟩ | ⟨x, hx, e⟩ := completeReport_spec d
  · rw [e]; exact collecting_none hx l.ring
  · rw [e]
    intro y hy
    rcases List.mem_append.1 hy with hy | hy
    · exact l.ring.complete y hy
    · rw [List.mem_singleton.1 hy]; rfl

theorem completeReport_shift (d : Station) : d.completeReport.sru.shift = d.sru.shift := by
  obtain ⟨-, e⟩ | ⟨x, -, e⟩ := completeReport_spec d <;> rw [e]

theorem completeReport_totals (d : Station) : d.completeReport.sru.runTotals = d.sru.runTotals := by
  obtain ⟨-, e⟩ | ⟨x, -, e⟩ := completeReport_spec d <;> rw [e]

/-- The record after a close: a report of the shift placed, fresh accumulators, the number opened. -/
theorem closeShift_sru (cause : CloseCause) (n : Half) (d : Station) : ∃ rep : Report, rep.shift = d.sru.shift ∧
    (d.closeShift cause n).sru = { d.completeReport.sru with
      ring := placeReport d.completeReport.sru.ring rep
      acc := .opened d.completeReport.sru.time d.completeReport.sru.lastLength
      unresolved := false, arrivals := 0, shift := n } := by
  refine ⟨let raw := d.completeReport.newReport cause
    if raw.floor.isEmpty || d.completeReport.lpc.state != .up then raw.completed else raw, ?_, ?_⟩
  · dsimp only
    split <;> exact completeReport_shift d
  · unfold Station.closeShift Station.openShift
    dsimp only
    split <;> rfl

/-- A close opens a greater number (R178). -/
theorem closeShift_kept (cause : CloseCause) {n : Half} {d : Station} (up : d.sru.shift.toNat < n.toNat) :
    ShiftKept d.sru (d.closeShift cause n).sru := by
  obtain ⟨rep, hs, e⟩ := closeShift_sru cause n d
  rw [e]
  refine ⟨fun l => ⟨?_, fun ch => ?_⟩, up.le⟩
  · have before := (completeReport_kept d).law l
    rw [← completeReport_shift d] at hs up
    exact before.ring.place (completeReport_complete d l) (congrArg BitVec.toNat hs) up
  · have high := (l.totals ch).2
    simp only [completeReport_totals]
    exact ⟨by simp [Accumulators.opened], high⟩

/-- A provisional station has made no report (R174). -/
theorem adoptShift_kept (n : Half) {d : Station} (provisional : d.sru.shift = 0) : ShiftKept d.sru (d.adoptShift n).sru := by
  refine ⟨fun l => ⟨?_, l.totals⟩, by rw [provisional]; exact Nat.zero_le _⟩
  have ring := l.ring
  rw [provisional] at ring
  exact ring.opens

theorem takeHead_kept (t : Word) (h : Half) (d : Station) : ShiftKept d.sru (d.takeHead t h).sru := by
  have clock : ShiftKept d.sru (d.onSru fun r => { r with time := t }).sru := .same rfl rfl (fun _ => rfl) rfl
  unfold Station.takeHead
  dsimp only
  split
  · exact clock
  · split
    next p => exact clock.trans (adoptShift_kept h p)
    next =>
      split
      next up => exact clock.trans ((closeShift_kept _ up).trans (.same rfl rfl (fun _ => rfl) rfl))
      next => exact clock.trans (.same rfl rfl (fun _ => rfl) rfl)

/-- The greatest number of the live images is one of a two-byte field. -/
theorem greatestLive_lt (d : Station) : d.greatestLive < 65536 :=
  List.foldlRecOn (motive := fun m : Nat => m < 65536) _ _ (by decide) fun m hm i _ => by
    refine max_lt hm ?_
    split
    · exact BitVec.isLt _
    · decide

theorem converge_kept (d : Station) : ShiftKept d.sru d.converge.sru := by
  unfold Station.converge
  dsimp only
  split
  next p => exact adoptShift_kept _ p
  next =>
    split
    next up => exact closeShift_kept _ (by rwa [BitVec.toNat_ofNat, Nat.mod_eq_of_lt (greatestLive_lt d)])
    next => exact .same rfl rfl (fun _ => rfl) rfl

theorem crossing_kept (d : Station) : ShiftKept d.sru d.crossing.sru := by
  unfold Station.crossing
  split
  · exact .refl _
  next open_ =>
    have up : d.sru.shift.toNat < (d.sru.shift + 1).toNat := by
      have := d.sru.shift.isLt
      have one : (1 : Half).toNat = 1 := rfl
      simp only [Bool.or_eq_true, decide_eq_true_eq, not_or] at open_
      rw [BitVec.toNat_add, one]
      omega
    split
    · split
      · exact closeShift_kept _ up
      · exact .refl _
    · exact closeShift_kept _ up

theorem applyTimeSet_kept (t : Word) (d : Station) : ShiftKept d.sru (d.applyTimeSet t).sru := by
  have clock : ShiftKept d.sru (d.onSru fun r => { r with time := t }).sru := .same rfl rfl (fun _ => rfl) rfl
  unfold Station.applyTimeSet
  dsimp only
  split
  · exact clock.trans (crossing_kept _)
  · exact clock

theorem examineReport_kept (d : Station) : ShiftKept d.sru d.examineReport.sru := by
  unfold Station.examineReport
  split
  · exact .refl _
  next rep hx =>
    have examined : ShiftKept d.sru (d.onSru fun r => { r.setNewest { rep with
        floor := rep.floor.map (PeerTotals.examine rep.shift d.lpc.floor) } with arrivals := r.arrivals + 1 }).sru :=
      (setNewest_kept (y := { rep with floor := rep.floor.map (PeerTotals.examine rep.shift d.lpc.floor) }) hx rfl).trans
        (.same rfl rfl (fun _ => rfl) rfl)
    dsimp only
    split
    · exact examined.trans (completeReport_kept _)
    · exact examined

theorem interrupt_kept (r : Sru) : ShiftKept r r.interrupt := by
  unfold Sru.interrupt
  split
  next rep hx => exact (setNewest_kept (y := rep.completed) hx rfl).trans (.same rfl rfl (fun _ => rfl) rfl)
  next => exact .same rfl rfl (fun _ => rfl) rfl

end Sys2Proof.Machine
end

section
/-! SUPPORT. What the operations of the blocks keep of the laws of the device: only reports, first-out flags, pressures and notices reach what
the laws are said of. -/

set_option Elab.async false

namespace Sys2Proof.Machine

/-! ## The laws as a station stands -/

/-- The law of the floor mirror: at most 64 entries, none of the own station, one for an owner and point (R167). -/
structure MirrorLaw (own : Fin 16) (m : List MirrorEntry) : Prop where
  length : m.length ≤ 64
  owner : ∀ e ∈ m, e.owner ≠ own
  apart : m.Pairwise fun x y => x.owner = y.owner → x.body.point ≠ y.body.point

/-- The laws of the device by the parts that keep them. -/
theorem lawsHold_iff (d : Station) : LawsHold d ↔
    AlarmLaw d ∧ (d.ppt.started = false → d.lpc.state = .bypassed ∧ d.alm.mirror = [] ∧ Unset d.alm) ∧
      MirrorLaw d.own d.alm.mirror ∧ ShiftLaw d.sru := by
  constructor
  · rintro ⟨queue, waiting, config, active, recent, ⟨m1, m2, m3⟩, ⟨r1, r2, r3⟩, below, totals⟩
    refine ⟨⟨⟨queue, waiting.imp fun h => (apart_iff _ _).2 h⟩, active, recent⟩, fun off => ?_, ⟨m1, m2, m3⟩, ⟨r1, r2, r3, below⟩, totals⟩
    obtain ⟨state, empty, mirror, points⟩ := config off
    exact ⟨state, mirror, fun i => (points i).1, fun i => (points i).2, empty⟩
  · rintro ⟨⟨⟨queue, waiting⟩, active, recent⟩, config, ⟨m1, m2, m3⟩, ⟨r1, r2, r3, below⟩, totals⟩
    refine ⟨queue, waiting.imp fun h => (apart_iff _ _).1 h, fun off => ?_, active, recent, ⟨m1, m2, m3⟩, ⟨r1, r2, r3⟩, below, totals⟩
    obtain ⟨state, mirror, unset⟩ := config off
    exact ⟨state, unset.active, mirror, fun i => ⟨unset.cfg i, unset.delay i⟩⟩

/-- The laws hold of a second station, and from the first the open shift number has not fallen and START has not been made. -/
structure LawsKept (a b : Station) : Prop where
  laws : LawsHold b
  number : a.sru.shift.toNat ≤ b.sru.shift.toNat
  started : b.ppt.started = a.ppt.started

/-- A line is on or bursts only where it was before. -/
structure OutLine.Calmer (l m : OutLine) : Prop where
  cfg : m.cfg = l.cfg
  on : m.on = true → l.on = true
  burst : m.burst ≠ .idle → l.burst ≠ .idle

namespace OutLine.Calmer

theorem refl (l : OutLine) : l.Calmer l := ⟨rfl, id, id⟩

theorem trans {l m n : OutLine} (h : l.Calmer m) (k : m.Calmer n) : l.Calmer n :=
  ⟨k.cfg.trans h.cfg, fun x => h.on (k.on x), fun x => h.burst (k.burst x)⟩

theorem goIdle (l : OutLine) : l.Calmer l.goIdle := ⟨rfl, id, fun no => absurd rfl no⟩

theorem off (l : OutLine) : l.Calmer { l with on := false, pin := false } := ⟨rfl, nofun, id⟩

end OutLine.Calmer

/-- From a first station to a second, one owner alone has raised lines, and only the owner of the burner or the grate has moved its
states: what the laws of the fuel lines and of the grant need of every other block. -/
structure LeavesPlant (who : Owner) (a b : Station) : Prop where
  cfg : ∀ i : Fin 16, (b.dou.lines[i]'i.isLt).cfg = (a.dou.lines[i]'i.isLt).cfg
  lines : ∀ i : Fin 16, (a.dou.lines[i]'i.isLt).owner ≠ who → (a.dou.lines[i]'i.isLt).Calmer (b.dou.lines[i]'i.isLt)
  burner : who ≠ .burnerSequencer → b.bsq = a.bsq
  grate : who ≠ .grateCooler → b.gcc = a.gcc
  comps : ∀ i : Fin 4, (b.gcc.comps[i]'i.isLt).cfg = (a.gcc.comps[i]'i.isLt).cfg
  started : b.ppt.started = a.ppt.started

namespace LeavesPlant
variable {who : Owner} {a b c : Station}

theorem same (dou : b.dou = a.dou) (bsq : b.bsq = a.bsq) (gcc : b.gcc = a.gcc) (started : b.ppt.started = a.ppt.started) :
    LeavesPlant who a b :=
  ⟨fun i => by rw [dou], fun i _ => by rw [dou]; exact .refl _, fun _ => bsq, fun _ => gcc, fun i => by rw [gcc], started⟩

theorem trans (h : LeavesPlant who a b) (k : LeavesPlant who b c) : LeavesPlant who a c where
  cfg i := (k.cfg i).trans (h.cfg i)
  lines i other := (h.lines i other).trans (k.lines i (by rw [owner_of_cfg (h.cfg i)]; exact other))
  burner other := (k.burner other).trans (h.burner other)
  grate other := (k.grate other).trans (h.grate other)
  comps i := (k.comps i).trans (h.comps i)
  started := k.started.trans h.started

theorem command (k : LineCommand who a b) : LeavesPlant who a b where
  cfg i := (k.lines i).1
  lines i other := by rw [(k.lines i).2 other]; exact .refl _
  burner _ := by rw [k.rest]
  grate _ := by rw [k.rest]
  comps i := by rw [k.rest]
  started := by rw [k.rest]

end LeavesPlant

/-- From a first station to a second the laws are kept, and, where an owner is named, only it has worked the plant. -/
structure KeepsLaws (who : Option Owner) (a b : Station) : Prop where
  kept : LawsHold a → LawsKept a b
  plant : ∀ o, who = some o → LeavesPlant o a b

/-- All of a station that the laws are said of. -/
structure LawView where
  queue : List QueueEntry
  loop : LoopState
  started : Bool
  own : Fin 16
  alm : Alm
  sru : Sru

def Station.lawView (d : Station) : LawView :=
  { queue := d.lpc.queue, loop := d.lpc.state, started := d.ppt.started, own := d.own, alm := d.alm, sru := d.sru }

namespace KeepsLaws
variable {who : Option Owner} {a b c : Station}

theorem refl (d : Station) : KeepsLaws who d d := ⟨fun x => ⟨x, le_refl _, rfl⟩, fun _ _ => .same rfl rfl rfl rfl⟩

theorem trans (h : KeepsLaws who a b) (k : KeepsLaws who b c) : KeepsLaws who a c := by
  refine ⟨fun x => ?_, fun o e => (h.plant o e).trans (k.plant o e)⟩
  have y := h.kept x
  have z := k.kept y.laws
  exact ⟨z.laws, y.number.trans z.number, z.started.trans y.started⟩

/-- Nothing that the laws of the device are said of has changed, and the plant has been worked as its owner may. -/
theorem worked (h : KeepsLaws who a b) (e : c.lawView = b.lawView) (plant : ∀ o, who = some o → LeavesPlant o b c) :
    KeepsLaws who a c := by
  simp only [Station.lawView, LawView.mk.injEq] at e
  obtain ⟨queue, loop, started, own, alm, sru⟩ := e
  refine h.trans ⟨fun x => ⟨?_, by rw [sru], started⟩, plant⟩
  obtain ⟨alarm, config, mirror, shift⟩ := (lawsHold_iff _).1 x
  exact (lawsHold_iff _).2 ⟨alarm.same queue alm, by rw [started, loop, alm]; exact config, by rw [own, alm]; exact mirror, by rwa [sru]⟩

/-- Nothing that a law is said of has changed. -/
theorem same (h : KeepsLaws who a b) (e : c.lawView = b.lawView) (dou : c.dou = b.dou := by rfl) (bsq : c.bsq = b.bsq := by rfl)
    (gcc : c.gcc = b.gcc := by rfl) : KeepsLaws who a c := h.worked e fun _ _ => .same dou bsq gcc (congrArg LawView.started e)

/-- The Alarm Unit has changed its record or the notice queue by its own law. -/
theorem alarms (h : KeepsLaws who a b) (only : AlarmsOnly b c) (mirror : c.alm.mirror = b.alm.mirror) (law : AlarmLaw b → AlarmLaw c)
    (config : Unset b.alm → Unset c.alm) : KeepsLaws who a c := by
  have started : c.ppt.started = b.ppt.started := by rw [only.ppt]
  have own : c.own = b.own := by unfold Station.own Station.cfg; rw [only.ppt]
  refine h.trans ⟨fun x => ⟨?_, by rw [only.sru], started⟩, fun _ _ => .same only.dou only.bsq only.gcc started⟩
  obtain ⟨alarm, unset, floor, shift⟩ := (lawsHold_iff _).1 x
  refine (lawsHold_iff _).2 ⟨law alarm, fun off => ?_, by rwa [mirror, own], by rwa [only.sru]⟩
  obtain ⟨state, empty, points⟩ := unset (started ▸ off)
  exact ⟨by rw [only.lpc]; exact state, by rw [mirror, empty], config points⟩

theorem moves (h : KeepsLaws who a b) (m : MovesPoints b c) (law : AlarmLaw b → AlarmLaw c) (config : Unset b.alm → Unset c.alm) :
    KeepsLaws who a c := h.alarms m.only m.move.mirror law config

/-- After START the loop state may change, and the Alarm Unit its record and its queue by its law and that of the mirror. -/
theorem running (h : KeepsLaws who a b) (on : LawsHold a → a.ppt.started = true) (started : c.ppt.started = b.ppt.started)
    (own : c.own = b.own) (sru : c.sru = b.sru) (law : AlarmLaw b → AlarmLaw c)
    (mirror : MirrorLaw b.own b.alm.mirror → MirrorLaw b.own c.alm.mirror) (dou : c.dou = b.dou := by rfl)
    (bsq : c.bsq = b.bsq := by rfl) (gcc : c.gcc = b.gcc := by rfl) : KeepsLaws who a c := by
  refine ⟨fun x => ?_, fun o e => (h.plant o e).trans (.same dou bsq gcc started)⟩
  have y := h.kept x
  obtain ⟨alarm, -, floor, shift⟩ := (lawsHold_iff _).1 y.laws
  have stands : c.ppt.started = a.ppt.started := started.trans y.started
  refine ⟨(lawsHold_iff _).2 ⟨law alarm, fun off => ?_, by rw [own]; exact mirror floor, by rwa [sru]⟩, sru ▸ y.number, stands⟩
  exact absurd ((on x).symm.trans (stands.symm.trans off)) (by decide)

/-- After START the points may move. -/
theorem told (h : KeepsLaws who a b) (on : LawsHold a → a.ppt.started = true) (m : MovesPoints b c) (law : AlarmLaw b → AlarmLaw c) :
    KeepsLaws who a c :=
  h.running on (by rw [m.only.ppt]) (by unfold Station.own Station.cfg; rw [m.only.ppt]) m.only.sru law (by rw [m.move.mirror]; exact id)
    m.only.dou m.only.bsq m.only.gcc

/-- The Shift Report Unit has changed its record by its own law. -/
theorem shift (h : KeepsLaws who a b) (only : ShiftOnly b c) (k : ShiftKept b.sru c.sru) : KeepsLaws who a c := by
  refine h.trans ⟨fun x => ⟨?_, k.number, by rw [only.rest]⟩, fun _ _ => by rw [only.rest]; exact .same rfl rfl rfl rfl⟩
  obtain ⟨alarm, unset, floor, shift⟩ := (lawsHold_iff _).1 x
  rw [only.rest]
  exact (lawsHold_iff _).2 ⟨alarm.same rfl rfl, unset, floor, k.law shift⟩

/-- The notice queue has changed by its own law. -/
theorem queued (h : KeepsLaws who a b) (law : QueueLaw b.lpc.queue → QueueLaw c.lpc.queue)
    (rest : c.lawView = { b.lawView with queue := c.lpc.queue }) (dou : c.dou = b.dou := by rfl)
    (bsq : c.bsq = b.bsq := by rfl) (gcc : c.gcc = b.gcc := by rfl) : KeepsLaws who a c := by
  simp only [Station.lawView, LawView.mk.injEq, true_and] at rest
  obtain ⟨loop, started, own, alm, sru⟩ := rest
  refine h.trans ⟨fun x => ⟨?_, by rw [sru], started⟩, fun _ _ => .same dou bsq gcc started⟩
  obtain ⟨alarm, config, mirror, shift⟩ := (lawsHold_iff _).1 x
  refine (lawsHold_iff _).2 ⟨⟨law alarm.queue, by rw [alm]; exact alarm.active, by rw [alm]; exact alarm.recent⟩, ?_, ?_, by rwa [sru]⟩
  · rw [started, loop, alm]; exact config
  · rw [own, alm]; exact mirror

/-- An owner has given a command to a line of its own. -/
theorem command {o : Owner} (h : KeepsLaws (some o) a b) (k : LineCommand o b c) : KeepsLaws (some o) a c :=
  h.worked (by rw [k.rest]; rfl) fun _ e => by cases e; exact .command k

theorem report_mirror (k : CondKind) (n : Nat) (v : Bool) (d : Station) : (d.report k n v).alm.mirror = d.alm.mirror := by
  obtain ⟨-, e⟩ | ⟨-, m⟩ := report_spec k n v d
  · rw [e]
  · exact m.move.mirror

theorem report (h : KeepsLaws who a b) (k : CondKind) (n : Nat) (v : Bool) : KeepsLaws who a (b.report k n v) :=
  h.alarms (report_only k n v b) (report_mirror k n v b) (fun x => x.report k n v) fun x => x.report k n v

theorem handPressure (h : KeepsLaws who a b) (n : Nat) (p : Option Nat) : KeepsLaws who a (b.handPressure n p) :=
  h.moves ((MovesPoints.refl b).handPressure n p) (fun x => x.handPressure n p) fun x => x.handPressure n p

theorem handFirstOut (h : KeepsLaws who a b) (i : Fin 32) : KeepsLaws who a (b.handFirstOut i) :=
  h.moves ((MovesPoints.refl b).handFirstOut i) (fun x => x.handFirstOut i) fun x => x.handFirstOut i

theorem forAll {n : Nat} (f : Fin n → Station → Station) (hf : ∀ i x, KeepsLaws who a x → KeepsLaws who a (f i x)) (h : KeepsLaws who a b) :
    KeepsLaws who a (Machine.forAll f b) :=
  forAll_keeps f h hf

/-! ## What no law is said of: internal and host events, answers -/

theorem contribute (h : KeepsLaws who a b) (x : Contribution) : KeepsLaws who a (b.contribute x) := h.same rfl
theorem raise (h : KeepsLaws who a b) (x : Instr) : KeepsLaws who a (b.raise x) := h.same rfl
theorem post (h : KeepsLaws who a b) (x : HostEvent) : KeepsLaws who a (b.post x) := h.same rfl
theorem answer (h : KeepsLaws who a b) (code : RespCode) (reason : Byte) (body : List Byte) : KeepsLaws who a (b.answer code reason body) :=
  h.same rfl

/-! ## The Burner Sequencer -/

theorem onBsq (h : KeepsLaws (some .burnerSequencer) a b) (f : Bsq → Bsq) : KeepsLaws (some .burnerSequencer) a (b.onBsq f) :=
  h.worked rfl fun _ e => by cases e; exact ⟨fun _ => rfl, fun _ _ => .refl _, fun no => absurd rfl no, fun _ => rfl, fun _ => rfl, rfl⟩

theorem reportCooler (h : KeepsLaws who a b) : KeepsLaws who a b.reportCooler := h.report ..

theorem stageBurner (h : KeepsLaws who a b) : KeepsLaws who a b.stageBurner := by
  unfold Station.stageBurner
  split
  · exact h
  · exact h.same rfl

theorem recordState (h : KeepsLaws (some .burnerSequencer) a b) (st : BsqState) (n : Nat) : KeepsLaws (some .burnerSequencer) a (b.recordState st n) :=
  ((h.onBsq _).stageBurner).post _

theorem valveOn (h : KeepsLaws (some .burnerSequencer) a b) (fn : OutFn) : KeepsLaws (some .burnerSequencer) a (b.valveOn fn).1 := by
  unfold Station.valveOn
  split
  · exact h.command (lineOn_command ..)
  · exact h

theorem valveOff (h : KeepsLaws (some .burnerSequencer) a b) (fn : OutFn) : KeepsLaws (some .burnerSequencer) a (b.valveOff fn) := by
  unfold Station.valveOff
  split
  · exact h.command (lineOff_command ..)
  · exact h

theorem igniterStart (h : KeepsLaws (some .burnerSequencer) a b) : KeepsLaws (some .burnerSequencer) a b.igniterStart.1 := by
  unfold Station.igniterStart
  split
  · exact h.command (burstStart_command ..)
  · exact h

theorem igniterEnd (h : KeepsLaws (some .burnerSequencer) a b) : KeepsLaws (some .burnerSequencer) a b.igniterEnd := by
  unfold Station.igniterEnd
  split
  · exact h.command (burstEnd_command ..)
  · exact h

theorem igniterCut (h : KeepsLaws (some .burnerSequencer) a b) : KeepsLaws (some .burnerSequencer) a b.igniterCut := by
  unfold Station.igniterCut
  split
  · exact h.command (burstCut_command ..)
  · exact h

theorem fuelOff (h : KeepsLaws (some .burnerSequencer) a b) : KeepsLaws (some .burnerSequencer) a b.fuelOff := ((h.valveOff _).valveOff _).igniterCut

theorem startHold (h : KeepsLaws (some .burnerSequencer) a b) (k : HoldKind) : KeepsLaws (some .burnerSequencer) a (b.startHold k) := (h.onBsq _).report ..

theorem handRef (h : KeepsLaws (some .burnerSequencer) a b) (x : FirstOut) : KeepsLaws (some .burnerSequencer) a (b.handRef x) := by
  unfold Station.handRef
  split
  · exact h.handFirstOut _
  · exact h

theorem trip (h : KeepsLaws (some .burnerSequencer) a b) (cause : CauseKind) : KeepsLaws (some .burnerSequencer) a (b.trip cause) := by
  have handed (f : Bsq → Bsq) (e : Contribution) (x : FirstOut) :=
    ((((h.fuelOff.onBsq fun b => b.stopTimers.disarm).recordState .lockout 0).onBsq f).contribute e).handRef x
  unfold Station.trip
  dsimp only
  split
  · exact (((handed _ _ _).startHold _).report ..).reportCooler
  · exact ((handed _ _ _).report ..).reportCooler

theorem recordStop (h : KeepsLaws (some .burnerSequencer) a b) (r : StopReason) : KeepsLaws (some .burnerSequencer) a (b.recordStop r) := h.onBsq _

theorem stopPurge (h : KeepsLaws (some .burnerSequencer) a b) (r : StopReason) : KeepsLaws (some .burnerSequencer) a (b.stopPurge r) :=
  ((h.onBsq _).recordState ..).recordStop r

theorem stopBurner (h : KeepsLaws (some .burnerSequencer) a b) (r : StopReason) : KeepsLaws (some .burnerSequencer) a (b.stopBurner r) := by
  unfold Station.stopBurner
  split
  · exact h
  · exact ((((h.fuelOff.onBsq _).recordState ..).onBsq _).recordStop r).report .. |>.reportCooler

theorem enterPilot (h : KeepsLaws (some .burnerSequencer) a b) (x : BurnerCfg) : KeepsLaws (some .burnerSequencer) a (b.enterPilot x) := by
  have opened := ((h.onBsq fun b => { b with purge := none }).recordState .pilotTrial 0).valveOn .pilotValve
  unfold Station.enterPilot
  dsimp only
  split
  next e => rw [e] at opened; exact opened.trip _
  next e =>
    rw [e] at opened
    have lit := opened.igniterStart
    split
    next e' => rw [e'] at lit; exact lit.trip _
    next e' => rw [e'] at lit; exact lit.onBsq _

theorem enterMain (h : KeepsLaws (some .burnerSequencer) a b) (x : BurnerCfg) : KeepsLaws (some .burnerSequencer) a (b.enterMain x) := by
  have opened := (((h.onBsq fun b => { b with pilotTrial := none, ignition := none }).igniterCut).recordState .mainTrial
    x.lightOff).valveOn .mainFuelRelease
  unfold Station.enterMain
  dsimp only
  split
  next e => rw [e] at opened; exact opened.trip _
  next e => rw [e] at opened; exact opened.onBsq _

theorem enterFiring (h : KeepsLaws (some .burnerSequencer) a b) (x : BurnerCfg) : KeepsLaws (some .burnerSequencer) a (b.enterFiring x) :=
  ((((h.onBsq _).valveOff _).recordState ..).onBsq _).contribute _

theorem enterPurge (h : KeepsLaws (some .burnerSequencer) a b) (x : BurnerCfg) : KeepsLaws (some .burnerSequencer) a (b.enterPurge x) := by
  unfold Station.enterPurge
  dsimp only
  split
  · exact ((h.onBsq _).recordState ..).onBsq _
  · exact (h.onBsq _).recordState ..

theorem flameLost (h : KeepsLaws (some .burnerSequencer) a b) : KeepsLaws (some .burnerSequencer) a b.flameLost := by
  unfold Station.flameLost
  dsimp only
  split
  · exact (h.onBsq _).trip _
  · exact (h.onBsq _).trip _
  · exact h.onBsq _

theorem goodCapture (h : KeepsLaws (some .burnerSequencer) a b) (x : BurnerCfg) (i : Fin 2) : KeepsLaws (some .burnerSequencer) a (b.goodCapture x i) := by
  have judged := h.onBsq fun b =>
    { b with monitor := b.monitor.onScanner i fun s => { s with good := min 8 (s.good + 1), bad := 0 } }
  unfold Station.goodCapture
  dsimp only
  split
  · exact judged.onBsq _
  · split
    · split
      · exact ((judged.onBsq _).onBsq _).enterMain x
      · exact (judged.onBsq _).onBsq _
    · exact judged.onBsq _
  · exact judged

theorem badCapture (h : KeepsLaws (some .burnerSequencer) a b) (i : Fin 2) : KeepsLaws (some .burnerSequencer) a (b.badCapture i) := by
  have judged := h.onBsq fun b =>
    { b with monitor := b.monitor.onScanner i fun s => { s with good := 0, bad := min 2 (s.bad + 1) } }
  unfold Station.badCapture
  dsimp only
  split
  · exact judged.onBsq _
  · split
    · exact judged.flameLost
    · exact judged
  · exact judged

theorem rampNow (h : KeepsLaws (some .burnerSequencer) a b) (x : BurnerCfg) : KeepsLaws (some .burnerSequencer) a (b.rampNow x) := by
  unfold Station.rampNow
  split
  · exact h
  · exact (h.onBsq _).stageBurner

theorem checkShortfall (h : KeepsLaws (some .burnerSequencer) a b) (x : BurnerCfg) : KeepsLaws (some .burnerSequencer) a (b.checkShortfall x) := by
  unfold Station.checkShortfall
  split
  · split
    · exact h.onBsq _
    · exact h
  · exact (h.onBsq _).report ..

theorem checkCooler (h : KeepsLaws (some .burnerSequencer) a b) (x : BurnerCfg) : KeepsLaws (some .burnerSequencer) a (b.checkCooler x) := by
  unfold Station.checkCooler
  dsimp only
  split
  · exact h
  · split
    · exact (h.onBsq _).reportCooler
    · split
      · exact h
      · split
        · exact (h.onBsq _).reportCooler.trip _
        · exact (h.onBsq _).reportCooler

theorem noteMain (h : KeepsLaws (some .burnerSequencer) a b) : KeepsLaws (some .burnerSequencer) a b.noteMain := by
  unfold Station.noteMain
  split
  · exact h.onBsq _
  · exact h

theorem burnerRefresh (h : KeepsLaws (some .burnerSequencer) a b) (x : BurnerCfg) : KeepsLaws (some .burnerSequencer) a (b.burnerRefresh x) := by
  have noted := h.noteMain
  unfold Station.burnerRefresh
  dsimp only
  split
  · split
    · exact noted.stopPurge _
    · exact noted
  · split
    · exact noted.trip _
    · exact noted
  · split
    · exact noted.trip _
    · split
      · exact noted.enterFiring x
      · exact noted
  · split
    · exact noted.trip _
    · exact ((noted.rampNow x).checkShortfall x).checkCooler x
  · exact noted

theorem softStop (h : KeepsLaws (some .burnerSequencer) a b) (r : StopReason) : KeepsLaws (some .burnerSequencer) a (b.softStop r) := by
  unfold Station.softStop
  split
  · exact h.stopPurge r
  · exact h.stopBurner r
  · exact h.stopBurner r
  · exact h

/-! ## The Feed Controller -/

theorem stageFeed (h : KeepsLaws who a b) : KeepsLaws who a b.stageFeed := by
  unfold Station.stageFeed
  split
  · exact h.same rfl
  · exact h

theorem onFeed (h : KeepsLaws who a b) (ch : Fin 2) (f : FeedChannel → FeedChannel) : KeepsLaws who a (b.onFeed ch f) := h.same rfl

theorem recomputeDelivered (h : KeepsLaws who a b) (ch : Fin 2) (k : FeedCfg) : KeepsLaws who a (b.recomputeDelivered ch k) :=
  (h.onFeed ch _).stageFeed

theorem writeFeeder (h : KeepsLaws (some .feedController) a b) (ch : Fin 2) (v : Nat) : KeepsLaws (some .feedController) a (b.writeFeeder ch v) := by
  unfold Station.writeFeeder
  dsimp only
  split
  · exact (h.command (setPreload_command ..)).onFeed _ _
  · exact h.onFeed _ _

theorem updateFine (h : KeepsLaws (some .feedController) a b) (ch : Fin 2) (k : FeedCfg) : KeepsLaws (some .feedController) a (b.updateFine ch k) := by
  unfold Station.updateFine
  dsimp only
  split
  · exact h
  · exact h.writeFeeder ch _

theorem writeStall (h : KeepsLaws who a b) (ch : Fin 2) (n : Nat) : KeepsLaws who a (b.writeStall ch n) :=
  h.same (by rw [writeStall_rest]; rfl) (by rw [writeStall_rest]) (by rw [writeStall_rest]) (by rw [writeStall_rest])

theorem quiesce (h : KeepsLaws (some .feedController) a b) (ch : Fin 2) : KeepsLaws (some .feedController) a (b.quiesce ch) :=
  (((h.onFeed ch _).writeFeeder ch 0).writeStall ch 0).report ..

theorem reportFeed (h : KeepsLaws who a b) (ch : Fin 2) : KeepsLaws who a (b.reportFeed ch) := (h.report ..).report ..

theorem restFeed (h : KeepsLaws (some .feedController) a b) (st : FeedState) (ch : Fin 2) (k : FeedCfg) : KeepsLaws (some .feedController) a (b.restFeed st ch k) :=
  (((h.quiesce ch).onFeed ch _).reportFeed ch).recomputeDelivered ch k

theorem faultFeed (h : KeepsLaws (some .feedController) a b) (x : FeedCause) (ch : Fin 2) (k : FeedCfg) : KeepsLaws (some .feedController) a (b.faultFeed x ch k) := by
  unfold Station.faultFeed
  dsimp only
  split
  · exact (((h.quiesce ch).onFeed ch _).reportFeed ch).recomputeDelivered ch k
  · exact (((((h.quiesce ch).onFeed ch _).contribute _).post _).reportFeed ch).recomputeDelivered ch k

theorem runFeed (h : KeepsLaws (some .feedController) a b) (ch : Fin 2) (k : FeedCfg) : KeepsLaws (some .feedController) a (b.runFeed ch k) :=
  ((h.onFeed ch _).writeStall ch _).recomputeDelivered ch k

theorem resumeFeed (h : KeepsLaws (some .feedController) a b) (ch : Fin 2) (k : FeedCfg) : KeepsLaws (some .feedController) a (b.resumeFeed ch k) :=
  ((h.onFeed ch _).writeStall ch _).recomputeDelivered ch k

theorem eachFeed (h : KeepsLaws who a b) (f : Fin 2 → FeedCfg → Station → Station)
    (hf : ∀ ch k x, KeepsLaws who a x → KeepsLaws who a (f ch k x)) : KeepsLaws who a (b.eachFeed f) :=
  forAll _ (fun ch x hx => by
    split
    · exact hf ch _ x hx
    · exact hx) h

theorem takeCv (h : KeepsLaws (some .feedController) a b) (ch : Fin 2) (k : FeedCfg) : KeepsLaws (some .feedController) a (b.takeCv ch k) := by
  unfold Station.takeCv
  split
  · exact h
  · exact (h.onFeed ch _).recomputeDelivered ch k

theorem moveFeed (h : KeepsLaws (some .feedController) a b) (ch : Fin 2) (k : FeedCfg) : KeepsLaws (some .feedController) a (b.moveFeed ch k) := by
  unfold Station.moveFeed
  dsimp only
  split
  · split
    · exact h.runFeed ch k
    · exact h
  · split
    · exact h.restFeed .ready ch k
    · split
      · exact h.faultFeed .feederReverse ch k
      · exact h
  · split
    · exact h
    · split
      · exact (h.onFeed ch _).resumeFeed ch k
      · exact (h.onFeed ch _).restFeed .ready ch k
  · exact h

theorem followTarget (h : KeepsLaws (some .feedController) a b) (ch : Fin 2) (k : FeedCfg) : KeepsLaws (some .feedController) a (b.followTarget ch k) := by
  unfold Station.followTarget
  split
  · exact h
  · exact (h.onFeed ch _).updateFine ch k

theorem feedRefresh (h : KeepsLaws (some .feedController) a b) : KeepsLaws (some .feedController) a b.feedRefresh := by
  have taken := h.eachFeed Station.takeCv fun ch k x hx => hx.takeCv ch k
  have moved := taken.eachFeed Station.moveFeed fun ch k x hx => hx.moveFeed ch k
  have aimed := moved.eachFeed (Station.takeTarget b.cvWaiting) fun ch k x hx => hx.onFeed ch _
  unfold Station.feedRefresh
  dsimp only
  split
  · exact taken
  · exact (aimed.eachFeed Station.followTarget fun ch k x hx => hx.followTarget ch k).stageFeed

/-! ## The Grate Cooler Controller -/

theorem onGcc (h : KeepsLaws (some .grateCooler) a b) (f : Gcc → Gcc)
    (hf : ∀ i : Fin 4, ((f b.gcc).comps[i]'i.isLt).cfg = (b.gcc.comps[i]'i.isLt).cfg := by exact fun _ => rfl) : KeepsLaws (some .grateCooler) a (b.onGcc f) :=
  h.worked rfl fun _ e => by cases e; exact ⟨fun _ => rfl, fun _ _ => .refl _, fun _ => rfl, fun no => absurd rfl no, hf, rfl⟩

theorem onComp (h : KeepsLaws (some .grateCooler) a b) (i : Fin 4) (f : Compartment → Compartment)
    (hf : ∀ c : Compartment, (f c).cfg = c.cfg := by exact fun _ => rfl) : KeepsLaws (some .grateCooler) a (b.onComp i f) := by
  refine h.onGcc _ fun j => ?_
  simp only [Fin.getElem_fin, vecModify_get]
  split
  · exact hf _
  · rfl

theorem stageCooler (h : KeepsLaws who a b) : KeepsLaws who a b.stageCooler := h.same (by rw [stageCooler_rest]; rfl) (by rw [stageCooler_rest]) (by rw [stageCooler_rest]) (by rw [stageCooler_rest])

theorem strokeOn (h : KeepsLaws (some .grateCooler) a b) (k : OutKind) (i : Fin 4) : KeepsLaws (some .grateCooler) a (b.strokeOn k i).1 := by
  unfold Station.strokeOn
  split
  · exact h.command (lineOn_command ..)
  · exact h

theorem strokeOff (h : KeepsLaws (some .grateCooler) a b) (k : OutKind) (i : Fin 4) : KeepsLaws (some .grateCooler) a (b.strokeOff k i) := by
  unfold Station.strokeOff
  split
  · exact h.command (lineOff_command ..)
  · exact h

theorem reportTimeout (h : KeepsLaws who a b) (i : Fin 4) (v : Bool) : KeepsLaws who a (b.reportTimeout i v) := h.report ..
theorem reportConflict (h : KeepsLaws who a b) (i : Fin 4) (v : Bool) : KeepsLaws who a (b.reportConflict i v) := h.report ..

theorem faultComp (h : KeepsLaws (some .grateCooler) a b) (x : CompCause) (i : Fin 4) : KeepsLaws (some .grateCooler) a (b.faultComp x i) := by
  have told (e : Station) (he : KeepsLaws (some .grateCooler) a e) :
      KeepsLaws (some .grateCooler) a (if x = .estop then (e.reportTimeout i false).reportConflict i false else e).stageCooler := by
    split
    · exact ((he.reportTimeout i false).reportConflict i false).stageCooler
    · exact he.stageCooler
  unfold Station.faultComp
  refine told _ ?_
  split
  · exact (((h.strokeOff _ i).strokeOff _ i).onGcc _).onComp i _
  · exact (((((h.strokeOff _ i).strokeOff _ i).onGcc _).onComp i _).contribute _).post _

theorem beginForward (h : KeepsLaws (some .grateCooler) a b) (i : Fin 4) (k : CompCfg) : KeepsLaws (some .grateCooler) a (b.beginForward i k) := h.onComp i _

theorem passGrant (h : KeepsLaws (some .grateCooler) a b) (n : Nat) : KeepsLaws (some .grateCooler) a (b.passGrant n) := by
  induction n generalizing b with
  | zero => exact h
  | succ n ih =>
    unfold Station.passGrant
    split
    next i rest _ _ =>
      split
      · exact ih (h.onGcc _)
      next k _ =>
        have on := ((h.onGcc fun g => { g with holder := some i, queue := rest }).beginForward i k).strokeOn .strokeForward i
        dsimp only
        split
        next e => rw [e] at on; exact ih (on.faultComp .estop i)
        next e => rw [e] at on; exact (on.contribute _).stageCooler
        next e => rw [e] at on; exact on.stageCooler
    · exact h

theorem grant (h : KeepsLaws (some .grateCooler) a b) : KeepsLaws (some .grateCooler) a b.grant := h.passGrant 5

theorem releaseGrant (h : KeepsLaws (some .grateCooler) a b) (i : Fin 4) : KeepsLaws (some .grateCooler) a (b.releaseGrant i) := by
  unfold Station.releaseGrant
  split
  · exact (h.onGcc _).grant
  · exact h

theorem faultAndPass (h : KeepsLaws (some .grateCooler) a b) (x : CompCause) (i : Fin 4) : KeepsLaws (some .grateCooler) a (b.faultAndPass x i) := (h.faultComp x i).grant

theorem wait (h : KeepsLaws (some .grateCooler) a b) (i : Fin 4) : KeepsLaws (some .grateCooler) a (b.wait i) := ((h.onComp i _).onGcc _).grant.stageCooler

theorem rest (h : KeepsLaws (some .grateCooler) a b) (i : Fin 4) : KeepsLaws (some .grateCooler) a (b.rest i) := by
  unfold Station.rest
  dsimp only
  split
  · exact (h.onComp i _).wait i
  · exact (h.onComp i _).stageCooler

theorem startReturn (h : KeepsLaws (some .grateCooler) a b) (i : Fin 4) (k : CompCfg) : KeepsLaws (some .grateCooler) a (b.startReturn i k) := by
  have on := (h.onComp i fun c => { c with state := .returning, timer := some (.returnLimit, b.inMs k.returnLimit) }).strokeOn .strokeReturn i
  unfold Station.startReturn
  dsimp only
  split
  next e => rw [e] at on; exact on.faultAndPass .estop i
  next e => rw [e] at on; exact on.stageCooler

theorem limitConflict (h : KeepsLaws (some .grateCooler) a b) (i : Fin 4) : KeepsLaws (some .grateCooler) a (b.limitConflict i) := by
  unfold Station.limitConflict
  split
  · exact h
  · exact ((h.faultComp .limitConflict i).report ..).grant

theorem endForward (h : KeepsLaws (some .grateCooler) a b) (i : Fin 4) (k : CompCfg) : KeepsLaws (some .grateCooler) a (b.endForward i k) := by
  have released := ((h.strokeOff .strokeForward i).onComp i fun c => { c with state := .dwell, timer := none }).releaseGrant i
  unfold Station.endForward
  dsimp only
  split
  · exact released.startReturn i k
  · exact (released.onComp i _).stageCooler

theorem endReturn (h : KeepsLaws (some .grateCooler) a b) (i : Fin 4) : KeepsLaws (some .grateCooler) a (b.endReturn i) := by
  have off := (h.strokeOff .strokeReturn i).onComp i fun c => { c with timer := none }
  unfold Station.endReturn
  dsimp only
  split
  · exact off.faultAndPass .strokeTimeout i
  · split
    · exact (off.onComp i _).stageCooler
    · exact off.rest i

theorem judgeMode (h : KeepsLaws (some .grateCooler) a b) (i : Fin 4) : KeepsLaws (some .grateCooler) a (b.judgeMode i) := by
  unfold Station.judgeMode
  split
  · exact h
  · dsimp only
    split
    · exact h
    · exact h.onComp i _

/-! ## Output lines and plant inputs -/

/-- A line is changed but not raised. -/
theorem onOut (h : KeepsLaws who a b) (i : Fin 16) (f : OutLine → OutLine)
    (hf : ∀ l : OutLine, l.Calmer (f l) := by exact fun _ => ⟨rfl, id, id⟩) : KeepsLaws who a (b.onOut i f) := by
  have calm (j : Fin 16) : (b.dou.lines[j]'j.isLt).Calmer ((b.onOut i f).dou.lines[j]'j.isLt) := by
    simp only [Station.onOut_fields, Fin.getElem_fin, vecModify_get]
    split
    · exact hf _
    · exact .refl _
  exact h.worked rfl fun _ _ => ⟨fun j => (calm j).cfg, fun j _ => calm j, fun _ => rfl, fun _ => rfl, fun _ => rfl, rfl⟩

theorem setActiveValue (h : KeepsLaws who a b) (i : Fin 16) (v : Nat) (cause : ChangeCause) : KeepsLaws who a (b.setActiveValue i v cause) := by
  unfold Station.setActiveValue
  split
  · exact h
  · dsimp only
    split
    · exact (h.onOut i _).raise _
    · exact h.onOut i _

theorem forceLine (h : KeepsLaws who a b) (i : Fin 16) : KeepsLaws who a (b.forceLine i) := by
  unfold Station.forceLine
  dsimp only
  split
  · exact h
  · split
    · exact ((((h.onOut i _).onOut i _).setActiveValue i 0 .force).onOut i _)
    · exact (h.onOut i _).onOut i _ fun l => .goIdle l
    · exact (h.onOut i _).onOut i _ fun l => .off l

theorem onChannel (h : KeepsLaws who a b) (i : Fin 8) (f : Channel → Channel) : KeepsLaws who a (b.onChannel i f) := h.same rfl
theorem onInput (h : KeepsLaws who a b) (i : Fin 12) (f : InputLine → InputLine) : KeepsLaws who a (b.onInput i f) := h.same rfl

theorem captureEvent (h : KeepsLaws who a b) (k : ChannelCfg) (p w : Nat) : KeepsLaws who a (k.captureEvent p w b) := by
  unfold ChannelCfg.captureEvent
  split
  · exact h.raise _
  · exact h.raise _
  · exact h

theorem noSignalEvent (h : KeepsLaws who a b) (k : ChannelCfg) : KeepsLaws who a (k.noSignalEvent b) := by
  unfold ChannelCfg.noSignalEvent
  split
  · exact h.raise _
  · exact h.raise _
  · exact h.raise _
  · exact h

theorem periodEdge (h : KeepsLaws who a b) (ch : Fin 8) (k : ChannelCfg) (on : Bool) : KeepsLaws who a (b.periodEdge ch k on) := by
  unfold Station.periodEdge
  dsimp only
  split
  · exact h.onChannel _ _
  · exact (h.onChannel _ _).captureEvent k _ _
  · split
    · exact h.onChannel _ _
    · exact h
  · exact h

theorem windowEdge (h : KeepsLaws who a b) (ch : Fin 8) (k : ChannelCfg) (on : Bool) : KeepsLaws who a (b.windowEdge ch k on) := by
  unfold Station.windowEdge
  dsimp only
  split
  · exact h.onChannel _ _
  · split
    · exact h.onChannel _ _
    · exact (h.onChannel _ _).raise _
  · exact h

theorem countedEdge (h : KeepsLaws who a b) (base input : Fin 8) (k : ChannelCfg) (dir : Direction) :
    KeepsLaws who a (b.countedEdge base input k dir) := by
  unfold Station.countedEdge
  dsimp only
  split
  · exact (h.onChannel _ _).raise _
  · exact h.onChannel _ _

theorem takeBackEdge (h : KeepsLaws who a b) (base : Fin 8) (u : CountedEdge) : KeepsLaws who a (b.takeBackEdge base u) := by
  unfold Station.takeBackEdge
  dsimp only
  split
  · exact h.same rfl
  · exact h.onChannel _ _

theorem quadratureEdge (h : KeepsLaws who a b) (ch : Fin 8) (k : ChannelCfg) (level both : Bool) :
    KeepsLaws who a (b.quadratureEdge ch k level both) := by
  unfold Station.quadratureEdge
  dsimp only
  split
  · exact (h.onChannel _ _).onChannel _ _
  · split
    · exact (h.takeBackEdge _ _).onChannel _ _
    · exact h.countedEdge _ _ _ _

theorem indexEdge (h : KeepsLaws who a b) (base : Fin 8) : KeepsLaws who a (b.indexEdge base) := by
  unfold Station.indexEdge
  dsimp only
  split
  · exact h
  · split
    · exact h
    · split
      · exact ((h.onChannel _ _).onChannel _ _).raise _
      · exact ((h.onChannel _ _).onChannel _ _).raise _

theorem deliverLine (h : KeepsLaws who a b) (line : Fin 12) (c : LineCfg) (v : Bool) : KeepsLaws who a (b.deliverLine line c v) := by
  unfold Station.deliverLine
  split
  · exact h.raise _
  · exact h.raise _
  · exact ((((h.raise _).raise _).raise _).raise _).report ..
  · exact h.raise _
  · exact h.raise _
  · split
    · exact h.indexEdge _
    · exact h
  · exact h.report ..
  · exact h

theorem changeLine (h : KeepsLaws who a b) (line : Fin 12) : KeepsLaws who a (b.changeLine line) := by
  unfold Station.changeLine
  split
  · exact (h.onInput _ _).deliverLine _ _ _
  · exact h

end KeepsLaws

end Sys2Proof.Machine
end

section
/-! SUPPORT. What trains, notices and the floor image keep of the laws of the device, the START, and that every command keeps them. -/

set_option Elab.async false

namespace Sys2Proof.Machine

/-! ## The floor mirror (R167) -/

namespace MirrorLaw
variable {own : Fin 16} {m : List MirrorEntry}

theorem sublist (h : MirrorLaw own m) {l : List MirrorEntry} (s : l.Sublist m) : MirrorLaw own l :=
  ⟨s.length_le.trans h.length, fun e he => h.owner e (s.subset he), h.apart.sublist s⟩

/-- Owner silent marks are no part of the law. -/
theorem marked (h : MirrorLaw own m) (f : MirrorEntry → Bool) : MirrorLaw own (m.map fun e => { e with silent := f e }) := by
  refine ⟨by simpa using h.length, fun e he => ?_, by rw [List.pairwise_map]; exact h.apart⟩
  obtain ⟨x, hx, rfl⟩ := List.mem_map.1 he
  exact h.owner x hx

/-- An entry comes last where no other is of its owner and point. -/
theorem append (h : MirrorLaw own m) {e : MirrorEntry} (room : m.length < 64) (peer : e.owner ≠ own)
    (alone : ∀ x ∈ m, x.isFor e.owner e.body.point = false) : MirrorLaw own (m ++ [e]) := by
  refine ⟨by simpa using room, fun x hx => ?_, List.pairwise_append.2 ⟨h.apart, List.pairwise_singleton _ _, fun x hx y hy => ?_⟩⟩
  · rcases List.mem_append.1 hx with hx | hx
    · exact h.owner x hx
    · rw [List.mem_singleton.1 hx]; exact peer
  · rw [List.mem_singleton.1 hy]
    intro e1 e2
    have := alone x hx
    simp [MirrorEntry.isFor, e1, e2] at this

end MirrorLaw

/-- The mirror that makes room is shorter by one entry. -/
theorem dropAckedLow_sublist {m l : List MirrorEntry} (h : dropAckedLow m = some l) : l.Sublist m ∧ l.length < m.length := by
  induction m generalizing l with
  | nil => cases h
  | cons e rest ih =>
    unfold dropAckedLow at h
    split at h
    · cases h; exact ⟨List.sublist_cons_self _ _, by simp⟩
    · obtain ⟨x, hx, rfl⟩ := Option.map_eq_some_iff.1 h
      obtain ⟨sub, short⟩ := ih hx
      exact ⟨sub.cons_cons e, by simpa using short⟩

namespace KeepsLaws
variable {who : Option Owner} {a b c : Station}

/-- The floor has been looked at: only the mirror and the epochs noted have changed, an empty mirror not. -/
theorem looked (h : KeepsLaws who a b) (f : Alm → Alm) (rest : f b.alm = { b.alm with mirror := (f b.alm).mirror, epochs := (f b.alm).epochs })
    (empty : b.alm.mirror = [] → (f b.alm).mirror = []) (law : MirrorLaw b.own b.alm.mirror → MirrorLaw b.own (f b.alm).mirror) :
    KeepsLaws who a (b.onAlm f) := by
  refine h.trans ⟨fun x => ⟨?_, le_refl _, rfl⟩, fun _ _ => .same rfl rfl rfl rfl⟩
  obtain ⟨alarm, config, mirror, shift⟩ := (lawsHold_iff _).1 x
  refine (lawsHold_iff _).2 ⟨alarm.keep rfl (congrArg Alm.active rest :) (fun i => (congrArg (fun x : Alm => (x.points[i]'i.isLt).state) rest :))
    (congrArg Alm.recent rest :), fun off => ?_, law mirror, shift⟩
  obtain ⟨state, none, unset⟩ := config off
  refine ⟨state, empty none, ?_⟩
  rw [show (b.onAlm f).alm = f b.alm from rfl, rest]
  exact ⟨unset.cfg, unset.delay, unset.active⟩

theorem setMirror_less (h : KeepsLaws who a b) {m : List MirrorEntry} (empty : b.alm.mirror = [] → m = [])
    (hm : MirrorLaw b.own b.alm.mirror → MirrorLaw b.own m) : KeepsLaws who a (b.setMirror m) := by
  unfold Station.setMirror
  split
  · exact h
  · exact (h.looked (fun x => { x with mirror := m }) rfl empty hm).post _

theorem setMirror (h : KeepsLaws who a b) (on : LawsHold a → a.ppt.started = true) {m : List MirrorEntry}
    (hm : MirrorLaw b.own b.alm.mirror → MirrorLaw b.own m) : KeepsLaws who a (b.setMirror m) := by
  unfold Station.setMirror
  split
  · exact h
  · exact h.running on rfl rfl rfl (fun x => x.keep rfl rfl (fun _ => rfl) rfl) hm

theorem loopState (h : KeepsLaws who a b) (on : LawsHold a → a.ppt.started = true) (st : LoopState) : KeepsLaws who a (b.loopState st) :=
  h.running on rfl rfl rfl (fun x => x.same rfl rfl) id

theorem onLpc (h : KeepsLaws who a b) (f : Lpc → Lpc) (hq : (f b.lpc).queue = b.lpc.queue := by rfl)
    (hs : (f b.lpc).state = b.lpc.state := by rfl) : KeepsLaws who a (b.onLpc f) := h.same (by simp only [Station.lawView, Station.onLpc_fields, hq, hs]; rfl)

theorem checkEpoch (h : KeepsLaws who a b) (i : Fin 16) : KeepsLaws who a (b.checkEpoch i) := by
  have noted (d : Station) (e : Byte) (k : KeepsLaws who a d) :
      KeepsLaws who a (d.onAlm fun x => { x with epochs := vecModify x.epochs i fun _ => some e }) := k.looked _ rfl id id
  unfold Station.checkEpoch
  split
  · exact h
  · split
    · exact h
    · dsimp only
      split
      · exact noted _ _ h
      · exact noted _ _ (h.setMirror_less (fun e => by rw [e]; rfl) fun x => x.sublist List.filter_sublist)

theorem setMirror_own (m : List MirrorEntry) (d : Station) : (d.setMirror m).own = d.own := by
  unfold Station.setMirror
  split <;> rfl

theorem checkEpoch_own (i : Fin 16) (d : Station) : (d.checkEpoch i).own = d.own := ((FloorOnly.refl d).checkEpoch i).own

theorem applyAlarm (h : KeepsLaws who a b) (on : LawsHold a → a.ppt.started = true) {i : Fin 16} (peer : i ≠ b.own) (x : AlarmBody) :
    KeepsLaws who a (b.applyAlarm i x) := by
  have checked := h.checkEpoch i
  rw [← checkEpoch_own i b] at peer
  unfold Station.applyAlarm
  dsimp only
  generalize b.checkEpoch i = d at checked peer
  split
  next e found =>
    split
    · exact checked.setMirror on fun m => m.sublist List.filter_sublist
    · refine checked.setMirror on fun m => ?_
      have mem := List.mem_of_find?_eq_some found
      have is := List.find?_some found
      simp only [MirrorEntry.isFor, Bool.and_eq_true, beq_iff_eq] at is
      refine (m.sublist List.filter_sublist).append ?_ (by rw [is.1]; exact peer) fun y hy => ?_
      · refine lt_of_lt_of_le ?_ m.length
        exact List.length_filter_lt_length_iff_exists.2 ⟨e, mem, by simp [MirrorEntry.isFor, is]⟩
      · rw [is.1]
        simpa using (List.mem_filter.1 hy).2
  next absent =>
    have alone : ∀ y ∈ d.alm.mirror, y.isFor i x.point = false := by
      simpa using List.find?_eq_none.1 absent
    split
    · exact checked
    · split
      next room => exact checked.setMirror on fun m => m.append room peer alone
      next full =>
        split
        next l hl =>
          obtain ⟨sub, short⟩ := dropAckedLow_sublist hl
          exact checked.setMirror on fun m => (m.sublist sub).append (short.trans_le m.length) peer fun y hy => alone y (sub.subset hy)
        next => exact checked.running on rfl rfl rfl (fun x => x.keep rfl rfl (fun _ => rfl) rfl) id

theorem applyAck (h : KeepsLaws who a b) (on : LawsHold a → a.ppt.started = true) (p o : Byte) : KeepsLaws who a (b.applyAck p o) :=
  h.told on ((MovesPoints.refl b).applyAck p o) fun y => y.applyAck p o

theorem almNoticeLost (h : KeepsLaws who a b) (on : LawsHold a → a.ppt.started = true) (x : NoticeBody) : KeepsLaws who a (b.almNoticeLost x) :=
  h.told on ((MovesPoints.refl b).almNoticeLost x) fun y => y.almNoticeLost x

theorem applyTimeSet (h : KeepsLaws who a b) (t : Word) : KeepsLaws who a (b.applyTimeSet t) :=
  h.shift ((ShiftOnly.refl b).applyTimeSet t) (applyTimeSet_kept t b)

theorem applyNotice (h : KeepsLaws who a b) (on : LawsHold a → a.ppt.started = true) {i : Fin 16} (peer : i ≠ b.own) (x : NoticeBody) :
    KeepsLaws who a (b.applyNotice i x) := by
  unfold Station.applyNotice
  split
  · exact h.applyAlarm on peer _
  · split
    · exact h.applyAck on _ _
    · exact h
  · split
    · exact h.applyTimeSet _
    · exact h

theorem takeNotices (h : KeepsLaws who a b) (on : LawsHold a → a.ppt.started = true) {i : Fin 16} (peer : i ≠ b.own) (g : Image) (fresh live : Bool) :
    KeepsLaws who a (b.takeNotices i g fresh live) := by
  unfold Station.takeNotices
  dsimp only
  refine onLpc ?_ _
  generalize (if fresh && !live then [] else (b.lpc.taken[i]'i.isLt)) = known
  refine (List.foldlRecOn (motive := fun d => KeepsLaws who a d ∧ d.own = b.own) _ _ ⟨h, rfl⟩ fun d hd n _ => ?_).1
  obtain ⟨kept, own⟩ := hd
  split
  · exact ⟨kept.applyNotice on (own ▸ peer) _, ((FloorOnly.refl d).applyNotice i _).own.trans own⟩
  · exact ⟨kept, own⟩

/-! ## Trains (R4 to R19) -/

theorem onCounters (h : KeepsLaws who a b) (f : Counters → Counters) : KeepsLaws who a (b.onCounters f) := h.same rfl
theorem onEntry (h : KeepsLaws who a b) (i : Fin 16) (f : FloorEntry → FloorEntry) : KeepsLaws who a (b.onEntry i f) := h.same rfl
theorem send (h : KeepsLaws who a b) (x : List Byte) : KeepsLaws who a (b.send x) := h.same rfl
theorem startWatch (h : KeepsLaws who a b) : KeepsLaws who a b.startWatch := h.same rfl
theorem signalRefresh (h : KeepsLaws who a b) : KeepsLaws who a b.signalRefresh := h.same rfl
theorem headError (h : KeepsLaws who a b) : KeepsLaws who a b.headError := h.same rfl

theorem takePosition (h : KeepsLaws who a b) (on : LawsHold a → a.ppt.started = true) (notices : Bool) (i : Fin 16) (raw : List Byte) :
    KeepsLaws who a (b.takePosition notices i raw).1 := by
  unfold Station.takePosition
  split
  · exact h
  next peer =>
    unfold Station.takeSlot
    split
    · exact h.onEntry _ _
    · exact h.same rfl
    · dsimp only
      split
      · exact (h.onEntry _ _).takeNotices on peer _ _ _
      · exact h.onEntry _ _

theorem takePositions (h : KeepsLaws who a b) (on : LawsHold a → a.ppt.started = true) (notices : Bool) (slots : List (List Byte)) (l : List (Fin 16)) :
    KeepsLaws who a (Station.takePositions notices slots l b).1 := by
  induction l generalizing b with
  | nil => exact h
  | cons i l ih => exact ih (h.takePosition on notices i _)

theorem takeSlots (h : KeepsLaws who a b) (on : LawsHold a → a.ppt.started = true) (notices : Bool) (slots : List (List Byte)) :
    KeepsLaws who a (b.takeSlots notices slots).1 := by
  have taken := h.takePositions on notices slots (List.finRange 16)
  unfold Station.takeSlots
  generalize Station.takePositions notices slots (List.finRange 16) b = r at taken ⊢
  exact taken.onLpc fun l => { l with live := liveOf r.1.own l.floor }

theorem judgeConfig (h : KeepsLaws who a b) (sig : Half) : KeepsLaws who a (b.judgeConfig sig) := by
  unfold Station.judgeConfig
  dsimp only
  split
  · exact (h.report ..).post _
  · exact h.report ..

theorem takeHead (h : KeepsLaws who a b) (t : Word) (n : Half) : KeepsLaws who a (b.takeHead t n) :=
  h.shift ((ShiftOnly.refl b).takeHead t n) (takeHead_kept t n b)

theorem headOrError (h : KeepsLaws who a b) (x : Option Head) : KeepsLaws who a (b.headOrError x) := by
  unfold Station.headOrError
  split
  next g =>
    have lasts : KeepsLaws who a (b.onLpc fun l => { l with lastHead := some g }) := h.same rfl
    unfold Station.takeGoodHead
    dsimp only
    split
    · split
      · exact (lasts.startWatch.judgeConfig _).takeHead _ _
      · exact lasts.startWatch.judgeConfig _
    · split
      · exact (lasts.judgeConfig _).takeHead _ _
      · exact lasts.judgeConfig _
  · exact h.headError

theorem checkOwn (h : KeepsLaws who a b) (slots : List (List Byte)) : KeepsLaws who a (b.checkOwn slots).1 := by
  unfold Station.checkOwn
  split
  · exact h
  · exact h.same rfl
  · exact h

theorem loseNotice (h : KeepsLaws who a b) (on : LawsHold a → a.ppt.started = true) (x : NoticeBody) : KeepsLaws who a (b.loseNotice x) :=
  (((h.onCounters _).almNoticeLost on x).report ..).same rfl

theorem judgeReturn (h : KeepsLaws who a b) (on : LawsHold a → a.ppt.started = true) (records : List Notice) : KeepsLaws who a (b.judgeReturn records) := by
  have judged : KeepsLaws who a (b.onLpc (Lpc.judged records)) :=
    h.queued (fun x => x.judged records) rfl
  have lost (l : List NoticeBody) : KeepsLaws who a (l.foldl (fun d x => d.loseNotice x) (b.onLpc (Lpc.judged records))) :=
    List.foldlRecOn (motive := KeepsLaws who a) _ _ judged fun d hd x _ => hd.loseNotice on x
  unfold Station.judgeReturn
  dsimp only
  split
  · exact (lost _).raise _
  · exact lost _

theorem graceExpired (h : KeepsLaws who a b) : KeepsLaws who a b.graceExpired := h.same rfl

theorem departUp (h : KeepsLaws who a b) (on : LawsHold a → a.ppt.started = true) (st : LoopState) : KeepsLaws who a (b.departUp st) := by
  have left : KeepsLaws who a (b.onLpc fun l =>
    { l with origin := false, watch := none, release := .idle, awaiting := false, prevWrite := false,
             loopLost := some b.sru.time, grace := .running (b.inSec b.loopCfg.grace) }) := h.same rfl
  have told := (((left.report .loopLost 0 true).raise .bsqLeftUp).raise .fdcLeftUp).raise .sruLeftUp
  unfold Station.departUp
  dsimp only
  split
  · exact told.graceExpired.loopState on st
  · exact told.loopState on st

theorem enterUp (h : KeepsLaws who a b) (on : LawsHold a → a.ppt.started = true) : KeepsLaws who a b.enterUp := by
  have ended : KeepsLaws who a (b.onLpc fun l => { l with claimSend := none, breakSend := none, claimLimit := none, grace := .idle }) :=
    h.same rfl
  exact (((ended.startWatch.report .loopLost 0 false).raise _).raise _).loopState on .up

theorem foundDuplicate (h : KeepsLaws who a b) (on : LawsHold a → a.ppt.started = true) : KeepsLaws who a b.foundDuplicate := (h.departUp on _).report ..

theorem judgeOwn (h : KeepsLaws who a b) (on : LawsHold a → a.ppt.started = true) (slots : List (List Byte)) : KeepsLaws who a (b.judgeOwn slots).1 := by
  have checked := h.checkOwn slots
  unfold Station.judgeOwn
  dsimp only
  split
  · exact checked
  · split
    · split
      · exact checked.foundDuplicate on
      · exact checked.judgeReturn on _
    · exact checked.judgeReturn on _

theorem placed (h : KeepsLaws who a b) : KeepsLaws who a (b.onLpc Lpc.placed) := h.queued (fun x => x.placed) rfl

theorem writeOwn (h : KeepsLaws who a b) : KeepsLaws who a b.writeOwn.1 := h.placed.same rfl

theorem converge (h : KeepsLaws who a b) : KeepsLaws who a b.converge := h.shift (ShiftOnly.refl b).converge (converge_kept b)

theorem release (h : KeepsLaws who a b) : KeepsLaws who a b.release := by
  unfold Station.release
  dsimp only
  refine List.foldlRecOn (motive := KeepsLaws who a) _ _ ?_ fun d hd t _ => hd.applyTimeSet t
  exact h.converge.writeOwn.same rfl

theorem arriveMember (h : KeepsLaws who a b) (on : LawsHold a → a.ppt.started = true) (t : Train) : KeepsLaws who a (b.arriveMember t) := by
  have judged := ((h.headOrError t.head).takeSlots on true t.slots).judgeOwn on t.slots
  unfold Station.arriveMember
  dsimp only
  split
  · exact (judged.send _).signalRefresh
  · exact (judged.writeOwn.send _).signalRefresh

theorem arriveReturn (h : KeepsLaws who a b) (on : LawsHold a → a.ppt.started = true) (t : Train) : KeepsLaws who a (b.arriveReturn t) := by
  have judged := ((h.headOrError t.head).takeSlots on true t.slots).judgeOwn on t.slots
  unfold Station.arriveReturn
  dsimp only
  split
  · exact judged.signalRefresh
  · split
    · exact (((judged.onLpc _).signalRefresh).onCounters _).release
    · exact (judged.onLpc _).signalRefresh

theorem arriveUp (h : KeepsLaws who a b) (on : LawsHold a → a.ppt.started = true) (t : Train) : KeepsLaws who a (b.arriveUp t) := by
  unfold Station.arriveUp
  split
  · split
    · exact h.arriveReturn on t
    · exact h.arriveMember on t
  · split
    · split
      · exact h.arriveReturn on t
      · split
        · exact ((h.onLpc _).post _).arriveMember on t
        · exact h.headError
    · split
      · exact h.same rfl
      · exact h.arriveMember on t

theorem arriveListening (h : KeepsLaws who a b) (on : LawsHold a → a.ppt.started = true) (t : Train) : KeepsLaws who a (b.arriveListening t) := by
  have taken := ((h.headOrError t.head).takeSlots on false t.slots).checkOwn t.slots
  unfold Station.arriveListening
  dsimp only
  split
  · exact taken.signalRefresh
  · exact (taken.send _).signalRefresh

/-- The loop is left BYPASSED by START alone, so that a train is looked at after START (R1). -/
theorem started_of_state (st : a.lpc.state ≠ .bypassed) (h : LawsHold a) : a.ppt.started = true := by
  by_contra off
  exact st (h.config (Bool.not_eq_true _ ▸ off)).1

theorem arrive (d : Station) (t : Train) : KeepsLaws who d (d.arrive t) := by
  by_cases st : d.lpc.state = .bypassed
  case pos => rw [Station.arrive, if_pos st]; exact refl d
  case neg =>
    have on := started_of_state st
    have counted := (refl (who := who) d).onCounters fun c => { c with trainsSeen := c.trainsSeen.bump }
    unfold Station.arrive
    rw [if_neg st]
    dsimp only
    split
    · exact counted
    · unfold Station.arriveJoining
      split
      · exact counted.arriveListening on t
      · split
        · exact (counted.arriveListening on t).same rfl
        · exact (counted.enterUp on).arriveUp on t
    · exact counted.arriveUp on t
    · exact counted.arriveListening on t
    all_goals
      unfold Station.arriveRecovery
      split
      · exact counted.arriveListening on t
      · split
        · exact counted.headError
        · exact (counted.enterUp on).arriveUp on t

/-! ## Marks and recovery (R28 to R39) -/

theorem sendClaim (h : KeepsLaws who a b) : KeepsLaws who a b.sendClaim := h.same rfl
theorem sendBreak (h : KeepsLaws who a b) : KeepsLaws who a b.sendBreak := h.same rfl

theorem startClaimLimit (h : KeepsLaws who a b) : KeepsLaws who a b.startClaimLimit := h.same rfl

theorem defer (h : KeepsLaws who a b) (on : LawsHold a → a.ppt.started = true) : KeepsLaws who a b.defer := (h.startClaimLimit).loopState on _

theorem enterClaim (h : KeepsLaws who a b) (on : LawsHold a → a.ppt.started = true) : KeepsLaws who a b.enterClaim := by
  unfold Station.enterClaim
  split
  · exact (h.startClaimLimit.loopState on _).sendClaim
  · exact h.defer on

theorem repeatClaim (h : KeepsLaws who a b) (m : ClaimMark) : KeepsLaws who a (b.repeatClaim m) := by
  unfold Station.repeatClaim
  split
  · exact h
  · exact h.send _

theorem repeatBreak (h : KeepsLaws who a b) (m : BreakMark) : KeepsLaws who a (b.repeatBreak m) := by
  unfold Station.repeatBreak
  split
  · exact h
  · exact h.send _

theorem winClaim (h : KeepsLaws who a b) (on : LawsHold a → a.ppt.started = true) (m : ClaimMark) : KeepsLaws who a (b.winClaim m) := by
  have entered := ((h.onCounters fun c => { c with claimRounds := c.claimRounds.bump }).contribute .claimRound).enterUp on
  exact release (entered.same rfl)

theorem arriveClaim (d : Station) (m : ClaimMark) : KeepsLaws who d (d.arriveClaim m) := by
  have stays := refl (who := who) d
  unfold Station.arriveClaim
  dsimp only
  split
  next st =>
    have on := started_of_state (by rw [st]; decide)
    split
    · exact stays.winClaim on m
    · split
      · exact ((stays.onLpc _).repeatClaim m).loopState on _
      · exact stays
  next st =>
    have on := started_of_state (by rw [st]; decide)
    split
    · exact stays.enterClaim on
    · split
      · exact (stays.repeatClaim m).defer on
      · exact stays.enterClaim on
  · split
    · exact stays
    · exact stays.repeatClaim m

theorem arriveBreak (d : Station) (m : BreakMark) : KeepsLaws who d (d.arriveBreak m) := by
  have stays := refl (who := who) d
  unfold Station.arriveBreak
  dsimp only
  split
  next st =>
    have on := started_of_state (by rw [st]; decide)
    split
    · exact stays.enterClaim on
    · exact (stays.repeatBreak m).same rfl
  · split
    · exact stays
    · exact stays.repeatBreak m

theorem watchExpired (d : Station) : KeepsLaws who d (match d.lpc.state with
    | .up => (d.departUp .up).enterClaim
    | .joining => (d.onLpc fun l => { l with bypass := false }).enterClaim
    | _ => d) := by
  split
  next st =>
    have on := started_of_state (by rw [st]; decide)
    exact ((refl d).departUp on _).enterClaim on
  next st =>
    have on := started_of_state (by rw [st]; decide)
    exact ((refl d).onLpc _).enterClaim on
  · exact refl d

end KeepsLaws

end Sys2Proof.Machine
end

section
/-! SUPPORT. Every command keeps the laws of the device. -/

set_option Elab.async false

namespace Sys2Proof.Machine

/-! ## The START and CONFIGURE -/

/-- A station in CONFIG may change its settings, its own number too: its mirror is empty. -/
theorem KeepsLaws.unstarted {who : Option Owner} {a b : Station} (off : a.ppt.started = false) (queue : b.lpc.queue = a.lpc.queue)
    (loop : b.lpc.state = a.lpc.state) (started : b.ppt.started = a.ppt.started) (alm : b.alm = a.alm) (sru : b.sru = a.sru)
    (dou : b.dou = a.dou) (bsq : b.bsq = a.bsq) (gcc : b.gcc = a.gcc) : KeepsLaws who a b := by
  refine ⟨fun x => ⟨?_, by rw [sru], started⟩, fun _ _ => .same dou bsq gcc started⟩
  obtain ⟨alarm, config, mirror, shift⟩ := (lawsHold_iff _).1 x
  refine (lawsHold_iff _).2 ⟨alarm.same queue alm, by rw [started, loop, alm]; exact config, ?_, by rwa [sru]⟩
  rw [alm, (config off).2.1]
  exact ⟨by simp, by simp, .nil⟩

/-- A point starts in NORMAL, and only it is touched. -/
theorem startPoint_law {d : Station} (h : AlarmLaw d) (i : Fin 32) (normal : (d.alm.points[i]'i.isLt).state = .normal) :
    AlarmLaw (d.startPoint i) ∧ ∀ j : Fin 32, j ≠ i → (d.startPoint i).alm.points[j]'j.isLt = d.alm.points[j]'j.isLt := by
  unfold Station.startPoint
  split
  · exact ⟨h, fun _ _ => rfl⟩
  next c _ =>
    have fresh : AlarmLaw (d.onPoint i fun _ => { Point.first with cfg := some c }) := h.onPoint i _ normal.symm
    have others (j : Fin 32) (ne : j ≠ i) :
        (d.onPoint i fun _ => { Point.first with cfg := some c }).alm.points[j]'j.isLt = d.alm.points[j]'j.isLt :=
      vecModify_ne _ _ _ _ _ (Fin.val_ne_of_ne ne.symm)
    dsimp only
    split
    · exact ⟨fresh.setWatched i true, fun j ne => ((setWatched_flag i true _).others j ne).trans (others j ne)⟩
    · exact ⟨fresh, others⟩

/-- The points start one after the other, each in NORMAL until its turn. -/
theorem startPoints_law (l : List (Fin 32)) (once : l.Nodup) {d : Station} (h : AlarmLaw d)
    (normal : ∀ i ∈ l, (d.alm.points[i]'i.isLt).state = .normal) : AlarmLaw (l.foldl (fun d i => d.startPoint i) d) := by
  induction l generalizing d with
  | nil => exact h
  | cons i l ih =>
    obtain ⟨fresh, once⟩ := List.nodup_cons.1 once
    obtain ⟨law, others⟩ := startPoint_law h i (normal i (List.mem_cons_self ..))
    refine ih once law fun j hj => ?_
    rw [others j fun e => fresh (e ▸ hj)]
    exact normal j (List.mem_cons_of_mem _ hj)

/-- At START no point is active (R154). -/
theorem startAlarms_law {d : Station} (h : AlarmLaw d) (quiet : d.alm.active = []) : AlarmLaw d.startAlarms := by
  unfold Station.startAlarms forAll
  dsimp only
  refine startPoints_law _ (List.nodup_finRange 32) (h.keep rfl rfl (fun _ => rfl) rfl) fun i _ => ?_
  by_contra active
  have := (h.active.2 i).2 active
  rw [quiet] at this
  exact List.not_mem_nil this

/-- The Alarm Unit's start reaches nothing but its own record and what it tells. -/
theorem startPoint_only (i : Fin 32) (d : Station) : AlarmsOnly d (d.startPoint i) ∧ (d.startPoint i).alm.mirror = d.alm.mirror := by
  unfold Station.startPoint
  split
  · exact ⟨.refl d, rfl⟩
  next c _ =>
    have fresh : AlarmsOnly d (d.onPoint i fun _ => { Point.first with cfg := some c }) := ⟨by simp, by simp, rfl⟩
    dsimp only
    split
    · have m := (MovesPoints.refl (d.onPoint i fun _ => { Point.first with cfg := some c })).setWatched i true
      exact ⟨fresh.trans m.only, m.move.mirror⟩
    · exact ⟨fresh, rfl⟩

theorem startAlarms_only (d : Station) : AlarmsOnly d d.startAlarms ∧ d.startAlarms.alm.mirror = d.alm.mirror := by
  unfold Station.startAlarms
  dsimp only
  refine forAll_keeps (P := fun x => AlarmsOnly d x ∧ x.alm.mirror = d.alm.mirror) _
    ⟨⟨List.prefix_refl _, BitVec.and_self, rfl⟩, rfl⟩ fun i x hx => ?_
  · obtain ⟨only, mirror⟩ := startPoint_only i x
    exact ⟨hx.1.trans only, mirror.trans hx.2⟩

/-- Inputs and outputs start without a word to the Alarm Unit. -/
theorem startInputs_alm (d : Station) : d.startInputs.alm = d.alm := by
  unfold Station.startInputs
  dsimp only
  exact forAll_keeps (P := fun x => x.alm = d.alm) _ (forAll_keeps (P := fun x => x.alm = d.alm) _ rfl fun _ _ h => h) fun _ _ h => h

theorem startOutputs_alm (d : Station) : d.startOutputs.alm = d.alm :=
  forAll_keeps (P := fun x => x.alm = d.alm) _ rfl fun _ _ h => h

theorem ShiftOnly.examineReport {a b : Station} (h : ShiftOnly a b) : ShiftOnly a b.examineReport := by
  unfold Station.examineReport
  split
  · exact h
  · dsimp only
    split
    · exact (h.onSru _).completeReport
    · exact h.onSru _

namespace KeepsLaws
variable {who : Option Owner} {a b : Station}

theorem onPpt (h : KeepsLaws who a b) (f : Ppt → Ppt) (started : (f b.ppt).started = b.ppt.started := by rfl)
    (cfg : (f b.ppt).cfg = b.ppt.cfg := by rfl) : KeepsLaws who a (b.onPpt f) := by
  refine h.same ?_
  have own : (b.onPpt f).own = b.own := by
    unfold Station.own Station.cfg
    rw [show (b.onPpt f).ppt = f b.ppt from rfl, cfg]
  unfold Station.lawView
  rw [own]
  exact congrArg (fun x => { b.lawView with started := x }) started

theorem startInputs (h : KeepsLaws who a b) : KeepsLaws who a b.startInputs := by
  unfold Station.startInputs
  dsimp only
  exact forAll _ (fun i x hx => hx.onInput i _) (forAll _ (fun i x hx => hx.onChannel i _) h)

/-- With no owner named, the plant may be worked in any way. -/
theorem free (h : KeepsLaws none a b) {c : Station} (e : c.lawView = b.lawView) : KeepsLaws none a c := h.worked e nofun

theorem startOutputs (h : KeepsLaws none a b) : KeepsLaws none a b.startOutputs := forAll _ (fun _ _ hx => hx.free rfl) h

theorem startFeed (h : KeepsLaws who a b) : KeepsLaws who a b.startFeed :=
  stageFeed (forAll _ (fun i x hx => by
    dsimp only
    split
    · exact hx.onFeed i _
    · exact hx) h)

theorem startCooler (h : KeepsLaws none a b) : KeepsLaws none a b.startCooler :=
  stageCooler (forAll _ (fun i x hx => by
    dsimp only
    split
    · exact hx.free rfl
    · exact hx) h)

/-- The Alarm Unit moves its points after START alone, when the points are set. -/
theorem moves_set (h : KeepsLaws who a b) {c : Station} (m : MovesPoints b c) (law : AlarmLaw b → AlarmLaw c) (seen : ¬ Unset b.alm) :
    KeepsLaws who a c := h.moves m law fun u => absurd u seen

theorem resubmit (h : KeepsLaws who a b) : KeepsLaws who a b.resubmit :=
  h.moves (MovesPoints.refl b).resubmit (fun x => x.resubmit) fun u => by rw [u.resubmit_same]; exact u

theorem unshelvePoint (h : KeepsLaws who a b) (i : Fin 32) : KeepsLaws who a (b.unshelvePoint i) :=
  h.moves ((MovesPoints.refl b).unshelvePoint i) (fun x => x.unshelvePoint i) fun u => u.unshelvePoint i

theorem submit (h : KeepsLaws who a b) (x : NoticeBody) : KeepsLaws who a (b.submit x).1 := by
  refine h.moves ((MovesPoints.refl b).submit x) (fun y => y.submit x) fun u => ?_
  unfold Station.submit
  split <;> exact u

theorem ackPoint (h : KeepsLaws who a b) (on : LawsHold a → a.ppt.started = true) (i : Fin 32) : KeepsLaws who a (b.ackPoint i) :=
  h.told on ((MovesPoints.refl b).ackPoint i) fun x => x.ackPoint i

theorem completeReport (h : KeepsLaws who a b) : KeepsLaws who a b.completeReport :=
  h.shift (ShiftOnly.refl b).completeReport (completeReport_kept b)

theorem crossing (h : KeepsLaws who a b) : KeepsLaws who a b.crossing := h.shift (ShiftOnly.refl b).crossing (crossing_kept b)

theorem examineReport (h : KeepsLaws who a b) : KeepsLaws who a b.examineReport :=
  h.shift (ShiftOnly.refl b).examineReport (examineReport_kept b)

theorem stagePanel (h : KeepsLaws who a b) : KeepsLaws who a b.stagePanel := h.same rfl

theorem startPeriod (h : KeepsLaws who a b) : KeepsLaws who a b.startPeriod := by
  unfold Station.startPeriod
  exact h.onPpt _

theorem lapse (h : KeepsLaws who a b) : KeepsLaws who a b.lapse := by
  unfold Station.lapse
  exact ((((h.onPpt _).stagePanel.report ..).post _).raise _).onPpt _

theorem clearSent (h : KeepsLaws who a b) (x : OutSource) : KeepsLaws who a (b.onPpt (Ppt.clearSent x)) := by
  cases x <;> exact h.onPpt _

theorem takeRecord (h : KeepsLaws who a b) (kind tag : Byte) (body : List Byte) : KeepsLaws who a (b.takeRecord kind tag body) := by
  unfold Station.takeRecord
  split
  · exact h
  · split
    · exact h.onPpt _
    · split
      · exact h.onPpt _
      · exact (h.onPpt _).raise _

theorem onSru (h : KeepsLaws who a b) (f : Sru → Sru) (k : ShiftKept b.sru (f b.sru)) : KeepsLaws who a (b.onSru f) :=
  h.shift ((ShiftOnly.refl b).onSru f) k

theorem startShift (h : KeepsLaws who a b) : KeepsLaws who a b.startShift :=
  (h.onSru (fun r => { r with notUp := some (b.inSec 1) }) (.same rfl rfl (fun _ => rfl) rfl)).same rfl

end KeepsLaws

/-- The loop is joined at START (R29). -/
theorem KeepsLaws.startLoop {who : Option Owner} {a b : Station} (h : KeepsLaws who a b) (on : LawsHold a → a.ppt.started = true) : KeepsLaws who a b.startLoop := by
  unfold Station.startLoop
  exact ((h.startWatch).report .loopLost 0 true).loopState on .joining

/-- The START comes on a station in CONFIG, whose points are not set (R193). -/
theorem acceptStart_laws (d : Station) (off : d.ppt.started = false) (h : LawsHold d) :
    LawsHold d.acceptStart ∧ d.sru.shift.toNat ≤ d.acceptStart.sru.shift.toNat := by
  obtain ⟨alarm, config, mirror, shift⟩ := (lawsHold_iff _).1 h
  obtain ⟨-, -, unset⟩ := config off
  unfold Station.acceptStart
  dsimp only
  generalize he : d.onPpt _ = e
  have on : LawsHold e → e.ppt.started = true := fun _ => by rw [← he]; rfl
  have begun : LawsHold e := (lawsHold_iff _).2 (by
    subst he
    exact ⟨alarm.same rfl rfl, nofun, mirror, shift⟩)
  have number : d.sru.shift = e.sru.shift := by rw [← he]; rfl
  have lined : KeepsLaws none e e.stagePanel.startInputs.startOutputs := (KeepsLaws.refl e).stagePanel.startInputs.startOutputs
  have quiet : e.stagePanel.startInputs.startOutputs.alm.active = [] := by
    rw [startOutputs_alm, startInputs_alm]
    rw [← he]
    exact unset.active
  obtain ⟨only, same⟩ := startAlarms_only e.stagePanel.startInputs.startOutputs
  have alarms := lined.running on (by rw [only.ppt]) only.floorOnly.own only.sru (fun x => startAlarms_law x quiet)
    (by rw [same]; exact id) only.dou only.bsq only.gcc
  have all := ((((alarms.stageBurner).startFeed).startCooler).startShift).startLoop on
  rw [number]
  exact ⟨(all.kept begun).laws, (all.kept begun).number⟩

/-! ## The first state of the blocks -/

/-- An alarm record as a reset leaves it, with no notice queue, satisfies the law. -/
theorem firstAlarms_law {d : Station} {epoch : Byte} (queue : d.lpc.queue = []) (alm : d.alm = .first epoch) : AlarmLaw d := by
  refine ⟨queue ▸ ⟨by simp, by simp⟩, ?_, ?_⟩
  · rw [alm]
    exact ⟨List.nodup_nil, fun i => by simp [Alm.first, Point.first]⟩
  · rw [alm]; simp [Alm.first]

theorem first_unset (epoch : Byte) : Unset (.first epoch) :=
  ⟨fun i => by simp [Alm.first, Point.first], fun i => by simp [Alm.first, Point.first], rfl⟩

theorem mirrorLaw_nil (own : Fin 16) : MirrorLaw own [] := ⟨by simp, by simp, .nil⟩

/-! ## Commands -/

/-- The owner whose plant a command may work: that of the block that takes it. At START and at the resets every block begins anew. -/
def actor : Instr → Option Owner
  | .powerOn | .resetLineAssert | .start => none
  | c =>
    match receiver c with
    | 3 => some .burnerSequencer
    | 4 => some .feedController
    | 5 => some .grateCooler
    | _ => some .noOwner

/-- A command keeps the laws of the device and leaves the plant of other owners. -/
structure CommandKeeps (c : Instr) : Prop where
  laws : ∀ d, LawsHold d → LawsHold (effect c d) ∧ d.sru.shift.toNat ≤ (effect c d).sru.shift.toNat
  plant : ∀ d o, actor c = some o → LeavesPlant o d (effect c d)

theorem effect_of_act {c : Instr} {f : Station → Station} (h : ∀ s, exec c s = act c f s) (d : Station) :
    effect c d = f (d.take c) := by
  unfold effect
  rw [h]
  rfl

theorem KeepsLaws.take (who : Option Owner) (c : Instr) (d : Station) : KeepsLaws who d (d.take c) := (KeepsLaws.refl d).same rfl

/-- A command by what it does to a station with its laws. -/
theorem CommandKeeps.of_laws {c : Instr} (f : Station → Station) (h : ∀ s, exec c s = act c f s)
    (k : ∀ d, LawsHold d → LawsHold (f d) ∧ d.sru.shift.toNat ≤ (f d).sru.shift.toNat) (every : actor c = none) : CommandKeeps c where
  laws d x := by
    rw [effect_of_act h]
    exact k (d.take c) ((KeepsLaws.take none c d).kept x).laws
  plant d o e := by rw [every] at e; cases e

theorem KeepsLaws.holds {who : Option Owner} {a b : Station} (h : KeepsLaws who a b) (x : LawsHold a) :
    LawsHold b ∧ a.sru.shift.toNat ≤ b.sru.shift.toNat := ⟨(h.kept x).laws, (h.kept x).number⟩

/-- A command by what it does to the station as it finds it. -/
theorem CommandKeeps.of_act {c : Instr} (f : Station → Station) (h : ∀ s, exec c s = act c f s)
    (k : ∀ d, KeepsLaws (actor c) d (f d)) : CommandKeeps c where
  laws d x := by
    rw [effect_of_act h]
    exact ((KeepsLaws.take _ c d).trans (k (d.take c))).holds x
  plant d o e := by
    rw [effect_of_act h]
    exact ((KeepsLaws.take _ c d).trans (k (d.take c))).plant o e

namespace KeepsLaws
variable {who : Option Owner}

theorem burnerRequest (f : BurnerCfg → Station → Station) (hf : ∀ c d, KeepsLaws who d (f c d)) (d : Station) :
    KeepsLaws who d (d.burnerRequest f) := by
  unfold Station.burnerRequest
  split
  · exact (refl d).answer ..
  · split
    · exact (refl d).answer ..
    · exact hf _ d

theorem feedRequest (ch : Byte) (f : Fin 2 → FeedCfg → Station → Station) (hf : ∀ i k d, KeepsLaws who d (f i k d)) (d : Station) :
    KeepsLaws who d (d.feedRequest ch f) := by
  unfold Station.feedRequest
  split
  · exact (refl d).answer ..
  · split
    · exact (refl d).answer ..
    · split
      · exact (refl d).answer ..
      · exact hf _ _ d

theorem coolerRequest (f : Station → Station) (hf : ∀ d, KeepsLaws who d (f d)) (d : Station) : KeepsLaws who d (d.coolerRequest f) := by
  unfold Station.coolerRequest
  split
  · exact (refl d).answer ..
  · split
    · exact (refl d).answer ..
    · exact hf d

theorem compRequest (comp : Byte) (f : Fin 4 → CompCfg → Station → Station) (hf : ∀ i k d, KeepsLaws who d (f i k d)) (d : Station) :
    KeepsLaws who d (d.compRequest comp f) :=
  coolerRequest _ (fun d => by
    split
    · exact (refl d).answer ..
    · exact hf _ _ d) d

variable {who : Option Owner} {a b : Station}

theorem ok (h : KeepsLaws who a b) : KeepsLaws who a b.ok := h.answer ..
theorem refuse (h : KeepsLaws who a b) (r : Reason) : KeepsLaws who a (b.refuse r) := h.answer ..
theorem wrongState (h : KeepsLaws who a b) : KeepsLaws who a b.wrongState := h.answer ..
theorem badField (h : KeepsLaws who a b) : KeepsLaws who a b.badField := h.answer ..
theorem notConfigured (h : KeepsLaws who a b) : KeepsLaws who a b.notConfigured := h.answer ..
theorem okWith (h : KeepsLaws who a b) (body : List Byte) : KeepsLaws who a (b.okWith body) := h.answer ..

end KeepsLaws

/-- A section is stored in CONFIG (R191). -/
theorem KeepsLaws.loadSection {who : Option Owner} {d : Station} (k : SectionKind) (inst : Nat) (bytes : List Byte) (off : d.ppt.started = false) :
    KeepsLaws who d (d.loadSection k inst bytes) := by
  unfold Station.loadSection
  split
  · exact (KeepsLaws.refl d).badField
  next vs _ =>
    split
    · exact (KeepsLaws.refl d).answer ..
    · have stored : KeepsLaws who d (d.onPpt fun p => { p with cfg := k.store inst vs p.cfg }) := .unstarted off rfl rfl rfl rfl rfl rfl rfl rfl
      refine KeepsLaws.ok ?_
      unfold SectionKind.configured
      split
      · dsimp only
        split
        · exact stored.onChannel _ _
        · exact stored
      · exact stored

/-- A shelf is no part of the laws (R165). -/
theorem KeepsLaws.shelvePoint {who : Option Owner} {a b : Station} (h : KeepsLaws who a b) (i : Fin 32) (till : Nat) :
    KeepsLaws who a ((b.onPoint i fun p => { p with shelf := some till, pending := false }).writeSummary) :=
  h.alarms ⟨List.prefix_refl _, BitVec.and_self, rfl⟩ rfl
    (fun x => (x.onPoint i (fun p => { p with shelf := some till, pending := false }) rfl).writeSummary)
    fun u => u.onPoint i (fun p => { p with shelf := some till, pending := false }) (fun _ => rfl) fun _ e => e

/-- A request to a peer is a notice in the queue (R163). -/
theorem KeepsLaws.remoteAck {who : Option Owner} (owner : Fin 16) (point occurrence : Byte) (d : Station) : KeepsLaws who d (d.remoteAck owner point occurrence) := by
  have stays := KeepsLaws.refl (who := who) d
  have told := stays.submit (.ackRequest (stationByte owner) point occurrence)
  unfold Station.remoteAck
  split
  · exact stays.answer ..
  · split_ifs
    · exact stays.answer ..
    · exact stays.answer ..
    · exact stays.answer ..
    · split
      next e => rw [e] at told; exact told.answer ..
      next e => rw [e] at told; exact told.answer ..

/-- A pulse is one of a burst that runs (R82). -/
theorem startPulse_calmer (now : Nat) (l : OutLine) : l.Calmer (l.startPulse now) := by
  unfold OutLine.startPulse
  split <;> exact ⟨rfl, id, id⟩

namespace CommandKeeps
open KeepsLaws

/-! ### The resets and the ring -/

theorem resetLineAssert : CommandKeeps .resetLineAssert := by
  refine .of_laws _ (fun _ => show execResetLineAssert _ = _ from rfl) (fun d x => ?_) rfl
  obtain ⟨-, -, -, shift⟩ := (lawsHold_iff _).1 x
  have kept := interrupt_kept d.sru
  exact ⟨(lawsHold_iff _).2 ⟨firstAlarms_law rfl rfl, fun _ => ⟨rfl, rfl, first_unset _⟩, mirrorLaw_nil _, kept.law shift⟩, kept.number⟩

theorem resetLineRelease : CommandKeeps .resetLineRelease := by
  refine .of_act _ (fun _ => show execResetLineRelease _ = _ from rfl) fun d => ?_
  split
  · exact onSru (b := { d with resetHeld := false }) ((KeepsLaws.refl d).same rfl) _ (.same rfl rfl (fun _ => rfl) rfl)
  · exact KeepsLaws.refl d

theorem trainArrival (body : List Byte) : CommandKeeps (.trainArrival body) :=
  .of_act _ (fun _ => show execTrainArrival body _ = _ from rfl) fun d => KeepsLaws.arrive d _

theorem frameOfUnknownType (t : Byte) : CommandKeeps (.frameOfUnknownType t) :=
  .of_act _ (fun _ => show execFrameOfUnknownType t _ = _ from rfl) fun d => (KeepsLaws.refl d).headError

theorem claimMarkArrival (body : List Byte) : CommandKeeps (.claimMarkArrival body) := by
  refine .of_act _ (fun _ => show execClaimMarkArrival body _ = _ from rfl) fun d => ?_
  split
  · exact KeepsLaws.refl d
  · split
    · exact KeepsLaws.refl d
    · exact arriveClaim d _

theorem breakMarkArrival (body : List Byte) : CommandKeeps (.breakMarkArrival body) := by
  refine .of_act _ (fun _ => show execBreakMarkArrival body _ = _ from rfl) fun d => ?_
  split
  · exact KeepsLaws.refl d
  · split
    · exact KeepsLaws.refl d
    · exact arriveBreak d _

theorem claimMarkSend : CommandKeeps .claimMarkSend := by
  refine .of_act _ (fun _ => show execClaimMarkSend _ = _ from rfl) fun d => ?_
  split
  · exact (KeepsLaws.refl d).sendClaim
  · exact KeepsLaws.refl d

theorem breakMarkSend : CommandKeeps .breakMarkSend := by
  refine .of_act _ (fun _ => show execBreakMarkSend _ = _ from rfl) fun d => ?_
  split
  · exact (KeepsLaws.refl d).sendBreak
  · exact KeepsLaws.refl d

theorem trainWatchExpiry : CommandKeeps .trainWatchExpiry := by
  refine .of_act _ (fun _ => show execTrainWatchExpiry _ = _ from rfl) fun d => ?_
  split
  · exact KeepsLaws.refl d
  · exact .trans (b := ((d.onLpc fun l => { l with watch := none }).onCounters fun c =>
      { c with trainsMissed := c.trainsMissed.bump }).contribute .trainMissed) ((KeepsLaws.refl d).same rfl) (watchExpired _)

theorem releaseTimerExpiry : CommandKeeps .releaseTimerExpiry := by
  refine .of_act _ (fun _ => show execReleaseTimerExpiry _ = _ from rfl) fun d => ?_
  split
  · split
    · exact (KeepsLaws.refl d).onLpc _
    · exact (KeepsLaws.refl d).release
  · exact KeepsLaws.refl d

theorem claimLimitExpiry : CommandKeeps .claimLimitExpiry := by
  refine .of_act _ (fun _ => show execClaimLimitExpiry _ = _ from rfl) fun d => ?_
  split
  next st =>
    have on := started_of_state (a := d) (by
      simp only [Bool.and_eq_true, Bool.or_eq_true, decide_eq_true_eq] at st
      rcases st.2 with st | st <;> rw [st] <;> decide)
    exact ((((KeepsLaws.refl d).onLpc _).onCounters _).loopState on _).sendBreak
  next => exact KeepsLaws.refl d

theorem loopGraceExpiry : CommandKeeps .loopGraceExpiry := by
  refine .of_act _ (fun _ => show execLoopGraceExpiry _ = _ from rfl) fun d => ?_
  split
  · exact (KeepsLaws.refl d).graceExpired
  · exact KeepsLaws.refl d

theorem noticeLossHoldExpiry : CommandKeeps .noticeLossHoldExpiry := by
  refine .of_act _ (fun _ => show execNoticeLossHoldExpiry _ = _ from rfl) fun d => ?_
  split
  · exact KeepsLaws.refl d
  · exact ((KeepsLaws.refl d).onLpc _).report ..

/-! ### Plant inputs and output lines -/

theorem pulsePinChange (ch : Fin 8) (level : Bool) : CommandKeeps (.pulsePinChange ch level) := by
  refine .of_act _ (fun _ => show execPulsePinChange ch level _ = _ from rfl) fun d => ?_
  dsimp only
  split
  · exact KeepsLaws.refl d
  · split
    · exact (KeepsLaws.refl d).onChannel _ _
    · exact (KeepsLaws.refl d).onChannel _ _

theorem acceptedEdge (ch : Fin 8) (level : Bool) : CommandKeeps (.acceptedEdge ch level) := by
  refine .of_act _ (fun _ => show execAcceptedEdge ch level _ = _ from rfl) fun d => ?_
  dsimp only
  split
  · exact KeepsLaws.refl d
  · split
    · exact KeepsLaws.refl d
    · have taken := (KeepsLaws.refl (who := some .noOwner) d).onChannel ch fun c => { c with pin := level, accepted := level, wait := none }
      split
      · exact taken.periodEdge _ _ _
      · exact taken.windowEdge _ _ _
      · exact taken.quadratureEdge _ _ _ _

theorem captureOverflow (ch : Fin 8) : CommandKeeps (.captureOverflow ch) := by
  refine .of_act _ (fun _ => show execCaptureOverflow ch _ = _ from rfl) fun d => ?_
  split
  · exact KeepsLaws.refl d
  · split
    · exact KeepsLaws.refl d
    · split
      · exact ((KeepsLaws.refl d).onChannel _ _).noSignalEvent _
      · exact ((KeepsLaws.refl d).onChannel _ _).noSignalEvent _
      · exact KeepsLaws.refl d

theorem stillTimerExpiry (pair : Fin 4) : CommandKeeps (.stillTimerExpiry pair) := by
  refine .of_act _ (fun _ => show execStillTimerExpiry pair _ = _ from rfl) fun d => ?_
  dsimp only
  split
  · exact KeepsLaws.refl d
  · split
    · exact KeepsLaws.refl d
    · exact ((KeepsLaws.refl d).onChannel _ _).raise _

theorem inputPinChange (line : Fin 12) (level : Bool) : CommandKeeps (.inputPinChange line level) := by
  refine .of_act _ (fun _ => show execInputPinChange line level _ = _ from rfl) fun d => ?_
  dsimp only
  have moved := (KeepsLaws.refl (who := some .noOwner) d).onInput line fun l => { l with pin := level }
  split
  · exact KeepsLaws.refl d
  · split
    · exact moved
    · split
      · exact moved
      · split
        · exact moved.onInput _ _
        · split
          · exact (moved.onInput _ _).changeLine line
          · exact moved.onInput _ _

theorem lineChange (line : Fin 12) : CommandKeeps (.lineChange line) :=
  .of_act _ (fun _ => show execLineChange line _ = _ from rfl) fun d => (KeepsLaws.refl d).changeLine line

theorem patternTimerExpiry (line : Fin 16) : CommandKeeps (.patternTimerExpiry line) := by
  refine .of_act _ (fun _ => show execPatternTimerExpiry line _ = _ from rfl) fun d => ?_
  dsimp only
  split
  · exact KeepsLaws.refl d
  · split
    · exact (KeepsLaws.refl d).onOut _ _
    · split
      · exact (KeepsLaws.refl d).onOut _ _
      · exact ((KeepsLaws.refl d).onOut _ _).setActiveValue _ _ _

theorem carrierPeriodStart (line : Fin 16) : CommandKeeps (.carrierPeriodStart line) := by
  refine .of_act _ (fun _ => show execCarrierPeriodStart line _ = _ from rfl) fun d => ?_
  split
  · exact KeepsLaws.refl d
  · exact (KeepsLaws.refl d).onOut _ _

theorem activePartEnd (line : Fin 16) : CommandKeeps (.activePartEnd line) := by
  refine .of_act _ (fun _ => show execActivePartEnd line _ = _ from rfl) fun d => ?_
  split
  · exact KeepsLaws.refl d
  · exact (KeepsLaws.refl d).onOut _ _

theorem igniterPulseWidthExpiry : CommandKeeps .igniterPulseWidthExpiry := by
  refine .of_act _ (fun _ => show execIgniterPulseWidthExpiry _ = _ from rfl) fun d => ?_
  split
  · exact KeepsLaws.refl d
  · split
    · exact KeepsLaws.refl d
    · refine (KeepsLaws.refl d).onOut _ _ fun l => ?_
      split
      · exact .goIdle l
      · exact ⟨rfl, id, id⟩

theorem igniterSpacingExpiry : CommandKeeps .igniterSpacingExpiry := by
  refine .of_act _ (fun _ => show execIgniterSpacingExpiry _ = _ from rfl) fun d => ?_
  split
  · exact KeepsLaws.refl d
  · split
    · exact KeepsLaws.refl d
    · exact (KeepsLaws.refl d).onOut _ _ (startPulse_calmer _)

theorem douForceStart : CommandKeeps .douForceStart :=
  .of_act _ (fun _ => show execDouForceStart _ = _ from rfl) fun d => KeepsLaws.forAll _ (fun i _ h => h.forceLine i) (KeepsLaws.refl d)

theorem douForceEnd : CommandKeeps .douForceEnd :=
  .of_act _ (fun _ => show execDouForceEnd _ = _ from rfl) fun d => KeepsLaws.forAll _ (fun i _ h => h.onOut i _) (KeepsLaws.refl d)

/-! ### The Burner Sequencer -/

theorem burnerStart : CommandKeeps .burnerStart := by
  refine .of_act _ (fun _ => show execBurnerStart _ = _ from rfl) fun d => ?_
  refine burnerRequest _ (fun c d => ?_) d
  split
  · exact (KeepsLaws.refl d).refuse _
  · exact ((KeepsLaws.refl d).noteMain.enterPurge c).ok

theorem burnerStop : CommandKeeps .burnerStop := by
  refine .of_act _ (fun _ => show execBurnerStop _ = _ from rfl) fun d => ?_
  refine burnerRequest _ (fun c d => ?_) d
  split
  · exact (KeepsLaws.refl d).wrongState
  · exact (KeepsLaws.refl d).wrongState
  · exact ((KeepsLaws.refl d).stopPurge _).ok
  · exact (KeepsLaws.refl d).ok
  · exact ((KeepsLaws.refl d).stopBurner _).ok

theorem lockoutReset : CommandKeeps .lockoutReset := by
  refine .of_act _ (fun _ => show execLockoutReset _ = _ from rfl) fun d => ?_
  refine burnerRequest _ (fun c d => ?_) d
  split_ifs
  · exact (KeepsLaws.refl d).wrongState
  · exact (KeepsLaws.refl d).refuse _
  · exact (KeepsLaws.refl d).refuse _
  · exact (KeepsLaws.refl d).refuse _
  · exact ((KeepsLaws.refl d).recordState .off 0).ok

theorem setHeatDemand (setpoint : Word) : CommandKeeps (.setHeatDemand setpoint) := by
  refine .of_act _ (fun _ => show execSetHeatDemand setpoint _ = _ from rfl) fun d => ?_
  refine burnerRequest _ (fun c d => ?_) d
  split
  · exact (KeepsLaws.refl d).badField
  · exact ((KeepsLaws.refl d).onBsq _).ok

theorem bsqScannerCapture (scanner : Fin 2) (period width : Nat) (tb : Timebase) : CommandKeeps (.bsqScannerCapture scanner period width tb) := by
  refine .of_act _ (fun _ => show execBsqScannerCapture scanner period width tb _ = _ from rfl) fun d => ?_
  split
  · exact KeepsLaws.refl d
  · split
    · exact KeepsLaws.refl d
    · dsimp only
      generalize hx : Station.onBsq _ d = x
      have judged : KeepsLaws (some .burnerSequencer) d x := hx ▸ (KeepsLaws.refl d).onBsq _
      split_ifs
      · exact judged
      · exact judged.goodCapture _ scanner
      · exact judged.badCapture scanner

theorem bsqScannerNoSignal (scanner : Fin 2) : CommandKeeps (.bsqScannerNoSignal scanner) := by
  refine .of_act _ (fun _ => show execBsqScannerNoSignal scanner _ = _ from rfl) fun d => ?_
  split
  · exact KeepsLaws.refl d
  · split
    · exact KeepsLaws.refl d
    · dsimp only
      split
      · exact (KeepsLaws.refl d).onBsq _
      · exact ((KeepsLaws.refl d).onBsq _).badCapture scanner

theorem flameFailTimerExpiry : CommandKeeps .flameFailTimerExpiry := by
  refine .of_act _ (fun _ => show execFlameFailTimerExpiry _ = _ from rfl) fun d => ?_
  split
  · exact KeepsLaws.refl d
  · exact (KeepsLaws.refl d).flameLost

theorem bsqAirFlowChange (active : Bool) : CommandKeeps (.bsqAirFlowChange active) := by
  refine .of_act _ (fun _ => show execBsqAirFlowChange active _ = _ from rfl) fun d => ?_
  split
  · exact KeepsLaws.refl d
  · split
    · split
      · exact (KeepsLaws.refl d).onBsq _
      · split
        · exact KeepsLaws.refl d
        · dsimp only
          split
          · exact ((KeepsLaws.refl d).onBsq _).trip _
          · exact (KeepsLaws.refl d).onBsq _
    · split
      · exact (KeepsLaws.refl d).trip _
      · exact KeepsLaws.refl d

theorem bsqIdFanChange (active : Bool) : CommandKeeps (.bsqIdFanChange active) := by
  refine .of_act _ (fun _ => show execBsqIdFanChange active _ = _ from rfl) fun d => ?_
  split
  · exact (KeepsLaws.refl d).stopPurge _
  · exact KeepsLaws.refl d

theorem bsqEstopChange (active : Bool) : CommandKeeps (.bsqEstopChange active) := by
  refine .of_act _ (fun _ => show execBsqEstopChange active _ = _ from rfl) fun d => ?_
  split
  · exact (KeepsLaws.refl d).trip _
  · exact KeepsLaws.refl d

theorem bsqPurgeTimerExpiry : CommandKeeps .bsqPurgeTimerExpiry := by
  refine .of_act _ (fun _ => show execBsqPurgeTimerExpiry _ = _ from rfl) fun d => ?_
  split
  · exact KeepsLaws.refl d
  · split
    · exact (KeepsLaws.refl d).enterPilot _
    · exact KeepsLaws.refl d

theorem bsqIgnitionTimerExpiry : CommandKeeps .bsqIgnitionTimerExpiry := by
  refine .of_act _ (fun _ => show execBsqIgnitionTimerExpiry _ = _ from rfl) fun d => ?_
  split
  · exact KeepsLaws.refl d
  · exact ((KeepsLaws.refl d).onBsq _).igniterEnd

theorem pilotTrialLimitExpiry : CommandKeeps .pilotTrialLimitExpiry := by
  refine .of_act _ (fun _ => show execPilotTrialLimitExpiry _ = _ from rfl) fun d => ?_
  split
  · exact KeepsLaws.refl d
  · exact (KeepsLaws.refl d).trip _

theorem mainTrialLimitExpiry : CommandKeeps .mainTrialLimitExpiry := by
  refine .of_act _ (fun _ => show execMainTrialLimitExpiry _ = _ from rfl) fun d => ?_
  split
  · exact KeepsLaws.refl d
  · exact (KeepsLaws.refl d).trip _

theorem postPurgeTimerExpiry : CommandKeeps .postPurgeTimerExpiry := by
  refine .of_act _ (fun _ => show execPostPurgeTimerExpiry _ = _ from rfl) fun d => ?_
  split
  · exact KeepsLaws.refl d
  · exact ((KeepsLaws.refl d).onBsq _).recordState .off 0

theorem shortfallTimerExpiry : CommandKeeps .shortfallTimerExpiry := by
  refine .of_act _ (fun _ => show execShortfallTimerExpiry _ = _ from rfl) fun d => ?_
  split
  · exact KeepsLaws.refl d
  · exact ((KeepsLaws.refl d).onBsq _).report ..

theorem coolerLossTimerExpiry : CommandKeeps .coolerLossTimerExpiry := by
  refine .of_act _ (fun _ => show execCoolerLossTimerExpiry _ = _ from rfl) fun d => ?_
  split
  · exact KeepsLaws.refl d
  · exact (KeepsLaws.refl d).trip _

theorem tripHoldExpiry (kind : HoldKind) : CommandKeeps (.tripHoldExpiry kind) := by
  refine .of_act _ (fun _ => show execTripHoldExpiry kind _ = _ from rfl) fun d => ?_
  split
  · exact KeepsLaws.refl d
  · dsimp only
    split
    · exact ((KeepsLaws.refl d).onBsq _).reportCooler
    · exact ((KeepsLaws.refl d).onBsq _).report ..

theorem firingSecondTimerExpiry : CommandKeeps .firingSecondTimerExpiry := by
  refine .of_act _ (fun _ => show execFiringSecondTimerExpiry _ = _ from rfl) fun d => ?_
  split
  · exact KeepsLaws.refl d
  · exact ((KeepsLaws.refl d).onBsq _).contribute _

theorem bsqFloorRefresh : CommandKeeps .bsqFloorRefresh := by
  refine .of_act _ (fun _ => show execBsqFloorRefresh _ = _ from rfl) fun d => ?_
  split
  · exact KeepsLaws.refl d
  · split
    · exact (KeepsLaws.refl d).burnerRefresh _
    · exact KeepsLaws.refl d

theorem bsqLeftUp : CommandKeeps .bsqLeftUp :=
  .of_act _ (fun _ => show execBsqLeftUp _ = _ from rfl) fun d => (KeepsLaws.refl d).softStop _

theorem bsqLoopGraceExpiry : CommandKeeps .bsqLoopGraceExpiry := by
  refine .of_act _ (fun _ => show execBsqLoopGraceExpiry _ = _ from rfl) fun d => ?_
  split
  · exact (KeepsLaws.refl d).trip _
  · exact KeepsLaws.refl d

theorem bsqPanelLapse : CommandKeeps .bsqPanelLapse :=
  .of_act _ (fun _ => show execBsqPanelLapse _ = _ from rfl) fun d => (KeepsLaws.refl d).softStop _

/-! ### The Feed Controller -/

theorem feedEnable (channel : Byte) : CommandKeeps (.feedEnable channel) := by
  refine .of_act _ (fun _ => show execFeedEnable channel _ = _ from rfl) fun d => ?_
  refine feedRequest channel _ (fun ch k d => ?_) d
  split_ifs
  · exact (KeepsLaws.refl d).wrongState
  · exact (KeepsLaws.refl d).refuse _
  · exact ((KeepsLaws.refl d).restFeed .ready ch k).ok

theorem feedDisable (channel : Byte) : CommandKeeps (.feedDisable channel) := by
  refine .of_act _ (fun _ => show execFeedDisable channel _ = _ from rfl) fun d => ?_
  refine feedRequest channel _ (fun ch k d => ?_) d
  split
  · exact (KeepsLaws.refl d).ok
  · exact ((KeepsLaws.refl d).restFeed .off ch k).ok

theorem feedClearFault (channel : Byte) : CommandKeeps (.feedClearFault channel) := by
  refine .of_act _ (fun _ => show execFeedClearFault channel _ = _ from rfl) fun d => ?_
  refine feedRequest channel _ (fun ch k d => ?_) d
  split_ifs
  · exact (KeepsLaws.refl d).wrongState
  · exact (KeepsLaws.refl d).refuse _
  · exact ((KeepsLaws.refl d).restFeed .ready ch k).ok

theorem calorificUpdate (channel : Byte) (cv : Half) : CommandKeeps (.calorificUpdate channel cv) := by
  refine .of_act _ (fun _ => show execCalorificUpdate channel cv _ = _ from rfl) fun d => ?_
  refine feedRequest channel _ (fun ch k d => ?_) d
  split
  · exact (KeepsLaws.refl d).badField
  · exact ((KeepsLaws.refl d).onFeed ch _).ok

theorem fdcFloorRefresh : CommandKeeps .fdcFloorRefresh :=
  .of_act _ (fun _ => show execFdcFloorRefresh _ = _ from rfl) fun d => (KeepsLaws.refl d).feedRefresh

theorem fdcWeigherWindow (ch : Fin 2) (ticks count : Nat) (overflow : Bool) (tb : Timebase) : CommandKeeps (.fdcWeigherWindow ch ticks count overflow tb) := by
  refine .of_act _ (fun _ => show execFdcWeigherWindow ch ticks count overflow tb _ = _ from rfl) fun d => ?_
  split
  · exact KeepsLaws.refl d
  next k _ =>
    refine recomputeDelivered ?_ ch k
    have counted := (KeepsLaws.refl (who := some .feedController) d).contribute (.fuel ch (count * k.pulseWeight) (count * k.pulseWeight * (d.fdc.channels[ch]'ch.isLt).cv / 1000))
    have closed : KeepsLaws (some .feedController) d (if (d.fdc.channels[ch]'ch.isLt).openLoop then
        ((d.contribute (.fuel ch (count * k.pulseWeight) (count * k.pulseWeight * (d.fdc.channels[ch]'ch.isLt).cv / 1000))).onFeed ch fun c =>
          { c with openLoop := false }).report .weigherSilent (ch.val + 1) false
        else d.contribute (.fuel ch (count * k.pulseWeight) (count * k.pulseWeight * (d.fdc.channels[ch]'ch.isLt).cv / 1000))) := by
      split
      · exact (counted.onFeed _ _).report ..
      · exact counted
    split
    · split
      · exact ((closed.onFeed _ _).onFeed _ _).updateFine ch k
      · exact closed.onFeed _ _
    · exact closed

theorem fdcWeigherNoSignal (ch : Fin 2) : CommandKeeps (.fdcWeigherNoSignal ch) := by
  refine .of_act _ (fun _ => show execFdcWeigherNoSignal ch _ = _ from rfl) fun d => ?_
  split
  · exact KeepsLaws.refl d
  · split
    · exact (((KeepsLaws.refl d).onFeed _ _).report ..).recomputeDelivered _ _
    · exact KeepsLaws.refl d

theorem fdcDirectionChange (ch : Fin 2) (direction : Direction) (position : Half) : CommandKeeps (.fdcDirectionChange ch direction position) := by
  refine .of_act _ (fun _ => show execFdcDirectionChange ch direction position _ = _ from rfl) fun d => ?_
  split
  · exact KeepsLaws.refl d
  · split
    · exact (KeepsLaws.refl d).faultFeed _ _ _
    · exact KeepsLaws.refl d

theorem fdcIndex (ch : Fin 2) (first : Bool) (counts : Nat) : CommandKeeps (.fdcIndex ch first counts) := by
  refine .of_act _ (fun _ => show execFdcIndex ch first counts _ = _ from rfl) fun d => ?_
  split
  · exact KeepsLaws.refl d
  · exact (KeepsLaws.refl d).contribute _

theorem fdcStill (ch : Fin 2) (position : Half) : CommandKeeps (.fdcStill ch position) := by
  refine .of_act _ (fun _ => show execFdcStill ch position _ = _ from rfl) fun d => ?_
  split
  · exact KeepsLaws.refl d
  · split
    · exact (KeepsLaws.refl d).faultFeed _ _ _
    · exact KeepsLaws.refl d

theorem fdcActiveValueChange (ch : Fin 2) (value : Nat) (cause : ChangeCause) : CommandKeeps (.fdcActiveValueChange ch value cause) := by
  refine .of_act _ (fun _ => show execFdcActiveValueChange ch value cause _ = _ from rfl) fun d => ?_
  split
  · exact KeepsLaws.refl d
  · exact ((KeepsLaws.refl d).onFeed _ _).recomputeDelivered _ _

theorem fdcEstopChange (active : Bool) : CommandKeeps (.fdcEstopChange active) := by
  refine .of_act _ (fun _ => show execFdcEstopChange active _ = _ from rfl) fun d => ?_
  split
  · exact (KeepsLaws.refl d).eachFeed _ fun ch k _ h => h.faultFeed .estop ch k
  · exact KeepsLaws.refl d

theorem fdcLeftUp : CommandKeeps .fdcLeftUp := by
  refine .of_act _ (fun _ => show execFdcLeftUp _ = _ from rfl) fun d => ?_
  refine (KeepsLaws.refl d).eachFeed _ fun ch k x h => ?_
  split
  · exact (h.onFeed ch _).recomputeDelivered ch k
  · exact h

theorem fdcLoopGraceExpiry : CommandKeeps .fdcLoopGraceExpiry := by
  refine .of_act _ (fun _ => show execFdcLoopGraceExpiry _ = _ from rfl) fun d => ?_
  refine (KeepsLaws.refl d).eachFeed _ fun ch k x h => ?_
  split
  · exact h.onFeed ch _
  · exact h

theorem fdcEnteredUp : CommandKeeps .fdcEnteredUp := by
  refine .of_act _ (fun _ => show execFdcEnteredUp _ = _ from rfl) fun d => ?_
  refine (KeepsLaws.refl d).eachFeed _ fun ch k x h => ?_
  split
  · exact h.onFeed ch _
  · exact h

theorem runDownTimerExpiry (ch : Fin 2) : CommandKeeps (.runDownTimerExpiry ch) := by
  refine .of_act _ (fun _ => show execRunDownTimerExpiry ch _ = _ from rfl) fun d => ?_
  split
  · exact KeepsLaws.refl d
  next k _ =>
    split
    · exact KeepsLaws.refl d
    · have lowered (f : FeedChannel → FeedChannel) := ((KeepsLaws.refl d).onFeed ch f).updateFine ch k
      dsimp only
      split
      · exact (lowered _).restFeed .ready ch k
      · exact (lowered _).onFeed ch _

theorem runningSecondTimerExpiry (ch : Fin 2) : CommandKeeps (.runningSecondTimerExpiry ch) := by
  refine .of_act _ (fun _ => show execRunningSecondTimerExpiry ch _ = _ from rfl) fun d => ?_
  split
  · exact KeepsLaws.refl d
  · exact ((KeepsLaws.refl d).onFeed ch _).contribute _

/-! ### The Grate Cooler Controller -/

theorem coolerEnable (compartment : Byte) : CommandKeeps (.coolerEnable compartment) := by
  refine .of_act _ (fun _ => show execCoolerEnable compartment _ = _ from rfl) fun d => ?_
  refine compRequest compartment _ (fun i k d => ?_) d
  dsimp only
  split
  · split
    · exact (KeepsLaws.refl d).refuse _
    · exact (((KeepsLaws.refl d).onComp i _).rest i).ok
  · split
    · exact ((KeepsLaws.refl d).onComp i _).ok
    · exact (KeepsLaws.refl d).wrongState

theorem coolerDisable (compartment : Byte) : CommandKeeps (.coolerDisable compartment) := by
  refine .of_act _ (fun _ => show execCoolerDisable compartment _ = _ from rfl) fun d => ?_
  refine compRequest compartment _ (fun i k d => ?_) d
  split
  · exact (KeepsLaws.refl d).ok
  · exact ((KeepsLaws.refl d).onComp i _).stageCooler.ok
  · exact (((KeepsLaws.refl d).onComp i _).onGcc _).stageCooler.ok
  · exact (KeepsLaws.refl d).wrongState
  · exact ((KeepsLaws.refl d).onComp i _).ok

theorem setStrokeBase (compartment : Byte) (rate : Half) : CommandKeeps (.setStrokeBase compartment rate) := by
  refine .of_act _ (fun _ => show execSetStrokeBase compartment rate _ = _ from rfl) fun d => ?_
  refine compRequest compartment _ (fun i k d => ?_) d
  split
  · exact (KeepsLaws.refl d).badField
  · exact ((KeepsLaws.refl d).onComp i _).ok

theorem grateClearFault (compartment : Byte) : CommandKeeps (.grateClearFault compartment) := by
  refine .of_act _ (fun _ => show execGrateClearFault compartment _ = _ from rfl) fun d => ?_
  refine compRequest compartment _ (fun i k d => ?_) d
  dsimp only
  split_ifs
  · exact (KeepsLaws.refl d).wrongState
  · exact (KeepsLaws.refl d).refuse _
  · exact (KeepsLaws.refl d).refuse _
  · exact ((((KeepsLaws.refl d).onComp i _).reportTimeout i false).reportConflict i false).stageCooler.ok

theorem setFan (fan : Byte) (reference : Half) : CommandKeeps (.setFan fan reference) := by
  refine .of_act _ (fun _ => show execSetFan fan reference _ = _ from rfl) fun d => ?_
  refine coolerRequest _ (fun d => ?_) d
  split
  · exact (KeepsLaws.refl d).badField
  · split
    · exact (KeepsLaws.refl d).badField
    · exact ((KeepsLaws.refl d).command (setPreload_command ..)).ok

theorem dueTimeReached (comp : Fin 4) : CommandKeeps (.dueTimeReached comp) := by
  refine .of_act _ (fun _ => show execDueTimeReached comp _ = _ from rfl) fun d => ?_
  split
  · exact (KeepsLaws.refl d).wait comp
  · exact KeepsLaws.refl d

theorem gccEndForwardChange (comp : Fin 4) (active : Bool) : CommandKeeps (.gccEndForwardChange comp active) := by
  refine .of_act _ (fun _ => show execGccEndForwardChange comp active _ = _ from rfl) fun d => ?_
  split
  · exact KeepsLaws.refl d
  · have noted := (KeepsLaws.refl d).onComp comp fun c => { c with endForward := active }
    dsimp only
    split
    · exact noted
    · split
      · exact noted.limitConflict comp
      · split
        · exact noted.endForward comp _
        · exact noted

theorem gccEndReturnChange (comp : Fin 4) (active : Bool) : CommandKeeps (.gccEndReturnChange comp active) := by
  refine .of_act _ (fun _ => show execGccEndReturnChange comp active _ = _ from rfl) fun d => ?_
  split
  · exact KeepsLaws.refl d
  · have noted := (KeepsLaws.refl d).onComp comp fun c => { c with endReturn := active }
    dsimp only
    split
    · exact noted
    · split
      · exact noted.limitConflict comp
      · split
        · exact noted.endReturn comp
        · exact noted

theorem forwardLimitExpiry (comp : Fin 4) : CommandKeeps (.forwardLimitExpiry comp) := by
  refine .of_act _ (fun _ => show execForwardLimitExpiry comp _ = _ from rfl) fun d => ?_
  split
  · exact KeepsLaws.refl d
  · split
    · exact KeepsLaws.refl d
    · exact (((((KeepsLaws.refl d).strokeOff _ comp).onComp comp _).reportTimeout comp true).releaseGrant comp).startReturn comp _

theorem dwellExpiry (comp : Fin 4) : CommandKeeps (.dwellExpiry comp) := by
  refine .of_act _ (fun _ => show execDwellExpiry comp _ = _ from rfl) fun d => ?_
  split
  · exact KeepsLaws.refl d
  · split
    · exact (KeepsLaws.refl d).startReturn comp _
    · exact KeepsLaws.refl d

theorem returnLimitExpiry (comp : Fin 4) : CommandKeeps (.returnLimitExpiry comp) := by
  refine .of_act _ (fun _ => show execReturnLimitExpiry comp _ = _ from rfl) fun d => ?_
  split
  · exact (((KeepsLaws.refl d).faultComp _ comp).reportTimeout comp true).grant
  · exact KeepsLaws.refl d

theorem gccEstopChange (active : Bool) : CommandKeeps (.gccEstopChange active) := by
  refine .of_act _ (fun _ => show execGccEstopChange active _ = _ from rfl) fun d => ?_
  split
  · exact KeepsLaws.refl d
  · refine KeepsLaws.forAll _ (fun i x h => ?_) ((KeepsLaws.refl d).onGcc _)
    split
    · exact h.faultComp .estop i
    · exact h

theorem gccPressureCapture (comp : Fin 4) (period width : Nat) (tb : Timebase) : CommandKeeps (.gccPressureCapture comp period width tb) := by
  refine .of_act _ (fun _ => show execGccPressureCapture comp period width tb _ = _ from rfl) fun d => ?_
  split
  · exact KeepsLaws.refl d
  · split
    · exact KeepsLaws.refl d
    · exact (((KeepsLaws.refl d).onComp comp _).handPressure _ _).onComp comp _ fun _ => by split <;> rfl

theorem gccPressureNoSignal (comp : Fin 4) : CommandKeeps (.gccPressureNoSignal comp) := by
  refine .of_act _ (fun _ => show execGccPressureNoSignal comp _ = _ from rfl) fun d => ?_
  split
  · exact KeepsLaws.refl d
  · exact (((KeepsLaws.refl d).onComp comp _).handPressure _ _).onComp comp _ fun _ => by split <;> rfl

theorem gccFloorRefresh : CommandKeeps .gccFloorRefresh :=
  .of_act _ (fun _ => show execGccFloorRefresh _ = _ from rfl) fun d => KeepsLaws.forAll _ (fun i _ h => h.judgeMode i) (KeepsLaws.refl d)

theorem gccFanActiveValueChange (fan : Fin 4) (value : Nat) (cause : ChangeCause) : CommandKeeps (.gccFanActiveValueChange fan value cause) := by
  refine .of_act _ (fun _ => show execGccFanActiveValueChange fan value cause _ = _ from rfl) fun d => ?_
  have noted := (KeepsLaws.refl (who := some .grateCooler) d).onGcc fun g => { g with fans := vecModify g.fans fan fun _ => value }
  dsimp only
  split
  · split
    · exact noted
    · exact noted.onGcc _
  · exact noted.onGcc _

theorem fanRunSecondTimerExpiry : CommandKeeps .fanRunSecondTimerExpiry := by
  refine .of_act _ (fun _ => show execFanRunSecondTimerExpiry _ = _ from rfl) fun d => ?_
  split
  · exact KeepsLaws.refl d
  · exact ((KeepsLaws.refl d).onGcc _).contribute _

/-! ### The Alarm Unit -/

theorem onDelayExpiry (point : Fin 32) : CommandKeeps (.onDelayExpiry point) := by
  refine .of_act _ (fun _ => show execOnDelayExpiry point _ = _ from rfl) fun d => ?_
  split
  next e => exact moves_set (KeepsLaws.refl d) ((MovesPoints.refl d).qualify point) (fun x => x.qualify point) fun u => absurd ((u.delay point).symm.trans e) (by simp)
  · exact KeepsLaws.refl d

theorem offDelayExpiry (point : Fin 32) : CommandKeeps (.offDelayExpiry point) := by
  refine .of_act _ (fun _ => show execOffDelayExpiry point _ = _ from rfl) fun d => ?_
  split
  next e => exact moves_set (KeepsLaws.refl d) ((MovesPoints.refl d).unqualify point) (fun x => x.unqualify point) fun u => absurd ((u.delay point).symm.trans e) (by simp)
  · exact KeepsLaws.refl d

theorem almPlaceFree : CommandKeeps .almPlaceFree :=
  .of_act _ (fun _ => show execAlmPlaceFree _ = _ from rfl) fun d => (KeepsLaws.refl d).resubmit

theorem recentRaiseExpiry : CommandKeeps .recentRaiseExpiry := by
  refine .of_act _ (fun _ => show execRecentRaiseExpiry _ = _ from rfl) fun d => ?_
  have shorter : KeepsLaws (some .noOwner) d (d.onAlm fun a => { a with recent := a.recent.tail }) :=
    (KeepsLaws.refl d).alarms ⟨by simp, by simp, rfl⟩ rfl (fun x => ⟨x.queue, x.active, by simpa using x.recent.trans (by omega)⟩)
      fun u => ⟨u.cfg, u.delay, u.active⟩
  split
  · exact KeepsLaws.refl d
  · dsimp only
    split
    · refine KeepsLaws.resubmit ?_
      exact shorter.alarms ⟨by simp [Station.writeSummary], by simp [Station.writeSummary], rfl⟩ rfl
        (fun x => x.keep rfl rfl (fun _ => rfl) rfl) fun u => ⟨u.cfg, u.delay, u.active⟩
    · exact shorter

theorem almFloorRefresh : CommandKeeps .almFloorRefresh := by
  refine .of_act _ (fun _ => show execAlmFloorRefresh _ = _ from rfl) fun d => ?_
  have checked : KeepsLaws (some .noOwner) d ((d.inView.map (·.1)).foldl (fun x i => if i = x.own then x else x.checkEpoch i) d) :=
    List.foldlRecOn (motive := KeepsLaws (some .noOwner) d) _ _ (KeepsLaws.refl d) fun x hx i _ => by
      split
      · exact hx
      · exact hx.checkEpoch i
  exact checked.setMirror_less (fun e => by rw [e]; rfl) fun m => m.marked _

theorem ackAlarm (station point occurrence : Byte) : CommandKeeps (.ackAlarm station point occurrence) := by
  refine .of_act _ (fun _ => show execAckAlarm station point occurrence _ = _ from rfl) fun d => ?_
  by_cases started : d.ppt.started = true
  case neg => rw [if_pos (by simp [started])]; exact (KeepsLaws.refl d).wrongState
  case pos =>
    have on : LawsHold d → d.ppt.started = true := fun _ => started
    rw [if_neg (by simp [started])]
    split
    · exact (KeepsLaws.refl d).badField
    · split_ifs
      · exact (KeepsLaws.refl d).badField
      · unfold Station.ownAck
        split
        · exact (KeepsLaws.refl d).badField
        · split
          · exact (KeepsLaws.refl d).answer ..
          · exact ((KeepsLaws.refl d).ackPoint on _).ok
      · exact KeepsLaws.remoteAck _ _ _ d

theorem shelve (point : Byte) (minutes : Half) : CommandKeeps (.shelve point minutes) := by
  refine .of_act _ (fun _ => show execShelve point minutes _ = _ from rfl) fun d => ?_
  split
  · exact (KeepsLaws.refl d).wrongState
  · split
    · exact (KeepsLaws.refl d).badField
    next i _ =>
      split_ifs
      · exact (KeepsLaws.refl d).badField
      · exact (KeepsLaws.refl d).refuse _
      · exact ((KeepsLaws.refl d).shelvePoint i _).ok

theorem unshelve (point : Byte) : CommandKeeps (.unshelve point) := by
  refine .of_act _ (fun _ => show execUnshelve point _ = _ from rfl) fun d => ?_
  split
  · exact (KeepsLaws.refl d).wrongState
  · split
    · exact (KeepsLaws.refl d).badField
    · exact ((KeepsLaws.refl d).unshelvePoint _).ok

theorem shelfExpiry (point : Fin 32) : CommandKeeps (.shelfExpiry point) :=
  .of_act _ (fun _ => show execShelfExpiry point _ = _ from rfl) fun d => (KeepsLaws.refl d).unshelvePoint point

theorem readAlarms (page : Byte) : CommandKeeps (.readAlarms page) := by
  refine .of_act _ (fun _ => show execReadAlarms page _ = _ from rfl) fun d => ?_
  split_ifs
  · exact (KeepsLaws.refl d).wrongState
  · exact (KeepsLaws.refl d).badField
  · exact (KeepsLaws.refl d).okWith _

theorem readMirror (page : Byte) : CommandKeeps (.readMirror page) := by
  refine .of_act _ (fun _ => show execReadMirror page _ = _ from rfl) fun d => ?_
  split_ifs
  · exact (KeepsLaws.refl d).wrongState
  · exact (KeepsLaws.refl d).badField
  · exact (KeepsLaws.refl d).okWith _

/-! ### The Shift Report Unit -/

theorem secondTimerExpiry : CommandKeeps .secondTimerExpiry := by
  refine .of_act _ (fun _ => show execSecondTimerExpiry _ = _ from rfl) fun d => ?_
  have clock := (KeepsLaws.refl (who := some .noOwner) d).onSru (fun r => { r with time := r.time + 1, second := some (d.inSec 1) }) (.same rfl rfl (fun _ => rfl) rfl)
  split
  · exact KeepsLaws.refl d
  · dsimp only
    split
    · exact clock.crossing
    · exact clock

theorem notUpSecondTimerExpiry : CommandKeeps .notUpSecondTimerExpiry := by
  refine .of_act _ (fun _ => show execNotUpSecondTimerExpiry _ = _ from rfl) fun d => ?_
  split
  · exact KeepsLaws.refl d
  · exact (KeepsLaws.refl d).onSru _ (.same rfl rfl (fun _ => rfl) rfl)

theorem sruContribution (c : Contribution) : CommandKeeps (.sruContribution c) :=
  .of_act _ (fun _ => show execSruContribution c _ = _ from rfl) fun d => (KeepsLaws.refl d).onSru _ (Sru.take_kept c d.sru)

theorem sruFloorRefresh : CommandKeeps .sruFloorRefresh := by
  refine .of_act _ (fun _ => show execSruFloorRefresh _ = _ from rfl) fun d => ?_
  have looked := (KeepsLaws.refl (who := some .noOwner) d).onSru (fun r => { r with skipRefresh := false }) (.same rfl rfl (fun _ => rfl) rfl)
  dsimp only
  split
  · exact looked.examineReport
  · exact looked

theorem sruLeftUp : CommandKeeps .sruLeftUp :=
  .of_act _ (fun _ => show execSruLeftUp _ = _ from rfl) fun d => ((KeepsLaws.refl d).completeReport).onSru _ (.same rfl rfl (fun _ => rfl) rfl)

theorem sruEnteredUp : CommandKeeps .sruEnteredUp :=
  .of_act _ (fun _ => show execSruEnteredUp _ = _ from rfl) fun d => (KeepsLaws.refl d).onSru _ (.same rfl rfl (fun _ => rfl) rfl)

theorem setFloorTime (time : Word) : CommandKeeps (.setFloorTime time) := by
  refine .of_act _ (fun _ => show execSetFloorTime time _ = _ from rfl) fun d => ?_
  have told := (KeepsLaws.refl (who := some .noOwner) d).submit (.timeSet time)
  split
  · exact (KeepsLaws.refl d).wrongState
  · split
    next e => rw [e] at told; exact told.ok
    next e => rw [e] at told; exact told.answer ..

theorem readReport (age offset : Byte) : CommandKeeps (.readReport age offset) := by
  refine .of_act _ (fun _ => show execReadReport age offset _ = _ from rfl) fun d => ?_
  split
  · exact (KeepsLaws.refl d).badField
  · split
    · exact (KeepsLaws.refl d).refuse _
    · split
      · exact (KeepsLaws.refl d).badField
      · exact (KeepsLaws.refl d).okWith _

/-! ### The Panel Port -/

theorem selectAssert : CommandKeeps .selectAssert := by
  refine .of_act _ (fun _ => show execSelectAssert _ = _ from rfl) fun d => ?_
  split
  · exact KeepsLaws.refl d
  · exact (KeepsLaws.refl d).onPpt _

theorem selectRelease (bytesIn : List Byte) : CommandKeeps (.selectRelease bytesIn) := by
  refine .of_act _ (fun _ => show execSelectRelease bytesIn _ = _ from rfl) fun d => ?_
  split
  · exact KeepsLaws.refl d
  next o _ =>
    have sent := (KeepsLaws.refl (who := some .noOwner) d).onPpt fun p => { p with outgoing := none, clockedOut := o.clocked bytesIn.length }
    dsimp only
    split
    · exact sent
    · exact (sent.clearSent _).onPpt _
    · exact (sent.clearSent _).takeRecord _ _ _

theorem configure (kind inst : Byte) (fields : List Byte) : CommandKeeps (.configure kind inst fields) := by
  refine .of_act _ (fun _ => show execConfigure kind inst fields _ = _ from rfl) fun d => ?_
  split
  · exact (KeepsLaws.refl d).wrongState
  next off =>
    split
    · exact (KeepsLaws.refl d).badField
    · split
      · exact KeepsLaws.loadSection _ _ _ (by simpa using off)
      · exact (KeepsLaws.refl d).badField

theorem start : CommandKeeps .start := by
  refine .of_laws _ (fun _ => show execStart _ = _ from rfl) (fun d x => ?_) rfl
  split
  · exact ((KeepsLaws.refl (who := none) d).wrongState).holds x
  next off =>
    split
    · exact ((KeepsLaws.refl (who := none) d).answer ..).holds x
    · obtain ⟨laws, number⟩ := acceptStart_laws d (by simpa using off) x
      obtain ⟨answered, still⟩ := ((KeepsLaws.refl (who := none) d.acceptStart).ok).holds laws
      exact ⟨answered, number.trans still⟩

theorem service : CommandKeeps .service := by
  refine .of_act _ (fun _ => show execService _ = _ from rfl) fun d => ?_
  split
  · exact (KeepsLaws.refl d).wrongState
  · exact ((((KeepsLaws.refl d).onPpt _).stagePanel.report .panelAbsent 0 false).startPeriod).ok
  · exact (KeepsLaws.refl d).lapse.refuse _
  · exact (KeepsLaws.refl d).startPeriod.ok

theorem serviceOpenPoint : CommandKeeps .serviceOpenPoint := by
  refine .of_act _ (fun _ => show execServiceOpenPoint _ = _ from rfl) fun d => ?_
  split
  · exact (KeepsLaws.refl d).onPpt _
  · exact KeepsLaws.refl d

theorem servicePeriodExpiry : CommandKeeps .servicePeriodExpiry := by
  refine .of_act _ (fun _ => show execServicePeriodExpiry _ = _ from rfl) fun d => ?_
  split
  · exact (KeepsLaws.refl d).lapse
  · exact KeepsLaws.refl d

theorem readEvents : CommandKeeps .readEvents :=
  .of_act _ (fun _ => show execReadEvents _ = _ from rfl) fun d => ((KeepsLaws.refl d).onPpt _).okWith _

theorem readResetCause : CommandKeeps .readResetCause :=
  .of_act _ (fun _ => show execReadResetCause _ = _ from rfl) fun d => ((KeepsLaws.refl d).onPpt _).okWith _

/-- A duty's part is answered and changes nothing (R198). -/
theorem dutyPart (d : Station) (sel : Byte) (body : Option (List Byte)) : KeepsLaws (some .noOwner) d (d.dutyPart sel body) := by
  unfold Station.dutyPart
  split
  · exact (KeepsLaws.refl d).wrongState
  · split
    · exact (KeepsLaws.refl d).okWith _
    · exact (KeepsLaws.refl d).notConfigured

theorem readStatus (part : Byte) : CommandKeeps (.readStatus part) := by
  refine .of_act _ (fun _ => show execReadStatus part _ = _ from rfl) fun d => ?_
  split
  · exact (KeepsLaws.refl d).okWith _
  · exact (KeepsLaws.refl d).okWith _
  · exact (KeepsLaws.refl d).okWith _
  · exact dutyPart d _ _
  · exact dutyPart d _ _
  · exact dutyPart d _ _
  · exact dutyPart d _ _
  · exact dutyPart d _ _
  · exact (KeepsLaws.refl d).badField

theorem readCounters : CommandKeeps .readCounters :=
  .of_act _ (fun _ => show execReadCounters _ = _ from rfl) fun d => ((KeepsLaws.refl d).onCounters _).okWith _

theorem readFloor (station : Byte) : CommandKeeps (.readFloor station) := by
  refine .of_act _ (fun _ => show execReadFloor station _ = _ from rfl) fun d => ?_
  split
  · exact (KeepsLaws.refl d).badField
  · exact (KeepsLaws.refl d).okWith _

theorem readBreak : CommandKeeps .readBreak :=
  .of_act _ (fun _ => show execReadBreak _ = _ from rfl) fun d => (KeepsLaws.refl d).okWith _

theorem readInput (selector : Byte) : CommandKeeps (.readInput selector) := by
  refine .of_act _ (fun _ => show execReadInput selector _ = _ from rfl) fun d => ?_
  split_ifs
  · exact (KeepsLaws.refl d).okWith _
  · exact (KeepsLaws.refl d).okWith _
  · exact (KeepsLaws.refl d).badField

theorem readOutput (selector : Byte) : CommandKeeps (.readOutput selector) := by
  refine .of_act _ (fun _ => show execReadOutput selector _ = _ from rfl) fun d => ?_
  split_ifs
  · exact (KeepsLaws.refl d).okWith _
  · exact (KeepsLaws.refl d).okWith _
  · exact (KeepsLaws.refl d).badField

end CommandKeeps

end Sys2Proof.Machine
end

section
/-! SUPPORT. The step of the machine by the command it takes: what the part takes next by itself, the run that never stops. -/

set_option Elab.async false

namespace Sys2Proof.Machine

/-! ## The command a step takes -/

/-- Which of several events is taken is one of them. -/
theorem pickEvent_mem (d : Station) (c : Instr) (rest : List Instr) : d.pickEvent c rest ∈ c :: rest := by
  unfold Station.pickEvent
  have within : Config.pick d.draws % (rest.length + 1) < (c :: rest).length := Nat.mod_lt _ (Nat.succ_pos _)
  rw [List.getD_eq_getElem _ _ within]
  exact List.getElem_mem _

/-- A step takes the command that waits, an own event of the part, or one tick. -/
theorem step_cases {s t : State} (h : step s = .next t) :
    (∃ c rest, s.pending = c :: rest ∧ t.dev = effect c s.dev) ∨
    (s.pending = [] ∧ t.dev = s.dev.tick) ∨
    (s.pending = [] ∧ ∃ c ∈ s.dev.ownEvents, t.dev = effect c s.dev ∨ t.dev = effect c s.dev.drawn) := by
  unfold step at h
  split at h
  next none =>
    unfold idle at h
    split at h
    next => cases h; exact .inr (.inl ⟨none, rfl⟩)
    next c e =>
      rw [exec_effect] at h
      cases h
      exact .inr (.inr ⟨none, c, by rw [e]; exact List.mem_singleton_self c, .inl rfl⟩)
    next c rest _ e =>
      rw [exec_effect] at h
      cases h
      exact .inr (.inr ⟨none, _, by rw [e]; exact pickEvent_mem _ _ _, .inr rfl⟩)
  next c rest e =>
    rw [exec_effect] at h
    cases h
    exact .inl ⟨c, rest, e, rfl⟩

/-- Every step answers a next state. -/
theorem step_next (s : State) : ∃ t, step s = .next t := by
  unfold step idle
  split
  · split
    · exact ⟨_, rfl⟩
    · exact ⟨_, exec_effect _ _⟩
    · exact ⟨_, exec_effect _ _⟩
  · exact ⟨_, exec_effect _ _⟩

/-! ## What the part takes by itself is no power-on -/

theorem frontEvents_sublist (seen : List Nat) (l : List Instr) : (frontEvents seen l).Sublist l := by
  induction l generalizing seen with
  | nil => exact .slnil
  | cons c l ih =>
    unfold frontEvents
    split
    · exact (ih _).cons _
    · exact (ih _).cons_cons _

theorem notMem_dueAt {c x : Instr} (ne : x ≠ c) (now : Nat) (t : Option Nat) : x ∉ dueAt now t c := by
  unfold dueAt
  split
  · split
    · simpa using ne
    · simp
  · simp

theorem powerOn_notMem_channel (now : Nat) (i : Fin 8) (k : Option ChannelCfg) (c : Channel) : .powerOn ∉ c.due now i k := by
  unfold Channel.due
  split
  · simp
  · split
    · simp
    · rw [List.mem_append]
      rintro (h | h)
      · split at h
        · split at h <;> simp at h
        · simp at h
      · split at h <;> simp at h

theorem powerOn_notMem_inputs (d : Station) : .powerOn ∉ d.dueInputs := by
  simp [Station.dueInputs, powerOn_notMem_channel, notMem_dueAt]

theorem powerOn_notMem_outputs (d : Station) : .powerOn ∉ d.dueOutputs := by
  unfold Station.dueOutputs
  split <;> simp [notMem_dueAt]

theorem powerOn_notMem_comp (now : Nat) (i : Fin 4) (c : Compartment) : .powerOn ∉ c.dueNow now i := by
  unfold Compartment.dueNow
  split <;> simp [notMem_dueAt]

theorem powerOn_notMem_cooler (now : Nat) (g : Gcc) : .powerOn ∉ g.due now := by
  simp only [Gcc.due, List.mem_append, List.mem_flatMap, not_or, not_exists, not_and]
  refine ⟨fun i _ => ?_, notMem_dueAt (by simp) _ _⟩
  split
  · exact powerOn_notMem_comp _ _ _
  · simp

theorem powerOn_notMem_point (now : Nat) (i : Fin 32) (p : Point) : .powerOn ∉ p.due now i := by
  unfold Point.due
  split <;> simp [notMem_dueAt]

/-- No timer of the part makes a power-on. -/
theorem powerOn_notMem_due (d : Station) : .powerOn ∉ d.dueCommands := by
  have others : .powerOn ∉ d.lpc.due d.now ++ d.dueInputs ++ d.bsq.due d.now ++ d.fdc.due d.now ++ d.gcc.due d.now ++
      d.alm.due d.now ++ d.sru.due d.now ++ d.ppt.due d.now := by
    simp [Lpc.due, Bsq.due, Fdc.due, Alm.due, Sru.due, Ppt.due, notMem_dueAt, powerOn_notMem_inputs, powerOn_notMem_cooler,
      powerOn_notMem_point]
  have outputs := powerOn_notMem_outputs d
  unfold Station.dueCommands
  dsimp only
  rw [List.mem_append, not_or]
  refine ⟨others, ?_⟩
  split
  · exact outputs
  · exact fun h => outputs (List.mem_filter.1 h).1

theorem powerOn_notMem_own {d : Station} (h : .powerOn ∉ d.signals) : .powerOn ∉ d.ownEvents := by
  unfold Station.ownEvents
  split
  · exact powerOn_notMem_due d
  · exact fun k => h ((frontEvents_sublist _ _).subset k)

end Sys2Proof.Machine
end
section
/-! ## The laws of the device -/

namespace Sys2Proof.Machine

/-- The first state's alarms, reports and totals satisfy the laws. -/
theorem sruFirst_law (now : Nat) : ShiftLaw (.first now) :=
  ⟨⟨by simp [Sru.first], by simp [Sru.first], .nil, by simp [Sru.first]⟩, fun ch => by simp [Sru.first, Accumulators.opened]⟩

theorem effect_powerOn (d : Station) : effect .powerOn d =
    { Station.first with now := d.now, draws := d.draws, piu := d.piu.reset, sru := .first d.now } := rfl

/-- A power-on leaves the laws of the device. -/
theorem powerOn_laws (d : Station) : LawsHold (effect .powerOn d) := by
  rw [effect_powerOn]
  exact (lawsHold_iff _).2 ⟨firstAlarms_law rfl rfl, fun _ => ⟨rfl, rfl, first_unset _⟩, mirrorLaw_nil _, sruFirst_law _⟩

theorem commandKeeps (c : Instr) (h : c ≠ .powerOn) : CommandKeeps c := by
  cases c
  case powerOn => exact absurd rfl h
  case resetLineAssert => exact CommandKeeps.resetLineAssert
  case resetLineRelease => exact CommandKeeps.resetLineRelease
  case trainArrival => exact CommandKeeps.trainArrival _
  case frameOfUnknownType => exact CommandKeeps.frameOfUnknownType _
  case claimMarkArrival => exact CommandKeeps.claimMarkArrival _
  case breakMarkArrival => exact CommandKeeps.breakMarkArrival _
  case claimMarkSend => exact CommandKeeps.claimMarkSend
  case breakMarkSend => exact CommandKeeps.breakMarkSend
  case trainWatchExpiry => exact CommandKeeps.trainWatchExpiry
  case releaseTimerExpiry => exact CommandKeeps.releaseTimerExpiry
  case claimLimitExpiry => exact CommandKeeps.claimLimitExpiry
  case loopGraceExpiry => exact CommandKeeps.loopGraceExpiry
  case noticeLossHoldExpiry => exact CommandKeeps.noticeLossHoldExpiry
  case pulsePinChange => exact CommandKeeps.pulsePinChange _ _
  case acceptedEdge => exact CommandKeeps.acceptedEdge _ _
  case captureOverflow => exact CommandKeeps.captureOverflow _
  case stillTimerExpiry => exact CommandKeeps.stillTimerExpiry _
  case inputPinChange => exact CommandKeeps.inputPinChange _ _
  case lineChange => exact CommandKeeps.lineChange _
  case patternTimerExpiry => exact CommandKeeps.patternTimerExpiry _
  case carrierPeriodStart => exact CommandKeeps.carrierPeriodStart _
  case activePartEnd => exact CommandKeeps.activePartEnd _
  case igniterPulseWidthExpiry => exact CommandKeeps.igniterPulseWidthExpiry
  case igniterSpacingExpiry => exact CommandKeeps.igniterSpacingExpiry
  case douForceStart => exact CommandKeeps.douForceStart
  case douForceEnd => exact CommandKeeps.douForceEnd
  case burnerStart => exact CommandKeeps.burnerStart
  case burnerStop => exact CommandKeeps.burnerStop
  case lockoutReset => exact CommandKeeps.lockoutReset
  case setHeatDemand => exact CommandKeeps.setHeatDemand _
  case bsqScannerCapture => exact CommandKeeps.bsqScannerCapture _ _ _ _
  case bsqScannerNoSignal => exact CommandKeeps.bsqScannerNoSignal _
  case flameFailTimerExpiry => exact CommandKeeps.flameFailTimerExpiry
  case bsqAirFlowChange => exact CommandKeeps.bsqAirFlowChange _
  case bsqIdFanChange => exact CommandKeeps.bsqIdFanChange _
  case bsqEstopChange => exact CommandKeeps.bsqEstopChange _
  case bsqPurgeTimerExpiry => exact CommandKeeps.bsqPurgeTimerExpiry
  case bsqIgnitionTimerExpiry => exact CommandKeeps.bsqIgnitionTimerExpiry
  case pilotTrialLimitExpiry => exact CommandKeeps.pilotTrialLimitExpiry
  case mainTrialLimitExpiry => exact CommandKeeps.mainTrialLimitExpiry
  case postPurgeTimerExpiry => exact CommandKeeps.postPurgeTimerExpiry
  case shortfallTimerExpiry => exact CommandKeeps.shortfallTimerExpiry
  case coolerLossTimerExpiry => exact CommandKeeps.coolerLossTimerExpiry
  case tripHoldExpiry => exact CommandKeeps.tripHoldExpiry _
  case firingSecondTimerExpiry => exact CommandKeeps.firingSecondTimerExpiry
  case bsqFloorRefresh => exact CommandKeeps.bsqFloorRefresh
  case bsqLeftUp => exact CommandKeeps.bsqLeftUp
  case bsqLoopGraceExpiry => exact CommandKeeps.bsqLoopGraceExpiry
  case bsqPanelLapse => exact CommandKeeps.bsqPanelLapse
  case feedEnable => exact CommandKeeps.feedEnable _
  case feedDisable => exact CommandKeeps.feedDisable _
  case feedClearFault => exact CommandKeeps.feedClearFault _
  case calorificUpdate => exact CommandKeeps.calorificUpdate _ _
  case fdcFloorRefresh => exact CommandKeeps.fdcFloorRefresh
  case fdcWeigherWindow => exact CommandKeeps.fdcWeigherWindow _ _ _ _ _
  case fdcWeigherNoSignal => exact CommandKeeps.fdcWeigherNoSignal _
  case fdcDirectionChange => exact CommandKeeps.fdcDirectionChange _ _ _
  case fdcIndex => exact CommandKeeps.fdcIndex _ _ _
  case fdcStill => exact CommandKeeps.fdcStill _ _
  case fdcActiveValueChange => exact CommandKeeps.fdcActiveValueChange _ _ _
  case fdcEstopChange => exact CommandKeeps.fdcEstopChange _
  case fdcLeftUp => exact CommandKeeps.fdcLeftUp
  case fdcLoopGraceExpiry => exact CommandKeeps.fdcLoopGraceExpiry
  case fdcEnteredUp => exact CommandKeeps.fdcEnteredUp
  case runDownTimerExpiry => exact CommandKeeps.runDownTimerExpiry _
  case runningSecondTimerExpiry => exact CommandKeeps.runningSecondTimerExpiry _
  case coolerEnable => exact CommandKeeps.coolerEnable _
  case coolerDisable => exact CommandKeeps.coolerDisable _
  case setStrokeBase => exact CommandKeeps.setStrokeBase _ _
  case grateClearFault => exact CommandKeeps.grateClearFault _
  case setFan => exact CommandKeeps.setFan _ _
  case dueTimeReached => exact CommandKeeps.dueTimeReached _
  case gccEndForwardChange => exact CommandKeeps.gccEndForwardChange _ _
  case gccEndReturnChange => exact CommandKeeps.gccEndReturnChange _ _
  case forwardLimitExpiry => exact CommandKeeps.forwardLimitExpiry _
  case dwellExpiry => exact CommandKeeps.dwellExpiry _
  case returnLimitExpiry => exact CommandKeeps.returnLimitExpiry _
  case gccEstopChange => exact CommandKeeps.gccEstopChange _
  case gccPressureCapture => exact CommandKeeps.gccPressureCapture _ _ _ _
  case gccPressureNoSignal => exact CommandKeeps.gccPressureNoSignal _
  case gccFloorRefresh => exact CommandKeeps.gccFloorRefresh
  case gccFanActiveValueChange => exact CommandKeeps.gccFanActiveValueChange _ _ _
  case fanRunSecondTimerExpiry => exact CommandKeeps.fanRunSecondTimerExpiry
  case onDelayExpiry => exact CommandKeeps.onDelayExpiry _
  case offDelayExpiry => exact CommandKeeps.offDelayExpiry _
  case almPlaceFree => exact CommandKeeps.almPlaceFree
  case recentRaiseExpiry => exact CommandKeeps.recentRaiseExpiry
  case almFloorRefresh => exact CommandKeeps.almFloorRefresh
  case ackAlarm => exact CommandKeeps.ackAlarm _ _ _
  case shelve => exact CommandKeeps.shelve _ _
  case unshelve => exact CommandKeeps.unshelve _
  case shelfExpiry => exact CommandKeeps.shelfExpiry _
  case readAlarms => exact CommandKeeps.readAlarms _
  case readMirror => exact CommandKeeps.readMirror _
  case secondTimerExpiry => exact CommandKeeps.secondTimerExpiry
  case notUpSecondTimerExpiry => exact CommandKeeps.notUpSecondTimerExpiry
  case sruContribution => exact CommandKeeps.sruContribution _
  case sruFloorRefresh => exact CommandKeeps.sruFloorRefresh
  case sruLeftUp => exact CommandKeeps.sruLeftUp
  case sruEnteredUp => exact CommandKeeps.sruEnteredUp
  case setFloorTime => exact CommandKeeps.setFloorTime _
  case readReport => exact CommandKeeps.readReport _ _
  case selectAssert => exact CommandKeeps.selectAssert
  case selectRelease => exact CommandKeeps.selectRelease _
  case configure => exact CommandKeeps.configure _ _ _
  case start => exact CommandKeeps.start
  case service => exact CommandKeeps.service
  case serviceOpenPoint => exact CommandKeeps.serviceOpenPoint
  case servicePeriodExpiry => exact CommandKeeps.servicePeriodExpiry
  case readEvents => exact CommandKeeps.readEvents
  case readResetCause => exact CommandKeeps.readResetCause
  case readStatus => exact CommandKeeps.readStatus _
  case readCounters => exact CommandKeeps.readCounters
  case readFloor => exact CommandKeeps.readFloor _
  case readBreak => exact CommandKeeps.readBreak
  case readInput => exact CommandKeeps.readInput _
  case readOutput => exact CommandKeeps.readOutput _

/-- A tick of the time base, and a choice between events, are no part of the laws. -/
theorem KeepsLaws.tick (who : Option Owner) (d : Station) : KeepsLaws who d d.tick := (KeepsLaws.refl d).same rfl

theorem KeepsLaws.drawn (who : Option Owner) (d : Station) : KeepsLaws who d d.drawn := (KeepsLaws.refl d).same rfl

theorem effect_laws (c : Instr) {d : Station} (h : LawsHold d) :
    LawsHold (effect c d) ∧ (c ≠ .powerOn → d.sru.shift.toNat ≤ (effect c d).sru.shift.toNat) := by
  by_cases e : c = .powerOn
  · subst e; exact ⟨powerOn_laws d, fun no => absurd rfl no⟩
  · obtain ⟨kept, number⟩ := (commandKeeps c e).laws d h
    exact ⟨kept, fun _ => number⟩

end Sys2Proof.Machine

open Sys2Proof Sys2Proof.Machine in
/-- Settles O58: every command keeps the laws, each by what its block's operations keep. -/
theorem stepsKeepTheLawsOfTheDevice : Obligations.StepsKeepTheLawsOfTheDevice := by
  intro s t laws next
  rcases step_cases next with ⟨c, rest, waiting, e⟩ | ⟨-, e⟩ | ⟨-, c, own, e⟩
  · obtain ⟨kept, number⟩ := effect_laws c laws
    rw [e, waiting]
    exact ⟨kept, fun front _ => number fun is => front (by rw [is]; rfl)⟩
  · obtain ⟨kept, number⟩ := (KeepsLaws.tick none s.dev).holds laws
    rw [e]
    exact ⟨kept, fun _ _ => number⟩
  · have other : .powerOn ∉ s.dev.signals → c ≠ .powerOn := fun quiet is => powerOn_notMem_own quiet (is ▸ own)
    rcases e with e | e
    · obtain ⟨kept, number⟩ := effect_laws c laws
      rw [e]
      exact ⟨kept, fun _ quiet => number (other quiet)⟩
    · obtain ⟨drawn, same⟩ := (KeepsLaws.drawn none s.dev).holds laws
      obtain ⟨kept, number⟩ := effect_laws c drawn
      rw [e]
      exact ⟨kept, fun _ quiet => same.trans (number (other quiet))⟩
end

section
/-! ## The machine as a whole, and its first state -/

set_option Elab.async false

namespace Sys2Proof.Machine

/-- In the first state no output line is on and no igniter line bursts. -/
theorem first_lines (i : Fin 16) : Station.first.dou.lines[i]'i.isLt = .first := by
  simp [Station.first]

theorem first_comps (i : Fin 4) : Station.first.gcc.comps[i]'i.isLt = .first := by
  simp [Station.first, Gcc.first]

theorem first_laws : LawsHold Station.first :=
  (lawsHold_iff _).2 ⟨firstAlarms_law rfl rfl, fun _ => ⟨rfl, rfl, first_unset _⟩, mirrorLaw_nil _, sruFirst_law 0⟩

theorem first_fuelLaw : FuelLawHolds Station.first where
  main i _ on := by rw [first_lines] at on; cases on
  pilot i _ on := by rw [first_lines] at on; cases on
  igniter i _ burst := by rw [first_lines] at burst; exact absurd rfl burst
  postPurge run := absurd rfl run

theorem first_grantLaw : GrantLawHolds Station.first where
  forward i l _ on := by rw [first_lines] at on; cases on
  apart i l r _ _ on := by rw [first_lines] at on; cases on.1
  holder i := by rw [first_comps]; exact iff_of_false (fun h => by cases h) (fun h => by cases h)
  queue i := by rw [first_comps]; exact iff_of_false List.not_mem_nil (fun h => by cases h)
  order := .nil
  timers i t e run := by rw [first_comps] at run; cases run
  absent i _ := by rw [first_comps]; rfl
  config _ i := by rw [first_comps]; rfl

end Sys2Proof.Machine

open Sys2Proof Sys2Proof.Machine in
/-- Settles O60. -/
theorem resetKeepsTheLawsOfTheDevice : Obligations.ResetKeepsTheLawsOfTheDevice :=
  ⟨first_laws, first_fuelLaw, first_grantLaw⟩

open Sys2Proof Sys2Proof.Machine in
/-- Settles O1. -/
theorem stepRunsFrontCommand : Obligations.StepRunsFrontCommand := by
  intro c rest s waiting
  unfold step
  rw [waiting]

open Sys2Proof Sys2Proof.Machine in
/-- Settles O2: the three cases are those of the part's own events, none, one, or a choice among several. -/
theorem emptyQueueGoesOnByItself : Obligations.EmptyQueueGoesOnByItself := by
  intro s none
  have own : step s = idle s := by unfold step; rw [none]
  rw [own]
  unfold idle
  refine ⟨fun e => by rw [e]; rfl, fun c e => by rw [e], fun two => ?_⟩
  match e : s.dev.ownEvents with
  | [] => rw [e] at two; simp at two
  | [_] => rw [e] at two; simp at two
  | c :: c' :: rest => exact ⟨s.dev.pickEvent c (c' :: rest), pickEvent_mem _ _ _, rfl⟩

open Sys2Proof Sys2Proof.Machine in
/-- Settles O3, by induction on the length of the run: each step answers a next state. -/
theorem noRunStops : Obligations.NoRunStops := by
  intro n
  induction n with
  | zero => exact fun _ => trivial
  | succ n ih =>
    intro s
    obtain ⟨t, next⟩ := step_next s
    exact ⟨t, next, ih t⟩

open Sys2Proof Sys2Proof.Machine in
/-- Settles O4, block by block: the first state is written out, and a vector of one value holds it at every place. -/
theorem resetHoldsTheStatedValues : Obligations.ResetHoldsTheStatedValues := by
  refine ⟨rfl, ?loop, ?channels, ?lines, ?outputs, ?burner, ?feed, ?comps, ?cooler, ?alarms, ?shift, ?panel⟩
  case loop => simp [State.reset, Station.first, Lpc.first, Staging.first, Counters.zero, Counter.zero, FloorEntry.first]
  case channels => simp [State.reset, Station.first, Channel.first]
  case lines => simp [State.reset, Station.first, InputLine.first]
  case outputs => simp [State.reset, Station.first, OutLine.first]
  case burner =>
    have holds (k : HoldKind) : Bsq.first.holds.get k = none := by cases k <;> rfl
    refine ⟨rfl, rfl, rfl, rfl, rfl, rfl, rfl, rfl, rfl, rfl, rfl, rfl, rfl, rfl, rfl, rfl, rfl, holds, fun i => ?_⟩
    simp [State.reset, Station.first, Bsq.first, Scanner.first]
  case feed => simp [State.reset, Station.first, FeedChannel.first]
  case comps => simp [State.reset, Station.first, Gcc.first, Compartment.first]
  case cooler => simp [State.reset, Station.first, Gcc.first]
  case alarms => simp [State.reset, Station.first, Alm.first, Point.first]
  case shift => simp [State.reset, Station.first, Sru.first, Accumulators.opened]
  case panel => simp [State.reset, Station.first, Ppt.first, ConfigRecord.first]

end

section
/-! SUPPORT. The first law of the device (R88): what the Burner Sequencer's operations and commands keep of it. -/

set_option Elab.async false

namespace Sys2Proof.Machine

/-! ## The fuel lines of a station -/

/-- A valve's line is on. -/
def Station.valveIsOn (fn : OutFn) (d : Station) : Prop := ∃ i, d.findOut .valve fn 0 = some i ∧ (d.dou.lines[i]'i.isLt).on = true

/-- The igniter's line bursts. -/
def Station.bursts (d : Station) : Prop := ∃ i, d.findOut .igniter .igniter 0 = some i ∧ (d.dou.lines[i]'i.isLt).burst ≠ .idle

theorem fuelLaw_iff (d : Station) : FuelLawHolds d ↔
    (d.valveIsOn .mainFuelRelease → d.bsq.state = .mainTrial ∨ d.bsq.state = .firing) ∧
      (d.valveIsOn .pilotValve → d.bsq.state = .pilotTrial ∨ d.bsq.state = .mainTrial) ∧
      (d.bursts → d.bsq.state = .pilotTrial) ∧ (d.bsq.postPurge ≠ none → d.bsq.state = .postPurge) :=
  ⟨fun h => ⟨fun ⟨i, e, on⟩ => h.main i e on, fun ⟨i, e, on⟩ => h.pilot i e on, fun ⟨i, e, on⟩ => h.igniter i e on, h.postPurge⟩,
   fun ⟨main, pilot, burst, post⟩ =>
    ⟨fun i e on => main ⟨i, e, on⟩, fun i e on => pilot ⟨i, e, on⟩, fun i e on => burst ⟨i, e, on⟩, post⟩⟩

/-- No fuel line is raised from a first station to a second. -/
structure FuelCalm (a b : Station) : Prop where
  valve : ∀ fn, b.valveIsOn fn → a.valveIsOn fn
  burst : b.bursts → a.bursts

/-- Every fuel line is off. -/
structure Dark (d : Station) : Prop where
  main : ¬ d.valveIsOn .mainFuelRelease
  pilot : ¬ d.valveIsOn .pilotValve
  burst : ¬ d.bursts

theorem findOut_owner {d : Station} {k : OutKind} {fn : OutFn} {n : Nat} {i : Fin 16} (h : d.findOut k fn n = some i)
    (hk : k = .valve ∨ k = .igniter) : (d.dou.lines[i]'i.isLt).owner = .burnerSequencer := by
  obtain ⟨c, hc, kind, -, -⟩ := findOut_cfg h
  rw [(line_of_cfg hc).2, kind]
  rcases hk with rfl | rfl <;> rfl

namespace FuelCalm
variable {a b c : Station}

theorem refl (d : Station) : FuelCalm d d := ⟨fun _ => id, id⟩

theorem trans (h : FuelCalm a b) (k : FuelCalm b c) : FuelCalm a c :=
  ⟨fun fn x => h.valve fn (k.valve fn x), fun x => h.burst (k.burst x)⟩

/-- The lines that the Burner Sequencer owns are not raised. -/
theorem lines (cfg : ∀ i : Fin 16, (b.dou.lines[i]'i.isLt).cfg = (a.dou.lines[i]'i.isLt).cfg)
    (calm : ∀ i : Fin 16, (a.dou.lines[i]'i.isLt).owner = .burnerSequencer → (a.dou.lines[i]'i.isLt).Calmer (b.dou.lines[i]'i.isLt)) : FuelCalm a b := by
  refine ⟨fun fn ⟨i, e, on⟩ => ?_, fun ⟨i, e, on⟩ => ?_⟩
  all_goals rw [findOut_congr cfg] at e
  · exact ⟨i, e, (calm i (findOut_owner e (.inl rfl))).on on⟩
  · exact ⟨i, e, (calm i (findOut_owner e (.inr rfl))).burst on⟩

theorem same (dou : b.dou = a.dou) : FuelCalm a b := lines (fun i => by rw [dou]) fun i _ => by rw [dou]; exact .refl _

end FuelCalm

namespace FuelLawHolds
variable {a b : Station}

theorem calm (h : FuelLawHolds a) (k : FuelCalm a b) (state : b.bsq.state = a.bsq.state)
    (post : b.bsq.postPurge ≠ none → a.bsq.postPurge ≠ none) : FuelLawHolds b := by
  obtain ⟨main, pilot, burst, timer⟩ := (fuelLaw_iff a).1 h
  rw [← state] at main pilot burst timer
  exact (fuelLaw_iff b).2 ⟨fun x => main (k.valve _ x), fun x => pilot (k.valve _ x), fun x => burst (k.burst x), fun x => timer (post x)⟩

/-- Neither the lines nor the state have changed. -/
theorem same (h : FuelLawHolds a) (dou : b.dou = a.dou := by rfl) (state : b.bsq.state = a.bsq.state := by rfl)
    (post : b.bsq.postPurge = a.bsq.postPurge := by rfl) : FuelLawHolds b :=
  h.calm (.same dou) state (by rw [post]; exact id)

theorem alarms (h : FuelLawHolds a) (k : AlarmsOnly a b) : FuelLawHolds b :=
  h.same k.dou (by rw [k.bsq]) (by rw [k.bsq])

theorem report (h : FuelLawHolds a) (k : CondKind) (n : Nat) (v : Bool) : FuelLawHolds (a.report k n v) := h.alarms (report_only k n v a)

/-- In a state of no trial and no firing, every fuel line is off. -/
theorem dark (h : FuelLawHolds a) (st : a.bsq.state = .off ∨ a.bsq.state = .purge ∨ a.bsq.state = .postPurge ∨ a.bsq.state = .lockout) :
    Dark a := by
  obtain ⟨main, pilot, burst, -⟩ := (fuelLaw_iff a).1 h
  refine ⟨fun x => ?_, fun x => ?_, fun x => ?_⟩
  · rcases st with st | st | st | st <;> simp [st] at main <;> exact main x
  · rcases st with st | st | st | st <;> simp [st] at pilot <;> exact pilot x
  · rcases st with st | st | st | st <;> simp [st] at burst <;> exact burst x

/-- Outside POST-PURGE its timer is stopped. -/
theorem timer (h : FuelLawHolds a) (st : a.bsq.state ≠ .postPurge) : a.bsq.postPurge = none := by
  by_contra run
  exact st (h.postPurge run)

end FuelLawHolds

namespace Dark
variable {a b : Station}

theorem calm (h : Dark a) (k : FuelCalm a b) : Dark b :=
  ⟨fun x => h.main (k.valve _ x), fun x => h.pilot (k.valve _ x), fun x => h.burst (k.burst x)⟩

theorem law (h : Dark a) (post : a.bsq.postPurge ≠ none → a.bsq.state = .postPurge) : FuelLawHolds a :=
  (fuelLaw_iff a).2 ⟨fun x => absurd x h.main, fun x => absurd x h.pilot, fun x => absurd x h.burst, post⟩

end Dark

/-! ## Operations that leave the fuel lines -/

/-- Another owner's commands keep the first law. -/
theorem LeavesPlant.fuelLaw {who : Owner} {a b : Station} (h : LeavesPlant who a b) (other : who ≠ .burnerSequencer)
    (law : FuelLawHolds a) : FuelLawHolds b := by
  have bsq := h.burner other
  refine law.calm (.lines h.cfg fun i own => h.lines i ?_) (by rw [bsq]) (by rw [bsq]; exact id)
  rw [own]
  exact other.symm

theorem recordState_parts (st : BsqState) (n : Nat) (d : Station) : (d.recordState st n).dou = d.dou ∧
    (d.recordState st n).bsq = { d.bsq with state := st, demand := n } := by
  rw [recordState_spec]
  exact ⟨rfl, rfl⟩

/-- A state is recorded with every fuel line off. -/
theorem Dark.recorded {d : Station} (h : Dark d) (st : BsqState) (n : Nat) (off : d.bsq.postPurge = none) :
    FuelLawHolds (d.recordState st n) := by
  obtain ⟨dou, bsq⟩ := recordState_parts st n d
  refine (h.calm (.same dou)).law fun run => ?_
  rw [bsq] at run
  exact absurd off run

/-! ## Trips and stops (R101, R106) -/

theorem FireEnded.dark {st : BsqState} {a b : Station} (h : FireEnded st a b) : Dark b := by
  have cfg : ∀ i : Fin 16, (b.dou.lines[i]'i.isLt).cfg = (a.dou.lines[i]'i.isLt).cfg := fun i => (h.rest.lines i).1
  refine ⟨fun ⟨i, e, on⟩ => ?_, fun ⟨i, e, on⟩ => ?_, fun ⟨i, e, on⟩ => ?_⟩
  all_goals rw [findOut_congr cfg] at e
  · rw [h.fuel i, if_pos (.inl e)] at on
    cases on
  · rw [h.fuel i, if_pos (.inr e)] at on
    cases on
  · rw [h.fuel i] at on
    have apart : ¬ (a.findOut .valve .mainFuelRelease 0 = some i ∨ a.findOut .valve .pilotValve 0 = some i) := by
      obtain ⟨c, hc, kind, -⟩ := findOut_cfg e
      rintro (x | x)
      all_goals
        obtain ⟨c', hc', kind', -⟩ := findOut_cfg x
        rw [hc] at hc'
        cases hc'
        rw [kind] at kind'
        cases kind'
    rw [if_neg apart] at on
    split at on
    · exact on rfl
    next no => exact no ⟨e, on⟩

theorem trip_fuelLaw (cause : CauseKind) (d : Station) : FuelLawHolds (d.trip cause) :=
  have t := trip_spec cause d
  t.ended.dark.law fun run => absurd t.timer run

theorem stopBurner_fuelLaw (r : StopReason) {d : Station} (h : FuelLawHolds d) : FuelLawHolds (d.stopBurner r) := by
  cases e : d.cfg.burner with
  | none =>
    unfold Station.stopBurner
    rw [e]
    exact h
  | some c =>
    have s := stopBurner_spec r c d e
    exact s.ended.dark.law fun _ => by rw [s.ended.bsq]

theorem stopPurge_fuelLaw (r : StopReason) {d : Station} (h : FuelLawHolds d) (st : d.bsq.state = .purge) :
    FuelLawHolds (d.stopPurge r) := by
  have stopped : Dark (d.onBsq Bsq.stopTimers) := (h.dark (.inr (.inl st))).calm (.same rfl)
  exact (stopped.recorded .off 0 rfl).same

theorem softStop_fuelLaw (r : StopReason) {d : Station} (h : FuelLawHolds d) : FuelLawHolds (d.softStop r) := by
  unfold Station.softStop
  split
  next st => exact stopPurge_fuelLaw r h st
  next => exact stopBurner_fuelLaw r h
  next => exact stopBurner_fuelLaw r h
  next => exact h

/-! ## The light-off (R95, R97, R98) -/

/-- Of the fuel lines only the one of a function may be raised. -/
structure OneFuelLine (k : OutKind) (fn : OutFn) (a b : Station) : Prop where
  cfg : ∀ i : Fin 16, (b.dou.lines[i]'i.isLt).cfg = (a.dou.lines[i]'i.isLt).cfg
  other : ∀ i : Fin 16, a.findOut k fn 0 ≠ some i → b.dou.lines[i]'i.isLt = a.dou.lines[i]'i.isLt
  bsq : b.bsq = a.bsq

namespace OneFuelLine
variable {k : OutKind} {fn : OutFn} {a b : Station}

theorem refl (d : Station) : OneFuelLine k fn d d := ⟨fun _ => rfl, fun _ _ => rfl, rfl⟩

theorem onOut {i : Fin 16} (e : a.findOut k fn 0 = some i) (f : OutLine → OutLine) (hf : ∀ l, (f l).cfg = l.cfg) :
    OneFuelLine k fn a (a.onOut i f) := by
  refine ⟨fun j => ?_, fun j ne => ?_, rfl⟩
  · simp only [Station.onOut_fields, Fin.getElem_fin, vecModify_get]
    split
    · exact hf _
    · rfl
  · simp only [Station.onOut_fields, Fin.getElem_fin]
    exact vecModify_ne _ _ _ _ _ fun h => ne (by rw [e, Fin.ext h])

/-- A line that serves two functions serves one. -/
theorem apart {k' : OutKind} {fn' : OutFn} {i : Fin 16} (h : a.findOut k fn 0 = some i) (h' : a.findOut k' fn' 0 = some i) :
    k = k' ∧ fn = fn' := by
  obtain ⟨c, hc, kind, func, -⟩ := findOut_cfg h
  obtain ⟨c', hc', kind', func', -⟩ := findOut_cfg h'
  rw [hc] at hc'
  cases hc'
  exact ⟨kind.symm.trans kind', func.symm.trans func'⟩

theorem valve (h : OneFuelLine k fn a b) {fn' : OutFn} (ne : k ≠ .valve ∨ fn ≠ fn') (on : b.valveIsOn fn') : a.valveIsOn fn' := by
  obtain ⟨i, e, on⟩ := on
  rw [findOut_congr h.cfg] at e
  have other : a.findOut k fn 0 ≠ some i := fun x => by
    obtain ⟨kind, func⟩ := apart x e
    rcases ne with ne | ne
    · exact ne kind
    · exact ne func
  exact ⟨i, e, by rw [h.other i other] at on; exact on⟩

theorem burst (h : OneFuelLine .valve fn a b) (on : b.bursts) : a.bursts := by
  obtain ⟨i, e, on⟩ := on
  rw [findOut_congr h.cfg] at e
  have other : a.findOut .valve fn 0 ≠ some i := fun x => by cases (apart x e).1
  exact ⟨i, e, by rw [h.other i other] at on; exact on⟩

end OneFuelLine

theorem valveOn_one (fn : OutFn) (d : Station) : OneFuelLine .valve fn d (d.valveOn fn).1 := by
  unfold Station.valveOn
  split
  next i e =>
    unfold Station.lineOn
    dsimp only
    split_ifs
    · exact .refl d
    · exact .refl d
    · exact .onOut e _ fun _ => rfl
    · exact .onOut e _ fun _ => rfl
  next => exact .refl d

theorem valveOff_one (fn : OutFn) (d : Station) : OneFuelLine .valve fn d (d.valveOff fn) := by
  unfold Station.valveOff
  split
  next i e =>
    unfold Station.lineOff
    dsimp only
    split_ifs
    · exact .refl d
    · exact .onOut e _ fun _ => rfl
  next => exact .refl d

theorem valveOff_off (fn : OutFn) (d : Station) : ¬ (d.valveOff fn).valveIsOn fn := by
  rintro ⟨i, e, on⟩
  rw [findOut_congr (valveOff_one fn d).cfg] at e
  rw [valveOff_lines, if_pos e] at on
  cases on

theorem igniterStart_one (d : Station) : OneFuelLine .igniter .igniter d d.igniterStart.1 := by
  unfold Station.igniterStart
  split
  next i e =>
    unfold Station.burstStart
    dsimp only
    split_ifs
    · exact .refl d
    · exact .refl d
    · exact .onOut e _ fun l => startPulse_cfg _ l
    · exact .refl d
  next => exact .refl d

theorem igniterCut_one (d : Station) : OneFuelLine .igniter .igniter d d.igniterCut := by
  unfold Station.igniterCut
  split
  next i e =>
    unfold Station.burstCut
    dsimp only
    split_ifs
    · exact .refl d
    · exact .refl d
    · exact .onOut e _ fun _ => rfl
  next => exact .refl d

theorem igniterCut_off (d : Station) : ¬ d.igniterCut.bursts := by
  rintro ⟨i, e, on⟩
  rw [findOut_congr (igniterCut_one d).cfg] at e
  rw [igniterCut_lines] at on
  split at on
  · exact on rfl
  next no => exact no ⟨e, on⟩

/-- The end of a burst raises no line (R83). -/
theorem igniterEnd_calm (d : Station) : FuelCalm d d.igniterEnd ∧ d.igniterEnd.bsq = d.bsq := by
  unfold Station.igniterEnd
  split
  next i e =>
    unfold Station.burstEnd
    dsimp only
    split_ifs
    · exact ⟨.refl d, rfl⟩
    · refine ⟨.lines (fun j => ?_) fun j _ => ?_, rfl⟩
      all_goals
        simp only [Station.onOut_fields, Fin.getElem_fin, vecModify_get]
        split_ifs
      · rfl
      · rfl
      · rfl
      · exact ⟨rfl, id, fun _ => by simp_all⟩
      · exact .goIdle _
      · exact .refl _
    · exact ⟨.refl d, rfl⟩
  next => exact ⟨.refl d, rfl⟩

end Sys2Proof.Machine
end

section
/-! SUPPORT. The Burner Sequencer's transitions and commands keep the first law of the device (R88). -/

set_option Elab.async false

namespace Sys2Proof.Machine

/-- Every fuel line off and the post-purge timer stopped is the law in any state. -/
theorem Dark.idle {d : Station} (h : Dark d) (off : d.bsq.postPurge = none) : FuelLawHolds d := h.law fun run => absurd off run

theorem enterPilot_fuelLaw (x : BurnerCfg) {d : Station} (h : FuelLawHolds d) (st : d.bsq.state = .purge) :
    FuelLawHolds (d.enterPilot x) := by
  have off : d.bsq.postPurge = none := h.timer (by rw [st]; decide)
  obtain ⟨dou, bsq⟩ := recordState_parts .pilotTrial 0 (d.onBsq fun b => { b with purge := none })
  have dark : Dark ((d.onBsq fun b => { b with purge := none }).recordState .pilotTrial 0) :=
    (h.dark (.inr (.inl st))).calm (.same dou)
  unfold Station.enterPilot
  dsimp only
  generalize (d.onBsq fun b => { b with purge := none }).recordState .pilotTrial 0 = e at dark bsq ⊢
  have opened := valveOn_one .pilotValve e
  generalize e.valveOn .pilotValve = r at opened ⊢
  have lit := igniterStart_one r.1
  split
  · exact trip_fuelLaw _ _
  · simp only at lit
    split
    · exact trip_fuelLaw _ _
    next f _ _ g _ _ started =>
      rw [started] at lit
      have all := lit.bsq.trans (opened.bsq.trans bsq)
      have state : g.bsq.state = .pilotTrial := congrArg Bsq.state all
      have timer : g.bsq.postPurge = none := (congrArg Bsq.postPurge all).trans off
      exact (fuelLaw_iff _).2
        ⟨fun main => absurd (opened.valve (.inr (by decide)) (lit.valve (.inl (by decide)) main)) dark.main,
         fun _ => .inl state, fun _ => state, fun run => absurd timer run⟩

theorem enterMain_fuelLaw (x : BurnerCfg) {d : Station} (h : FuelLawHolds d) (st : d.bsq.state = .pilotTrial) :
    FuelLawHolds (d.enterMain x) := by
  have off : d.bsq.postPurge = none := h.timer (by rw [st]; decide)
  have cut := igniterCut_one (d.onBsq fun b => { b with pilotTrial := none, ignition := none })
  have dead := igniterCut_off (d.onBsq fun b => { b with pilotTrial := none, ignition := none })
  have closed : ¬ (d.onBsq fun b => { b with pilotTrial := none, ignition := none }).igniterCut.valveIsOn .mainFuelRelease := by
    intro on
    have := ((fuelLaw_iff d).1 h).1 (cut.valve (.inl (by decide)) on)
    simp [st] at this
  unfold Station.enterMain
  dsimp only
  generalize (d.onBsq fun b => { b with pilotTrial := none, ignition := none }).igniterCut = e at cut dead closed ⊢
  obtain ⟨dou, bsq⟩ := recordState_parts .mainTrial x.lightOff e
  generalize e.recordState .mainTrial x.lightOff = f at dou bsq ⊢
  have calm : FuelCalm e f := .same dou
  have opened := valveOn_one .mainFuelRelease f
  split
  · exact trip_fuelLaw _ _
  next g _ _ e' =>
    rw [e'] at opened
    have state : g.bsq.state = .mainTrial := by rw [opened.bsq, bsq]
    have timer : g.bsq.postPurge = none := by rw [opened.bsq, bsq, cut.bsq]; exact off
    exact (fuelLaw_iff _).2 ⟨fun _ => .inl state, fun _ => .inr state,
      fun burst => absurd (calm.burst (opened.burst burst)) dead, fun run => absurd timer run⟩

theorem enterFiring_fuelLaw (x : BurnerCfg) {d : Station} (h : FuelLawHolds d) (st : d.bsq.state = .mainTrial) :
    FuelLawHolds (d.enterFiring x) := by
  have off : d.bsq.postPurge = none := h.timer (by rw [st]; decide)
  obtain ⟨-, -, burst, -⟩ := (fuelLaw_iff d).1 h
  have closed := valveOff_one .pilotValve (d.onBsq fun b => { b with mainTrial := none })
  have shut := valveOff_off .pilotValve (d.onBsq fun b => { b with mainTrial := none })
  unfold Station.enterFiring
  dsimp only
  generalize (d.onBsq fun b => { b with mainTrial := none }).valveOff .pilotValve = e at closed shut ⊢
  obtain ⟨dou, bsq⟩ := recordState_parts .firing x.lightOff e
  have calm : FuelCalm e (e.recordState .firing x.lightOff) := .same dou
  suffices FuelLawHolds (e.recordState .firing x.lightOff) from this.same
  refine (fuelLaw_iff _).2 ⟨fun _ => .inr (by rw [bsq]), fun on => absurd (calm.valve _ on) shut, fun on => ?_, fun run => ?_⟩
  · have := burst (closed.burst (calm.burst on))
    rw [st] at this
    cases this
  · rw [bsq, closed.bsq] at run
    exact absurd off run

theorem enterPurge_fuelLaw (x : BurnerCfg) {d : Station} (h : FuelLawHolds d) (st : d.bsq.state = .off) :
    FuelLawHolds (d.enterPurge x) := by
  have off : d.bsq.postPurge = none := h.timer (by rw [st]; decide)
  have begun : Dark (d.onBsq fun b => { b with interruptions := 0, purge := none }) := (h.dark (.inl st)).calm (.same rfl)
  have recorded := begun.recorded .purge 0 off
  unfold Station.enterPurge
  dsimp only
  split
  · exact recorded.same
  · exact recorded

/-! ## The flame (R91, R92) -/

theorem flameLost_fuelLaw {d : Station} (h : FuelLawHolds d) : FuelLawHolds d.flameLost := by
  unfold Station.flameLost
  dsimp only
  split
  · exact trip_fuelLaw _ _
  · exact trip_fuelLaw _ _
  · exact h.same

theorem goodCapture_fuelLaw (x : BurnerCfg) (i : Fin 2) {d : Station} (h : FuelLawHolds d) : FuelLawHolds (d.goodCapture x i) := by
  unfold Station.goodCapture
  dsimp only
  generalize hx : Station.onBsq _ d = e
  have judged : FuelLawHolds e := hx ▸ h.same
  split
  · exact judged.same
  · split
    · split
      next pilot => exact enterMain_fuelLaw x (FuelLawHolds.same (a := e) judged) pilot
      next => exact judged.same
    · exact judged.same
  · exact judged

theorem badCapture_fuelLaw (i : Fin 2) {d : Station} (h : FuelLawHolds d) : FuelLawHolds (d.badCapture i) := by
  unfold Station.badCapture
  dsimp only
  generalize hx : Station.onBsq _ d = e
  have judged : FuelLawHolds e := hx ▸ h.same
  split
  · exact judged.same
  · split
    · exact flameLost_fuelLaw judged
    · exact judged
  · exact judged

/-! ## The refresh (R96 to R105) -/

theorem noteMain_fuelLaw {d : Station} (h : FuelLawHolds d) : FuelLawHolds d.noteMain := by
  unfold Station.noteMain
  split
  · exact h.same
  · exact h

theorem stageBurner_fuelLaw {d : Station} (h : FuelLawHolds d) : FuelLawHolds d.stageBurner := by
  unfold Station.stageBurner
  split
  · exact h
  · exact h.same

theorem rampNow_fuelLaw (x : BurnerCfg) {d : Station} (h : FuelLawHolds d) : FuelLawHolds (d.rampNow x) := by
  unfold Station.rampNow
  split
  · exact h
  · exact stageBurner_fuelLaw h.same

theorem checkShortfall_fuelLaw (x : BurnerCfg) {d : Station} (h : FuelLawHolds d) : FuelLawHolds (d.checkShortfall x) := by
  unfold Station.checkShortfall
  split
  · split
    · exact h.same
    · exact h
  · exact FuelLawHolds.report h.same _ _ _

theorem checkCooler_fuelLaw (x : BurnerCfg) {d : Station} (h : FuelLawHolds d) : FuelLawHolds (d.checkCooler x) := by
  unfold Station.checkCooler
  dsimp only
  split
  · exact h
  · split
    · exact FuelLawHolds.report h.same _ _ _
    · split
      · exact h
      · split
        · exact trip_fuelLaw _ _
        · exact FuelLawHolds.report h.same _ _ _

theorem burnerRefresh_fuelLaw (x : BurnerCfg) {d : Station} (h : FuelLawHolds d) : FuelLawHolds (d.burnerRefresh x) := by
  have noted := noteMain_fuelLaw h
  unfold Station.burnerRefresh
  dsimp only
  split
  next st =>
    split
    · exact stopPurge_fuelLaw _ noted st
    · exact noted
  next =>
    split
    · exact trip_fuelLaw _ _
    · exact noted
  next st =>
    split
    · exact trip_fuelLaw _ _
    · split
      · exact enterFiring_fuelLaw x noted st
      · exact noted
  next =>
    split
    · exact trip_fuelLaw _ _
    · exact checkCooler_fuelLaw x (checkShortfall_fuelLaw x (rampNow_fuelLaw x noted))
  next => exact noted

/-! ## The commands of the Burner Sequencer -/

/-- A command keeps the first law. -/
def FuelKeeps (c : Instr) : Prop := ∀ d, FuelLawHolds d → FuelLawHolds (effect c d)

theorem FuelKeeps.of_act {c : Instr} (f : Station → Station) (h : ∀ s, exec c s = act c f s)
    (k : ∀ d, FuelLawHolds d → FuelLawHolds (f d)) : FuelKeeps c := fun d x => by
  rw [effect_of_act h]
  exact k _ (x.same (b := d.take c))

theorem burnerRequest_fuelLaw {f : BurnerCfg → Station → Station} (hf : ∀ c d, FuelLawHolds d → FuelLawHolds (f c d)) {d : Station}
    (h : FuelLawHolds d) : FuelLawHolds (d.burnerRequest f) := by
  unfold Station.burnerRequest
  split
  · exact h.same
  · split
    · exact h.same
    · exact hf _ d h

namespace FuelKeeps

theorem burnerStart : FuelKeeps .burnerStart := by
  refine .of_act _ (fun _ => show execBurnerStart _ = _ from rfl) fun d h => burnerRequest_fuelLaw (fun c d h => ?_) h
  split
  · exact h.same
  next none =>
    have st : d.bsq.state = .off := by
      by_contra no
      unfold Station.startRefusal at none
      split_ifs at none
    have noted : d.noteMain.bsq.state = .off := by
      unfold Station.noteMain
      split <;> exact st
    exact (enterPurge_fuelLaw c (noteMain_fuelLaw h) noted).same

theorem burnerStop : FuelKeeps .burnerStop := by
  refine .of_act _ (fun _ => show execBurnerStop _ = _ from rfl) fun d h => burnerRequest_fuelLaw (fun c d h => ?_) h
  split
  next => exact h.same
  next => exact h.same
  next st => exact (stopPurge_fuelLaw .stop h st).same
  next => exact h.same
  next => exact (stopBurner_fuelLaw .stop h).same

theorem lockoutReset : FuelKeeps .lockoutReset := by
  refine .of_act _ (fun _ => show execLockoutReset _ = _ from rfl) fun d h => burnerRequest_fuelLaw (fun c d h => ?_) h
  split_ifs with st
  · exact h.same
  · exact h.same
  · exact h.same
  · exact h.same
  · have locked := not_not.1 st
    exact ((h.dark (.inr (.inr (.inr locked)))).recorded .off 0 (h.timer (by rw [locked]; decide))).same

theorem setHeatDemand (setpoint : Word) : FuelKeeps (.setHeatDemand setpoint) := by
  refine .of_act _ (fun _ => show execSetHeatDemand setpoint _ = _ from rfl) fun d h => burnerRequest_fuelLaw (fun c d h => ?_) h
  split
  · exact h.same
  · exact h.same

theorem bsqScannerCapture (scanner : Fin 2) (period width : Nat) (tb : Timebase) :
    FuelKeeps (.bsqScannerCapture scanner period width tb) := by
  refine .of_act _ (fun _ => show execBsqScannerCapture scanner period width tb _ = _ from rfl) fun d h => ?_
  split
  · exact h
  · split
    · exact h
    · dsimp only
      generalize hx : Station.onBsq _ d = x
      have judged : FuelLawHolds x := hx ▸ h.same
      split_ifs
      · exact judged
      · exact goodCapture_fuelLaw _ scanner judged
      · exact badCapture_fuelLaw scanner judged

theorem bsqScannerNoSignal (scanner : Fin 2) : FuelKeeps (.bsqScannerNoSignal scanner) := by
  refine .of_act _ (fun _ => show execBsqScannerNoSignal scanner _ = _ from rfl) fun d h => ?_
  split
  · exact h
  · split
    · exact h
    · dsimp only
      split
      · exact h.same
      · exact badCapture_fuelLaw scanner h.same

theorem flameFailTimerExpiry : FuelKeeps .flameFailTimerExpiry := by
  refine .of_act _ (fun _ => show execFlameFailTimerExpiry _ = _ from rfl) fun d h => ?_
  split
  · exact h
  · exact flameLost_fuelLaw h

theorem bsqAirFlowChange (active : Bool) : FuelKeeps (.bsqAirFlowChange active) := by
  refine .of_act _ (fun _ => show execBsqAirFlowChange active _ = _ from rfl) fun d h => ?_
  dsimp only
  split
  · exact h
  · split_ifs
    · exact h.same
    · exact h
    · exact trip_fuelLaw _ _
    · exact h.same
    · exact trip_fuelLaw _ _
    · exact h

theorem bsqIdFanChange (active : Bool) : FuelKeeps (.bsqIdFanChange active) := by
  refine .of_act _ (fun _ => show execBsqIdFanChange active _ = _ from rfl) fun d h => ?_
  split
  next st => exact stopPurge_fuelLaw .idFan h (by simpa using (Bool.and_eq_true_iff.1 st).1)
  next => exact h

theorem bsqEstopChange (active : Bool) : FuelKeeps (.bsqEstopChange active) := by
  refine .of_act _ (fun _ => show execBsqEstopChange active _ = _ from rfl) fun d h => ?_
  split
  · exact trip_fuelLaw _ _
  · exact h

theorem bsqPurgeTimerExpiry : FuelKeeps .bsqPurgeTimerExpiry := by
  refine .of_act _ (fun _ => show execBsqPurgeTimerExpiry _ = _ from rfl) fun d h => ?_
  split
  · exact h
  · split
    next st => exact enterPilot_fuelLaw _ h (by simpa using (Bool.and_eq_true_iff.1 st).2)
    next => exact h

theorem bsqIgnitionTimerExpiry : FuelKeeps .bsqIgnitionTimerExpiry := by
  refine .of_act _ (fun _ => show execBsqIgnitionTimerExpiry _ = _ from rfl) fun d h => ?_
  split
  · exact h
  · obtain ⟨calm, bsq⟩ := igniterEnd_calm (d.onBsq fun b => { b with ignition := none })
    exact FuelLawHolds.calm (a := d.onBsq fun b => { b with ignition := none }) h.same calm (by rw [bsq]) (by rw [bsq]; exact id)

theorem pilotTrialLimitExpiry : FuelKeeps .pilotTrialLimitExpiry := by
  refine .of_act _ (fun _ => show execPilotTrialLimitExpiry _ = _ from rfl) fun d h => ?_
  split
  · exact h
  · exact trip_fuelLaw _ _

theorem mainTrialLimitExpiry : FuelKeeps .mainTrialLimitExpiry := by
  refine .of_act _ (fun _ => show execMainTrialLimitExpiry _ = _ from rfl) fun d h => ?_
  split
  · exact h
  · exact trip_fuelLaw _ _

theorem postPurgeTimerExpiry : FuelKeeps .postPurgeTimerExpiry := by
  refine .of_act _ (fun _ => show execPostPurgeTimerExpiry _ = _ from rfl) fun d h => ?_
  split
  · exact h
  next run =>
    have dark := h.dark (.inr (.inr (.inl (h.postPurge (by simpa using run)))))
    exact Dark.recorded (d := d.onBsq fun b => { b with postPurge := none }) (dark.calm (.same rfl)) .off 0 rfl

theorem shortfallTimerExpiry : FuelKeeps .shortfallTimerExpiry := by
  refine .of_act _ (fun _ => show execShortfallTimerExpiry _ = _ from rfl) fun d h => ?_
  split
  · exact h
  · exact FuelLawHolds.report h.same _ _ _

theorem coolerLossTimerExpiry : FuelKeeps .coolerLossTimerExpiry := by
  refine .of_act _ (fun _ => show execCoolerLossTimerExpiry _ = _ from rfl) fun d h => ?_
  split
  · exact h
  · exact trip_fuelLaw _ _

theorem tripHoldExpiry (kind : HoldKind) : FuelKeeps (.tripHoldExpiry kind) := by
  refine .of_act _ (fun _ => show execTripHoldExpiry kind _ = _ from rfl) fun d h => ?_
  split
  · exact h
  · dsimp only
    split
    · exact FuelLawHolds.report h.same _ _ _
    · exact FuelLawHolds.report h.same _ _ _

theorem firingSecondTimerExpiry : FuelKeeps .firingSecondTimerExpiry := by
  refine .of_act _ (fun _ => show execFiringSecondTimerExpiry _ = _ from rfl) fun d h => ?_
  split
  · exact h
  · exact h.same

theorem bsqFloorRefresh : FuelKeeps .bsqFloorRefresh := by
  refine .of_act _ (fun _ => show execBsqFloorRefresh _ = _ from rfl) fun d h => ?_
  split
  · exact h
  · split
    · exact burnerRefresh_fuelLaw _ h
    · exact h

theorem bsqLeftUp : FuelKeeps .bsqLeftUp :=
  .of_act _ (fun _ => show execBsqLeftUp _ = _ from rfl) fun _ h => softStop_fuelLaw .loop h

theorem bsqLoopGraceExpiry : FuelKeeps .bsqLoopGraceExpiry := by
  refine .of_act _ (fun _ => show execBsqLoopGraceExpiry _ = _ from rfl) fun d h => ?_
  split
  · exact trip_fuelLaw _ _
  · exact h

theorem bsqPanelLapse : FuelKeeps .bsqPanelLapse :=
  .of_act _ (fun _ => show execBsqPanelLapse _ = _ from rfl) fun _ h => softStop_fuelLaw .lapse h

end FuelKeeps

end Sys2Proof.Machine
end

section
/-! SUPPORT. The fourth law of the device (R145) over every command, and both laws over a step. -/

set_option Elab.async false

namespace Sys2Proof.Machine

/-! ## The commands of the Grate Cooler Controller -/

/-- Another owner's commands keep the law of the grant. -/
theorem LeavesPlant.grantLaw {who : Owner} {a b : Station} (h : LeavesPlant who a b) (other : who ≠ .grateCooler)
    (law : a.grantLaw) : b.grantLaw := by
  have calm (k : OutKind) (hk : k = .strokeForward ∨ k = .strokeReturn) (i : Fin 4) (on : b.strokeIsOn k i) : a.strokeIsOn k i := by
    obtain ⟨l, e, on⟩ := on
    rw [findOut_congr h.cfg] at e
    have own := (KeepsComp.strokeLine hk e).2
    exact ⟨l, e, (h.lines l (by rw [own]; exact other.symm)).on on⟩
  unfold Station.grantLaw
  rw [h.grate other]
  exact law.off (fun i => calm _ (.inl rfl) i) fun i => calm _ (.inr rfl) i

/-- A preload raises no line. -/
theorem setPreload_leaves (i : Fin 16) (who : Owner) (v : Nat) (d : Station) : LeavesPlant .noOwner d (d.setPreload i who v).1 := by
  have stays := KeepsLaws.refl (who := some .noOwner) d
  suffices KeepsLaws (some .noOwner) d (d.setPreload i who v).1 from this.plant _ rfl
  unfold Station.setPreload
  dsimp only
  split
  · exact stays
  · split
    · exact stays.onOut _ _
    · split
      · exact ((stays.onOut _ _).setActiveValue _ _ _).onOut _ _
      · split
        · exact ((stays.onOut _ _).setActiveValue _ _ _).onOut _ _
        · exact stays.onOut _ _

/-- A command keeps the law of the grant. -/
def GrantKeeps (c : Instr) : Prop := ∀ d : Station, d.grantLaw → (effect c d).grantLaw

theorem GrantKeeps.of_act {c : Instr} (f : Station → Station) (h : ∀ s, exec c s = act c f s)
    (k : ∀ d : Station, d.grantLaw → (f d).grantLaw) : GrantKeeps c := fun d x => by
  rw [effect_of_act h]
  exact k _ (x.keep (b := d.take c) rfl rfl)

theorem noted_law {d : Station} (h : d.grantLaw) (i : Fin 4) (f : Compartment → Compartment)
    (hf : ∀ c, f c = { c with endForward := (f c).endForward, endReturn := (f c).endReturn }) :
    (d.onComp i f).grantLaw ∧ ((d.onComp i f).gcc.comps[i]'i.isLt).cfg = (d.gcc.comps[i]'i.isLt).cfg := by
  refine ⟨Station.same_law h i f ?_ ?_ ?_ ?_, ?_⟩
  · intro c; rw [hf]
  · intro c; rw [hf]
  · intro c; rw [hf]
  · intro c; rw [hf]
  · have := congrFun (Station.comps_onComp i f d) i
    simp only [withComp_same] at this
    rw [this, hf]

namespace GrantKeeps
open Station

theorem coolerEnable (compartment : Byte) : GrantKeeps (.coolerEnable compartment) :=
  .of_act _ (fun _ => show execCoolerEnable compartment _ = _ from rfl) fun _ h =>
    compRequest_law compartment _ (fun i k e => coolerEnable_law h i k e) h

theorem coolerDisable (compartment : Byte) : GrantKeeps (.coolerDisable compartment) :=
  .of_act _ (fun _ => show execCoolerDisable compartment _ = _ from rfl) fun _ h =>
    compRequest_law compartment _ (fun i _ _ => coolerDisable_law h i) h

theorem setStrokeBase (compartment : Byte) (rate : Half) : GrantKeeps (.setStrokeBase compartment rate) := by
  refine .of_act _ (fun _ => show execSetStrokeBase compartment rate _ = _ from rfl) fun d h =>
    compRequest_law compartment _ (fun i k _ => ?_) h
  split
  · exact answer_law h _ _ _
  · refine answer_law (same_law h i _ ?_ ?_ ?_ ?_) _ _ _
    all_goals exact fun _ => rfl

theorem grateClearFault (compartment : Byte) : GrantKeeps (.grateClearFault compartment) := by
  refine .of_act _ (fun _ => show execGrateClearFault compartment _ = _ from rfl) fun d h =>
    compRequest_law compartment _ (fun i k _ => ?_) h
  dsimp only
  split_ifs with st
  · exact answer_law h _ _ _
  · exact answer_law h _ _ _
  · exact answer_law h _ _ _
  · exact grateClear_law h i (not_not.1 st)

theorem setFan (fan : Byte) (reference : Half) : GrantKeeps (.setFan fan reference) := by
  refine .of_act _ (fun _ => show execSetFan fan reference _ = _ from rfl) fun d h => ?_
  unfold Station.coolerRequest
  split
  · exact answer_law h _ _ _
  · split
    · exact answer_law h _ _ _
    · dsimp only
      split
      · exact answer_law h _ _ _
      · split
        · exact answer_law h _ _ _
        · exact answer_law ((setPreload_leaves ..).grantLaw (by decide) h) _ _ _

theorem dueTimeReached (comp : Fin 4) : GrantKeeps (.dueTimeReached comp) := by
  refine .of_act _ (fun _ => show execDueTimeReached comp _ = _ from rfl) fun d h => ?_
  split
  next st =>
    exact wait_law h comp (fun no => by rw [h.absent comp no] at st; cases st) (by rw [st]; decide)
      (h.untimed (by rw [st]; decide) (by rw [st]; decide) (by rw [st]; decide))
  next => exact h

theorem gccEndForwardChange (comp : Fin 4) (active : Bool) : GrantKeeps (.gccEndForwardChange comp active) := by
  refine .of_act _ (fun _ => show execGccEndForwardChange comp active _ = _ from rfl) fun d h => ?_
  split
  next => exact h
  next k e =>
    obtain ⟨noted, cfg⟩ := noted_law h comp (fun c => { c with endForward := active }) fun _ => rfl
    have set : ((d.onComp comp fun c => { c with endForward := active }).gcc.comps[comp]'comp.isLt).cfg ≠ none := by rw [cfg, e]; simp
    dsimp only
    split_ifs with _ _ st
    · exact noted
    · exact limitConflict_law noted comp set
    · exact endForward_law noted comp k set st
    · exact noted

theorem gccEndReturnChange (comp : Fin 4) (active : Bool) : GrantKeeps (.gccEndReturnChange comp active) := by
  refine .of_act _ (fun _ => show execGccEndReturnChange comp active _ = _ from rfl) fun d h => ?_
  split
  next => exact h
  next k e =>
    obtain ⟨noted, cfg⟩ := noted_law h comp (fun c => { c with endReturn := active }) fun _ => rfl
    have set : ((d.onComp comp fun c => { c with endReturn := active }).gcc.comps[comp]'comp.isLt).cfg ≠ none := by rw [cfg, e]; simp
    dsimp only
    split_ifs with _ _ st
    · exact noted
    · exact limitConflict_law noted comp set
    · exact endReturn_law noted comp set st
    · exact noted

theorem forwardLimitExpiry (comp : Fin 4) : GrantKeeps (.forwardLimitExpiry comp) := by
  refine .of_act _ (fun _ => show execForwardLimitExpiry comp _ = _ from rfl) fun d h => ?_
  split
  next => exact h
  next k e =>
    split
    next => exact h
    next runs => exact forwardLimit_law h comp k (by rw [e]; simp) (by simpa using runs)

theorem dwellExpiry (comp : Fin 4) : GrantKeeps (.dwellExpiry comp) := by
  refine .of_act _ (fun _ => show execDwellExpiry comp _ = _ from rfl) fun d h => ?_
  split
  next => exact h
  next k e =>
    split
    next runs =>
      have st : (d.gcc.comps[comp]'comp.isLt).state = .dwell := by
        unfold Compartment.runs at runs
        split at runs
        next t end_ timer =>
          have := h.timers comp t end_ timer
          rw [beq_iff_eq] at runs
          subst runs
          exact this
        next => cases runs
      exact startReturn_law h comp k (by rw [e]; simp) (by rw [st]; decide) (by rw [st]; decide)
    next => exact h

theorem returnLimitExpiry (comp : Fin 4) : GrantKeeps (.returnLimitExpiry comp) := by
  refine .of_act _ (fun _ => show execReturnLimitExpiry comp _ = _ from rfl) fun d h => ?_
  split
  next runs => exact returnLimit_law h comp runs
  next => exact h

theorem gccEstopChange (active : Bool) : GrantKeeps (.gccEstopChange active) := by
  refine .of_act _ (fun _ => show execGccEstopChange active _ = _ from rfl) fun d h => ?_
  split
  · exact h
  · exact estop_law h

/-- A pressure handed on moves points alone. -/
theorem handPressure_law {d : Station} (h : d.grantLaw) (n : Nat) (p : Option Nat) : (d.handPressure n p).grantLaw :=
  have m := ((MovesPoints.refl d).handPressure n p).only
  h.keep m.gcc m.dou

theorem gccPressureCapture (comp : Fin 4) (period width : Nat) (tb : Timebase) : GrantKeeps (.gccPressureCapture comp period width tb) := by
  refine .of_act _ (fun _ => show execGccPressureCapture comp period width tb _ = _ from rfl) fun d h => ?_
  split
  · exact h
  · split
    · exact h
    · refine same_law (handPressure_law (same_law h comp _ ?_ ?_ ?_ ?_) _ _) comp _ ?_ ?_ ?_ ?_
      case refine_1 | refine_2 | refine_3 | refine_4 => exact fun _ => rfl
      all_goals intro c; split <;> rfl

theorem gccPressureNoSignal (comp : Fin 4) : GrantKeeps (.gccPressureNoSignal comp) := by
  refine .of_act _ (fun _ => show execGccPressureNoSignal comp _ = _ from rfl) fun d h => ?_
  split
  · exact h
  · refine same_law (handPressure_law (same_law h comp _ ?_ ?_ ?_ ?_) _ _) comp _ ?_ ?_ ?_ ?_
    case refine_1 | refine_2 | refine_3 | refine_4 => exact fun _ => rfl
    all_goals intro c; split <;> rfl

theorem gccFloorRefresh : GrantKeeps .gccFloorRefresh := by
  refine .of_act _ (fun _ => show execGccFloorRefresh _ = _ from rfl) fun d h =>
    forAll_keeps (P := fun x => x.grantLaw) _ h fun i x hx => ?_
  unfold Station.judgeMode
  split
  · exact hx
  · dsimp only
    split
    · exact hx
    · exact same_law hx i _ (fun _ => rfl) (fun _ => rfl) (fun _ => rfl) fun _ => rfl

theorem gccFanActiveValueChange (fan : Fin 4) (value : Nat) (cause : ChangeCause) :
    GrantKeeps (.gccFanActiveValueChange fan value cause) := by
  refine .of_act _ (fun _ => show execGccFanActiveValueChange fan value cause _ = _ from rfl) fun d h => ?_
  dsimp only
  split_ifs
  · exact h
  · exact h
  · exact h

theorem fanRunSecondTimerExpiry : GrantKeeps .fanRunSecondTimerExpiry := by
  refine .of_act _ (fun _ => show execFanRunSecondTimerExpiry _ = _ from rfl) fun d h => ?_
  split
  · exact h
  · exact h

end GrantKeeps

/-! ## START and the resets -/

/-- The output lines start one after the other, each from its section alone. -/
theorem startOutputs_fold (l : List (Fin 16)) (d : Station) :
    l.foldl (fun x i => x.onOut i fun _ => .started x.now (x.cfg.outputs[i]'i.isLt)) d =
      { d with dou := { d.dou with lines := Vector.ofFn fun i => if i ∈ l then .started d.now (d.cfg.outputs[i]'i.isLt) else (d.dou.lines[i]'i.isLt) } } := by
  induction l generalizing d with
  | nil =>
    have same : (Vector.ofFn fun i : Fin 16 => d.dou.lines[i]'i.isLt) = d.dou.lines := Vector.ext fun i h => by simp
    simp [same]
  | cons i l ih =>
    rw [List.foldl_cons, ih]
    have lines : (Vector.ofFn fun j : Fin 16 => if j ∈ l then OutLine.started d.now (d.cfg.outputs[j]'j.isLt) else
        ((d.onOut i fun _ => OutLine.started d.now (d.cfg.outputs[i]'i.isLt)).dou.lines[j]'j.isLt)) =
        Vector.ofFn fun j : Fin 16 => if j ∈ i :: l then OutLine.started d.now (d.cfg.outputs[j]'j.isLt) else (d.dou.lines[j]'j.isLt) := by
      congr 1
      funext j
      by_cases e : j = i
      · subst e; simp
      · simp [e, vecModify_get, Fin.val_ne_of_ne (Ne.symm e)]
    rw [← lines]
    rfl

theorem startOutputs_eq (d : Station) : d.startOutputs =
    { d with dou := { d.dou with lines := Vector.ofFn fun i => .started d.now (d.cfg.outputs[i]'i.isLt) } } := by
  have all := startOutputs_fold (List.finRange 16) d
  simp only [List.mem_finRange, if_true] at all
  exact all

theorem started_quiet (now : Nat) (c : Option OutCfg) : (OutLine.started now c).on = false ∧ (OutLine.started now c).burst = .idle := by
  unfold OutLine.started
  split
  · exact ⟨rfl, rfl⟩
  · dsimp only
    split <;> exact ⟨rfl, rfl⟩

theorem startOutputs_lines (d : Station) (i : Fin 16) :
    (d.startOutputs.dou.lines[i]'i.isLt).on = false ∧ (d.startOutputs.dou.lines[i]'i.isLt).burst = .idle := by
  rw [startOutputs_eq]
  simpa using started_quiet _ _

/-- The compartments start one after the other, all STOPPED. -/
theorem startCooler_law {d : Station} (h : d.grantLaw) (stopped : ∀ i : Fin 4, (d.gcc.comps[i]'i.isLt).state = .stopped) : d.startCooler.grantLaw := by
  unfold Station.startCooler
  refine Station.stageCooler_law (And.left (b := ∀ i : Fin 4, _) (forAll_keeps
    (P := fun x => x.grantLaw ∧ ∀ i : Fin 4, (x.gcc.comps[i]'i.isLt).state = .stopped) _ ⟨h, stopped⟩ fun i x hx => ?_))
  obtain ⟨law, all⟩ := hx
  split
  next k _ =>
    refine ⟨Station.quiet_law law i _ (by rw [all]; decide) (by rw [all]; decide) nofun nofun nofun fun _ => rfl, fun j => ?_⟩
    have := congrFun (Station.comps_onComp i
      (fun _ => { Compartment.first with cfg := some k, baseRate := k.baseRate, shadow := k.minRate, preload := k.minRate }) x) j
    dsimp only at this
    rw [this]
    unfold withComp
    split
    · rfl
    · exact all j
  next => exact ⟨law, all⟩

/-- With every line off, START keeps the first law whatever the lines now serve. -/
theorem startOutputs_fuelLaw {d : Station} (h : FuelLawHolds d) : FuelLawHolds d.startOutputs := by
  have bsq : d.startOutputs.bsq = d.bsq := by rw [startOutputs_eq]
  refine Dark.law ⟨?_, ?_, ?_⟩ (by rw [bsq]; exact h.postPurge)
  · rintro ⟨i, -, on⟩
    rw [(startOutputs_lines d i).1] at on
    cases on
  · rintro ⟨i, -, on⟩
    rw [(startOutputs_lines d i).1] at on
    cases on
  · rintro ⟨i, -, burst⟩
    exact burst (startOutputs_lines d i).2

theorem startOutputs_law {d : Station} (h : d.grantLaw) : d.startOutputs.grantLaw := by
  have dead (k : OutKind) (i : Fin 4) : ¬ d.startOutputs.strokeIsOn k i := by
    rintro ⟨l, -, on⟩
    rw [(startOutputs_lines d l).1] at on
    cases on
  have gcc : d.startOutputs.gcc = d.gcc := by rw [startOutputs_eq]
  unfold Station.grantLaw
  rw [gcc]
  exact h.off (fun i on => absurd on (dead _ i)) fun i on => absurd on (dead _ i)

theorem startCooler_parts (d : Station) : d.startCooler.dou = d.dou ∧ d.startCooler.bsq = d.bsq ∧ d.startCooler.ppt = d.ppt := by
  unfold Station.startCooler
  rw [stageCooler_rest]
  exact forAll_keeps (P := fun x => x.dou = d.dou ∧ x.bsq = d.bsq ∧ x.ppt = d.ppt) _ ⟨rfl, rfl, rfl⟩ fun i x hx => by
    split
    · exact hx
    · exact hx

/-- START keeps each law: the lines begin off and the compartments STOPPED (R73, R136). -/
theorem acceptStart_plant (d : Station) : (FuelLawHolds d → FuelLawHolds d.acceptStart) ∧
    (d.grantLaw → (∀ i : Fin 4, (d.gcc.comps[i]'i.isLt).state = .stopped) → d.acceptStart.grantLaw) ∧ d.acceptStart.ppt.started = true := by
  unfold Station.acceptStart
  dsimp only
  generalize he : d.onPpt _ = e
  have begun : LeavesPlant .noOwner { d with ppt := e.ppt } e ∧ e.ppt.started = true := by
    subst he
    exact ⟨.same rfl rfl rfl rfl, rfl⟩
  obtain ⟨begun, on⟩ := begun
  have a := begun.trans (((KeepsLaws.refl (who := some .noOwner) e).stagePanel.startInputs).plant _ rfl)
  have on : e.stagePanel.startInputs.ppt.started = true := a.started.trans on
  generalize e.stagePanel.startInputs = x at a on ⊢
  have b := (startAlarms_only x.startOutputs).1
  have outs : x.startOutputs.gcc = x.gcc ∧ x.startOutputs.ppt = x.ppt := by rw [startOutputs_eq]; exact ⟨rfl, rfl⟩
  have c := ((KeepsLaws.refl (who := some .noOwner) x.startOutputs.startAlarms).stageBurner.startFeed).plant _ rfl
  have on : x.startOutputs.startAlarms.stageBurner.startFeed.ppt.started = true :=
    c.started.trans ((congrArg Ppt.started b.ppt).trans ((congrArg Ppt.started outs.2).trans on))
  have gcc : x.startOutputs.startAlarms.stageBurner.startFeed.gcc = d.gcc :=
    (c.grate (by decide)).trans (b.gcc.trans (outs.1.trans (a.grate (by decide))))
  have fuel (h : FuelLawHolds d) : FuelLawHolds x.startOutputs.startAlarms.stageBurner.startFeed :=
    c.fuelLaw (by decide) ((startOutputs_fuelLaw (a.fuelLaw (by decide) h.same)).alarms b)
  have grant (h : d.grantLaw) : x.startOutputs.startAlarms.stageBurner.startFeed.grantLaw :=
    c.grantLaw (by decide) ((startOutputs_law (a.grantLaw (by decide) (h.keep rfl rfl))).keep b.gcc b.dou)
  generalize x.startOutputs.startAlarms.stageBurner.startFeed = z at on gcc fuel grant ⊢
  obtain ⟨dou, bsq, ppt⟩ := startCooler_parts z
  have on : z.startCooler.ppt.started = true := (congrArg Ppt.started ppt).trans on
  have fuel (h : FuelLawHolds d) : FuelLawHolds z.startCooler := (fuel h).same dou (congrArg Bsq.state bsq) (congrArg Bsq.postPurge bsq)
  have grant (h : d.grantLaw) (stopped : ∀ i : Fin 4, (d.gcc.comps[i]'i.isLt).state = .stopped) : z.startCooler.grantLaw :=
    startCooler_law (grant h) (by rw [gcc]; exact stopped)
  generalize z.startCooler = w at fuel grant on ⊢
  have last := ((KeepsLaws.refl (who := some .noOwner) w).startShift.startLoop fun _ => on).plant _ rfl
  exact ⟨fun h => last.fuelLaw (by decide) (fuel h), fun h k => last.grantLaw (by decide) (grant h k), last.started.trans on⟩

theorem effect_resetLineAssert (d : Station) : effect .resetLineAssert d = { Station.first with
    now := d.now, draws := d.draws, resetHeld := true, piu := d.piu.reset, alm := .first d.alm.epoch
    sru := d.sru.interrupt, ppt := .first .resetLine } := rfl

/-- A reset puts both laws in force. -/
theorem FuelLawHolds.first {d : Station} (dou : d.dou = Station.first.dou) (bsq : d.bsq = Station.first.bsq) : FuelLawHolds d :=
  first_fuelLaw.same dou (by rw [bsq]) (by rw [bsq])

theorem GrantLawHolds.first {d : Station} (dou : d.dou = Station.first.dou) (gcc : d.gcc = Station.first.gcc) : GrantLawHolds d :=
  (grantLaw_iff d).2 ⟨((grantLaw_iff _).1 first_grantLaw).1.keep gcc dou, fun _ i => by rw [gcc, first_comps]; rfl⟩

/-! ## Every command -/

theorem fuelKeeps (c : Instr) (who : Owner) (h : actor c = some who) : FuelKeeps c := by
  by_cases other : who = .burnerSequencer
  case neg =>
    have known : c ≠ .powerOn := by rintro rfl; cases h
    exact fun d law => ((commandKeeps c known).plant d who h).fuelLaw other law
  case pos =>
    subst other
    cases c
    case burnerStart => exact FuelKeeps.burnerStart
    case burnerStop => exact FuelKeeps.burnerStop
    case lockoutReset => exact FuelKeeps.lockoutReset
    case setHeatDemand => exact FuelKeeps.setHeatDemand _
    case bsqScannerCapture => exact FuelKeeps.bsqScannerCapture _ _ _ _
    case bsqScannerNoSignal => exact FuelKeeps.bsqScannerNoSignal _
    case flameFailTimerExpiry => exact FuelKeeps.flameFailTimerExpiry
    case bsqAirFlowChange => exact FuelKeeps.bsqAirFlowChange _
    case bsqIdFanChange => exact FuelKeeps.bsqIdFanChange _
    case bsqEstopChange => exact FuelKeeps.bsqEstopChange _
    case bsqPurgeTimerExpiry => exact FuelKeeps.bsqPurgeTimerExpiry
    case bsqIgnitionTimerExpiry => exact FuelKeeps.bsqIgnitionTimerExpiry
    case pilotTrialLimitExpiry => exact FuelKeeps.pilotTrialLimitExpiry
    case mainTrialLimitExpiry => exact FuelKeeps.mainTrialLimitExpiry
    case postPurgeTimerExpiry => exact FuelKeeps.postPurgeTimerExpiry
    case shortfallTimerExpiry => exact FuelKeeps.shortfallTimerExpiry
    case coolerLossTimerExpiry => exact FuelKeeps.coolerLossTimerExpiry
    case tripHoldExpiry => exact FuelKeeps.tripHoldExpiry _
    case firingSecondTimerExpiry => exact FuelKeeps.firingSecondTimerExpiry
    case bsqFloorRefresh => exact FuelKeeps.bsqFloorRefresh
    case bsqLeftUp => exact FuelKeeps.bsqLeftUp
    case bsqLoopGraceExpiry => exact FuelKeeps.bsqLoopGraceExpiry
    case bsqPanelLapse => exact FuelKeeps.bsqPanelLapse
    all_goals cases h

theorem grantKeeps (c : Instr) (who : Owner) (h : actor c = some who) : GrantKeeps c := by
  by_cases other : who = .grateCooler
  case neg =>
    have known : c ≠ .powerOn := by rintro rfl; cases h
    exact fun d law => ((commandKeeps c known).plant d who h).grantLaw other law
  case pos =>
    subst other
    cases c
    case coolerEnable => exact GrantKeeps.coolerEnable _
    case coolerDisable => exact GrantKeeps.coolerDisable _
    case setStrokeBase => exact GrantKeeps.setStrokeBase _ _
    case grateClearFault => exact GrantKeeps.grateClearFault _
    case setFan => exact GrantKeeps.setFan _ _
    case dueTimeReached => exact GrantKeeps.dueTimeReached _
    case gccEndForwardChange => exact GrantKeeps.gccEndForwardChange _ _
    case gccEndReturnChange => exact GrantKeeps.gccEndReturnChange _ _
    case forwardLimitExpiry => exact GrantKeeps.forwardLimitExpiry _
    case dwellExpiry => exact GrantKeeps.dwellExpiry _
    case returnLimitExpiry => exact GrantKeeps.returnLimitExpiry _
    case gccEstopChange => exact GrantKeeps.gccEstopChange _
    case gccPressureCapture => exact GrantKeeps.gccPressureCapture _ _ _ _
    case gccPressureNoSignal => exact GrantKeeps.gccPressureNoSignal _
    case gccFloorRefresh => exact GrantKeeps.gccFloorRefresh
    case gccFanActiveValueChange => exact GrantKeeps.gccFanActiveValueChange _ _ _
    case fanRunSecondTimerExpiry => exact GrantKeeps.fanRunSecondTimerExpiry
    all_goals cases h

/-- A command of one owner keeps each law. -/
theorem effect_of_actor {c : Instr} {who : Owner} (h : actor c = some who) (d : Station) :
    (FuelLawHolds d → FuelLawHolds (effect c d)) ∧ (GrantLawHolds d → GrantLawHolds (effect c d)) := by
  have known : c ≠ .powerOn := by rintro rfl; cases h
  have plant := (commandKeeps c known).plant d who h
  refine ⟨fuelKeeps c who h d, fun x => ?_⟩
  obtain ⟨law, config⟩ := (grantLaw_iff d).1 x
  refine (grantLaw_iff _).2 ⟨grantKeeps c who h d law, fun off i => ?_⟩
  rw [plant.comps i]
  exact config (plant.started.symm.trans off) i

theorem effect_holds {c : Instr} {P : Station → Prop} {d : Station} (f : Station → Station) (h : ∀ s, exec c s = act c f s)
    (k : P (f (d.take c))) : P (effect c d) := by
  rw [effect_of_act h]
  exact k

theorem GrantLawHolds.same {a b : Station} (h : GrantLawHolds a) (dou : b.dou = a.dou := by rfl) (gcc : b.gcc = a.gcc := by rfl)
    (started : b.ppt.started = a.ppt.started := by rfl) : GrantLawHolds b := by
  obtain ⟨law, config⟩ := (grantLaw_iff a).1 h
  exact (grantLaw_iff b).2 ⟨law.keep gcc dou, by rw [started, gcc]; exact config⟩

theorem FuelLawHolds.answer {a : Station} (h : FuelLawHolds a) (code : RespCode) (r : Byte) (l : List Byte) :
    FuelLawHolds (a.answer code r l) := h.same

theorem GrantLawHolds.answer {a : Station} (h : GrantLawHolds a) (code : RespCode) (r : Byte) (l : List Byte) :
    GrantLawHolds (a.answer code r l) := h.same

/-- START, made or refused. -/
theorem effect_start_laws (d : Station) :
    (FuelLawHolds d → FuelLawHolds (effect .start d)) ∧ (GrantLawHolds d → GrantLawHolds (effect .start d)) := by
  refine effect_holds (P := fun x => (FuelLawHolds d → FuelLawHolds x) ∧ (GrantLawHolds d → GrantLawHolds x)) _
    (fun _ => show execStart _ = _ from rfl) ?_
  have fuel (h : FuelLawHolds d) : FuelLawHolds (d.take .start) := h.same
  have grant (h : GrantLawHolds d) : GrantLawHolds (d.take .start) := h.same
  generalize d.take .start = e at fuel grant
  split
  next => exact ⟨fun h => (fuel h).answer .wrongState 0 [], fun h => (grant h).answer .wrongState 0 []⟩
  next off =>
    split
    next => exact ⟨fun h => (fuel h).answer _ _ _, fun h => (grant h).answer _ _ _⟩
    next =>
      obtain ⟨fuel', grant', on⟩ := acceptStart_plant e
      rw [Station.ok_eq]
      refine ⟨fun h => (fuel' (fuel h)).answer _ _ _, fun h => GrantLawHolds.answer ?_ _ _ _⟩
      obtain ⟨law, config⟩ := (grantLaw_iff e).1 (grant h)
      exact (grantLaw_iff _).2 ⟨grant' law fun i => law.absent i (config (by simpa using off) i),
        fun no => absurd (on.symm.trans no) (by decide)⟩

/-- Every command keeps each law. -/
theorem effect_plant (c : Instr) (d : Station) :
    (FuelLawHolds d → FuelLawHolds (effect c d)) ∧ (GrantLawHolds d → GrantLawHolds (effect c d)) := by
  cases named : actor c with
  | some who => exact effect_of_actor named d
  | none =>
    have reset : c = .powerOn ∨ c = .resetLineAssert ∨ c = .start := by
      unfold actor at named
      split at named
      · exact .inl rfl
      · exact .inr (.inl rfl)
      · exact .inr (.inr rfl)
      · split at named <;> cases named
    rcases reset with rfl | rfl | rfl
    · rw [effect_powerOn]
      exact ⟨fun _ => .first rfl rfl, fun _ => .first rfl rfl⟩
    · rw [effect_resetLineAssert]
      exact ⟨fun _ => .first rfl rfl, fun _ => .first rfl rfl⟩
    · exact effect_start_laws d

end Sys2Proof.Machine

open Sys2Proof Sys2Proof.Machine in
/-- Settles O59: a command of another block leaves the lines and states that a law is said of, and those of the Burner Sequencer and of the
Grate Cooler Controller keep theirs. -/
theorem stepsKeepTheFuelAndGrantLaws : Obligations.StepsKeepTheFuelAndGrantLaws := by
  intro s t next
  rcases step_cases next with ⟨c, rest, waiting, e⟩ | ⟨-, e⟩ | ⟨-, c, own, e | e⟩
  · rw [e]
    exact effect_plant c s.dev
  · rw [e]
    exact ⟨fun h => h.same, fun h => h.same⟩
  · rw [e]
    exact effect_plant c s.dev
  · rw [e]
    obtain ⟨fuel, grant⟩ := effect_plant c s.dev.drawn
    exact ⟨fun h => fuel h.same, fun h => grant h.same⟩
end

section
/-! SUPPORT. A command as an effect on the station, and what the resets, absorbed trains, marks and recovery timers do. -/

set_option Elab.async false

namespace Sys2Proof.Machine

/-! ## A command as its effect -/

/-- A command's run is its effect on the station. -/
theorem runs_iff {c : Instr} {s : State} {P : Station → Prop} : Runs c s P ↔ P (effect c s.dev) := by
  constructor
  · rintro ⟨t, e, -, p⟩
    rw [exec_effect] at e
    cases e
    exact p
  · exact fun p => ⟨_, exec_effect c s, rfl, p⟩

/-- A command whose meaning is an effect runs to it. -/
theorem Runs.of_act {c : Instr} {f : Station → Station} (h : ∀ s, exec c s = act c f s) {s : State} {P : Station → Prop}
    (p : P (f (s.dev.take c))) : Runs c s P := runs_iff.2 (by rw [effect_of_act h]; exact p)

/-- A command whose meaning is an effect answers the station that the effect leaves. -/
theorem exec_eq {c : Instr} {f : Station → Station} (h : ∀ s, exec c s = act c f s) {s : State} {d : Station}
    (e : f (s.dev.take c) = d) : exec c s = .next { s with dev := d } := by rw [h, act_spec, e]

/-! ## Resets -/

theorem reset_channel (p : Piu) (i : Fin 8) : p.reset.channels[i]'i.isLt = .first (p.channels[i]'i.isLt).pin := by simp [Piu.reset]

theorem reset_line (p : Piu) (i : Fin 12) : p.reset.lines[i]'i.isLt = .first (p.lines[i]'i.isLt).pin := by simp [Piu.reset]

theorem first_channel (i : Fin 8) : State.reset.dev.piu.channels[i]'i.isLt = .first false := by
  simp [State.reset, Station.first]

theorem first_input (i : Fin 12) : State.reset.dev.piu.lines[i]'i.isLt = .first false := by
  simp [State.reset, Station.first]

/-- A channel after a reset is the first one with the pin at its level. -/
theorem reset_channel_eq (p : Piu) (i : Fin 8) : p.reset.channels[i]'i.isLt = { State.reset.dev.piu.channels[i]'i.isLt with
    pin := (p.channels[i]'i.isLt).pin, accepted := (p.channels[i]'i.isLt).pin } := by
  rw [reset_channel, first_channel]
  rfl

theorem reset_line_eq (p : Piu) (i : Fin 12) :
    p.reset.lines[i]'i.isLt = { State.reset.dev.piu.lines[i]'i.isLt with pin := (p.lines[i]'i.isLt).pin } := by
  rw [reset_line, first_input]
  rfl

/-- The RESET line leaves a ring without a COLLECTING report as it is. -/
theorem interrupt_ring_complete {r : Sru} (h : ∀ x ∈ r.ring, x.complete = true) : r.interrupt.ring = r.ring := by
  have none : r.collecting = none := by
    unfold Sru.collecting
    split
    next x e => rw [if_pos (h x (List.mem_of_getLast? e))]
    next => rfl
  simp only [Sru.interrupt, none]

/-- The RESET line completes the COLLECTING report. -/
theorem interrupt_ring_collecting {r : Sru} {old : List Report} {x : Report} (h : r.ring = old ++ [x])
    (open_ : x.complete = false) : r.interrupt.ring = old ++ [x.completed] := by
  have last : r.collecting = some x := by
    unfold Sru.collecting
    rw [h, List.getLast?_concat]
    exact if_neg (by rw [open_]; exact Bool.false_ne_true)
  simp only [Sru.interrupt, last, h, List.dropLast_concat]

/-! ## Absorbed trains and unknown frames -/

section
variable {cmd : Instr} {t : Train} {d : Station}

theorem arrive_bypassed (h : d.lpc.state = .bypassed) : d.arrive t = d := by
  simp [Station.arrive, h]

theorem arrive_listenOnly (h : d.lpc.state = .listenOnly) :
    (d.take cmd).arrive t = (trainCounted cmd d).arriveListening t := by
  simp [Station.arrive, h]
  rfl

theorem arrive_joining (h : d.lpc.state = .joining) :
    (d.take cmd).arrive t = (trainCounted cmd d).arriveJoining t := by
  simp [Station.arrive, h]
  rfl

theorem arrive_up (h : d.lpc.state = .up) : (d.take cmd).arrive t = (trainCounted cmd d).arriveUp t := by
  simp [Station.arrive, h]
  rfl

theorem arrive_recovery (h : d.lpc.state = .claiming ∨ d.lpc.state = .deferring ∨ d.lpc.state = .breakSearch) :
    (d.take cmd).arrive t = (trainCounted cmd d).arriveRecovery t := by
  rcases h with h | h | h <;> simp [Station.arrive, h] <;> rfl

end

/-- In UP at the origin, the train of a higher-numbered origin counts a head error alone. -/
theorem arriveUp_absorbs_higher {t : Train} {h : Head} {d : Station} (head : t.head = some h)
    (origin : d.lpc.origin = true) (higher : (stationByte d.own).toNat < h.origin.toNat) : d.arriveUp t = d.headError := by
  have other : h.origin ≠ d.ownByte := fun e => by rw [e] at higher; exact Nat.lt_irrefl _ higher
  have notLower : ¬ h.origin.toNat < d.ownByte.toNat := Nat.lt_asymm higher
  simp only [Station.arriveUp, head, origin, if_pos, if_neg other, if_neg notLower]

/-- In UP without the origin flag, the own old train counts a head error and ends the look for a write. -/
theorem arriveUp_absorbs_own {t : Train} {h : Head} {d : Station} (head : t.head = some h)
    (member : d.lpc.origin = false) (own : h.origin = stationByte d.own) :
    d.arriveUp t = d.headError.onLpc fun l => { l with prevWrite := false } := by
  have mine : h.origin = d.ownByte := own
  simp only [Station.arriveUp, head, member, if_pos mine, Bool.false_eq_true, if_false]

/-- In recovery, the own old train counts a head error alone. -/
theorem arriveRecovery_absorbs_own {t : Train} {h : Head} {d : Station} (head : t.head = some h)
    (own : h.origin = stationByte d.own) : d.arriveRecovery t = d.headError := by
  have mine : h.origin = d.ownByte := own
  simp only [Station.arriveRecovery, head, if_pos mine]

theorem bump_below {c : Counter} (h : c.count < 65535) : c.bump = { c with count := c.count + 1 } :=
  if_neg (Nat.not_le.2 h)

theorem bump_top {c : Counter} (h : c.count = 65535) : c.bump = { count := 65535, overflowed := true } := by
  unfold Counter.bump
  rw [if_pos (show c.count ≥ top16 from h.ge), h]

/-! ## Marks -/

/-- A mark that a station repeats goes one hop on, or no further. -/
theorem repeatClaim_eq (m : ClaimMark) (d : Station) (hops : m.hops.toNat ≤ 15) : d.repeatClaim m =
    { d with loopOut :=
        d.loopOut ++ if m.hops.toNat = 15 then [] else [withCheck [2, m.rank, m.station, m.hops + 1]] } := by
  unfold Station.repeatClaim
  by_cases last : m.hops.toNat = 15
  · rw [if_pos last, if_pos last.ge, List.append_nil]
  · rw [if_neg last, if_neg fun h => last (Nat.le_antisymm hops h)]
    rfl

theorem repeatBreak_eq (m : BreakMark) (d : Station) (hops : m.hops.toNat ≤ 15) : d.repeatBreak m =
    { d with loopOut :=
        d.loopOut ++ if m.hops.toNat = 15 then [] else [withCheck [3, m.station, m.hops + 1, 0]] } := by
  unfold Station.repeatBreak
  by_cases last : m.hops.toNat = 15
  · rw [if_pos last, if_pos last.ge, List.append_nil]
  · rw [if_neg last, if_neg fun h => last (Nat.le_antisymm hops h)]
    rfl

theorem readClaimMark_eq_some {body : List Byte} {m : ClaimMark} (h : readClaimMark body = some m) :
    body = (withCheck [2, m.rank, m.station, m.hops]).tail ∧ m.rank.toNat ≤ 14 ∧ 1 ≤ m.station.toNat ∧
      m.station.toNat ≤ 16 ∧ m.hops.toNat ≤ 15 := by
  unfold readClaimMark at h
  split at h
  next r s hop a b =>
    split at h
    next ok =>
      cases h
      simp only [Bool.and_eq_true, decide_eq_true_eq, goodStation] at ok
      obtain ⟨⟨⟨code, low, high⟩, rank⟩, hops⟩ := ok
      exact ⟨by rw [code]; rfl, rank, low, high, hops⟩
    next => cases h
  next => cases h

theorem readBreakMark_eq_some {body : List Byte} {m : BreakMark} (h : readBreakMark body = some m) :
    (∃ last, body = (withCheck [3, m.station, m.hops, last]).tail) ∧ 1 ≤ m.station.toNat ∧
      m.station.toNat ≤ 16 ∧ m.hops.toNat ≤ 15 := by
  unfold readBreakMark at h
  split at h
  next s hop z a b =>
    split at h
    next ok =>
      cases h
      simp only [Bool.and_eq_true, decide_eq_true_eq, goodStation] at ok
      obtain ⟨⟨code, low, high⟩, hops⟩ := ok
      exact ⟨⟨z, by rw [code]; rfl⟩, low, high, hops⟩
    next => cases h
  next => cases h

/-- What a claim mark's arrival does, damaged marks and the asserted BYPASS included. -/
def Station.claimArrival (body : List Byte) (d : Station) : Station :=
  match readClaimMark body with
  | none => d
  | some m => if d.lpc.bypass then d else d.arriveClaim m

def Station.breakArrival (body : List Byte) (d : Station) : Station :=
  match readBreakMark body with
  | none => d
  | some m => if d.lpc.bypass then d else d.arriveBreak m

theorem exec_claimMarkArrival (body : List Byte) (s : State) :
    exec (.claimMarkArrival body) s = act (.claimMarkArrival body) (Station.claimArrival body) s := rfl

theorem exec_breakMarkArrival (body : List Byte) (s : State) :
    exec (.breakMarkArrival body) s = act (.breakMarkArrival body) (Station.breakArrival body) s := rfl

theorem claimArrival_damaged {body : List Byte} {d : Station} (h : d.lpc.bypass = true ∨ readClaimMark body = none) :
    d.claimArrival body = d := by
  unfold Station.claimArrival
  split
  next => rfl
  next m e =>
    rcases h with h | h
    · rw [if_pos h]
    · rw [h] at e; cases e

theorem breakArrival_damaged {body : List Byte} {d : Station} (h : d.lpc.bypass = true ∨ readBreakMark body = none) :
    d.breakArrival body = d := by
  unfold Station.breakArrival
  split
  next => rfl
  next m e =>
    rcases h with h | h
    · rw [if_pos h]
    · rw [h] at e; cases e

section
variable {rank station hops : Byte} {d : Station}

theorem claimArrival_good (bypass : d.lpc.bypass = false) (r : rank.toNat ≤ 14) (low : 1 ≤ station.toNat)
    (high : station.toNat ≤ 16) (h : hops.toNat ≤ 15) :
    d.claimArrival (withCheck [2, rank, station, hops]).tail =
      d.arriveClaim { rank := rank, station := station, hops := hops } := by
  simp only [Station.claimArrival, readClaimMark_mark r low high h, bypass, Bool.false_eq_true, if_false]

theorem breakArrival_good (bypass : d.lpc.bypass = false) (low : 1 ≤ station.toNat)
    (high : station.toNat ≤ 16) (h : hops.toNat ≤ 15) :
    d.breakArrival (withCheck [3, station, hops, 0]).tail = d.arriveBreak { station := station, hops := hops } := by
  simp only [Station.breakArrival, readBreakMark_mark low high h, bypass, Bool.false_eq_true, if_false]

end

/-- The own claim mark has the own number and the own rank. -/
theorem isOwnClaim_iff (m : ClaimMark) (d : Station) :
    d.isOwnClaim m = true ↔ m.station = stationByte d.own ∧ m.rank.toNat = d.loopCfg.rank := by
  simp only [Station.isOwnClaim, Bool.and_eq_true, beq_iff_eq]
  rfl

theorem better_iff (m : ClaimMark) (rank : Nat) (station : Byte) : m.better rank station = true ↔
    m.rank.toNat < rank ∨ (m.rank.toNat = rank ∧ m.station.toNat < station.toNat) := by
  simp only [ClaimMark.better, Bool.or_eq_true, Bool.and_eq_true, beq_iff_eq, decide_eq_true_eq]

/-- A mark that differs in number or rank is another station's. -/
theorem isOwnClaim_false {m : ClaimMark} {d : Station} (h : m.station ≠ stationByte d.own ∨ m.rank.toNat ≠ d.loopCfg.rank) :
    d.isOwnClaim m = false := by
  rw [Bool.eq_false_iff, ne_eq, isOwnClaim_iff]
  rintro ⟨s, r⟩
  rcases h with h | h
  · exact h s
  · exact h r

/-- Outside CLAIMING and BREAK SEARCH, a claim mark of another station is repeated and the own one is discarded. -/
theorem arriveClaim_elsewhere {m : ClaimMark} {d : Station} (c : d.lpc.state ≠ .claiming) (b : d.lpc.state ≠ .breakSearch) :
    d.arriveClaim m = if d.isOwnClaim m then d else d.repeatClaim m := by
  unfold Station.arriveClaim
  split
  next e => exact absurd e c
  next e => exact absurd e b
  next => rfl

theorem arriveBreak_elsewhere {m : BreakMark} {d : Station} (b : d.lpc.state ≠ .breakSearch) :
    d.arriveBreak m = if m.station = stationByte d.own then d else d.repeatBreak m := by
  unfold Station.arriveBreak
  split
  next e => exact absurd e b
  next =>
    simp only [beq_iff_eq]
    rfl

theorem arriveClaim_claiming {m : ClaimMark} {d : Station} (c : d.lpc.state = .claiming) (other : d.isOwnClaim m = false) :
    d.arriveClaim m = if m.better d.loopCfg.rank (stationByte d.own) then
      ((d.onLpc fun l => { l with claimSend := none }).repeatClaim m).loopState .deferring else d := by
  simp only [Station.arriveClaim, c, other, Bool.false_eq_true, if_false]
  rfl

/-- A bid is one of the three: better, the own, or worse. -/
theorem bid_worse {rank station : Byte} {own : Nat} {mine : Byte}
    (h : own < rank.toNat ∨ (rank.toNat = own ∧ mine.toNat < station.toNat)) :
    (station ≠ mine ∨ rank.toNat ≠ own) ∧ ¬ (rank.toNat < own ∨ (rank.toNat = own ∧ station.toNat < mine.toNat)) := by
  refine ⟨?_, by omega⟩
  rcases h with h | ⟨_, h⟩
  · exact .inr h.ne'
  · exact .inl fun e => by rw [e] at h; exact Nat.lt_irrefl _ h

theorem bid_better {rank station : Byte} {own : Nat} {mine : Byte}
    (h : rank.toNat < own ∨ (rank.toNat = own ∧ station.toNat < mine.toNat)) : station ≠ mine ∨ rank.toNat ≠ own := by
  rcases h with h | ⟨_, h⟩
  · exact .inr h.ne
  · exact .inl fun e => by rw [e] at h; exact Nat.lt_irrefl _ h

/-! ## Entries to the recovery states -/

/-- A station of rank 14 or less that has sent nothing yet enters CLAIMING with its own mark. -/
theorem enterClaim_claims {d : Station} (rank : d.loopCfg.rank ≤ 14) : d.enterClaim = { d with
    lpc := { d.lpc with state := .claiming, breakSend := none, claimLimit := some (d.now + d.loopCfg.claimLimit * 1000)
                        claimSend := some (d.now + 1000) }
    loopOut := d.loopOut ++ [withCheck [2, BitVec.ofNat 8 d.loopCfg.rank, stationByte d.own, 0]]
    ppt := { d.ppt with events := d.ppt.events ||| 4 } } := by
  unfold Station.enterClaim
  rw [if_pos rank]
  rfl

theorem defer_eq (d : Station) : d.defer = { d with
    lpc := { d.lpc with state := .deferring, breakSend := none, claimLimit := some (d.now + d.loopCfg.claimLimit * 1000) }
    ppt := { d.ppt with events := d.ppt.events ||| 4 } } := rfl

theorem enterClaim_defers {d : Station} (rank : d.loopCfg.rank = 15) : d.enterClaim = d.defer :=
  if_neg (by rw [rank]; decide)

theorem arriveBreak_search {m : BreakMark} {d : Station} (b : d.lpc.state = .breakSearch) :
    d.arriveBreak m = if m.station = stationByte d.own then d.enterClaim else (d.repeatBreak m).onLpc fun l =>
      { l with breakSend := none, breakReport := some { station := m.station, hops := m.hops.toNat + 1 } } := by
  simp only [Station.arriveBreak, b, beq_iff_eq]
  rfl

/-- In BREAK SEARCH a claim mark is conceded to at rank 15 or where it is the better bid. -/
theorem arriveClaim_search_concedes {m : ClaimMark} {d : Station} (b : d.lpc.state = .breakSearch) (rank : m.rank.toNat ≤ 14)
    (h : d.loopCfg.rank = 15 ∨ m.rank.toNat < d.loopCfg.rank ∨
      (m.rank.toNat = d.loopCfg.rank ∧ m.station.toNat < (stationByte d.own).toNat)) :
    d.arriveClaim m = (d.repeatClaim m).defer := by
  have other : d.isOwnClaim m = false := isOwnClaim_false (h.elim (fun e => .inr (by omega)) bid_better)
  have conceded : (decide (d.loopCfg.rank = 15) || m.better d.loopCfg.rank d.ownByte) = true := by
    rw [Bool.or_eq_true, decide_eq_true_eq]
    exact h.imp_right (better_iff _ _ _).2
  simp only [Station.arriveClaim, b, other, conceded, Bool.false_eq_true, if_false, if_true]

/-- In BREAK SEARCH at another rank, a worse bid and the own one lead to CLAIMING. -/
theorem arriveClaim_search_claims {m : ClaimMark} {d : Station} (b : d.lpc.state = .breakSearch)
    (below : d.loopCfg.rank ≠ 15)
    (h : ¬ (m.rank.toNat < d.loopCfg.rank ∨
      (m.rank.toNat = d.loopCfg.rank ∧ m.station.toNat < (stationByte d.own).toNat))) :
    d.arriveClaim m = d.enterClaim := by
  have claims : (decide (d.loopCfg.rank = 15) || m.better d.loopCfg.rank d.ownByte) = false := by
    rw [Bool.or_eq_false_iff, decide_eq_false_iff_not]
    exact ⟨below, Bool.eq_false_iff.2 (mt (better_iff _ _ _).1 h)⟩
  simp only [Station.arriveClaim, b, claims, Bool.false_eq_true, if_false, ite_self]

end Sys2Proof.Machine

open Sys2Proof Sys2Proof.Machine in
/-- Settles O5. -/
theorem resetsPutEveryBlockInItsFirstState : Obligations.ResetsPutEveryBlockInItsFirstState := by
  refine ⟨fun s => runs_iff.2 ?_, fun s => runs_iff.2 ?_, fun s held => ?_⟩
  · rw [effect_powerOn]
    exact ⟨rfl, rfl, rfl, rfl, rfl, rfl, rfl, rfl, reset_channel_eq _, reset_line_eq _, rfl, rfl, rfl, rfl⟩
  · rw [effect_resetLineAssert]
    exact ⟨rfl, rfl, rfl, rfl, rfl, rfl, rfl, reset_channel_eq _, reset_line_eq _, rfl, rfl, rfl, rfl, rfl, rfl, rfl,
      interrupt_ring_complete, fun _ _ => interrupt_ring_collecting, rfl, rfl, rfl, rfl⟩
  · exact exec_eq (c := .resetLineRelease) (fun _ => show execResetLineRelease _ = _ from rfl) (if_pos held)

open Sys2Proof Sys2Proof.Machine in
/-- Settles O8. -/
theorem absorbedAndUnknownFramesCountAHeadErrorAndNothingElse :
    Obligations.AbsorbedAndUnknownFramesCountAHeadErrorAndNothingElse := by
  refine ⟨fun body h s head => ⟨fun up origin higher => ?_, fun up member own => ?_, fun recovery own => ?_⟩,
    fun t s => ⟨fun below => ?_, fun top => ?_⟩⟩
  · refine exec_eq (f := Station.arrive (readTrain body)) (fun _ => rfl) ?_
    rw [arrive_up up, arriveUp_absorbs_higher (t := readTrain body) (d := trainCounted _ _) head origin higher]
    rfl
  · refine exec_eq (f := Station.arrive (readTrain body)) (fun _ => rfl) ?_
    rw [arrive_up up, arriveUp_absorbs_own (t := readTrain body) (d := trainCounted _ _) head member own]
    rfl
  · refine exec_eq (f := Station.arrive (readTrain body)) (fun _ => rfl) ?_
    rw [arrive_recovery recovery, arriveRecovery_absorbs_own (t := readTrain body) (d := trainCounted _ _) head own]
    rfl
  · rw [← bump_below below]
    rfl
  · rw [← bump_top top]
    rfl

open Sys2Proof Sys2Proof.Machine in
/-- Settles O10. -/
theorem marksOfOtherStationsAreRepeatedOneHopOn : Obligations.MarksOfOtherStationsAreRepeatedOneHopOn := by
  refine ⟨fun body s => ⟨fun h => ?_, fun h => ?_⟩, fun rank station hops s bypass r low high hop => ⟨?_, ?_, ?_, ?_⟩⟩
  · refine exec_eq (exec_claimMarkArrival body) (claimArrival_damaged (h.imp id fun other => ?_))
    refine Option.eq_none_iff_forall_ne_some.2 fun m e => ?_
    obtain ⟨spelled, rank, low, high, hops⟩ := readClaimMark_eq_some e
    exact other _ _ _ rank low high hops spelled
  · refine exec_eq (exec_breakMarkArrival body) (breakArrival_damaged (h.imp id fun other => ?_))
    refine Option.eq_none_iff_forall_ne_some.2 fun m e => ?_
    obtain ⟨⟨last, spelled⟩, low, high, hops⟩ := readBreakMark_eq_some e
    exact other _ _ _ low high hops spelled
  · intro c b other
    refine exec_eq (exec_claimMarkArrival _) ?_
    rw [claimArrival_good (d := s.dev.take _) bypass r low high hop, arriveClaim_elsewhere (d := s.dev.take _) c b,
      isOwnClaim_false (d := s.dev.take _) other, if_neg Bool.false_ne_true, repeatClaim_eq _ _ hop]
    rfl
  · intro b other
    refine exec_eq (exec_breakMarkArrival _) ?_
    rw [breakArrival_good (d := s.dev.take _) bypass low high hop, arriveBreak_elsewhere (d := s.dev.take _) b,
      if_neg (show ¬ (BreakMark.mk station hops).station = stationByte (s.dev.take _).own from other), repeatBreak_eq _ _ hop]
    rfl
  · intro c b own same
    refine exec_eq (exec_claimMarkArrival _) ?_
    rw [claimArrival_good (d := s.dev.take _) bypass r low high hop, arriveClaim_elsewhere (d := s.dev.take _) c b,
      if_pos ((isOwnClaim_iff _ _).2 ⟨own, same⟩)]
  · intro b own
    refine exec_eq (exec_breakMarkArrival _) ?_
    rw [breakArrival_good (d := s.dev.take _) bypass low high hop, arriveBreak_elsewhere (d := s.dev.take _) b,
      if_pos (show (BreakMark.mk station hops).station = stationByte (s.dev.take _).own from own)]

open Sys2Proof Sys2Proof.Machine in
/-- Settles O11. -/
theorem claimingConcedesToTheBetterBid : Obligations.ClaimingConcedesToTheBetterBid := by
  intro rank station hops s bypass claiming r low high hop
  refine ⟨fun better => ?_, fun worse => ?_⟩
  · refine exec_eq (exec_claimMarkArrival _) ?_
    rw [claimArrival_good (d := s.dev.take _) bypass r low high hop,
      arriveClaim_claiming (d := s.dev.take _) claiming (isOwnClaim_false (bid_better better)),
      if_pos ((better_iff _ _ _).2 better), repeatClaim_eq _ _ hop]
    rfl
  · obtain ⟨other, notBetter⟩ := bid_worse worse
    refine exec_eq (exec_claimMarkArrival _) ?_
    rw [claimArrival_good (d := s.dev.take _) bypass r low high hop,
      arriveClaim_claiming (d := s.dev.take _) claiming (isOwnClaim_false other),
      if_neg (mt (better_iff _ _ _).1 notBetter)]

open Sys2Proof Sys2Proof.Machine in
/-- Settles O13. -/
theorem breakSearchReportsTheUpstreamStation : Obligations.BreakSearchReportsTheUpstreamStation := by
  refine ⟨fun station hops s bypass search low high hop => ⟨fun other => ?_, fun own rank => ?_, fun own rank => ?_⟩,
    fun rank station hops s bypass search r low high hop top => ⟨fun concedes => ?_, fun below notBetter => ?_⟩⟩
  · refine exec_eq (exec_breakMarkArrival _) ?_
    rw [breakArrival_good (d := s.dev.take _) bypass low high hop, arriveBreak_search (d := s.dev.take _) search,
      if_neg (show ¬ (BreakMark.mk station hops).station = stationByte (s.dev.take _).own from other), repeatBreak_eq _ _ hop]
    rfl
  · refine exec_eq (exec_breakMarkArrival _) ?_
    rw [breakArrival_good (d := s.dev.take _) bypass low high hop, arriveBreak_search (d := s.dev.take _) search,
      if_pos (show (BreakMark.mk station hops).station = stationByte (s.dev.take _).own from own), enterClaim_claims (d := s.dev.take _) rank, own]
    rfl
  · refine exec_eq (exec_breakMarkArrival _) ?_
    rw [breakArrival_good (d := s.dev.take _) bypass low high hop, arriveBreak_search (d := s.dev.take _) search,
      if_pos (show (BreakMark.mk station hops).station = stationByte (s.dev.take _).own from own), enterClaim_defers (d := s.dev.take _) rank]
    rfl
  · refine exec_eq (exec_claimMarkArrival _) ?_
    rw [claimArrival_good (d := s.dev.take _) bypass r low high hop,
      arriveClaim_search_concedes (d := s.dev.take _) (m := ⟨rank, station, hops⟩) search r concedes, repeatClaim_eq _ _ hop]
    rfl
  · refine exec_eq (exec_claimMarkArrival _) ?_
    have claims : s.dev.loopCfg.rank ≤ 14 := by omega
    rw [claimArrival_good (d := s.dev.take _) bypass r low high hop,
      arriveClaim_search_claims (d := s.dev.take _) (m := ⟨rank, station, hops⟩) search below notBetter,
      enterClaim_claims (d := s.dev.take _) claims]
    rfl

open Sys2Proof Sys2Proof.Machine in
/-- Settles O14. -/
theorem recoveryTimersSendMarksAndMoveOn : Obligations.RecoveryTimersSendMarksAndMoveOn := by
  intro s e
  refine ⟨fun claiming timer => ?_, fun search timer => ?_, fun recovery timer => ?_, fun grace => ?_⟩
  · refine exec_eq (c := .claimMarkSend) (fun _ => show execClaimMarkSend _ = _ from rfl) (if_pos ?_)
    simp [claiming, timer]
  · refine exec_eq (c := .breakMarkSend) (fun _ => show execBreakMarkSend _ = _ from rfl) (if_pos ?_)
    simp [search, timer]
  · refine exec_eq (c := .claimLimitExpiry) (fun _ => show execClaimLimitExpiry _ = _ from rfl) (if_pos ?_)
    simpa [timer] using recovery
  · refine exec_eq (c := .loopGraceExpiry) (fun _ => show execLoopGraceExpiry _ = _ from rfl) ?_
    simp only [Station.take_fields, grace]
    simp [Station.graceExpired, Station.onLpc, Station.raise, Station.take]
end

section
/-! SUPPORT. Departures from UP, entries to it, and the release of a train, as the statements write them. -/

set_option Elab.async false

namespace Sys2Proof.Machine

/-! ## What stays within the reach of reports -/

theorem AlarmsOnly.post {a b : Station} (h : AlarmsOnly a b) (e : HostEvent) : AlarmsOnly a (b.post e) :=
  h.trans ⟨by simp, by simp, rfl⟩

theorem AlarmsOnly.raise {a b : Station} (h : AlarmsOnly a b) (c : Instr) : AlarmsOnly a (b.raise c) :=
  h.trans ⟨by simp, by simp, rfl⟩

theorem AlarmsOnly.report {a b : Station} (h : AlarmsOnly a b) (k : CondKind) (n : Nat) (v : Bool) :
    AlarmsOnly a (b.report k n v) := h.trans (report_only k n v b)

/-- Both stations enter one loop state; the first without the host event. -/
theorem AlarmsOnly.loopState {a b : Station} (h : AlarmsOnly a b) (st : LoopState) :
    AlarmsOnly { a with lpc := { a.lpc with state := st } } (b.loopState st) :=
  ⟨h.signals, events_trans h.events (and_or_self _ _), by
    have rest := h.rest
    unfold Station.loopState Station.post Station.onLpc Station.onPpt
    rw [rest]⟩

namespace FloorOnly
variable {a b : Station} (h : FloorOnly a b)
include h

theorem now : b.now = a.now := by rw [h.rest]

theorem cfg : b.cfg = a.cfg := by
  unfold Station.cfg
  rw [h.rest]

theorem loopCfg : b.loopCfg = a.loopCfg := by
  unfold Station.loopCfg
  rw [h.cfg]

theorem ownSig : b.ownSig = a.ownSig := by
  unfold Station.ownSig
  rw [h.rest]

end FloorOnly

/-! ## Entries to UP and departures from it -/

/-- The Loop Controller that has entered UP: the watch runs, and every mark, limit and grace is ended (R17, R27). -/
def Station.enteredUp (d : Station) : Station :=
  { d with lpc := { d.lpc with
    claimSend := none, breakSend := none, claimLimit := none, grace := .idle, watch := some d.watchEnd, state := .up } }

/-- The Loop Controller that has left UP (R24, R25). -/
def Station.departedUp (st : LoopState) (d : Station) : Station :=
  { d with lpc := { d.lpc with
    origin := false, watch := none, release := .idle, awaiting := false, prevWrite := false
    loopLost := some d.sru.time, state := st
    grace := if d.loopCfg.grace = 0 then .expired else .running (d.now + d.loopCfg.grace * 1000000) } }

/-- What a departure from UP raises for the blocks, the grace of 0 included (R24, R25). -/
def leftUpSignals (grace : Nat) : List Instr :=
  if grace = 0 then [.bsqLeftUp, .fdcLeftUp, .sruLeftUp, .bsqLoopGraceExpiry, .fdcLoopGraceExpiry]
  else [.bsqLeftUp, .fdcLeftUp, .sruLeftUp]

/-- A move between loop states that reports LOOP LOST, tells the blocks and posts LOOP STATE. -/
structure LoopMoves (lost : Bool) (told : List Instr) (a b : Station) : Prop where
  only : AlarmsOnly a b
  lost : b.condition .loopLost 0 = lost
  told : told <:+ b.signals
  posted : b.ppt.events &&& 4 = 4

theorem loopState_posted (st : LoopState) (d : Station) : (d.loopState st).ppt.events &&& 4 = 4 :=
  or_and_right_self d.ppt.events 4

theorem enterUp_moves (d : Station) : LoopMoves false [.fdcEnteredUp, .sruEnteredUp] d.enteredUp d.enterUp := by
  let started := (d.onLpc fun l => { l with claimSend := none, breakSend := none, claimLimit := none, grace := .idle }).startWatch
  have told := ((report_only .loopLost 0 false started).raise .fdcEnteredUp).raise .sruEnteredUp
  exact ⟨told.loopState .up, report_condition .loopLost 0 false started, ⟨_, (List.append_assoc _ [_] [_]).symm⟩,
    loopState_posted _ _⟩

/-- The departure where the loop grace is 0 or is not. -/
theorem departUp_eq (st : LoopState) (d : Station) : d.departUp st =
    ((if d.loopCfg.grace = 0 then Station.graceExpired else id)
      (((((d.onLpc fun l => { l with
        origin := false, watch := none, release := .idle, awaiting := false, prevWrite := false,
        loopLost := some d.sru.time, grace := .running (d.inSec d.loopCfg.grace) }).report .loopLost 0 true).raise
          .bsqLeftUp).raise .fdcLeftUp).raise .sruLeftUp)).loopState st := by
  unfold Station.departUp
  by_cases zero : d.loopCfg.grace = 0
  · simp only [if_pos zero]
  · simp only [if_neg zero, id]

theorem AlarmsOnly.graceExpired {a b : Station} (h : AlarmsOnly a b) :
    AlarmsOnly { a with lpc := { a.lpc with grace := .expired } } b.graceExpired := by
  refine ⟨h.signals.trans ⟨[.bsqLoopGraceExpiry, .fdcLoopGraceExpiry], (List.append_assoc _ [_] [_]).symm⟩, h.events, ?_⟩
  have rest := h.rest
  unfold Station.graceExpired Station.raise Station.onLpc
  rw [rest]

theorem departUp_moves (st : LoopState) (d : Station) :
    LoopMoves true (leftUpSignals d.loopCfg.grace) (d.departedUp st) (d.departUp st) := by
  rw [departUp_eq]
  let started := d.onLpc fun l => { l with
    origin := false, watch := none, release := .idle, awaiting := false, prevWrite := false
    loopLost := some d.sru.time, grace := .running (d.inSec d.loopCfg.grace) }
  have told := (((report_only .loopLost 0 true started).raise .bsqLeftUp).raise .fdcLeftUp).raise .sruLeftUp
  have lost := report_condition .loopLost 0 true started
  unfold leftUpSignals Station.departedUp
  by_cases zero : d.loopCfg.grace = 0
  · simp only [if_pos zero]
    refine ⟨told.graceExpired.loopState st, lost, ⟨(started.report .loopLost 0 true).signals, ?_⟩, loopState_posted _ _⟩
    simp [Station.loopState, Station.graceExpired, started]
  · simp only [if_neg zero]
    refine ⟨told.loopState st, lost, ⟨(started.report .loopLost 0 true).signals, ?_⟩, loopState_posted _ _⟩
    simp [Station.loopState, started]

/-! ## The notices placed by a write of the own slot -/

/-- The notices among some that are not yet placed. -/
def unplaced (l : List QueueEntry) : List QueueEntry := l.filter fun e => !e.placed

/-- An entry as it is placed at a sequence number, unless it stands placed already (R41, R45). -/
def QueueEntry.placedAt (n : Byte) (e : QueueEntry) : QueueEntry :=
  if e.placed = false then { e with placed := true, rotations := 0, seq := n } else e

/-- Each entry not yet placed takes the number after those of the entries before it. -/
theorem placeEntries_eq (n : Byte) (l : List QueueEntry) : placeEntries n l =
    (l.mapIdx fun k e => e.placedAt (n + BitVec.ofNat 8 (unplaced (l.take k)).length),
      n + BitVec.ofNat 8 (unplaced l).length) := by
  induction l generalizing n with
  | nil => simp [placeEntries, unplaced]
  | cons e l ih =>
    unfold placeEntries
    by_cases placed : e.placed = true
    · rw [if_pos placed, ih n, List.mapIdx_cons]
      simp [unplaced, placed, QueueEntry.placedAt]
    · have next (k : Nat) : n + 1 + BitVec.ofNat 8 k = n + BitVec.ofNat 8 (k + 1) := by
        rw [BitVec.add_assoc, show (1 : Byte) = BitVec.ofNat 8 1 from rfl, ← BitVec.ofNat_add, Nat.add_comm]
      rw [if_neg placed, ih (n + 1), List.mapIdx_cons]
      simp only [next]
      simp [unplaced, placed, QueueEntry.placedAt]

theorem placed_eq (l : Lpc) : l.placed =
    { l with
      queue := placedQueue l
      nextSeq := l.nextSeq + BitVec.ofNat 8 ((l.queue.take 4).filter fun x => !x.placed).length } := by
  have queue : (l.queue.take 4).mapIdx (fun k e =>
      e.placedAt (l.nextSeq + BitVec.ofNat 8 (unplaced ((l.queue.take 4).take k)).length)) ++ l.queue.drop 4 =
      placedQueue l := by
    unfold placedQueue
    refine List.ext_getElem (by simp; omega) fun k left right => ?_
    rw [List.getElem_append, List.getElem_mapIdx]
    split
    next early =>
      have low : k < 4 := by rw [List.length_mapIdx, List.length_take] at early; omega
      simp [QueueEntry.placedAt, unplaced, low, List.take_take, Nat.min_eq_left low.le]
    next late =>
      have high : ¬ k < 4 := by
        rw [List.length_mapIdx, List.length_take] at late
        rw [List.length_mapIdx] at right
        omega
      have full : (l.queue.take 4).length = 4 := by
        rw [List.length_mapIdx] at right
        rw [List.length_take]
        omega
      simp [high, full, List.getElem_drop, Nat.add_sub_of_le (Nat.le_of_not_lt high)]
  unfold Lpc.placed
  rw [placeEntries_eq, ← queue]
  rfl

/-- The image of a staging record, each part that is not there by its default. -/
theorem image_eq (g : Staging) (station seq : Byte) (notices : List Notice) : g.image station seq notices =
    let trip := g.alarm.bind fun a => a.trip
    { station := station, seq := seq
      sig := (g.panel.map fun p => p.sig).getD 0, panelPresent := (g.panel.map fun p => p.present).getD false
      epoch := (g.alarm.map fun a => a.epoch).getD 0, tripRequest := trip.isSome
      firstPoint := ((trip.bind fun t => t.point).map fun i => BitVec.ofNat 8 i.val).getD 255
      firstKind := trip.map fun t => t.kind, openShift := g.openShift.getD 0
      burner := g.burner, feed := g.feed, cooler := g.cooler
      summary := g.summary.getD { unacked := 0, highest := .none, flood := 0 }
      closing := g.closing.getD { shift := 0, heat := 0, firing := 0, strokes := 0, trips := 0 }
      notices := notices } := by
  obtain ⟨panel, alarm, _, _, _, _, _, _⟩ := g
  cases alarm with
  | none => cases panel <;> rfl
  | some a =>
    obtain ⟨_, trip⟩ := a
    cases trip with
    | none => cases panel <;> rfl
    | some t =>
      obtain ⟨point, _⟩ := t
      cases point <;> cases panel <;> rfl

/-- The image that the statements write out is the one that a write of the own slot makes. -/
theorem ownImage_eq (d : Station) : ownImage d = d.ownImage := by
  unfold Station.ownImage
  rw [image_eq, placed_eq]
  rfl

theorem writeOwn_eq (d : Station) :
    d.writeOwn = (ownWritten d, withCheck (BitVec.ofNat 8 (ownImage d).bytes.length :: (ownImage d).bytes)) := by
  rw [writeOwn_spec, ← ownImage_eq, placed_eq]
  rfl

/-! ## The release of a train -/

theorem release_eq (d : Station) : d.release = released d := by
  unfold Station.release
  simp only [writeOwn_eq]
  rfl

/-- The station with a train sent under a head and an own image, the open shift not yet moved. -/
def Station.trainOut (h : Head) (g : Image) (d : Station) : Station :=
  { d with
    lpc := { d.lpc.placed with
      floor := vecModify d.lpc.floor d.own fun _ => { image := some g, seq := g.seq, age := 0, seen := true }
      prevWrite := true, lastHead := some h, release := .running (d.now + d.loopCfg.cycle * 1000), awaiting := true }
    loopOut := d.loopOut ++ [h.bytes ++ ((List.finRange 16).map fun i =>
      if i = d.own then withCheck (BitVec.ofNat 8 g.bytes.length :: g.bytes) else d.lpc.returned.getD i.val [0]).flatten] }

theorem trainOut_own {i : Fin 16} {d : Station} (own : d.own = i) (h : Head) (g : Image) :
    (d.trainOut h g).lpc.floor[i]'i.isLt = { image := some g, seq := g.seq, age := 0, seen := true } := by
  subst own
  exact vecModify_same _ _ _

theorem trainOut_other {i : Fin 16} {d : Station} (ne : i ≠ d.own) (h : Head) (g : Image) :
    (d.trainOut h g).lpc.floor[i]'i.isLt = d.lpc.floor[i]'i.isLt :=
  vecModify_ne _ _ _ _ _ fun e => ne (Fin.ext e.symm)

/-- The head that a release builds, but for the shift that the convergence opens (R15). -/
structure HeadBuilt (d : Station) (h : Head) : Prop where
  origin : h.origin = stationByte d.own
  time : h.time = d.sru.time
  seq : h.seq = match d.lpc.lastHead with
    | some l => l.seq + 1
    | none => 0
  size : h.size = BitVec.ofNat 8 d.lpc.loopSize
  sig : h.sig = d.ppt.sig.getD 0

/-- A release sends one train; besides, it moves what the Shift Report Unit has. -/
theorem release_train (d : Station) : ∃ h g, HeadBuilt d h ∧ g.seq = d.lpc.floor[d.own].seq + 1 ∧
    ShiftOnly (d.trainOut h g) d.release := by
  obtain ⟨e, he⟩ : ∃ e, e = d.converge := ⟨_, rfl⟩
  have time : e.sru.time = d.sru.time := by rw [he, converge_time]
  obtain ⟨conv, out⟩ := release_spec d e he
  refine ⟨e.newHead, e.ownImage, ?_⟩
  obtain ⟨sru, events, openShift, closing, rest⟩ : ∃ sru events openShift closing, e = { d with
      sru := sru, ppt := { d.ppt with events := events }
      lpc := { d.lpc with staging := { d.lpc.staging with openShift := openShift, closing := closing } } } :=
    ⟨_, _, _, _, conv.rest⟩
  subst rest
  refine ⟨⟨rfl, time, rfl, rfl, rfl⟩, rfl, ShiftOnly.trans ?_ out⟩
  exact ⟨conv.events, rfl⟩

namespace ShiftOnly
variable {a b : Station} (h : ShiftOnly a b)
include h

theorem lpc : b.lpc = { a.lpc with staging := { a.lpc.staging with
    openShift := b.lpc.staging.openShift, closing := b.lpc.staging.closing } } := congrArg Station.lpc h.rest

theorem signals : b.signals = a.signals := by rw [h.rest]

theorem loopOut : b.loopOut = a.loopOut := by rw [h.rest]

theorem alm : b.alm = a.alm := by rw [h.rest]

end ShiftOnly

/-- A host event that is posted stays posted where no event is lost. -/
theorem posted_kept {bit a b : Byte} (posted : a &&& bit = bit) (kept : a &&& b = a) : b &&& bit = bit := by
  rw [BitVec.and_comm] at posted ⊢
  exact events_trans posted kept

/-! ## The claim won -/

/-- A claim round counted and handed on (R21, R31). -/
def Station.roundCounted (d : Station) : Station :=
  (d.onCounters fun c => { c with claimRounds := c.claimRounds.bump }).contribute .claimRound

/-- The station that has won the claim, before it releases its train (R31). -/
def Station.claimWon (hops : Nat) (d : Station) : Station :=
  { d.enterUp with lpc := { d.enterUp.lpc with origin := true, loopSize := hops, returned := List.replicate 16 [0] } }

theorem winClaim_eq (m : ClaimMark) (d : Station) : d.winClaim m =
    released (d.roundCounted.claimWon (m.hops.toNat + 1)) := release_eq _

theorem arriveClaim_wins {m : ClaimMark} {d : Station} (c : d.lpc.state = .claiming) (own : m.station = stationByte d.own)
    (rank : m.rank.toNat = d.loopCfg.rank) : d.arriveClaim m = d.winClaim m := by
  have mine : d.isOwnClaim m = true := (isOwnClaim_iff m d).2 ⟨own, rank⟩
  simp only [Station.arriveClaim, c, mine, if_true]

/-! ## The train watch -/

/-- The Loop Controller that enters CLAIMING, or DEFERRING at rank 15, with its frame sent (R16, R29). -/
def Station.claimEntered (d : Station) : Station :=
  { d with
    lpc := { d.lpc with
      state := if d.loopCfg.rank ≤ 14 then .claiming else .deferring, breakSend := none
      claimLimit := some (d.now + d.loopCfg.claimLimit * 1000)
      claimSend := if d.loopCfg.rank ≤ 14 then some (d.now + 1000) else d.lpc.claimSend }
    loopOut := d.loopOut ++ if d.loopCfg.rank ≤ 14 then
      [withCheck [2, BitVec.ofNat 8 d.loopCfg.rank, stationByte d.own, 0]] else [] }

theorem enterClaim_eq (d : Station) : d.enterClaim = { d.claimEntered with
    ppt := { d.ppt with events := d.ppt.events ||| 4 } } := by
  unfold Station.claimEntered
  by_cases rank : d.loopCfg.rank ≤ 14
  · simp only [enterClaim_claims rank, if_pos rank]
  · simp only [if_neg rank, List.append_nil]
    exact if_neg rank

/-- What reports moved before stays within their reach where the station claims. -/
theorem AlarmsOnly.enterClaim {a b : Station} (h : AlarmsOnly a b) : AlarmsOnly a.claimEntered b.enterClaim := by
  have rest := h.rest
  have rank := h.floorOnly.loopCfg
  have own := h.floorOnly.own
  rw [enterClaim_eq]
  refine ⟨h.signals, events_trans h.events (and_or_self _ _), ?_⟩
  unfold Station.claimEntered
  rw [rank, own, rest]

/-- The station whose train watch has run out: the watch stopped, a train missed counted and handed on (R16, R21). -/
def Station.trainMissed (d : Station) : Station :=
  { d with
    lpc := { d.lpc with
      watch := none, counters := { d.lpc.counters with trainsMissed := d.lpc.counters.trainsMissed.bump } }
    signals := d.signals ++ [.sruContribution .trainMissed] }

def Station.watchExpiry (d : Station) : Station :=
  if d.lpc.watch.isNone then d
  else
    match d.lpc.state with
    | .up => (d.trainMissed.departUp .up).enterClaim
    | .joining => (d.trainMissed.onLpc fun l => { l with bypass := false }).enterClaim
    | _ => d.trainMissed

theorem exec_trainWatchExpiry (s : State) :
    exec .trainWatchExpiry s = act .trainWatchExpiry Station.watchExpiry s := rfl

theorem watchExpiry_joining {d : Station} {e : Nat} (run : d.lpc.watch = some e) (joining : d.lpc.state = .joining) :
    d.watchExpiry = (d.trainMissed.onLpc fun l => { l with bypass := false }).enterClaim := by
  simp [Station.watchExpiry, run, joining]

theorem watchExpiry_up {d : Station} {e : Nat} (run : d.lpc.watch = some e) (up : d.lpc.state = .up) :
    d.watchExpiry = (d.trainMissed.departUp .up).enterClaim := by
  simp [Station.watchExpiry, run, up]

end Sys2Proof.Machine

open Sys2Proof Sys2Proof.Machine in
/-- Settles O15. -/
theorem trainWatchExpiryLeavesForTheClaim : Obligations.TrainWatchExpiryLeavesForTheClaim := by
  refine fun s e run => ⟨fun joining => exec_eq exec_trainWatchExpiry ?_, fun up => .of_act exec_trainWatchExpiry ?_⟩
  · rw [watchExpiry_joining (d := s.dev.take _) run joining, enterClaim_eq]
    rfl
  · rw [watchExpiry_up (d := s.dev.take _) run up]
    have moves := departUp_moves .up (s.dev.take .trainWatchExpiry).trainMissed
    refine ⟨?_, ?_, ?_, moves.only.enterClaim⟩
    · rw [enterClaim_eq]
      exact moves.lost
    · rw [enterClaim_eq]
      exact or_and_right_self _ _
    · rw [enterClaim_eq]
      exact moves.told

open Sys2Proof Sys2Proof.Machine in
/-- Settles O12. -/
theorem ownClaimMarkBackWinsTheClaim : Obligations.OwnClaimMarkBackWinsTheClaim := by
  intro hops s bypass claiming rank hop claim x won
  refine .of_act (exec_claimMarkArrival _) ?_
  have number : (BitVec.ofNat 8 s.dev.loopCfg.rank).toNat = s.dev.loopCfg.rank := by
    rw [BitVec.toNat_ofNat]; omega
  have low : (BitVec.ofNat 8 s.dev.loopCfg.rank).toNat ≤ 14 := by rw [number]; exact rank
  rw [claimArrival_good (d := x) bypass low (stationByte_pos _) (stationByte_le _) hop,
    arriveClaim_wins (d := x) (m := ⟨BitVec.ofNat 8 s.dev.loopCfg.rank, stationByte s.dev.own, hops⟩) claiming rfl number,
    winClaim_eq]
  have moves := enterUp_moves x.roundCounted
  obtain ⟨h, g, built, -, sent⟩ := release_train (x.roundCounted.claimWon (hops.toNat + 1))
  rw [release_eq] at sent
  obtain ⟨d, run⟩ : ∃ d, d = released (x.roundCounted.claimWon (hops.toNat + 1)) := ⟨_, rfl⟩
  rw [← run] at sent
  simp only [← run]
  have entered := moves.only.lpc
  have own : won.own = s.dev.own := moves.only.floorOnly.own
  have loop : won.loopCfg = s.dev.loopCfg := moves.only.floorOnly.loopCfg
  have after := sent.lpc
  have told : ∀ c ∈ won.signals, c ∈ d.signals := fun c mem => by rw [sent.signals]; exact mem
  have absent : d.condition .loopLost 0 = false := by
    unfold Station.condition
    rw [sent.alm]
    exact moves.lost
  have entry : d.lpc.floor[s.dev.own].image = some g := by
    rw [after]
    exact congrArg FloorEntry.image (trainOut_own own h g)
  have timer : d.lpc.release = .running (s.dev.now + s.dev.loopCfg.cycle * 1000) := by
    rw [after, ← loop, show s.dev.now = won.now from moves.only.now.symm]
    rfl
  have frame : d.loopOut = [h.bytes ++ ((List.finRange 16).map fun i =>
      if i = s.dev.own then withCheck (BitVec.ofNat 8 g.bytes.length :: g.bytes) else [0]).flatten] := by
    have quiet : won.loopOut = [] := moves.only.loopOut
    have empty (i : Fin 16) : (List.replicate 16 [(0 : Byte)]).getD i.val [0] = [0] := by
      rw [List.getD_eq_getElem _ _ (by rw [List.length_replicate]; exact i.isLt), List.getElem_replicate]
    rw [sent.loopOut]
    show won.loopOut ++ [h.bytes ++ ((List.finRange 16).map fun i : Fin 16 =>
      if i = won.own then _ else (List.replicate 16 [(0 : Byte)]).getD i.val [0]).flatten] = _
    simp only [quiet, own, empty, List.nil_append]
  exact ⟨run, by rw [after]; exact (congrArg Lpc.state entered :), by rw [after]; rfl, by rw [after]; rfl,
    by rw [after]; exact (congrArg Lpc.claimSend entered :), by rw [after]; exact (congrArg Lpc.breakSend entered :),
    by rw [after]; exact (congrArg Lpc.claimLimit entered :), by rw [after]; exact (congrArg Lpc.grace entered :),
    by rw [after]; exact (congrArg Lpc.watch entered :), timer, by rw [after]; rfl,
    by rw [after]; rfl, absent, by rw [after]; exact (congrArg Lpc.counters entered :),
    by rw [after]; exact (congrArg Lpc.breakReport entered :), by rw [after]; exact (congrArg Lpc.loopLost entered :),
    told _ (moves.only.signals.subset (List.mem_append_right _ (List.mem_singleton_self _))),
    told _ (moves.told.subset (.head _)), told _ (moves.told.subset (.tail _ (.head _))),
    posted_kept moves.posted sent.events, h, g, by rw [after]; rfl, built.origin.trans (congrArg stationByte own),
    built.size, entry, frame⟩
end

section
/-! SUPPORT. What a train arrival takes, as the statements write it: the head, the peer slots, the judgement of the own slot. -/

set_option Elab.async false

namespace Sys2Proof.Machine

/-! ## What stays within the reach of notices and heads -/

namespace FloorOnly
variable {a b : Station} (h : FloorOnly a b)
include h

theorem lpc : b.lpc = { a.lpc with
    queue := b.lpc.queue
    staging := { a.lpc.staging with
      alarm := b.lpc.staging.alarm, summary := b.lpc.staging.summary
      openShift := b.lpc.staging.openShift, closing := b.lpc.staging.closing } } := congrArg Station.lpc h.rest

theorem loopOut : b.loopOut = a.loopOut := by rw [h.rest]

theorem watchEnd : b.watchEnd = a.watchEnd := by
  unfold Station.watchEnd Station.inMs
  rw [h.now, h.loopCfg]

end FloorOnly

/-! ## Heads -/

/-- A good head noted: the last head, and the watch started in JOINING and UP (R4, R16). -/
def Station.headNoted (h : Head) (d : Station) : Station :=
  { d with lpc := { d.lpc with
    lastHead := some h
    watch := if d.lpc.state = .joining ∨ d.lpc.state = .up then
      some (d.now + d.loopCfg.watchMultiple * d.loopCfg.cycle * 1000) else d.lpc.watch } }

/-- A noted head judged by its signature and, in UP without the origin flag, handed on (R4). -/
def Station.headJudged (h : Head) (d : Station) : Station :=
  let x := d.judgeConfig h.sig
  if (decide (x.lpc.state = .up) && !x.lpc.origin) = true then x.takeHead h.time h.shift else x

theorem headNoted_eq (h : Head) (d : Station) :
    (if (decide (d.lpc.state = .joining) || decide (d.lpc.state = .up)) = true then
      (d.onLpc fun l => { l with lastHead := some h }).startWatch
    else d.onLpc fun l => { l with lastHead := some h }) = d.headNoted h := by
  unfold Station.headNoted
  by_cases c : d.lpc.state = .joining ∨ d.lpc.state = .up
  · rw [if_pos (by simpa using c), if_pos c]
    rfl
  · rw [if_neg (by simpa using c), if_neg c]
    rfl

/-- A head as the model takes it is the head as the statements take it. -/
theorem headOrError_eq (head : Option Head) (d : Station) : d.headOrError head = headTaken head d := by
  cases head with
  | none => rfl
  | some h =>
    have run : d.headOrError (some h) = (d.headNoted h).headJudged h := congrArg (Station.headJudged h) (headNoted_eq h d)
    have judged := (judgeConfig_spec h.sig (d.headNoted h)).1.lpc
    have state : ((d.headNoted h).judgeConfig h.sig).lpc.state = d.lpc.state := by rw [judged]; rfl
    have origin : ((d.headNoted h).judgeConfig h.sig).lpc.origin = d.lpc.origin := by rw [judged]; rfl
    rw [run]
    unfold Station.headJudged
    simp only [state, origin, Bool.and_eq_true, decide_eq_true_eq, Bool.not_eq_true']
    rfl

/-! ## The peer slots -/

/-- The slot positions of a train's body. -/
def slotsOf (body : List Byte) : List (List Byte) := (splitSlots 16 (body.drop 14)).1

theorem slotsOf_getD (body : List Byte) (i : Fin 16) : (slotsOf body).getD i.val [] = rawSlot body i := rfl

theorem takeSlot_eq (body : List Byte) (i : Fin 16) (d : Station) :
    (d.takeSlot true i (rawSlot body i)).1 = peerTaken body d i := by
  unfold Station.takeSlot peerTaken
  cases viewSlot i (rawSlot body i) <;> rfl

theorem takePosition_own (notices : Bool) (i : Fin 16) (raw : List Byte) (slots : List (List Byte)) (d : Station)
    (e : raw = slots.getD i.val []) : (d.takePosition notices i raw).1.own = d.own := by
  rw [e]
  exact (takePosition_spec notices slots i d).rest.own

/-- The positions taken one after the other, the own one left out. -/
theorem takePositions_eq (body : List Byte) (l : List (Fin 16)) (d : Station) :
    (Station.takePositions true (slotsOf body) l d).1 = (l.filter fun i => i ≠ d.own).foldl (peerTaken body) d := by
  induction l generalizing d with
  | nil => rfl
  | cons i l ih =>
    have own := takePosition_own true i _ (slotsOf body) d rfl
    show (Station.takePositions true (slotsOf body) l (d.takePosition true i ((slotsOf body).getD i.val [])).1).1 = _
    rw [ih, own]
    unfold Station.takePosition
    by_cases mine : i = d.own
    · rw [if_pos mine, List.filter_cons_of_neg (by simpa using mine)]
    · rw [if_neg mine, List.filter_cons_of_pos (by simpa using mine), List.foldl_cons, slotsOf_getD, takeSlot_eq]

theorem takePositions_own (notices : Bool) (slots : List (List Byte)) (l : List (Fin 16)) (nd : l.Nodup) (d : Station) :
    (Station.takePositions notices slots l d).1.own = d.own := (takePositions_spec notices slots l nd d).rest.own

theorem liveOf_eq (own : Fin 16) (floor : Vector FloorEntry 16) :
    liveOf own floor = (List.finRange 16).filter fun i => i ≠ own ∧ (floor[i]'i.isLt).age < 3 :=
  List.filter_congr fun i _ => by rw [Bool.eq_iff_iff]; simp

theorem takeSlots_eq (body : List Byte) (d : Station) : (d.takeSlots true (slotsOf body)).1 = peersTaken body d := by
  have own := takePositions_own true (slotsOf body) _ (List.nodup_finRange 16) d
  have peers := takePositions_eq body (List.finRange 16) d
  rw [peers] at own
  unfold Station.takeSlots
  simp only [peers, own, liveOf_eq]
  rfl

/-! ## The own slot -/

theorem checkOwn_eq (body : List Byte) (d : Station) : d.checkOwn (slotsOf body) =
    (if viewSlot d.own (rawSlot body d.own) = .fail then d.slotError else d,
      match viewSlot d.own (rawSlot body d.own) with
      | .pass g => some g
      | _ => none) := by
  unfold Station.checkOwn
  rw [slotsOf_getD]
  cases viewSlot d.own (rawSlot body d.own) <;> rfl

theorem slotError_own (d : Station) : d.slotError.own = d.own := rfl

/-- The judgement of a return, with the losses handed on, as the statements write it. -/
theorem judgeReturn_eq (records : List Notice) (d : Station) : d.judgeReturn records =
    let x := (d.lpc.losses records).foldl (fun d b => d.loseNotice b) { d with lpc := d.lpc.judged records }
    if 16 ≤ d.lpc.queue.length ∧ (d.lpc.judged records).queue.length < 16 then
      { x with signals := x.signals ++ [.almPlaceFree] }
    else x := by
  by_cases full : 16 ≤ d.lpc.queue.length
  · by_cases freed : (d.lpc.judged records).queue.length < 16
    · rw [if_pos ⟨full, freed⟩]
      exact if_pos (by simpa using And.intro full freed)
    · rw [if_neg fun h => freed h.2]
      exact if_neg (by simpa using fun _ => Nat.le_of_not_lt freed)
  · rw [if_neg fun h => full h.1]
    exact if_neg (by simpa using fun h => absurd h full)

/-- The returned own slot shows a second writer: a write is looked for, and it comes back with another sequence number or another
signature than the publish copy (R18). -/
def ShowsDuplicate (g : Image) (d : Station) : Prop :=
  g.seq ≠ d.lpc.floor[d.own].seq ∨ ∃ p, d.lpc.floor[d.own].image = some p ∧ g.sig ≠ p.sig

theorem isDuplicate_iff (g : Image) (d : Station) : d.isDuplicate g = true ↔ ShowsDuplicate g d := by
  unfold Station.isDuplicate ShowsDuplicate
  simp only [Bool.or_eq_true, bne_iff_ne, ne_eq]
  refine or_congr_right ?_
  cases d.lpc.floor[d.own].image with
  | none => simp
  | some p => simp

theorem not_showsDuplicate {body : List Byte} {d : Station} (clean : NoDuplicate body d) (look : d.lpc.prevWrite = true)
    {g : Image} (pass : viewSlot d.own (rawSlot body d.own) = .pass g) : ¬ ShowsDuplicate g d := by
  obtain ⟨seq, sig⟩ := clean g look pass
  rintro (h | ⟨p, e, h⟩)
  · exact h seq
  · exact h (sig p e)

/-- Where the own slot does not pass, the judgement finds no records. -/
theorem ownRecords_of_not_pass {body : List Byte} {own : Fin 16} (h : ∀ g, viewSlot own (rawSlot body own) ≠ .pass g) :
    ownRecords body own = [] := by
  unfold ownRecords
  split
  next g v => exact absurd v (h g)
  next => rfl

/-- The judgement of the own slot, by what its position shows. -/
theorem ownJudged_eq (body : List Byte) (d : Station) : ownJudged body d =
    let e := if viewSlot d.own (rawSlot body d.own) = .fail then d.slotError else d
    if d.lpc.prevWrite = false then e else e.judgeReturn (ownRecords body d.own) := by
  unfold ownJudged
  simp only [judgeReturn_eq]
  by_cases fail : viewSlot d.own (rawSlot body d.own) = .fail
  · simp only [if_pos fail]
    rfl
  · simp only [if_neg fail]

/-- Without a second writer the own slot is judged alone. -/
theorem judgeOwn_clean {body : List Byte} {d : Station} (clean : NoDuplicate body d) :
    d.judgeOwn (slotsOf body) = (ownJudged body d, false) := by
  rw [ownJudged_eq]
  unfold Station.judgeOwn
  rw [checkOwn_eq]
  cases v : viewSlot d.own (rawSlot body d.own) with
  | empty =>
    rw [ownRecords_of_not_pass fun g => by rw [v]; nofun]
    cases look : d.lpc.prevWrite <;> simp [look]
  | fail =>
    have same : d.slotError.lpc.prevWrite = d.lpc.prevWrite := rfl
    rw [ownRecords_of_not_pass fun g => by rw [v]; nofun]
    cases look : d.lpc.prevWrite <;> simp [look, same]
  | pass g =>
    have back : ownRecords body d.own = g.notices := by unfold ownRecords; rw [v]
    rw [back]
    cases look : d.lpc.prevWrite with
    | false => simp [look]
    | true =>
      have unlike : d.isDuplicate g = false := by
        rw [Bool.eq_false_iff, ne_eq, isDuplicate_iff]
        exact not_showsDuplicate clean look v
      simp [look, unlike]

/-- With a second writer the station leaves UP. -/
theorem judgeOwn_duplicate {body : List Byte} {d : Station} {g : Image} (look : d.lpc.prevWrite = true)
    (pass : viewSlot d.own (rawSlot body d.own) = .pass g) (dup : ShowsDuplicate g d) :
    d.judgeOwn (slotsOf body) = (d.foundDuplicate, true) := by
  unfold Station.judgeOwn
  rw [checkOwn_eq, pass]
  simp only [reduceCtorEq, if_false, look, (isDuplicate_iff g d).2 dup]
  rfl

end Sys2Proof.Machine
end

section
/-! SUPPORT. What the commands of the Drive Output Unit do to a line, as one change of the line and what is told to its owner. -/

set_option Elab.async false

namespace Sys2Proof.Machine

/-! ## A line changed at one place -/

namespace Station
variable (d : Station)

theorem onOut_eq {i : Fin 16} {f : OutLine → OutLine} {x : OutLine} (h : f (d.dou.lines[i]'i.isLt) = x) :
    d.onOut i f = { d with dou := { d.dou with lines := vecModify d.dou.lines i fun _ => x } } := by
  unfold onOut onDou
  dsimp only
  rw [vecModify_congr _ _ f (fun _ => x) h]

theorem onOut_onOut (i : Fin 16) (f g : OutLine → OutLine) : (d.onOut i f).onOut i g = d.onOut i fun l => g (f l) := by
  unfold onOut onDou
  simp only [vecModify_twice]

theorem onOut_same (i : Fin 16) (f : OutLine → OutLine) : (d.onOut i f).dou.lines[i]'i.isLt = f (d.dou.lines[i]'i.isLt) :=
  vecModify_same _ _ _

end Station

/-! ## Settings of a line -/

section
variable {l : OutLine} {c : OutCfg} (cfg : l.cfg = some c)
include cfg

theorem OutLine.intervalTicks_of : l.intervalTicks = c.interval * 1000 := by
  unfold OutLine.intervalTicks
  rw [cfg]
  rfl

theorem OutLine.inactiveLevel_of : l.inactiveLevel = c.inverted := by
  unfold OutLine.inactiveLevel
  rw [cfg]

theorem OutLine.restartPattern_of (now : Nat) :
    l.restartPattern now = { l with position := 0, patternEnd := some (now + c.interval * 1000) } := by
  unfold OutLine.restartPattern
  rw [OutLine.intervalTicks_of cfg]

theorem OutLine.startPulse_of (now : Nat) : l.startPulse now =
    { l with inPulse := true, pin := true, pulseEnd := some (now + c.pulseWidth * 100)
             spacingEnd := some (now + c.spacing * 1000) } := by
  unfold OutLine.startPulse
  rw [cfg]
  rfl

/-- A line that takes 0 at once: inactive, with a fresh pattern (R74, R76). -/
theorem OutLine.rested_of (now : Nat) : l.goInactive.restartPattern now =
    { l with
      step := 0, activeEnd := none, pin := c.inverted, position := 0
      patternEnd := some (now + c.interval * 1000) } := by
  have same : l.goInactive.cfg = some c := cfg
  unfold OutLine.restartPattern
  rw [OutLine.intervalTicks_of same]
  unfold OutLine.goInactive
  rw [OutLine.inactiveLevel_of cfg]

end

/-! ## The active value -/

/-- A line changed at one place, and what is told of it. -/
def Station.onLine (i : Fin 16) (f : OutLine → OutLine) (told : OutLine → Option Instr) (d : Station) : Station :=
  { d with
    dou := { d.dou with lines := vecModify d.dou.lines i f }
    signals := d.signals ++ (told (d.dou.lines[i]'i.isLt)).toList }

/-- What setting the active value of a line tells its owner: a change, and nothing where the value stands (R79). -/
def OutLine.valueTold (v : Nat) (cause : ChangeCause) (l : OutLine) : Option Instr :=
  if l.active = v then none else l.cfg.map fun c => c.changeEvent v cause

theorem setActiveValue_eq (i : Fin 16) (v : Nat) (cause : ChangeCause) (d : Station) :
    d.setActiveValue i v cause = d.onLine i (fun l => { l with active := v }) (OutLine.valueTold v cause) := by
  unfold Station.setActiveValue Station.onLine OutLine.valueTold
  by_cases same : (d.dou.lines[i]'i.isLt).active = v
  · have keep : vecModify d.dou.lines i (fun l => { l with active := v }) = d.dou.lines :=
      vecModify_id _ _ _ (by rw [← same])
    rw [if_pos same, if_pos same, keep]
    simp
  · rw [if_neg same, if_neg same]
    simp only [Station.onOut_same]
    cases (d.dou.lines[i]'i.isLt).cfg with
    | none => simp [Station.onOut, Station.onDou]
    | some c => rfl

/-! ## The force -/

/-- A line as the start of the force leaves it (R84). -/
def OutLine.forcedNow (now : Nat) (l : OutLine) : OutLine :=
  match l.cfg with
  | none => l
  | some c =>
    match c.kind with
    | .unused => l
    | .reference =>
      if c.fn = .feeder then
        { l with
          forced := true, preload := 0, active := 0, step := 0, activeEnd := none, pin := c.inverted
          position := 0, patternEnd := some (now + c.interval * 1000) }
      else l
    | .igniter =>
      { l with forced := true, burst := .idle, inPulse := false, pin := false, pulseEnd := none, spacingEnd := none }
    | _ => { l with forced := true, on := false, pin := false }

/-- What the start of the force tells of a line: a feeder that was running (R79, R84). -/
def OutLine.forceTold (l : OutLine) : Option Instr :=
  match l.cfg with
  | some c =>
    if c.kind = .reference ∧ c.fn = .feeder ∧ l.active ≠ 0 then
      some (.fdcActiveValueChange (Fin.ofNat 2 (c.inst - 1)) 0 .force)
    else none
  | none => none

theorem onLine_quiet {i : Fin 16} {f : OutLine → OutLine} {told : OutLine → Option Instr} {d : Station}
    (quiet : told (d.dou.lines[i]'i.isLt) = none) : d.onLine i f told = d.onOut i f := by
  unfold Station.onLine
  rw [quiet, Option.toList_none, List.append_nil]
  rfl

theorem onLine_onOut (i : Fin 16) (f g : OutLine → OutLine) (told : OutLine → Option Instr) (d : Station) :
    (d.onLine i f told).onOut i g = d.onLine i (fun l => g (f l)) told := by
  unfold Station.onLine Station.onOut Station.onDou
  simp only [vecModify_twice]

theorem onOut_onLine (i : Fin 16) (f g : OutLine → OutLine) (told : OutLine → Option Instr) (d : Station) :
    (d.onOut i f).onLine i g told = d.onLine i (fun l => g (f l)) fun l => told (f l) := by
  unfold Station.onLine Station.onOut Station.onDou
  simp only [vecModify_twice, Fin.getElem_fin, vecModify_same]

/-- A line changed as at its old value. -/
theorem onLine_congr {i : Fin 16} {f g : OutLine → OutLine} {told said : OutLine → Option Instr} {d : Station}
    (change : f (d.dou.lines[i]'i.isLt) = g (d.dou.lines[i]'i.isLt)) (same : told (d.dou.lines[i]'i.isLt) = said (d.dou.lines[i]'i.isLt)) :
    d.onLine i f told = d.onLine i g said := by
  unfold Station.onLine
  rw [vecModify_congr _ _ f g change, same]

/-- A line changed to what it is, and nothing told of it. -/
theorem onLine_id {i : Fin 16} {f : OutLine → OutLine} {told : OutLine → Option Instr} {d : Station}
    (change : f (d.dou.lines[i]'i.isLt) = d.dou.lines[i]'i.isLt) (quiet : told (d.dou.lines[i]'i.isLt) = none) : d.onLine i f told = d := by
  unfold Station.onLine
  rw [quiet, Option.toList_none, List.append_nil, vecModify_id _ _ _ change]

/-- A line changed without a word, as a change of one line. -/
theorem onOut_quiet {i : Fin 16} {f g : OutLine → OutLine} {told : OutLine → Option Instr} {d : Station}
    (change : f (d.dou.lines[i]'i.isLt) = g (d.dou.lines[i]'i.isLt)) (quiet : told (d.dou.lines[i]'i.isLt) = none) : d.onOut i f = d.onLine i g told := by
  rw [onLine_quiet quiet]
  unfold Station.onOut Station.onDou
  dsimp only
  rw [vecModify_congr _ _ f g change]

section
variable {l : OutLine} {c : OutCfg} (cfg : l.cfg = some c)
include cfg

theorem OutLine.forcedNow_of (now : Nat) : l.forcedNow now =
    match c.kind with
    | .unused => l
    | .reference =>
      if c.fn = .feeder then
        { l with
          forced := true, preload := 0, active := 0, step := 0, activeEnd := none, pin := c.inverted
          position := 0, patternEnd := some (now + c.interval * 1000) }
      else l
    | .igniter =>
      { l with forced := true, burst := .idle, inPulse := false, pin := false, pulseEnd := none, spacingEnd := none }
    | _ => { l with forced := true, on := false, pin := false } := by
  unfold OutLine.forcedNow
  rw [cfg]

theorem OutLine.forceTold_of : l.forceTold = if c.kind = .reference ∧ c.fn = .feeder ∧ l.active ≠ 0 then
    some (.fdcActiveValueChange (Fin.ofNat 2 (c.inst - 1)) 0 .force) else none := by
  unfold OutLine.forceTold
  rw [cfg]

theorem OutLine.forcible_of : l.forcible = match c.kind with
    | .unused => false
    | .reference => c.fn == .feeder
    | _ => true := by
  unfold OutLine.forcible
  rw [cfg] <;> rfl

end

theorem OutLine.forcedNow_none {l : OutLine} (cfg : l.cfg = none) (now : Nat) : l.forcedNow now = l := by
  unfold OutLine.forcedNow
  rw [cfg]

theorem OutLine.forceTold_none {l : OutLine} (cfg : l.cfg = none) : l.forceTold = none := by
  unfold OutLine.forceTold
  rw [cfg]

theorem OutLine.forcible_none {l : OutLine} (cfg : l.cfg = none) : l.forcible = false := by
  unfold OutLine.forcible
  rw [cfg]

theorem forceLine_spared {i : Fin 16} {d : Station} (h : (d.dou.lines[i]'i.isLt).forcible = false) : d.forceLine i = d := by
  unfold Station.forceLine
  simp only [h]
  rfl

/-- The force on a feeder, by the steps of the model (R84). -/
theorem forceLine_feeder {i : Fin 16} {d : Station} (h : (d.dou.lines[i]'i.isLt).forcible = true) (kind : (d.dou.lines[i]'i.isLt).kind = .reference) :
    d.forceLine i = (((d.onOut i fun l => { l with forced := true, preload := 0 }).setActiveValue i 0 .force).onOut i fun l =>
      l.goInactive.restartPattern d.now) := by
  unfold Station.forceLine
  simp only [h, kind, Bool.not_true, Bool.false_eq_true, if_false, Station.onOut_onOut]
  rfl

theorem forceLine_igniter {i : Fin 16} {d : Station} (h : (d.dou.lines[i]'i.isLt).forcible = true) (kind : (d.dou.lines[i]'i.isLt).kind = .igniter) :
    d.forceLine i = d.onOut i fun l => { l with forced := true }.goIdle := by
  unfold Station.forceLine
  simp only [h, kind, Bool.not_true, Bool.false_eq_true, if_false, Station.onOut_onOut]

theorem forceLine_level {i : Fin 16} {d : Station} (h : (d.dou.lines[i]'i.isLt).forcible = true)
    (reference : (d.dou.lines[i]'i.isLt).kind ≠ .reference) (igniter : (d.dou.lines[i]'i.isLt).kind ≠ .igniter) :
    d.forceLine i = d.onOut i fun l => { l with forced := true, on := false, pin := false } := by
  unfold Station.forceLine
  simp only [h, Bool.not_true, Bool.false_eq_true, if_false, Station.onOut_onOut]

theorem forceLine_eq (i : Fin 16) (d : Station) : d.forceLine i = d.onLine i (OutLine.forcedNow d.now) OutLine.forceTold := by
  cases cfg : (d.dou.lines[i]'i.isLt).cfg with
  | none =>
    rw [forceLine_spared (OutLine.forcible_none cfg),
      onLine_id (OutLine.forcedNow_none cfg d.now) (OutLine.forceTold_none cfg)]
  | some c =>
    obtain ⟨kind, -⟩ := line_of_cfg cfg
    have told := OutLine.forceTold_of cfg
    have forced := OutLine.forcedNow_of cfg d.now
    have forcible := OutLine.forcible_of cfg
    cases k : c.kind <;> simp only [k, reduceCtorEq, false_and, if_false] at told forced forcible kind
    case unused => rw [forceLine_spared forcible, onLine_id forced told]
    case reference =>
      by_cases feeder : c.fn = .feeder
      · rw [forceLine_feeder (by rw [forcible, feeder]; rfl) kind, setActiveValue_eq, onOut_onLine, onLine_onOut]
        refine onLine_congr ?_ ?_
        · rw [forced, if_pos feeder]
          exact OutLine.rested_of (l := { d.dou.lines[i]'i.isLt with forced := true, preload := 0, active := 0 }) cfg d.now
        · rw [told]
          by_cases off : (d.dou.lines[i]'i.isLt).active = 0
          · rw [if_neg fun h => h.2.2 off]
            exact if_pos off
          · rw [if_pos ⟨trivial, feeder, off⟩]
            refine (if_neg off).trans ?_
            show (d.dou.lines[i]'i.isLt).cfg.map _ = _
            rw [cfg]
            exact congrArg some (if_pos feeder)
      · rw [forceLine_spared (by simpa using forcible.trans (beq_false_of_ne feeder)),
          onLine_id (by rw [forced, if_neg feeder]) (by rw [told, if_neg fun h => feeder h.2.1])]
    case igniter => rw [forceLine_igniter forcible kind, onOut_quiet forced.symm told]
    all_goals rw [forceLine_level forcible (by rw [kind]; nofun) (by rw [kind]; nofun), onOut_quiet forced.symm told]

/-! ## One change for every line -/

/-- One change of every line in turn: each line changed, and told of in the order of the lines. -/
theorem foldl_onLine {f : OutLine → OutLine} {told : OutLine → Option Instr} {F : Fin 16 → Station → Station} (now : Nat)
    (step : ∀ i e, e.now = now → F i e = e.onLine i f told) (l : List (Fin 16)) (nd : l.Nodup) (d : Station) (same : d.now = now) :
    (∀ i : Fin 16, (l.foldl (fun d i => F i d) d).dou.lines[i]'i.isLt = if i ∈ l then f (d.dou.lines[i]'i.isLt) else (d.dou.lines[i]'i.isLt)) ∧
    (l.foldl (fun d i => F i d) d) = { d with
      dou := (l.foldl (fun d i => F i d) d).dou
      signals := d.signals ++ l.filterMap fun i => told (d.dou.lines[i]'i.isLt) } := by
  induction l generalizing d with
  | nil => exact ⟨fun i => rfl, by simp⟩
  | cons j l ih =>
    obtain ⟨fresh, rest⟩ := List.nodup_cons.1 nd
    obtain ⟨lines, whole⟩ := ih rest (d.onLine j f told) same
    rw [List.foldl_cons, step j d same]
    have other (i : Fin 16) (ne : i ≠ j) : (d.onLine j f told).dou.lines[i]'i.isLt = d.dou.lines[i]'i.isLt :=
      vecModify_ne _ _ _ _ _ fun e => ne (Fin.ext e.symm)
    refine ⟨fun i => ?_, ?_⟩
    · rw [lines i]
      by_cases e : i = j
      · subst e
        rw [if_neg fresh, if_pos (List.mem_cons_self ..)]
        exact vecModify_same _ _ _
      · rw [other i e]
        simp only [List.mem_cons, e, false_or]
    · have words : (l.filterMap fun i => told ((d.onLine j f told).dou.lines[i]'i.isLt)) = l.filterMap fun i => told (d.dou.lines[i]'i.isLt) :=
        List.filterMap_congr fun i mem => by rw [other i fun e => fresh (e ▸ mem)]
      rw [words] at whole
      rw [whole]
      show Station.mk .. = Station.mk ..
      congr 1
      show (d.signals ++ (told (d.dou.lines[j]'j.isLt)).toList) ++ _ = _
      rw [List.append_assoc]
      congr 1
      rw [List.filterMap_cons]
      cases told (d.dou.lines[j]'j.isLt) <;> rfl

theorem forAll_onLine {f : OutLine → OutLine} {told : OutLine → Option Instr} {F : Fin 16 → Station → Station} (d : Station)
    (step : ∀ i e, e.now = d.now → F i e = e.onLine i f told) :
    (∀ i : Fin 16, (forAll F d).dou.lines[i]'i.isLt = f (d.dou.lines[i]'i.isLt)) ∧
    forAll F d = { d with
      dou := (forAll F d).dou
      signals := d.signals ++ (List.finRange 16).filterMap fun i => told (d.dou.lines[i]'i.isLt) } := by
  obtain ⟨lines, whole⟩ := foldl_onLine d.now step (List.finRange 16) (List.nodup_finRange 16) d rfl
  exact ⟨fun i => (lines i).trans (if_pos (List.mem_finRange i)), whole⟩

/-! ## The pattern end and the carrier -/

section
variable {line : Fin 16} {d : Station} {e : Nat}

/-- What the pattern timer's expiry does to a line (R76, R77). -/
def Station.patternExpiry (line : Fin 16) (d : Station) : Station :=
  if (d.dou.lines[line]'line.isLt).patternEnd.isNone then d
  else if (d.dou.lines[line]'line.isLt).position < 15 then
    d.onOut line fun l => { l with position := l.position + 1, patternEnd := some (d.now + l.intervalTicks) }
  else if (d.dou.lines[line]'line.isLt).forced then d.onOut line fun l => l.restartPattern d.now
  else (d.onOut line fun l => l.restartPattern d.now).setActiveValue line (d.dou.lines[line]'line.isLt).preload .patternEnd

theorem exec_patternTimerExpiry (line : Fin 16) (s : State) :
    exec (.patternTimerExpiry line) s = act (.patternTimerExpiry line) (Station.patternExpiry line) s := rfl

theorem OutLine.valueTold_of {l : OutLine} {c : OutCfg} (cfg : l.cfg = some c) (v : Nat) (cause : ChangeCause) :
    (l.valueTold v cause).toList = if l.active = v then [] else [c.changeEvent v cause] := by
  unfold OutLine.valueTold
  rw [cfg]
  split <;> rfl

variable (timer : (d.dou.lines[line]'line.isLt).patternEnd = some e)
include timer

theorem patternExpiry_within (h : (d.dou.lines[line]'line.isLt).position < 15) : d.patternExpiry line =
    d.onLine line (fun l => { l with position := l.position + 1, patternEnd := some (d.now + l.intervalTicks) }) fun _ => none := by
  unfold Station.patternExpiry
  rw [timer, if_neg (by simp), if_pos h, onLine_quiet rfl]

theorem patternExpiry_forced (h : 15 ≤ (d.dou.lines[line]'line.isLt).position) (forced : (d.dou.lines[line]'line.isLt).forced = true) :
    d.patternExpiry line = d.onLine line (OutLine.restartPattern d.now) fun _ => none := by
  unfold Station.patternExpiry
  rw [timer, if_neg (by simp), if_neg (Nat.not_lt.2 h), if_pos forced, onLine_quiet rfl]

/-- At the pattern end of an unforced line the active value takes the preload (R77). -/
theorem patternExpiry_free (h : 15 ≤ (d.dou.lines[line]'line.isLt).position) (free : (d.dou.lines[line]'line.isLt).forced = false) :
    d.patternExpiry line = d.onLine line (fun l => { l.restartPattern d.now with active := (d.dou.lines[line]'line.isLt).preload })
      fun l => l.valueTold (d.dou.lines[line]'line.isLt).preload .patternEnd := by
  unfold Station.patternExpiry
  rw [timer, if_neg (by simp), if_neg (Nat.not_lt.2 h), if_neg (ne_true_of_eq_false free), setActiveValue_eq, onOut_onLine]
  rfl

end

/-- A line changed, written out. -/
theorem onLine_written {i : Fin 16} {f : OutLine → OutLine} {told : OutLine → Option Instr} {d : Station} {x : OutLine}
    {out : List Instr} (change : f (d.dou.lines[i]'i.isLt) = x) (words : (told (d.dou.lines[i]'i.isLt)).toList = out) :
    d.onLine i f told =
      { d with dou := { d.dou with lines := vecModify d.dou.lines i fun _ => x }, signals := d.signals ++ out } := by
  unfold Station.onLine
  rw [vecModify_congr _ _ f (fun _ => x) change, words]

end Sys2Proof.Machine

open Sys2Proof Sys2Proof.Machine in
/-- Settles O22: the expiry is one change of the line; inside the pattern it tells nobody, at its end a changed value its owner. -/
theorem patternEndTakesThePreload : Obligations.PatternEndTakesThePreload := by
  intro line s c e cfg timer l cmd fresh change after
  have interval := OutLine.intervalTicks_of cfg
  have restarted := OutLine.restartPattern_of cfg s.dev.now
  refine ⟨fun within => ?_, fun atEnd keeps => ?_, fun atEnd free moved => ?_⟩
  · refine exec_eq (exec_patternTimerExpiry line) ((patternExpiry_within (d := s.dev.take cmd) timer within).trans ?_)
    exact onLine_written
      (congrArg (fun n => { l with position := l.position + 1, patternEnd := some (s.dev.now + n) }) interval) rfl
  · by_cases forced : l.forced = true
    · exact exec_eq (exec_patternTimerExpiry line) ((patternExpiry_forced (d := s.dev.take cmd) timer atEnd forced).trans
        (onLine_written restarted rfl))
    · have same : l.active = l.preload := keeps.resolve_left forced
      refine exec_eq (exec_patternTimerExpiry line)
        ((patternExpiry_free (d := s.dev.take cmd) timer atEnd (Bool.eq_false_of_not_eq_true forced)).trans (onLine_written ?_ ?_))
      · exact (congrArg (fun v => { l.restartPattern s.dev.now with active := v }) same.symm).trans restarted
      · exact (OutLine.valueTold_of cfg _ _).trans (if_pos same)
  · refine exec_eq (exec_patternTimerExpiry line)
      ((patternExpiry_free (d := s.dev.take cmd) timer atEnd free).trans (onLine_written ?_ ?_))
    · exact congrArg (fun x : OutLine => { x with active := l.preload }) restarted
    · exact (OutLine.valueTold_of cfg _ _).trans (if_neg moved)
end

section
/-! SUPPORT. What a train that a station has heard leaves: the floor image, the own slot's judgement, the train as it goes on. -/

set_option Elab.async false

namespace Sys2Proof.Machine

/-! ## The condition table under notices -/

theorem setMirror_present (m : List MirrorEntry) (d : Station) : (d.setMirror m).alm.present = d.alm.present := by
  unfold Station.setMirror
  split <;> rfl

theorem checkEpoch_present (i : Fin 16) (d : Station) : (d.checkEpoch i).alm.present = d.alm.present := by
  unfold Station.checkEpoch
  split
  · rfl
  · split
    · rfl
    · dsimp only [Station.onAlm]
      split
      · rfl
      · exact setMirror_present _ _

theorem applyAlarm_present (i : Fin 16) (x : AlarmBody) (d : Station) : (d.applyAlarm i x).alm.present = d.alm.present := by
  rw [← checkEpoch_present i d]
  unfold Station.applyAlarm
  dsimp only
  split
  · split <;> exact setMirror_present _ _
  · split
    · rfl
    · split
      · exact setMirror_present _ _
      · split
        · exact setMirror_present _ _
        · rfl

theorem applyNotice_present (i : Fin 16) (x : NoticeBody) (d : Station) : (d.applyNotice i x).alm.present = d.alm.present := by
  unfold Station.applyNotice
  cases x with
  | alarmState b => exact applyAlarm_present i b d
  | ackRequest t p o =>
    show (if t = d.ownByte then d.applyAck p o else d).alm.present = _
    split
    · exact ((MovesPoints.refl d).applyAck p o).move.present
    · rfl
  | timeSet t =>
    show (if d.lpc.origin = true then d.applyTimeSet t else d).alm.present = _
    split
    · rw [((ShiftOnly.refl d).applyTimeSet t).alm]
    · rfl

theorem takeNotices_present (i : Fin 16) (g : Image) (fresh live : Bool) (d : Station) :
    (d.takeNotices i g fresh live).alm.present = d.alm.present := by
  unfold Station.takeNotices
  generalize (if (fresh && !live) = true then [] else (d.lpc.taken[i]'i.isLt)) = known
  show (g.notices.foldl _ d).alm.present = _
  generalize g.notices = l
  induction l generalizing d with
  | nil => rfl
  | cons n l ih =>
    rw [List.foldl_cons, ih]
    split
    · exact applyNotice_present i n.body d
    · rfl

theorem peerTaken_present (body : List Byte) (i : Fin 16) (d : Station) :
    (peerTaken body d i).alm.present = d.alm.present := by
  unfold peerTaken
  cases viewSlot i (rawSlot body i) with
  | empty => rfl
  | fail => rfl
  | pass g => exact takeNotices_present i g _ _ _

theorem peersTaken_present (body : List Byte) (d : Station) : (peersTaken body d).alm.present = d.alm.present := by
  show (((List.finRange 16).filter fun i => i ≠ d.own).foldl (peerTaken body) d).alm.present = _
  generalize (List.finRange 16).filter (fun i => decide (i ≠ d.own)) = l
  induction l generalizing d with
  | nil => rfl
  | cons i l ih => rw [List.foldl_cons, ih, peerTaken_present]

/-- A head leaves LOOP LOST as it stands. -/
theorem headTaken_loopLost (head : Option Head) (d : Station) :
    (headTaken head d).condition .loopLost 0 = d.condition .loopLost 0 := by
  cases head with
  | none => rfl
  | some h =>
    have judged : ((d.headNoted h).judgeConfig h.sig).condition .loopLost 0 = d.condition .loopLost 0 := by
      have reported := report_other .configMismatch 0 (h.sig != (d.headNoted h).ownSig) (d.headNoted h) .loopLost 0 (by decide)
      unfold Station.judgeConfig
      dsimp only
      split <;> exact reported
    rw [← headOrError_eq, show d.headOrError (some h) = (d.headNoted h).headJudged h from
      congrArg (Station.headJudged h) (headNoted_eq h d), ← judged]
    unfold Station.headJudged
    dsimp only
    split
    · unfold Station.condition
      rw [((ShiftOnly.refl _).takeHead h.time h.shift).alm]
    · rfl

/-! ## Losses -/

/-- What the judgement of the own slot moves: within the reach of reports, the slot errors, the notices lost and the loss hold. -/
def LossOnly (a b : Station) : Prop :=
  AlarmsOnly { a with lpc := { a.lpc with
    counters := { a.lpc.counters with slotErrors := b.lpc.counters.slotErrors, noticesLost := b.lpc.counters.noticesLost }
    lossHold := b.lpc.lossHold } } b

namespace LossOnly
variable {a b c : Station}

theorem trans (h : LossOnly a b) (k : LossOnly b c) : LossOnly a c :=
  ⟨List.IsPrefix.trans (show a.signals <+: b.signals from h.signals) k.signals,
    events_trans (show a.ppt.events &&& b.ppt.events = a.ppt.events from h.events) k.events, by
      have rest := h.rest
      have more := k.rest
      rw [more, rest]⟩

theorem refl (a : Station) : LossOnly a a := AlarmsOnly.refl a

end LossOnly

/-- Within the reach of reports, LOOP LOST stands as it stood. -/
structure LossJudged (a b : Station) : Prop where
  only : LossOnly a b
  lost : b.condition .loopLost 0 = a.condition .loopLost 0

namespace LossJudged
variable {a b c : Station}

theorem refl (a : Station) : LossJudged a a := ⟨.refl a, rfl⟩

theorem trans (h : LossJudged a b) (k : LossJudged b c) : LossJudged a c :=
  ⟨h.only.trans k.only, k.lost.trans h.lost⟩

theorem slotError (a : Station) : LossJudged a a.slotError := ⟨⟨List.prefix_refl _, BitVec.and_self, rfl⟩, rfl⟩

theorem queue (a : Station) (q : List QueueEntry) : LossJudged a { a with lpc := { a.lpc with queue := q } } :=
  ⟨⟨List.prefix_refl _, BitVec.and_self, rfl⟩, rfl⟩

theorem lossTold (x : NoticeBody) (a : Station) : LossJudged a (((a.almNoticeLost x).report .noticeLoss 0 true).onLpc fun l =>
    { l with lossHold := some (((a.almNoticeLost x).report .noticeLoss 0 true).now + Config.noticeLossTicks) }) := by
  have told := (MovesPoints.refl a).almNoticeLost x
  have only := told.only.report .noticeLoss 0 true
  have present : (a.almNoticeLost x).condition .loopLost 0 = a.condition .loopLost 0 := by
    unfold Station.condition
    rw [told.move.present]
  refine ⟨⟨only.signals, only.events, ?_⟩, (report_other .noticeLoss 0 true _ .loopLost 0 (by decide)).trans present⟩
  have rest := only.rest
  unfold Station.onLpc
  rw [rest]

theorem loseNotice (x : NoticeBody) (a : Station) : LossJudged a (a.loseNotice x) := by
  have counted : LossJudged a (a.onCounters fun c => { c with noticesLost := c.noticesLost.bump }) :=
    ⟨⟨List.prefix_refl _, BitVec.and_self, rfl⟩, rfl⟩
  exact counted.trans (lossTold x _)

theorem losses (l : List NoticeBody) (a : Station) : LossJudged a (l.foldl (fun d b => d.loseNotice b) a) := by
  induction l generalizing a with
  | nil => exact .refl a
  | cons x l ih => exact (loseNotice x a).trans (ih _)

theorem judgeReturn (records : List Notice) (a : Station) : LossJudged a (a.judgeReturn records) := by
  rw [judgeReturn_eq]
  have lost := (queue a (a.lpc.judged records).queue).trans (losses (a.lpc.losses records) _)
  dsimp only
  split
  · refine lost.trans ⟨⟨List.prefix_append _ _, BitVec.and_self, rfl⟩, rfl⟩
  · exact lost

end LossJudged

theorem ownJudged_spec (body : List Byte) (d : Station) : LossJudged d (ownJudged body d) := by
  rw [ownJudged_eq]
  have counted : LossJudged d (if viewSlot d.own (rawSlot body d.own) = .fail then d.slotError else d) := by
    split
    · exact .slotError d
    · exact .refl d
  dsimp only
  split
  · exact counted
  · exact counted.trans (.judgeReturn _ _)

/-! ## The peer slots and the head together -/

/-- The station with what the slot positions of a train set: the entries, the taken lists, the live set, the slot errors. -/
def Station.slotsSet (l : Lpc) (d : Station) : Station :=
  { d with lpc := { d.lpc with
    floor := l.floor, taken := l.taken, live := l.live
    counters := { d.lpc.counters with slotErrors := l.counters.slotErrors } } }

theorem FloorOnly.slotsSet {a b : Station} (h : FloorOnly a b) (l : Lpc) : FloorOnly (a.slotsSet l) (b.slotsSet l) :=
  ⟨h.signals, h.events, by
    have rest := h.rest
    unfold Station.slotsSet
    rw [rest]⟩

/-- The station with a head taken or counted (R4). -/
def Station.headSet (body : List Byte) (d : Station) : Station :=
  { d with lpc := d.lpc.afterHead (readHead (body.take 14)) d.watchEnd }

/-- What is left of a train whose head and peer slots are taken (R4, R6, R7, R51, R52). -/
structure PeersHeard (body : List Byte) (a b : Station) : Prop where
  rest : FloorOnly ((a.headSet body).slotsSet b.lpc) b
  own : b.lpc.floor[a.own] = a.lpc.floor[a.own]
  took : ∀ i : Fin 16, i ≠ a.own → b.lpc.taken[i]'i.isLt = takenAfter (viewSlot i (rawSlot body i)) (a.lpc.taken[i]'i.isLt)
  lost : b.condition .loopLost 0 = a.condition .loopLost 0

theorem afterHead_floor (head : Option Head) (n : Nat) (l : Lpc) :
    (l.afterHead head n).floor = l.floor ∧ (l.afterHead head n).taken = l.taken := by
  cases head <;> exact ⟨rfl, rfl⟩

theorem peersHeard (body : List Byte) (d : Station) :
    PeersHeard body d (peersTaken body (headTaken (readHead (body.take 14)) d)) := by
  obtain ⟨e, he⟩ : ∃ e, e = headTaken (readHead (body.take 14)) d := ⟨_, rfl⟩
  have head := (headOrError_spec (readHead (body.take 14)) d).1
  have lost := headTaken_loopLost (readHead (body.take 14)) d
  rw [headOrError_eq] at head
  rw [← he] at head lost ⊢
  obtain ⟨slots, -⟩ := takeSlots_spec true (slotsOf body) e
  have moved := slots.rest
  have entry := slots.entry
  have took := slots.took
  rw [takeSlots_eq] at moved entry took
  have own : e.own = d.own := head.own
  obtain ⟨floor, taken⟩ := afterHead_floor (readHead (body.take 14)) d.watchEnd d.lpc
  have stood : e.lpc.floor = d.lpc.floor ∧ e.lpc.taken = d.lpc.taken := by
    rw [head.lpc]
    exact ⟨floor, taken⟩
  have errors := congrArg (fun l : Lpc => l.counters.slotErrors) moved.lpc
  refine ⟨FloorOnly.trans (head.slotsSet _) ?_, ?_, fun i ne => ?_, ?_⟩
  · unfold Station.slotsSet
    rw [show (peersTaken body e).lpc.counters.slotErrors = _ from errors]
    exact moved
  · rw [entry d.own, if_neg fun h => h.2 own.symm]
    show e.lpc.floor[d.own] = _
    rw [stood.1]
  · rw [took i, if_pos ⟨rfl, List.mem_finRange i, fun h => ne (h.trans own)⟩]
    show takenAfter _ (e.lpc.taken[i]'i.isLt) = _
    rw [stood.2, slotsOf_getD]
  · unfold Station.condition at lost ⊢
    rw [peersTaken_present, lost]

theorem headSet_rest (body : List Byte) (d : Station) : d.headSet body = { d with lpc := { d.lpc with
    lastHead := (d.headSet body).lpc.lastHead, watch := (d.headSet body).lpc.watch
    counters := { d.lpc.counters with headErrors := (d.headSet body).lpc.counters.headErrors } } } := by
  unfold Station.headSet
  cases readHead (body.take 14) <;> rfl

namespace PeersHeard
variable {body : List Byte} {a b : Station} (h : PeersHeard body a b)
include h

theorem ownIndex : b.own = a.own := h.rest.own

theorem prevWrite : b.lpc.prevWrite = a.lpc.prevWrite := by
  rw [h.rest.lpc]
  exact (congrArg (fun d : Station => d.lpc.prevWrite) (headSet_rest body a) :)

theorem ownEntry : b.lpc.floor[b.own] = a.lpc.floor[a.own] := by
  simp only [h.ownIndex, h.own]

theorem clean (k : NoDuplicate body a) : NoDuplicate body b := by
  unfold NoDuplicate
  rw [h.prevWrite, h.ownEntry, h.ownIndex]
  exact k

theorem duplicate {g : Image} (k : ShowsDuplicate g a) : ShowsDuplicate g b := by
  unfold ShowsDuplicate
  rw [h.ownEntry]
  exact k

end PeersHeard

/-! ## The train taken as a whole -/

/-- The station with what a train taken sets. -/
def Station.trainSet (l : Lpc) (d : Station) : Station :=
  { d with lpc := { d.lpc with
    floor := l.floor, taken := l.taken, live := l.live, lossHold := l.lossHold
    counters := { d.lpc.counters with slotErrors := l.counters.slotErrors, noticesLost := l.counters.noticesLost } } }

/-- What is left of a train that is taken in UP, before the own slot is written. -/
structure TrainHeard (body : List Byte) (a b : Station) : Prop where
  rest : FloorOnly ((a.headSet body).trainSet b.lpc) b
  own : b.lpc.floor[a.own] = a.lpc.floor[a.own]
  took : ∀ i : Fin 16, i ≠ a.own → b.lpc.taken[i]'i.isLt = takenAfter (viewSlot i (rawSlot body i)) (a.lpc.taken[i]'i.isLt)
  lost : b.condition .loopLost 0 = a.condition .loopLost 0

theorem trainHeard (body : List Byte) (d : Station) : TrainHeard body d (trainTaken body d) := by
  have peers := peersHeard body d
  unfold trainTaken
  generalize peersTaken body (headTaken (readHead (body.take 14)) d) = e at peers
  have judged := ownJudged_spec body e
  have moved := judged.only.lpc
  have floor : (ownJudged body e).lpc.floor = e.lpc.floor := by rw [moved]
  have taken : (ownJudged body e).lpc.taken = e.lpc.taken := by rw [moved]
  refine ⟨⟨?_, ?_, ?_⟩, ?_, fun i ne => ?_, judged.lost.trans peers.lost⟩
  · exact List.IsPrefix.trans (show d.signals <+: e.signals from peers.rest.signals) judged.only.signals
  · exact events_trans (show d.ppt.events &&& e.ppt.events = d.ppt.events from peers.rest.events) judged.only.events
  · have rest := judged.only.rest
    have first := peers.rest.rest
    rw [rest, first]
    rfl
  · rw [floor, peers.own]
  · rw [taken, peers.took i ne]

namespace TrainHeard
variable {body : List Byte} {a b : Station} (h : TrainHeard body a b)
include h

theorem ownIndex : b.own = a.own := h.rest.own

theorem ownEntry : b.lpc.floor[b.own] = a.lpc.floor[a.own] := by
  simp only [h.ownIndex, h.own]

/-- What a train leaves of the Loop Controller's record. -/
theorem lpc : b.lpc = { a.lpc with
    lastHead := (a.headSet body).lpc.lastHead, watch := (a.headSet body).lpc.watch
    floor := b.lpc.floor, taken := b.lpc.taken, live := b.lpc.live, lossHold := b.lpc.lossHold
    queue := b.lpc.queue
    staging := { a.lpc.staging with
      alarm := b.lpc.staging.alarm, summary := b.lpc.staging.summary
      openShift := b.lpc.staging.openShift, closing := b.lpc.staging.closing }
    counters := { a.lpc.counters with
      headErrors := (a.headSet body).lpc.counters.headErrors, slotErrors := b.lpc.counters.slotErrors
      noticesLost := b.lpc.counters.noticesLost } } := by
  have moved := h.rest.lpc
  rw [moved]
  unfold Station.trainSet
  rw [headSet_rest]

theorem loopOut : b.loopOut = a.loopOut := h.rest.loopOut

end TrainHeard

/-! ## The train as it goes on -/

/-- The slot positions of a train as they go on from a member, but for the own one (R6, R51). -/
def onwardSlots (body : List Byte) (own : Fin 16) : List (List Byte) :=
  (List.finRange 16).map fun i => if i = own then rawSlot body i else onwardSlot own i (rawSlot body i)

theorem takeSlots_onward (body : List Byte) (d : Station) :
    (d.takeSlots true (slotsOf body)).2 = onwardSlots body d.own := by
  show (Station.takePositions true (slotsOf body) (List.finRange 16) d).2 = _
  rw [(takePositions_spec true (slotsOf body) _ (List.nodup_finRange 16) d).slot]
  refine List.map_congr_left fun i _ => ?_
  simp only [Bool.true_eq_false, or_false, slotsOf_getD, onwardSlot_eq]

theorem onwardSlots_length (body : List Byte) (own : Fin 16) : (onwardSlots body own).length = 16 := by
  unfold onwardSlots
  rw [List.length_map, List.length_finRange]

theorem onwardSlots_getD (body : List Byte) {own i : Fin 16} (ne : i ≠ own) :
    (onwardSlots body own).getD i.val [] = onwardSlot own i (rawSlot body i) := by
  rw [List.getD_eq_getElem _ _ (by rw [onwardSlots_length]; exact i.isLt)]
  simp [onwardSlots, ne]

theorem signalRefresh_eq (d : Station) : d.signalRefresh = { d with signals := d.signals ++ refreshSignals } := by
  unfold Station.signalRefresh Station.raise refreshSignals
  simp

/-- A train taken as a member: the own slot written, the train sent on, the refresh signalled (R10). -/
theorem arriveMember_eq {body : List Byte} {d : Station} (clean : NoDuplicate body d) :
    d.arriveMember (readTrain body) = { ownWritten (trainTaken body d) with
      loopOut := d.loopOut ++ [(readTrain body).frame ((onwardSlots body d.own).set d.own.val
        (withCheck (BitVec.ofNat 8 (ownImage (trainTaken body d)).bytes.length :: (ownImage (trainTaken body d)).bytes)))]
      signals := (trainTaken body d).signals ++ refreshSignals } := by
  have peers := peersHeard body d
  have heard := trainHeard body d
  have judged := judgeOwn_clean (peers.clean clean)
  have onward := takeSlots_onward body (headTaken (readHead (body.take 14)) d)
  have headOwn : (headTaken (readHead (body.take 14)) d).own = d.own := by
    rw [← headOrError_eq]
    exact (headOrError_spec _ d).1.own
  have run : d.arriveMember (readTrain body) = (((trainTaken body d).writeOwn.1.send
      ((readTrain body).frame ((onwardSlots body d.own).set (trainTaken body d).writeOwn.1.own.val
        (trainTaken body d).writeOwn.2))).signalRefresh) := by
    unfold Station.arriveMember
    rw [show (readTrain body).head = readHead (body.take 14) from rfl, show (readTrain body).slots = slotsOf body from rfl,
      headOrError_eq]
    dsimp only
    rw [takeSlots_eq, onward, judged, headOwn]
    rfl
  rw [run, signalRefresh_eq, writeOwn_eq]
  have own : (ownWritten (trainTaken body d)).own = d.own := heard.ownIndex
  have out : (ownWritten (trainTaken body d)).loopOut = d.loopOut := heard.loopOut
  simp only [Station.send, own, out]
  rfl

/-- A member's train is written and sent on (R10, R11, R51, R52). -/
theorem arriveMember_written {body : List Byte} {d : Station} (clean : NoDuplicate body d) (up : d.lpc.state = .up)
    (member : d.lpc.origin = false) (quiet : d.loopOut = []) :
    TrainWritten body d (d.arriveMember (readTrain body)) ∧ ArrivalWritten body d (d.arriveMember (readTrain body)) := by
  have heard := trainHeard body d
  have moved := heard.lpc
  rw [arriveMember_eq clean]
  refine ⟨⟨⟨?_, ?_, rfl⟩, List.suffix_append _ _, fun i ne => ?_, ?_⟩, rfl⟩
  · show (trainTaken body d).lpc.state = .up
    rw [moved]
    exact up
  · show (trainTaken body d).lpc.origin = false
    rw [moved]
    exact member
  · show ((trainTaken body d).lpc.taken[i]'i.isLt) = _
    rw [heard.took i ne]
    cases viewSlot i (rawSlot body i) <;> rfl
  · refine ⟨ownImage (trainTaken body d), (onwardSlots body d.own).set d.own.val
      (withCheck (BitVec.ofNat 8 (ownImage (trainTaken body d)).bytes.length :: (ownImage (trainTaken body d)).bytes)),
      ?_, congrArg stationByte heard.ownIndex, ?_, rfl, rfl, rfl, ?_, ?_, ?_, fun i ne => ?_⟩
    · have own : (trainTaken body d).own = d.own := heard.ownIndex
      show (vecModify (trainTaken body d).lpc.floor (trainTaken body d).own _)[d.own] = _
      rw [own]
      exact vecModify_same _ _ _
    · exact congrArg (fun e : FloorEntry => e.seq + 1) heard.ownEntry
    · rw [quiet]
      rfl
    · rw [List.length_set, onwardSlots_length]
    · rw [List.getD_eq_getElem _ _ (by rw [List.length_set, onwardSlots_length]; exact d.own.isLt), List.getElem_set_self]
    · rw [List.getD_eq_getElem?_getD, List.getElem?_set_ne fun e => ne (Fin.ext e.symm), ← List.getD_eq_getElem?_getD,
        onwardSlots_getD body ne]

end Sys2Proof.Machine
end

section
/-! SUPPORT. Arrivals in UP by the head of the train, the return of the origin's train, and the judgement of the notices in flight. -/

set_option Elab.async false

namespace Sys2Proof.Machine

/-! ## Arrivals in UP -/

section
variable {t : Train} {d : Station}

theorem arriveUp_member (member : d.lpc.origin = false) (other : ∀ h, t.head = some h → h.origin ≠ stationByte d.own) :
    d.arriveUp t = d.arriveMember t := by
  unfold Station.arriveUp
  cases head : t.head with
  | none => simp [member]
  | some h =>
    have ne : h.origin ≠ d.ownByte := other h head
    simp [member, ne]

theorem arriveUp_return (origin : d.lpc.origin = true) (own : ∀ h, t.head = some h → h.origin = stationByte d.own) :
    d.arriveUp t = d.arriveReturn t := by
  unfold Station.arriveUp
  cases head : t.head with
  | none => simp [origin]
  | some h =>
    have mine : h.origin = d.ownByte := own h head
    simp [origin, mine]

theorem arriveUp_yields {h : Head} (head : t.head = some h) (origin : d.lpc.origin = true)
    (lower : h.origin.toNat < (stationByte d.own).toNat) : d.arriveUp t = d.yieldOrigin.arriveMember t := by
  have ne : h.origin ≠ d.ownByte := fun e => by rw [e] at lower; exact Nat.lt_irrefl _ lower
  have low : h.origin.toNat < d.ownByte.toNat := lower
  simp only [Station.arriveUp, head, origin, if_true, if_neg ne, if_pos low]

theorem arriveJoining_enters {h : Head} (head : t.head = some h) (bypass : d.lpc.bypass = false) :
    d.arriveJoining t = d.enterUp.arriveUp t := by
  simp only [Station.arriveJoining, head, bypass, Bool.false_eq_true, if_false]

theorem arriveRecovery_enters {h : Head} (head : t.head = some h) (other : h.origin ≠ stationByte d.own) :
    d.arriveRecovery t = d.enterUp.arriveUp t := by
  have ne : h.origin ≠ d.ownByte := other
  simp only [Station.arriveRecovery, head, if_neg ne]

end

/-- What is written of a train is the same from a station with the same number, floor image and taken lists. -/
theorem TrainWritten.of_same {body : List Byte} {a x b : Station} (h : TrainWritten body x b) (own : x.own = a.own)
    (floor : x.lpc.floor = a.lpc.floor) (taken : x.lpc.taken = a.lpc.taken) : TrainWritten body a b := by
  have took := h.taken
  have written := h.written
  simp only [own, floor, taken] at took written
  exact ⟨h.up, h.refreshed, took, written⟩

theorem NoDuplicate.of_same {body : List Byte} {a x : Station} (h : NoDuplicate body a) (own : x.own = a.own)
    (floor : x.lpc.floor = a.lpc.floor) (look : x.lpc.prevWrite = a.lpc.prevWrite) : NoDuplicate body x := by
  unfold NoDuplicate at h ⊢
  simp only [own, floor, look]
  exact h

/-- Without a write to look for there is no second writer. -/
theorem noDuplicate_of_quiet {body : List Byte} {a : Station} (h : a.lpc.prevWrite = false) : NoDuplicate body a :=
  fun _ look => by rw [h] at look; cases look

/-- The last head and the watch after a good head in UP (R4, R16). -/
theorem headSet_good {body : List Byte} {h : Head} {d : Station} (head : readHead (body.take 14) = some h)
    (up : d.lpc.state = .up) :
    (d.headSet body).lpc.lastHead = some h ∧ (d.headSet body).lpc.watch = some d.watchEnd := by
  unfold Station.headSet Lpc.afterHead
  rw [head]
  exact ⟨rfl, if_pos (.inr up)⟩

/-! ## The return of the origin's train -/

/-- The station whose train has returned: the peer slots kept, the refresh signalled (R13, R14). -/
def returnedTrain (body : List Byte) (d : Station) : Station :=
  let taken := trainTaken body d
  { taken with
    lpc := { taken.lpc with returned := onwardSlots body d.own, awaiting := false }
    signals := taken.signals ++ refreshSignals }

/-- A late rotation counted (R14, R21). -/
def lateCounted (d : Station) : Station :=
  { d with lpc := { d.lpc with counters := { d.lpc.counters with lateRotations := d.lpc.counters.lateRotations.bump } } }

theorem arriveReturn_eq {body : List Byte} {d : Station} (clean : NoDuplicate body d) :
    d.arriveReturn (readTrain body) =
      if d.lpc.release = .expired then released (lateCounted (returnedTrain body d)) else returnedTrain body d := by
  have peers := peersHeard body d
  have heard := trainHeard body d
  have judged := judgeOwn_clean (peers.clean clean)
  have onward := takeSlots_onward body (headTaken (readHead (body.take 14)) d)
  have headOwn : (headTaken (readHead (body.take 14)) d).own = d.own := by
    rw [← headOrError_eq]
    exact (headOrError_spec _ d).1.own
  have release : (trainTaken body d).lpc.release = d.lpc.release := by rw [heard.lpc]
  have run : d.arriveReturn (readTrain body) = if ((trainTaken body d).lpc.release == .expired) = true then
      released (lateCounted (returnedTrain body d)) else returnedTrain body d := by
    unfold Station.arriveReturn
    rw [show (readTrain body).head = readHead (body.take 14) from rfl, show (readTrain body).slots = slotsOf body from rfl,
      headOrError_eq]
    dsimp only
    rw [takeSlots_eq, onward, judged, headOwn]
    simp only [signalRefresh_eq, release_eq]
    rfl
  rw [run, release]
  simp only [beq_iff_eq]

/-- The origin's train is back and taken (R13, R14). -/
structure TrainBack (body : List Byte) (a b : Station) : Prop where
  state : b.lpc.state = a.lpc.state
  origin : b.lpc.origin = a.lpc.origin
  slots : b.lpc.returned = onwardSlots body a.own
  took : ∀ i : Fin 16, i ≠ a.own → b.lpc.taken[i]'i.isLt =
    match viewSlot i (rawSlot body i) with
    | .pass g => g.notices.map (·.seq)
    | _ => a.lpc.taken[i]'i.isLt
  told : refreshSignals <:+: b.signals

/-- The train is back before the release timer runs out, and nothing is sent (R14). -/
structure BackInTime (body : List Byte) (a b : Station) : Prop extends TrainBack body a b where
  out : b.loopOut = a.loopOut
  awaiting : b.lpc.awaiting = false
  timer : b.lpc.release = a.lpc.release
  written : b.lpc.prevWrite = a.lpc.prevWrite
  own : b.lpc.floor[a.own] = a.lpc.floor[a.own]
  late : b.lpc.counters.lateRotations = a.lpc.counters.lateRotations

/-- The train is back late, and the next one is released at once (R14, R15). -/
structure BackLate (body : List Byte) (a b : Station) : Prop extends TrainBack body a b where
  awaiting : b.lpc.awaiting = true
  written : b.lpc.prevWrite = true
  timer : b.lpc.release = .running (a.now + a.loopCfg.cycle * 1000)
  late : b.lpc.counters.lateRotations = a.lpc.counters.lateRotations.bump
  train : ∃ (h : Head) (g : Image), b.lpc.lastHead = some h ∧ h.origin = stationByte a.own ∧
    h.seq = (match readHead (body.take 14), a.lpc.lastHead with
      | some l, _ => l.seq + 1
      | none, some l => l.seq + 1
      | none, none => 0) ∧
    h.size = BitVec.ofNat 8 a.lpc.loopSize ∧ h.sig = a.ppt.sig.getD 0 ∧
    b.lpc.floor[a.own] = { image := some g, seq := g.seq, age := 0, seen := true } ∧
    g.seq = a.lpc.floor[a.own].seq + 1 ∧
    b.loopOut = a.loopOut ++ [h.bytes ++ ((List.finRange 16).map fun i =>
      if i = a.own then withCheck (BitVec.ofNat 8 g.bytes.length :: g.bytes)
      else (onwardSlots body a.own).getD i.val [0]).flatten]

theorem returnedTrain_back (body : List Byte) (d : Station) : TrainBack body d (returnedTrain body d) := by
  have heard := trainHeard body d
  have moved := heard.lpc
  refine ⟨(congrArg Lpc.state moved :), (congrArg Lpc.origin moved :), rfl, fun i ne => ?_, (List.suffix_append _ _).isInfix⟩
  show ((trainTaken body d).lpc.taken[i]'i.isLt) = _
  rw [heard.took i ne]
  cases viewSlot i (rawSlot body i) <;> rfl

theorem returnedInTime (body : List Byte) (d : Station) : BackInTime body d (returnedTrain body d) :=
  have heard := trainHeard body d
  have moved := heard.lpc
  { returnedTrain_back body d with
    out := heard.loopOut, awaiting := rfl, own := heard.own
    timer := (congrArg Lpc.release moved :), written := (congrArg Lpc.prevWrite moved :)
    late := (congrArg (fun l : Lpc => l.counters.lateRotations) moved :) }

/-- The sequence number that follows the last head that a station has taken. -/
theorem nextSeq_headSet (body : List Byte) (d : Station) :
    (match (d.headSet body).lpc.lastHead with
      | some h => h.seq + 1
      | none => 0) =
    match readHead (body.take 14), d.lpc.lastHead with
      | some l, _ => l.seq + 1
      | none, some l => l.seq + 1
      | none, none => 0 := by
  unfold Station.headSet Lpc.afterHead
  cases readHead (body.take 14) with
  | none => cases d.lpc.lastHead <;> rfl
  | some h => rfl

def Station.ownSeq (d : Station) : Byte := d.lpc.floor[d.own].seq

theorem returnedLate (body : List Byte) (d : Station) : BackLate body d (released (lateCounted (returnedTrain body d))) := by
  have heard := trainHeard body d
  have moved := heard.lpc
  have back := returnedTrain_back body d
  have own : (lateCounted (returnedTrain body d)).own = d.own := heard.ownIndex
  have last : (lateCounted (returnedTrain body d)).lpc.lastHead = (d.headSet body).lpc.lastHead :=
    (congrArg Lpc.lastHead moved :)
  have size : (lateCounted (returnedTrain body d)).lpc.loopSize = d.lpc.loopSize := (congrArg Lpc.loopSize moved :)
  have late : (lateCounted (returnedTrain body d)).lpc.counters.lateRotations = d.lpc.counters.lateRotations.bump :=
    (congrArg (fun l : Lpc => l.counters.lateRotations.bump) moved :)
  have timer : (lateCounted (returnedTrain body d)).now + (lateCounted (returnedTrain body d)).loopCfg.cycle * 1000 =
      d.now + d.loopCfg.cycle * 1000 :=
    congrArg₂ (· + · * 1000) heard.rest.now (congrArg LoopCfg.cycle heard.rest.loopCfg)
  have seq : (lateCounted (returnedTrain body d)).ownSeq = d.ownSeq := congrArg FloorEntry.seq heard.ownEntry
  have out : (lateCounted (returnedTrain body d)).loopOut = d.loopOut := heard.loopOut
  have sig : (lateCounted (returnedTrain body d)).ppt.sig.getD 0 = d.ppt.sig.getD 0 := heard.rest.ownSig
  have same : TrainBack body d (lateCounted (returnedTrain body d)) := ⟨back.state, back.origin, back.slots, back.took, back.told⟩
  generalize lateCounted (returnedTrain body d) = x at *
  obtain ⟨h, g, built, next, sent⟩ := release_train x
  have after := sent.lpc
  have frame := sent.loopOut
  rw [release_eq] at sent after frame
  refine { state := ?_, origin := ?_, slots := ?_, took := fun i ne => ?_, told := ?_, awaiting := ?_, written := ?_
           timer := ?_, late := ?_, train := ⟨h, g, ?_, ?_, ?_, ?_, ?_, ?_, ?_, ?_⟩ }
  · rw [after]; exact same.state
  · rw [after]; exact same.origin
  · rw [after]; exact same.slots
  · rw [after]; exact same.took i ne
  · rw [sent.signals]; exact same.told
  · rw [after]; rfl
  · rw [after]; rfl
  · rw [after]; exact congrArg ReleaseTimer.running timer
  · rw [after]; exact late
  · rw [after]; rfl
  · rw [built.origin, own]
  · rw [built.seq, last]; exact nextSeq_headSet body d
  · rw [built.size, size]
  · rw [built.sig, sig]
  · rw [after]; exact trainOut_own own h g
  · exact next.trans (congrArg (· + 1) seq)
  · rw [frame]
    show x.loopOut ++ [h.bytes ++ ((List.finRange 16).map fun i =>
      if i = x.own then withCheck (BitVec.ofNat 8 g.bytes.length :: g.bytes) else x.lpc.returned.getD i.val [0]).flatten] = _
    rw [own, out, same.slots]

/-! ## The release timer -/

def Station.releaseExpiry (d : Station) : Station :=
  match d.lpc.release with
  | .running _ => if d.lpc.awaiting then d.onLpc fun l => { l with release := .expired } else d.release
  | _ => d

theorem exec_releaseTimerExpiry (s : State) :
    exec .releaseTimerExpiry s = act .releaseTimerExpiry Station.releaseExpiry s := rfl

theorem releaseExpiry_awaits {d : Station} {e : Nat} (run : d.lpc.release = .running e) (awaiting : d.lpc.awaiting = true) :
    d.releaseExpiry = d.onLpc fun l => { l with release := .expired } := by
  simp [Station.releaseExpiry, run, awaiting]

theorem releaseExpiry_releases {d : Station} {e : Nat} (run : d.lpc.release = .running e) (back : d.lpc.awaiting = false) :
    d.releaseExpiry = released d := by
  simp [Station.releaseExpiry, run, back, release_eq]

/-! ## The judgement of the notices in flight -/

section
variable (l : Lpc) (records : List Notice)

/-- The marks that an entry has gathered at a return (R46; log 47). -/
def QueueEntry.marks (e : QueueEntry) : Half :=
  match records.find? fun r => r.seq == e.seq with
  | some r => e.mask ||| r.mask
  | none => e.mask

theorem atReturn_eq (live : List (Fin 16)) (e : QueueEntry) : e.atReturn live records =
    if e.placed = false then .kept e
    else if ∀ i ∈ live, e.marks records &&& ((1 : Half) <<< i.val) ≠ 0 then .complete
    else if e.rotations + 1 < 3 then .kept { e with mask := e.marks records, rotations := e.rotations + 1 }
    else .lost { e with mask := e.marks records, rotations := 3 } := by
  unfold QueueEntry.atReturn
  cases placed : e.placed with
  | false => simp
  | true =>
    rw [if_pos rfl, if_neg (by decide)]
    unfold QueueEntry.judge
    show (if (live.all fun i => e.marks records &&& markOf i != 0) = true then Judged.complete
      else if e.rotations + 1 ≥ 3 then .lost { e with mask := e.marks records, rotations := 3 }
      else .kept { e with mask := e.marks records, rotations := e.rotations + 1 }) = _
    simp only [List.all_eq_true, bne_iff_ne, ge_iff_le]
    refine if_congr Iff.rfl rfl ?_
    by_cases last : 3 ≤ e.rotations + 1
    · rw [if_pos last, if_neg (Nat.not_lt.2 last), ← placed]
    · rw [if_neg last, if_pos (Nat.lt_of_not_le last), ← placed]

theorem kept_atReturn (live : List (Fin 16)) (e : QueueEntry) :
    (match e.atReturn live records with
      | .kept e => some e
      | _ => none) =
    if e.placed = false then some e
    else if ∀ i ∈ live, e.marks records &&& ((1 : Half) <<< i.val) ≠ 0 then none
    else if e.rotations + 1 < 3 then some { e with mask := e.marks records, rotations := e.rotations + 1 } else none := by
  rw [atReturn_eq]
  split_ifs <;> rfl

theorem lost_atReturn (live : List (Fin 16)) (e : QueueEntry) :
    (match e.atReturn live records with
      | .lost e => some e.body
      | _ => none) =
    if e.placed = true ∧ ¬ (∀ i ∈ live, e.marks records &&& ((1 : Half) <<< i.val) ≠ 0) ∧ 3 ≤ e.rotations + 1 then
      some e.body else none := by
  rw [atReturn_eq]
  by_cases placed : e.placed = false
  · rw [if_pos placed, if_neg (by simp [placed])]
  · by_cases covered : ∀ i ∈ live, e.marks records &&& ((1 : Half) <<< i.val) ≠ 0
    · rw [if_neg placed, if_pos covered, if_neg fun h => h.2.1 covered]
    · by_cases early : e.rotations + 1 < 3
      · rw [if_neg placed, if_neg covered, if_pos early, if_neg fun h => Nat.not_lt.2 h.2.2 early]
      · rw [if_neg placed, if_neg covered, if_neg early,
          if_pos ⟨Bool.eq_true_of_not_eq_false placed, covered, Nat.le_of_not_lt early⟩]

end

end Sys2Proof.Machine

open Sys2Proof Sys2Proof.Machine in
/-- Settles O7. -/
theorem upStationRepeatsTheTrainWithItsOwnSlotWritten : Obligations.UpStationRepeatsTheTrainWithItsOwnSlotWritten := by
  refine ⟨framesRead, fun body s => ⟨fun up member other clean => ?_, fun h head up origin lower => ?_,
    fun h head other clean member entry => ?_⟩, fun i g fresh wasLive d => ?_, fun i a target point occurrence time d => ?_⟩
  · refine .of_act (f := Station.arrive (readTrain body)) (fun _ => rfl) ?_
    rw [arrive_up up, arriveUp_member (d := trainCounted _ _) member other]
    obtain ⟨written, arrival⟩ := arriveMember_written (d := trainCounted (.trainArrival body) s.dev) clean up member rfl
    exact ⟨written.of_same rfl rfl rfl, arrival⟩
  · refine .of_act (f := Station.arrive (readTrain body)) (fun _ => rfl) ?_
    rw [arrive_up up, arriveUp_yields (t := readTrain body) (d := trainCounted _ _) head origin lower]
    have clean : NoDuplicate body (trainCounted (.trainArrival body) s.dev).yieldOrigin := noDuplicate_of_quiet rfl
    obtain ⟨written, arrival⟩ := arriveMember_written clean up rfl rfl
    have heard := trainHeard body (trainCounted (.trainArrival body) s.dev).yieldOrigin
    refine ⟨written.of_same rfl rfl rfl, ?_, ?_, ?_, arrival⟩
    · rw [arriveMember_eq clean]
      show (trainTaken body _).lpc.release = _
      rw [heard.lpc]
      rfl
    · rw [arriveMember_eq clean]
      show (trainTaken body _).lpc.awaiting = _
      rw [heard.lpc]
      rfl
    · rw [arriveMember_eq clean]
      exact posted_kept (or_and_right_self _ _) heard.rest.events
  · refine .of_act (f := Station.arrive (readTrain body)) (fun _ => rfl) ?_
    have moves := enterUp_moves (trainCounted (.trainArrival body) s.dev)
    have entered := moves.only.lpc
    have own : (trainCounted (.trainArrival body) s.dev).enterUp.own = s.dev.own := moves.only.floorOnly.own
    have state : (trainCounted (.trainArrival body) s.dev).enterUp.lpc.state = .up := (congrArg Lpc.state entered :)
    have alone : (trainCounted (.trainArrival body) s.dev).enterUp.lpc.origin = false :=
      (congrArg Lpc.origin entered :).trans member
    have floor : (trainCounted (.trainArrival body) s.dev).enterUp.lpc.floor = s.dev.lpc.floor :=
      (congrArg Lpc.floor entered :)
    have run : (s.dev.take (.trainArrival body)).arrive (readTrain body) =
        (trainCounted (.trainArrival body) s.dev).enterUp.arriveMember (readTrain body) := by
      have up : (trainCounted (.trainArrival body) s.dev).enterUp.arriveUp (readTrain body) = _ :=
        arriveUp_member alone fun g e => by
          rw [own]
          cases (show readHead (body.take 14) = some g from e).symm.trans head
          exact other
      rw [← up]
      rcases entry with ⟨joining, bypass⟩ | recovery
      · rw [arrive_joining joining, arriveJoining_enters (t := readTrain body) (d := trainCounted _ _) head bypass]
      · rw [arrive_recovery recovery, arriveRecovery_enters (t := readTrain body) (d := trainCounted _ _) head other]
    rw [run]
    clear run
    generalize (trainCounted (.trainArrival body) s.dev).enterUp = x at *
    have fresh : NoDuplicate body x := clean.of_same own floor (congrArg Lpc.prevWrite entered :)
    obtain ⟨written, arrival⟩ := arriveMember_written fresh state alone moves.only.loopOut
    have heard := trainHeard body x
    obtain ⟨last, watch⟩ := headSet_good head state
    have moved := heard.lpc
    have told : ∀ c ∈ x.signals, c ∈ (trainTaken body x).signals ++ refreshSignals := fun c mem =>
      List.mem_append_left _ (heard.rest.signals.subset mem)
    rw [arriveMember_eq fresh] at written arrival ⊢
    refine ⟨written.of_same own floor (congrArg Lpc.taken entered :), arrival, ?_, ?_, ?_, ?_, ?_, ?_, ?_, ?_, ?_, ?_⟩
    · exact (congrArg Lpc.lastHead moved :).trans last
    · exact (congrArg Lpc.claimSend moved :).trans (congrArg Lpc.claimSend entered :)
    · exact (congrArg Lpc.breakSend moved :).trans (congrArg Lpc.breakSend entered :)
    · exact (congrArg Lpc.claimLimit moved :).trans (congrArg Lpc.claimLimit entered :)
    · exact (congrArg Lpc.grace moved :).trans (congrArg Lpc.grace entered :)
    · exact (congrArg Lpc.watch moved :).trans (watch.trans (congrArg some moves.only.floorOnly.watchEnd))
    · exact heard.lost.trans moves.lost
    · exact told _ (moves.told.subset (.head _))
    · exact told _ (moves.told.subset (.tail _ (.head _)))
    · exact posted_kept moves.posted heard.rest.events
  · unfold Station.takeNotices
    dsimp only
    rw [List.foldl_filter]
    rfl
  · exact ⟨rfl, rfl, rfl⟩

open Sys2Proof Sys2Proof.Machine in
/-- Settles O9. -/
theorem releaseTimerExpiryReleasesATrainOrAwaitsTheReturn : Obligations.ReleaseTimerExpiryReleasesATrainOrAwaitsTheReturn := by
  refine ⟨fun e s run => ⟨fun awaiting => ?_, fun back => ?_⟩, fun body s up origin => ?_, fun records l => ⟨?_, ?_⟩⟩
  · refine exec_eq (exec_releaseTimerExpiry) ?_
    rw [releaseExpiry_awaits (d := s.dev.take _) run awaiting]
    rfl
  · refine .of_act exec_releaseTimerExpiry ?_
    rw [releaseExpiry_releases (d := s.dev.take _) run back]
    obtain ⟨h, g, built, seq, sent⟩ := release_train (s.dev.take .releaseTimerExpiry)
    have after := sent.lpc
    rw [release_eq] at sent after
    refine ⟨rfl, by rw [after]; rfl, by rw [after]; rfl, by rw [after]; rfl, by rw [after]; rfl, by rw [after]; rfl,
      by rw [after]; rfl, by rw [after]; rfl, fun i ne => ?_, by rw [sent.rest]; rfl, by rw [sent.rest]; rfl,
      by rw [sent.rest]; rfl, by rw [sent.rest]; rfl, by rw [sent.rest]; rfl, sent.alm, h, g, by rw [after]; rfl,
      built.origin, built.time, built.seq, built.size, built.sig, ?_, seq, sent.loopOut⟩
    · rw [after]
      exact trainOut_other ne h g
    · rw [after]
      exact trainOut_own rfl h g
  · intro own head slots mine clean taken back
    refine .of_act (f := Station.arrive (readTrain body)) (fun _ => rfl) ?_
    rw [arrive_up up, arriveUp_return (t := readTrain body) (d := trainCounted _ _) origin mine,
      arriveReturn_eq (d := trainCounted _ _) clean]
    refine ⟨rfl, ?_⟩
    by_cases late : (trainCounted (.trainArrival body) s.dev).lpc.release = .expired
    · have run := returnedLate body (trainCounted (.trainArrival body) s.dev)
      simp only [if_pos late]
      exact ⟨run.state.trans up, run.origin.trans origin, run.slots, run.took, run.told, fun on => absurd late on,
        fun _ => ⟨run.awaiting, run.written, run.timer, run.late, run.train⟩⟩
    · have run := returnedInTime body (trainCounted (.trainArrival body) s.dev)
      simp only [if_neg late]
      exact ⟨run.state.trans up, run.origin.trans origin, run.slots, run.took, run.told,
        fun _ => ⟨run.out.trans rfl, run.awaiting, run.timer, run.written, run.own, run.late⟩, fun on => absurd on late⟩
  · exact congrArg (fun q => { l with queue := q ++ l.queue.drop 4 })
      (List.filterMap_congr fun e _ => (kept_atReturn records l.live e).trans (by rfl))
  · exact List.filterMap_congr fun e _ => (lost_atReturn records l.live e).trans (by rfl)
end

section
/-! SUPPORT. Trains of which the slots alone are taken, and the own slot that comes back from a second writer. -/

set_option Elab.async false

namespace Sys2Proof.Machine

/-! ## A train of which the slots alone are taken -/

/-- The slots of a train that fail (R6). -/
def failing (body : List Byte) : List (Fin 16) := (List.finRange 16).filter fun i => viewSlot i (rawSlot body i) == .fail

/-- The failing slots are those of the peers and, where it fails, the own one. -/
theorem failing_length (body : List Byte) (own : Fin 16) : (failing body).length =
    ((List.finRange 16).filter fun i => failsAt own (slotsOf body) i).length +
      if viewSlot own (rawSlot body own) = .fail then 1 else 0 := by
  have parts := List.countP_eq_countP_filter_add (List.finRange 16) (fun i => viewSlot i (rawSlot body i) == .fail) (fun i => i != own)
  rw [List.countP_eq_length_filter, List.countP_eq_length_filter, List.countP_eq_length_filter, List.filter_filter,
    List.filter_filter] at parts
  unfold failing
  rw [parts]
  congr 1
  · congr 1
    refine List.filter_congr fun i _ => ?_
    rw [Bool.and_comm]
    rfl
  · by_cases fail : viewSlot own (rawSlot body own) = .fail
    · have alone : (List.finRange 16).filter (fun i => viewSlot i (rawSlot body i) == .fail && !(i != own)) =
          (List.finRange 16).filter (· == own) := List.filter_congr fun i _ => by
        have same : (!(i != own)) = (i == own) := Bool.not_not _
        rw [same, Bool.and_eq_right_iff_imp]
        intro mine
        rw [beq_iff_eq.1 mine, fail]
        rfl
      rw [if_pos fail, alone, List.filter_beq, List.length_replicate,
        List.count_eq_one_of_mem (List.nodup_finRange 16) (List.mem_finRange own)]
    · rw [if_neg fail, List.length_eq_zero_iff, List.filter_eq_nil_iff]
      intro i _ both
      obtain ⟨shown, mine⟩ := Bool.and_eq_true_iff.1 both
      have same : i = own := by simpa using mine
      rw [same] at shown
      exact fail (by simpa using shown)

/-- Without notices the slot positions set the floor image and what goes with it, and nothing else. -/
theorem takeSlots_quiet (slots : List (List Byte)) (d : Station) :
    (d.takeSlots false slots).1 = d.slotsSet (d.takeSlots false slots).1.lpc := by
  obtain ⟨set, -⟩ := takeSlots_spec false slots d
  obtain ⟨alm, sru, queue, staging, ppt, signals, taken⟩ := set.quiet rfl
  have rest := set.rest.rest
  generalize Counter.bump^[_] _ = n at rest
  generalize (d.takeSlots false slots).1 = p at *
  rw [alm, sru, queue, staging, ppt, signals] at rest
  have errors : p.lpc.counters.slotErrors = n := by rw [rest]
  rw [← errors] at rest
  exact rest

theorem own_of_cfg {a b : Station} (h : a.ppt.cfg = b.ppt.cfg) : a.own = b.own := by
  unfold Station.own Station.cfg
  rw [h]

/-- The positions taken leave the station's number. -/
theorem takeSlots_own (notices : Bool) (slots : List (List Byte)) (d : Station) : (d.takeSlots notices slots).1.own = d.own :=
  own_of_cfg (by rw [(takeSlots_spec notices slots d).1.rest.rest])

theorem AlarmsOnly.slotsSet {a b : Station} (h : AlarmsOnly a b) (l : Lpc) : AlarmsOnly (a.slotsSet l) (b.slotsSet l) :=
  ⟨h.signals, h.events, by
    have rest := h.rest
    unfold Station.slotsSet
    rw [rest]⟩

/-- The own position looked at counts at most one slot error. -/
theorem checkOwn_set (body : List Byte) (d : Station) : (d.checkOwn (slotsOf body)).1 =
    d.slotsSet { d.lpc with counters := { d.lpc.counters with
      slotErrors := Counter.bump^[if viewSlot d.own (rawSlot body d.own) = .fail then 1 else 0] d.lpc.counters.slotErrors } } := by
  rw [checkOwn_eq]
  by_cases fail : viewSlot d.own (rawSlot body d.own) = .fail
  · simp only [if_pos fail]
    rfl
  · simp only [if_neg fail]
    rfl

/-- A train heard: the head, the slots without notices, the own position (R10, R17, R19, R35). -/
def heardOnly (body : List Byte) (d : Station) : Station :=
  (((d.headOrError (readHead (body.take 14))).takeSlots false (slotsOf body)).1.checkOwn (slotsOf body)).1

theorem arriveListening_eq (body : List Byte) (d : Station) : d.arriveListening (readTrain body) =
    (if (heardOnly body d).lpc.bypass then heardOnly body d else (heardOnly body d).send (1 :: body)).signalRefresh := by
  rw [← frame_readTrain body]
  rfl

/-- The station with a train heard, before it goes on. -/
structure HeardOnly (body : List Byte) (a b : Station) : Prop where
  only : AlarmsOnly ((a.headSet body).slotsSet b.lpc) b
  live : b.lpc.live = liveOf a.own b.lpc.floor
  taken : b.lpc.taken = a.lpc.taken
  errors : b.lpc.counters.slotErrors = Counter.bump^[(failing body).length] a.lpc.counters.slotErrors
  entry : ∀ i : Fin 16, b.lpc.floor[i]'i.isLt =
    if i ≠ a.own then entryAfter (viewSlot i (rawSlot body i)) (a.lpc.floor[i]'i.isLt) else (a.lpc.floor[i]'i.isLt)
  config : ∀ h, readHead (body.take 14) = some h → b.condition .configMismatch 0 = (h.sig != a.ownSig)

theorem heardOnly_spec (body : List Byte) (d : Station) (out : d.lpc.state ≠ .up) : HeardOnly body d (heardOnly body d) := by
  obtain ⟨head, config⟩ := (headOrError_spec (readHead (body.take 14)) d).2 (.inl out)
  unfold heardOnly
  generalize d.headOrError (readHead (body.take 14)) = e at head config
  obtain ⟨set, live⟩ := takeSlots_spec false (slotsOf body) e
  have quiet := takeSlots_quiet (slotsOf body) e
  have entry := set.entry
  have errors := congrArg (fun l : Lpc => l.counters.slotErrors) set.rest.lpc
  have taken := (set.quiet rfl).2.2.2.2.2.2
  have own : e.own = d.own := head.floorOnly.own
  have alm := (set.quiet rfl).1
  have number : (e.takeSlots false (slotsOf body)).1.own = d.own := (takeSlots_own ..).trans own
  obtain ⟨floor, lists⟩ := afterHead_floor (readHead (body.take 14)) d.watchEnd d.lpc
  have stood : e.lpc.floor = d.lpc.floor ∧ e.lpc.taken = d.lpc.taken ∧ e.lpc.counters.slotErrors = d.lpc.counters.slotErrors := by
    rw [head.lpc]
    exact ⟨floor, lists, (congrArg (fun x : Station => x.lpc.counters.slotErrors) (headSet_rest body d) :)⟩
  rw [checkOwn_set]
  generalize (e.takeSlots false (slotsOf body)).1 = p at *
  have merged (l : Lpc) : p.slotsSet l = e.slotsSet (p.slotsSet l).lpc := by
    conv_lhs => rw [quiet]
    rfl
  refine ⟨?_, ?_, taken.trans stood.2.1, ?_, fun i => ?_, fun h good => ?_⟩
  · have moved := head.slotsSet (p.slotsSet { p.lpc with counters := { p.lpc.counters with
      slotErrors := Counter.bump^[if viewSlot p.own (rawSlot body p.own) = .fail then 1 else 0] p.lpc.counters.slotErrors } }).lpc
    rw [← merged] at moved
    exact moved
  · show p.lpc.live = liveOf d.own p.lpc.floor
    rw [live, own]
  · show Counter.bump^[_] p.lpc.counters.slotErrors = _
    rw [show p.lpc.counters.slotErrors = _ from errors, ← Function.iterate_add_apply, number, failing_length body d.own, Nat.add_comm]
    show Counter.bump^[((List.finRange 16).filter fun i => failsAt e.own (slotsOf body) i).length + _] e.lpc.counters.slotErrors = _
    rw [own, stood.2.2]
  · show (p.lpc.floor[i]'i.isLt) = _
    rw [entry i]
    show (if i ∈ List.finRange 16 ∧ i ≠ e.own then entryAfter _ (e.lpc.floor[i]'i.isLt) else (e.lpc.floor[i]'i.isLt)) = _
    rw [own, stood.1, slotsOf_getD]
    simp only [List.mem_finRange, true_and]
  · show p.condition .configMismatch 0 = _
    unfold Station.condition at config ⊢
    rw [alm]
    exact config h good

/-- What a train of which the slots alone are taken leaves outside UP, BYPASS apart (R10, R17, R19, R35). -/
structure Listened (body : List Byte) (a b : Station) : Prop where
  out : b.loopOut = a.loopOut ++ if a.lpc.bypass = true then [] else [1 :: body]
  state : b.lpc.state = a.lpc.state
  taken : b.lpc.taken = a.lpc.taken
  written : b.lpc.prevWrite = a.lpc.prevWrite
  bypass : b.lpc.bypass = a.lpc.bypass
  watch : b.lpc.watch = if a.lpc.state = .joining ∧ readHead (body.take 14) ≠ none then some a.watchEnd else a.lpc.watch
  entry : ∀ i : Fin 16, i ≠ a.own → b.lpc.floor[i]'i.isLt = entryAfter (viewSlot i (rawSlot body i)) (a.lpc.floor[i]'i.isLt)
  own : b.lpc.floor[a.own] = a.lpc.floor[a.own]
  live : b.lpc.live = liveOf a.own b.lpc.floor
  last : b.lpc.lastHead = match readHead (body.take 14) with
    | some h => some h
    | none => a.lpc.lastHead
  config : ∀ h, readHead (body.take 14) = some h → b.condition .configMismatch 0 = (h.sig != a.ownSig)
  counters : b.lpc.counters = { a.lpc.counters with
    headErrors := if (readHead (body.take 14)).isNone then a.lpc.counters.headErrors.bump else a.lpc.counters.headErrors
    slotErrors := Counter.bump^[(failing body).length] a.lpc.counters.slotErrors }
  sru : b.sru = a.sru
  told : refreshSignals <:+ b.signals
  blocks : b.piu = a.piu ∧ b.dou = a.dou ∧ b.bsq = a.bsq ∧ b.fdc = a.fdc ∧ b.gcc = a.gcc

theorem headSet_watch {body : List Byte} {d : Station} (out : d.lpc.state ≠ .up) : (d.headSet body).lpc.watch =
    if d.lpc.state = .joining ∧ readHead (body.take 14) ≠ none then some d.watchEnd else d.lpc.watch := by
  unfold Station.headSet Lpc.afterHead
  cases readHead (body.take 14) with
  | none => simp
  | some h => simp [out]

theorem headSet_counters (body : List Byte) (d : Station) : (d.headSet body).lpc.counters = { d.lpc.counters with
    headErrors := if (readHead (body.take 14)).isNone then d.lpc.counters.headErrors.bump
      else d.lpc.counters.headErrors } := by
  unfold Station.headSet Lpc.afterHead
  cases readHead (body.take 14) <;> rfl

theorem headSet_last (body : List Byte) (d : Station) : (d.headSet body).lpc.lastHead =
    match readHead (body.take 14) with
    | some h => some h
    | none => d.lpc.lastHead := by
  unfold Station.headSet Lpc.afterHead
  cases readHead (body.take 14) <;> rfl

/-- A train heard goes on as it came, unless BYPASS is asserted, and the refresh is signalled. -/
theorem arriveListening_sent (body : List Byte) (d : Station) (h : (heardOnly body d).lpc.bypass = d.lpc.bypass) :
    d.arriveListening (readTrain body) = { heardOnly body d with
      loopOut := (heardOnly body d).loopOut ++ if d.lpc.bypass = true then [] else [1 :: body]
      signals := (heardOnly body d).signals ++ refreshSignals } := by
  rw [arriveListening_eq, signalRefresh_eq, h]
  by_cases bypass : d.lpc.bypass = true
  · simp only [if_pos bypass, List.append_nil]
  · simp only [if_neg bypass]
    rfl

theorem listened_spec (body : List Byte) (d : Station) (out : d.lpc.state ≠ .up) :
    Listened body d (d.arriveListening (readTrain body)) := by
  have heard := heardOnly_spec body d out
  have moved := heard.only.lpc
  have set := congrArg Station.lpc (headSet_rest body d)
  have bypass : (heardOnly body d).lpc.bypass = d.lpc.bypass := (congrArg Lpc.bypass moved :).trans (congrArg Lpc.bypass set :)
  rw [arriveListening_sent body d bypass]
  have errors := heard.errors
  refine { out := ?_, state := ?_, taken := heard.taken, written := ?_, bypass := bypass, watch := ?_, entry := fun i ne => ?_
           own := ?_, live := heard.live, last := ?_, config := heard.config, counters := ?_, sru := heard.only.sru
           told := List.suffix_append _ _
           blocks := ⟨heard.only.piu, heard.only.dou, heard.only.bsq, heard.only.fdc, heard.only.gcc⟩ }
  · exact congrArg (· ++ if d.lpc.bypass = true then [] else [1 :: body]) heard.only.loopOut
  · exact (congrArg Lpc.state moved :).trans (congrArg Lpc.state set :)
  · exact (congrArg Lpc.prevWrite moved :).trans (congrArg Lpc.prevWrite set :)
  · exact (congrArg Lpc.watch moved :).trans (headSet_watch out)
  · exact (heard.entry i).trans (if_pos ne)
  · exact (heard.entry d.own).trans (if_neg fun ne => ne rfl)
  · exact (congrArg Lpc.lastHead moved :).trans (headSet_last body d)
  · rw [← errors]
    refine (congrArg Lpc.counters moved :).trans ?_
    exact congrArg (fun c : Counters => { c with slotErrors := (heardOnly body d).lpc.counters.slotErrors })
      (headSet_counters body d)

/-- An entry after a position of the train, by what the position shows (R7). -/
theorem entryAfter_eq (v : SlotView) (e : FloorEntry) : entryAfter v e =
    match v with
    | .pass g =>
      if !e.seen || g.seq != e.seq then { image := some g, seq := g.seq, age := 0, seen := true }
      else if e.seen then { e with age := min 255 (e.age + 1) } else e
    | _ => if e.seen then { e with age := min 255 (e.age + 1) } else e := by
  cases v <;> rfl

theorem condition_of_alm {a b : Station} (h : a.alm = b.alm) (k : CondKind) (n : Nat) :
    a.condition k n = b.condition k n := by
  unfold Station.condition
  rw [h]

/-- BYPASS is left as it is, or released (R17). -/
def Station.bypassReleased (released : Bool) (d : Station) : Station :=
  d.onLpc fun l => { l with bypass := if released = true then false else l.bypass }

section
variable {t : Train} {d : Station}

theorem arriveJoining_headless (head : t.head = none) : d.arriveJoining t = d.arriveListening t := by
  simp only [Station.arriveJoining, head]

theorem arriveJoining_bypassed {h : Head} (head : t.head = some h) (bypass : d.lpc.bypass = true) :
    d.arriveJoining t = (d.arriveListening t).bypassReleased true := by
  simp only [Station.arriveJoining, head, bypass, if_true]
  rfl

theorem arriveRecovery_headless (head : t.head = none) : d.arriveRecovery t = d.arriveListening t := by
  simp only [Station.arriveRecovery, head]

end

/-- A train of which the slots alone are taken is heard, and the first good one in JOINING releases BYPASS (R17, R19, R35). -/
theorem arrive_listens {cmd : Instr} {t : Train} {d : Station}
    (entry : d.lpc.state = .listenOnly ∨ (d.lpc.state = .joining ∧ (d.lpc.bypass = true ∨ t.head = none)) ∨
      ((d.lpc.state = .claiming ∨ d.lpc.state = .deferring ∨ d.lpc.state = .breakSearch) ∧ t.head = none)) :
    (d.take cmd).arrive t = ((trainCounted cmd d).arriveListening t).bypassReleased
      (decide (d.lpc.state = .joining ∧ t.head ≠ none)) := by
  rcases entry with listens | ⟨joins, alone⟩ | ⟨recovers, headless⟩
  · rw [arrive_listenOnly listens, decide_eq_false (by rw [listens]; nofun)]
    rfl
  · rw [arrive_joining joins]
    cases head : t.head with
    | none =>
      rw [arriveJoining_headless head, decide_eq_false fun h => h.2 rfl]
      rfl
    | some h =>
      have bypass : d.lpc.bypass = true := alone.resolve_right (by rw [head]; nofun)
      rw [arriveJoining_bypassed (d := trainCounted _ _) head bypass, decide_eq_true ⟨joins, nofun⟩]
  · rw [arrive_recovery recovers, arriveRecovery_headless headless, decide_eq_false fun h => h.2 headless]
    rfl

/-! ## A second writer -/

section
variable {body : List Byte} {d : Station} {g : Image}

/-- The station that finds the second writer when it has taken a train (R18). -/
def duplicateFound (body : List Byte) (d : Station) : Station :=
  (peersTaken body (headTaken (readHead (body.take 14)) d)).foundDuplicate

theorem judged_duplicate (look : d.lpc.prevWrite = true) (pass : viewSlot d.own (rawSlot body d.own) = .pass g)
    (dup : ShowsDuplicate g d) :
    (peersTaken body (headTaken (readHead (body.take 14)) d)).judgeOwn (slotsOf body) = (duplicateFound body d, true) := by
  have peers := peersHeard body d
  exact judgeOwn_duplicate (peers.prevWrite.trans look) (by rw [peers.ownIndex]; exact pass) (peers.duplicate dup)

theorem arriveMember_duplicate (look : d.lpc.prevWrite = true) (pass : viewSlot d.own (rawSlot body d.own) = .pass g)
    (dup : ShowsDuplicate g d) :
    d.arriveMember (readTrain body) = ((duplicateFound body d).send (1 :: body)).signalRefresh := by
  have judged := judged_duplicate look pass dup
  unfold Station.arriveMember
  rw [show (readTrain body).head = readHead (body.take 14) from rfl, show (readTrain body).slots = slotsOf body from rfl,
    headOrError_eq]
  dsimp only
  rw [takeSlots_eq, judged, ← frame_readTrain body]
  rfl

theorem arriveReturn_duplicate (look : d.lpc.prevWrite = true) (pass : viewSlot d.own (rawSlot body d.own) = .pass g)
    (dup : ShowsDuplicate g d) : d.arriveReturn (readTrain body) = (duplicateFound body d).signalRefresh := by
  have judged := judged_duplicate look pass dup
  unfold Station.arriveReturn
  rw [show (readTrain body).head = readHead (body.take 14) from rfl, show (readTrain body).slots = slotsOf body from rfl,
    headOrError_eq]
  dsimp only
  rw [takeSlots_eq, judged]
  rfl

end

/-- What a second writer leaves of the station (R18, R24, R25). -/
structure LeftForDuplicate (a b : Station) : Prop where
  state : b.lpc.state = .listenOnly
  origin : b.lpc.origin = false
  written : b.lpc.prevWrite = false
  watch : b.lpc.watch = none
  release : b.lpc.release = .idle
  awaiting : b.lpc.awaiting = false
  out : b.loopOut = a.loopOut
  own : b.lpc.floor[a.own] = a.lpc.floor[a.own]
  moment : b.lpc.loopLost = some b.sru.time
  grace : b.lpc.grace = if a.loopCfg.grace = 0 then .expired else .running (a.now + a.loopCfg.grace * 1000000)
  duplicate : b.condition .duplicateStation 0 = true
  lost : b.condition .loopLost 0 = true
  posted : b.ppt.events &&& 4 = 4
  told : .bsqLeftUp ∈ b.signals ∧ .fdcLeftUp ∈ b.signals ∧ .sruLeftUp ∈ b.signals

theorem leftUp_subset (grace : Nat) : [Instr.bsqLeftUp, .fdcLeftUp, .sruLeftUp] ⊆ leftUpSignals grace := by
  unfold leftUpSignals
  split <;> simp

theorem duplicateFound_left (body : List Byte) (d : Station) : LeftForDuplicate d (duplicateFound body d) := by
  have peers := peersHeard body d
  unfold duplicateFound
  generalize peersTaken body (headTaken (readHead (body.take 14)) d) = p at peers
  have moves := departUp_moves .listenOnly p
  have reported := report_only .duplicateStation 0 true (p.departUp .listenOnly)
  have only := moves.only.trans reported
  have moved : p.foundDuplicate.lpc = _ := only.lpc
  have heard := leftUp_subset p.loopCfg.grace
  have mem : ∀ c ∈ leftUpSignals p.loopCfg.grace, c ∈ p.foundDuplicate.signals := fun c h =>
    reported.signals.subset (moves.told.subset h)
  have time : p.foundDuplicate.sru = p.sru := only.sru
  refine ⟨(congrArg Lpc.state moved :), (congrArg Lpc.origin moved :), (congrArg Lpc.prevWrite moved :),
    (congrArg Lpc.watch moved :), (congrArg Lpc.release moved :), (congrArg Lpc.awaiting moved :),
    (only.loopOut : _ = p.loopOut).trans peers.rest.loopOut, ?_, ?_, ?_, report_condition _ _ _ _, ?_,
    posted_kept moves.posted reported.events, mem _ (heard (.head _)), mem _ (heard (.tail _ (.head _))),
    mem _ (heard (.tail _ (.tail _ (.head _))))⟩
  · rw [moved]
    exact peers.own
  · rw [time]
    exact (congrArg Lpc.loopLost moved :)
  · rw [moved, ← show p.loopCfg = d.loopCfg from peers.rest.loopCfg, ← show p.now = d.now from peers.rest.now]
    rfl
  · exact (report_other .duplicateStation 0 true _ .loopLost 0 (by decide)).trans moves.lost

end Sys2Proof.Machine

open Sys2Proof Sys2Proof.Machine in
/-- Settles O6. -/
theorem listenOnlyTakesTheFloorImageAndRepeatsTheTrain : Obligations.ListenOnlyTakesTheFloorImageAndRepeatsTheTrain := by
  refine ⟨fun body s bypassed => ?_, fun body s => ?_, fun body s g up look pass dup headed => ?_⟩
  · exact exec_eq (f := Station.arrive (readTrain body)) (fun _ => rfl) (arrive_bypassed bypassed)
  · intro slot head recovery joining entry older
    refine .of_act (f := Station.arrive (readTrain body)) (fun _ => rfl) ?_
    have out : (trainCounted (.trainArrival body) s.dev).lpc.state ≠ .up := fun up : s.dev.lpc.state = .up => by
      simp [recovery, joining, up] at entry
    have run := listened_spec body (trainCounted (.trainArrival body) s.dev) out
    rw [arrive_listens (t := readTrain body) entry]
    generalize (trainCounted (.trainArrival body) s.dev).arriveListening (readTrain body) = b at run
    obtain ⟨piu, dou, bsq, fdc, gcc⟩ := run.blocks
    refine ⟨run.out, run.state, run.taken, run.written, ?_, run.watch, fun i ne => (run.entry i ne).trans (entryAfter_eq _ _),
      run.own, run.live, run.last, run.config, run.counters, run.sru, run.told, piu, dou, bsq, fdc, gcc⟩
    show (if decide (joining ∧ head ≠ none) = true then false else b.lpc.bypass) = _
    rw [run.bypass]
    simp only [decide_eq_true_eq]
    rfl
  · refine .of_act (f := Station.arrive (readTrain body)) (fun _ => rfl) ?_
    have left := duplicateFound_left body (trainCounted (.trainArrival body) s.dev)
    rw [arrive_up up]
    cases origin : s.dev.lpc.origin with
    | true =>
      rw [arriveUp_return (t := readTrain body) (d := trainCounted _ _) origin fun h e => (headed h e).2 origin,
        arriveReturn_duplicate (d := trainCounted _ _) look pass dup, signalRefresh_eq]
      generalize duplicateFound body (trainCounted (.trainArrival body) s.dev) = b at left ⊢
      obtain ⟨burner, feed, sru⟩ := left.told
      exact ⟨left.state, left.origin, left.written, left.watch, left.release, left.awaiting, left.out, left.own,
        left.moment, left.grace, left.duplicate, left.lost, left.posted, List.mem_append_left _ burner,
        List.mem_append_left _ feed, List.mem_append_left _ sru, List.suffix_append _ _⟩
    | false =>
      have other : ∀ h, readHead (body.take 14) = some h → h.origin ≠ stationByte s.dev.own := fun h e own => by
        rw [(headed h e).1 own] at origin
        cases origin
      rw [arriveUp_member (t := readTrain body) (d := trainCounted _ _) origin other,
        arriveMember_duplicate (d := trainCounted _ _) look pass dup, signalRefresh_eq]
      generalize duplicateFound body (trainCounted (.trainArrival body) s.dev) = b at left ⊢
      obtain ⟨burner, feed, sru⟩ := left.told
      refine ⟨left.state, left.origin, left.written, left.watch, left.release, left.awaiting, ?_, left.own,
        left.moment, left.grace, left.duplicate, left.lost, left.posted, List.mem_append_left _ burner,
        List.mem_append_left _ feed, List.mem_append_left _ sru, List.suffix_append _ _⟩
      exact congrArg (· ++ [1 :: body]) left.out
end

section
/-! SUPPORT. The active parts, the igniter's pulses and the owners' commands on output lines. -/

set_option Elab.async false

namespace Sys2Proof.Machine

/-! ## Ends that are due -/

section
variable {d : Station} {i : Fin 16} {c : OutCfg} {e : Nat}

/-- What the end of an active part does (R74). -/
def Station.activePartEnd (line : Fin 16) (d : Station) : Station :=
  if d.dou.lines[line].activeEnd.isNone then d
  else d.onOut line fun l => { l with activeEnd := none, pin := l.inactiveLevel }

theorem exec_activePartEnd (line : Fin 16) (s : State) :
    exec (.activePartEnd line) s = act (.activePartEnd line) (Station.activePartEnd line) s := rfl

theorem activePartEnd_eq (cfg : d.dou.lines[i].cfg = some c) (due : d.dou.lines[i].activeEnd = some e) :
    d.activePartEnd i = d.onOut i fun l => { l with activeEnd := none, pin := c.inverted } := by
  have level := OutLine.inactiveLevel_of cfg
  unfold Station.activePartEnd
  rw [due, if_neg (by simp)]
  unfold Station.onOut Station.onDou
  dsimp only
  rw [vecModify_congr _ _ (fun l : OutLine => { l with activeEnd := none, pin := l.inactiveLevel })
    (fun l => { l with activeEnd := none, pin := c.inverted }) (by rw [level])]

/-- What the end of an igniter pulse does (R82, R83). -/
def Station.pulseWidthExpiry (d : Station) : Station :=
  match d.findOut .igniter .igniter 0 with
  | none => d
  | some i =>
    if d.dou.lines[i].pulseEnd.isNone then d
    else d.onOut i fun l =>
      if l.burst = .ending then l.goIdle else { l with inPulse := false, pin := false, pulseEnd := none }

theorem exec_igniterPulseWidthExpiry (s : State) :
    exec .igniterPulseWidthExpiry s = act .igniterPulseWidthExpiry Station.pulseWidthExpiry s := rfl

theorem pulseWidthExpiry_eq (carrier : d.findOut .igniter .igniter 0 = some i) (due : d.dou.lines[i].pulseEnd = some e) :
    d.pulseWidthExpiry = d.onOut i fun l =>
      if l.burst = .ending then l.goIdle else { l with inPulse := false, pin := false, pulseEnd := none } := by
  unfold Station.pulseWidthExpiry
  rw [carrier]
  dsimp only
  rw [due, if_neg (by simp)]

/-- What the end of an igniter's spacing does (R82). -/
def Station.spacingExpiry (d : Station) : Station :=
  match d.findOut .igniter .igniter 0 with
  | none => d
  | some i =>
    if d.dou.lines[i].spacingEnd.isNone || d.dou.lines[i].burst ≠ .bursting then d
    else d.onOut i fun l => l.startPulse d.now

theorem exec_igniterSpacingExpiry (s : State) :
    exec .igniterSpacingExpiry s = act .igniterSpacingExpiry Station.spacingExpiry s := rfl

theorem spacingExpiry_eq (carrier : d.findOut .igniter .igniter 0 = some i) (due : d.dou.lines[i].spacingEnd = some e)
    (bursting : d.dou.lines[i].burst = .bursting) : d.spacingExpiry = d.onOut i fun l => l.startPulse d.now := by
  unfold Station.spacingExpiry
  rw [carrier]
  dsimp only
  rw [due, bursting, if_neg (by simp)]

end

/-! ## Commands of the owners, and of everybody else -/

section
variable {d : Station} {i : Fin 16} {who : Owner} (stranger : who ≠ d.dou.lines[i].owner)
include stranger

theorem lineOn_stranger : d.lineOn i who = (d, .refused) := by
  unfold Station.lineOn
  dsimp only
  rw [if_pos (by simpa using Or.inr stranger.symm)]

theorem lineOff_stranger : d.lineOff i who = (d, .refused) := by
  unfold Station.lineOff
  dsimp only
  rw [if_pos (by simpa using Or.inr stranger.symm)]

theorem setPreload_stranger (value : Nat) : d.setPreload i who value = (d, .refused) := by
  unfold Station.setPreload
  dsimp only
  rw [if_pos (by simpa using Or.inr stranger.symm)]

theorem burstStart_stranger : d.burstStart i who = (d, .refused) := by
  unfold Station.burstStart
  dsimp only
  rw [if_pos (by simpa using Or.inr stranger.symm)]

theorem burstEnd_stranger : d.burstEnd i who = (d, .refused) := by
  unfold Station.burstEnd
  dsimp only
  rw [if_pos (by simpa using Or.inr stranger.symm)]

theorem burstCut_stranger : d.burstCut i who = (d, .refused) := by
  unfold Station.burstCut
  dsimp only
  rw [if_pos (by simpa using Or.inr stranger.symm)]

end

section
variable {d : Station} {i : Fin 16} {who : Owner} (kind : d.dou.lines[i].kind = .igniter) (own : d.dou.lines[i].owner = who)
include kind own

/-- BURST START by the owner of the igniter line. -/
theorem burstStart_owned : d.burstStart i who =
    if d.dou.lines[i].forced then (d, .heldOff)
    else if d.dou.lines[i].burst = .idle then (d.onOut i fun l => { l.startPulse d.now with burst := .bursting }, .done)
    else (d, .done) := by
  unfold Station.burstStart
  dsimp only
  rw [if_neg (by simp only [kind, own]; simp)]

/-- BURST END by the owner of the igniter line. -/
theorem burstEnd_owned : d.burstEnd i who =
    if d.dou.lines[i].burst = .bursting then
      (d.onOut i fun l => if l.inPulse then { l with burst := .ending, spacingEnd := none } else l.goIdle, .done)
    else (d, .done) := by
  unfold Station.burstEnd
  dsimp only
  rw [if_neg (by simp only [kind, own]; simp)]

end

section
variable {d : Station} {i : Fin 16} {who : Owner} (kind : d.dou.lines[i].kind = .reference) (own : d.dou.lines[i].owner = who)
include kind own

/-- SET PRELOAD by the owner of a reference line, as one change of the line (R77, R78, R85). -/
theorem setPreload_onLine (value : Nat) :
    let v := min 4080 value
    let stored := fun l : OutLine => { l with preload := v, firstWrite := l.firstWrite && v == 0 }
    d.setPreload i who value =
      (if d.dou.lines[i].forced then d.onLine i stored fun _ => none
      else if v = 0 then
        d.onLine i (fun l => ({ stored l with active := 0 } : OutLine).goInactive.restartPattern d.now)
          (OutLine.valueTold 0 .immediate)
      else if d.dou.lines[i].firstWrite then
        d.onLine i (fun l => ({ stored l with active := v } : OutLine).restartPattern d.now) (OutLine.valueTold v .immediate)
      else d.onLine i stored fun _ => none, .done) := by
  intro v stored
  unfold Station.setPreload
  dsimp only
  rw [if_neg (by simp only [kind, own]; simp)]
  by_cases forced : d.dou.lines[i].forced = true
  · rw [if_pos forced, if_pos forced, onLine_quiet rfl]
  · rw [if_neg forced, if_neg forced]
    by_cases zero : v = 0
    · rw [if_pos zero, if_pos zero, setActiveValue_eq, onOut_onLine, onLine_onOut]
      rfl
    · rw [if_neg zero, if_neg zero]
      by_cases first : d.dou.lines[i].firstWrite = true
      · rw [if_pos first, if_pos first, setActiveValue_eq, onOut_onLine, onLine_onOut]
        rfl
      · rw [if_neg first, if_neg first, onLine_quiet rfl]

end

/-! ## The force and its end -/

theorem exec_douForceStart (s : State) : exec .douForceStart s = act .douForceStart (forAll Station.forceLine) s := rfl

theorem exec_douForceEnd (s : State) : exec .douForceEnd s =
    act .douForceEnd (forAll fun i d => d.onOut i fun l => { l with forced := false }) s := rfl

/-- The force on every line (R84). -/
theorem forceAll (d : Station) :
    (∀ i : Fin 16, (forAll Station.forceLine d).dou.lines[i] = d.dou.lines[i].forcedNow d.now) ∧
    forAll Station.forceLine d = { d with
      dou := (forAll Station.forceLine d).dou
      signals := d.signals ++ (List.finRange 16).filterMap fun i => d.dou.lines[i].forceTold } :=
  forAll_onLine d fun i e same => by rw [forceLine_eq, same]

/-- One change of every line that nobody is told of. -/
theorem forAll_onOut (f : OutLine → OutLine) (d : Station) :
    (∀ i : Fin 16, (forAll (fun i d => d.onOut i f) d).dou.lines[i] = f d.dou.lines[i]) ∧
    forAll (fun i d => d.onOut i f) d = { d with dou := (forAll (fun i d => d.onOut i f) d).dou } := by
  obtain ⟨lines, whole⟩ := forAll_onLine (F := fun i d => d.onOut i f) (told := fun _ => none) d
    fun i e _ => (onLine_quiet rfl).symm
  refine ⟨lines, whole.trans ?_⟩
  rw [List.filterMap_none, List.append_nil]

end Sys2Proof.Machine

open Sys2Proof Sys2Proof.Machine in
/-- Settles O23: each end that is due is one change of its line. -/
theorem activePartsAndIgniterPulsesEnd : Obligations.ActivePartsAndIgniterPulsesEnd := by
  refine ⟨fun line s c e cfg due => ?_, fun s i c e carrier cfg => ?_⟩
  · exact exec_eq (exec_activePartEnd line) (activePartEnd_eq (d := s.dev.take (.activePartEnd line)) cfg due)
  · intro l after
    refine ⟨fun due ending => ?_, fun due bursting => ?_, fun due bursting => ?_⟩
    · refine exec_eq exec_igniterPulseWidthExpiry
        ((pulseWidthExpiry_eq (d := s.dev.take .igniterPulseWidthExpiry) carrier due).trans (Station.onOut_eq _ ?_))
      exact if_pos ending
    · refine exec_eq exec_igniterPulseWidthExpiry
        ((pulseWidthExpiry_eq (d := s.dev.take .igniterPulseWidthExpiry) carrier due).trans (Station.onOut_eq _ ?_))
      exact if_neg fun ending : l.burst = .ending => absurd (bursting.symm.trans ending) nofun
    · refine exec_eq exec_igniterSpacingExpiry
        ((spacingExpiry_eq (d := s.dev.take .igniterSpacingExpiry) carrier due bursting).trans (Station.onOut_eq _ ?_))
      exact OutLine.startPulse_of cfg _

namespace Sys2Proof.Machine

/-! ## The clauses of O24 -/

section
variable {d : Station} {i : Fin 16}

theorem levelLine_commands (level : d.dou.lines[i].isLevel) : let l := d.dou.lines[i]
    d.lineOff i l.owner =
      ({ d with dou := { d.dou with lines := vecModify d.dou.lines i fun _ => { l with on := false, pin := false } } }, .done) ∧
    (l.forced = true → d.lineOn i l.owner = (d, .heldOff)) ∧
    (l.forced = false → d.partnerOn l = false → d.lineOn i l.owner =
      ({ d with dou := { d.dou with lines := vecModify d.dou.lines i fun _ => { l with on := true, pin := true } } }, .done)) ∧
    (l.forced = false → d.partnerOn l = true → d.lineOn i l.owner =
      ({ d with dou := { d.dou with lines := vecModify d.dou.lines i fun _ =>
        { l with refusals := min 65535 (l.refusals + 1) } } }, .refused)) ∧
    (∀ who, who ≠ l.owner → d.lineOn i who = (d, .refused) ∧ d.lineOff i who = (d, .refused)) := by
  intro l
  have turnOn := lineOn_owned level rfl
  refine ⟨(lineOff_owned level rfl).trans (by rw [Station.onOut_eq d rfl]), fun forced => turnOn.trans (if_pos forced),
    fun free alone => ?_, fun free partner => ?_, fun who other => ⟨lineOn_stranger other, lineOff_stranger other⟩⟩
  · rw [turnOn, if_neg (ne_true_of_eq_false free), if_neg (ne_true_of_eq_false alone), Station.onOut_eq d rfl]
  · rw [turnOn, if_neg (ne_true_of_eq_false free), if_pos partner, Station.onOut_eq d rfl]
    rfl

end

end Sys2Proof.Machine

open Sys2Proof Sys2Proof.Machine in
/-- Settles O24: the force is one change of every line; a command of its owner one change of the line. -/
theorem linesObeyTheForceAndTheirOwners : Obligations.LinesObeyTheForceAndTheirOwners := by
  refine ⟨fun s => ?_, fun s => ?_, fun d i => levelLine_commands, fun d i c value cfg kind => ?_, fun d i c cfg kind => ?_⟩
  · exact Runs.of_act exec_douForceStart (forceAll (s.dev.take .douForceStart))
  · exact Runs.of_act exec_douForceEnd (forAll_onOut _ (s.dev.take .douForceEnd))
  · intro l v stored taken told after
    have ⟨kindIs, ownerIs⟩ := line_of_cfg cfg
    have preload := setPreload_onLine (kindIs.trans kind) (rfl : l.owner = l.owner) value
    have told_eq : (l.valueTold v .immediate).toList = told := OutLine.valueTold_of cfg v .immediate
    have written {f : OutLine → OutLine} {g : OutLine → Option Instr} {x : OutLine} {out : List Instr} (change : f l = x)
        (words : (g l).toList = out) := congrArg (·, DouAnswer.done) (onLine_written (d := d) (i := i) change words)
    refine ⟨fun forced => ?_, fun free zero => ?_, fun free some first => ?_, fun free some later => ?_,
      fun who other => setPreload_stranger other value⟩
    · exact preload.trans ((congrArg (·, DouAnswer.done) (if_pos forced)).trans (written rfl rfl))
    · refine preload.trans ((congrArg (·, DouAnswer.done) ((if_neg (ne_true_of_eq_false free)).trans (if_pos zero))).trans
        (written ?_ ((congrArg (fun n => (l.valueTold n .immediate).toList) zero.symm).trans told_eq)))
      exact (OutLine.rested_of (l := { stored with active := 0 }) cfg d.now).trans
        (congrArg (fun n => { taken with active := n, step := 0, activeEnd := none, pin := c.inverted }) zero.symm)
    · refine preload.trans ((congrArg (·, DouAnswer.done) ((if_neg (ne_true_of_eq_false free)).trans
        ((if_neg some).trans (if_pos first)))).trans (written ?_ told_eq))
      exact OutLine.restartPattern_of (l := { stored with active := v }) cfg d.now
    · exact preload.trans ((congrArg (·, DouAnswer.done) ((if_neg (ne_true_of_eq_false free)).trans
        ((if_neg some).trans (if_neg (ne_true_of_eq_false later))))).trans (written rfl rfl))
  · intro l burner after idle
    have ⟨kindIs, ownerIs⟩ := line_of_cfg cfg
    rw [kind] at kindIs ownerIs
    have start := burstStart_owned kindIs ownerIs
    have finish := burstEnd_owned kindIs ownerIs
    have cut := burstCut_owned kindIs ownerIs
    refine ⟨fun forced => start.trans (if_pos forced), fun free idle => ?_, fun free busy => ?_, fun bursting pulse => ?_,
      fun bursting quiet => ?_, fun other => finish.trans (if_neg other), fun idle => cut.trans (by rw [if_pos idle]),
      fun busy => ?_, fun who other => ?_⟩
    · rw [start, if_neg (ne_true_of_eq_false free), if_pos idle]
      exact congrArg (·, DouAnswer.done) (Station.onOut_eq _ (by rw [OutLine.startPulse_of cfg]))
    · rw [start, if_neg (ne_true_of_eq_false free), if_neg busy]
    · rw [finish, if_pos bursting]
      exact congrArg (·, DouAnswer.done) (Station.onOut_eq _ (if_pos pulse))
    · rw [finish, if_pos bursting]
      exact congrArg (·, DouAnswer.done) (Station.onOut_eq _ (if_neg (ne_true_of_eq_false quiet)))
    · rw [cut, if_neg busy]
      exact congrArg (·, DouAnswer.done) (Station.onOut_eq _ rfl)
    · have stranger : who ≠ d.dou.lines[i].owner := ownerIs ▸ other
      exact ⟨burstStart_stranger stranger, burstEnd_stranger stranger, burstCut_stranger stranger⟩
end

section
/-! SUPPORT. What a point makes of its watched condition, and a report of the points that watch it (R153, R155, R156, R159). -/

set_option Elab.async false

namespace Sys2Proof.Machine

/-! ## A point given anew -/

/-- A station with one point given anew. -/
def Station.withPoint (i : Fin 32) (q : Point) (d : Station) : Station :=
  { d with alm := { d.alm with points := vecModify d.alm.points i fun _ => q } }

theorem onPoint_withPoint {i : Fin 32} {d : Station} {f : Point → Point} {q : Point} (h : f (d.alm.points[i]'i.isLt) = q) :
    d.onPoint i f = d.withPoint i q := by
  show ({ d with alm := { d.alm with points := vecModify d.alm.points i f } } : Station) = _
  rw [vecModify_congr _ _ f (fun _ => q) h]
  rfl

theorem withPoint_same (i : Fin 32) (q : Point) (d : Station) : (d.withPoint i q).alm.points[i]'i.isLt = q := vecModify_same _ _ _

theorem withPoint_ne {i j : Fin 32} (ne : j ≠ i) (q : Point) (d : Station) :
    (d.withPoint i q).alm.points[j]'j.isLt = d.alm.points[j]'j.isLt := vecModify_ne _ _ _ _ _ fun e => ne (Fin.ext e.symm)

theorem withPoint_onPoint (i : Fin 32) (q : Point) (f : Point → Point) (d : Station) :
    (d.withPoint i q).onPoint i f = d.withPoint i (f q) := by
  show ({ d with alm := { d.alm with points := vecModify (vecModify d.alm.points i fun _ => q) i f } } : Station) = _
  rw [vecModify_twice]
  rfl

theorem withPoint_twice (i : Fin 32) (p q : Point) (d : Station) : (d.withPoint i p).withPoint i q = d.withPoint i q := by
  unfold Station.withPoint
  dsimp only
  rw [vecModify_twice]

section
variable {told : List Instr} {i : Fin 32} {p q : Point} {a b : Station} (cfg : q.cfg = (a.alm.points[i]'i.isLt).cfg)
include cfg

/-- A move of a point given anew is a move of the point. -/
theorem PointMoved.of_given (h : PointMoved told i p (a.withPoint i q) b) : PointMoved told i p a b where
  point := h.point
  others j ne := (h.others j ne).trans (withPoint_ne ne q a)
  posted := h.posted
  summary := h.summary
  trip := h.trip
  staged := h.staged
  signals := h.signals
  announced := h.announced
  moves := (movesPoint a cfg).move.trans h.moves
  rest := (movesPoint a cfg).only.trans h.rest

theorem PointSettled.of_given {l : List (Fin 32)} (h : PointSettled i p l (a.withPoint i q) b) : PointSettled i p l a b :=
  ⟨.of_given cfg h.moved, h.active, h.raises⟩

theorem PointRaises.of_given (h : PointRaises i p (a.withPoint i q) b) : PointRaises i p a b := by
  obtain ⟨raises, stays⟩ := h
  refine ⟨fun can => ?_, fun cannot => (stays cannot).trans (withPoint_twice i q p a)⟩
  obtain ⟨moved, list⟩ := raises can
  exact ⟨.of_given cfg moved, list⟩

theorem PointReturns.of_given {latched : Bool} (h : PointReturns i latched p (a.withPoint i q) b) :
    PointReturns i latched p a b := by
  obtain ⟨latches, returns, normal, takes⟩ := h
  exact ⟨fun raised l => (latches raised l).trans (withPoint_twice i q _ a), fun raised l => .of_given cfg (returns raised l),
    fun acked => .of_given cfg (normal acked), fun other => (takes other).trans (withPoint_twice i q p a)⟩

end

/-! ## A watched condition -/

theorem setWatched_none {i : Fin 32} {d : Station} (cfg : (d.alm.points[i]'i.isLt).cfg = none) (v : Bool) : d.setWatched i v = d := by
  unfold Station.setWatched
  rw [cfg]

section
variable {i : Fin 32} {v : Bool} {d : Station} {c : PointCfg} (cfg : (d.alm.points[i]'i.isLt).cfg = some c)
include cfg

theorem setWatched_stands (same : (d.alm.points[i]'i.isLt).watched = v) : d.setWatched i v = d := by
  unfold Station.setWatched
  rw [cfg]
  exact if_pos same

/-- A new value of the watched condition, by what the qualified condition holds (R155). -/
theorem setWatched_new (new : (d.alm.points[i]'i.isLt).watched ≠ v) : d.setWatched i v =
    let x := d.withPoint i { d.alm.points[i]'i.isLt with watched := v }
    match (d.alm.points[i]'i.isLt).qualified, v with
    | false, true => if c.onDelay = 0 then x.qualify i else x.onPoint i fun p => { p with delay := some (.on (d.inSec c.onDelay)) }
    | true, false =>
      if c.offDelay = 0 then x.unqualify i else x.onPoint i fun p => { p with delay := some (.off (d.inSec c.offDelay)) }
    | _, _ => x.onPoint i fun p => { p with delay := none } := by
  have point : (d.withPoint i { d.alm.points[i]'i.isLt with watched := v }).alm.points[i]'i.isLt = _ := withPoint_same i _ d
  unfold Station.setWatched
  rw [cfg]
  dsimp only
  rw [if_neg new, onPoint_withPoint rfl, point]
  cases (d.alm.points[i]'i.isLt).qualified <;> cases v <;> rfl

theorem setWatched_idle (new : (d.alm.points[i]'i.isLt).watched ≠ v) (idle : (d.alm.points[i]'i.isLt).qualified = v) :
    d.setWatched i v = d.withPoint i { d.alm.points[i]'i.isLt with watched := v, delay := none } := by
  rw [setWatched_new cfg new, idle]
  cases v <;> exact withPoint_onPoint i _ _ d

end

theorem setWatched_takes (i : Fin 32) (v : Bool) (d : Station) : PointTakes i v d (d.setWatched i v) := by
  refine ⟨fun cfg => setWatched_none cfg v, fun same => ?_, fun c cfg new => ⟨setWatched_idle cfg new, ?_, ?_⟩⟩
  · cases cfg : (d.alm.points[i]'i.isLt).cfg with
    | none => exact setWatched_none cfg v
    | some c => exact setWatched_stands cfg same
  all_goals
    rintro is rfl
    have whole := setWatched_new cfg new
    rw [is] at whole
    dsimp only at whole
    refine ⟨fun delay => ?_, fun none => ?_⟩
  · rw [whole, if_neg delay]
    exact withPoint_onPoint i _ _ d
  · rw [whole, if_pos none]
    have h := qualify_spec i (d.withPoint i { d.alm.points[i]'i.isLt with watched := true })
    rw [withPoint_same] at h
    exact PointRaises.of_given (q := { d.alm.points[i]'i.isLt with watched := true }) rfl h
  · rw [whole, if_neg delay]
    exact withPoint_onPoint i _ _ d
  · rw [whole, if_pos none]
    have h := unqualify_spec i c (d.withPoint i { d.alm.points[i]'i.isLt with watched := false })
      ((congrArg Point.cfg (withPoint_same i _ d)).trans cfg)
    rw [withPoint_same] at h
    exact PointReturns.of_given (q := { d.alm.points[i]'i.isLt with watched := false }) rfl h

/-! ## One point after the other -/

/-- What is kept by each step in turn lets each step be judged as at the start. -/
theorem inTurn_foldl {change : Fin 32 → Station → Station → Prop} {F : Fin 32 → Station → Station} {K : Station → Prop}
    (step : ∀ i x, K x → change i x (F i x)) (keep : ∀ i x, K x → K (F i x)) (l : List (Fin 32)) (d : Station) (start : K d) :
    InTurn change l d (l.foldl (fun d i => F i d) d) := by
  induction l generalizing d with
  | nil => rfl
  | cons i l ih => exact ⟨F i d, step i d start, ih (F i d) (keep i d start)⟩

/-- The points keep their settings. -/
def SameSettings (a b : Station) : Prop := ∀ i : Fin 32, (b.alm.points[i]'i.isLt).cfg = (a.alm.points[i]'i.isLt).cfg

theorem MovesPoints.settings {a b : Station} (h : MovesPoints a b) : SameSettings a b := fun i => h.move.cfg i.val i.isLt

theorem SameSettings.trans {a b c : Station} (h : SameSettings a b) (k : SameSettings b c) : SameSettings a c :=
  fun i => (k i).trans (h i)

theorem watches_iff {k : CondKind} {inst : Nat} {p : Point} :
    p.watches k inst = true ↔ ∃ c, p.cfg = some c ∧ c.kind = k ∧ c.inst = inst := by
  unfold Point.watches
  cases p.cfg <;> simp

theorem recomputeTrip_follows (d : Station) : TripFollows d d.recomputeTrip := by
  unfold TripFollows Station.recomputeTrip
  split
  · rfl
  · rfl

/-- A report is taken by the points in turn, and by the trip request (R153, R155, R159). -/
theorem report_reported (k : CondKind) (inst : Nat) (v : Bool) (d : Station) : Reported k inst v d (d.report k inst v) := by
  refine ⟨fun same => if_pos same, fun new => ?_⟩
  have bne : (fun c : Condition => c != ⟨k, inst⟩) = fun c => decide (c ≠ ⟨k, inst⟩) := by
    funext c
    rw [Bool.eq_iff_iff]
    simp
  let e : Station := { d with alm := { d.alm with present :=
    if v then d.alm.present ++ [{ kind := k, inst := inst }] else d.alm.present.filter fun c => decide (c ≠ ⟨k, inst⟩) } }
  let x := forAll (fun i d => if (d.alm.points[i]'i.isLt).watches k inst then d.setWatched i v else d) e
  have whole : d.report k inst v = if k = .estop then x.recomputeTrip else x := by
    unfold Station.report
    rw [if_neg new]
    unfold Station.onAlm
    dsimp only
    rw [bne]
  refine ⟨x, ?_, ?_, ?_⟩
  · refine inTurn_foldl (K := SameSettings d) (fun i y same => ?_) (fun i y same => ?_) _ _ fun i => rfl
    · constructor
      · intro watches
        rw [← same i] at watches
        rw [if_pos (watches_iff.2 watches)]
        exact setWatched_takes i v y
      · intro other
        rw [← same i] at other
        exact if_neg fun w => other (watches_iff.1 w)
    · split
      · exact same.trans ((MovesPoints.refl y).setWatched i v).settings
      · exact same
  · intro estop
    rw [whole, if_pos estop]
    exact recomputeTrip_follows x
  · intro other
    rw [whole, if_neg other]

/-- A pressure judged by one point (R156). -/
def Station.judgePressure (comp : Nat) (pressure : Option Nat) (i : Fin 32) (d : Station) : Station :=
  match (d.alm.points[i]'i.isLt).cfg with
  | some c =>
    if c.inst = comp && (c.kind == .pressureHigh || c.kind == .pressureLow) then
      d.setWatched i (match pressure with
        | some x => if c.kind = .pressureHigh then x > c.threshold else x < c.threshold
        | none => false)
    else d
  | none => d

theorem handPressure_eq (comp : Nat) (pressure : Option Nat) (d : Station) :
    d.handPressure comp pressure = forAll (Station.judgePressure comp pressure) d := rfl

section
variable {comp : Nat} {pressure : Option Nat} {i : Fin 32} {d : Station} {c : PointCfg} (cfg : (d.alm.points[i]'i.isLt).cfg = some c)
include cfg

theorem judgePressure_high (inst : c.inst = comp) (high : c.kind = .pressureHigh) :
    d.judgePressure comp pressure i = d.setWatched i (pressure.any fun x => c.threshold < x) := by
  unfold Station.judgePressure
  rw [cfg]
  dsimp only
  rw [if_pos (by simp [inst, high]), high]
  cases pressure <;> rfl

theorem judgePressure_low (inst : c.inst = comp) (low : c.kind = .pressureLow) :
    d.judgePressure comp pressure i = d.setWatched i (pressure.any fun x => x < c.threshold) := by
  unfold Station.judgePressure
  rw [cfg]
  dsimp only
  rw [if_pos (by simp [inst, low]), low]
  cases pressure <;> rfl

theorem judgePressure_other (other : c.inst = comp → c.kind ≠ .pressureHigh ∧ c.kind ≠ .pressureLow) :
    d.judgePressure comp pressure i = d := by
  unfold Station.judgePressure
  rw [cfg]
  dsimp only
  refine if_neg fun h => ?_
  simp only [Bool.and_eq_true, decide_eq_true_eq, Bool.or_eq_true, beq_iff_eq] at h
  exact h.2.elim (other h.1).1 (other h.1).2

end

theorem judgePressure_none {comp : Nat} {pressure : Option Nat} {i : Fin 32} {d : Station} (cfg : (d.alm.points[i]'i.isLt).cfg = none) :
    d.judgePressure comp pressure i = d := by
  unfold Station.judgePressure
  rw [cfg]

theorem judgePressure_settings (comp : Nat) (pressure : Option Nat) (i : Fin 32) (d : Station) :
    SameSettings d (d.judgePressure comp pressure i) := by
  unfold Station.judgePressure
  split
  · split
    · exact ((MovesPoints.refl d).setWatched i _).settings
    · exact fun j => rfl
  · exact fun j => rfl

/-- A pressure is judged by the pressure points of its compartment in turn (R156). -/
theorem handPressure_handed (comp : Nat) (pressure : Option Nat) (d : Station) :
    PressureHanded comp pressure d (d.handPressure comp pressure) := by
  rw [handPressure_eq]
  refine inTurn_foldl (K := SameSettings d) (fun i y same => ?_)
    (fun i y same => same.trans (judgePressure_settings comp pressure i y)) _ _ fun i => rfl
  rw [← same i]
  refine ⟨fun c cfg inst => ⟨fun high => ?_, fun low => ?_⟩, fun none => ?_⟩
  · rw [judgePressure_high cfg inst high]
    exact setWatched_takes i _ y
  · rw [judgePressure_low cfg inst low]
    exact setWatched_takes i _ y
  · cases cfg : (y.alm.points[i]'i.isLt).cfg with
    | none => exact judgePressure_none cfg
    | some c => exact judgePressure_other cfg (none c cfg)

/-! ## Delays -/

/-- What the end of an on-delay does (R155). -/
def Station.onDelayExpiry (i : Fin 32) (d : Station) : Station :=
  match (d.alm.points[i]'i.isLt).delay with
  | some (.on _) => d.qualify i
  | _ => d

/-- What the end of an off-delay does (R155). -/
def Station.offDelayExpiry (i : Fin 32) (d : Station) : Station :=
  match (d.alm.points[i]'i.isLt).delay with
  | some (.off _) => d.unqualify i
  | _ => d

theorem exec_onDelayExpiry (i : Fin 32) (s : State) :
    exec (.onDelayExpiry i) s = act (.onDelayExpiry i) (Station.onDelayExpiry i) s := rfl

theorem exec_offDelayExpiry (i : Fin 32) (s : State) :
    exec (.offDelayExpiry i) s = act (.offDelayExpiry i) (Station.offDelayExpiry i) s := rfl

end Sys2Proof.Machine

open Sys2Proof Sys2Proof.Machine in
/-- Settles O46: a delay's end qualifies or unqualifies its point, and a report passes the points in turn. -/
theorem delaysRaiseAndReturnPoints : Obligations.DelaysRaiseAndReturnPoints := by
  refine ⟨?_, report_reported⟩
  intro i s c e cfg p on off
  refine ⟨fun due => ?_, fun due => ?_⟩
  · refine Runs.of_act (exec_onDelayExpiry i) ?_
    unfold Station.onDelayExpiry
    rw [show ((s.dev.take on).alm.points[i]'i.isLt).delay = _ from due]
    exact qualify_spec i (s.dev.take on)
  · refine Runs.of_act (exec_offDelayExpiry i) ?_
    unfold Station.offDelayExpiry
    rw [show ((s.dev.take off).alm.points[i]'i.isLt).delay = _ from due]
    exact unqualify_spec i c (s.dev.take off) cfg
end

section
/-! SUPPORT. What the Pulse Input Unit makes of pins, edges, timers and line changes. -/

set_option Elab.async false

namespace Sys2Proof.Machine

/-! ## A channel and a line given anew -/

/-- A station with one channel given anew, and what is told. -/
def Station.withChannel (i : Fin 8) (x : Channel) (out : List Instr) (d : Station) : Station :=
  { d with piu := { d.piu with channels := vecModify d.piu.channels i fun _ => x }, signals := d.signals ++ out }

namespace Station
variable {i : Fin 8} {d : Station} {f : Channel → Channel} {x : Channel}

theorem onChannel_eq (h : f (d.piu.channels[i]'i.isLt) = x) :
    d.onChannel i f = { d with piu := { d.piu with channels := vecModify d.piu.channels i fun _ => x } } := by
  unfold onChannel onPiu
  dsimp only
  rw [vecModify_congr _ _ f (fun _ => x) h]

theorem onChannel_quiet (h : f (d.piu.channels[i]'i.isLt) = x) : d.onChannel i f = d.withChannel i x [] := by
  rw [onChannel_eq h]
  unfold withChannel
  rw [List.append_nil]

theorem onChannel_raise (h : f (d.piu.channels[i]'i.isLt) = x) (e : Instr) : (d.onChannel i f).raise e = d.withChannel i x [e] := by
  rw [onChannel_eq h]
  rfl

theorem onChannel_onChannel (i : Fin 8) (f g : Channel → Channel) (d : Station) :
    (d.onChannel i f).onChannel i g = d.onChannel i fun c => g (f c) := by
  unfold onChannel onPiu
  simp only [vecModify_twice]

theorem onChannel_same (i : Fin 8) (f : Channel → Channel) (d : Station) :
    (d.onChannel i f).piu.channels[i]'i.isLt = f (d.piu.channels[i]'i.isLt) := vecModify_same _ _ _

theorem onInput_eq {i : Fin 12} {d : Station} {f : InputLine → InputLine} {x : InputLine} (h : f (d.piu.lines[i]'i.isLt) = x) :
    d.onInput i f = { d with piu := { d.piu with lines := vecModify d.piu.lines i fun _ => x } } := by
  unfold onInput onPiu
  dsimp only
  rw [vecModify_congr _ _ f (fun _ => x) h]

theorem onInput_onInput (i : Fin 12) (f g : InputLine → InputLine) (d : Station) :
    (d.onInput i f).onInput i g = d.onInput i fun c => g (f c) := by
  unfold onInput onPiu
  simp only [vecModify_twice]

end Station

/-! ## A line change, delivered -/

/-- A channel after an index edge (R66). -/
def Channel.indexPassed (c : Channel) : Channel :=
  { c with
    position := 0, events := min 4294967295 (c.events + 1), indexed := true
    counted := c.counted.map fun u => { u with position := 0, events := min 4294967295 (u.events + 1) }
    revCounts := if c.indexed then c.position.toInt.natAbs else c.revCounts
    valid := c.indexed || c.valid }

theorem Channel.indexPassed_first {c : Channel} (h : c.indexed = false) : c.indexPassed =
    { (c.count.alsoWithout fun u => { u with position := 0, events := satAdd top32 u.events 1 }) with
      position := 0, indexed := true } := by
  obtain ⟨⟩ := c
  cases h
  rfl

theorem Channel.indexPassed_next {c : Channel} (h : c.indexed = true) : c.indexPassed =
    { (c.count.alsoWithout fun u => { u with position := 0, events := satAdd top32 u.events 1 }) with
      position := 0, revCounts := c.position.toInt.natAbs, valid := true } := by
  obtain ⟨⟩ := c
  cases h
  rfl

section
variable {base : Fin 8} {d : Station} {k : ChannelCfg}

theorem indexEdge_off (off : d.cfg.channels[base]'base.isLt = none ∨ (d.piu.channels[base]'base.isLt).phase = .disabled) : d.indexEdge base = d := by
  unfold Station.indexEdge
  dsimp only
  split
  · rfl
  · next k cfg => exact if_pos (off.resolve_left (by rw [cfg]; nofun))

/-- An index edge of an enabled pair (R66). -/
theorem indexEdge_on (cfg : d.cfg.channels[base]'base.isLt = some k) (phase : (d.piu.channels[base]'base.isLt).phase ≠ .disabled) :
    d.indexEdge base = d.withChannel base (d.piu.channels[base]'base.isLt).indexPassed
      [.fdcIndex (Fin.ofNat 2 (k.inst - 1)) (!(d.piu.channels[base]'base.isLt).indexed)
        (if (d.piu.channels[base]'base.isLt).indexed then (d.piu.channels[base]'base.isLt).position.toInt.natAbs else 0)] := by
  unfold Station.indexEdge
  dsimp only
  rw [cfg]
  dsimp only
  rw [if_neg phase, Station.onChannel_onChannel, Station.onChannel_onChannel]
  by_cases indexed : (d.piu.channels[base]'base.isLt).indexed = true
  · rw [if_pos indexed, if_pos indexed, indexed]
    exact Station.onChannel_raise (Channel.indexPassed_next indexed).symm _
  · have first := Bool.eq_false_of_not_eq_true indexed
    rw [if_neg indexed, if_neg indexed, first]
    exact Station.onChannel_raise (Channel.indexPassed_first first).symm _

end

/-- Every line change is delivered by its line's function (R66, R70). -/
theorem deliverLine_delivered (line : Fin 12) (k : LineCfg) (level : Bool) (d : Station) :
    LineDelivered line k level d (d.deliverLine line k level) := by
  unfold Station.deliverLine
  refine ⟨fun fn => by rw [fn]; rfl, fun fn => by rw [fn]; rfl, fun fn => by rw [fn]; rfl, fun fn => by rw [fn]; rfl,
    fun fn => ?_, fun fn => ?_, fun fn quiet => by rw [fn, quiet]; rfl, fun fn off => ?_, ?_⟩
  · rw [fn]
    dsimp only
    have told : (((d.raise (if level then .douForceStart else .douForceEnd)).raise (.bsqEstopChange level)).raise
        (.fdcEstopChange level)).raise (.gccEstopChange level) = { d with
          signals := d.signals ++ [if level then .douForceStart else .douForceEnd, .bsqEstopChange level, .fdcEstopChange level,
            .gccEstopChange level] } := by
      simp [Station.raise]
    rw [told]
    exact ⟨report_condition .., report_reported .., report_only ..⟩
  · rw [fn]
    exact ⟨report_condition .., report_reported .., report_only ..⟩
  · rw [fn]
    dsimp only
    rw [indexEdge_off off]
    exact ite_self d
  · intro fn active pair base c counts cfg on
    rw [fn, active]
    exact indexEdge_on cfg on

/-! ## Pins -/

/-- The line changes at once, or when it has held (R69, R70). -/
theorem changeLine_eq {line : Fin 12} {d : Station} {k : LineCfg} {w : Wait} (cfg : d.cfg.lines[line]'line.isLt = some k)
    (pending : (d.piu.lines[line]'line.isLt).pending = some w) : d.changeLine line =
    Station.deliverLine line k w.level (d.onInput line fun l => { l with active := w.level, pending := none }) := by
  unfold Station.changeLine
  rw [cfg, pending]

theorem exec_lineChange (line : Fin 12) (s : State) : exec (.lineChange line) s = act (.lineChange line) (Station.changeLine line) s :=
  rfl

/-- What a change of a pulse pin does (R58). -/
def Station.pulsePin (ch : Fin 8) (level : Bool) (d : Station) : Station :=
  if (d.piu.channels[ch]'ch.isLt).pin = level then d
  else if (d.piu.channels[ch]'ch.isLt).phase = .disabled then
    d.onChannel ch fun c => { c with pin := level, accepted := level, wait := none }
  else
    let f := match (d.cfg.channels[ch]'ch.isLt) with
      | some k => filterMicros k.filter
      | none => 0
    d.onChannel ch fun c =>
      { c with pin := level, wait := if level = c.accepted then none else some { level := level, due := d.now + f } }

theorem exec_pulsePinChange (ch : Fin 8) (level : Bool) (s : State) :
    exec (.pulsePinChange ch level) s = act (.pulsePinChange ch level) (Station.pulsePin ch level) s := rfl

/-- What a change of an input pin does (R69). -/
def Station.inputPin (line : Fin 12) (level : Bool) (d : Station) : Station :=
  if (d.piu.lines[line]'line.isLt).pin = level then d
  else
    let e := d.onInput line fun l => { l with pin := level }
    match (e.cfg.lines[line]'line.isLt) with
    | none => e
    | some c =>
      if !e.ppt.started || c.fn == .unused then e
      else if c.logical level = (d.piu.lines[line]'line.isLt).active then e.onInput line fun l => { l with pending := none }
      else
        let x := e.onInput line fun l => { l with pending := some { level := c.logical level, due := e.inMs c.debounce } }
        if c.debounce = 0 then x.changeLine line else x

theorem exec_inputPinChange (line : Fin 12) (level : Bool) (s : State) :
    exec (.inputPinChange line level) s = act (.inputPinChange line level) (Station.inputPin line level) s := rfl

theorem pulsePin_same {ch : Fin 8} {level : Bool} {d : Station} (h : (d.piu.channels[ch]'ch.isLt).pin = level) : d.pulsePin ch level = d :=
  if_pos h

theorem pulsePin_disabled {ch : Fin 8} {level : Bool} {d : Station} (h : (d.piu.channels[ch]'ch.isLt).pin ≠ level)
    (off : (d.piu.channels[ch]'ch.isLt).phase = .disabled) :
    d.pulsePin ch level = d.onChannel ch fun c => { c with pin := level, accepted := level, wait := none } :=
  (if_neg h).trans (if_pos off)

theorem pulsePin_enabled {ch : Fin 8} {level : Bool} {d : Station} {k : ChannelCfg} (cfg : d.cfg.channels[ch]'ch.isLt = some k)
    (h : (d.piu.channels[ch]'ch.isLt).pin ≠ level) (on : (d.piu.channels[ch]'ch.isLt).phase ≠ .disabled) :
    d.pulsePin ch level = d.onChannel ch fun c => { c with
      pin := level
      wait := if level = c.accepted then none else some { level := level, due := d.now + filterMicros k.filter } } := by
  refine (if_neg h).trans ((if_neg on).trans ?_)
  rw [cfg]

section
variable {line : Fin 12} {level : Bool} {d : Station}

theorem inputPin_same (h : (d.piu.lines[line]'line.isLt).pin = level) : d.inputPin line level = d := if_pos h

variable (h : (d.piu.lines[line]'line.isLt).pin ≠ level)
include h

/-- A pin that is not watched only takes its level. -/
theorem inputPin_unwatched (off : ¬ (d.ppt.started = true ∧ ∃ k, d.cfg.lines[line]'line.isLt = some k ∧ k.fn ≠ .unused)) :
    d.inputPin line level = d.onInput line fun l => { l with pin := level } := by
  refine (if_neg h).trans ?_
  dsimp only
  split
  · rfl
  · next k cfg =>
    refine if_pos ?_
    by_contra watched
    simp only [Bool.or_eq_true, Bool.not_eq_true', beq_iff_eq, not_or] at watched
    exact off ⟨Bool.eq_true_of_not_eq_false watched.1, k, cfg, watched.2⟩

variable {k : LineCfg} (cfg : d.cfg.lines[line]'line.isLt = some k) (used : k.fn ≠ .unused) (up : d.ppt.started = true)
include cfg used up

/-- A watched pin starts or drops its pending change; without a debounce time the change takes effect at once. -/
theorem inputPin_watched : d.inputPin line level =
    if k.logical level = (d.piu.lines[line]'line.isLt).active then d.onInput line fun l => { l with pin := level, pending := none }
    else
      let x := d.onInput line fun l =>
        { l with pin := level, pending := some { level := k.logical level, due := d.now + k.debounce * 1000 } }
      if k.debounce = 0 then x.changeLine line else x := by
  refine (if_neg h).trans ?_
  have same : (d.onInput line fun l => { l with pin := level }).cfg.lines[line]'line.isLt = some k := cfg
  have on : (d.onInput line fun l => { l with pin := level }).ppt.started = true := up
  dsimp only
  rw [same]
  dsimp only
  rw [on, if_neg (by simpa using used), Station.onInput_onInput, Station.onInput_onInput]
  rfl

end

end Sys2Proof.Machine

open Sys2Proof Sys2Proof.Machine in
/-- Settles O16: a pin that takes another level starts its wait, drops it, or is only noted. -/
theorem pinChangesStartOrCancelTheirWait : Obligations.PinChangesStartOrCancelTheirWait := by
  refine ⟨fun ch level s => ?_, fun line level s => ?_, fun ch level s k cfg on new => ?_, fun line level s k cfg used up new => ?_⟩
  · intro cmd
    refine ⟨fun same => exec_eq (exec_pulsePinChange ch level) (pulsePin_same same), fun new off => ?_⟩
    exact exec_eq (exec_pulsePinChange ch level) (pulsePin_disabled (d := s.dev.take cmd) new off)
  · intro cmd watched
    refine ⟨fun same => exec_eq (exec_inputPinChange line level) (inputPin_same same), fun new off => ?_⟩
    exact exec_eq (exec_inputPinChange line level) (inputPin_unwatched (d := s.dev.take cmd) new off)
  · intro c filter
    exact exec_eq (exec_pulsePinChange ch level) ((pulsePin_enabled (d := s.dev.take _) cfg new on).trans
      (Station.onChannel_eq rfl))
  · intro cmd l active after
    have pin := inputPin_watched (d := s.dev.take cmd) new cfg used up
    refine ⟨fun waits => ?_, fun none same => ?_, fun none other => ?_⟩
    · refine exec_eq (exec_inputPinChange line level) (pin.trans ?_)
      by_cases same : active = l.active
      · exact (if_pos same).trans (Station.onInput_eq (by rw [if_pos same]; rfl))
      · exact (if_neg same).trans ((if_neg waits.ne').trans (Station.onInput_eq (by rw [if_neg same]; rfl)))
    · exact exec_eq (exec_inputPinChange line level) (pin.trans ((if_pos same).trans (Station.onInput_eq rfl)))
    · refine Runs.of_act (exec_inputPinChange line level) ?_
      rw [(pin.trans (if_neg other)).trans ((if_pos none).trans
        (changeLine_eq cfg (congrArg InputLine.pending (vecModify_same _ _ _)))), Station.onInput_onInput, Station.onInput_eq rfl]
      exact deliverLine_delivered line k active _

open Sys2Proof Sys2Proof.Machine in
/-- Settles O20: the trip request is the alarm record's reading, and a pending change is delivered by its line's function. -/
theorem lineChangesAreDeliveredByFunction : Obligations.LineChangesAreDeliveredByFunction := by
  refine ⟨fun d => ?_, fun line s k w cfg pending => ?_⟩
  · intro trips sees
    have read := alarmsRead d
    have spared {l : List (Fin 32)} (none : ∀ j ∈ l, ¬ trips j) :
        ∀ j ∈ l, ∀ k, (d.alm.points[j]'j.isLt).cfg = some k → k.cls ≠ .trip :=
      fun j mem k cfg trip => none j mem ⟨k, cfg, trip⟩
    refine ⟨fun before after i c list none cfg cls => read.trip before after i c list cfg cls (spared none), fun none clear => ?_,
      fun none present => ?_⟩
    · exact (read.estop (spared none)).1 clear
    · obtain ⟨-, seen, unseen⟩ := read.estop (spared none)
      exact ⟨fun i sees lowest => seen i present sees lowest, unseen present⟩
  · refine Runs.of_act (exec_lineChange line) ?_
    rw [changeLine_eq (d := s.dev.take (.lineChange line)) cfg pending]
    exact deliverLine_delivered line k w.level _
end

section
/-! SUPPORT. Accepted edges, overflows and still timers: what they make of a channel and tell its owner. -/

set_option Elab.async false

namespace Sys2Proof.Machine

/-! ## Meanings as effects -/

/-- A channel that has accepted a level (R58). -/
def Channel.accept (level : Bool) (c : Channel) : Channel := { c with pin := level, accepted := level, wait := none }

/-- The waits of both inputs run out together (R64). -/
def waitsTogether (a b : Channel) : Bool :=
  match a.wait, b.wait with
  | some x, some y => x.due == y.due
  | _, _ => false

/-- What an accepted edge does (R58, R60, R62, R64). -/
def Station.acceptEdge (ch : Fin 8) (level : Bool) (d : Station) : Station :=
  match (d.cfg.channels[ch]'ch.isLt) with
  | none => d
  | some k =>
    if (d.piu.channels[ch]'ch.isLt).phase = .disabled || (d.piu.channels[ch]'ch.isLt).accepted = level then d
    else
      let both := waitsTogether (d.piu.channels[ch]'ch.isLt) d.piu.channels[pairMate ch]
      let e := d.onChannel ch (Channel.accept level)
      match k.mode with
      | .period => e.periodEdge ch k (level != k.falling)
      | .countWindow => e.windowEdge ch k (level != k.falling)
      | .quadrature => e.quadratureEdge ch k level both

theorem exec_acceptedEdge (ch : Fin 8) (level : Bool) (s : State) :
    exec (.acceptedEdge ch level) s = act (.acceptedEdge ch level) (Station.acceptEdge ch level) s := rfl

section
variable {ch : Fin 8} {level : Bool} {d : Station} {k : ChannelCfg} (cfg : d.cfg.channels[ch]'ch.isLt = some k)
  (on : (d.piu.channels[ch]'ch.isLt).phase ≠ .disabled) (new : (d.piu.channels[ch]'ch.isLt).accepted ≠ level)
include cfg on new

theorem acceptEdge_mode : d.acceptEdge ch level =
    let both := waitsTogether (d.piu.channels[ch]'ch.isLt) d.piu.channels[pairMate ch]
    let e := d.onChannel ch (Channel.accept level)
    match k.mode with
    | .period => e.periodEdge ch k (level != k.falling)
    | .countWindow => e.windowEdge ch k (level != k.falling)
    | .quadrature => e.quadratureEdge ch k level both := by
  unfold Station.acceptEdge
  rw [cfg]
  exact if_neg (by simpa using ⟨on, new⟩)

theorem acceptEdge_period (mode : k.mode = .period) :
    d.acceptEdge ch level = (d.onChannel ch (Channel.accept level)).periodEdge ch k (level != k.falling) := by
  rw [acceptEdge_mode cfg on new, mode]

theorem acceptEdge_window (mode : k.mode = .countWindow) :
    d.acceptEdge ch level = (d.onChannel ch (Channel.accept level)).windowEdge ch k (level != k.falling) := by
  rw [acceptEdge_mode cfg on new, mode]

theorem acceptEdge_quadrature (mode : k.mode = .quadrature) :
    d.acceptEdge ch level = (d.onChannel ch (Channel.accept level)).quadratureEdge ch k level
      (waitsTogether (d.piu.channels[ch]'ch.isLt) d.piu.channels[pairMate ch]) := by
  rw [acceptEdge_mode cfg on new, mode]

end

theorem tbMicros_eq (tb : Timebase) : tbMicros tb = match tb with | .us1 => 1 | .us8 => 8 | .us64 => 64 | .us512 => 512 := by
  cases tb <;> rfl

/-! ## PERIOD, by the phases of Table 4-3 -/

section
variable {ch : Fin 8} {k : ChannelCfg} {d : Station}

theorem periodEdge_seeks (phase : (d.piu.channels[ch]'ch.isLt).phase = .seeking) : d.periodEdge ch k true =
    d.onChannel ch fun c => { c with restarted := d.now, heldWidth := none, phase := .timing } := by
  unfold Station.periodEdge
  simp only [phase]

theorem periodEdge_passive (phase : (d.piu.channels[ch]'ch.isLt).phase = .seeking) : d.periodEdge ch k false = d := by
  unfold Station.periodEdge
  simp only [phase]

theorem periodEdge_width (phase : (d.piu.channels[ch]'ch.isLt).phase = .timing) (first : (d.piu.channels[ch]'ch.isLt).heldWidth = none) :
    d.periodEdge ch k false =
      d.onChannel ch fun c => { c with heldWidth := some ((d.piu.channels[ch]'ch.isLt).counterAt d.now k.tb) } := by
  unfold Station.periodEdge
  simp only [phase, first, Option.isNone_none, if_true]

theorem periodEdge_captures (phase : (d.piu.channels[ch]'ch.isLt).phase = .timing) : d.periodEdge ch k true =
    k.captureEvent ((d.piu.channels[ch]'ch.isLt).counterAt d.now k.tb) ((d.piu.channels[ch]'ch.isLt).heldWidth.getD 0) (d.onChannel ch fun c =>
      { c.count with
        lastPeriod := (d.piu.channels[ch]'ch.isLt).counterAt d.now k.tb, lastWidth := (d.piu.channels[ch]'ch.isLt).heldWidth.getD 0
        valid := true, restarted := d.now, heldWidth := none }) := by
  unfold Station.periodEdge
  simp only [phase]

/-! ## COUNT-WINDOW, by the phases of Table 4-4 -/

theorem windowEdge_seeks (phase : (d.piu.channels[ch]'ch.isLt).phase = .seeking) : d.windowEdge ch k true =
    d.onChannel ch fun c => { c with restarted := d.now, edges := 0, overflow := false, phase := .counting } := by
  unfold Station.windowEdge
  simp only [phase]

theorem windowEdge_passive (phase : (d.piu.channels[ch]'ch.isLt).phase = .seeking ∨ (d.piu.channels[ch]'ch.isLt).phase = .counting) :
    d.windowEdge ch k false = d := by
  unfold Station.windowEdge
  rcases phase with phase | phase <;> simp only [phase]

theorem windowEdge_counts (phase : (d.piu.channels[ch]'ch.isLt).phase = .counting) (more : (d.piu.channels[ch]'ch.isLt).edges + 1 < k.count) :
    d.windowEdge ch k true = d.onChannel ch fun c => { c with edges := c.edges + 1 } := by
  unfold Station.windowEdge
  simp only [phase]
  exact if_pos more

theorem windowEdge_ends (phase : (d.piu.channels[ch]'ch.isLt).phase = .counting) (full : k.count ≤ (d.piu.channels[ch]'ch.isLt).edges + 1) :
    d.windowEdge ch k true =
      (d.onChannel ch fun c =>
        { c.count with
          lastTicks := (d.piu.channels[ch]'ch.isLt).counterAt d.now k.tb, lastCount := k.count, valid := true, restarted := d.now
          edges := 0, overflow := false }).raise
        (.fdcWeigherWindow (Fin.ofNat 2 (k.inst - 1)) ((d.piu.channels[ch]'ch.isLt).counterAt d.now k.tb) k.count
          (d.piu.channels[ch]'ch.isLt).overflow k.tb) := by
  unfold Station.windowEdge
  simp only [phase]
  exact if_neg (Nat.not_lt.2 full)

end

/-! ## One edge of a channel, as one change of it -/

section
variable {ch : Fin 8} {level : Bool} {d : Station} {k : ChannelCfg} {c x : Channel}

theorem accepted_then (own : (d.piu.channels[ch]'ch.isLt).accept level = c) {f : Channel → Channel} (h : f c = x) :
    (d.onChannel ch (Channel.accept level)).onChannel ch f = d.withChannel ch x [] := by
  rw [Station.onChannel_onChannel, Station.onChannel_quiet (x := x) (by rw [own, h])]

theorem accepted_raise (own : (d.piu.channels[ch]'ch.isLt).accept level = c) {f : Channel → Channel} (h : f c = x) (e : Instr) :
    ((d.onChannel ch (Channel.accept level)).onChannel ch f).raise e = d.withChannel ch x [e] := by
  rw [Station.onChannel_onChannel, Station.onChannel_raise (x := x) (by rw [own, h])]

variable (own : (d.piu.channels[ch]'ch.isLt).accept level = c)
include own

theorem accepted_channel : (d.onChannel ch (Channel.accept level)).piu.channels[ch]'ch.isLt = c :=
  (Station.onChannel_same ch _ d).trans own

theorem accepted_only : d.onChannel ch (Channel.accept level) = d.withChannel ch c [] := Station.onChannel_quiet own

/-- Table 4-3 from an accepted level. -/
theorem accepted_period :
    let e := d.onChannel ch (Channel.accept level)
    let n := c.counterAt d.now k.tb
    (c.phase = .seeking → e.periodEdge ch k true =
      d.withChannel ch { c with restarted := d.now, heldWidth := none, phase := .timing } []) ∧
    (c.phase = .seeking → e.periodEdge ch k false = d.withChannel ch c []) ∧
    (c.phase = .timing → c.heldWidth = none → e.periodEdge ch k false = d.withChannel ch { c with heldWidth := some n } []) ∧
    (c.phase = .timing →
      let x := { c with
        lastPeriod := n, lastWidth := c.heldWidth.getD 0, valid := true, events := min 4294967295 (c.events + 1)
        restarted := d.now, heldWidth := none }
      (k.fn = .flameScanner → e.periodEdge ch k true =
        d.withChannel ch x [.bsqScannerCapture (Fin.ofNat 2 (k.inst - 1)) n (c.heldWidth.getD 0) k.tb]) ∧
      (k.fn = .pressure → e.periodEdge ch k true =
        d.withChannel ch x [.gccPressureCapture (Fin.ofNat 4 (k.inst - 1)) n (c.heldWidth.getD 0) k.tb])) := by
  intro e n
  have here : e.piu.channels[ch]'ch.isLt = c := accepted_channel own
  refine ⟨fun phase => ?_, fun phase => ?_, fun phase none => ?_, fun phase => ?_⟩
  · rw [periodEdge_seeks (by rw [here]; exact phase)]
    exact accepted_then own rfl
  · rw [periodEdge_passive (by rw [here]; exact phase)]
    exact accepted_only own
  · rw [periodEdge_width (by rw [here]; exact phase) (by rw [here]; exact none), here]
    exact accepted_then own rfl
  · intro x
    rw [periodEdge_captures (by rw [here]; exact phase), here]
    refine ⟨fun fn => ?_, fun fn => ?_⟩
    · unfold ChannelCfg.captureEvent
      rw [fn]
      exact accepted_raise own rfl _
    · unfold ChannelCfg.captureEvent
      rw [fn]
      exact accepted_raise own rfl _

/-- Table 4-4 from an accepted level. -/
theorem accepted_window :
    let e := d.onChannel ch (Channel.accept level)
    let n := c.counterAt d.now k.tb
    (c.phase = .seeking → e.windowEdge ch k true =
      d.withChannel ch { c with restarted := d.now, edges := 0, overflow := false, phase := .counting } []) ∧
    (c.phase = .seeking ∨ c.phase = .counting → e.windowEdge ch k false = d.withChannel ch c []) ∧
    (c.phase = .counting → c.edges + 1 < k.count → e.windowEdge ch k true =
      d.withChannel ch { c with edges := c.edges + 1 } []) ∧
    (c.phase = .counting → k.count ≤ c.edges + 1 → e.windowEdge ch k true = d.withChannel ch
      { c with
        lastTicks := n, lastCount := k.count, valid := true, events := min 4294967295 (c.events + 1), restarted := d.now
        edges := 0, overflow := false }
      [.fdcWeigherWindow (Fin.ofNat 2 (k.inst - 1)) n k.count c.overflow k.tb]) := by
  intro e n
  have here : e.piu.channels[ch]'ch.isLt = c := accepted_channel own
  refine ⟨fun phase => ?_, fun phase => ?_, fun phase more => ?_, fun phase full => ?_⟩
  · rw [windowEdge_seeks (by rw [here]; exact phase)]
    exact accepted_then own rfl
  · rw [windowEdge_passive (by rw [here]; exact phase)]
    exact accepted_only own
  · rw [windowEdge_counts (by rw [here]; exact phase) (by rw [here]; exact more)]
    exact accepted_then own rfl
  · rw [windowEdge_ends (by rw [here]; exact phase) (by rw [here]; exact full), here]
    exact accepted_raise own rfl _

end

/-! ## Overflows and still timers -/

/-- What an overflow of a capture counter does (R60 to R64). -/
def Station.captureOverflow (ch : Fin 8) (d : Station) : Station :=
  match (d.cfg.channels[ch]'ch.isLt) with
  | none => d
  | some k =>
    if (d.piu.channels[ch]'ch.isLt).phase = .disabled then d
    else
      match k.mode with
      | .period => k.noSignalEvent (d.onChannel ch fun c =>
          { c.count with valid := false, restarted := d.now, heldWidth := none, phase := .seeking })
      | .countWindow => k.noSignalEvent (d.onChannel ch fun c =>
          { c.count with valid := false, restarted := d.now, overflow := c.overflow || c.phase == .counting })
      | .quadrature => d

theorem exec_captureOverflow (ch : Fin 8) (s : State) :
    exec (.captureOverflow ch) s = act (.captureOverflow ch) (Station.captureOverflow ch) s := rfl

theorem captureOverflow_mode {ch : Fin 8} {d : Station} {k : ChannelCfg} (cfg : d.cfg.channels[ch]'ch.isLt = some k)
    (on : (d.piu.channels[ch]'ch.isLt).phase ≠ .disabled) : d.captureOverflow ch =
      match k.mode with
      | .period => k.noSignalEvent (d.onChannel ch fun c =>
          { c.count with valid := false, restarted := d.now, heldWidth := none, phase := .seeking })
      | .countWindow => k.noSignalEvent (d.onChannel ch fun c =>
          { c.count with valid := false, restarted := d.now, overflow := c.overflow || c.phase == .counting })
      | .quadrature => d := by
  unfold Station.captureOverflow
  rw [cfg]
  exact if_neg on

/-- What the expiry of a still timer does (R67). -/
def Station.stillExpiry (ch : Fin 8) (d : Station) : Station :=
  match (d.cfg.channels[ch]'ch.isLt) with
  | none => d
  | some k =>
    if (d.piu.channels[ch]'ch.isLt).still.isNone then d
    else
      let still := some (d.inMs (d.piu.channels[ch]'ch.isLt).stall)
      (d.onChannel ch fun c => { c.count with valid := false, still := still }.alsoWithout fun u =>
        { u with still := still, events := satAdd top32 u.events 1 }).raise
        (.fdcStill (Fin.ofNat 2 (k.inst - 1)) (d.piu.channels[ch]'ch.isLt).position)

theorem exec_stillTimerExpiry (pair : Fin 4) (s : State) : exec (.stillTimerExpiry pair) s =
    act (.stillTimerExpiry pair) (Station.stillExpiry (Fin.ofNat 8 (2 * pair.val))) s := rfl

theorem stillExpiry_eq {ch : Fin 8} {d : Station} {k : ChannelCfg} {e : Nat} (cfg : d.cfg.channels[ch]'ch.isLt = some k)
    (due : (d.piu.channels[ch]'ch.isLt).still = some e) :
    let c := d.piu.channels[ch]'ch.isLt
    let still := some (d.now + c.stall * 1000)
    d.stillExpiry ch = d.withChannel ch
      { c with
        valid := false, events := min 4294967295 (c.events + 1), still := still
        counted := c.counted.map fun u => { u with events := min 4294967295 (u.events + 1), still := still } }
      [.fdcStill (Fin.ofNat 2 (k.inst - 1)) c.position] := by
  intro c still
  unfold Station.stillExpiry
  rw [cfg]
  dsimp only
  rw [due, if_neg (by simp)]
  exact Station.onChannel_raise rfl _

end Sys2Proof.Machine

open Sys2Proof Sys2Proof.Machine in
/-- Settles O17: an accepted edge is one change of its channel, by the row of Table 4-3 or 4-4 that fits. -/
theorem edgesMeasurePeriodsAndWindows : Obligations.EdgesMeasurePeriodsAndWindows := by
  intro ch level s k cfg new cmd c active micros ticks events after
  have done {x : Channel} {out : List Instr} (h : (s.dev.take cmd).acceptEdge ch level = (s.dev.take cmd).withChannel ch x out) :
      after x out := exec_eq (exec_acceptedEdge ch level) h
  have enabled {p : ChannelPhase} (ne : p ≠ .disabled) (phase : c.phase = p) : ((s.dev.take cmd).piu.channels[ch]'ch.isLt).phase ≠ .disabled :=
    phase.trans_ne ne
  refine ⟨fun mode => ?_, fun mode => ?_⟩
  · obtain ⟨seeks, passive, width, captures⟩ := accepted_period (d := s.dev.take cmd) (level := level) (k := k) (c := c) rfl
    have edge {v : Bool} {p : ChannelPhase} (phase : c.phase = p) (is : active = v) (ne : p ≠ .disabled) :=
      (acceptEdge_period (d := s.dev.take cmd) cfg (enabled ne phase) new mode).trans
        (congrArg (fun v => Station.periodEdge ch k v _) is)
    refine ⟨fun phase on => done ?_, fun phase off => done ?_, fun phase off first => done ?_, fun phase on => ?_⟩
    · exact (edge phase on (by nofun)).trans (seeks phase)
    · exact (edge phase off (by nofun)).trans (passive phase)
    · exact (edge phase off (by nofun)).trans (width phase first)
    · obtain ⟨scanner, pressure⟩ := captures phase
      have here := edge phase on (by nofun)
      exact ⟨fun fn => done (here.trans (scanner fn)), fun fn => done (here.trans (pressure fn))⟩
  · obtain ⟨seeks, passive, counts, ends⟩ := accepted_window (d := s.dev.take cmd) (level := level) (k := k) (c := c) rfl
    have edge {v : Bool} {p : ChannelPhase} (phase : c.phase = p) (is : active = v) (ne : p ≠ .disabled) :=
      (acceptEdge_window (d := s.dev.take cmd) cfg (enabled ne phase) new mode).trans
        (congrArg (fun v => Station.windowEdge ch k v _) is)
    refine ⟨fun phase on => done ?_, fun phase off => done ?_, fun phase on more => done ?_, fun phase on full => done ?_⟩
    · exact (edge phase on (by nofun)).trans (seeks phase)
    · rcases phase with seeking | counting
      · exact (edge seeking off (by nofun)).trans (passive (.inl seeking))
      · exact (edge counting off (by nofun)).trans (passive (.inr counting))
    · exact (edge phase on (by nofun)).trans (counts phase more)
    · exact (edge phase on (by nofun)).trans (ends phase full)

open Sys2Proof Sys2Proof.Machine in
/-- Settles O19: an overflow or a still timer's expiry is one change of its channel and one word to its owner. -/
theorem overflowsAndStillTimersAreDelivered : Obligations.OverflowsAndStillTimersAreDelivered := by
  refine ⟨fun ch s k cfg on => ?_, fun pair s k e => ?_⟩
  · intro cmd c lost after
    have whole := captureOverflow_mode (d := s.dev.take cmd) cfg on
    have done {x : Channel} {out : List Instr} (h : (s.dev.take cmd).captureOverflow ch = (s.dev.take cmd).withChannel ch x out) :
        after x out := exec_eq (exec_captureOverflow ch) h
    refine ⟨fun mode fn => done ?_, fun mode fn => done ?_, fun mode fn => done ?_, fun mode => ?_⟩
    · rw [whole, mode]
      unfold ChannelCfg.noSignalEvent
      rw [fn]
      exact Station.onChannel_raise rfl _
    · rw [whole, mode]
      unfold ChannelCfg.noSignalEvent
      rw [fn]
      exact Station.onChannel_raise rfl _
    · rw [whole, mode]
      unfold ChannelCfg.noSignalEvent
      rw [fn]
      exact Station.onChannel_raise rfl _
    · exact exec_eq (exec_captureOverflow ch) (whole.trans (by rw [mode]))
  · intro ch c cmd cfg due
    have lower : Fin.ofNat 8 (2 * pair.val) = ch := Fin.ext (Nat.mod_eq_of_lt ch.isLt)
    have run : ∀ s, exec cmd s = act cmd (Station.stillExpiry ch) s := lower ▸ exec_stillTimerExpiry pair
    exact exec_eq run (stillExpiry_eq (d := s.dev.take cmd) cfg due)
end

section
/-! SUPPORT. An edge of a pair of encoder inputs: counted, counted together with the other's, or taken back. -/

set_option Elab.async false

namespace Sys2Proof.Machine

/-! ## The two inputs of a pair -/

theorem pairMate_ne (ch : Fin 8) : pairMate ch ≠ ch := by revert ch; decide

theorem pairMate_pairMate (ch : Fin 8) : pairMate (pairMate ch) = ch := by revert ch; decide

theorem pairBase_pairMate (ch : Fin 8) : pairBase (pairMate ch) = pairBase ch := by revert ch; decide

theorem lower_iff (ch : Fin 8) : (ch == pairBase ch) = decide (ch.val % 2 = 0) := by revert ch; decide

theorem waitsTogether_iff {a b : Channel} :
    waitsTogether a b = true ↔ ∃ x y : Wait, a.wait = some x ∧ b.wait = some y ∧ x.due = y.due := by
  unfold waitsTogether
  cases a.wait <;> cases b.wait <;> simp

/-- Two changes of entries that commute may be made in either order. -/
theorem vecModify_swap {α : Type} {n : Nat} (v : Vector α n) (i j : Fin n) (f g : α → α) (commute : ∀ x, f (g x) = g (f x)) :
    vecModify (vecModify v i f) j g = vecModify (vecModify v j g) i f := by
  ext m hm
  simp only [vecModify_get]
  split <;> split <;> simp [commute]

/-- What a change of one entry keeps of every entry. -/
theorem vecModify_field {α β : Type} {n : Nat} (v : Vector α n) (i j : Fin n) {f : α → α} (g : α → β)
    (keeps : ∀ x, g (f x) = g x) :
    g ((vecModify v i f)[j]'j.isLt) = g (v[j]'j.isLt) := by
  by_cases e : i = j
  · subst e
    exact (congrArg g (vecModify_same _ _ _)).trans (keeps _)
  · exact congrArg g (vecModify_ne _ _ _ _ _ fun h => e (Fin.ext h))

/-- What an accepted level leaves of a channel. -/
theorem accept_keeps (v : Vector Channel 8) (ch base : Fin 8) (level : Bool) :
    ∃ pin accepted wait, (vecModify v ch (Channel.accept level))[base]'base.isLt =
      { v[base]'base.isLt with pin := pin, accepted := accepted, wait := wait } := by
  by_cases e : ch = base
  · subst e
    exact ⟨level, level, none, vecModify_same _ _ _⟩
  · exact ⟨_, _, _, vecModify_ne _ _ _ _ _ fun h => e (Fin.ext h)⟩

/-! ## A counted edge -/

/-- The record of a pair after an edge that is counted over a record (R64, R65, R67). -/
def Channel.counts (now : Nat) (input : Fin 8) (k : ChannelCfg) (dir : Direction) (p c : Channel) : Channel :=
  let position := if dir = .forward then p.position + 1 else p.position - 1
  let raised := p.turns k dir position
  { c with
    position := position, direction := dir, restarted := now, interval := p.counterAt now k.tb
    still := if p.stall = 0 then none else some (now + p.stall * 1000)
    events := if raised.isSome then min 4294967295 (p.events + 1) else p.events
    counted := some {
      moment := now, input := input, raised := raised, position := p.position, direction := p.direction
      interval := p.interval, restarted := p.restarted, events := p.events, still := p.still } }

/-- What a counted edge tells the owner of the pair: a turn (R64). -/
def Channel.turnTold (k : ChannelCfg) (dir : Direction) (p : Channel) : List Instr :=
  (p.turns k dir (if dir = .forward then p.position + 1 else p.position - 1)).toList

theorem countedEdge_eq (base input : Fin 8) (k : ChannelCfg) (dir : Direction) (d : Station) :
    d.countedEdge base input k dir = { d with
      piu := { d.piu with
        channels := vecModify d.piu.channels base (Channel.counts d.now input k dir (d.piu.channels[base]'base.isLt)) }
      signals := d.signals ++ (d.piu.channels[base]'base.isLt).turnTold k dir } := by
  let p := d.piu.channels[base]'base.isLt
  rw [vecModify_congr _ base (Channel.counts d.now input k dir p) (fun _ => Channel.counts d.now input k dir p p) rfl]
  unfold Station.countedEdge Channel.turnTold
  dsimp only
  rw [Station.onChannel_eq (x := Channel.counts d.now input k dir p p)]
  · split
    · next e raised =>
      rw [raised]
      rfl
    · next none =>
      rw [none, Option.toList_none, List.append_nil]
  · rfl

section
variable {ch : Fin 8} {k b : ChannelCfg} {level : Bool} {d : Station}

/-- Both inputs change at one tick: a phase error (R64). -/
theorem quadratureEdge_both : d.quadratureEdge ch k level true =
    (d.onChannel (pairMate ch) fun c => { c with accepted := !c.accepted, wait := none }).onChannel (pairBase ch) fun c =>
      { c with phaseErrors := min 65535 (c.phaseErrors + 1) } := by
  unfold Station.quadratureEdge
  exact if_pos rfl

theorem quadratureEdge_counts (cfg : d.cfg.channels[pairBase ch] = some b)
    (alone : ∀ u, d.piu.channels[pairBase ch].counted = some u → u.moment = d.now → u.input ≠ pairMate ch) :
    d.quadratureEdge ch k level false = d.countedEdge (pairBase ch) ch k
      (decodeDirection (ch == pairBase ch) level d.piu.channels[pairMate ch].accepted b.swapped) := by
  have none : (d.piu.channels[pairBase ch].counted.filter fun u => u.moment == d.now && u.input == pairMate ch) = none := by
    rw [Option.filter_eq_none_iff]
    intro u counted
    simpa using alone u counted
  unfold Station.quadratureEdge
  rw [if_neg (by simp)]
  dsimp only
  rw [none, cfg]

theorem quadratureEdge_takesBack {u : CountedEdge} (counted : d.piu.channels[pairBase ch].counted = some u)
    (now : u.moment = d.now) (other : u.input = pairMate ch) : d.quadratureEdge ch k level false =
      (d.takeBackEdge (pairBase ch) u).onChannel (pairBase ch) fun c =>
        { c with phaseErrors := min 65535 (c.phaseErrors + 1) } := by
  have found : (d.piu.channels[pairBase ch].counted.filter fun u => u.moment == d.now && u.input == pairMate ch) = some u := by
    rw [counted, Option.filter_some]
    exact if_pos (by simp [now, other])
  unfold Station.quadratureEdge
  rw [if_neg (by simp)]
  dsimp only
  rw [found]
  rfl

end

/-- A record after its last counted edge is taken back, and a phase error counted (R64). -/
def Channel.restored (u : CountedEdge) (c : Channel) : Channel :=
  { c with
    position := u.position, direction := u.direction, interval := u.interval, restarted := u.restarted
    events := u.events, still := u.still, counted := none, phaseErrors := min 65535 (c.phaseErrors + 1) }

/-- The signals after a raised one is withdrawn (R64). -/
def withdrawn (raised : Option Instr) (signals : List Instr) : List Instr :=
  match raised with
  | some x => (signals.reverse.erase x).reverse
  | none => signals

theorem takeBackEdge_error (base : Fin 8) (u : CountedEdge) (d : Station) :
    ((d.takeBackEdge base u).onChannel base fun c => { c with phaseErrors := min 65535 (c.phaseErrors + 1) }) = { d with
      piu := { d.piu with channels := vecModify d.piu.channels base (Channel.restored u) }
      signals := withdrawn u.raised d.signals } := by
  unfold Station.takeBackEdge withdrawn Station.onChannel Station.onPiu
  cases u.raised <;> dsimp only <;> rw [vecModify_twice] <;> rfl

/-- A turn that is withdrawn before it is taken leaves no trace (R64; log 35). -/
theorem withdrawn_told (raised : Option Instr) (signals : List Instr) (c : Instr) (apart : ∀ x, raised = some x → x ≠ c) :
    withdrawn raised ((signals ++ raised.toList).erase c) = signals.erase c := by
  cases raised with
  | none => simp [withdrawn]
  | some x =>
    have ne := apart x rfl
    have kept : (signals ++ [x]).erase c = signals.erase c ++ [x] := by
      rw [List.erase_append]
      split
      · rfl
      · next h => rw [List.erase_of_not_mem h, List.erase_of_not_mem (by simpa using ne.symm)]
    show (((signals ++ [x]).erase c).reverse.erase x).reverse = _
    rw [kept]
    simp

/-- The pair record is restored to what it was before the edge, but for the error counted. -/
theorem restored_counts (now : Nat) (input : Fin 8) (k : ChannelCfg) (dir : Direction) (p : Channel) (pin accepted : Bool)
    (wait : Option Wait) (u : CountedEdge) :
    let c : Channel := { p with pin := pin, accepted := accepted, wait := wait }
    (Channel.counts now input k dir p c).counted = some u →
    Channel.restored u (Channel.counts now input k dir p c) =
      { c with phaseErrors := min 65535 (c.phaseErrors + 1), counted := none } := by
  intro c h
  cases h
  rfl

/-! ## The clauses of O18 -/

/-- A counted edge of a record, written out by its direction (R64, R65). -/
theorem counts_written (now : Nat) (input : Fin 8) (k : ChannelCfg) (forward : Bool) (p : Channel) :
    let dir : Direction := if forward then .forward else .reverse
    let position := if forward then p.position + 1 else p.position - 1
    let turned := p.direction != .none && p.direction != dir
    let told : List Instr := if turned then [.fdcDirectionChange (Fin.ofNat 2 (k.inst - 1)) dir position] else []
    p.turnTold k dir = told ∧ Channel.counts now input k dir p = fun c => { c with
      position := position, direction := dir, restarted := now, interval := p.counterAt now k.tb
      still := if p.stall = 0 then none else some (now + p.stall * 1000)
      events := if turned then min 4294967295 (p.events + 1) else p.events
      counted := some {
        moment := now, input := input, raised := told.head?, position := p.position, direction := p.direction
        interval := p.interval, restarted := p.restarted, events := p.events, still := p.still } } := by
  intro dir position turned told
  have place : (if dir = .forward then p.position + 1 else p.position - 1) = position := by cases forward <;> rfl
  have raised : p.turns k dir position = told.head? := by
    unfold Channel.turns
    show (if turned = true then _ else _) = _
    cases h : turned <;> simp [told, h]
  have words : told.head?.toList = told := by cases h : turned <;> simp [told, h]
  have counted : told.head?.isSome = turned := by cases h : turned <;> simp [told, h]
  unfold Channel.turnTold Channel.counts
  dsimp only
  rw [place, raised, counted]
  exact ⟨words, rfl⟩

section
variable {ch : Fin 8} {level : Bool} {d : Station} {k b : ChannelCfg} (cfg : d.cfg.channels[ch]'ch.isLt = some k)
  (mode : k.mode = .quadrature) (on : (d.piu.channels[ch]'ch.isLt).phase ≠ .disabled) (new : (d.piu.channels[ch]'ch.isLt).accepted ≠ level)
include cfg mode on new

theorem acceptEdge_both (together : waitsTogether (d.piu.channels[ch]'ch.isLt) d.piu.channels[pairMate ch] = true) :
    d.acceptEdge ch level = { d with
      piu := { d.piu with
        channels := vecModify
          (vecModify (vecModify d.piu.channels ch (Channel.accept level)) (pairMate ch) fun c =>
            { c with accepted := !c.accepted, wait := none })
          (pairBase ch) fun c => { c with phaseErrors := min 65535 (c.phaseErrors + 1) } } } := by
  rw [acceptEdge_quadrature cfg on new mode, together, quadratureEdge_both]
  rfl

variable (alone : waitsTogether (d.piu.channels[ch]'ch.isLt) d.piu.channels[pairMate ch] = false)
include alone

theorem acceptEdge_counts (lower : d.cfg.channels[pairBase ch] = some b)
    (fresh : ∀ u, d.piu.channels[pairBase ch].counted = some u → u.moment = d.now → u.input ≠ pairMate ch) :
    let dir := decodeDirection (ch == pairBase ch) level d.piu.channels[pairMate ch].accepted b.swapped
    let p := d.piu.channels[pairBase ch]
    d.acceptEdge ch level = { d with
      piu := { d.piu with
        channels := vecModify (vecModify d.piu.channels ch (Channel.accept level)) (pairBase ch)
          (Channel.counts d.now ch k dir p) }
      signals := d.signals ++ p.turnTold k dir } := by
  intro dir p
  obtain ⟨pin, accepted, wait, here⟩ := accept_keeps d.piu.channels ch (pairBase ch) level
  have record : (d.onChannel ch (Channel.accept level)).piu.channels[pairBase ch] =
    { p with pin := pin, accepted := accepted, wait := wait } := here
  have other : (d.onChannel ch (Channel.accept level)).piu.channels[pairMate ch] = d.piu.channels[pairMate ch] :=
    vecModify_ne _ _ _ _ _ fun h => pairMate_ne ch (Fin.ext h.symm)
  rw [acceptEdge_quadrature cfg on new mode, alone,
    quadratureEdge_counts (d := d.onChannel ch (Channel.accept level)) lower (by rw [record]; exact fresh), countedEdge_eq, record,
    other]
  rfl

theorem acceptEdge_takesBack {u : CountedEdge} (counted : d.piu.channels[pairBase ch].counted = some u) (now : u.moment = d.now)
    (other : u.input = pairMate ch) : d.acceptEdge ch level = { d with
      piu := { d.piu with
        channels := vecModify (vecModify d.piu.channels ch (Channel.accept level)) (pairBase ch)
          (Channel.restored u) }
      signals := withdrawn u.raised d.signals } := by
  obtain ⟨pin, accepted, wait, here⟩ := accept_keeps d.piu.channels ch (pairBase ch) level
  rw [acceptEdge_quadrature cfg on new mode, alone, quadratureEdge_takesBack
    (d := d.onChannel ch (Channel.accept level)) ((congrArg Channel.counted here).trans counted) now other, takeBackEdge_error]
  rfl

end

/-- The pair after an edge of one input is counted over its record. -/
def Station.edgeCounted (ch : Fin 8) (level : Bool) (k : ChannelCfg) (dir : Direction) (d : Station) : Station :=
  { d with
    piu := { d.piu with
      channels := vecModify (vecModify d.piu.channels ch (Channel.accept level)) (pairBase ch)
        (Channel.counts d.now ch k dir d.piu.channels[pairBase ch]) }
    signals := d.signals ++ d.piu.channels[pairBase ch].turnTold k dir }

section
variable {ch mate base : Fin 8} {level level' : Bool} {d : Station} {k m : ChannelCfg} {dir : Direction}

theorem acceptEdge_takesBack_at (isBase : pairBase mate = base) (isMate : pairMate mate = ch)
    (cfg : d.cfg.channels[mate]'mate.isLt = some m) (mode : m.mode = .quadrature) (on : (d.piu.channels[mate]'mate.isLt).phase ≠ .disabled)
    (new : (d.piu.channels[mate]'mate.isLt).accepted ≠ level') (alone : (d.piu.channels[ch]'ch.isLt).wait = none) {u : CountedEdge}
    (counted : (d.piu.channels[base]'base.isLt).counted = some u) (now : u.moment = d.now) (other : u.input = ch) :
    d.acceptEdge mate level' = { d with
      piu := { d.piu with
        channels := vecModify (vecModify d.piu.channels mate (Channel.accept level')) base (Channel.restored u) }
      signals := withdrawn u.raised d.signals } := by
  subst isBase isMate
  refine acceptEdge_takesBack cfg mode on new ?_ counted now other
  unfold waitsTogether
  rw [alone]
  cases (d.piu.channels[mate]'mate.isLt).wait <;> rfl

/-- A counted edge that is taken back over the record it was counted in, for the levels of both inputs. -/
theorem restored_edge {v : Vector Channel 8} {now : Nat} {u : CountedEdge}
    (counted : (Channel.counts now ch k dir (v[base]'base.isLt) (v[base]'base.isLt)).counted = some u) :
    vecModify (vecModify (vecModify (vecModify v ch (Channel.accept level)) base (Channel.counts now ch k dir (v[base]'base.isLt))) mate
        (Channel.accept level')) base (Channel.restored u) =
      vecModify (vecModify (vecModify v ch (Channel.accept level)) mate (Channel.accept level')) base fun c =>
        { c with phaseErrors := min 65535 (c.phaseErrors + 1), counted := none } := by
  obtain ⟨pin, accepted, wait, one⟩ := accept_keeps v ch base level
  obtain ⟨pin', accepted', wait', both⟩ := accept_keeps (vecModify v ch (Channel.accept level)) mate base level'
  rw [vecModify_swap _ base mate (Channel.counts now ch k dir (v[base]'base.isLt)) (Channel.accept level') fun c => rfl, vecModify_twice]
  refine vecModify_congr _ _ _ _ ?_
  rw [both, one]
  exact restored_counts now ch k dir (v[base]'base.isLt) pin' accepted' wait' u counted

theorem turn_ne {p : Channel} {position : Half} {x : Instr} (h : p.turns k dir position = some x) (i : Fin 8) (level : Bool) :
    x ≠ .acceptedEdge i level := by
  unfold Channel.turns at h
  split at h
  · cases h
    nofun
  · cases h

/-- The other input's edge of the same tick takes the counted edge back: a phase error, and nothing else (R64; log 35). -/
theorem edgeCounted_takenBack (cfg : d.cfg.channels[pairMate ch] = some m) (mode : m.mode = .quadrature)
    (on : d.piu.channels[pairMate ch].phase ≠ .disabled) (new : d.piu.channels[pairMate ch].accepted ≠ level') :
    let cmd : Instr := .acceptedEdge (pairMate ch) level'
    ((d.edgeCounted ch level k dir).take cmd).acceptEdge (pairMate ch) level' = { d.take cmd with
      piu := { d.piu with
        channels := vecModify
          (vecModify (vecModify d.piu.channels ch (Channel.accept level)) (pairMate ch) (Channel.accept level'))
          (pairBase ch) fun c => { c with phaseErrors := min 65535 (c.phaseErrors + 1), counted := none } } } := by
  intro cmd
  let p := d.piu.channels[pairBase ch]
  let v := vecModify d.piu.channels ch (Channel.accept level)
  have record : (vecModify v (pairBase ch) (Channel.counts d.now ch k dir p))[pairBase ch] = _ := vecModify_same _ _ _
  have mate : v[pairMate ch] = d.piu.channels[pairMate ch] := vecModify_ne _ _ _ _ _ fun h => pairMate_ne ch (Fin.ext h.symm)
  have phase := (vecModify_field v (pairBase ch) (pairMate ch) (f := Channel.counts d.now ch k dir p) Channel.phase fun c => rfl).trans
    (congrArg Channel.phase mate)
  have accepted := (vecModify_field v (pairBase ch) (pairMate ch) (f := Channel.counts d.now ch k dir p) Channel.accepted
    fun c => rfl).trans (congrArg Channel.accepted mate)
  have wait := (vecModify_field v (pairBase ch) ch (f := Channel.counts d.now ch k dir p) Channel.wait fun c => rfl).trans
    (congrArg Channel.wait (vecModify_same _ ch (Channel.accept level)))
  have back := acceptEdge_takesBack_at (d := (d.edgeCounted ch level k dir).take cmd) (pairBase_pairMate ch) (pairMate_pairMate ch) cfg
    mode (phase.trans_ne on) (accepted.trans_ne new) wait (congrArg Channel.counted record) rfl rfl
  have told := withdrawn_told (p.turns k dir (if dir = .forward then p.position + 1 else p.position - 1)) d.signals cmd
    fun x turns => turn_ne turns _ _
  have channels := restored_edge (ch := ch) (mate := pairMate ch) (base := pairBase ch) (level := level) (level' := level') (k := k)
    (dir := dir) (v := d.piu.channels) (now := d.now) rfl
  exact back.trans (congrArg₂ (fun c l => { d.take cmd with piu := { d.piu with channels := c }, signals := l }) channels told)

end

end Sys2Proof.Machine

open Sys2Proof Sys2Proof.Machine in
/-- Settles O18: an accepted edge of an encoder input is a phase error, a counted edge, or one that takes the other's back. -/
theorem quadratureEdgesMoveThePosition : Obligations.QuadratureEdgesMoveThePosition := by
  intro ch level s k b cfg mode base mate lower on new cmd edge other forward dir pair position turned micros together both
  have decoded : decodeDirection (ch == pairBase ch) level other b.swapped = dir := by
    unfold decodeDirection
    rw [lower_iff]
    by_cases h : ch.val % 2 = 0
    · simp only [dir, forward, h, decide_true, if_true]
    · simp only [dir, forward, h, decide_false, if_false]
      rfl
  obtain ⟨words, writes⟩ := counts_written s.dev.now ch k forward pair
  have waits : waitsTogether ((s.dev.take cmd).piu.channels[ch]'ch.isLt) (s.dev.take cmd).piu.channels[pairMate ch] = true ↔ together :=
    waitsTogether_iff
  refine ⟨fun yes => ?_, fun no fresh => ?_, fun no u counted now input => ?_⟩
  · exact exec_eq (exec_acceptedEdge ch level) (acceptEdge_both (d := s.dev.take cmd) cfg mode on new (waits.2 yes))
  · have alone := Bool.eq_false_of_not_eq_true fun h => no (waits.1 h)
    intro told t
    have counted := acceptEdge_counts (d := s.dev.take cmd) cfg mode on new alone lower fresh
    have first : (s.dev.take cmd).edgeCounted ch level k dir = t.dev := by
      unfold Station.edgeCounted
      rw [show (s.dev.take cmd).piu.channels[pairBase ch].turnTold k dir = told from words,
        show Channel.counts (s.dev.take cmd).now ch k dir (s.dev.take cmd).piu.channels[pairBase ch] = _ from writes]
      rfl
    refine ⟨exec_eq (exec_acceptedEdge ch level) (counted.trans
      ((congrArg (fun dir => (s.dev.take cmd).edgeCounted ch level k dir) decoded).trans first)),
      fun level' m cfg' mode' on' new' => ?_⟩
    · intro cmd' edge' levels
      refine exec_eq (exec_acceptedEdge mate level') ?_
      rw [← first]
      exact edgeCounted_takenBack (d := s.dev.take cmd) cfg' mode' on' new'
  · have alone := Bool.eq_false_of_not_eq_true fun h => no (waits.1 h)
    refine exec_eq (exec_acceptedEdge ch level)
      ((acceptEdge_takesBack (d := s.dev.take cmd) cfg mode on new alone counted now input).trans ?_)
    unfold withdrawn
    cases u.raised <;> rfl
end

section
/-! SUPPORT. ACK ALARM, SHELVE and UNSHELVE, by what they are given. -/

set_option Elab.async false

namespace Sys2Proof.Machine

/-! ## Fields -/

theorem stationIdx_outside {b : Byte} (h : b.toNat < 1 ∨ 16 < b.toNat) : stationIdx b = none :=
  dif_neg fun k => by omega

section
variable {d : Station} {b : Byte} {i : Fin 32} (h : b.toNat = i.val)
include h

theorem ownPoint_configured (cfg : (d.alm.points[i]'i.isLt).cfg ≠ none) : d.ownPoint b = some i := by
  unfold Station.ownPoint
  rw [dif_pos (by omega)]
  simp only [h]
  exact if_pos (Option.isSome_iff_ne_none.2 cfg)

theorem ownPoint_bare (cfg : (d.alm.points[i]'i.isLt).cfg = none) : d.ownPoint b = none := by
  unfold Station.ownPoint
  rw [dif_pos (by omega)]
  simp only [h]
  exact if_neg (by simpa using cfg)

end

/-- No configured own point has the index byte. -/
theorem ownPoint_none {d : Station} {b : Byte} (h : ∀ i : Fin 32, b.toNat = i.val → (d.alm.points[i]'i.isLt).cfg = none) :
    d.ownPoint b = none := by
  by_cases inside : b.toNat < 32
  · exact ownPoint_bare (i := ⟨b.toNat, inside⟩) rfl (h _ rfl)
  · exact dif_neg inside

/-! ## Acknowledgements -/

/-- What ACK ALARM does (R162, R163). -/
def Station.ackAlarm (station point occurrence : Byte) (d : Station) : Station :=
  if !d.ppt.started then d.wrongState
  else match stationIdx station with
    | none => d.badField
    | some i =>
      if point.toNat > 31 then d.badField
      else if i = d.own then d.ownAck point occurrence
      else d.remoteAck i point occurrence

theorem exec_ackAlarm (station point occurrence : Byte) (s : State) :
    exec (.ackAlarm station point occurrence) s =
      act (.ackAlarm station point occurrence) (Station.ackAlarm station point occurrence) s := rfl

section
variable {d : Station} {station point occurrence : Byte} (up : d.ppt.started = true)
include up

theorem ackAlarm_outside (h : station.toNat < 1 ∨ 16 < station.toNat ∨ 31 < point.toNat) :
    d.ackAlarm station point occurrence = d.badField := by
  unfold Station.ackAlarm
  rw [if_neg (by simp [up])]
  split
  · rfl
  · next i station_is =>
    refine if_pos ?_
    by_contra small
    rw [stationIdx_outside (by omega)] at station_is
    cases station_is

theorem ackAlarm_own (h : station = stationByte d.own) {i : Fin 32} (at_point : point.toNat = i.val) :
    d.ackAlarm station point occurrence = d.ownAck point occurrence := by
  unfold Station.ackAlarm
  rw [if_neg (by simp [up]), h, stationIdx_stationByte]
  dsimp only
  rw [if_neg (by omega), if_pos rfl]

theorem ackAlarm_remote {owner : Fin 16} (other : owner ≠ d.own) (h : station = stationByte owner) (small : point.toNat ≤ 31) :
    d.ackAlarm station point occurrence = d.remoteAck owner point occurrence := by
  unfold Station.ackAlarm
  rw [if_neg (by simp [up]), h, stationIdx_stationByte]
  dsimp only
  rw [if_neg (by omega), if_neg other]

end

section
variable {d : Station} {point occurrence : Byte} {i : Fin 32} (h : point.toNat = i.val)
include h

theorem ownAck_bare (cfg : (d.alm.points[i]'i.isLt).cfg = none) : d.ownAck point occurrence = d.badField := by
  unfold Station.ownAck
  rw [ownPoint_bare h cfg]

theorem ownAck_late (cfg : (d.alm.points[i]'i.isLt).cfg ≠ none) (other : (d.alm.points[i]'i.isLt).occurrence ≠ occurrence) :
    d.ownAck point occurrence = d.answer .tooLate 0 [] := by
  unfold Station.ownAck
  rw [ownPoint_configured h cfg]
  exact if_pos other

theorem ownAck_current (cfg : (d.alm.points[i]'i.isLt).cfg ≠ none) (current : (d.alm.points[i]'i.isLt).occurrence = occurrence) :
    d.ownAck point occurrence = (d.ackPoint i).ok := by
  unfold Station.ownAck
  rw [ownPoint_configured h cfg]
  exact if_neg (not_not_intro current)

theorem applyAck_late (cfg : (d.alm.points[i]'i.isLt).cfg ≠ none) (other : (d.alm.points[i]'i.isLt).occurrence ≠ occurrence) :
    d.applyAck point occurrence = d.contribute .ackTooLate := by
  unfold Station.applyAck
  rw [ownPoint_configured h cfg]
  exact if_neg other

theorem applyAck_current (cfg : (d.alm.points[i]'i.isLt).cfg ≠ none) (current : (d.alm.points[i]'i.isLt).occurrence = occurrence) :
    d.applyAck point occurrence = d.ackPoint i := by
  unfold Station.applyAck
  rw [ownPoint_configured h cfg]
  exact if_pos current

end

theorem applyAck_none {d : Station} {point occurrence : Byte}
    (h : ∀ i : Fin 32, point.toNat = i.val → (d.alm.points[i]'i.isLt).cfg = none) : d.applyAck point occurrence = d := by
  unfold Station.applyAck
  rw [ownPoint_none h]

/-- A notice that has no waiting entry of its own finds only a free place (R43). -/
theorem accepts_ackRequest (d : Station) (target point occurrence : Byte) :
    d.lpc.accepts (.ackRequest target point occurrence) = true ↔ d.lpc.queue.length < 16 := by
  rw [(alarmsRead d).accepts]
  unfold QueueAccepts
  simp [sameAlarm]

/-- An ACK REQUEST goes to the end of the queue (R43). -/
theorem submitted_ackRequest (d : Station) (target point occurrence : Byte) :
    d.lpc.submitted (.ackRequest target point occurrence) = { d.lpc with queue := d.lpc.queue ++
      [{ body := .ackRequest target point occurrence, placed := false, seq := 0, mask := 0, rotations := 0 }] } := by
  obtain ⟨⟨-, ends⟩, rest⟩ := (alarmsRead d).submitted (.ackRequest target point occurrence)
  rw [rest, ends fun e _ => rfl]

section
variable {d : Station} {owner : Fin 16} {point occurrence : Byte}

theorem remoteAck_unknown (none : ∀ e ∈ d.alm.mirror, ¬ (e.owner = owner ∧ e.body.point = point)) :
    d.remoteAck owner point occurrence = d.refuse .noEntry := by
  have missing : (d.alm.mirror.find? fun e => e.isFor owner point) = Option.none :=
    List.find?_eq_none.2 fun e mem => by simpa [MirrorEntry.isFor] using none e mem
  unfold Station.remoteAck
  rw [missing]

variable {e : MirrorEntry} (found : (d.alm.mirror.find? fun e => e.owner == owner && e.body.point == point) = some e)
include found

theorem remoteAck_found : d.remoteAck owner point occurrence =
    if e.silent then d.refuse .ownerSilent
    else if e.body.occurrence ≠ occurrence then d.answer .tooLate 0 []
    else if e.body.state = .raisedAcked then d.ok
    else if d.lpc.queue.length < 16 then
      Station.answer .ok 0 [] { d with lpc := { d.lpc with queue := d.lpc.queue ++
        [{ body := .ackRequest (stationByte owner) point occurrence, placed := false, seq := 0, mask := 0, rotations := 0 }] } }
    else d.answer .queueFull 0 [] := by
  have same : (d.alm.mirror.find? fun e => e.isFor owner point) = some e := found
  unfold Station.remoteAck
  rw [same]
  dsimp only
  unfold Station.submit
  by_cases room : d.lpc.queue.length < 16
  · rw [if_pos ((accepts_ackRequest d _ _ _).2 room), if_pos room, ← submitted_ackRequest]
    rfl
  · rw [if_neg fun h => room ((accepts_ackRequest d _ _ _).1 h), if_neg room]

end

/-! ## The clauses of O47 that no train brings -/

theorem ackAlarm_answers (station point occurrence : Byte) (s : State) (up : s.dev.ppt.started = true) :
    let cmd : Instr := .ackAlarm station point occurrence
    let d := s.dev.take cmd
    let after := fun (x : Station) => exec cmd s = .next { s with dev := x }
    (station.toNat < 1 ∨ 16 < station.toNat ∨ 31 < point.toNat → after (d.answer .badField 0 [])) ∧
    (∀ i : Fin 32, station = stationByte s.dev.own → point.toNat = i.val →
      let p := s.dev.alm.points[i]'i.isLt
      (p.cfg = none → after (d.answer .badField 0 [])) ∧
      (p.cfg ≠ none → p.occurrence ≠ occurrence → after (d.answer .tooLate 0 [])) ∧
      (p.cfg ≠ none → p.occurrence = occurrence → p.state = .raisedUnacked → p.gone = false →
        Runs cmd s (Accepted fun x => PointSettled i { p with state := .raisedAcked } s.dev.alm.active d x)) ∧
      (p.cfg ≠ none → p.occurrence = occurrence →
        (p.state = .raisedUnacked ∧ p.gone = true) ∨ p.state = .returnedUnacked →
        Runs cmd s (Accepted fun x => PointSettled i { p with state := .normal, gone := false, firstOut := false }
          (s.dev.alm.active.filter fun j => j ≠ i) d x)) ∧
      (p.cfg ≠ none → p.occurrence = occurrence → p.state = .normal ∨ p.state = .raisedAcked →
        after (d.answer .ok 0 []))) ∧
    (∀ owner : Fin 16, owner ≠ s.dev.own → station = stationByte owner → point.toNat ≤ 31 →
      ((∀ e ∈ s.dev.alm.mirror, ¬ (e.owner = owner ∧ e.body.point = point)) → after (d.answer .refused 15 [])) ∧
      (∀ e, (s.dev.alm.mirror.find? fun e => e.owner == owner && e.body.point == point) = some e →
        (e.silent = true → after (d.answer .refused 16 [])) ∧
        (e.silent = false → e.body.occurrence ≠ occurrence → after (d.answer .tooLate 0 [])) ∧
        (e.silent = false → e.body.occurrence = occurrence → e.body.state = .raisedAcked → after (d.answer .ok 0 [])) ∧
        (e.silent = false → e.body.occurrence = occurrence → e.body.state ≠ .raisedAcked → s.dev.lpc.queue.length < 16 →
          after (Station.answer .ok 0 [] { d with lpc := { s.dev.lpc with queue := s.dev.lpc.queue ++
            [{ body := .ackRequest station point occurrence, placed := false, seq := 0, mask := 0, rotations := 0 }] } })) ∧
        (e.silent = false → e.body.occurrence = occurrence → e.body.state ≠ .raisedAcked → 16 ≤ s.dev.lpc.queue.length →
          after (d.answer .queueFull 0 [])))) := by
  intro cmd d after
  have answers {x : Station} (h : d.ackAlarm station point occurrence = x) : after x :=
    exec_eq (exec_ackAlarm station point occurrence) h
  have started : d.ppt.started = true := up
  refine ⟨fun outside => answers (ackAlarm_outside started outside), fun i mine place => ?_, fun owner other theirs small => ?_⟩
  · intro p
    have own : d.ackAlarm station point occurrence = d.ownAck point occurrence := ackAlarm_own started mine place
    obtain ⟨acks, settles, stays⟩ := ackPoint_spec i d
    have runs {P : Station → Prop} (cfg : p.cfg ≠ none) (current : p.occurrence = occurrence) (h : P (d.ackPoint i)) :
        Runs cmd s (Accepted P) :=
      Runs.of_act (exec_ackAlarm station point occurrence) ⟨_, h, own.trans (ownAck_current place cfg current)⟩
    exact ⟨fun bare => answers (own.trans (ownAck_bare place bare)),
      fun cfg other => answers (own.trans (ownAck_late place cfg other)),
      fun cfg current raised stands => runs cfg current (acks raised stands),
      fun cfg current gone => runs cfg current (settles gone),
      fun cfg current quiet => answers ((own.trans (ownAck_current (d := d) place cfg current)).trans
        (congrArg Station.ok (stays quiet)))⟩
  · have remote : d.ackAlarm station point occurrence = d.remoteAck owner point occurrence :=
      ackAlarm_remote started other theirs small
    refine ⟨fun unknown => answers (remote.trans (remoteAck_unknown unknown)), fun e found => ?_⟩
    have known := remote.trans (remoteAck_found (d := d) found)
    refine ⟨fun silent => answers (known.trans (if_pos silent)), fun heard late => answers (known.trans ?_),
      fun heard current acked => answers (known.trans ?_), fun heard current open_ room => answers (known.trans ?_),
      fun heard current open_ full => answers (known.trans ?_)⟩
    · rw [if_neg (ne_true_of_eq_false heard), if_pos late]
    · rw [if_neg (ne_true_of_eq_false heard), if_neg (not_not_intro current), if_pos acked]
      rfl
    · rw [if_neg (ne_true_of_eq_false heard), if_neg (not_not_intro current), if_neg open_, theirs]
      exact if_pos room
    · rw [if_neg (ne_true_of_eq_false heard), if_neg (not_not_intro current), if_neg open_]
      exact if_neg (Nat.not_lt.2 full)

theorem applyAck_applies (point occurrence : Byte) (d : Station) :
    let x := d.applyAck point occurrence
    ((∀ i : Fin 32, point.toNat = i.val → (d.alm.points[i]'i.isLt).cfg = none) → x = d) ∧
    (∀ i : Fin 32, point.toNat = i.val → (d.alm.points[i]'i.isLt).cfg ≠ none →
      let p := d.alm.points[i]'i.isLt
      (p.occurrence ≠ occurrence → x = { d with signals := d.signals ++ [.sruContribution .ackTooLate] }) ∧
      (p.occurrence = occurrence → p.state = .raisedUnacked → p.gone = false →
        PointSettled i { p with state := .raisedAcked } d.alm.active d x) ∧
      (p.occurrence = occurrence → (p.state = .raisedUnacked ∧ p.gone = true) ∨ p.state = .returnedUnacked →
        PointSettled i { p with state := .normal, gone := false, firstOut := false }
          (d.alm.active.filter fun j => j ≠ i) d x) ∧
      (p.occurrence = occurrence → p.state = .normal ∨ p.state = .raisedAcked → x = d)) := by
  intro x
  refine ⟨applyAck_none, fun i place cfg => ?_⟩
  intro p
  obtain ⟨acks, settles, stays⟩ := ackPoint_spec i d
  have current (h : p.occurrence = occurrence) : x = d.ackPoint i := applyAck_current place cfg h
  exact ⟨applyAck_late place cfg, fun now raised stands => (current now) ▸ acks raised stands,
    fun now gone => (current now) ▸ settles gone, fun now quiet => (current now).trans (stays quiet)⟩

end Sys2Proof.Machine
end

section
/-! SUPPORT. Shelving (R165). -/

set_option Elab.async false

namespace Sys2Proof.Machine

/-- What SHELVE does (R165). -/
def Station.shelve (point : Byte) (minutes : Half) (d : Station) : Station :=
  if !d.ppt.started then d.wrongState
  else match d.ownPoint point with
    | none => d.badField
    | some i =>
      if minutes.toNat < 1 || minutes.toNat > 480 then d.badField
      else if d.isTripPoint i then d.refuse .tripClass
      else
        ((d.onPoint i fun p =>
          { p with shelf := some (d.inSec (60 * minutes.toNat)), pending := false }).writeSummary).ok

/-- What UNSHELVE does (R165). -/
def Station.unshelve (point : Byte) (d : Station) : Station :=
  if !d.ppt.started then d.wrongState
  else match d.ownPoint point with
    | none => d.badField
    | some i => (d.unshelvePoint i).ok

theorem exec_shelve (point : Byte) (minutes : Half) (s : State) :
    exec (.shelve point minutes) s = act (.shelve point minutes) (Station.shelve point minutes) s := rfl

theorem exec_unshelve (point : Byte) (s : State) : exec (.unshelve point) s = act (.unshelve point) (Station.unshelve point) s := rfl

theorem exec_shelfExpiry (i : Fin 32) (s : State) : exec (.shelfExpiry i) s = act (.shelfExpiry i) (Station.unshelvePoint i) s := rfl

/-- A point changed and the summary written with it (R165, R169). -/
def Station.pointSummed (i : Fin 32) (f : Point → Point) (d : Station) : Station :=
  let alm := { d.alm with points := vecModify d.alm.points i f }
  { d with alm := alm, lpc := { d.lpc with staging := { d.lpc.staging with summary := some alm.summary } } }

section
variable {d : Station} {point : Byte} (up : d.ppt.started = true)
include up

theorem shelve_bare (none : d.ownPoint point = none) (minutes : Half) : d.shelve point minutes = d.badField := by
  unfold Station.shelve
  rw [if_neg (by simp [up]), none]

theorem unshelve_bare (none : d.ownPoint point = none) : d.unshelve point = d.badField := by
  unfold Station.unshelve
  rw [if_neg (by simp [up]), none]

theorem unshelve_own {i : Fin 32} (own : d.ownPoint point = some i) : d.unshelve point = (d.unshelvePoint i).ok := by
  unfold Station.unshelve
  rw [if_neg (by simp [up]), own]

theorem shelve_own {i : Fin 32} {c : PointCfg} {minutes : Half} (own : d.ownPoint point = some i)
    (cfg : (d.alm.points[i]'i.isLt).cfg = some c) : d.shelve point minutes =
    if minutes.toNat < 1 ∨ 480 < minutes.toNat then d.badField
    else if c.cls = .trip then d.refuse .tripClass
    else (d.pointSummed i fun p =>
      { p with shelf := some (d.now + 60 * minutes.toNat * 1000000), pending := false }).ok := by
  have trip : d.isTripPoint i = decide (c.cls = .trip) := by
    unfold Station.isTripPoint
    rw [cfg]
    exact Bool.beq_eq_decide_eq ..
  unfold Station.shelve
  rw [if_neg (by simp [up]), own]
  dsimp only
  rw [trip]
  simp only [Bool.or_eq_true, decide_eq_true_eq, gt_iff_lt]
  rfl

end

theorem unshelvePoint_open {i : Fin 32} {d : Station} (h : (d.alm.points[i]'i.isLt).shelf = none) : d.unshelvePoint i = d := by
  unfold Station.unshelvePoint
  rw [h]
  rfl

theorem unshelvePoint_quiet {i : Fin 32} {d : Station} (h : (d.alm.points[i]'i.isLt).shelf ≠ none)
    (normal : (d.alm.points[i]'i.isLt).state = .normal) (known : (d.alm.points[i]'i.isLt).announced = .known .normal) :
    d.unshelvePoint i = d.pointSummed i fun p => { p with shelf := none } := by
  let x := d.pointSummed i fun p => { p with shelf := none }
  have point : x.alm.points[i]'i.isLt = { d.alm.points[i]'i.isLt with shelf := none } := vecModify_same _ _ _
  unfold Station.unshelvePoint
  rw [if_neg (by simpa using h)]
  show (if ((x.alm.points[i]'i.isLt).state ≠ .normal || (x.alm.points[i]'i.isLt).announced ≠ .known .normal) = true then _ else x) = x
  rw [point]
  exact if_neg (by simpa using ⟨normal, known⟩)

/-- A point that its shelf gives back (R165). -/
def ShelfGivesBack (i : Fin 32) (c : PointCfg) (a b : Station) : Prop :=
  let p := a.alm.points[i]'i.isLt
  let base := a.pointSummed i fun p => { p with shelf := none }
  (p.shelf = none → b = a) ∧
  (p.shelf ≠ none → p.state = .normal → p.announced = .known .normal → b = base) ∧
  (p.shelf ≠ none → p.state ≠ .normal ∨ p.announced ≠ .known .normal →
    PointAnnounced i c { p with shelf := none } a b ∧
    b = { base with
      alm := { base.alm with points := vecModify base.alm.points i fun q =>
        { q with pending := (b.alm.points[i]'i.isLt).pending, announced := (b.alm.points[i]'i.isLt).announced } }
      lpc := { base.lpc with queue := b.lpc.queue } })

theorem unshelvePoint_givesBack {i : Fin 32} {c : PointCfg} {d : Station} (cfg : (d.alm.points[i]'i.isLt).cfg = some c) :
    ShelfGivesBack i c d (d.unshelvePoint i) :=
  ⟨unshelvePoint_open, unshelvePoint_quiet, unshelvePoint_spec i c d cfg⟩

end Sys2Proof.Machine

open Sys2Proof Sys2Proof.Machine in
/-- Settles O48: the fields are judged first; a shelf, and its end, change one point and the summary. -/
theorem shelvingTakesAPointOutAndBack : Obligations.ShelvingTakesAPointOutAndBack := by
  refine ⟨alarmsRead, fun b minutes s up bare cmd mem => ?_, fun i b s c cfg place => ?_⟩
  · simp only [List.mem_cons, List.not_mem_nil, or_false] at mem
    rcases mem with rfl | rfl
    · exact exec_eq (exec_shelve b minutes) (shelve_bare (d := s.dev.take _) up (ownPoint_none bare) minutes)
    · exact exec_eq (exec_unshelve b) (unshelve_bare (d := s.dev.take _) up (ownPoint_none bare))
  · intro p changed back
    have own (cmd : Instr) : (s.dev.take cmd).ownPoint b = some i :=
      ownPoint_configured place (show (s.dev.alm.points[i]'i.isLt).cfg ≠ none by rw [cfg]; nofun)
    refine ⟨Runs.of_act (exec_shelfExpiry i) (unshelvePoint_givesBack (d := s.dev.take _) cfg), fun up => ?_, fun up minutes => ?_⟩
    · exact Runs.of_act (exec_unshelve b) ⟨_, unshelvePoint_givesBack (d := s.dev.take _) cfg,
        unshelve_own (d := s.dev.take _) up (own _)⟩
    · intro cmd
      have run := shelve_own (d := s.dev.take cmd) (minutes := minutes) up (own cmd) cfg
      refine ⟨fun outside => ?_, fun low high trip => ?_, fun low high free => ?_⟩
      · exact exec_eq (exec_shelve b minutes) (run.trans (if_pos outside))
      · exact exec_eq (exec_shelve b minutes) (run.trans ((if_neg (by omega)).trans (if_pos trip)))
      · exact exec_eq (exec_shelve b minutes) (run.trans ((if_neg (by omega)).trans (if_neg free)))
end

section
/-! SUPPORT. The floor mirror: epochs, the peers' alarm states, silent owners, and the recent raises (R161, R166 to R168). -/

set_option Elab.async false

namespace Sys2Proof.Machine

/-! ## The mirror and the epochs -/

theorem setMirror_eq (m : List MirrorEntry) (d : Station) : d.setMirror m = { d with
    alm := { d.alm with mirror := m }
    ppt := { d.ppt with events := if m = d.alm.mirror then d.ppt.events else d.ppt.events ||| 1 } } := by
  unfold Station.setMirror
  by_cases same : m = d.alm.mirror
  · rw [if_pos same, if_pos same, same]
  · rw [if_neg same, if_neg same]
    rfl

/-- What the mirror's operations may move: a mirror that changes is posted (R167, R168). -/
structure MirrorMoves (a b : Station) : Prop where
  rest : b = { a with
    alm := { a.alm with mirror := b.alm.mirror, overflow := b.alm.overflow, epochs := b.alm.epochs }
    ppt := { a.ppt with events := b.ppt.events } }
  posted : b.alm.mirror ≠ a.alm.mirror → b.ppt.events &&& 1 = 1
  kept : a.ppt.events &&& 1 = 1 → b.ppt.events &&& 1 = 1

namespace MirrorMoves
variable {a b c : Station}

theorem refl (a : Station) : MirrorMoves a a := ⟨rfl, fun h => absurd rfl h, id⟩

theorem trans (h : MirrorMoves a b) (k : MirrorMoves b c) : MirrorMoves a c where
  rest := by rw [k.rest, h.rest]
  posted moved := by
    by_cases same : c.alm.mirror = b.alm.mirror
    · exact k.kept (h.posted (same ▸ moved))
    · exact k.posted same
  kept e := k.kept (h.kept e)

theorem setMirror (h : MirrorMoves a b) (m : List MirrorEntry) : MirrorMoves a (b.setMirror m) := by
  refine h.trans ?_
  rw [setMirror_eq]
  refine ⟨rfl, fun (moved : m ≠ b.alm.mirror) => ?_, fun e => ?_⟩
  · show (if _ then _ else _) &&& 1 = (1 : Byte)
    rw [if_neg moved]
    exact or_and_right_self b.ppt.events 1
  · show (if _ then _ else _) &&& 1 = (1 : Byte)
    split
    · exact e
    · exact or_and_right_self b.ppt.events 1

theorem epoch (h : MirrorMoves a b) (v : Vector (Option Byte) 16) :
    MirrorMoves a (b.onAlm fun x => { x with epochs := v }) :=
  h.trans ⟨rfl, fun h => absurd rfl h, id⟩

theorem overflow (h : MirrorMoves a b) (n : Nat) : MirrorMoves a (b.onAlm fun x => { x with overflow := n }) :=
  h.trans ⟨rfl, fun h => absurd rfl h, id⟩

end MirrorMoves

/-- A recorded epoch that is not the one of the image in view (R168). -/
def epochStale (d : Station) (j : Fin 16) : Bool :=
  match (d.lpc.floor[j]'j.isLt).image, d.alm.epochs[j]'j.isLt with
  | some g, some x => x != g.epoch
  | _, _ => false

/-- The mirror after the epoch check of a station (R168). -/
def mirrorChecked (d : Station) (j : Fin 16) : List MirrorEntry :=
  bif epochStale d j then d.alm.mirror.filter fun e => e.owner ≠ j else d.alm.mirror

/-- The recorded epochs after the check of a station (R168). -/
def epochsChecked (d : Station) (j : Fin 16) : Vector (Option Byte) 16 :=
  match (d.lpc.floor[j]'j.isLt).image with
  | none => d.alm.epochs
  | some g => vecModify d.alm.epochs j fun _ => some g.epoch

theorem setMirror_same (d : Station) : d.setMirror d.alm.mirror = d := if_pos rfl

theorem onAlm_epochs (d : Station) (v : Vector (Option Byte) 16) (h : v = d.alm.epochs) :
    (d.onAlm fun a => { a with epochs := v }) = d := by
  rw [h]
  rfl

theorem checkEpoch_eq (j : Fin 16) (d : Station) :
    d.checkEpoch j = (d.setMirror (mirrorChecked d j)).onAlm fun a => { a with epochs := epochsChecked d j } := by
  unfold Station.checkEpoch mirrorChecked epochsChecked epochStale
  cases image : (d.lpc.floor[j]'j.isLt).image with
  | none => exact ((onAlm_epochs (d.setMirror d.alm.mirror) _ (by rw [setMirror_same])).trans (setMirror_same d)).symm
  | some g =>
    dsimp only
    cases recorded : d.alm.epochs[j]'j.isLt with
    | none => simp [setMirror_eq, Station.onAlm]
    | some x =>
      by_cases same : x = g.epoch
      · subst same
        rw [if_pos rfl]
        dsimp only
        rw [bne_self_eq_false, cond_false, setMirror_same, onAlm_epochs d _ (vecModify_id _ _ _ recorded.symm)]
      · have stale : (x != g.epoch) = true := by simpa using same
        have owners : (fun e : MirrorEntry => e.owner != j) = fun e => decide (e.owner ≠ j) := by
          funext e
          rw [Bool.eq_iff_iff]
          simp
        rw [if_neg (by simpa using same), owners]
        dsimp only
        rw [stale, cond_true, if_neg (by simp), setMirror_eq]
        rfl

theorem checkEpoch_moves (j : Fin 16) (d : Station) : MirrorMoves d (d.checkEpoch j) := by
  rw [checkEpoch_eq]
  exact ((MirrorMoves.refl d).setMirror _).epoch _

theorem checkEpoch_mirror (j : Fin 16) (d : Station) : (d.checkEpoch j).alm.mirror = mirrorChecked d j := by
  rw [checkEpoch_eq, setMirror_eq]
  rfl

theorem checkEpoch_epochs (j : Fin 16) (d : Station) : (d.checkEpoch j).alm.epochs = epochsChecked d j := by
  rw [checkEpoch_eq]
  rfl

theorem MirrorMoves.lpc {a b : Station} (h : MirrorMoves a b) : b.lpc = a.lpc := by rw [h.rest]

theorem MirrorMoves.own {a b : Station} (h : MirrorMoves a b) : b.own = a.own := by rw [h.rest]; rfl

/-! ## A refresh -/

/-- What a refresh does with one station in view (R168). -/
def Station.refreshEpoch (d : Station) (i : Fin 16) : Station := if i = d.own then d else d.checkEpoch i

/-- What the epochs' check of stations in view has made of the mirror and the epochs. -/
structure EpochsChecked (l : List (Fin 16)) (a b : Station) : Prop where
  mirror : b.alm.mirror = a.alm.mirror.filter fun e => !(l.contains e.owner && e.owner != a.own && epochStale a e.owner)
  epochs : ∀ j : Fin 16, b.alm.epochs[j]'j.isLt = if j ∈ l ∧ j ≠ a.own then (a.lpc.floor[j]'j.isLt).image.map (·.epoch) else (a.alm.epochs[j]'j.isLt)
  rest : b = { a with
    alm := { a.alm with mirror := b.alm.mirror, epochs := b.alm.epochs }
    ppt := { a.ppt with events := if b.alm.mirror = a.alm.mirror then a.ppt.events else a.ppt.events ||| 1 } }

/-- Two mirrors in turn, of which only the last can be the first again when both are: one post (R167). -/
theorem posted_trans {m n o : List MirrorEntry} {e f g : Byte} (back : o = m → n = m) (one : f = if n = m then e else e ||| 1)
    (two : g = if o = n then f else f ||| 1) : g = if o = m then e else e ||| 1 := by
  by_cases first : n = m
  · rw [two, one, first, if_pos rfl]
  · have other : o ≠ m := fun same => first (back same)
    rw [two, one, if_neg first, if_neg other, BitVec.or_assoc, BitVec.or_self, ite_self]

/-- After its check a station's recorded epoch is the one in view. -/
theorem epochsChecked_get {d : Station} {j : Fin 16} {g : Image} (image : (d.lpc.floor[j]'j.isLt).image = some g) (i : Fin 16) :
    (epochsChecked d j)[i]'i.isLt = if i = j then some g.epoch else (d.alm.epochs[i]'i.isLt) := by
  unfold epochsChecked
  rw [image]
  by_cases e : i = j
  · subst e
    rw [if_pos rfl]
    exact vecModify_same _ _ _
  · rw [if_neg e]
    exact vecModify_ne _ _ _ _ _ fun h => e (Fin.ext h.symm)

theorem epochStale_checkEpoch {d : Station} {j : Fin 16} {g : Image} (image : (d.lpc.floor[j]'j.isLt).image = some g) (i : Fin 16) :
    epochStale (d.checkEpoch j) i = (decide (i ≠ j) && epochStale d i) := by
  have moves := checkEpoch_moves j d
  unfold epochStale
  rw [moves.lpc, checkEpoch_epochs, epochsChecked_get image]
  by_cases e : i = j
  · subst e
    rw [if_pos rfl, image]
    simp
  · simp [e]

/-- The check of an epoch, as a change of the mirror and the epochs. -/
theorem checkEpoch_written (j : Fin 16) (d : Station) : d.checkEpoch j = { d with
    alm := { d.alm with mirror := mirrorChecked d j, epochs := epochsChecked d j }
    ppt := { d.ppt with events := if mirrorChecked d j = d.alm.mirror then d.ppt.events else d.ppt.events ||| 1 } } := by
  rw [checkEpoch_eq, setMirror_eq]
  rfl

/-- The check of a station drops its entries where its epoch has changed (R168). -/
theorem mirrorChecked_filter (d : Station) (j : Fin 16) :
    mirrorChecked d j = d.alm.mirror.filter fun e => !(decide (e.owner = j) && epochStale d j) := by
  unfold mirrorChecked
  cases epochStale d j
  · simp
  · simp

theorem foldl_refreshEpoch (l : List (Fin 16)) (d : Station) (seen : ∀ j ∈ l, ∃ g, (d.lpc.floor[j]'j.isLt).image = some g) :
    EpochsChecked l d (l.foldl Station.refreshEpoch d) := by
  induction l generalizing d with
  | nil => exact ⟨by simp, fun j => by simp, by rw [List.foldl_nil, if_pos rfl]⟩
  | cons i l ih =>
    rw [List.foldl_cons]
    by_cases own : i = d.own
    · obtain ⟨mirror, epochs, rest⟩ := ih d fun j mem => seen j (List.mem_cons_of_mem _ mem)
      have same : d.refreshEpoch i = d := if_pos own
      rw [same]
      refine ⟨mirror.trans (List.filter_congr fun e _ => ?_), fun j => (epochs j).trans ?_, rest⟩
      · by_cases mine : e.owner = d.own
        · simp [mine]
        · simp [mine, own]
      · by_cases mine : j = d.own
        · simp [mine]
        · simp [mine, own]
    · have step : d.refreshEpoch i = d.checkEpoch i := if_neg own
      have moved := checkEpoch_moves i d
      obtain ⟨g, image⟩ := seen i (List.mem_cons_self ..)
      obtain ⟨mirror, epochs, rest⟩ := ih (d.checkEpoch i) fun j mem => by
        rw [moved.lpc]
        exact seen j (List.mem_cons_of_mem _ mem)
      rw [step]
      rw [moved.own] at mirror epochs
      have first := checkEpoch_mirror i d
      generalize l.foldl Station.refreshEpoch (d.checkEpoch i) = b at mirror epochs rest ⊢
      refine ⟨mirror.trans ?_, fun j => (epochs j).trans ?_, ?_⟩
      · rw [first, mirrorChecked_filter, List.filter_filter]
        refine List.filter_congr fun e _ => ?_
        rw [epochStale_checkEpoch image]
        by_cases this : e.owner = i
        · simp [this, own]
        · simp [this]
      · rw [checkEpoch_epochs, epochsChecked_get image, moved.lpc]
        by_cases this : j = i
        · subst this
          rw [if_pos rfl, image, Option.map_some, ite_self, if_pos ⟨List.mem_cons_self .., own⟩]
        · simp [this]
      · have back : b.alm.mirror = d.alm.mirror → mirrorChecked d i = d.alm.mirror := fun same => by
          have le : b.alm.mirror.length ≤ (mirrorChecked d i).length := by
            rw [mirror, first]
            exact List.length_filter_le _ _
          have shorter : (mirrorChecked d i).length ≤ d.alm.mirror.length := by
            rw [mirrorChecked_filter]
            exact List.length_filter_le _ _
          have full : (mirrorChecked d i).length = d.alm.mirror.length := by
            rw [same] at le
            omega
          rw [mirrorChecked_filter] at full ⊢
          exact List.filter_eq_self.2 (List.length_filter_eq_length_iff.1 full)
        have events : b.ppt.events = if b.alm.mirror = d.alm.mirror then d.ppt.events else d.ppt.events ||| 1 := by
          refine posted_trans back (congrArg (fun x => x.ppt.events) (checkEpoch_written i d)) ?_
          rw [← first]
          exact congrArg (fun x => x.ppt.events) rest
        rw [← events, rest, checkEpoch_written i d]

/-- The stations in view have images. -/
theorem inView_image {d : Station} {i : Fin 16} (h : i ∈ d.inView.map (·.1)) : ∃ g, (d.lpc.floor[i]'i.isLt).image = some g := by
  obtain ⟨⟨j, g⟩, mem, rfl⟩ := List.mem_map.1 h
  exact ⟨g, ((mem_inView d j g).1 mem).2⟩

/-- What a refresh does (R168). -/
def Station.floorRefreshed (d : Station) : Station :=
  let e := (d.inView.map (·.1)).foldl Station.refreshEpoch d
  e.setMirror (e.alm.mirror.map fun x => { x with silent := !e.lpc.live.contains x.owner })

theorem exec_almFloorRefresh (s : State) : exec .almFloorRefresh s = act .almFloorRefresh Station.floorRefreshed s := rfl

theorem floorRefreshed_moves (d : Station) :
    let stale := fun j : Fin 16 => (d.inView.any fun v => v.1 == j) && j != d.own && epochStale d j
    let mirror := (d.alm.mirror.filter fun e => !stale e.owner).map fun e => { e with silent := !d.lpc.live.contains e.owner }
    let x := d.floorRefreshed
    x.alm.mirror = mirror ∧
    (∀ j : Fin 16, x.alm.epochs[j]'j.isLt =
      if (∃ v ∈ d.inView, v.1 = j) ∧ j ≠ d.own then (d.lpc.floor[j]'j.isLt).image.map (·.epoch) else (d.alm.epochs[j]'j.isLt)) ∧
    x = { d with
      alm := { d.alm with mirror := x.alm.mirror, epochs := x.alm.epochs }
      ppt := { d.ppt with events := if mirror = d.alm.mirror then d.ppt.events else d.ppt.events ||| 1 } } := by
  intro stale mirror x
  have checked := foldl_refreshEpoch (d.inView.map (·.1)) d fun j => inView_image
  have whole : x = Station.setMirror _ ((d.inView.map (·.1)).foldl Station.refreshEpoch d) := rfl
  generalize (d.inView.map (·.1)).foldl Station.refreshEpoch d = e at checked whole
  obtain ⟨kept, epochs, rest⟩ := checked
  have live : e.lpc.live = d.lpc.live := by rw [rest]
  have contains (j : Fin 16) : (d.inView.map (·.1)).contains j = d.inView.any fun v => v.1 == j := by
    rw [Bool.eq_iff_iff]
    simp
  have filtered : e.alm.mirror = d.alm.mirror.filter fun e => !stale e.owner :=
    kept.trans (List.filter_congr fun e _ => by rw [contains])
  have given : mirror = e.alm.mirror.map fun x => { x with silent := !e.lpc.live.contains x.owner } := by
    rw [filtered, live]
  rw [← given, setMirror_eq] at whole
  have back (same : mirror = d.alm.mirror) : e.alm.mirror = d.alm.mirror := by
    have full : (d.alm.mirror.filter fun e => !stale e.owner).length = d.alm.mirror.length :=
      (List.length_map _).symm.trans (congrArg List.length same)
    exact filtered.trans (List.filter_eq_self.2 (List.length_filter_eq_length_iff.1 full))
  have events : (if mirror = e.alm.mirror then e.ppt.events else e.ppt.events ||| 1) =
      if mirror = d.alm.mirror then d.ppt.events else d.ppt.events ||| 1 :=
    posted_trans back (congrArg (fun x => x.ppt.events) rest) rfl
  rw [events] at whole
  refine ⟨congrArg (fun x => x.alm.mirror) whole, fun j => ?_, ?_⟩
  · rw [whole]
    exact (epochs j).trans (if_congr (and_congr_left' (by simp)) rfl rfl)
  · rw [whole, rest]

/-! ## Recent raises -/

/-- What the end of the oldest recent raise does (R166). -/
def Station.recentExpiry (d : Station) : Station :=
  if d.alm.recent.isEmpty then d
  else
    let e := d.onAlm fun a => { a with recent := a.recent.tail }
    if e.alm.flood && e.alm.recent.length ≤ e.floodCfg.low then
      (((e.onAlm fun a => { a with flood := false }).writeSummary).post .alarmChange).resubmit
    else e

theorem exec_recentRaiseExpiry (s : State) : exec .recentRaiseExpiry s = act .recentRaiseExpiry Station.recentExpiry s := rfl

theorem exec_almPlaceFree (s : State) : exec .almPlaceFree s = act .almPlaceFree Station.resubmit s := rfl

section
variable {d : Station} {x : Nat} {rest : List Nat}

theorem recentExpiry_empty (none : d.alm.recent = []) : d.recentExpiry = d := by
  unfold Station.recentExpiry
  rw [none]
  rfl

variable (recent : d.alm.recent = x :: rest)
include recent

theorem recentExpiry_stays (h : d.alm.flood = false ∨ d.floodCfg.low < rest.length) :
    d.recentExpiry = { d with alm := { d.alm with recent := rest } } := by
  have tail : d.alm.recent.tail = rest := by rw [recent]; rfl
  unfold Station.recentExpiry Station.onAlm
  rw [if_neg (by simp [recent])]
  dsimp only
  rw [tail]
  refine if_neg fun ends => ?_
  obtain ⟨flood, low⟩ := Bool.and_eq_true_iff.1 ends
  rcases h with calm | many
  · exact absurd (flood.symm.trans calm) nofun
  · exact absurd (of_decide_eq_true low) (Nat.not_le.2 many)

theorem recentExpiry_ends (flood : d.alm.flood = true) (low : rest.length ≤ d.floodCfg.low) :
    let alm := { d.alm with recent := rest, flood := false }
    d.recentExpiry = Station.resubmit { d with
      alm := alm
      lpc := { d.lpc with staging := { d.lpc.staging with summary := some alm.summary } }
      ppt := { d.ppt with events := d.ppt.events ||| 1 } } := by
  have tail : d.alm.recent.tail = rest := by rw [recent]; rfl
  intro alm
  unfold Station.recentExpiry Station.onAlm
  rw [if_neg (by simp [recent])]
  dsimp only
  rw [tail]
  exact if_pos (Bool.and_eq_true_iff.2 ⟨flood, decide_eq_true low⟩)

end

end Sys2Proof.Machine
end

section
/-! SUPPORT. Lost notices of own points, and the peers' alarm states in the mirror (R161, R167). -/

set_option Elab.async false

namespace Sys2Proof.Machine

/-! ## A lost notice of an own point -/

section
variable {a : AlarmBody} {i : Fin 32} {c : PointCfg} {d : Station} (place : a.point.toNat = i.val)
  (cfg : (d.alm.points[i]'i.isLt).cfg = some c)
include place cfg

theorem almNoticeLost_eq : d.almNoticeLost (.alarmState a) =
    let e := d.contribute .noticeLost
    if (d.alm.points[i]'i.isLt).shelf.isSome then e.onPoint i fun p => { p with announced := .unknown }
    else if (d.alm.points[i]'i.isLt).pending || d.deferred c then
      e.onPoint i fun p => { p with announced := .unknown, pending := true }
    else e.submitPoint i c := by
  have own : (d.contribute .noticeLost).ownPoint a.point = some i :=
    ownPoint_configured place (show (d.alm.points[i]'i.isLt).cfg ≠ none by rw [cfg]; nofun)
  have given : ((d.contribute .noticeLost).alm.points[i]'i.isLt).cfg = some c := cfg
  unfold Station.almNoticeLost
  dsimp only
  rw [own]
  dsimp only
  rw [given]
  exact rfl

/-- A lost notice of an own point (R161). -/
theorem almNoticeLost_point :
    let p := d.alm.points[i]'i.isLt
    let own : NoticeBody := .alarmState (p.body i c)
    let x := d.almNoticeLost (.alarmState a)
    let left := fun (q : Point) => { d with
      signals := d.signals ++ [.sruContribution .noticeLost]
      alm := { d.alm with points := vecModify d.alm.points i fun _ => q } }
    (p.shelf ≠ none → x = left { p with announced := .unknown }) ∧
    (p.shelf = none → p.pending = true ∨ (c.cls = .low ∧ d.alm.flood = true) →
      x = left { p with announced := .unknown, pending := true }) ∧
    (p.shelf = none → p.pending = false → ¬ (c.cls = .low ∧ d.alm.flood = true) →
      (d.lpc.accepts own = true →
        x = { left { p with pending := false, announced := .known p.state } with lpc := d.lpc.submitted own }) ∧
      (d.lpc.accepts own = false → x = left { p with pending := true })) := by
  intro p own x left
  have whole : x = _ := almNoticeLost_eq place cfg
  have deferred : ((d.alm.points[i]'i.isLt).pending || d.deferred c) = true ↔
      p.pending = true ∨ (c.cls = .low ∧ d.alm.flood = true) := by
    simp [Station.deferred, p]
  have closed (h : p.shelf = none) : ¬ (d.alm.points[i]'i.isLt).shelf.isSome = true := by
    rw [show (d.alm.points[i]'i.isLt).shelf = none from h]
    nofun
  refine ⟨fun shelved => ?_, fun open_ waits => ?_, fun open_ ready now => ?_⟩
  · rw [whole]
    exact (if_pos (Option.isSome_iff_ne_none.2 shelved)).trans (onPoint_withPoint rfl)
  · rw [whole]
    exact (if_neg (closed open_)).trans ((if_pos (deferred.2 waits)).trans (onPoint_withPoint rfl))
  · have sent : x = (d.contribute .noticeLost).submitPoint i c := by
      rw [whole]
      exact (if_neg (closed open_)).trans
        (if_neg fun h => (deferred.1 h).elim (ne_true_of_eq_false ready) now)
    rw [sent]
    unfold Station.submitPoint Station.submit
    refine ⟨fun room => ?_, fun full => ?_⟩
    · rw [if_pos (show (d.contribute .noticeLost).lpc.accepts
        (.alarmState (((d.contribute .noticeLost).alm.points[i]'i.isLt).body i c)) = true from room)]
      exact onPoint_withPoint (d := { d.contribute .noticeLost with lpc := d.lpc.submitted own }) rfl
    · rw [if_neg (show ¬ (d.contribute .noticeLost).lpc.accepts
        (.alarmState (((d.contribute .noticeLost).alm.points[i]'i.isLt).body i c)) = true from ne_true_of_eq_false full)]
      exact onPoint_withPoint rfl

end

/-! ## A peer's alarm state -/

/-- An entry of the earliest class LOW in RAISED ACKED (R167). -/
def MirrorEntry.yields (e : MirrorEntry) : Prop := e.body.cls = .low ∧ e.body.state = .raisedAcked

theorem dropAckedLow_none {l : List MirrorEntry} (never : ∀ f ∈ l, ¬ f.yields) : dropAckedLow l = none := by
  induction l with
  | nil => rfl
  | cons e l ih =>
    unfold dropAckedLow
    rw [if_neg (by simpa [MirrorEntry.yields] using never e (List.mem_cons_self ..)),
      ih fun f mem => never f (List.mem_cons_of_mem _ mem)]
    rfl

theorem dropAckedLow_some {early late : List MirrorEntry} {e : MirrorEntry} (yields : e.yields)
    (never : ∀ f ∈ early, ¬ f.yields) : dropAckedLow (early ++ e :: late) = some (early ++ late) := by
  induction early with
  | nil =>
    rw [List.nil_append]
    unfold dropAckedLow
    exact if_pos (by simpa [MirrorEntry.yields] using yields)
  | cons f early ih =>
    rw [List.cons_append]
    unfold dropAckedLow
    rw [if_neg (by simpa [MirrorEntry.yields] using never f (List.mem_cons_self ..)),
      ih fun f mem => never f (List.mem_cons_of_mem _ mem)]
    rfl

theorem isFor_eq (owner : Fin 16) (point : Byte) :
    (fun e : MirrorEntry => e.isFor owner point) = fun e => decide (e.owner = owner ∧ e.body.point = point) := by
  funext e
  rw [Bool.eq_iff_iff]
  simp [MirrorEntry.isFor]

/-- The station after a peer's alarm state is applied, from its checked mirror (R167). -/
def Station.alarmTaken (owner : Fin 16) (b : AlarmBody) (d : Station) : Station :=
  let others := d.alm.mirror.filter fun e => !e.isFor owner b.point
  match d.alm.mirror.find? fun e => e.isFor owner b.point with
  | some e => if b.state = .normal then d.setMirror others else d.setMirror (others ++ [{ e with body := b }])
  | none =>
    if b.state = .normal then d
    else
      let added : MirrorEntry := { owner := owner, body := b, silent := false }
      if d.alm.mirror.length < 64 then d.setMirror (d.alm.mirror ++ [added])
      else match dropAckedLow d.alm.mirror with
        | some m => d.setMirror (m ++ [added])
        | none => d.onAlm fun a => { a with overflow := satAdd top16 a.overflow 1 }

theorem applyAlarm_eq (owner : Fin 16) (b : AlarmBody) (d : Station) :
    d.applyAlarm owner b = (d.checkEpoch owner).alarmTaken owner b := rfl

theorem setMirror_fields (m : List MirrorEntry) (d : Station) : (d.setMirror m).alm.mirror = m ∧
    (d.setMirror m).alm.overflow = d.alm.overflow ∧ (d.setMirror m).alm.epochs = d.alm.epochs := by
  rw [setMirror_eq]
  exact ⟨rfl, rfl, rfl⟩

theorem alarmTaken_moves (owner : Fin 16) (b : AlarmBody) (d : Station) :
    MirrorMoves d (d.alarmTaken owner b) ∧ (d.alarmTaken owner b).alm.epochs = d.alm.epochs := by
  have set (m : List MirrorEntry) : MirrorMoves d (d.setMirror m) ∧ (d.setMirror m).alm.epochs = d.alm.epochs :=
    ⟨(MirrorMoves.refl d).setMirror m, (setMirror_fields m d).2.2⟩
  unfold Station.alarmTaken
  dsimp only
  split
  · split
    · exact set _
    · exact set _
  · split
    · exact ⟨.refl d, rfl⟩
    · split
      · exact set _
      · split
        · exact set _
        · exact ⟨(MirrorMoves.refl d).overflow _, rfl⟩

section
variable {owner : Fin 16} {b : AlarmBody} {d : Station}

/-- The alarm state of a peer, by its entry and its state (R167). -/
theorem alarmTaken_counts :
    let x := d.alarmTaken owner b
    let mirror := d.alm.mirror
    let others := mirror.filter fun e => ¬ (e.owner = owner ∧ e.body.point = b.point)
    let added : MirrorEntry := { owner := owner, body := b, silent := false }
    let counted := fun (l : List MirrorEntry) (n : Nat) => x.alm.mirror = l ∧ x.alm.overflow = n
    (b.state = .normal → counted others d.alm.overflow) ∧
    (∀ e, b.state ≠ .normal → (mirror.find? fun e => e.owner = owner ∧ e.body.point = b.point) = some e →
      counted (others ++ [{ e with body := b }]) d.alm.overflow) ∧
    (b.state ≠ .normal → (∀ e ∈ mirror, ¬ (e.owner = owner ∧ e.body.point = b.point)) →
      (mirror.length < 64 → counted (mirror ++ [added]) d.alm.overflow) ∧
      (∀ early e late, 64 ≤ mirror.length → mirror = early ++ e :: late → e.yields → (∀ f ∈ early, ¬ f.yields) →
        counted (early ++ late ++ [added]) d.alm.overflow) ∧
      (64 ≤ mirror.length → (∀ f ∈ mirror, ¬ f.yields) → counted mirror (min 65535 (d.alm.overflow + 1)))) := by
  intro x mirror others added counted
  have kept : (fun e : MirrorEntry => !e.isFor owner b.point) =
      fun e => decide ¬ (e.owner = owner ∧ e.body.point = b.point) := by
    funext e
    rw [congrFun (isFor_eq owner b.point) e, decide_not]
  have set (m : List MirrorEntry) (h : x = d.setMirror m) : counted m d.alm.overflow := by
    obtain ⟨one, two, -⟩ := setMirror_fields m d
    exact ⟨h ▸ one, h ▸ two⟩
  have whole : x = d.alarmTaken owner b := rfl
  unfold Station.alarmTaken at whole
  rw [isFor_eq, kept] at whole
  dsimp only at whole
  refine ⟨fun normal => ?_, fun e alarm found => ?_, fun alarm unknown => ?_⟩
  · cases find : mirror.find? fun e => decide (e.owner = owner ∧ e.body.point = b.point) with
    | some e =>
      rw [find] at whole
      exact set _ (whole.trans (if_pos normal))
    | none =>
      rw [find] at whole
      have all : others = mirror := List.filter_eq_self.2 fun e mem => decide_eq_true fun h =>
        List.find?_eq_none.1 find e mem (decide_eq_true h)
      have same : x = d := whole.trans (if_pos normal)
      exact ⟨(congrArg (fun y => y.alm.mirror) same).trans all.symm, congrArg (fun y => y.alm.overflow) same⟩
  · rw [found] at whole
    exact set _ (whole.trans (if_neg alarm))
  · have find : (mirror.find? fun e => decide (e.owner = owner ∧ e.body.point = b.point)) = none :=
      List.find?_eq_none.2 fun e mem => by simpa using unknown e mem
    rw [find] at whole
    have room := whole.trans (if_neg alarm)
    refine ⟨fun short => set _ (room.trans (if_pos short)), fun early e late full split yields first => ?_, fun full never => ?_⟩
    · have drop : dropAckedLow d.alm.mirror = some (early ++ late) := (congrArg dropAckedLow split).trans (dropAckedLow_some yields first)
      have last := room.trans (if_neg (Nat.not_lt.2 full))
      rw [drop] at last
      exact set _ last
    · have last := room.trans (if_neg (Nat.not_lt.2 full))
      rw [dropAckedLow_none never] at last
      exact ⟨congrArg (fun y => y.alm.mirror) last, congrArg (fun y => y.alm.overflow) last⟩

end

/-- A peer's alarm state, from its checked epoch on (R167, R168). -/
theorem applyAlarm_counts (owner : Fin 16) (b : AlarmBody) (d : Station) :
    let x := d.applyAlarm owner b
    let mirror := mirrorChecked d owner
    let others := mirror.filter fun e => ¬ (e.owner = owner ∧ e.body.point = b.point)
    let added : MirrorEntry := { owner := owner, body := b, silent := false }
    let counted := fun (l : List MirrorEntry) (n : Nat) => x.alm.mirror = l ∧ x.alm.overflow = n
    (b.state = .normal → counted others d.alm.overflow) ∧
    (∀ e, b.state ≠ .normal → (mirror.find? fun e => e.owner = owner ∧ e.body.point = b.point) = some e →
      counted (others ++ [{ e with body := b }]) d.alm.overflow) ∧
    (b.state ≠ .normal → (∀ e ∈ mirror, ¬ (e.owner = owner ∧ e.body.point = b.point)) →
      (mirror.length < 64 → counted (mirror ++ [added]) d.alm.overflow) ∧
      (∀ early e late, 64 ≤ mirror.length → mirror = early ++ e :: late → e.yields → (∀ f ∈ early, ¬ f.yields) →
        counted (early ++ late ++ [added]) d.alm.overflow) ∧
      (64 ≤ mirror.length → (∀ f ∈ mirror, ¬ f.yields) → counted mirror (min 65535 (d.alm.overflow + 1)))) := by
  have counts := alarmTaken_counts (owner := owner) (b := b) (d := d.checkEpoch owner)
  have overflow : (d.checkEpoch owner).alm.overflow = d.alm.overflow := by rw [checkEpoch_written]
  rw [checkEpoch_mirror, overflow] at counts
  exact counts

theorem epochsChecked_own (d : Station) (j : Fin 16) : (epochsChecked d j)[j]'j.isLt =
    match (d.lpc.floor[j]'j.isLt).image with
    | some g => some g.epoch
    | none => d.alm.epochs[j]'j.isLt := by
  unfold epochsChecked
  cases (d.lpc.floor[j]'j.isLt).image with
  | none => rfl
  | some g => exact vecModify_same _ _ _

theorem applyAlarm_moves (owner : Fin 16) (b : AlarmBody) (d : Station) :
    MirrorMoves d (d.applyAlarm owner b) ∧ (d.applyAlarm owner b).alm.epochs = epochsChecked d owner := by
  obtain ⟨moves, epochs⟩ := alarmTaken_moves owner b (d.checkEpoch owner)
  exact ⟨(checkEpoch_moves owner d).trans moves, epochs.trans (checkEpoch_epochs owner d)⟩

end Sys2Proof.Machine
end

section
/-! SUPPORT. Contributions and the COLLECTING report (R177, R179, R180, R182, R183). -/

set_option Elab.async false

namespace Sys2Proof.Machine

/-- A feed contribution changes the counts of its channel (R177). -/
theorem onFeed_written (ch : Fin 2) (f : FeedCounts → FeedCounts) (a : Accumulators) :
    a.onFeed ch f = { a with feed := vecModify a.feed ch fun _ => f (a.feed[ch]'ch.isLt) } := by
  unfold Accumulators.onFeed
  rw [vecModify_congr _ _ f (fun _ => f (a.feed[ch]'ch.isLt)) rfl]

theorem take_fuel (r : Sru) (ch : Fin 2) (mass heat : Nat) :
    let f := r.acc.feed[ch]'ch.isLt
    r.take (.fuel ch mass heat) = { r with
      acc := { r.acc with
        feed := vecModify r.acc.feed ch fun _ =>
          { f with mass := min 4294967295 (f.mass + mass), heat := min 4294967295 (f.heat + heat) }
        saturated := r.acc.saturated || decide (4294967295 < f.mass + mass ∨ 4294967295 < f.heat + heat) }
      runTotals := vecModify r.runTotals ch fun t => min 4294967295 (t + mass) } := by
  intro f
  unfold Sru.take Accumulators.add
  dsimp only
  rw [onFeed_written, Bool.decide_or]
  rfl

/-- A count of a feed channel that is added (R177, R182). -/
theorem take_feedCount (r : Sru) {c : Contribution} (ch : Fin 2) (f : FeedCounts → FeedCounts) (past : Bool)
    (adds : r.acc.add c = (r.acc.onFeed ch f).mark past)
    (plain : r.take c = { r with acc := r.acc.add c }) : r.take c = { r with acc := { r.acc with
      feed := vecModify r.acc.feed ch fun _ => f (r.acc.feed[ch]'ch.isLt), saturated := r.acc.saturated || past } } := by
  rw [plain, adds, onFeed_written]
  rfl

/-! ## Examined refreshes -/

/-- What a refresh does with the COLLECTING report (R179, R180). -/
def Station.reportRefreshed (d : Station) : Station :=
  let e := d.onSru fun r => { r with skipRefresh := false }
  if e.lpc.state = .up && !d.sru.skipRefresh then e.examineReport else e

theorem exec_sruFloorRefresh (s : State) : exec .sruFloorRefresh s = act .sruFloorRefresh Station.reportRefreshed s := rfl

theorem exec_sruLeftUp (s : State) : exec .sruLeftUp s = act .sruLeftUp
    (fun d => d.completeReport.onSru fun r => { r with notUp := some (d.inSec 1) }) s := rfl

theorem exec_sruEnteredUp (s : State) :
    exec .sruEnteredUp s = act .sruEnteredUp (Station.onSru fun r => { r with notUp := none }) s := rfl

section
variable {r : Sru} {old : List Report} {rep : Report}

theorem collecting_of_newest (h : ∀ x, r.ring.getLast? = some x → x.complete = true) : r.collecting = none := by
  unfold Sru.collecting
  cases newest : r.ring.getLast? with
  | none => rfl
  | some x => exact if_pos (h x newest)

theorem collecting_open (ring : r.ring = old ++ [rep]) (h : rep.complete = false) : r.collecting = some rep := by
  unfold Sru.collecting
  rw [ring, List.getLast?_concat]
  exact if_neg (ne_true_of_eq_false h)

theorem setNewest_ring (ring : r.ring = old ++ [rep]) (x : Report) : r.setNewest x = { r with ring := old ++ [x] } := by
  unfold Sru.setNewest
  rw [ring, List.dropLast_concat]

end

theorem completeReport_none {d : Station} (h : d.sru.collecting = none) : d.completeReport = d := by
  unfold Station.completeReport
  rw [h]

theorem examineReport_none {d : Station} (h : d.sru.collecting = none) : d.examineReport = d := by
  unfold Station.examineReport
  rw [h]

/-- The COLLECTING report is completed (R180). -/
theorem completeReport_open {d : Station} {old : List Report} {rep : Report} (ring : d.sru.ring = old ++ [rep])
    (h : rep.complete = false) : d.completeReport = { d with
      sru := { d.sru with ring := old ++ [{ rep with
        complete := true
        floor := rep.floor.map fun e => if e.mark = .outstanding then { e with mark := .absent } else e }] }
      ppt := { d.ppt with events := d.ppt.events ||| 2 } } := by
  unfold Station.completeReport
  rw [collecting_open ring h]
  unfold Station.onSru
  dsimp only
  rw [setNewest_ring ring]
  rfl

/-- One peer's totals after an examined refresh (R179). -/
theorem examine_eq (shift : Half) (floor : Vector FloorEntry 16) (e : PeerTotals) : e.examine shift floor =
    match e.mark, floor[e.station].image with
    | .outstanding, some g =>
      if g.closing.shift = shift then
        { e with
          mark := .collected, heat := g.closing.heat, firing := g.closing.firing
          strokes := g.closing.strokes, trips := g.closing.trips }
      else if shift.toNat < g.closing.shift.toNat then { e with mark := .absent }
      else e
    | _, _ => e := by
  unfold PeerTotals.examine
  cases mark : e.mark
  case outstanding =>
    rw [if_neg (by simp)]
    cases floor[e.station].image <;> rfl
  all_goals exact if_pos (by nofun)

/-- An examined refresh of a COLLECTING report: its peers are read, and it is completed at the fourth or with none OUTSTANDING. -/
theorem examineReport_open {d : Station} {old : List Report} {rep : Report} (ring : d.sru.ring = old ++ [rep])
    (h : rep.complete = false) :
    let floor := rep.floor.map (PeerTotals.examine rep.shift d.lpc.floor)
    let read := { d with sru := { d.sru with ring := old ++ [{ rep with floor := floor }], arrivals := d.sru.arrivals + 1 } }
    d.examineReport =
      if 4 ≤ d.sru.arrivals + 1 ∨ (∀ e ∈ floor, e.mark ≠ .outstanding) then read.completeReport else read := by
  intro floor read
  unfold Station.examineReport
  rw [collecting_open ring h]
  unfold Station.onSru
  dsimp only
  rw [setNewest_ring ring]
  refine if_congr ?_ rfl rfl
  simp [floor]

end Sys2Proof.Machine

open Sys2Proof Sys2Proof.Machine in
/-- Settles O52: each contribution is one addition to the accumulators. -/
theorem contributionsAreAddedAndHoldAtTheirTops : Obligations.ContributionsAreAddedAndHoldAtTheirTops := by
  intro s a past took adds
  have taken (c : Contribution) {sru : Sru} (h : s.dev.sru.take c = sru) : took c sru :=
    exec_eq (exec_sruContribution c) (congrArg (fun r => { s.dev.take (.sruContribution c) with sru := r }) h)
  refine ⟨fun ch => ?_, taken _ rfl, taken _ rfl, fun e => taken _ rfl, fun i => ⟨taken _ rfl, taken _ rfl⟩, taken _ rfl, taken _ rfl,
    fun n => taken _ rfl, taken _ rfl, taken _ rfl, taken _ rfl, taken _ rfl, taken _ rfl⟩
  intro f after
  exact ⟨fun mass heat => taken _ (take_fuel s.dev.sru ch mass heat),
    taken _ (take_feedCount _ ch (fun f => { f with revolutions := min 4294967295 (f.revolutions + 1) }) _ rfl rfl),
    taken _ (take_feedCount _ ch (fun f => { f with runningSeconds := min 4294967295 (f.runningSeconds + 1) }) _ rfl rfl),
    taken _ (take_feedCount _ ch (fun f => { f with faults := min 65535 (f.faults + 1) }) _ rfl rfl)⟩

open Sys2Proof Sys2Proof.Machine in
/-- Settles O53: a refresh reads the newest report where it collects; the fourth, and leaving UP, complete it. -/
theorem collectingReportsAreExaminedAndCompleted : Obligations.CollectingReportsAreExaminedAndCompleted := by
  refine ⟨fun s => ?_, fun s => ?_, fun s => exec_eq exec_sruEnteredUp rfl⟩
  · intro skip base
    let e := (s.dev.take .sruFloorRefresh).onSru fun r => { r with skipRefresh := false }
    have runs {x : Station} (h : (s.dev.take .sruFloorRefresh).reportRefreshed = x) :
        exec .sruFloorRefresh s = .next { s with dev := x } := exec_eq exec_sruFloorRefresh h
    refine ⟨fun h => runs ?_, fun old r up look ring => ?_⟩
    · by_cases looks : (e.lpc.state = .up && !skip) = true
      · obtain ⟨up, look⟩ := Bool.and_eq_true_iff.1 looks
        have empty : s.dev.sru.ring = [] :=
          (h.resolve_left fun out => out (of_decide_eq_true up)).resolve_left (by simpa using look)
        refine (if_pos looks).trans (examineReport_none (d := e) (collecting_of_newest fun x newest => ?_))
        rw [show e.sru.ring = [] from empty] at newest
        cases newest
      · exact if_neg looks
    · have examined : (s.dev.take .sruFloorRefresh).reportRefreshed = e.examineReport :=
        if_pos (Bool.and_eq_true_iff.2 ⟨decide_eq_true up, by simpa using look⟩)
      refine ⟨fun complete => runs (examined.trans (examineReport_none (d := e) (collecting_of_newest fun x newest => ?_))),
        fun open_ => ?_⟩
      · rw [show e.sru.ring = old ++ [r] from ring, List.getLast?_concat] at newest
        cases newest
        exact complete
      · intro floor done
        have read := examined.trans (examineReport_open (d := e) ring open_)
        have peers : r.floor.map (PeerTotals.examine r.shift e.lpc.floor) = floor :=
          List.map_congr_left fun x _ => examine_eq r.shift e.lpc.floor x
        dsimp only at read
        rw [peers] at read
        let seen : Station := { e with
          sru := { e.sru with ring := old ++ [{ r with floor := floor }], arrivals := s.dev.sru.arrivals + 1 } }
        have completed := completeReport_open (d := seen) (old := old) (rep := { r with floor := floor }) rfl open_
        exact ⟨fun more => runs (read.trans (if_neg more)),
          fun ends => runs (read.trans ((if_pos ends).trans completed))⟩
  · intro base
    refine ⟨fun complete => ?_, fun old r ring open_ => ?_⟩
    · exact exec_eq exec_sruLeftUp (congrArg (Station.onSru fun r => { r with notUp := some (s.dev.now + 1000000) })
        (completeReport_none (d := s.dev.take .sruLeftUp) (collecting_of_newest complete)))
    · exact exec_eq exec_sruLeftUp (congrArg (Station.onSru fun r => { r with notUp := some (s.dev.now + 1000000) })
        (completeReport_open (d := s.dev.take .sruLeftUp) ring open_))
end

section
/-! SUPPORT. Requests of the Grate Cooler Controller, the fans, and the stroke rates (R144, R146, R147, R149). -/

set_option Elab.async false

namespace Sys2Proof.Machine

/-! ## Requests -/

section
variable {d : Station} {b : Byte}

theorem coolerRequest_ok (up : d.ppt.started = true) (duty : d.coolerDuty = true) (f : Station → Station) :
    d.coolerRequest f = f d := by
  unfold Station.coolerRequest
  rw [if_neg (by simp [up]), if_neg (by simp [duty])]

theorem compIdx_configured {i : Fin 4} {k : CompCfg} (h : b.toNat = i.val + 1) (cfg : (d.gcc.comps[i]'i.isLt).cfg = some k) :
    d.compIdx b = some (i, k) := by
  have place : b.toNat - 1 = i.val := by omega
  unfold Station.compIdx
  rw [dif_pos (by omega)]
  simp only [place]
  exact (congrArg _ cfg).trans rfl

theorem compIdx_none (h : ∀ i : Fin 4, (d.gcc.comps[i]'i.isLt).cfg ≠ none → b.toNat ≠ i.val + 1) : d.compIdx b = none := by
  by_cases inside : 1 ≤ b.toNat ∧ b.toNat ≤ 4
  · unfold Station.compIdx
    rw [dif_pos inside, Option.map_eq_none_iff]
    by_contra cfg
    exact h ⟨b.toNat - 1, by omega⟩ cfg (by simp only; omega)
  · exact dif_neg inside

variable (up : d.ppt.started = true) (duty : d.coolerDuty = true)
include up duty

theorem compRequest_configured {i : Fin 4} {k : CompCfg} (h : b.toNat = i.val + 1) (cfg : (d.gcc.comps[i]'i.isLt).cfg = some k)
    (f : Fin 4 → CompCfg → Station → Station) : d.compRequest b f = f i k d := by
  unfold Station.compRequest
  rw [coolerRequest_ok up duty, compIdx_configured h cfg]

theorem compRequest_none (h : ∀ i : Fin 4, (d.gcc.comps[i]'i.isLt).cfg ≠ none → b.toNat ≠ i.val + 1)
    (f : Fin 4 → CompCfg → Station → Station) : d.compRequest b f = d.badField := by
  unfold Station.compRequest
  rw [coolerRequest_ok up duty, compIdx_none h]

end

/-! ## Fans -/

/-- What SET FAN does after the checks of its kind (R149). -/
def Station.fanSet (fan : Byte) (reference : Half) (d : Station) : Station :=
  if fan.toNat < 1 || fan.toNat > 4 || reference.toNat > 4080 then d.badField
  else match d.findOut .reference .fan fan.toNat with
    | none => d.badField
    | some l => (d.setPreload l .grateCooler reference.toNat).1.ok

theorem exec_setFan (fan : Byte) (reference : Half) (s : State) :
    exec (.setFan fan reference) s = act (.setFan fan reference) (Station.coolerRequest (Station.fanSet fan reference)) s := rfl

section
variable {d : Station} {b : Byte} {ref : Half}

theorem fanSet_bad (h : 4080 < ref.toNat ∨ b.toNat < 1 ∨ 4 < b.toNat ∨ d.findOut .reference .fan b.toNat = none) :
    d.fanSet b ref = d.badField := by
  unfold Station.fanSet
  by_cases out : (b.toNat < 1 || b.toNat > 4 || ref.toNat > 4080) = true
  · exact if_pos out
  · rw [if_neg out]
    have absent : d.findOut .reference .fan b.toNat = none := by
      simp only [Bool.or_eq_true, decide_eq_true_eq, not_or] at out
      rcases h with h | h | h | h
      · omega
      · omega
      · omega
      · exact h
    rw [absent]

theorem fanSet_found {l : Fin 16} (low : 1 ≤ b.toNat) (high : b.toNat ≤ 4) (small : ref.toNat ≤ 4080)
    (found : d.findOut .reference .fan b.toNat = some l) : d.fanSet b ref = (d.setPreload l .grateCooler ref.toNat).1.ok := by
  unfold Station.fanSet
  rw [if_neg (by simp; omega), found]

end

/-- SET PRELOAD by the owner sets the preload and leaves the other lines (R77). -/
theorem setPreload_line {i : Fin 16} {who : Owner} {d : Station} (kind : (d.dou.lines[i]'i.isLt).kind = .reference)
    (own : (d.dou.lines[i]'i.isLt).owner = who) (value : Nat) :
    ((d.setPreload i who value).1.dou.lines[i]'i.isLt).preload = min 4080 value ∧
    ∀ m : Fin 16, m ≠ i → (d.setPreload i who value).1.dou.lines[m]'m.isLt = d.dou.lines[m]'m.isLt := by
  have line (f : OutLine → OutLine) (told : OutLine → Option Instr) (keeps : ∀ l, (f l).preload = min 4080 value) :
      ((d.onLine i f told).dou.lines[i]'i.isLt).preload = min 4080 value ∧
      ∀ m : Fin 16, m ≠ i → (d.onLine i f told).dou.lines[m]'m.isLt = d.dou.lines[m]'m.isLt :=
    ⟨(congrArg OutLine.preload (vecModify_same _ _ _)).trans (keeps _), fun m ne => vecModify_ne _ _ _ _ _ fun h => ne (Fin.ext h.symm)⟩
  rw [setPreload_onLine kind own value]
  dsimp only
  split
  · exact line _ _ fun l => rfl
  · split
    · exact line _ _ fun l => rfl
    · split
      · exact line _ _ fun l => rfl
      · exact line _ _ fun l => rfl

/-- What a change of a fan's active value does (R149). -/
def Station.fanChange (fan : Fin 4) (value : Nat) (d : Station) : Station :=
  let d := d.onGcc fun g => { g with fans := vecModify g.fans fan fun _ => value }
  if d.gcc.fans.toList.any fun v => v > 0 then
    if d.gcc.fanSecond.isSome then d else d.onGcc fun g => { g with fanSecond := some (d.inSec 1) }
  else d.onGcc fun g => { g with fanSecond := none }

theorem exec_gccFanActiveValueChange (fan : Fin 4) (value : Nat) (cause : ChangeCause) (s : State) :
    exec (.gccFanActiveValueChange fan value cause) s =
      act (.gccFanActiveValueChange fan value cause) (Station.fanChange fan value) s := rfl

theorem inSec_one (d : Station) : d.inSec 1 = d.now + 1000000 := by
  unfold Station.inSec
  rw [Nat.one_mul]
  rfl

theorem any_iff_exists {n : Nat} (v : Vector Nat n) : (v.toList.any fun x => x > 0) = true ↔ ∃ i : Fin n, 0 < v[i]'i.isLt := by
  simp only [List.any_eq_true, Vector.mem_toList_iff, decide_eq_true_eq]
  constructor
  · rintro ⟨x, mem, pos⟩
    obtain ⟨i, hi, rfl⟩ := Vector.mem_iff_getElem.1 mem
    exact ⟨⟨i, hi⟩, pos⟩
  · rintro ⟨i, pos⟩
    exact ⟨v[i]'i.isLt, Vector.getElem_mem _, pos⟩

theorem fanChange_eq (fan : Fin 4) (value : Nat) (d : Station) :
    let fans := vecModify d.gcc.fans fan fun _ => value
    d.fanChange fan value = { d with gcc := { d.gcc with
      fans := fans
      fanSecond := if (∃ i : Fin 4, 0 < fans[i]'i.isLt) then some (d.gcc.fanSecond.getD (d.now + 1000000)) else none } } := by
  intro fans
  unfold Station.fanChange Station.onGcc
  dsimp only
  by_cases turns : ∃ i : Fin 4, 0 < fans[i]'i.isLt
  · rw [if_pos ((any_iff_exists _).2 turns), if_pos turns]
    cases second : d.gcc.fanSecond with
    | none => exact (if_neg (by simp)).trans (by rw [Option.getD_none, ← inSec_one]; rfl)
    | some e => exact if_pos rfl
  · rw [if_neg fun h => turns ((any_iff_exists _).1 h), if_neg turns]

end Sys2Proof.Machine

open Sys2Proof Sys2Proof.Machine in
/-- Settles O45: SET FAN is a preload of the fan's line, and fan seconds run while a fan turns. -/
theorem fansRunAndAreCounted : Obligations.FansRunAndAreCounted := by
  refine ⟨fun b ref s up duty => ?_, fun fan value cause s => ?_, fun s e due => ?_⟩
  · intro cmd
    have request {f : Station → Station} : (s.dev.take cmd).coolerRequest f = f (s.dev.take cmd) :=
      coolerRequest_ok (d := s.dev.take cmd) up duty f
    refine ⟨fun bad => ?_, fun l low high small found => ?_⟩
    · exact exec_eq (exec_setFan b ref) (request.trans (fanSet_bad bad))
    · obtain ⟨c, cfg, kind, fn, -⟩ := findOut_cfg found
      obtain ⟨kindIs, ownerIs⟩ := line_of_cfg cfg
      have own : (s.dev.dou.lines[l]'l.isLt).owner = .grateCooler := by
        rw [ownerIs, kind, fn]
        rfl
      obtain ⟨preload, others⟩ := setPreload_line (d := s.dev.take cmd) (kindIs.trans kind) own ref.toNat
      have command := setPreload_command l .grateCooler ref.toNat (s.dev.take cmd)
      refine Runs.of_act (exec_setFan b ref) ⟨_, ?_, request.trans (fanSet_found low high small found)⟩
      exact ⟨preload.trans (Nat.min_eq_right small), command.lines, others, command.rest⟩
  · intro cmd fans
    exact exec_eq (exec_gccFanActiveValueChange fan value cause) (fanChange_eq fan value (s.dev.take cmd))
  · refine exec_eq (c := .fanRunSecondTimerExpiry) (fun s => show execFanRunSecondTimerExpiry s = _ from rfl) ?_
    exact if_neg (by rw [show (s.dev.take .fanRunSecondTimerExpiry).gcc.fanSecond = some e from due]; nofun)
end

section
/-! SUPPORT. The stroke rates: the host's base rate, the pressures and the rate modes (R146, R147). -/

set_option Elab.async false

namespace Sys2Proof.Machine

/-! ## A compartment changed -/

theorem onComp_congr {i : Fin 4} {d : Station} {f g : Compartment → Compartment} (h : f (d.gcc.comps[i]'i.isLt) = g (d.gcc.comps[i]'i.isLt)) :
    d.onComp i f = d.onComp i g := by
  unfold Station.onComp Station.onGcc
  dsimp only
  rw [vecModify_congr _ _ f g h]

theorem onComp_onComp (i : Fin 4) (f g : Compartment → Compartment) (d : Station) :
    (d.onComp i f).onComp i g = d.onComp i fun c => g (f c) := by
  unfold Station.onComp Station.onGcc
  simp only [vecModify_twice]

theorem onComp_same (i : Fin 4) (f : Compartment → Compartment) (d : Station) :
    (d.onComp i f).gcc.comps[i]'i.isLt = f (d.gcc.comps[i]'i.isLt) := vecModify_same _ _ _

/-- Alarm operations leave the Grate Cooler Controller out, so a change of it may be made before or after them. -/
theorem AlarmsOnly.withGcc {a b : Station} (h : AlarmsOnly a b) (g : Gcc) : AlarmsOnly { a with gcc := g } { b with gcc := g } :=
  ⟨h.signals, h.events, by rw [h.rest]⟩

/-! ## The base rate -/

/-- What SET STROKE BASE does to its compartment (R147). -/
def Station.strokeBaseSet (rate : Half) (i : Fin 4) (k : CompCfg) (d : Station) : Station :=
  if rate.toNat < k.minRate || rate.toNat > k.maxRate then d.badField
  else
    (d.onComp i fun c =>
      { c with baseRate := rate.toNat
               preload := if c.mode = .minimum then c.preload
                 else { c with baseRate := rate.toNat }.freshPreload k }).ok

theorem exec_setStrokeBase (b : Byte) (rate : Half) (s : State) : exec (.setStrokeBase b rate) s =
    act (.setStrokeBase b rate) (Station.compRequest b (Station.strokeBaseSet rate)) s := rfl

/-- The base rate set, as its effect on the preload of each rate mode (R147). -/
theorem Compartment.strokeBase_eq (base : Nat) (k : CompCfg) (c : Compartment) :
    { c with
      baseRate := base
      preload := if c.mode = .minimum then c.preload else { c with baseRate := base }.freshPreload k } =
    { c with
      baseRate := base
      preload := match c.mode with
        | .minimum => c.preload
        | .base => base
        | .follow => if c.pressureValid then { c with baseRate := base }.followRate k else base } := by
  unfold Compartment.freshPreload
  cases c.mode <;> rfl

/-! ## Pressures -/

/-- A pressure taken, handed on and followed (R146). -/
def Station.pressureTaken (i : Fin 4) (k : CompCfg) (p : Nat) (d : Station) : Station :=
  ((d.onComp i fun c => { c with pressure := p, pressureValid := true }).handPressure (i.val + 1) (some p)).onComp
    i fun c => if c.mode = .follow then { c with preload := c.followRate k } else c

/-- A pressure lost, handed on and left (R146). -/
def Station.pressureLost (i : Fin 4) (d : Station) : Station :=
  ((d.onComp i fun c => { c with pressureValid := false }).handPressure (i.val + 1) none).onComp i fun c =>
    if c.mode = .follow then { c with preload := c.baseRate } else c

/-- What a pressure capture does (R146). -/
def Station.pressureCapture (i : Fin 4) (period : Nat) (tb : Timebase) (d : Station) : Station :=
  match (d.gcc.comps[i]'i.isLt).cfg with
  | none => d
  | some k =>
    match pressureOf k period tb with
    | none => d
    | some p => d.pressureTaken i k p

theorem exec_gccPressureCapture (i : Fin 4) (period width : Nat) (tb : Timebase) (s : State) :
    exec (.gccPressureCapture i period width tb) s =
      act (.gccPressureCapture i period width tb) (Station.pressureCapture i period tb) s := rfl

/-- What a loss of the pressure does (R146). -/
def Station.pressureNoSignal (i : Fin 4) (d : Station) : Station :=
  match (d.gcc.comps[i]'i.isLt).cfg with
  | none => d
  | some _ => d.pressureLost i

theorem exec_gccPressureNoSignal (i : Fin 4) (s : State) :
    exec (.gccPressureNoSignal i) s = act (.gccPressureNoSignal i) (Station.pressureNoSignal i) s := rfl

/-- A compartment changed again. -/
theorem onComp_again {x d : Station} {i : Fin 4} {f : Compartment → Compartment} (g : Compartment → Compartment)
    (grate : x.gcc = (d.onComp i f).gcc) :
    x.onComp i g = { x with gcc := { d.gcc with comps := vecModify d.gcc.comps i fun c => g (f c) } } := by
  unfold Station.onComp Station.onGcc at *
  dsimp only at *
  rw [grate, vecModify_twice]

/-- A compartment changed, a pressure handed on, and the compartment changed again. -/
theorem handed_between {i : Fin 4} {f g h : Compartment → Compartment} {pressure : Option Nat} {d : Station}
    (same : g (f (d.gcc.comps[i]'i.isLt)) = h (d.gcc.comps[i]'i.isLt)) :
    let after := { d.gcc with comps := vecModify d.gcc.comps i h }
    let b := ((d.onComp i f).handPressure (i.val + 1) pressure).onComp i g
    AlarmsOnly { d with gcc := after } b ∧
      ∃ x, PressureHanded (i.val + 1) pressure { d with gcc := { d.gcc with comps := vecModify d.gcc.comps i f } } x ∧
        b = { x with gcc := after } := by
  have only : AlarmsOnly (d.onComp i f) ((d.onComp i f).handPressure (i.val + 1) pressure) :=
    ((MovesPoints.refl _).handPressure _ _).only
  have handed : PressureHanded (i.val + 1) pressure (d.onComp i f) ((d.onComp i f).handPressure (i.val + 1) pressure) :=
    handPressure_handed _ _ _
  generalize (d.onComp i f).handPressure (i.val + 1) pressure = x at only handed
  have whole := onComp_again g only.gcc
  rw [vecModify_congr d.gcc.comps i (fun c => g (f c)) h same] at whole
  refine ⟨?_, x, handed, whole⟩
  dsimp only
  rw [whole]
  exact only.withGcc _

theorem pressureCapture_zero {period : Nat} (zero : period = 0) (i : Fin 4) (tb : Timebase) (d : Station) :
    d.pressureCapture i period tb = d := by
  subst zero
  unfold Station.pressureCapture
  cases (d.gcc.comps[i]'i.isLt).cfg <;> rfl

theorem pressureCapture_configured {i : Fin 4} {k : CompCfg} {period : Nat} {d : Station} (tb : Timebase)
    (cfg : (d.gcc.comps[i]'i.isLt).cfg = some k) (some : period ≠ 0) :
    d.pressureCapture i period tb =
      d.pressureTaken i k (clamp 0 30000 (((1000000 / (period * tbMicros tb) : Nat) - (k.f0 : Int)) * k.scale)) := by
  unfold Station.pressureCapture pressureOf
  simp only [cfg, if_neg some]

theorem pressureNoSignal_configured {i : Fin 4} {k : CompCfg} {d : Station} (cfg : (d.gcc.comps[i]'i.isLt).cfg = some k) :
    d.pressureNoSignal i = d.pressureLost i := by
  unfold Station.pressureNoSignal
  rw [cfg]

/-- A compartment changed where it is in FOLLOW, as a change of its preload. -/
theorem Compartment.followed_eq (preload : Nat) (c : Compartment) :
    (if c.mode = .follow then { c with preload := preload } else c) =
      { c with preload := if c.mode = .follow then preload else c.preload } := by
  split <;> rfl

/-! ## Rate modes -/

/-- One change of each compartment in turn. -/
theorem foldl_onComp {f : Fin 4 → Compartment → Compartment} {F : Fin 4 → Station → Station} (d : Station)
    (step : ∀ i e, e = { d with gcc := { d.gcc with comps := e.gcc.comps } } → F i e = e.onComp i (f i)) (l : List (Fin 4))
    (nd : l.Nodup) (e : Station) (same : e = { d with gcc := { d.gcc with comps := e.gcc.comps } }) :
    let b := l.foldl (fun d i => F i d) e
    b = { d with gcc := { d.gcc with comps := b.gcc.comps } } ∧
    ∀ i : Fin 4, b.gcc.comps[i]'i.isLt = if i ∈ l then f i (e.gcc.comps[i]'i.isLt) else (e.gcc.comps[i]'i.isLt) := by
  induction l generalizing e with
  | nil => exact ⟨same, fun i => rfl⟩
  | cons j l ih =>
    obtain ⟨fresh, rest⟩ := List.nodup_cons.1 nd
    dsimp only
    rw [List.foldl_cons, step j e same]
    have next : e.onComp j (f j) = { d with gcc := { d.gcc with comps := (e.onComp j (f j)).gcc.comps } } :=
      congrArg (fun x => x.onComp j (f j)) same
    obtain ⟨whole, comps⟩ := ih rest (e.onComp j (f j)) next
    refine ⟨whole, fun i => (comps i).trans ?_⟩
    by_cases here : i = j
    · subst here
      rw [if_neg fresh, if_pos (List.mem_cons_self ..)]
      exact onComp_same ..
    · have other : (e.onComp j (f j)).gcc.comps[i]'i.isLt = e.gcc.comps[i]'i.isLt :=
        vecModify_ne _ _ _ _ _ fun h => here (Fin.ext h.symm)
      rw [other]
      simp only [List.mem_cons, here, false_or]

theorem exec_gccFloorRefresh (s : State) : exec .gccFloorRefresh s = act .gccFloorRefresh (forAll Station.judgeMode) s := rfl

/-- A compartment as a rate mode that is judged leaves it (R147). -/
def Compartment.modeJudged (m : RateMode) (c : Compartment) : Compartment :=
  match c.cfg with
  | none => c
  | some k => if m = c.mode then c else { c with mode := m, preload := { c with mode := m }.freshPreload k }

theorem judgeMode_eq (i : Fin 4) (d : Station) : d.judgeMode i = d.onComp i (Compartment.modeJudged (d.rateMode i)) := by
  have kept (h : (d.gcc.comps[i]'i.isLt).modeJudged (d.rateMode i) = d.gcc.comps[i]'i.isLt) :
      d = d.onComp i (Compartment.modeJudged (d.rateMode i)) := by
    unfold Station.onComp Station.onGcc
    dsimp only
    rw [vecModify_id _ _ _ h]
  unfold Station.judgeMode
  cases cfg : (d.gcc.comps[i]'i.isLt).cfg with
  | none => exact kept (by unfold Compartment.modeJudged; rw [cfg])
  | some k =>
    dsimp only
    by_cases same : d.rateMode i = (d.gcc.comps[i]'i.isLt).mode
    · rw [if_pos same]
      exact kept (by unfold Compartment.modeJudged; rw [cfg]; exact if_pos same)
    · rw [if_neg same]
      exact onComp_congr (by unfold Compartment.modeJudged; rw [cfg]; exact (if_neg same).symm)

/-- A rate mode that is judged, as its effect on the preload of each rate mode (R147). -/
theorem Compartment.modeJudged_eq {c : Compartment} {k : CompCfg} (m : RateMode) (cfg : c.cfg = some k) :
    c.modeJudged m = if m = c.mode then c else { c with
      mode := m
      preload := match m with
        | .minimum => k.minRate
        | .base => c.baseRate
        | .follow => if c.pressureValid then c.followRate k else c.baseRate } := by
  unfold Compartment.modeJudged
  rw [cfg]
  cases m <;> rfl

/-- The rate mode of a compartment (R147). -/
theorem rateMode_eq (d : Station) (i : Fin 4) :
    d.rateMode i = if d.alight .a = false then .minimum
      else if (d.findChannel .pressure (i.val + 1)).isSome then .follow else .base := by
  unfold Station.rateMode Station.hasPressure
  cases d.alight .a <;> rfl

theorem judgeModes_eq (d : Station) :
    let b := forAll Station.judgeMode d
    b = { d with gcc := { d.gcc with comps := b.gcc.comps } } ∧
    ∀ i : Fin 4, b.gcc.comps[i]'i.isLt = (d.gcc.comps[i]'i.isLt).modeJudged (d.rateMode i) := by
  obtain ⟨whole, comps⟩ := foldl_onComp (F := Station.judgeMode) (f := fun i => Compartment.modeJudged (d.rateMode i)) d
    (fun i e same => by
      have mode : e.rateMode i = d.rateMode i := by rw [same]; rfl
      rw [judgeMode_eq, mode]) (List.finRange 4) (List.nodup_finRange 4) d rfl
  exact ⟨whole, fun i => (comps i).trans (if_pos (List.mem_finRange i))⟩

end Sys2Proof.Machine

open Sys2Proof Sys2Proof.Machine in
/-- Settles O44: the rates follow the host, the pressure and the mode, each a change of its compartment. -/
theorem strokeRatesFollowPressureAndMode : Obligations.StrokeRatesFollowPressureAndMode := by
  refine ⟨fun b rate s up duty none => exec_eq (exec_setStrokeBase b rate) (compRequest_none (d := s.dev.take _) up duty none _), ?_⟩
  intro i s k cfg c follow comps
  refine ⟨fun b rate place up duty => ?_, fun period width tb => ?_, ?_, ?_⟩
  · intro cmd
    have request : (s.dev.take cmd).compRequest b (Station.strokeBaseSet rate) = (s.dev.take cmd).strokeBaseSet rate i k :=
      compRequest_configured (d := s.dev.take cmd) up duty place cfg _
    refine ⟨fun out => exec_eq (exec_setStrokeBase b rate) (request.trans (if_pos ?_)),
      fun low high => exec_eq (exec_setStrokeBase b rate) (request.trans ((if_neg ?_).trans (congrArg Station.ok (onComp_congr ?_))))⟩
    · simpa using out
    · simpa using ⟨low, high⟩
    · exact Compartment.strokeBase_eq rate.toNat k c
  · intro cmd us pressure
    refine ⟨fun none => ?_, ?_⟩
    · refine exec_eq (d := s.dev.take cmd) (exec_gccPressureCapture i period width tb) ?_
      exact pressureCapture_zero none i tb _
    · intro after some
      refine Runs.of_act (exec_gccPressureCapture i period width tb) ?_
      rw [pressureCapture_configured (d := s.dev.take cmd) tb cfg some]
      exact handed_between (Compartment.followed_eq _ _)
  · intro cmd after
    refine Runs.of_act (exec_gccPressureNoSignal i) ?_
    rw [pressureNoSignal_configured (d := s.dev.take cmd) cfg]
    exact handed_between (Compartment.followed_eq _ _)
  · obtain ⟨whole, judged⟩ := judgeModes_eq (s.dev.take .gccFloorRefresh)
    refine Runs.of_act exec_gccFloorRefresh ⟨whole, ?_⟩
    intro mode
    rw [judged i]
    have same : (s.dev.take .gccFloorRefresh).rateMode i = mode := rateMode_eq ..
    rw [same]
    exact Compartment.modeJudged_eq mode cfg
end

section
/-! SUPPORT. The stroke of a compartment and the requests that start and stop it (R137, R138, R144, R145). -/

set_option Elab.async false

namespace Sys2Proof.Machine

/-! ## Stroke lines -/

/-- The two stroke lines of a compartment, one and the other. -/
def strokePair (k o : OutKind) : Prop := (k = .strokeForward ∧ o = .strokeReturn) ∨ (k = .strokeReturn ∧ o = .strokeForward)

theorem bne_eq_decide {n : Nat} (i : Fin n) : (· != i) = fun j => decide (j ≠ i) := by
  funext j
  rw [Bool.eq_iff_iff]
  simp

theorem strokePair.kind {k o : OutKind} (h : strokePair k o) : k = .strokeForward ∨ k = .strokeReturn := h.imp And.left And.left

section
variable {k o : OutKind} {i : Fin 4} {l : Fin 16} {d : Station}

theorem strokePartner_eq (pair : strokePair k o) (found : d.findOut k .compartment (i.val + 1) = some l) :
    d.strokePartner (d.dou.lines[l]'l.isLt) = d.findOut o .compartment (i.val + 1) := by
  obtain ⟨c, cfg, kind, fn, inst⟩ := findOut_cfg found
  have number : c.inst = i.val + 1 := inst.resolve_right (by rintro (h | h | h) <;> cases h)
  unfold Station.strokePartner
  rw [cfg]
  rcases pair with ⟨rfl, rfl⟩ | ⟨rfl, rfl⟩ <;> simp [kind, number]

/-- A line that stands ready is turned on (R85). -/
theorem strokeOn_ready (pair : strokePair k o) (ready : lineReady k o i l d) :
    d.strokeOn k i = (d.onOut l fun x => { x with on := true, pin := true }, .done) := by
  obtain ⟨found, free, off⟩ := ready
  obtain ⟨level, own⟩ := KeepsComp.strokeLine pair.kind found
  have partner : ¬ d.partnerOn (d.dou.lines[l]'l.isLt) = true := by
    unfold Station.partnerOn
    rw [strokePartner_eq pair found]
    cases other : d.findOut o .compartment (i.val + 1) with
    | none => nofun
    | some m => simpa using off m other
  unfold Station.strokeOn
  rw [found]
  dsimp only
  rw [lineOn_owned level own, if_neg (by simpa using free), if_neg partner]

/-- A LINE ON of a forced line is held off (R85). -/
theorem strokeOn_forced (kind : k = .strokeForward ∨ k = .strokeReturn) (found : d.findOut k .compartment (i.val + 1) = some l)
    (forced : (d.dou.lines[l]'l.isLt).forced = true) : d.strokeOn k i = (d, .heldOff) := by
  obtain ⟨level, own⟩ := KeepsComp.strokeLine kind found
  unfold Station.strokeOn
  rw [found]
  dsimp only
  rw [lineOn_owned level own, if_pos forced]

end

/-! ## The grant -/

section
variable {d : Station} (n : Nat)

theorem passGrant_held (held : d.gcc.holder ≠ none) : d.passGrant n = d := by
  cases n with
  | zero => rfl
  | succ n =>
    unfold Station.passGrant
    split
    · next free _ => exact (held free).elim
    · rfl

theorem passGrant_unasked (unasked : d.gcc.queue = []) : d.passGrant n = d := by
  cases n with
  | zero => rfl
  | succ n =>
    unfold Station.passGrant
    split
    · next asked => rw [unasked] at asked; cases asked
    · rfl

/-- A compartment that gets the grant, up to its LINE ON (R138). -/
def Station.granted (i : Fin 4) (rest : List (Fin 4)) (k : CompCfg) (d : Station) : Station :=
  (d.onGcc fun g => { g with holder := some i, queue := rest }).beginForward i k

theorem passGrant_head {i : Fin 4} {rest : List (Fin 4)} {k : CompCfg} (free : d.gcc.holder = none) (asked : d.gcc.queue = i :: rest)
    (cfg : (d.gcc.comps[i]'i.isLt).cfg = some k) : d.passGrant (n + 1) =
      match (d.granted i rest k).strokeOn .strokeForward i with
      | (d, .heldOff) => Station.passGrant n (d.faultComp .estop i)
      | (d, .done) => (d.contribute (.stroke i)).stageCooler
      | (d, .refused) => d.stageCooler := by
  rw [Station.passGrant]
  rw [free, asked]
  dsimp only
  rw [cfg] <;> rfl

/-- The grant of a compartment whose forward line stands ready (R138). -/
theorem passGrant_ready {i : Fin 4} {l : Fin 16} {rest : List (Fin 4)} {k : CompCfg} (free : d.gcc.holder = none)
    (asked : d.gcc.queue = i :: rest) (cfg : (d.gcc.comps[i]'i.isLt).cfg = some k) (ready : lineReady .strokeForward .strokeReturn i l d) :
    d.passGrant (n + 1) =
      (((d.granted i rest k).onOut l fun x => { x with on := true, pin := true }).contribute (.stroke i)).stageCooler := by
  have on : (d.granted i rest k).strokeOn .strokeForward i = _ := strokeOn_ready (d := d.granted i rest k) (.inl ⟨rfl, rfl⟩) ready
  rw [passGrant_head n free asked cfg, on]

/-- The grant of a compartment whose forward line is held off (R142, R145). -/
theorem passGrant_forced {i : Fin 4} {l : Fin 16} {rest : List (Fin 4)} {k : CompCfg} (free : d.gcc.holder = none)
    (asked : d.gcc.queue = i :: rest) (cfg : (d.gcc.comps[i]'i.isLt).cfg = some k)
    (found : d.findOut .strokeForward .compartment (i.val + 1) = some l) (forced : (d.dou.lines[l]'l.isLt).forced = true) :
    d.passGrant (n + 1) = ((d.granted i rest k).faultComp .estop i).passGrant n := by
  have on : (d.granted i rest k).strokeOn .strokeForward i = _ := strokeOn_forced (d := d.granted i rest k) (.inl rfl) found forced
  rw [passGrant_head n free asked cfg, on]

end

/-! ## Waiting -/

/-- A compartment in WAITING, and in the queue at its place (R137, R145). -/
def Station.queued (i : Fin 4) (d : Station) : Station :=
  (d.onComp i fun c => { c with state := .waiting }).onGcc fun g => { g with queue := g.insert i }

theorem wait_eq (i : Fin 4) (d : Station) : d.wait i = ((d.queued i).passGrant 5).stageCooler := rfl

theorem rest_due {i : Fin 4} {d : Station} (due : ((d.gcc.comps[i]'i.isLt).due).getD 0 ≤ d.now) : d.rest i = d.wait i := by
  have whole : (d.onComp i fun c => { c with state := .rest }).wait i = d.wait i := by
    rw [wait_eq, wait_eq]
    unfold Station.queued
    rw [onComp_onComp]
  have same : (((d.onComp i fun c => { c with state := .rest }).gcc.comps[i]'i.isLt).due).getD 0 = ((d.gcc.comps[i]'i.isLt).due).getD 0 := by
    rw [onComp_same]
  unfold Station.rest
  dsimp only
  rw [if_pos (by rw [same]; exact due), whole]

theorem rest_early {i : Fin 4} {d : Station} (due : d.now < ((d.gcc.comps[i]'i.isLt).due).getD 0) :
    d.rest i = (d.onComp i fun c => { c with state := .rest }).stageCooler := by
  have same : (((d.onComp i fun c => { c with state := .rest }).gcc.comps[i]'i.isLt).due).getD 0 = ((d.gcc.comps[i]'i.isLt).due).getD 0 := by
    rw [onComp_same]
  unfold Station.rest
  dsimp only
  rw [if_neg (by rw [same]; exact Nat.not_le.2 due)]

/-- The queue as an entry to WAITING leaves it: by due time, then number (R145). -/
theorem queued_queue (i : Fin 4) (d : Station) :
    let due := fun j : Fin 4 => ((d.gcc.comps[j]'j.isLt).due).getD 0
    let others := d.gcc.queue.filter fun j => j ≠ i
    (d.queued i).gcc.queue = (others.filter fun j => due j < due i ∨ (due j = due i ∧ j < i)) ++
      i :: others.filter fun j => ¬ (due j < due i ∨ (due j = due i ∧ j < i)) := by
  intro due others
  have dues (j : Fin 4) : (((d.onComp i fun c => { c with state := .waiting }).gcc.comps[j]'j.isLt).due).getD 0 = due j := by
    by_cases here : i = j
    · subst here
      rw [onComp_same]
    · exact congrArg (fun c : Compartment => c.due.getD 0) (vecModify_ne _ _ _ _ _ fun h => here (Fin.ext h))
  have before (j : Fin 4) : (d.onComp i fun c => { c with state := .waiting }).gcc.before j i =
      decide (due j < due i ∨ (due j = due i ∧ j < i)) := by
    unfold Gcc.before
    dsimp only
    rw [dues, dues, Bool.eq_iff_iff]
    simp
  show (d.onComp i fun c => { c with state := .waiting }).gcc.insert i = _
  unfold Gcc.insert
  simp only [before, ← decide_not, bne_eq_decide]
  rfl

theorem wait_waits {i : Fin 4} {d : Station} (held : d.gcc.holder ≠ none) : Waits i d (d.wait i) := by
  have whole : d.wait i = (d.queued i).stageCooler := by rw [wait_eq, passGrant_held 5 (d := d.queued i) held]
  rw [whole, stageCooler_rest]
  exact ⟨rfl, queued_queue i d, rfl, rfl⟩

/-- A compartment alone in the queue. -/
theorem queued_alone {i : Fin 4} {d : Station} (unasked : d.gcc.queue = []) : (d.queued i).gcc.queue = [i] := by
  rw [queued_queue, unasked]
  rfl

theorem stageCooler_twice (d : Station) : d.stageCooler.stageCooler = d.stageCooler := by
  rw [stageCooler_rest d.stageCooler]
  have staged := stageCooler_staged d
  generalize d.stageCooler = x at staged
  cases on : x.coolerDuty
  · rfl
  · rw [if_pos rfl, ← staged on]

/-- A stroke begun from the cooler's record alone. -/
theorem begun_eq (i : Fin 4) (l : Fin 16) (f : OutLine → OutLine) (g : Gcc) (d : Station) :
    ((Station.onOut l f { d with gcc := g }).contribute (.stroke i)).stageCooler =
      { d with
        gcc := g
        dou := { d.dou with lines := vecModify d.dou.lines l f }
        signals := d.signals ++ [.sruContribution (.stroke i)]
        lpc := { d.lpc with staging := { d.lpc.staging with
          cooler := if d.coolerDuty then some g.part else d.lpc.staging.cooler } } } :=
  stageCooler_rest _

theorem wait_strokes {i : Fin 4} {l : Fin 16} {k : CompCfg} {d : Station} (cfg : (d.gcc.comps[i]'i.isLt).cfg = some k)
    (free : d.gcc.holder = none) (unasked : d.gcc.queue = []) (ready : lineReady .strokeForward .strokeReturn i l d) :
    Strokes i k l d (d.wait i) := by
  have config : ((d.queued i).gcc.comps[i]'i.isLt).cfg = some k :=
    (congrArg Compartment.cfg (onComp_same i (fun c => { c with state := .waiting }) d)).trans cfg
  have begun := (congrArg Station.stageCooler
    (passGrant_ready 4 (d := d.queued i) free (queued_alone unasked) config ready)).trans (stageCooler_twice _)
  have whole := begun.trans (begun_eq i l _ ((d.queued i).granted i [] k).gcc d)
  rw [wait_eq, whole]
  refine ⟨?_, ⟨rfl, rfl⟩, rfl, rfl⟩
  exact vecModify_twice d.gcc.comps i (fun c => { c with state := .waiting }) fun c => { c with
    shadow := c.preload, due := some (d.now + 600000 / c.preload * 1000), state := .forward
    timer := some (.forwardLimit, d.now + k.forwardLimit * 1000) }

end Sys2Proof.Machine
end

section
/-! SUPPORT. The requests that start, stop and clear a compartment (R144). -/

set_option Elab.async false

namespace Sys2Proof.Machine

/-- What COOLER ENABLE does to its compartment (R144). -/
def Station.compEnable (i : Fin 4) (d : Station) : Station :=
  let c := d.gcc.comps[i]'i.isLt
  if c.state = .stopped then
    if d.lineActive .estop then d.refuse .estop
    else ((d.onComp i fun c => { c with due := some d.now }).rest i).ok
  else if c.state.inStroke && c.stopAtEnd then (d.onComp i fun c => { c with stopAtEnd := false }).ok
  else d.wrongState

/-- What COOLER DISABLE does to its compartment (R144). -/
def Station.compDisable (i : Fin 4) (d : Station) : Station :=
  match (d.gcc.comps[i]'i.isLt).state with
  | .stopped => d.ok
  | .rest => ((d.onComp i fun c => { c with state := .stopped, due := none }).stageCooler).ok
  | .waiting =>
    (((d.onComp i fun c => { c with state := .stopped }).onGcc fun g =>
      { g with queue := g.queue.filter (· != i) }).stageCooler).ok
  | .fault => d.wrongState
  | _ => (d.onComp i fun c => { c with stopAtEnd := true }).ok

/-- A compartment's fault cleared (R143). -/
def Station.compCleared (i : Fin 4) (d : Station) : Station :=
  (((d.onComp i fun c => { c with state := .stopped, cause := .none }).reportTimeout i false).reportConflict i false).stageCooler

/-- What GRATE CLEAR FAULT does to its compartment (R143). -/
def Station.compClear (i : Fin 4) (d : Station) : Station :=
  let c := d.gcc.comps[i]'i.isLt
  if c.state ≠ .fault then d.wrongState
  else if d.lineActive .estop then d.refuse .estop
  else if c.endForward && c.endReturn then d.refuse .limitConflict
  else (d.compCleared i).ok

theorem exec_coolerEnable (b : Byte) (s : State) : exec (.coolerEnable b) s =
    act (.coolerEnable b) (Station.compRequest b fun i _ => Station.compEnable i) s := rfl

theorem exec_coolerDisable (b : Byte) (s : State) : exec (.coolerDisable b) s =
    act (.coolerDisable b) (Station.compRequest b fun i _ => Station.compDisable i) s := rfl

theorem exec_grateClearFault (b : Byte) (s : State) : exec (.grateClearFault b) s =
    act (.grateClearFault b) (Station.compRequest b fun i _ => Station.compClear i) s := rfl

theorem inStroke_iff (st : CompState) : st.inStroke = true ↔ st = .forward ∨ st = .dwell ∨ st = .returning := by
  cases st <;> decide

/-- The staged cooler part where the cooler duty is configured (R148). -/
theorem stageCooler_duty {d : Station} (duty : d.coolerDuty = true) : d.stageCooler = { d with
    lpc := { d.lpc with staging := { d.lpc.staging with cooler := some d.gcc.part } } } :=
  if_pos duty

section
variable {i : Fin 4} {d : Station}

theorem compEnable_estop (stopped : (d.gcc.comps[i]'i.isLt).state = .stopped) (estop : d.lineActive .estop = true) :
    d.compEnable i = d.refuse .estop :=
  (if_pos stopped).trans (if_pos estop)

theorem compEnable_stopped (stopped : (d.gcc.comps[i]'i.isLt).state = .stopped) (estop : d.lineActive .estop = false) :
    d.compEnable i = ((d.onComp i fun c => { c with due := some d.now }).wait i).ok := by
  have due : (((d.onComp i fun c => { c with due := some d.now }).gcc.comps[i]'i.isLt).due).getD 0 ≤ d.now := by
    rw [onComp_same]
    exact Nat.le_refl _
  exact ((if_pos stopped).trans (if_neg (by simp [estop]))).trans (congrArg Station.ok (rest_due due))

theorem compEnable_inStroke
    (stroke : (d.gcc.comps[i]'i.isLt).state = .forward ∨ (d.gcc.comps[i]'i.isLt).state = .dwell ∨ (d.gcc.comps[i]'i.isLt).state = .returning)
    (ending : (d.gcc.comps[i]'i.isLt).stopAtEnd = true) : d.compEnable i = (d.onComp i fun c => { c with stopAtEnd := false }).ok := by
  have moving : (d.gcc.comps[i]'i.isLt).state ≠ .stopped := by rcases stroke with h | h | h <;> rw [h] <;> nofun
  exact (if_neg moving).trans (if_pos (by simpa using ⟨(inStroke_iff _).2 stroke, ending⟩))

theorem compEnable_wrong (running : (d.gcc.comps[i]'i.isLt).state ≠ .stopped)
    (other : ¬ (((d.gcc.comps[i]'i.isLt).state = .forward ∨ (d.gcc.comps[i]'i.isLt).state = .dwell ∨ (d.gcc.comps[i]'i.isLt).state = .returning) ∧
      (d.gcc.comps[i]'i.isLt).stopAtEnd = true)) : d.compEnable i = d.wrongState := by
  refine (if_neg running).trans (if_neg ?_)
  rw [Bool.and_eq_true, inStroke_iff]
  exact other

theorem compDisable_stopped (stopped : (d.gcc.comps[i]'i.isLt).state = .stopped) : d.compDisable i = d.ok := by
  unfold Station.compDisable
  rw [stopped]

theorem compDisable_fault (fault : (d.gcc.comps[i]'i.isLt).state = .fault) : d.compDisable i = d.wrongState := by
  unfold Station.compDisable
  rw [fault]

theorem compDisable_rest (rest : (d.gcc.comps[i]'i.isLt).state = .rest) :
    d.compDisable i = ((d.onComp i fun c => { c with state := .stopped, due := none }).stageCooler).ok := by
  unfold Station.compDisable
  rw [rest]

theorem compDisable_waiting (waiting : (d.gcc.comps[i]'i.isLt).state = .waiting) :
    d.compDisable i = (((d.onComp i fun c => { c with state := .stopped }).onGcc fun g =>
      { g with queue := g.queue.filter fun j => j ≠ i }).stageCooler).ok := by
  unfold Station.compDisable
  rw [waiting, ← bne_eq_decide]

theorem compDisable_inStroke
    (stroke : (d.gcc.comps[i]'i.isLt).state = .forward ∨ (d.gcc.comps[i]'i.isLt).state = .dwell ∨ (d.gcc.comps[i]'i.isLt).state = .returning) :
    d.compDisable i = (d.onComp i fun c => { c with stopAtEnd := true }).ok := by
  unfold Station.compDisable
  rcases stroke with h | h | h <;> rw [h]

theorem compClear_estop (fault : (d.gcc.comps[i]'i.isLt).state = .fault) (estop : d.lineActive .estop = true) :
    d.compClear i = d.refuse .estop :=
  (if_neg (not_not.2 fault)).trans (if_pos estop)

theorem compClear_conflict (fault : (d.gcc.comps[i]'i.isLt).state = .fault) (estop : d.lineActive .estop = false)
    (ends : (d.gcc.comps[i]'i.isLt).endForward = true ∧ (d.gcc.comps[i]'i.isLt).endReturn = true) : d.compClear i = d.refuse .limitConflict :=
  (if_neg (not_not.2 fault)).trans ((if_neg (by simp [estop])).trans (if_pos (by simpa using ends)))

theorem compClear_cleared (fault : (d.gcc.comps[i]'i.isLt).state = .fault) (estop : d.lineActive .estop = false)
    (ends : ¬ ((d.gcc.comps[i]'i.isLt).endForward = true ∧ (d.gcc.comps[i]'i.isLt).endReturn = true)) : d.compClear i = (d.compCleared i).ok :=
  (if_neg (not_not.2 fault)).trans ((if_neg (by simp [estop])).trans (if_neg (by simpa using ends)))

/-- A fault cleared: the compartment stopped, its conditions absent, and the part staged (R143, R148). -/
theorem compCleared_spec (duty : d.coolerDuty = true) :
    let x := d.compCleared i
    x.gcc = (d.onComp i fun c => { c with state := .stopped, cause := .none }).gcc ∧
    x.condition .grateStrokeTimeout (i.val + 1) = false ∧ x.condition .limitConflict (i.val + 1) = false ∧
    x.lpc.staging.cooler = some x.gcc.part ∧ x.dou = d.dou ∧ GrateOnly d x := by
  let clear := d.onComp i fun c => { c with state := .stopped, cause := .none }
  let early := clear.reportTimeout i false
  let told := early.reportConflict i false
  have only : AlarmsOnly clear told := (report_only ..).trans (report_only ..)
  have timeout : told.condition .grateStrokeTimeout (i.val + 1) = false :=
    (report_other .limitConflict (i.val + 1) false early _ _ (by rintro ⟨h, -⟩; cases h)).trans
      (report_condition .grateStrokeTimeout (i.val + 1) false clear)
  have conflict : told.condition .limitConflict (i.val + 1) = false :=
    report_condition .limitConflict (i.val + 1) false early
  have told_duty : told.coolerDuty = true := by
    rw [only.rest]
    exact duty
  have whole : d.compCleared i = _ := stageCooler_duty told_duty
  have grate : GrateOnly d (d.compCleared i) := (((GrateOnly.refl d).onComp i _).alarms only).stageCooler
  intro x
  refine ⟨?_, ?_, ?_, ?_, ?_, grate⟩
  · rw [show x = _ from whole]
    exact only.gcc
  · rw [show x = _ from whole]
    exact timeout
  · rw [show x = _ from whole]
    exact conflict
  · rw [show x = _ from whole]
  · rw [show x = _ from whole]
    exact only.dou

end

end Sys2Proof.Machine

open Sys2Proof Sys2Proof.Machine in
/-- Settles O41: each request by the state of its compartment. -/
theorem coolerRequestsStartAndStopCompartments : Obligations.CoolerRequestsStartAndStopCompartments := by
  intro b s up duty after enable disable clear
  refine ⟨fun absent cmd mem => ?_, ?_⟩
  · have bad {c : Instr} (f : Fin 4 → CompCfg → Station → Station) : (s.dev.take c).compRequest b f = (s.dev.take c).badField :=
      compRequest_none (d := s.dev.take c) up duty absent f
    simp only [List.mem_cons, List.not_mem_nil, or_false] at mem
    rcases mem with rfl | rfl | rfl
    · exact exec_eq (exec_coolerEnable b) (bad _)
    · exact exec_eq (exec_coolerDisable b) (bad _)
    · exact exec_eq (exec_grateClearFault b) (bad _)
  · intro i k place cfg c estop inStroke change stopped
    have enables {d : Station} (h : (s.dev.take enable).compEnable i = d) :
        (s.dev.take enable).compRequest b (fun i _ => Station.compEnable i) = d :=
      (compRequest_configured (d := s.dev.take enable) up duty place cfg _).trans h
    have disables {d : Station} (h : (s.dev.take disable).compDisable i = d) :
        (s.dev.take disable).compRequest b (fun i _ => Station.compDisable i) = d :=
      (compRequest_configured (d := s.dev.take disable) up duty place cfg _).trans h
    have clears {d : Station} (h : (s.dev.take clear).compClear i = d) :
        (s.dev.take clear).compRequest b (fun i _ => Station.compClear i) = d :=
      (compRequest_configured (d := s.dev.take clear) up duty place cfg _).trans h
    have config : ((change enable fun c => { c with due := some s.dev.now }).gcc.comps[i]'i.isLt).cfg = some k :=
      (congrArg Compartment.cfg (onComp_same i (fun c => { c with due := some s.dev.now }) (s.dev.take enable))).trans cfg
    refine ⟨fun st act => exec_eq (exec_coolerEnable b) (enables (compEnable_estop (d := s.dev.take enable) st act)),
      fun st quiet held => Runs.of_act (exec_coolerEnable b) ⟨_, ?_, enables (compEnable_stopped (d := s.dev.take enable) st quiet)⟩,
      fun l st quiet free unasked ready =>
        Runs.of_act (exec_coolerEnable b) ⟨_, ?_, enables (compEnable_stopped (d := s.dev.take enable) st quiet)⟩,
      fun stroke ending => exec_eq (exec_coolerEnable b) (enables (compEnable_inStroke (d := s.dev.take enable) stroke ending)),
      fun st other => exec_eq (exec_coolerEnable b) (enables (compEnable_wrong (d := s.dev.take enable) st other)),
      fun st => exec_eq (exec_coolerDisable b) (disables (compDisable_stopped (d := s.dev.take disable) st)),
      fun st => Runs.of_act (exec_coolerDisable b) ⟨_, ?_, disables (compDisable_rest (d := s.dev.take disable) st)⟩,
      fun st => Runs.of_act (exec_coolerDisable b) ⟨_, ?_, disables (compDisable_waiting (d := s.dev.take disable) st)⟩,
      fun st => exec_eq (exec_coolerDisable b) (disables (compDisable_fault (d := s.dev.take disable) st)),
      fun stroke => exec_eq (exec_coolerDisable b) (disables (compDisable_inStroke (d := s.dev.take disable) stroke)),
      fun st => exec_eq (exec_grateClearFault b) (clears (if_pos st)),
      fun st act => exec_eq (exec_grateClearFault b) (clears (compClear_estop (d := s.dev.take clear) st act)),
      fun st quiet ends => exec_eq (exec_grateClearFault b) (clears (compClear_conflict (d := s.dev.take clear) st quiet ends)),
      fun st quiet ends => Runs.of_act (exec_grateClearFault b)
        ⟨_, ?_, clears (compClear_cleared (d := s.dev.take clear) st quiet ends)⟩⟩
    · exact wait_waits (d := change enable fun c => { c with due := some s.dev.now }) held
    · exact wait_strokes (d := change enable fun c => { c with due := some s.dev.now }) config free unasked ready
    · exact stageCooler_duty (d := (s.dev.take disable).onComp i fun c => { c with state := .stopped, due := none }) duty
    · exact stageCooler_duty (d := ((s.dev.take disable).onComp i fun c => { c with state := .stopped }).onGcc fun g =>
        { g with queue := g.queue.filter fun j => j ≠ i }) duty
    · exact compCleared_spec (d := s.dev.take clear) duty
end

section
/-! SUPPORT. The contributions that an operation hands over: reports of conditions hand over none but the Alarm Unit's own. -/

set_option Elab.async false

namespace Sys2Proof.Machine

/-- As many contributions of a kind are handed over after as before. -/
def CountKept (x : Contribution) (a b : Station) : Prop :=
  b.signals.count (.sruContribution x) = a.signals.count (.sruContribution x)

/-- The contributions that the movement of points hands over. -/
def ofPoints : Contribution → Bool
  | .raise => true
  | .activeLength _ => true
  | .floodEpisode => true
  | _ => false

theorem count_contribute (x y : Contribution) (d : Station) :
    (d.contribute y).signals.count (.sruContribution x) =
      d.signals.count (.sruContribution x) + if x = y then 1 else 0 := by
  unfold Station.contribute Station.raise
  dsimp only
  rw [List.count_append]
  congr 1
  by_cases same : x = y
  · rw [if_pos same, same]
    simp
  · rw [if_neg same, List.count_eq_zero]
    simpa using same

theorem submit_signals (b : NoticeBody) (d : Station) : (d.submit b).1.signals = d.signals := by
  unfold Station.submit
  split <;> rfl

theorem announce_signals (i : Fin 32) (d : Station) : (d.announce i).signals = d.signals := by
  have submitted (c : PointCfg) : (d.submitPoint i c).signals = d.signals := by
    have whole := submit_signals (.alarmState ((d.alm.points[i]'i.isLt).body i c)) d
    unfold Station.submitPoint
    split
    · next e => rw [e] at whole; exact whole
    · next e => rw [e] at whole; exact whole
  unfold Station.announce
  split
  · rfl
  · split
    · rfl
    · split
      · rfl
      · exact submitted _

theorem recomputeTrip_signals (d : Station) : d.recomputeTrip.signals = d.signals := by
  unfold Station.recomputeTrip
  split <;> rfl

theorem pointChanged_signals (i : Fin 32) (d : Station) : (d.pointChanged i).signals = d.signals := by
  unfold Station.pointChanged
  dsimp only
  split
  · exact (recomputeTrip_signals _).trans (announce_signals i d)
  · exact announce_signals i d

namespace CountKept
variable {x : Contribution} {a b c : Station}

theorem refl (x : Contribution) (d : Station) : CountKept x d d := rfl

theorem trans (h : CountKept x a b) (k : CountKept x b c) : CountKept x a c := Eq.trans k h

theorem same (h : CountKept x a b) (k : c.signals = b.signals) : CountKept x a c := (congrArg _ k).trans h

theorem contribute (h : CountKept x a b) {y : Contribution} (ne : x ≠ y) : CountKept x a (b.contribute y) :=
  h.trans (by unfold CountKept; rw [count_contribute, if_neg ne, Nat.add_zero])

end CountKept

section
variable {x : Contribution} (foreign : ofPoints x = false) (i : Fin 32) (d : Station)
include foreign

theorem setActive_count (l : List (Fin 32)) : CountKept x d (d.setActive l) := by
  unfold Station.setActive
  dsimp only
  split
  · rfl
  · exact CountKept.contribute (.same (.refl x d) rfl) (by rintro rfl; cases foreign)

theorem addRecent_count : CountKept x d d.addRecent := by
  unfold Station.addRecent
  dsimp only
  split
  · refine CountKept.same (.contribute (y := .floodEpisode) (.same (.refl x d) rfl) ?_) rfl
    rintro rfl
    cases foreign
  · rfl

theorem raisePoint_count : CountKept x d (d.raisePoint i) := by
  unfold Station.raisePoint
  dsimp only
  refine CountKept.same (.contribute (.trans ?_ (addRecent_count foreign _)) (y := .raise) ?_) (pointChanged_signals i _)
  · exact (CountKept.same (.refl x d) rfl).trans (setActive_count foreign _ _)
  · rintro rfl
    cases foreign

theorem pointNormal_count : CountKept x d (d.pointNormal i) := by
  unfold Station.pointNormal
  dsimp only
  refine CountKept.same ?_ (pointChanged_signals i _)
  exact (CountKept.same (.refl x d) rfl).trans (setActive_count foreign _ _)

theorem qualify_count : CountKept x d (d.qualify i) := by
  have noted : CountKept x d (d.onPoint i fun p => { p with qualified := true, delay := none }) := rfl
  unfold Station.qualify
  dsimp only
  split
  · exact noted.trans (raisePoint_count foreign i _)
  · exact noted.trans (raisePoint_count foreign i _)
  · exact noted.trans (raisePoint_count foreign i _)
  · exact noted

theorem unqualify_count : CountKept x d (d.unqualify i) := by
  have noted : CountKept x d (d.onPoint i fun p => { p with qualified := false, delay := none }) := rfl
  unfold Station.unqualify
  dsimp only
  split
  · split
    · split
      · rfl
      · exact noted.same (pointChanged_signals i _)
    · exact noted.same (pointChanged_signals i _)
  · exact noted.trans (pointNormal_count foreign i _)
  · exact noted

theorem setWatched_count (v : Bool) : CountKept x d (d.setWatched i v) := by
  have noted : CountKept x d (d.onPoint i fun p => { p with watched := v }) := rfl
  unfold Station.setWatched
  split
  · rfl
  · split
    · rfl
    · dsimp only
      split
      · split
        · exact noted.trans (qualify_count foreign i _)
        · rfl
      · split
        · exact noted.trans (unqualify_count foreign i _)
        · rfl
      · rfl

/-- A report of a condition hands over no contribution of an equipment unit. -/
theorem report_count (k : CondKind) (inst : Nat) (v : Bool) : CountKept x d (d.report k inst v) := by
  have told (l : List (Fin 32)) (e : Station) : CountKept x e
      (l.foldl (fun d i => if (d.alm.points[i]'i.isLt).watches k inst then d.setWatched i v else d) e) := by
    induction l generalizing e with
    | nil => rfl
    | cons i l ih =>
      rw [List.foldl_cons]
      split
      · exact (setWatched_count foreign i e v).trans (ih _)
      · exact ih e
  unfold Station.report
  split
  · rfl
  · have all := told (List.finRange 32) (d.onAlm (Alm.withCondition k inst v))
    dsimp only
    split
    · exact CountKept.same all (recomputeTrip_signals _)
    · exact all

end

end Sys2Proof.Machine
end

section
/-! SUPPORT. Faults of a compartment and the grant that passes through held-off compartments (R138 to R145). -/

set_option Elab.async false

namespace Sys2Proof.Machine

/-! ## What an entry to FAULT hands over and reports -/

/-- An entry to FAULT up to its reports: the fault is counted where the compartment was not in FAULT (R141, R142). -/
theorem faultComp_told (cause : CompCause) (i : Fin 4) (d : Station) :
    ∃ told : Station,
      told.signals = (if (d.gcc.comps[i]'i.isLt).state = .fault then d else d.contribute (.grateFault i)).signals ∧
      d.faultComp cause i =
        (if cause = .estop then (told.reportTimeout i false).reportConflict i false else told).stageCooler := by
  refine ⟨_, ?_, rfl⟩
  have off : ((d.strokeOff .strokeForward i).strokeOff .strokeReturn i).signals = d.signals := by
    rw [strokeOff_rest, strokeOff_rest]
  by_cases again : (d.gcc.comps[i]'i.isLt).state = .fault
  · rw [if_pos again, if_pos (by simpa using again)]
    exact off
  · rw [if_neg again, if_neg (by simpa using again)]
    exact congrArg (fun l => l ++ [.sruContribution (.grateFault i)]) off

section
variable {x : Contribution} (foreign : ofPoints x = false) (cause : CompCause) (i : Fin 4) (d : Station)
include foreign

theorem faultComp_told_count : (d.faultComp cause i).signals.count (.sruContribution x) =
    (if (d.gcc.comps[i]'i.isLt).state = .fault then d else d.contribute (.grateFault i)).signals.count (.sruContribution x) := by
  obtain ⟨told, signals, whole⟩ := faultComp_told cause i d
  have reports : CountKept x told (if cause = .estop then (told.reportTimeout i false).reportConflict i false else told) := by
    split
    · exact (report_count foreign told ..).trans (report_count foreign _ ..)
    · rfl
  rw [whole, ← signals, stageCooler_rest]
  exact reports

theorem faultComp_count (other : x ≠ .grateFault i) : CountKept x d (d.faultComp cause i) := by
  unfold CountKept
  rw [faultComp_told_count foreign]
  split
  · rfl
  · rw [count_contribute, if_neg other, Nat.add_zero]

omit foreign in
theorem faultComp_grateFault : (d.faultComp cause i).signals.count (.sruContribution (.grateFault i)) =
    d.signals.count (.sruContribution (.grateFault i)) + if (d.gcc.comps[i]'i.isLt).state = .fault then 0 else 1 := by
  rw [faultComp_told_count (x := .grateFault i) rfl]
  by_cases again : (d.gcc.comps[i]'i.isLt).state = .fault
  · rw [if_pos again, if_pos again, Nat.add_zero]
  · rw [if_neg again, if_neg again, count_contribute, if_pos rfl]

end

/-- An emergency stop of a compartment reports both its conditions absent (R142). -/
theorem faultComp_absent (i : Fin 4) (d : Station) :
    (d.faultComp .estop i).condition .grateStrokeTimeout (i.val + 1) = false ∧
    (d.faultComp .estop i).condition .limitConflict (i.val + 1) = false := by
  obtain ⟨told, -, whole⟩ := faultComp_told .estop i d
  rw [whole, if_pos rfl, stageCooler_rest]
  refine ⟨?_, report_condition .limitConflict (i.val + 1) false _⟩
  exact (report_other .limitConflict (i.val + 1) false _ _ _ (by rintro ⟨h, -⟩; cases h)).trans
    (report_condition .grateStrokeTimeout (i.val + 1) false told)

/-- A fault reported, after which the grant passes on (R140, R141, R145). -/
theorem faultReported {cause : CompCause} (kind : CondKind) (known : kind = .grateStrokeTimeout ∨ kind = .limitConflict) (i : Fin 4)
    (d : Station) : let b := ((d.faultComp cause i).report kind (i.val + 1) true).grant
    b.condition kind (i.val + 1) = true ∧ CompFaulted cause i d b := by
  intro b
  obtain ⟨faulted, queue⟩ := faultComp_spec cause i d
  have only := report_only kind (i.val + 1) true (d.faultComp cause i)
  have stays : ((d.faultComp cause i).report kind (i.val + 1) true).gcc.queue = (d.faultComp cause i).gcc.queue :=
    congrArg Gcc.queue only.gcc
  have told := faulted.alarms only
  refine ⟨?_, told.pass fun j mem => ?_⟩
  · exact (((KeepsComp.refl i _).passGrant 5 told.grant.2).conds kind known).trans (report_condition ..)
  · rw [stays, queue] at mem
    exact List.mem_of_mem_filter mem

/-! ## A fault seen from an earlier station -/

/-- A compartment's fault, seen from a station that differs in the compartment's state and timer and in its stroke lines. -/
theorem CompFaulted.since {cause : CompCause} {i : Fin 4} {a x b : Station} (h : CompFaulted cause i x b)
    (comp : ∃ st tm, x.gcc.comps[i]'i.isLt = { a.gcc.comps[i]'i.isLt with state := st, timer := tm } ∧
      ((a.gcc.comps[i]'i.isLt).state ≠ .fault → st ≠ .fault))
    (others : ∀ j : Fin 4, j ≠ i → x.gcc.comps[j]'j.isLt = a.gcc.comps[j]'j.isLt)
    (queue : ∀ j : Fin 4, j ≠ i → j ∈ x.gcc.queue → j ∈ a.gcc.queue)
    (lines : ∀ (k : OutKind) (l : Fin 16), k = .strokeForward ∨ k = .strokeReturn →
      a.findOut k .compartment (i.val + 1) = some l →
      { x.dou.lines[l]'l.isLt with on := false, pin := false } = { a.dou.lines[l]'l.isLt with on := false, pin := false })
    (rest : GrateOnly a x) : CompFaulted cause i a b := by
  obtain ⟨st, tm, comp, live⟩ := comp
  have found (k : OutKind) (n : Nat) : x.findOut k .compartment n = a.findOut k .compartment n :=
    findOut_congr (fun m => (rest.lines m).1) _ _ _
  have duty : x.coolerDuty = a.coolerDuty := by
    unfold Station.coolerDuty Station.cfg
    rw [rest.rest.rest]
  refine ⟨?_, fun j ne out => ?_, fun k l kind line => ?_, h.grant, fun alive => h.counted ?_, fun on => h.staged (duty.trans on),
    rest.trans h.rest⟩
  · rw [h.comp, comp]
  · exact (h.others j ne fun mem => out (queue j ne mem)).trans (others j ne)
  · exact (h.off k l kind ((found _ _).trans line)).trans (lines k l kind line)
  · rw [comp]
    exact live alive

/-- A faulted compartment and the cooler part staged again. -/
theorem CompFaulted.stage {cause : CompCause} {i : Fin 4} {a b : Station} (h : CompFaulted cause i a b) :
    CompFaulted cause i a b.stageCooler := by
  have duty : b.coolerDuty = a.coolerDuty := by
    unfold Station.coolerDuty Station.cfg
    rw [h.rest.rest.rest]
  have staged : b.stageCooler = b := by
    rw [stageCooler_rest]
    cases on : b.coolerDuty
    · rfl
    · rw [if_pos rfl, ← h.staged (duty.symm.trans on)]
  rw [staged]
  exact h

/-! ## The grant through a queue of held-off compartments -/

theorem queueHeldOff.since {a x : Station} (h : queueHeldOff a) (queue : x.gcc.queue = a.gcc.queue)
    (keeps : ∀ j ∈ a.gcc.queue, KeepsComp j a x) : queueHeldOff x := by
  obtain ⟨nodup, each⟩ := h
  refine ⟨by rw [queue]; exact nodup, fun j mem => ?_⟩
  rw [queue] at mem
  obtain ⟨cfg, live, l, found, forced⟩ := each j mem
  have kept := keeps j mem
  refine ⟨by rw [kept.comp]; exact cfg, by rw [kept.comp]; exact live, l, ?_, ?_⟩
  · rw [findOut_congr kept.cfg]
    exact found
  · rw [kept.lines _ l found]
    exact forced

theorem QueueFaulted.since {a x b : Station} (h : QueueFaulted x b) (queue : x.gcc.queue = a.gcc.queue) (now : x.now = a.now)
    (keeps : ∀ j ∈ a.gcc.queue, KeepsComp j a x) (counts : ∀ j, CountKept (.stroke j) a x) : QueueFaulted a b := by
  obtain ⟨grant, comps, off, absent, counted⟩ := h
  rw [queue] at comps off absent counted
  refine ⟨grant, fun j mem => ?_, fun j mem k l kind found => ?_, absent, fun j mem => ?_⟩
  · rw [comps j mem, (keeps j mem).comp, now]
  · have line := off j mem k l kind (by rw [findOut_congr (keeps j mem).cfg]; exact found)
    rw [line, (keeps j mem).lines k l found]
  · obtain ⟨fault, event, strokes⟩ := counted j mem
    exact ⟨fault, event, strokes.trans (counts j)⟩

theorem QueueFaulted.andThen {a x b : Station} (h : QueueFaulted a x) (grate : GrateOnly a x) (rest : GrateOnly x b)
    (grant : b.gcc.holder = none ∧ b.gcc.queue = []) (keeps : ∀ j ∈ a.gcc.queue, KeepsComp j x b)
    (counts : ∀ j, CountKept (.stroke j) x b) : QueueFaulted a b := by
  refine ⟨grant, fun j mem => (keeps j mem).comp.trans (h.comps j mem), fun j mem k l kind found => ?_, fun j mem => ?_,
    fun j mem => ?_⟩
  · have same : x.findOut k .compartment (j.val + 1) = some l := (findOut_congr (fun m => (grate.lines m).1) _ _ _).trans found
    exact ((keeps j mem).lines k l same).trans (h.off j mem k l kind found)
  · obtain ⟨timeout, conflict⟩ := h.absent j mem
    exact ⟨((keeps j mem).conds _ (.inl rfl)).trans timeout, ((keeps j mem).conds _ (.inr rfl)).trans conflict⟩
  · obtain ⟨fault, event, strokes⟩ := h.counted j mem
    refine ⟨rest.rest.signals.subset fault, ?_, Eq.trans (counts j) strokes⟩
    rw [BitVec.and_comm] at event ⊢
    exact events_trans event rest.rest.events

theorem QueueFaulted.empty {d : Station} (free : d.gcc.holder = none) (unasked : d.gcc.queue = []) : QueueFaulted d d :=
  ⟨⟨free, unasked⟩, by rw [unasked]; nofun, by rw [unasked]; nofun, by rw [unasked]; nofun, by rw [unasked]; nofun⟩

/-- The head of the queue faulted, then the rest of it. -/
theorem QueueFaulted.cons {i : Fin 4} {rest : List (Fin 4)} {k : CompCfg} {a y z : Station} (asked : a.gcc.queue = i :: rest)
    (head : CompFaulted .estop i (a.granted i rest k) y)
    (absent : y.condition .grateStrokeTimeout (i.val + 1) = false ∧ y.condition .limitConflict (i.val + 1) = false)
    (keeps : ∀ j ∈ rest, KeepsComp j a y) (counts : ∀ j, CountKept (.stroke j) a y) (left : y.gcc.queue = rest)
    (kept : KeepsComp i y z) (more : GrateOnly y z) (tail : QueueFaulted y z) (tailCounts : ∀ j, CountKept (.stroke j) y z) :
    QueueFaulted a z := by
  have grate : GrateOnly a y := (((GrateOnly.refl a).onGcc _).beginForward i k).trans head.rest
  have now : y.now = a.now := by rw [grate.rest.rest]
  have found (k : OutKind) (n : Nat) : y.findOut k .compartment n = a.findOut k .compartment n :=
    findOut_congr (fun m => (grate.lines m).1) _ _ _
  obtain ⟨grant, comps, off, others, counted⟩ := tail
  rw [left] at comps off others counted
  refine ⟨grant, ?_, ?_, ?_, ?_⟩ <;> rw [asked] <;> refine List.forall_mem_cons.2 ⟨?_, fun j mem => ?_⟩
  · have begun : (a.granted i rest k).gcc.comps[i]'i.isLt = { a.gcc.comps[i]'i.isLt with
        shadow := (a.gcc.comps[i]'i.isLt).preload, due := some (a.now + 600000 / (a.gcc.comps[i]'i.isLt).preload * 1000), state := .forward
        timer := some (.forwardLimit, a.inMs k.forwardLimit) } := vecModify_same _ _ _
    rw [kept.comp, head.comp, begun]
    rfl
  · rw [comps j mem, (keeps j mem).comp, now]
  · intro k l kind line
    exact (kept.lines k l ((found _ _).trans line)).trans (head.off k l kind line)
  · intro k l kind line
    exact (off j mem k l kind ((found _ _).trans line)).trans (by rw [(keeps j mem).lines k l line])
  · exact ⟨(kept.conds _ (.inl rfl)).trans absent.1, (kept.conds _ (.inr rfl)).trans absent.2⟩
  · exact others j mem
  · have live : ((a.granted i rest k).gcc.comps[i]'i.isLt).state ≠ .fault := by
      rw [show ((a.granted i rest k).gcc.comps[i]'i.isLt) = _ from vecModify_same _ _ _]
      nofun
    obtain ⟨fault, event⟩ := head.counted live
    refine ⟨more.rest.signals.subset fault, ?_, (counts i).trans (tailCounts i)⟩
    rw [BitVec.and_comm] at event ⊢
    exact events_trans event more.rest.events
  · obtain ⟨fault, event, strokes⟩ := counted j mem
    exact ⟨fault, event, Eq.trans strokes (counts j)⟩

/-- One held-off compartment at the head of the queue, up to the next. -/
theorem granted_keeps {i j : Fin 4} {rest : List (Fin 4)} (ne : i ≠ j) (k : CompCfg) {d : Station} (asked : d.gcc.queue = i :: rest) :
    KeepsComp j d ((d.granted i rest k).faultComp .estop i) := by
  refine KeepsComp.faultComp (KeepsComp.onComp ((KeepsComp.refl j d).onGcc _ rfl ?_ ?_) ne _) ne _
  · exact fun _ held => ne (Option.some.inj held)
  · rw [asked]
    exact fun out mem => out (List.mem_cons_of_mem _ mem)

theorem passGrant_through (n : Nat) (d : Station) (free : d.gcc.holder = none) (off : queueHeldOff d)
    (fits : d.gcc.queue.length ≤ n) : QueueFaulted d (d.passGrant n) ∧ ∀ j, CountKept (.stroke j) d (d.passGrant n) := by
  induction n generalizing d with
  | zero => exact ⟨.empty free (List.eq_nil_of_length_eq_zero (Nat.le_zero.1 fits)), fun j => .refl _ d⟩
  | succ n ih =>
    cases asked : d.gcc.queue with
    | nil =>
      rw [passGrant_unasked _ asked]
      exact ⟨.empty free asked, fun j => .refl _ d⟩
    | cons i rest =>
      obtain ⟨nodup, each⟩ := off
      rw [asked] at nodup each fits
      obtain ⟨fresh, nodup⟩ := List.nodup_cons.1 nodup
      obtain ⟨configured, -, l, found, forced⟩ := each i (List.mem_cons_self ..)
      obtain ⟨k, cfg⟩ := Option.ne_none_iff_exists'.1 configured
      rw [passGrant_forced n free asked cfg found forced]
      have keeps (j : Fin 4) (ne : i ≠ j) : KeepsComp j d ((d.granted i rest k).faultComp .estop i) := granted_keeps ne k asked
      have grate : GrateOnly d ((d.granted i rest k).faultComp .estop i) :=
        (((GrateOnly.refl d).onGcc _).beginForward i k).faultComp _ _
      obtain ⟨faulted, queue⟩ := faultComp_spec .estop i (d.granted i rest k)
      have absent := faultComp_absent i (d.granted i rest k)
      have counts (j : Fin 4) : CountKept (.stroke j) d ((d.granted i rest k).faultComp .estop i) :=
        CountKept.trans (b := d.granted i rest k) rfl (faultComp_count (x := .stroke j) rfl .estop i _ nofun)
      have left : ((d.granted i rest k).faultComp .estop i).gcc.queue = rest := by
        rw [queue]
        exact List.filter_eq_self.2 fun j mem => by simpa using fun h : j = i => fresh (h ▸ mem)
      have none : ((d.granted i rest k).faultComp .estop i).gcc.holder = none := by
        rw [(Station.faultComp_parts .estop i _).1]
        exact if_pos rfl
      generalize (d.granted i rest k).faultComp .estop i = y at *
      have apart (j : Fin 4) (mem : j ∈ rest) : i ≠ j := fun h => fresh (h ▸ mem)
      have heldOff : queueHeldOff y := by
        refine ⟨by rw [left]; exact nodup, fun j mem => ?_⟩
        rw [left] at mem
        obtain ⟨cfg, live, l, found, forced⟩ := each j (List.mem_cons_of_mem _ mem)
        have kept := keeps j (apart j mem)
        refine ⟨by rw [kept.comp]; exact cfg, by rw [kept.comp]; exact live, l, ?_, by rw [kept.lines _ l found]; exact forced⟩
        rw [findOut_congr kept.cfg]
        exact found
      obtain ⟨tail, tailCounts⟩ := ih y none heldOff (by rw [left]; exact Nat.le_of_succ_le_succ fits)
      refine ⟨.cons asked faulted absent (fun j mem => keeps j (apart j mem)) counts left ?_ ?_ tail tailCounts,
        fun j => (counts j).trans (tailCounts j)⟩
      · exact (KeepsComp.refl i y).passGrant n (by rw [left]; exact fresh)
      · exact (GrateOnly.refl y).passGrant n

/-- A grant that is free passes through a queue of held-off compartments until it is empty (R145). -/
theorem grant_through {d : Station} (free : d.gcc.holder = none) (off : queueHeldOff d) :
    QueueFaulted d d.grant ∧ ∀ j, CountKept (.stroke j) d d.grant := by
  refine passGrant_through 5 d free off (Nat.le_succ_of_le ?_)
  have small := off.1.length_le_card
  rwa [Fintype.card_fin] at small

end Sys2Proof.Machine
end

section
/-! SUPPORT. What the ends of a stroke and its limits do, and the emergency stop (R139 to R142). -/

set_option Elab.async false

namespace Sys2Proof.Machine

/-! ## The commands -/

/-- What END FORWARD to ACTIVE does (R139, R141). -/
def Station.forwardEnded (i : Fin 4) (k : CompCfg) (d : Station) : Station :=
  let d := d.onComp i fun c => { c with endForward := true }
  if (d.gcc.comps[i]'i.isLt).endReturn then d.limitConflict i
  else if (d.gcc.comps[i]'i.isLt).state = .forward then d.endForward i k
  else d

/-- What END RETURN to ACTIVE does (R140, R141). -/
def Station.returnEnded (i : Fin 4) (d : Station) : Station :=
  let d := d.onComp i fun c => { c with endReturn := true }
  if (d.gcc.comps[i]'i.isLt).endForward then d.limitConflict i
  else if (d.gcc.comps[i]'i.isLt).state = .returning then d.endReturn i
  else d

/-- What END FORWARD does (R137). -/
def Station.forwardChange (i : Fin 4) (active : Bool) (d : Station) : Station :=
  match (d.gcc.comps[i]'i.isLt).cfg with
  | none => d
  | some k => if !active then d.onComp i fun c => { c with endForward := active } else d.forwardEnded i k

/-- What END RETURN does (R137). -/
def Station.returnChange (i : Fin 4) (active : Bool) (d : Station) : Station :=
  match (d.gcc.comps[i]'i.isLt).cfg with
  | none => d
  | some _ => if !active then d.onComp i fun c => { c with endReturn := active } else d.returnEnded i

/-- A compartment whose forward limit has passed, before it gives up the grant (R139). -/
def Station.late (i : Fin 4) (d : Station) : Station :=
  ((d.strokeOff .strokeForward i).onComp i fun c =>
    { c with faultPending := true, cause := .strokeTimeout, state := .returning, timer := none }).reportTimeout i true

/-- A forward limit passed (R139). -/
def Station.forwardLate (i : Fin 4) (k : CompCfg) (d : Station) : Station :=
  ((d.late i).releaseGrant i).startReturn i k

/-- What the expiry of the forward limit does (R139). -/
def Station.forwardExpiry (i : Fin 4) (d : Station) : Station :=
  match (d.gcc.comps[i]'i.isLt).cfg with
  | none => d
  | some k => if !(d.gcc.comps[i]'i.isLt).runs .forwardLimit then d else d.forwardLate i k

/-- What the expiry of the dwell does (R140). -/
def Station.dwellEnded (i : Fin 4) (d : Station) : Station :=
  match (d.gcc.comps[i]'i.isLt).cfg with
  | none => d
  | some k => if (d.gcc.comps[i]'i.isLt).runs .dwell then d.startReturn i k else d

/-- What the expiry of the return limit does (R140). -/
def Station.returnExpiry (i : Fin 4) (d : Station) : Station :=
  if (d.gcc.comps[i]'i.isLt).runs .returnLimit then ((d.faultComp .strokeTimeout i).reportTimeout i true).grant else d

theorem exec_forwardChange (i : Fin 4) (s : State) : exec (.gccEndForwardChange i true) s =
    act (.gccEndForwardChange i true) (Station.forwardChange i true) s := rfl

theorem exec_returnChange (i : Fin 4) (s : State) : exec (.gccEndReturnChange i true) s =
    act (.gccEndReturnChange i true) (Station.returnChange i true) s := rfl

theorem exec_forwardLimitExpiry (i : Fin 4) (s : State) : exec (.forwardLimitExpiry i) s =
    act (.forwardLimitExpiry i) (Station.forwardExpiry i) s := rfl

theorem exec_dwellExpiry (i : Fin 4) (s : State) : exec (.dwellExpiry i) s =
    act (.dwellExpiry i) (Station.dwellEnded i) s := rfl

theorem exec_returnLimitExpiry (i : Fin 4) (s : State) : exec (.returnLimitExpiry i) s =
    act (.returnLimitExpiry i) (Station.returnExpiry i) s := rfl

/-- What a due time that is reached does (R137). -/
def Station.dueReached (i : Fin 4) (d : Station) : Station := if (d.gcc.comps[i]'i.isLt).state = .rest then d.wait i else d

theorem dueReached_rest {i : Fin 4} {d : Station} (rest : (d.gcc.comps[i]'i.isLt).state = .rest) : d.dueReached i = d.wait i := if_pos rest

theorem exec_dueTimeReached (i : Fin 4) (s : State) : exec (.dueTimeReached i) s =
    act (.dueTimeReached i) (Station.dueReached i) s := rfl

section
variable {i : Fin 4} {k : CompCfg} {d : Station}

theorem Compartment.runs_of {c : Compartment} {t : CompTimer} {e : Nat} (timer : c.timer = some (t, e)) : c.runs t = true := by
  unfold Compartment.runs
  rw [timer]
  exact beq_self_eq_true t

theorem returnExpiry_runs {e : Nat} (timer : (d.gcc.comps[i]'i.isLt).timer = some (.returnLimit, e)) :
    d.returnExpiry i = ((d.faultComp .strokeTimeout i).report .grateStrokeTimeout (i.val + 1) true).grant :=
  if_pos (Compartment.runs_of timer)

variable (cfg : (d.gcc.comps[i]'i.isLt).cfg = some k)
include cfg

theorem forwardChange_active : d.forwardChange i true = d.forwardEnded i k := by
  unfold Station.forwardChange
  rw [cfg]
  rfl

theorem returnChange_active : d.returnChange i true = d.returnEnded i := by
  unfold Station.returnChange
  rw [cfg]
  rfl

theorem forwardExpiry_runs {e : Nat} (timer : (d.gcc.comps[i]'i.isLt).timer = some (.forwardLimit, e)) :
    d.forwardExpiry i = d.forwardLate i k := by
  unfold Station.forwardExpiry
  rw [cfg]
  exact if_neg (by rw [Compartment.runs_of timer]; nofun)

theorem dwellEnded_runs {e : Nat} (timer : (d.gcc.comps[i]'i.isLt).timer = some (.dwell, e)) : d.dwellEnded i = d.startReturn i k := by
  unfold Station.dwellEnded
  rw [cfg]
  exact if_pos (Compartment.runs_of timer)

end

/-! ## Both limits ACTIVE -/

section
variable {i : Fin 4} {d : Station}

theorem limitConflict_live (live : (d.gcc.comps[i]'i.isLt).state ≠ .fault) :
    d.limitConflict i = ((d.faultComp .limitConflict i).report .limitConflict (i.val + 1) true).grant :=
  if_neg live

theorem forwardEnded_conflict (k : CompCfg) (back : (d.gcc.comps[i]'i.isLt).endReturn = true) :
    d.forwardEnded i k = (d.onComp i fun c => { c with endForward := true }).limitConflict i :=
  if_pos (by rw [onComp_same]; exact back)

theorem returnEnded_conflict (forward : (d.gcc.comps[i]'i.isLt).endForward = true) :
    d.returnEnded i = (d.onComp i fun c => { c with endReturn := true }).limitConflict i :=
  if_pos (by rw [onComp_same]; exact forward)

theorem forwardEnded_forward (k : CompCfg) (back : (d.gcc.comps[i]'i.isLt).endReturn = false) (st : (d.gcc.comps[i]'i.isLt).state = .forward) :
    d.forwardEnded i k = (d.onComp i fun c => { c with endForward := true }).endForward i k :=
  (if_neg (by rw [onComp_same]; exact Bool.not_eq_true _ ▸ back)).trans (if_pos (by rw [onComp_same]; exact st))

theorem returnEnded_returning (forward : (d.gcc.comps[i]'i.isLt).endForward = false) (st : (d.gcc.comps[i]'i.isLt).state = .returning) :
    d.returnEnded i = (d.onComp i fun c => { c with endReturn := true }).endReturn i :=
  (if_neg (by rw [onComp_same]; exact Bool.not_eq_true _ ▸ forward)).trans (if_pos (by rw [onComp_same]; exact st))

end

/-! ## Stroke lines off -/

theorem strokeOff_line {k : OutKind} (kind : k = .strokeForward ∨ k = .strokeReturn) (i : Fin 4) (l : Fin 16) (d : Station) :
    (d.strokeOff k i).dou.lines[l]'l.isLt = if d.findOut k .compartment (i.val + 1) = some l then
      { d.dou.lines[l]'l.isLt with on := false, pin := false } else (d.dou.lines[l]'l.isLt) := by
  unfold Station.strokeOff
  cases found : d.findOut k .compartment (i.val + 1) with
  | none => rfl
  | some m =>
    obtain ⟨level, own⟩ := KeepsComp.strokeLine kind found
    dsimp only
    rw [lineOff_owned level own]
    by_cases here : m = l
    · subst here
      rw [if_pos rfl]
      exact vecModify_same _ _ _
    · rw [if_neg fun h => here (Option.some.inj h)]
      exact vecModify_ne _ _ _ _ _ fun h => here (Fin.ext h)

theorem strokeOff_off {k : OutKind} (kind : k = .strokeForward ∨ k = .strokeReturn) (i : Fin 4) (l : Fin 16) (d : Station) :
    { (d.strokeOff k i).dou.lines[l]'l.isLt with on := false, pin := false } = { d.dou.lines[l]'l.isLt with on := false, pin := false } := by
  rw [strokeOff_line kind]
  split <;> rfl

theorem strokeOff_findOut {q : OutKind} (i : Fin 4) (k : OutKind) (n : Nat) (d : Station) :
    (d.strokeOff q i).findOut k .compartment n = d.findOut k .compartment n :=
  findOut_congr (fun m => (((GrateOnly.refl d).strokeOff q i).lines m).1) _ _ _

/-- The two stroke lines of a compartment are two lines. -/
theorem stroke_lines_ne {i : Fin 4} {l r : Fin 16} {d : Station} (lf : d.findOut .strokeForward .compartment (i.val + 1) = some l)
    (lr : d.findOut .strokeReturn .compartment (i.val + 1) = some r) : l ≠ r := by
  rintro rfl
  obtain ⟨c, cfg, kind, -⟩ := findOut_cfg lf
  obtain ⟨c', cfg', kind', -⟩ := findOut_cfg lr
  rw [cfg] at cfg'
  cases cfg'
  rw [kind] at kind'
  cases kind'

/-! ## A return that passes its forward limit -/

theorem endReturn_pending {i : Fin 4} {d : Station} (pending : (d.gcc.comps[i]'i.isLt).faultPending = true) :
    d.endReturn i = ((d.strokeOff .strokeReturn i).onComp i fun c => { c with timer := none }).faultAndPass .strokeTimeout i := by
  have same : (((d.strokeOff .strokeReturn i).onComp i fun c => { c with timer := none }).gcc.comps[i]'i.isLt).faultPending = true := by
    rw [onComp_same, Station.strokeOff_gcc]
    exact pending
  unfold Station.endReturn
  dsimp only
  rw [if_pos same]

theorem endReturn_faulted {i : Fin 4} {d : Station} (pending : (d.gcc.comps[i]'i.isLt).faultPending = true) :
    CompFaulted .strokeTimeout i d (d.endReturn i) := by
  rw [endReturn_pending pending]
  refine (faultAndPass_spec .strokeTimeout i _).since ⟨(d.gcc.comps[i]'i.isLt).state, none, ?_, id⟩ (fun j ne => ?_) (fun j _ mem => ?_)
    (fun k l kind found => strokeOff_off (.inr rfl) i l d) (((GrateOnly.refl d).strokeOff _ i).onComp i _)
  · rw [onComp_same, Station.strokeOff_gcc]
  · exact (vecModify_ne _ _ _ _ _ fun h => ne (Fin.ext h.symm)).trans (by rw [Station.strokeOff_gcc]; rfl)
  · have queue : ((d.strokeOff .strokeReturn i).onComp i fun c => { c with timer := none }).gcc.queue = d.gcc.queue :=
      (congrArg Gcc.queue (Station.strokeOff_gcc .strokeReturn i d) :)
    rwa [queue] at mem

/-! ## Entry to RETURN -/

/-- A compartment in RETURN under its limit, before its LINE ON (R140). -/
def Station.returning (i : Fin 4) (k : CompCfg) (d : Station) : Station :=
  d.onComp i fun c => { c with state := .returning, timer := some (.returnLimit, d.inMs k.returnLimit) }

section
variable {i : Fin 4} {r : Fin 16} {d : Station} (k : CompCfg)

theorem startReturn_ready (ready : lineReady .strokeReturn .strokeForward i r d) :
    d.startReturn i k = ((d.returning i k).onOut r fun x => { x with on := true, pin := true }).stageCooler := by
  have on : (d.returning i k).strokeOn .strokeReturn i = _ := strokeOn_ready (d := d.returning i k) (.inr ⟨rfl, rfl⟩) ready
  unfold Station.returning at on
  unfold Station.startReturn
  dsimp only
  rw [on] <;> rfl

theorem startReturn_forced (found : d.findOut .strokeReturn .compartment (i.val + 1) = some r) (forced : (d.dou.lines[r]'r.isLt).forced = true) :
    d.startReturn i k = (d.returning i k).faultAndPass .estop i := by
  have on : (d.returning i k).strokeOn .strokeReturn i = _ := strokeOn_forced (d := d.returning i k) (.inr rfl) found forced
  unfold Station.returning at on
  unfold Station.startReturn
  dsimp only
  rw [on] <;> rfl

/-- A held-off return is the emergency stop of its compartment (R142). -/
theorem startReturn_faulted (found : d.findOut .strokeReturn .compartment (i.val + 1) = some r) (forced : (d.dou.lines[r]'r.isLt).forced = true)
    (live : (d.gcc.comps[i]'i.isLt).state ≠ .fault) : CompFaulted .estop i d (d.startReturn i k) := by
  rw [startReturn_forced k found forced]
  exact (faultAndPass_spec .estop i _).since ⟨.returning, _, onComp_same .., fun _ => by decide⟩
    (fun j ne => vecModify_ne _ _ _ _ _ fun h => ne (Fin.ext h.symm)) (fun j _ mem => mem) (fun k l kind found => rfl)
    ((GrateOnly.refl d).onComp i _)

/-- The same where no compartment waits: the grant passes to none. -/
theorem startReturn_unasked (found : d.findOut .strokeReturn .compartment (i.val + 1) = some r) (forced : (d.dou.lines[r]'r.isLt).forced = true)
    (unasked : d.gcc.queue = []) : d.startReturn i k = (d.returning i k).faultComp .estop i := by
  rw [startReturn_forced k found forced]
  refine passGrant_unasked 5 ?_
  rw [(faultComp_spec .estop i (d.returning i k)).2]
  exact congrArg (List.filter _) unasked

end

/-! ## The grant released -/

theorem releaseGrant_keeps {i j : Fin 4} {d : Station} (out : j ∉ d.gcc.queue) : KeepsComp j d (d.releaseGrant i) := by
  unfold Station.releaseGrant
  split
  · exact ((KeepsComp.refl j d).onGcc (fun g => { g with holder := none }) rfl (fun _ => nofun) id).passGrant 5 out
  · exact .refl j d

theorem releaseGrant_free {i : Fin 4} {d : Station} (out : i ∉ d.gcc.queue) : (d.releaseGrant i).gcc.holder ≠ some i := by
  by_cases held : d.gcc.holder = some i
  · rw [show d.releaseGrant i = _ from if_pos held]
    exact ((KeepsComp.refl i (d.onGcc fun g => { g with holder := none })).passGrant 5 out).holder nofun
  · rw [show d.releaseGrant i = d from if_neg held]
    exact held

theorem releaseGrant_unasked {i : Fin 4} {d : Station} (unasked : d.gcc.queue = []) : (d.releaseGrant i).gcc.queue = [] := by
  unfold Station.releaseGrant
  split
  · exact (congrArg (fun x => x.gcc.queue) (passGrant_unasked 5 (d := d.onGcc fun g => { g with holder := none }) unasked)).trans unasked
  · exact unasked

/-- A free grant that passes through held-off compartments leaves a compartment out of the queue as it is. -/
theorem grant_through_from {i : Fin 4} {a x : Station} (off : queueHeldOff a) (out : i ∉ a.gcc.queue) (free : x.gcc.holder = none)
    (queue : x.gcc.queue = a.gcc.queue) (grate : GrateOnly a x) (keeps : ∀ j, i ≠ j → KeepsComp j a x)
    (counts : ∀ j, CountKept (.stroke j) a x) :
    QueueFaulted a x.grant ∧ GrateOnly a x.grant ∧ x.grant.gcc.comps[i]'i.isLt = x.gcc.comps[i]'i.isLt := by
  have each (j : Fin 4) (mem : j ∈ a.gcc.queue) : KeepsComp j a x := keeps j fun h => out (h ▸ mem)
  obtain ⟨through, -⟩ := grant_through free (off.since queue each)
  have now : x.now = a.now := by rw [grate.rest.rest]
  exact ⟨through.since queue now each counts, grate.grant, ((KeepsComp.refl i x).passGrant 5 (by rw [queue]; exact out)).comp⟩

/-! ## A forward limit passed -/

theorem onComp_gcc (i : Fin 4) (f : Compartment → Compartment) (d : Station) :
    (d.onComp i f).gcc = { d.gcc with comps := vecModify d.gcc.comps i f } := rfl

section
variable (i : Fin 4) (d : Station)

theorem late_grate : GrateOnly d (d.late i) := (((GrateOnly.refl d).strokeOff _ i).onComp i _).reportTimeout i true

theorem late_gcc : (d.late i).gcc = { d.gcc with comps := vecModify d.gcc.comps i fun c =>
    { c with faultPending := true, cause := .strokeTimeout, state := .returning, timer := none } } :=
  (report_only ..).gcc.trans (by rw [onComp_gcc, Station.strokeOff_gcc])

theorem late_comp : (d.late i).gcc.comps[i]'i.isLt =
    { d.gcc.comps[i]'i.isLt with faultPending := true, cause := .strokeTimeout, state := .returning, timer := none } :=
  (congrArg (fun g : Gcc => g.comps[i]'i.isLt) (late_gcc i d)).trans (vecModify_same _ _ _)

theorem late_queue : (d.late i).gcc.queue = d.gcc.queue := (congrArg Gcc.queue (late_gcc i d) :)

theorem late_holder : (d.late i).gcc.holder = d.gcc.holder := (congrArg Gcc.holder (late_gcc i d) :)

theorem late_keeps {j : Fin 4} (ne : i ≠ j) : KeepsComp j d (d.late i) :=
  (((KeepsComp.refl j d).strokeOff ne (.inl rfl)).onComp ne _).report ne _ true

theorem late_condition : (d.late i).condition .grateStrokeTimeout (i.val + 1) = true := report_condition ..

theorem late_dou : (d.late i).dou = (d.strokeOff .strokeForward i).dou := (report_only ..).dou

theorem late_findOut (k : OutKind) (n : Nat) : (d.late i).findOut k .compartment n = d.findOut k .compartment n :=
  findOut_congr (fun m => ((late_grate i d).lines m).1) _ _ _

theorem late_counts (j : Fin 4) : CountKept (.stroke j) d (d.late i) := by
  refine CountKept.trans (b := (d.strokeOff .strokeForward i).onComp i _) ?_ (report_count rfl _ _ _ _)
  have signals : (d.strokeOff .strokeForward i).signals = d.signals := by rw [strokeOff_rest]
  exact congrArg (List.count _) signals

end

/-- A compartment whose forward limit has passed, with the grant given up. -/
def Station.lateReleased (i : Fin 4) (d : Station) : Station := (d.late i).releaseGrant i

section
variable {i : Fin 4} {d : Station}

theorem lateReleased_keeps (out : i ∉ d.gcc.queue) : KeepsComp i (d.late i) (d.lateReleased i) :=
  releaseGrant_keeps (by rw [late_queue]; exact out)

theorem lateReleased_comp (out : i ∉ d.gcc.queue) : (d.lateReleased i).gcc.comps[i]'i.isLt =
    { d.gcc.comps[i]'i.isLt with faultPending := true, cause := .strokeTimeout, state := .returning, timer := none } :=
  (lateReleased_keeps out).comp.trans (late_comp i d)

theorem lateReleased_grate : GrateOnly d (d.lateReleased i) := (late_grate i d).releaseGrant i

theorem lateReleased_findOut (k : OutKind) (n : Nat) :
    (d.lateReleased i).findOut k .compartment n = d.findOut k .compartment n :=
  findOut_congr (fun m => (lateReleased_grate.lines m).1) _ _ _

theorem lateReleased_line {k : OutKind} {m : Fin 16} (out : i ∉ d.gcc.queue)
    (found : d.findOut k .compartment (i.val + 1) = some m) :
    (d.lateReleased i).dou.lines[m]'m.isLt = (d.strokeOff .strokeForward i).dou.lines[m]'m.isLt :=
  ((lateReleased_keeps out).lines k m ((late_findOut i d k _).trans found)).trans (by rw [late_dou])

theorem lateReleased_forced {r : Fin 16} (out : i ∉ d.gcc.queue) (lr : d.findOut .strokeReturn .compartment (i.val + 1) = some r) :
    ((d.lateReleased i).dou.lines[r]'r.isLt).forced = (d.dou.lines[r]'r.isLt).forced := by
  rw [lateReleased_line out lr, strokeOff_line (.inl rfl)]
  split <;> rfl

/-- A forward limit passed, with a return line that may be turned on: RETURN, fault pending (R139, R140). -/
theorem forwardLate_returns {l r : Fin 16} (k : CompCfg) (out : i ∉ d.gcc.queue)
    (lf : d.findOut .strokeForward .compartment (i.val + 1) = some l)
    (lr : d.findOut .strokeReturn .compartment (i.val + 1) = some r) (free : (d.dou.lines[r]'r.isLt).forced = false) :
    let b := d.forwardLate i k
    (b.gcc.comps[i]'i.isLt) = { d.gcc.comps[i]'i.isLt with
      faultPending := true, cause := .strokeTimeout, state := .returning
      timer := some (.returnLimit, d.now + k.returnLimit * 1000) } ∧
    b.condition .grateStrokeTimeout (i.val + 1) = true ∧ b.gcc.holder ≠ some i ∧
    b.dou.lines[l]'l.isLt = { d.dou.lines[l]'l.isLt with on := false, pin := false } ∧
    b.dou.lines[r]'r.isLt = { d.dou.lines[r]'r.isLt with on := true, pin := true } ∧ GrateOnly d b := by
  have ne := stroke_lines_ne lf lr
  have forward : (d.lateReleased i).dou.lines[l]'l.isLt = { d.dou.lines[l]'l.isLt with on := false, pin := false } := by
    rw [lateReleased_line out lf, strokeOff_line (.inl rfl), if_pos lf]
  have back : (d.lateReleased i).dou.lines[r]'r.isLt = d.dou.lines[r]'r.isLt := by
    rw [lateReleased_line out lr, strokeOff_line (.inl rfl), if_neg fun h => ne (Option.some.inj (lf.symm.trans h))]
  have ready : lineReady .strokeReturn .strokeForward i r (d.lateReleased i) := by
    refine ⟨(lateReleased_findOut _ _).trans lr, by rw [back]; exact free, fun m found => ?_⟩
    rw [lateReleased_findOut, lf] at found
    cases found
    rw [forward]
  have comp := lateReleased_comp out
  have condition := ((lateReleased_keeps out).conds .grateStrokeTimeout (.inl rfl)).trans (late_condition i d)
  have holder : (d.lateReleased i).gcc.holder ≠ some i := releaseGrant_free (by rw [late_queue]; exact out)
  have grate : GrateOnly d (d.lateReleased i) := lateReleased_grate
  have whole := startReturn_ready k ready
  have staged : GrateOnly (d.lateReleased i) ((d.lateReleased i).startReturn i k) := (GrateOnly.refl _).startReturn i k
  rw [show d.forwardLate i k = (d.lateReleased i).startReturn i k from rfl]
  rw [whole] at staged ⊢
  generalize d.lateReleased i = y at *
  have now : y.now = d.now := by rw [grate.rest.rest]
  rw [stageCooler_rest] at staged ⊢
  refine ⟨?_, condition, holder, ?_, ?_, grate.trans staged⟩
  · refine (onComp_same i (fun c => { c with state := .returning, timer := some (.returnLimit, y.inMs k.returnLimit) }) y).trans ?_
    rw [comp, ← now]
    rfl
  · exact (vecModify_ne _ _ _ _ _ fun h => ne (Fin.ext h.symm)).trans forward
  · exact (vecModify_same _ _ _).trans (congrArg (fun x : OutLine => { x with on := true, pin := true }) back)

end

/-! ## A held-off return -/

/-- A held-off return with no compartment waiting, seen from the station before it (R140, R142). -/
structure ReturnStopped (i : Fin 4) (r : Fin 16) (a b : Station) : Prop where
  comp : b.gcc.comps[i]'i.isLt = { a.gcc.comps[i]'i.isLt with state := .fault, cause := .estop, timer := none }
  grant : b.gcc.holder = if a.gcc.holder = some i then none else a.gcc.holder
  queue : b.gcc.queue = []
  absent : b.condition .grateStrokeTimeout (i.val + 1) = false ∧ b.condition .limitConflict (i.val + 1) = false
  line : b.dou.lines[r]'r.isLt = { a.dou.lines[r]'r.isLt with on := false, pin := false }
  counted : .sruContribution (.grateFault i) ∈ b.signals
  rest : GrateOnly a b
  keeps : ∀ j : Fin 4, i ≠ j → KeepsComp j a b
  counts : ∀ j, CountKept (.stroke j) a b

theorem startReturn_stopped {i : Fin 4} {r : Fin 16} {d : Station} (k : CompCfg)
    (found : d.findOut .strokeReturn .compartment (i.val + 1) = some r) (forced : (d.dou.lines[r]'r.isLt).forced = true)
    (unasked : d.gcc.queue = []) : ReturnStopped i r d (d.startReturn i k) := by
  have comp : (d.returning i k).gcc.comps[i]'i.isLt = _ := onComp_same _ _ _
  have live : ((d.returning i k).gcc.comps[i]'i.isLt).state ≠ .fault := by
    rw [comp]
    nofun
  have before : GrateOnly d (d.returning i k) := (GrateOnly.refl d).onComp i _
  obtain ⟨faulted, queue⟩ := faultComp_spec .estop i (d.returning i k)
  rw [startReturn_unasked k found forced unasked]
  refine ⟨?_, ?_, ?_, faultComp_absent i _, faulted.off .strokeReturn r (.inr rfl) found, (faulted.counted live).1,
    before.trans faulted.rest, fun j ne => ?_, fun j => faultComp_count rfl .estop i (d.returning i k) nofun⟩
  · rw [faulted.comp, comp]
    rfl
  · rw [(Station.faultComp_parts .estop i (d.returning i k)).1]
    rfl
  · rw [queue]
    exact congrArg (List.filter _) unasked
  · exact ((KeepsComp.refl j d).onComp ne _).faultComp ne .estop

theorem forwardLate_stopped {i : Fin 4} {r : Fin 16} {d : Station} (k : CompCfg)
    (lr : d.findOut .strokeReturn .compartment (i.val + 1) = some r) (forced : (d.dou.lines[r]'r.isLt).forced = true)
    (unasked : d.gcc.queue = []) :
    let b := d.forwardLate i k
    (b.gcc.comps[i]'i.isLt) = { d.gcc.comps[i]'i.isLt with faultPending := true, state := .fault, cause := .estop, timer := none } ∧
    b.gcc.holder ≠ some i ∧ b.gcc.queue = [] ∧ b.condition .grateStrokeTimeout (i.val + 1) = false ∧
    b.condition .limitConflict (i.val + 1) = false ∧ b.dou.lines[r]'r.isLt = { d.dou.lines[r]'r.isLt with on := false, pin := false } ∧
    .sruContribution (.grateFault i) ∈ b.signals ∧ GrateOnly d b := by
  have out : i ∉ d.gcc.queue := by rw [unasked]; nofun
  have stopped := startReturn_stopped (d := d.lateReleased i) k ((lateReleased_findOut _ _).trans lr)
    ((lateReleased_forced out lr).trans forced) (releaseGrant_unasked (by rw [late_queue]; exact unasked))
  have holder : (d.lateReleased i).gcc.holder ≠ some i := releaseGrant_free (by rw [late_queue]; exact out)
  have line := lateReleased_line out lr
  refine ⟨?_, ?_, stopped.queue, stopped.absent.1, stopped.absent.2, ?_, stopped.counted, lateReleased_grate.trans stopped.rest⟩
  · exact stopped.comp.trans (by rw [lateReleased_comp out])
  · refine fun held => holder ?_
    have grant := stopped.grant.symm.trans held
    rwa [if_neg holder] at grant
  · exact stopped.line.trans (by rw [line]; exact strokeOff_off (.inl rfl) i r d)

/-! ## The grant through held-off compartments, by its three causes -/

section
variable {i : Fin 4} {d : Station} (held : d.gcc.holder = some i) (out : i ∉ d.gcc.queue) (off : queueHeldOff d)
include held out off

theorem endForward_through (k : CompCfg) (dwell : k.dwell ≠ 0) :
    let b := d.endForward i k
    QueueFaulted d b ∧ GrateOnly d b ∧ b.gcc.comps[i]'i.isLt =
      { d.gcc.comps[i]'i.isLt with state := .dwell, timer := some (.dwell, d.now + k.dwell * 1000) } := by
  let x := ((d.strokeOff .strokeForward i).onComp i fun c => { c with state := .dwell, timer := none }).onGcc fun g =>
    { g with holder := none }
  have grate : GrateOnly d x := (((GrateOnly.refl d).strokeOff _ i).onComp i _).onGcc _
  have keeps (j : Fin 4) (ne : i ≠ j) : KeepsComp j d x :=
    (((KeepsComp.refl j d).strokeOff ne (.inl rfl)).onComp ne _).onGcc _ rfl (fun _ => nofun) id
  have signals : x.signals = d.signals := by
    rw [show x.signals = (d.strokeOff .strokeForward i).signals from rfl, strokeOff_rest]
  have queue : x.gcc.queue = d.gcc.queue := (congrArg Gcc.queue (Station.strokeOff_gcc .strokeForward i d) :)
  have comp : x.gcc.comps[i]'i.isLt = { d.gcc.comps[i]'i.isLt with state := .dwell, timer := none } :=
    (onComp_same i _ (d.strokeOff .strokeForward i)).trans (by rw [Station.strokeOff_gcc])
  obtain ⟨through, all, here⟩ := grant_through_from off out rfl queue grate keeps fun j => congrArg (List.count _) signals
  have given : ((d.strokeOff .strokeForward i).onComp i fun c => { c with state := .dwell, timer := none }).releaseGrant i =
      x.grant := if_pos (by
    rw [onComp_gcc, Station.strokeOff_gcc]
    exact held)
  have whole : d.endForward i k = (x.grant.onComp i fun c =>
      { c with timer := some (.dwell, x.grant.inMs k.dwell) }).stageCooler := by
    unfold Station.endForward
    dsimp only
    rw [given, if_neg dwell]
  have now : x.grant.now = d.now := by rw [all.rest.rest]
  rw [comp] at here
  dsimp only
  rw [whole]
  clear_value x
  generalize x.grant = y at *
  refine ⟨through.andThen all ((GrateOnly.refl y).onComp i _).stageCooler ?_ (fun j mem => ?_) (fun j => ?_),
    (all.onComp i _).stageCooler, ?_⟩
  · rw [stageCooler_rest]
    exact through.grant
  · exact ((KeepsComp.refl j y).onComp (fun h : i = j => out (h ▸ mem)) _).stageCooler
  · rw [stageCooler_rest]
    rfl
  · rw [stageCooler_rest]
    refine (onComp_same i (fun c => { c with timer := some (.dwell, y.inMs k.dwell) }) y).trans ?_
    rw [here, ← now]
    rfl

theorem limitConflict_through (live : (d.gcc.comps[i]'i.isLt).state ≠ .fault) :
    let b := d.limitConflict i
    QueueFaulted d b ∧ GrateOnly d b ∧ b.gcc.comps[i]'i.isLt = { d.gcc.comps[i]'i.isLt with
      state := .fault, cause := .limitConflict, timer := none, faultPending := false, stopAtEnd := false } := by
  let x := (d.faultComp .limitConflict i).report .limitConflict (i.val + 1) true
  have only : AlarmsOnly (d.faultComp .limitConflict i) x := report_only ..
  obtain ⟨faulted, left⟩ := faultComp_spec .limitConflict i d
  have parts := only.gcc.trans (Station.faultComp_parts .limitConflict i d).1
  have free : x.gcc.holder = none := (congrArg Gcc.holder parts).trans (if_pos held)
  have queue : x.gcc.queue = d.gcc.queue := by
    rw [only.gcc, left]
    exact List.filter_eq_self.2 fun j mem => by simpa using fun h : j = i => out (h ▸ mem)
  have keeps (j : Fin 4) (ne : i ≠ j) : KeepsComp j d x := ((KeepsComp.refl j d).faultComp ne _).report ne _ true
  have counts (j : Fin 4) : CountKept (.stroke j) d x :=
    (faultComp_count (x := .stroke j) rfl .limitConflict i d nofun).trans (report_count rfl _ _ _ _)
  obtain ⟨through, all, here⟩ := grant_through_from off out free queue (faulted.rest.alarms only) keeps counts
  dsimp only
  rw [limitConflict_live live]
  refine ⟨through, all, here.trans ?_⟩
  rw [only.gcc, faulted.comp]
  rfl

theorem forwardLate_through {r : Fin 16} (k : CompCfg) (lr : d.findOut .strokeReturn .compartment (i.val + 1) = some r)
    (forced : (d.dou.lines[r]'r.isLt).forced = true) :
    let b := d.forwardLate i k
    QueueFaulted d b ∧ GrateOnly d b ∧ b.gcc.comps[i]'i.isLt =
      { d.gcc.comps[i]'i.isLt with faultPending := true, state := .fault, cause := .estop, timer := none } := by
  let x := (d.late i).onGcc fun g => { g with holder := none }
  have grate : GrateOnly d x := (late_grate i d).onGcc _
  have keeps (j : Fin 4) (ne : i ≠ j) : KeepsComp j d x := (late_keeps i d ne).onGcc _ rfl (fun _ => nofun) id
  have given : d.lateReleased i = x.grant := if_pos ((late_holder i d).trans held)
  obtain ⟨through, all, -⟩ := grant_through_from off out (x := x) rfl (late_queue i d) grate keeps (late_counts i d)
  rw [← given] at through all
  have stopped := startReturn_stopped (d := d.lateReleased i) k ((lateReleased_findOut _ _).trans lr)
    ((lateReleased_forced out lr).trans forced) through.grant.2
  refine ⟨through.andThen all stopped.rest ⟨?_, stopped.queue⟩ (fun j mem => stopped.keeps j fun h => out (h ▸ mem)) stopped.counts,
    all.trans stopped.rest, stopped.comp.trans (by rw [lateReleased_comp out])⟩
  refine stopped.grant.trans ?_
  rw [through.grant.1]
  rfl

end

/-! ## A held-off grant -/

theorem GrateOnly.ofGcc (d : Station) (g g' : Gcc) : GrateOnly { d with gcc := g } { d with gcc := g' } :=
  ⟨.refl _ _, .refl _⟩

/-- A compartment alone whose LINE ON is held off at its grant (R138, R142). -/
theorem wait_stopped {i : Fin 4} {l : Fin 16} {k : CompCfg} {d : Station} (cfg : (d.gcc.comps[i]'i.isLt).cfg = some k)
    (live : (d.gcc.comps[i]'i.isLt).state ≠ .fault) (free : d.gcc.holder = none) (unasked : d.gcc.queue = [])
    (found : d.findOut .strokeForward .compartment (i.val + 1) = some l) (forced : (d.dou.lines[l]'l.isLt).forced = true) :
    let b := d.wait i
    b.gcc.holder = none ∧ b.gcc.queue = [] ∧
    b.condition .grateStrokeTimeout (i.val + 1) = false ∧ b.condition .limitConflict (i.val + 1) = false ∧
    CompFaulted .estop i (d.onComp i fun c =>
      { c with shadow := c.preload, due := some (d.now + 600000 / c.preload * 1000) }) b := by
  have config : ((d.queued i).gcc.comps[i]'i.isLt).cfg = some k :=
    (congrArg Compartment.cfg (onComp_same i (fun c => { c with state := .waiting }) d)).trans cfg
  let x := (d.queued i).granted i [] k
  have whole : x = { d with gcc := x.gcc } := rfl
  obtain ⟨faulted, left⟩ := faultComp_spec .estop i x
  have queue : (x.faultComp .estop i).gcc.queue = [] := left
  have holder : (x.faultComp .estop i).gcc.holder = none := by
    rw [(Station.faultComp_parts .estop i x).1]
    exact if_pos rfl
  have passed : (d.queued i).passGrant 5 = x.faultComp .estop i :=
    (passGrant_forced 4 (d := d.queued i) free (queued_alone unasked) config found forced).trans (passGrant_unasked 4 queue)
  have absent := faultComp_absent i x
  have comp : x.gcc.comps[i]'i.isLt = { d.gcc.comps[i]'i.isLt with
      shadow := (d.gcc.comps[i]'i.isLt).preload, due := some (d.now + 600000 / (d.gcc.comps[i]'i.isLt).preload * 1000), state := .forward
      timer := some (.forwardLimit, d.inMs k.forwardLimit) } :=
    (onComp_same i _ ((d.queued i).onGcc fun g => { g with holder := some i, queue := [] })).trans
      (by rw [show (((d.queued i).onGcc fun g => { g with holder := some i, queue := [] }).gcc.comps[i]'i.isLt) = _ from vecModify_same _ _ _]
          rfl)
  have others (j : Fin 4) (ne : j ≠ i) : x.gcc.comps[j]'j.isLt = d.gcc.comps[j]'j.isLt :=
    (vecModify_ne _ _ _ _ _ fun h => ne (Fin.ext h.symm)).trans (vecModify_ne _ _ _ _ _ fun h => ne (Fin.ext h.symm))
  have since : CompFaulted .estop i (d.onComp i fun c =>
      { c with shadow := c.preload, due := some (d.now + 600000 / c.preload * 1000) }) (x.faultComp .estop i) := by
    refine faulted.since ⟨.forward, some (.forwardLimit, d.inMs k.forwardLimit), ?_, fun _ => by nofun⟩ (fun j ne => ?_)
      (fun j _ mem => ?_) (fun k l _ _ => by rw [whole]; rfl) ?_
    · rw [comp, onComp_same]
    · exact (others j ne).trans (vecModify_ne _ _ _ _ _ fun h => ne (Fin.ext h.symm)).symm
    · rw [show x.gcc.queue = [] from rfl] at mem
      cases mem
    · rw [whole]
      exact .ofGcc d _ _
  generalize x.faultComp .estop i = b at *
  dsimp only
  rw [wait_eq, passed]
  refine ⟨?_, ?_, ?_, ?_, since.stage⟩ <;> rw [stageCooler_rest]
  · exact holder
  · exact queue
  · exact absent.1
  · exact absent.2

end Sys2Proof.Machine
end

section
/-! SUPPORT. The emergency stop of the Grate Cooler Controller, compartment after compartment (R142). -/

set_option Elab.async false

namespace Sys2Proof.Machine

/-- What the emergency stop does to one compartment. -/
def Station.compEstop (i : Fin 4) (d : Station) : Station :=
  if (d.gcc.comps[i]'i.isLt).cfg.isSome then d.faultComp .estop i else d

/-- What the emergency stop does to the Grate Cooler Controller (R142). -/
def Station.coolerEstop (d : Station) : Station :=
  forAll Station.compEstop (d.onGcc fun g => { g with holder := none, queue := [] })

theorem exec_gccEstopChange_off (s : State) : exec (.gccEstopChange false) s = act (.gccEstopChange false) (fun d => d) s := rfl

theorem exec_gccEstopChange_on (s : State) : exec (.gccEstopChange true) s = act (.gccEstopChange true) Station.coolerEstop s := rfl

/-- A compartment as the emergency stop leaves it. -/
structure CompStopped (i : Fin 4) (a b : Station) : Prop where
  comp : b.gcc.comps[i]'i.isLt = if (a.gcc.comps[i]'i.isLt).cfg.isSome then
    { a.gcc.comps[i]'i.isLt with state := .fault, cause := .estop, timer := none } else (a.gcc.comps[i]'i.isLt)
  configured : (a.gcc.comps[i]'i.isLt).cfg.isSome = true →
    b.condition .grateStrokeTimeout (i.val + 1) = false ∧ b.condition .limitConflict (i.val + 1) = false ∧
    (∀ (k : OutKind) (l : Fin 16), k = .strokeForward ∨ k = .strokeReturn →
      a.findOut k .compartment (i.val + 1) = some l → b.dou.lines[l]'l.isLt = { a.dou.lines[l]'l.isLt with on := false, pin := false }) ∧
    ((a.gcc.comps[i]'i.isLt).state ≠ .fault → b.ppt.events &&& 32 = 32)
  counted : b.signals.count (.sruContribution (.grateFault i)) = a.signals.count (.sruContribution (.grateFault i)) +
    if (a.gcc.comps[i]'i.isLt).cfg.isSome ∧ (a.gcc.comps[i]'i.isLt).state ≠ .fault then 1 else 0

theorem compEstop_stopped (i : Fin 4) (d : Station) : CompStopped i d (d.compEstop i) := by
  by_cases configured : (d.gcc.comps[i]'i.isLt).cfg.isSome = true
  · obtain ⟨faulted, -⟩ := faultComp_spec .estop i d
    obtain ⟨timeout, conflict⟩ := faultComp_absent i d
    rw [show d.compEstop i = d.faultComp .estop i from if_pos configured]
    refine ⟨?_, fun _ => ⟨timeout, conflict, faulted.off, fun live => (faulted.counted live).2⟩, ?_⟩
    · rw [faulted.comp, if_pos configured]
      rfl
    · rw [faultComp_grateFault]
      by_cases fault : (d.gcc.comps[i]'i.isLt).state = .fault
      · rw [if_pos fault, if_neg fun h => h.2 fault]
      · rw [if_neg fault, if_pos ⟨configured, fault⟩]
  · rw [show d.compEstop i = d from if_neg configured]
    exact ⟨(if_neg configured).symm, fun h => (configured h).elim, by rw [if_neg fun h => configured h.1]; rfl⟩

/-- A compartment stopped and then left alone. -/
theorem CompStopped.andThen {i : Fin 4} {a x b : Station} (h : CompStopped i a x) (before : GrateOnly a x) (keeps : KeepsComp i x b)
    (rest : GrateOnly x b) (count : CountKept (.grateFault i) x b) : CompStopped i a b := by
  refine ⟨keeps.comp.trans h.comp, fun configured => ?_, Eq.trans count h.counted⟩
  obtain ⟨timeout, conflict, off, event⟩ := h.configured configured
  refine ⟨(keeps.conds _ (.inl rfl)).trans timeout, (keeps.conds _ (.inr rfl)).trans conflict, fun k l kind found => ?_, fun live => ?_⟩
  · have same : x.findOut k .compartment (i.val + 1) = some l := (findOut_congr (fun m => (before.lines m).1) _ _ _).trans found
    exact (keeps.lines k l same).trans (off k l kind found)
  · have e := event live
    rw [BitVec.and_comm] at e ⊢
    exact events_trans e rest.rest.events

/-- A compartment left alone and then stopped. -/
theorem CompStopped.since {i : Fin 4} {a x b : Station} (h : CompStopped i x b) (keeps : KeepsComp i a x)
    (count : CountKept (.grateFault i) a x) : CompStopped i a b := by
  obtain ⟨comp, configured, counted⟩ := h
  rw [keeps.comp] at comp configured counted
  refine ⟨comp, fun some => ?_, by rw [counted, count]⟩
  obtain ⟨timeout, conflict, off, event⟩ := configured some
  refine ⟨timeout, conflict, fun k l kind found => ?_, event⟩
  rw [off k l kind (by rw [findOut_congr keeps.cfg]; exact found), keeps.lines k l found]

theorem compEstop_keeps {i j : Fin 4} (ne : i ≠ j) (d : Station) : KeepsComp j d (d.compEstop i) := by
  unfold Station.compEstop
  split
  · exact (KeepsComp.refl j d).faultComp ne .estop
  · exact .refl j d

theorem compEstop_grate (i : Fin 4) (d : Station) : GrateOnly d (d.compEstop i) := by
  unfold Station.compEstop
  split
  · exact (GrateOnly.refl d).faultComp .estop i
  · exact .refl d

theorem compEstop_count {i j : Fin 4} (ne : i ≠ j) (d : Station) : CountKept (.grateFault j) d (d.compEstop i) := by
  unfold Station.compEstop
  split
  · exact faultComp_count rfl .estop i d fun h => ne (Contribution.grateFault.inj h).symm
  · exact .refl _ d

/-- What the stops of compartments leave of the grant and the fans. -/
theorem compEstop_grant (i : Fin 4) (d : Station) (free : d.gcc.holder = none) (unasked : d.gcc.queue = []) :
    (d.compEstop i).gcc.holder = none ∧ (d.compEstop i).gcc.queue = [] ∧ (d.compEstop i).gcc.fans = d.gcc.fans := by
  unfold Station.compEstop
  split
  · rw [(Station.faultComp_parts .estop i d).1, free, unasked]
    exact ⟨rfl, rfl, rfl⟩
  · exact ⟨free, unasked, rfl⟩

/-- The emergency stop under way: compartments of a list stopped, the others left alone. -/
structure CoolerStopped (l : List (Fin 4)) (a b : Station) : Prop where
  grate : GrateOnly a b
  grant : b.gcc.holder = none ∧ b.gcc.queue = [] ∧ b.gcc.fans = a.gcc.fans
  stopped : ∀ i ∈ l, CompStopped i a b
  others : ∀ i ∉ l, KeepsComp i a b ∧ CountKept (.grateFault i) a b

theorem compEstops_stopped (l : List (Fin 4)) (nodup : l.Nodup) (d : Station) (free : d.gcc.holder = none)
    (unasked : d.gcc.queue = []) : CoolerStopped l d (l.foldl (fun d i => d.compEstop i) d) := by
  induction l generalizing d with
  | nil => exact ⟨.refl d, ⟨free, unasked, rfl⟩, nofun, fun i _ => ⟨.refl i d, .refl _ d⟩⟩
  | cons j l ih =>
    obtain ⟨fresh, nodup⟩ := List.nodup_cons.1 nodup
    obtain ⟨free, unasked, fans⟩ := compEstop_grant j d free unasked
    obtain ⟨grate, grant, stopped, others⟩ := ih nodup (d.compEstop j) free unasked
    have first := compEstop_stopped j d
    have before := compEstop_grate j d
    rw [List.foldl_cons]
    refine ⟨before.trans grate, ⟨grant.1, grant.2.1, grant.2.2.trans fans⟩, List.forall_mem_cons.2 ⟨?_, fun i mem => ?_⟩, fun i out => ?_⟩
    · obtain ⟨keeps, count⟩ := others j fresh
      exact first.andThen before keeps grate count
    · have ne : j ≠ i := fun h => fresh (h ▸ mem)
      exact (stopped i mem).since (compEstop_keeps ne d) (compEstop_count ne d)
    · obtain ⟨ne, out⟩ := not_or.1 fun h => out (List.mem_cons.2 h)
      obtain ⟨keeps, count⟩ := others i out
      exact ⟨(compEstop_keeps (Ne.symm ne) d).trans keeps, (compEstop_count (Ne.symm ne) d).trans count⟩

theorem coolerEstop_stopped (d : Station) : GrateOnly d d.coolerEstop ∧ d.coolerEstop.gcc.holder = none ∧
    d.coolerEstop.gcc.queue = [] ∧ d.coolerEstop.gcc.fans = d.gcc.fans ∧ ∀ i, CompStopped i d d.coolerEstop := by
  obtain ⟨grate, ⟨free, unasked, fans⟩, stopped, -⟩ := compEstops_stopped (List.finRange 4) (List.nodup_finRange 4)
    (d.onGcc fun g => { g with holder := none, queue := [] }) rfl rfl
  exact ⟨((GrateOnly.refl d).onGcc _).trans grate, free, unasked, fans, fun i => by
    obtain ⟨comp, configured, counted⟩ := stopped i (List.mem_finRange i)
    exact ⟨comp, configured, counted⟩⟩

/-! ## A compartment noted before the grant passes on -/

section
variable {i : Fin 4} {d b : Station} {f : Compartment → Compartment}

theorem noted_keeps (out : i ∉ d.gcc.queue) (j : Fin 4) (mem : j ∈ d.gcc.queue) : KeepsComp j d (d.onComp i f) :=
  (KeepsComp.refl j d).onComp (fun h : i = j => out (h ▸ mem)) f

theorem noted_heldOff (out : i ∉ d.gcc.queue) (off : queueHeldOff d) (f : Compartment → Compartment) :
    queueHeldOff (d.onComp i f) := off.since rfl (noted_keeps out)

theorem noted_through (out : i ∉ d.gcc.queue) (h : QueueFaulted (d.onComp i f) b) : QueueFaulted d b :=
  h.since rfl rfl (noted_keeps out) fun _ => rfl

theorem noted_grate (h : GrateOnly (d.onComp i f) b) : GrateOnly d b := ((GrateOnly.refl d).onComp i f).trans h

end

end Sys2Proof.Machine

open Sys2Proof Sys2Proof.Machine in
/-- Settles O43: each fault by its event, and the grant that passes on. -/
theorem strokeFaultsStopTheCompartment : Obligations.StrokeFaultsStopTheCompartment := by
  refine ⟨fun i s k cfg => ?_, fun s => ⟨exec_eq exec_gccEstopChange_off rfl, Runs.of_act exec_gccEstopChange_on ?_⟩⟩
  · intro c forward back limit
    have changed {cmd : Instr} (f : Compartment → Compartment) : ((s.dev.take cmd).onComp i f).gcc.comps[i]'i.isLt = f c :=
      onComp_same i f (s.dev.take cmd)
    refine ⟨fun live ends => Runs.of_act (exec_forwardChange i) ?_, fun live ends => Runs.of_act (exec_returnChange i) ?_,
      fun st ends pending => Runs.of_act (exec_returnChange i) ?_,
      fun e timer => Runs.of_act (exec_returnLimitExpiry i) ?_,
      fun e l r timer lf lr free out => Runs.of_act (exec_forwardLimitExpiry i) ?_,
      fun e r timer lr forced unasked => Runs.of_act (exec_forwardLimitExpiry i) ?_,
      fun held out off => ⟨fun st ends dwell => Runs.of_act (exec_forwardChange i) ?_,
        fun live ends => Runs.of_act (exec_forwardChange i) ?_,
        fun e r timer lr forced => Runs.of_act (exec_forwardLimitExpiry i) ?_⟩,
      fun l st free unasked lf forced => Runs.of_act (exec_dueTimeReached i) ?_,
      fun e r timer lr forced live => Runs.of_act (exec_dwellExpiry i) ?_⟩
    · rw [forwardChange_active (d := s.dev.take forward) cfg, forwardEnded_conflict (d := s.dev.take forward) k ends,
        limitConflict_live (by rw [changed]; exact live)]
      exact faultReported .limitConflict (.inr rfl) i _
    · rw [returnChange_active (d := s.dev.take back) cfg, returnEnded_conflict (d := s.dev.take back) ends,
        limitConflict_live (by rw [changed]; exact live)]
      exact faultReported .limitConflict (.inr rfl) i _
    · rw [returnChange_active (d := s.dev.take back) cfg, returnEnded_returning (d := s.dev.take back) ends st]
      exact endReturn_faulted
        ((congrArg Compartment.faultPending (changed (cmd := back) fun c => { c with endReturn := true })).trans pending)
    · rw [returnExpiry_runs (d := s.dev.take (.returnLimitExpiry i)) timer]
      exact faultReported .grateStrokeTimeout (.inl rfl) i _
    · rw [forwardExpiry_runs (d := s.dev.take limit) cfg timer]
      exact forwardLate_returns (d := s.dev.take limit) k out lf lr free
    · rw [forwardExpiry_runs (d := s.dev.take limit) cfg timer]
      exact forwardLate_stopped (d := s.dev.take limit) k lr forced unasked
    · rw [forwardChange_active (d := s.dev.take forward) cfg, forwardEnded_forward (d := s.dev.take forward) k ends st]
      obtain ⟨through, grate, comp⟩ := endForward_through (i := i)
        (d := (s.dev.take forward).onComp i fun c => { c with endForward := true }) held out (noted_heldOff out off _) k dwell
      exact ⟨noted_through out through, noted_grate grate, comp.trans (by rw [changed]; rfl)⟩
    · rw [forwardChange_active (d := s.dev.take forward) cfg, forwardEnded_conflict (d := s.dev.take forward) k ends]
      obtain ⟨through, grate, comp⟩ := limitConflict_through (i := i)
        (d := (s.dev.take forward).onComp i fun c => { c with endForward := true }) held out (noted_heldOff out off _)
        (by rw [changed]; exact live)
      exact ⟨noted_through out through, noted_grate grate, comp.trans (by rw [changed])⟩
    · rw [forwardExpiry_runs (d := s.dev.take limit) cfg timer]
      exact forwardLate_through (d := s.dev.take limit) held out off k lr forced
    · have live : c.state ≠ .fault := by rw [st]; nofun
      rw [dueReached_rest (d := s.dev.take (.dueTimeReached i)) st]
      exact wait_stopped (d := s.dev.take (.dueTimeReached i)) cfg live free unasked lf forced
    · rw [dwellEnded_runs (d := s.dev.take (.dwellExpiry i)) cfg timer]
      exact startReturn_faulted (d := s.dev.take (.dwellExpiry i)) k lr forced live
  · obtain ⟨grate, free, unasked, fans, stopped⟩ := coolerEstop_stopped (s.dev.take (.gccEstopChange true))
    refine ⟨grate, free, unasked, fans, fun i => ?_⟩
    obtain ⟨comp, configured, counted⟩ := stopped i
    exact ⟨comp, configured, counted⟩
end

section
/-! SUPPORT. The service window: periods, lapses, and what the host asks of its events (R190, R195 to R197). -/

set_option Elab.async false

namespace Sys2Proof.Machine

/-- The closed part of a service period, in ticks (R195). -/
def shutTicks (c : ServiceCfg) : Nat := c.period * 1000000 * (100 - c.openFraction) / 100

/-- A Panel Port that a period begins on: its closed part, its end, and the moment it begins (R195). -/
def Ppt.periodBegun (shut ending now : Nat) (p : Ppt) : Ppt := { p with
  window := if shut = 0 then .openPart else .closed
  openAt := if shut = 0 then none else some (now + shut)
  periodEnd := some ending }

theorem startPeriod_eq (d : Station) : d.startPeriod =
    { d with ppt := d.ppt.periodBegun (shutTicks d.serviceCfg) (d.now + d.serviceCfg.period * 1000000) d.now } := rfl

theorem periodBegun_shown (here : Bool) (events : Byte) (shut ending now : Nat) (p : Ppt) :
    { p with present := here, events := events }.periodBegun shut ending now =
      { p.periodBegun shut ending now with present := here, events := events } := rfl

theorem periodBegun_events (shut ending now : Nat) (p : Ppt) : (p.periodBegun shut ending now).events = p.events := rfl

/-- Alarm operations keep the configuration. -/
theorem AlarmsOnly.cfg {a b : Station} (h : AlarmsOnly a b) : b.cfg = a.cfg := (congrArg Ppt.cfg h.ppt).trans rfl

theorem AlarmsOnly.serviceCfg {a b : Station} (h : AlarmsOnly a b) : b.serviceCfg = a.serviceCfg := by
  unfold Station.serviceCfg
  rw [h.cfg]

theorem AlarmsOnly.panel {a b : Station} (h : AlarmsOnly a b) : b.lpc.staging.panel = a.lpc.staging.panel :=
  (congrArg (fun l => l.staging.panel) h.lpc).trans rfl

/-- A change of the Panel Port beside alarm operations. -/
theorem AlarmsOnly.withPpt {a b : Station} (h : AlarmsOnly a b) (p : Ppt) :
    AlarmsOnly { a with ppt := p } { b with ppt := p } :=
  ⟨h.signals, BitVec.and_self, by rw [h.rest]⟩

/-- The Panel Port present or absent, with its piece of the common part written (R195, R196). -/
def Station.panelShown (here : Bool) (d : Station) : Station := (d.onPpt fun p => { p with present := here }).stagePanel

theorem panelShown_eq (here : Bool) (d : Station) : d.panelShown here = { d with
    ppt := { d.ppt with present := here }
    lpc := { d.lpc with staging := { d.lpc.staging with
      panel := some { station := stationByte d.own, sig := d.ppt.sig.getD 0, present := here } } } } := rfl

/-- The Panel Port's piece of the common part (R12). -/
def Station.panelCommon (here : Bool) (d : Station) : Option PanelCommon :=
  some { station := stationByte d.own, sig := d.ppt.sig.getD 0, present := here }

/-- The first SERVICE (R195). -/
def Station.servedFirst (d : Station) : Station := ((d.panelShown true).report .panelAbsent 0 false).startPeriod

/-- What shows the Panel Port, reports, and changes its record (R195, R196). -/
theorem shown_then {here : Bool} {d y : Station} (only : AlarmsOnly (d.panelShown here) y) (p : Ppt) :
    ({ y with ppt := p } : Station).lpc.staging.panel = d.panelCommon here ∧
    AlarmsOnly { d with ppt := p, lpc := { d.lpc with staging := { d.lpc.staging with panel := d.panelCommon here } } }
      { y with ppt := p } :=
  ⟨only.panel, only.withPpt p⟩

/-- What the first SERVICE leaves of a Panel Port record. -/
theorem shown_period {here : Bool} {d y : Station} (only : AlarmsOnly (d.panelShown here) y) (shut ending now : Nat) :
    let p := y.ppt.periodBegun shut ending now
    p = { d.ppt.periodBegun shut ending now with present := here, events := p.events } := by
  intro p
  have shown : y.ppt = { d.ppt with present := here, events := y.ppt.events } := only.ppt
  exact (congrArg (Ppt.periodBegun shut ending now) shown).trans (periodBegun_shown ..)

/-- What the first SERVICE leaves, for a period's closed part and end (R195). -/
def ServedFirst (shut ending : Nat) (d x : Station) : Prop :=
  x.ppt = { d.ppt.periodBegun shut ending d.now with present := true, events := x.ppt.events } ∧
  x.condition .panelAbsent 0 = false ∧ x.lpc.staging.panel = d.panelCommon true ∧
  AlarmsOnly { d with ppt := x.ppt, lpc := { d.lpc with staging := { d.lpc.staging with panel := d.panelCommon true } } } x

theorem servedFirst_of {d y : Station} (only : AlarmsOnly (d.panelShown true) y) (condition : y.condition .panelAbsent 0 = false)
    (shut ending : Nat) : ServedFirst shut ending d { y with ppt := y.ppt.periodBegun shut ending d.now } := by
  obtain ⟨panel, rest⟩ := shown_then only (y.ppt.periodBegun shut ending d.now)
  exact ⟨shown_period only shut ending d.now, (condition_of_alm (b := y) rfl _ _).trans condition, panel, rest⟩

theorem startPeriod_from {d y : Station} (cfg : y.serviceCfg = d.serviceCfg) (now : y.now = d.now) : y.startPeriod =
    { y with ppt := y.ppt.periodBegun (shutTicks d.serviceCfg) (d.now + d.serviceCfg.period * 1000000) d.now } := by
  rw [startPeriod_eq, cfg, now]

theorem servedFirst_spec (d : Station) :
    ServedFirst (shutTicks d.serviceCfg) (d.now + d.serviceCfg.period * 1000000) d d.servedFirst := by
  have only : AlarmsOnly (d.panelShown true) ((d.panelShown true).report .panelAbsent 0 false) := report_only ..
  have whole : d.servedFirst = _ := startPeriod_from only.serviceCfg only.now
  rw [whole]
  exact servedFirst_of only (report_condition ..) _ _

/-- What a lapse leaves (R196). -/
def LapsedTo (a b : Station) : Prop :=
  let common := some (α := PanelCommon) { station := stationByte a.own, sig := a.ppt.sig.getD 0, present := false }
  b.ppt = { a.ppt with
    present := false, window := .awaitingFirst, openAt := none, periodEnd := none, events := b.ppt.events } ∧
  b.ppt.events &&& 64 = 64 ∧ b.condition .panelAbsent 0 = true ∧ b.lpc.staging.panel = common ∧
  .bsqPanelLapse ∈ b.signals ∧
  AlarmsOnly { a with ppt := b.ppt, lpc := { a.lpc with staging := { a.lpc.staging with panel := common } } } b

theorem lapse_lapsedTo (d : Station) : LapsedTo d d.lapse := by
  have only : AlarmsOnly (d.panelShown false) ((d.panelShown false).report .panelAbsent 0 true) := report_only ..
  have condition := report_condition .panelAbsent 0 true (d.panelShown false)
  have whole : d.lapse = ((((d.panelShown false).report .panelAbsent 0 true).post .lapse).raise .bsqPanelLapse).onPpt fun p =>
    { p with window := .awaitingFirst, openAt := none, periodEnd := none } := rfl
  rw [whole]
  generalize (d.panelShown false).report .panelAbsent 0 true = y at *
  have shown : y.ppt = { d.ppt with present := false, events := y.ppt.events } := only.ppt
  refine ⟨?_, ?_, (condition_of_alm (b := y) rfl _ _).trans condition, only.panel, List.mem_append_right _ (List.mem_singleton_self _), ?_⟩
  · show { y.ppt with window := .awaitingFirst, openAt := none, periodEnd := none, events := y.ppt.events ||| 64 } = _
    rw [shown]
    rfl
  · exact or_and_right_self _ _
  · exact (only.withPpt _).trans ⟨List.prefix_append _ _, BitVec.and_self, rfl⟩

/-- What SERVICE does by the state of its window (R195, R196). -/
def Station.served (d : Station) : Station :=
  match d.ppt.window with
  | .idle => d.wrongState
  | .awaitingFirst => d.servedFirst.ok
  | .closed => d.lapse.refuse .early
  | .openPart => d.startPeriod.ok

theorem exec_service (s : State) : exec .service s = act .service Station.served s := rfl

section
variable {d : Station}

theorem served_idle (h : d.ppt.window = .idle) : d.served = d.wrongState := by
  unfold Station.served
  rw [h]

theorem served_awaitingFirst (h : d.ppt.window = .awaitingFirst) : d.served = d.servedFirst.ok := by
  unfold Station.served
  rw [h]

theorem served_closed (h : d.ppt.window = .closed) : d.served = d.lapse.refuse .early := by
  unfold Station.served
  rw [h]

theorem served_openPart (h : d.ppt.window = .openPart) : d.served = d.startPeriod.ok := by
  unfold Station.served
  rw [h]

end

/-- What the open point does (R195). -/
def Station.openPoint (d : Station) : Station :=
  if d.ppt.window = .closed && d.ppt.openAt.isSome then d.onPpt fun p => { p with window := .openPart, openAt := none } else d

/-- What the end of a period does (R195, R196). -/
def Station.periodOver (d : Station) : Station :=
  if d.ppt.window = .openPart && d.ppt.periodEnd.isSome then d.lapse else d

/-- What READ EVENTS does (R190). -/
def Station.eventsRead (d : Station) : Station := (d.onPpt fun p => { p with events := 0 }).okWith [d.ppt.events]

theorem exec_readEvents (s : State) : exec .readEvents s = act .readEvents Station.eventsRead s := rfl

/-- What READ RESET CAUSE does (R197). -/
def Station.resetCauseRead (d : Station) : Station := (d.onPpt fun p => { p with cause := .none }).okWith [d.ppt.cause.code]

theorem resetCause_code (c : ResetCause) : c.code = match c with | .none => 0 | .powerOn => 1 | .resetLine => 2 := by
  cases c <;> rfl

theorem exec_readResetCause (s : State) : exec .readResetCause s = act .readResetCause Station.resetCauseRead s := rfl

theorem exec_serviceOpenPoint (s : State) : exec .serviceOpenPoint s = act .serviceOpenPoint Station.openPoint s := rfl

theorem periodOver_open {d : Station} {e : Nat} (opened : d.ppt.window = .openPart) (due : d.ppt.periodEnd = some e) :
    d.periodOver = d.lapse := if_pos (by simp [opened, due])

theorem exec_servicePeriodExpiry (s : State) : exec .servicePeriodExpiry s = act .servicePeriodExpiry Station.periodOver s := rfl

end Sys2Proof.Machine

open Sys2Proof Sys2Proof.Machine in
/-- Settles O56: SERVICE by the state of its window. -/
theorem serviceKeepsTheWindowAndLapsesEndIt : Obligations.ServiceKeepsTheWindowAndLapsesEndIt := by
  intro s d c shut period common lapsed
  refine ⟨fun idle => exec_eq exec_service ?_, fun awaiting => Runs.of_act exec_service ⟨_, servedFirst_spec d, ?_⟩,
    fun closed => Runs.of_act exec_service ⟨_, lapse_lapsedTo d, ?_⟩, fun opened => exec_eq exec_service ?_,
    fun e closed at_ => exec_eq exec_serviceOpenPoint ?_, fun e opened at_ => Runs.of_act exec_servicePeriodExpiry ?_,
    exec_eq exec_readEvents rfl, exec_eq exec_readResetCause ?_⟩
  · exact served_idle (d := d) idle
  · exact served_awaitingFirst (d := d) awaiting
  · exact served_closed (d := d) closed
  · exact (served_openPart (d := d) opened).trans (congrArg Station.ok (startPeriod_eq d))
  · exact if_pos (by simp [closed, at_])
  · rw [periodOver_open (d := s.dev.take .servicePeriodExpiry) opened at_]
    exact lapse_lapsedTo _
  · exact congrArg (fun b => Station.answer .ok 0 [b] ((s.dev.take .readResetCause).onPpt fun p => { p with cause := .none }))
      (resetCause_code s.dev.ppt.cause)
end

section
/-! SUPPORT. Transactions of the Panel Port: what goes out, and what is made of what comes in (R187 to R189, R200). -/

set_option Elab.async false

namespace Sys2Proof.Machine

/-! ## Select -/

/-- What select fixes (R187). -/
def Station.selected (d : Station) : Station :=
  if d.ppt.outgoing.isSome then d else d.onPpt fun p => { p with outgoing := some p.outgoingNow }

theorem exec_selectAssert (s : State) : exec .selectAssert s = act .selectAssert Station.selected s := rfl

theorem selected_idle {d : Station} {o : Outgoing} (idle : d.ppt.outgoing = none) (now : d.ppt.outgoingNow = o) :
    d.selected = { d with ppt := { d.ppt with outgoing := some o } } := by
  subst now
  exact if_neg (by rw [idle]; nofun)

section
variable {p : Ppt}

theorem outgoingNow_note {n : Note} (h : p.note = some n) :
    p.outgoingNow = { source := .note, bytes := responseRecord n.tag n.code.code 0 [] } := by
  unfold Ppt.outgoingNow
  rw [h]

theorem outgoingNow_held {r : Response} (h : p.note = none) (k : p.holder = some r) :
    p.outgoingNow = { source := .held, bytes := responseRecord r.tag r.code.code r.reason r.body } := by
  unfold Ppt.outgoingNow
  rw [h, k]

theorem outgoingNow_pending {t : Byte} {c : Instr} (h : p.note = none) (k : p.holder = none) (l : p.slot = some (t, c)) :
    p.outgoingNow = { source := .pendingReply, bytes := responseRecord t RespCode.pending.code 0 [] } := by
  unfold Ppt.outgoingNow
  rw [h, k, l]

theorem outgoingNow_none (h : p.note = none) (k : p.holder = none) (l : p.slot = none) :
    p.outgoingNow = { source := .noneReply, bytes := noneRecord } := by
  unfold Ppt.outgoingNow
  rw [h, k, l]

end

/-! ## What came in -/

theorem be16_value (a b : Byte) : (be16 a b).toNat = a.toNat * 256 + b.toNat := by
  unfold be16
  rw [BitVec.toNat_append, ← Nat.shiftLeft_add_eq_or_of_lt b.isLt, Nat.shiftLeft_eq]

theorem be16_halves (h : Half) : be16 ((h >>> 8).setWidth 8) (h.setWidth 8) = h := (be16_eq_iff _ _ _).2 rfl

theorem judge_short {bytes : List Byte} (short : bytes.length < 4) : judgeIncoming bytes = .short := by
  unfold judgeIncoming
  split
  · simp only [List.length_cons] at short
    omega
  · rfl

theorem judge_cons (kind tag n1 n0 : Byte) (rest : List Byte) : judgeIncoming (kind :: tag :: n1 :: n0 :: rest) =
    let n := n1.toNat * 256 + n0.toNat
    if n > 240 then .badCheck tag
    else if rest.length < n + 2 then .short
    else if withCheck (kind :: tag :: n1 :: n0 :: rest.take n) = kind :: tag :: n1 :: n0 :: rest.take (n + 2) then
      .record kind tag (rest.take n)
    else .badCheck tag := by
  rw [← be16_value]
  rfl

/-- A whole record is taken, and bytes beyond it are ignored (R188). -/
theorem judge_record (kind tag : Byte) (body extra : List Byte) (small : body.length ≤ 240) :
    let n := BitVec.ofNat 16 body.length
    judgeIncoming (withCheck ([kind, tag, (n >>> 8).setWidth 8, n.setWidth 8] ++ body) ++ extra) = .record kind tag body := by
  intro n
  have length : ((n >>> 8).setWidth 8 : Byte).toNat * 256 + (n.setWidth 8 : Byte).toNat = body.length := by
    rw [← be16_value, be16_halves, BitVec.toNat_ofNat, Nat.mod_eq_of_lt (by omega)]
  generalize ((n >>> 8).setWidth 8 : Byte) = n1 at *
  generalize (n.setWidth 8 : Byte) = n0 at *
  let check := byte16 (checkCode ([kind, tag, n1, n0] ++ body))
  show judgeIncoming (kind :: tag :: n1 :: n0 :: (body ++ check ++ extra)) = _
  have first : (body ++ check ++ extra).take body.length = body := by
    rw [List.append_assoc]
    exact List.take_left
  have whole : (body ++ check ++ extra).take (body.length + 2) = body ++ check := by
    have two : body.length + 2 = (body ++ check).length := by rw [List.length_append]; rfl
    rw [two]
    exact List.take_left
  have long : ¬ (body ++ check ++ extra).length < body.length + 2 := by
    have two : check.length = 2 := rfl
    simp only [List.length_append, two]
    omega
  rw [judge_cons, length]
  dsimp only
  rw [first, whole, if_neg (by omega), if_neg long]
  exact if_pos rfl

/-! ## The release of select -/

/-- What the release of select does with a record (R187 to R189). -/
def Station.released (bytesIn : List Byte) (d : Station) : Station :=
  match d.ppt.outgoing with
  | none => d
  | some o =>
    let d := d.onPpt fun p => { p with outgoing := none, clockedOut := o.clocked bytesIn.length }
    match judgeIncoming bytesIn with
    | .short => d
    | .badCheck tag =>
      (d.onPpt (Ppt.clearSent o.source)).onPpt fun p => { p with note := some { code := .checkError, tag := tag } }
    | .record kind tag body => (d.onPpt (Ppt.clearSent o.source)).takeRecord kind tag body

theorem exec_selectRelease (bytesIn : List Byte) (s : State) :
    exec (.selectRelease bytesIn) s = act (.selectRelease bytesIn) (Station.released bytesIn) s := rfl

/-- The Panel Port once a transaction has gone out (R188). -/
def Ppt.idled (o : Outgoing) (n : Nat) (p : Ppt) : Ppt :=
  { p with outgoing := none, clockedOut := (o.bytes ++ List.replicate n 0).take n }

/-- The Panel Port once what was sent is cleared (R187). -/
def Ppt.sentOff (s : OutSource) (p : Ppt) : Ppt :=
  { p with note := if s = .note then none else p.note, holder := if s = .held then none else p.holder }

theorem clearSent_eq (s : OutSource) (p : Ppt) : p.clearSent s = p.sentOff s := by
  cases s <;> rfl

section
variable {d : Station} {o : Outgoing} {bytesIn : List Byte} (going : d.ppt.outgoing = some o)
include going

theorem released_short (short : judgeIncoming bytesIn = .short) :
    d.released bytesIn = { d with ppt := d.ppt.idled o bytesIn.length } := by
  unfold Station.released
  rw [going]
  dsimp only
  rw [short] <;> rfl

theorem released_badCheck {tag : Byte} (bad : judgeIncoming bytesIn = .badCheck tag) :
    d.released bytesIn = { d with
      ppt := { (d.ppt.idled o bytesIn.length).sentOff o.source with note := some { code := .checkError, tag := tag } } } := by
  rw [← clearSent_eq]
  unfold Station.released
  rw [going]
  dsimp only
  rw [bad] <;> rfl

theorem released_record {kind tag : Byte} {body : List Byte} (record : judgeIncoming bytesIn = .record kind tag body) :
    d.released bytesIn =
      ({ d with ppt := (d.ppt.idled o bytesIn.length).sentOff o.source } : Station).takeRecord kind tag body := by
  rw [← clearSent_eq]
  unfold Station.released
  rw [going]
  dsimp only
  rw [record] <;> rfl

end

/-! ## A record taken -/

section
variable {kind tag : Byte} {body : List Byte} {d : Station}

theorem takeRecord_none (h : kind = 0) (k : body = []) : d.takeRecord kind tag body = d := by
  subst h k
  rfl

theorem not_noneRecord (h : ¬ (kind = 0 ∧ body = [])) : ¬ (kind = 0 && body.isEmpty) = true := by
  simpa using h

theorem takeRecord_busy (h : ¬ (kind = 0 ∧ body = [])) (busy : d.ppt.slot ≠ none ∨ d.ppt.holder ≠ none) :
    d.takeRecord kind tag body = { d with ppt := { d.ppt with note := some { code := .busy, tag := tag } } } := by
  unfold Station.takeRecord
  rw [if_neg (not_noneRecord h), if_pos]
  · rfl
  · simpa [Option.isSome_iff_ne_none] using busy

theorem takeRecord_free (h : ¬ (kind = 0 ∧ body = [])) (free : ¬ (d.ppt.slot ≠ none ∨ d.ppt.holder ≠ none)) :
    d.takeRecord kind tag body = match requestOf kind body with
      | none => d.onPpt (Ppt.reject tag)
      | some c => (d.onPpt fun p => { p with slot := some (tag, c) }).raise c := by
  refine (if_neg (not_noneRecord h)).trans (if_neg ?_)
  simpa [Option.isSome_iff_ne_none] using free

theorem takeRecord_unknown (h : ¬ (kind = 0 ∧ body = [])) (free : ¬ (d.ppt.slot ≠ none ∨ d.ppt.holder ≠ none))
    (unknown : ∀ c, ¬ RequestSpelled kind body c) : d.takeRecord kind tag body =
      { d with ppt := { d.ppt with holder := some { tag := tag, code := .badField, reason := 0, body := [] } } } := by
  have none : requestOf kind body = none := Option.eq_none_iff_forall_ne_some.2 fun c some =>
    unknown c ((requestOf_eq_some kind body c).1 some)
  rw [takeRecord_free h free, none]
  rfl

theorem takeRecord_request {c : Instr} (free : ¬ (d.ppt.slot ≠ none ∨ d.ppt.holder ≠ none)) (spelled : RequestSpelled kind body c) :
    d.takeRecord kind tag body = { d with
      ppt := { d.ppt with slot := some (tag, c) }, signals := d.signals ++ [c] } := by
  have some := (requestOf_eq_some kind body c).2 spelled
  have named : ¬ (kind = 0 ∧ body = []) := by
    rintro ⟨rfl, rfl⟩
    cases some
  rw [takeRecord_free named free, some]
  rfl

end

end Sys2Proof.Machine

open Sys2Proof Sys2Proof.Machine in
/-- Settles O54: what goes out by what stands, and what comes in by its length, check, kind and body. -/
theorem transactionsSendAndTakeWholeRecords : Obligations.TransactionsSendAndTakeWholeRecords := by
  refine ⟨requestOf_eq_some, fun s => ?_⟩
  intro p
  refine ⟨?_, fun tag c code reason body slot => ?_, fun bytes o going => ?_⟩
  · intro after record
    refine ⟨fun n note idle => exec_eq exec_selectAssert ?_, fun r note held idle => exec_eq exec_selectAssert ?_,
      fun t c note held slot idle => exec_eq exec_selectAssert ?_, fun note held slot idle => exec_eq exec_selectAssert ?_⟩
    · exact selected_idle (d := s.dev.take .selectAssert) idle (outgoingNow_note note)
    · exact selected_idle (d := s.dev.take .selectAssert) idle (outgoingNow_held note held)
    · exact selected_idle (d := s.dev.take .selectAssert) idle (outgoingNow_pending note held slot)
    · exact selected_idle (d := s.dev.take .selectAssert) idle (outgoingNow_none note held slot)
  · unfold Station.answer Station.onPpt
    dsimp only
    rw [show s.dev.ppt.slot = some (tag, c) from slot] <;> rfl
  · intro cmd after idle sent
    refine ⟨fun short => ?_, fun kind tag n1 n0 rest whole => ?_, fun kind tag body extra small => ?_⟩
    · exact exec_eq (exec_selectRelease bytes) (released_short (d := s.dev.take cmd) going (judge_short short))
    · subst whole
      intro n
      have judged := judge_cons kind tag n1 n0 rest
      refine ⟨fun large => exec_eq (exec_selectRelease _) (released_badCheck (d := s.dev.take cmd) going (judged.trans (if_pos large))),
        fun fits cut => exec_eq (exec_selectRelease _) (released_short (d := s.dev.take cmd) going (judged.trans ?_)),
        fun fits long wrong => exec_eq (exec_selectRelease _) (released_badCheck (d := s.dev.take cmd) going (judged.trans ?_))⟩
      · exact (if_neg (Nat.not_lt.2 fits)).trans (if_pos cut)
      · exact (if_neg (Nat.not_lt.2 fits)).trans ((if_neg (Nat.not_lt.2 long)).trans (if_neg wrong))
    · intro n whole busy
      have judged : judgeIncoming bytes = .record kind tag body := by
        rw [whole]
        exact judge_record kind tag body extra small
      have taken {d : Station} (h : ({ s.dev.take cmd with ppt := sent } : Station).takeRecord kind tag body = d) :
          exec cmd s = .next { s with dev := d } :=
        exec_eq (exec_selectRelease bytes) ((released_record (d := s.dev.take cmd) going judged).trans h)
      exact ⟨fun none empty => taken (takeRecord_none none empty), fun named full => taken (takeRecord_busy named full),
        fun named free unknown => taken (takeRecord_unknown named free unknown),
        fun c free spelled => taken (takeRecord_request free spelled)⟩
end

section
/-! SUPPORT. The fields of response bodies and images as bytes (R201, Tables 12-2, 12-3 and 12-7). -/

set_option Elab.async false

namespace Sys2Proof.Machine

/-! ## Numbers in bytes -/

theorem byte16_value (h : Half) : byte16 h = [BitVec.ofNat 8 (h.toNat / 256), BitVec.ofNat 8 h.toNat] := by
  have high : (h >>> 8).setWidth 8 = BitVec.ofNat 8 (h.toNat / 256) := by
    apply BitVec.eq_of_toNat_eq
    rw [BitVec.toNat_setWidth, BitVec.toNat_ushiftRight, BitVec.toNat_ofNat, Nat.shiftRight_eq_div_pow]
  have low : h.setWidth 8 = BitVec.ofNat 8 h.toNat := by
    apply BitVec.eq_of_toNat_eq
    rw [BitVec.toNat_setWidth, BitVec.toNat_ofNat]
  unfold byte16
  rw [high, low]

theorem byte32_value (w : Word) : byte32 w = [BitVec.ofNat 8 (w.toNat / 16777216), BitVec.ofNat 8 (w.toNat / 65536),
    BitVec.ofNat 8 (w.toNat / 256), BitVec.ofNat 8 w.toNat] := by
  have shifted (n : Nat) : (w >>> n).setWidth 8 = BitVec.ofNat 8 (w.toNat / 2 ^ n) := by
    apply BitVec.eq_of_toNat_eq
    rw [BitVec.toNat_setWidth, BitVec.toNat_ushiftRight, BitVec.toNat_ofNat, Nat.shiftRight_eq_div_pow]
  have low : w.setWidth 8 = BitVec.ofNat 8 w.toNat := by
    apply BitVec.eq_of_toNat_eq
    rw [BitVec.toNat_setWidth, BitVec.toNat_ofNat]
  unfold byte32
  rw [shifted 24, shifted 16, shifted 8, low]
  rfl

theorem field32_small {n : Nat} (h : n ≤ 4294967295) : field32 n = byte32 (BitVec.ofNat 32 n) :=
  congrArg byte32 (if_pos h)

/-! ## Masks of stations -/

theorem markOf_bit (j i : Fin 16) : (markOf j).getLsbD i.val = decide (i = j) := by
  revert j i
  decide

theorem markFold_bit (l : List (Fin 16)) (m : Half) (i : Fin 16) :
    (l.foldl (fun m j => m ||| markOf j) m).getLsbD i.val = (m.getLsbD i.val || decide (i ∈ l)) := by
  induction l generalizing m with
  | nil => simp
  | cons j l ih =>
    rw [List.foldl_cons, ih, BitVec.getLsbD_or, markOf_bit, Bool.or_assoc]
    simp [List.mem_cons]

theorem stationSet_mask (l : List (Fin 16)) :
    ∃ m : Half, stationSet l = byte16 m ∧ ∀ i : Fin 16, m.getLsbD i.val = decide (i ∈ l) := by
  refine ⟨_, rfl, fun i => ?_⟩
  rw [markFold_bit]
  simp

/-! ## Codes -/

theorem kindCode_place (x : Option CondKind) : kindCode x = place
    [none, some .flameFail, some .ignitionFail, some .mainFlameFail, some .purgeAirLost, some .airFlowLost, some .estop,
     some .feederStall, some .feederReverse, some .weigherSilent, some .heatShortfall, some .coolerLoss,
     some .grateStrokeTimeout, some .limitConflict, some .pressureHigh, some .pressureLow, some .loopLost,
     some .duplicateStation, some .configMismatch, some .noticeLoss, some .panelAbsent, some .inputLine] x := by
  cases x with
  | none => rfl
  | some k => cases k <;> rfl

theorem stationField_none : stationField none = [0] := rfl

theorem fieldsWritten : FieldsWritten where
  check bytes := ⟨checkCode_eq bytes, by unfold withCheck; rw [checkCode_eq]⟩
  halves := byte16_value
  words := byte32_value
  figures n := ⟨rfl, rfl, field32_small⟩
  marks := ⟨rfl, rfl⟩
  options α f x := ⟨rfl, rfl⟩
  lists α f l := rfl
  sets := stationSet_mask
  timers d e := ⟨rfl, rfl⟩
  absent := ⟨rfl, stationField_none, fun n => ⟨rfl, rfl⟩⟩
  letters x := by cases x <;> rfl
  burners x := by cases x <;> rfl
  feeds x := by cases x <;> rfl
  coolers x := by cases x <;> rfl
  alarms x := by cases x <;> rfl
  announced x := by cases x <;> rfl
  classes x := by cases x <;> rfl
  kinds := kindCode_place
  causes x := by cases x <;> rfl
  firstOuts own kind station point peerKind := ⟨rfl, rfl⟩
  stops x := by cases x <;> rfl

/-! ## Images -/

/-- A peer's entry of a report (Table 12-7). -/
theorem peerTotals_bytes : PeerTotals.bytes = fun p => [BitVec.ofNat 8 (p.station.val + 1)] ++
    [place [.outstanding, .collected, .absent] p.mark] ++ byte32 p.heat ++ byte32 p.firing ++ byte32 p.strokes ++
    byte16 p.trips := by
  funext p
  have mark : field8 p.mark.ctorIdx = [place [.outstanding, .collected, .absent] p.mark] := by cases p.mark <;> rfl
  unfold PeerTotals.bytes
  rw [mark]
  rfl

theorem closeCause_code (c : CloseCause) : c.code = place [.boundary, .advance, .localClose, .interrupted] c + 1 := by
  cases c <;> rfl

theorem imagesWritten : ImagesWritten where
  alarm b := rfl
  notice n := by
    unfold Notice.bytes
    cases n.body <;> rfl
  station g := by
    unfold Image.bytes AlarmSummary.bytes ClosingPart.bytes
    simp only [List.append_assoc, List.cons_append, List.nil_append]
    rfl
  report r := by
    unfold Report.image AlarmCounts.bytes LoopCounts.bytes
    rw [closeCause_code, peerTotals_bytes]
    simp only [List.append_assoc, List.cons_append, List.nil_append]
    rfl

end Sys2Proof.Machine
end

section
/-! SUPPORT. What the parts of READ STATUS and the records hold (R20, R23, R40, R55, R71, R86, R112, R135, R152, R171, R186, R198). -/

set_option Elab.async false

namespace Sys2Proof.Machine

/-! ## Codes of enumerations -/

theorem window_code (x : Window) : field8 x.ctorIdx = [place [.idle, .awaitingFirst, .closed, .openPart] x] := by cases x <;> rfl

theorem loopState_code (x : LoopState) : field8 x.ctorIdx =
    [place [.bypassed, .joining, .up, .listenOnly, .claiming, .deferring, .breakSearch] x] := by cases x <;> rfl

theorem flameStatus_code (x : FlameStatus) : field8 x.ctorIdx = [place [.none, .proving, .proven, .lost] x] := by cases x <;> rfl

theorem verdict_code (x : Verdict) : field8 x.ctorIdx = [place [.good, .bad, .noSignal] x] := by cases x <;> rfl

theorem feedCause_code (x : FeedCause) : field8 x.ctorIdx = [place [.none, .feederStall, .feederReverse, .estop] x] := by
  cases x <;> rfl

theorem compState_code (x : CompState) : field8 x.ctorIdx =
    [place [.stopped, .rest, .waiting, .forward, .dwell, .returning, .fault] x] := by cases x <;> rfl

theorem rateMode_code (x : RateMode) : field8 x.ctorIdx = [place [.follow, .minimum, .base] x] := by cases x <;> rfl

theorem compCause_code (x : CompCause) : field8 x.ctorIdx = [place [.none, .strokeTimeout, .limitConflict, .estop] x] := by
  cases x <;> rfl

theorem compTimer_code (x : CompTimer) : field8 x.ctorIdx = [place [.forwardLimit, .dwell, .returnLimit] x] := by cases x <;> rfl

theorem channelFn_code (x : ChannelFn) : field8 x.ctorIdx =
    [place [.flameScanner, .pressure, .weigher, .encoder, .unassigned] x] := by cases x <;> rfl

theorem pulseMode_code (x : PulseMode) : field8 x.ctorIdx = [place [.period, .countWindow, .quadrature] x] := by cases x <;> rfl

theorem timebase_code (x : Timebase) : field8 x.ctorIdx = [place [.us1, .us8, .us64, .us512] x] := by cases x <;> rfl

theorem phase_code (x : ChannelPhase) : field8 x.ctorIdx = [place [.disabled, .seeking, .timing, .counting] x] := by cases x <;> rfl

theorem direction_code (x : Direction) : field8 x.ctorIdx = [place [.none, .forward, .reverse] x] := by cases x <;> rfl

theorem lineFn_code (x : LineFn) : field8 x.ctorIdx =
    [place [.airFlowProven, .idFanRunning, .estop, .endForward, .endReturn, .index, .general, .unused] x] := by cases x <;> rfl

theorem outKind_code (x : OutKind) : field8 x.ctorIdx =
    [place [.reference, .valve, .igniter, .strokeForward, .strokeReturn, .unused] x] := by cases x <;> rfl

theorem outFn_code (x : OutFn) : field8 x.ctorIdx =
    [place [.feeder, .fan, .pilotValve, .mainFuelRelease, .igniter, .compartment] x] := by cases x <;> rfl

theorem burst_code (x : Burst) : field8 x.ctorIdx = [place [.idle, .bursting, .ending] x] := by cases x <;> rfl

/-! ## The parts of READ STATUS -/

section
variable (d : Station)

theorem toList_map_finRange {α β : Type} {n : Nat} (v : Vector α n) (f : α → β) :
    v.toList.map f = (List.finRange n).map fun i => f (v[i]'i.isLt) := by
  apply List.ext_getElem
  · simp
  · intro i h₁ h₂
    simp

theorem windowLeft_eq : d.windowLeft =
    d.left (if d.ppt.window = .closed then d.ppt.openAt else if d.ppt.window = .openPart then d.ppt.periodEnd else none) := by
  unfold Station.windowLeft
  cases d.ppt.window <;> rfl

theorem panelPart_eq : d.panelPart =
    let r := d.ppt.cfg
    let loaded : List Bool := [r.station.isSome, r.loop.isSome, r.shift.isSome, r.service.isSome, r.flood.isSome] ++
      (List.finRange 8).map (fun i => (r.channels[i]'i.isLt).isSome) ++ (List.finRange 12).map (fun i => (r.lines[i]'i.isLt).isSome) ++
      (List.finRange 16).map (fun i => (r.outputs[i]'i.isLt).isSome) ++ [r.burner.isSome] ++
      (List.finRange 2).map (fun i => (r.feeds[i]'i.isLt).isSome) ++ (List.finRange 4).map (fun i => (r.comps[i]'i.isLt).isSome) ++
      (List.finRange 32).map fun i => (r.points[i]'i.isLt).isSome
    flag d.ppt.started ++ loaded.flatMap flag ++ optional byte16 d.ppt.sig ++
      [place [.idle, .awaitingFirst, .closed, .openPart] d.ppt.window] ++
      d.left (if d.ppt.window = .closed then d.ppt.openAt else if d.ppt.window = .openPart then d.ppt.periodEnd else none) ++
      flag d.ppt.present ++ flag (d.condition .panelAbsent 0) ++ [d.ppt.events] := by
  unfold Station.panelPart ConfigRecord.loaded Station.cfg
  simp only [toList_map_finRange]
  rw [window_code, windowLeft_eq]

theorem scanner_bytes : Scanner.bytes = fun x : Scanner => field32 x.good ++ field32 x.bad ++ field32 x.lastPeriod ++
    [place [.good, .bad, .noSignal] x.verdict] := by
  funext x
  unfold Scanner.bytes
  rw [verdict_code]

theorem entry_statusBytes : QueueEntry.statusBytes = fun e : QueueEntry =>
    (match e.body with | .alarmState _ => [1] | .ackRequest _ _ _ => [2] | .timeSet _ => [3]) ++
      (if e.placed then [1, e.seq] else [0]) ++ byte16 e.mask ++ field32 e.rotations := by
  funext e
  unfold QueueEntry.statusBytes
  cases e.body <;> cases e.placed <;> rfl

theorem hasWeigher_eq (ch : Fin 2) : d.hasWeigher ch = (d.findChannel .weigher (ch.val + 1)).isSome := rfl

theorem compStatus_eq (i : Fin 4) : d.compStatus i =
    let c := d.gcc.comps[i]'i.isLt
    [place [.stopped, .rest, .waiting, .forward, .dwell, .returning, .fault] c.state] ++
      [place [.follow, .minimum, .base] c.mode] ++ field32 c.shadow ++ field32 c.preload ++ field16 c.baseRate ++
      field32 c.pressure ++ flag c.pressureValid ++ optional field32 c.due ++ flag c.stopAtEnd ++ flag c.faultPending ++
      [place [.none, .strokeTimeout, .limitConflict, .estop] c.cause] ++
      optional (fun t : CompTimer × Nat => [place [.forwardLimit, .dwell, .returnLimit] t.1] ++
        field32 ((t.2 - d.now) / 1000)) c.timer := by
  unfold Station.compStatus
  simp only [compState_code, rateMode_code, compCause_code, compTimer_code]
  rfl

theorem alarmPoints_eq : d.alm.points.toList = (List.finRange 32).map fun i => d.alm.points[i]'i.isLt := by
  have all := toList_map_finRange d.alm.points id
  rwa [List.map_id] at all

theorem collecting_bytes (r : Sru) (f g : Report → List Byte) (same : ∀ p, f p = g p) : optional f r.collecting =
    match r.ring.getLast? with
    | some p => if p.complete then [0] else [1] ++ g p
    | none => [0] := by
  unfold Sru.collecting
  cases r.ring.getLast? with
  | none => rfl
  | some p => cases complete : p.complete <;> simp [optional, complete, same]

theorem outstanding_eq (p : Report) : (p.floor.filter fun e => e.mark == .outstanding) =
    p.floor.filter fun e => e.mark = .outstanding := rfl

/-! ## An output line -/

/-- The level of an output line that is commanded (R86). -/
theorem commanded_byte (on : Bool) : field8 (if on then 0 else 1) = [if on then 0 else 1] := by cases on <;> rfl

theorem outRecord_eq (i : Fin 16) : d.outRecord i =
    let l := d.dou.lines[i]'i.isLt
    let ends := flag l.forced ++ flag l.pin
    let on := [if l.on then 0 else 1]
    match l.cfg with
    | none => [5, 0, 0, 3] ++ ends
    | some k =>
      [place [.reference, .valve, .igniter, .strokeForward, .strokeReturn, .unused] k.kind] ++
        [place [.feeder, .fan, .pilotValve, .mainFuelRelease, .igniter, .compartment] k.fn] ++ field8 k.inst ++
        match k.kind with
        | .reference => [if k.fn = .feeder then 0 else 1] ++ flag k.inverted ++ field16 k.carrier ++ field16 k.interval ++
            field16 l.preload ++ field16 l.active ++ flag l.firstWrite ++ field32 l.position ++ field32 l.step ++ ends
        | .valve => [2] ++ on ++ ends
        | .igniter => [2] ++ [place [.idle, .bursting, .ending] l.burst] ++ flag l.inPulse ++ ends
        | .strokeForward => [1] ++ on ++ field32 l.refusals ++ ends
        | .strokeReturn => [1] ++ on ++ field32 l.refusals ++ ends
        | .unused => [3] ++ ends := by
  unfold Station.outRecord OutLine.owner
  dsimp only
  rw [commanded_byte, burst_code]
  cases (d.dou.lines[i]'i.isLt).cfg with
  | none => rfl
  | some k =>
    dsimp only [Option.getD_some]
    rw [outKind_code, outFn_code]
    cases k.kind with
    | reference =>
      by_cases feeder : k.fn = .feeder
      · simp only [feeder, if_true, List.append_assoc]
        rfl
      · simp only [feeder, if_false, List.append_assoc]
        rfl
    | valve => simp only [List.append_assoc]; rfl
    | igniter => simp only [List.append_assoc]; rfl
    | strokeForward => simp only [List.append_assoc]; rfl
    | strokeReturn => simp only [List.append_assoc]; rfl
    | unused => simp only [List.append_assoc]; rfl

/-! ## The channel record -/

/-- The channels of a pair. -/
theorem pair_channels (p : Fin 4) :
    let lower : Fin 8 := ⟨2 * p.val, by omega⟩
    let upper : Fin 8 := ⟨2 * p.val + 1, by omega⟩
    pairMate lower = upper ∧ pairMate upper = lower ∧ pairBase lower = lower ∧ pairBase upper = lower := by
  revert p
  decide

theorem isEncoder_iff (i : Fin 8) : d.isEncoder i = true ↔ ∃ k, d.cfg.channels[i]'i.isLt = some k ∧ k.fn = .encoder := by
  unfold Station.isEncoder
  cases (d.cfg.channels[i]'i.isLt) with
  | none => simp
  | some k => simp

theorem recordChannel_pair (p : Fin 4) :
    let lower : Fin 8 := ⟨2 * p.val, by omega⟩
    let upper : Fin 8 := ⟨2 * p.val + 1, by omega⟩
    let encoder := fun i : Fin 8 => ∃ k, d.cfg.channels[i]'i.isLt = some k ∧ k.fn = .encoder
    (encoder lower ∧ encoder upper → d.recordChannel lower = lower ∧ d.recordChannel upper = lower) ∧
    (¬ (encoder lower ∧ encoder upper) → d.recordChannel lower = lower ∧ d.recordChannel upper = upper) := by
  intro lower upper encoder
  obtain ⟨mateLower, mateUpper, baseLower, baseUpper⟩ := pair_channels p
  have lowerIs : d.recordChannel lower = bif d.isEncoder lower && d.isEncoder upper then lower else lower := by
    unfold Station.recordChannel
    rw [mateLower, baseLower]
  have upperIs : d.recordChannel upper = bif d.isEncoder upper && d.isEncoder lower then lower else upper := by
    unfold Station.recordChannel
    rw [mateUpper, baseUpper]
  rw [lowerIs, upperIs]
  refine ⟨fun both => ?_, fun notBoth => ?_⟩
  · rw [(isEncoder_iff d lower).2 both.1, (isEncoder_iff d upper).2 both.2]
    exact ⟨rfl, rfl⟩
  · have out : ¬ (d.isEncoder lower = true ∧ d.isEncoder upper = true) := fun h =>
      notBoth ⟨(isEncoder_iff d lower).1 h.1, (isEncoder_iff d upper).1 h.2⟩
    cases l : d.isEncoder lower <;> cases u : d.isEncoder upper <;> simp_all

theorem channelRecord_eq (ch : Fin 8) : d.channelRecord ch =
    let c := d.piu.channels[d.recordChannel ch]
    let k := d.cfg.channels[ch]'ch.isLt
    [place [.flameScanner, .pressure, .weigher, .encoder, .unassigned] ((k.map fun k => k.fn).getD .unassigned)] ++
      field8 ((k.map fun k => k.inst).getD 0) ++
      optional (fun m : PulseMode => [place [.period, .countWindow, .quadrature] m]) c.mode ++
      [place [.us1, .us8, .us64, .us512] ((k.map fun k => k.tb).getD .us1)] ++
      [place [.disabled, .seeking, .timing, .counting] c.phase] ++ field32 c.lastPeriod ++ field32 c.lastWidth ++
      field32 c.lastTicks ++ field32 c.lastCount ++
      optional field32 (if c.phase = .counting ∧ c.mode = some .countWindow then some c.edges else none) ++
      byte32 (BitVec.ofInt 32 c.position.toInt) ++ [place [.none, .forward, .reverse] c.direction] ++ field32 c.interval ++
      field32 c.revCounts ++ field32 c.phaseErrors ++ field16 c.stall ++ flag c.valid ++ field32 c.events := by
  have counting (c : Channel) : (c.phase == .counting && c.mode == some .countWindow) =
      decide (c.phase = .counting ∧ c.mode = some .countWindow) := by
    rw [Bool.eq_iff_iff]
    simp
  unfold Station.channelRecord
  dsimp only
  simp only [counting, channelFn_code, pulseMode_code, timebase_code, phase_code, direction_code, decide_eq_true_eq]
  cases (d.cfg.channels[ch]'ch.isLt) <;> rfl

end

theorem bodiesHold (d : Station) : BodiesHold d where
  panel := panelPart_eq d
  loop := by
    unfold Station.loopPart
    rw [loopState_code]
    rfl
  notices := by
    unfold Station.noticesPart
    rw [entry_statusBytes]
    rfl
  burner c := by
    unfold Station.burnerPart
    dsimp only
    rw [scanner_bytes, flameStatus_code]
    rfl
  feed := by
    unfold Station.feedPart Station.feedStatus
    simp only [feedCause_code]
    rfl
  cooler := by
    unfold Station.coolerPart
    rw [funext (compStatus_eq d)]
    rfl
  request := by
    unfold Station.tripBytes
    cases d.alm.trip <;> rfl
  alarm := by
    unfold Station.alarmPart
    rw [alarmPoints_eq]
    rfl
  entry i c cfg := by
    unfold Station.alarmEntry
    dsimp only
    rw [cfg]
    rfl
  mirror e := rfl
  shift := by
    unfold Station.shiftPart
    dsimp only
    rw [collecting_bytes d.sru _ (fun p => byte16 p.shift ++ field32 d.sru.arrivals ++
      stationSet ((p.floor.filter fun e => e.mark = .outstanding).map fun e => e.station)) fun p => by rw [outstanding_eq]]
    rfl
  floor i := by
    unfold Station.floorRecord
    dsimp only
    rw [List.contains_eq_mem]
  recovery := by
    unfold Station.breakRecord
    rw [loopState_code]
    cases d.lpc.grace <;> simp only [List.append_assoc] <;> rfl
  pair := recordChannel_pair d
  channel := channelRecord_eq d
  line i := by
    unfold Station.lineRecord
    dsimp only
    rw [lineFn_code]
    cases (d.piu.lines[i]'i.isLt).active <;> rfl
  output := outRecord_eq d

end Sys2Proof.Machine
end

section
/-! SUPPORT. Requests by the state of the station, and what the reads answer (R189, R198, R20 to R23, R40, R55, R71, R86, R171, R185). -/

set_option Elab.async false

namespace Sys2Proof.Machine

/-! ## The checks before a request -/

section
variable {d : Station} (out : d.ppt.started = false)
include out

theorem unstarted_guard : (!d.ppt.started) = true := by rw [out]; rfl

theorem burnerRequest_unstarted (f : BurnerCfg → Station → Station) : d.burnerRequest f = d.wrongState :=
  if_pos (unstarted_guard out)

theorem feedRequest_unstarted (b : Byte) (f : Fin 2 → FeedCfg → Station → Station) : d.feedRequest b f = d.wrongState :=
  if_pos (unstarted_guard out)

theorem coolerRequest_unstarted (f : Station → Station) : d.coolerRequest f = d.wrongState := if_pos (unstarted_guard out)

theorem compRequest_unstarted (b : Byte) (f : Fin 4 → CompCfg → Station → Station) : d.compRequest b f = d.wrongState :=
  coolerRequest_unstarted out _

theorem dutyPart_unstarted (sel : Byte) (body : Option (List Byte)) : d.dutyPart sel body = d.wrongState :=
  if_pos (unstarted_guard out)

end

section
variable {d : Station} (up : d.ppt.started = true)
include up

theorem started_guard : ¬ (!d.ppt.started) = true := by rw [up]; nofun

theorem burnerRequest_none (bare : d.cfg.burner = none) (f : BurnerCfg → Station → Station) : d.burnerRequest f = d.notConfigured := by
  unfold Station.burnerRequest
  rw [if_neg (started_guard up), bare]

theorem burnerRequest_some {c : BurnerCfg} (cfg : d.cfg.burner = some c) (f : BurnerCfg → Station → Station) :
    d.burnerRequest f = f c d := by
  unfold Station.burnerRequest
  rw [if_neg (started_guard up), cfg]

theorem feedRequest_bare (bare : d.feedDuty = false) (b : Byte) (f : Fin 2 → FeedCfg → Station → Station) :
    d.feedRequest b f = d.notConfigured :=
  (if_neg (started_guard up)).trans (if_pos (by rw [bare]; rfl))

theorem coolerRequest_bare (bare : d.coolerDuty = false) (f : Station → Station) : d.coolerRequest f = d.notConfigured :=
  (if_neg (started_guard up)).trans (if_pos (by rw [bare]; rfl))

theorem dutyPart_none (sel : Byte) : d.dutyPart sel none = d.notConfigured := if_neg (started_guard up)

theorem dutyPart_some (sel : Byte) (body : List Byte) : d.dutyPart sel (some body) = d.okWith (sel :: body) :=
  if_neg (started_guard up)

end

/-! ## The requests by name -/

/-- What BURNER START does after the checks of its kind (R94). -/
def Station.burnerStarted (c : BurnerCfg) (d : Station) : Station :=
  match d.startRefusal c with
  | some r => d.refuse r
  | none => (d.noteMain.enterPurge c).ok

/-- What BURNER STOP does after the checks of its kind (R106). -/
def Station.burnerStopped (d : Station) : Station :=
  match d.bsq.state with
  | .off => d.wrongState
  | .lockout => d.wrongState
  | .purge => (d.stopPurge .stop).ok
  | .postPurge => d.ok
  | _ => (d.stopBurner .stop).ok

/-- What LOCKOUT RESET does after the checks of its kind (R107). -/
def Station.lockoutCleared (d : Station) : Station :=
  if d.bsq.state ≠ .lockout then d.wrongState
  else if !d.tripPointsNormal then d.refuse .tripPoint
  else if d.alm.trip.isSome then d.refuse .ownTripRequest
  else if d.peerTripRequest then d.refuse .peerTripRequest
  else (d.recordState .off 0).ok

/-- What SET HEAT DEMAND does after the checks of its kind (R99). -/
def Station.demandSet (setpoint : Word) (c : BurnerCfg) (d : Station) : Station :=
  if setpoint.toNat > c.maxDemand then d.badField
  else
    (d.onBsq fun b =>
      { b with setpoint := setpoint.toNat
               rampValue := if b.state = .firing then b.demand else b.rampValue
               rampMoment := if b.state = .firing then d.now else b.rampMoment }).ok

/-- What FEED ENABLE does to its channel (R115). -/
def Station.feedEnabled (ch : Fin 2) (k : FeedCfg) (d : Station) : Station :=
  if (d.fdc.channels[ch]'ch.isLt).state ≠ .off then d.wrongState
  else if d.lineActive .estop then d.refuse .estop
  else (d.restFeed .ready ch k).ok

/-- What FEED DISABLE does to its channel (R115). -/
def Station.feedDisabled (ch : Fin 2) (k : FeedCfg) (d : Station) : Station :=
  if (d.fdc.channels[ch]'ch.isLt).state = .off then d.ok else (d.restFeed .off ch k).ok

/-- What FEED CLEAR FAULT does to its channel (R115). -/
def Station.feedCleared (ch : Fin 2) (k : FeedCfg) (d : Station) : Station :=
  if (d.fdc.channels[ch]'ch.isLt).state ≠ .fault then d.wrongState
  else if d.lineActive .estop then d.refuse .estop
  else (d.restFeed .ready ch k).ok

/-- What CALORIFIC UPDATE does to its channel (R133). -/
def Station.cvUpdated (cv : Half) (ch : Fin 2) (d : Station) : Station :=
  if cv.toNat < 5000 || cv.toNat > 35000 then d.badField
  else (d.onFeed ch fun c => { c with cvPreload := some cv.toNat }).ok

theorem exec_burnerStart (s : State) : exec .burnerStart s = act .burnerStart (Station.burnerRequest Station.burnerStarted) s := rfl

theorem exec_burnerStop (s : State) :
    exec .burnerStop s = act .burnerStop (Station.burnerRequest fun _ => Station.burnerStopped) s := rfl

theorem exec_lockoutReset (s : State) :
    exec .lockoutReset s = act .lockoutReset (Station.burnerRequest fun _ => Station.lockoutCleared) s := rfl

theorem exec_setHeatDemand (w : Word) (s : State) :
    exec (.setHeatDemand w) s = act (.setHeatDemand w) (Station.burnerRequest (Station.demandSet w)) s := rfl

theorem exec_feedEnable (b : Byte) (s : State) :
    exec (.feedEnable b) s = act (.feedEnable b) (Station.feedRequest b Station.feedEnabled) s := rfl

theorem exec_feedDisable (b : Byte) (s : State) :
    exec (.feedDisable b) s = act (.feedDisable b) (Station.feedRequest b Station.feedDisabled) s := rfl

theorem exec_feedClearFault (b : Byte) (s : State) :
    exec (.feedClearFault b) s = act (.feedClearFault b) (Station.feedRequest b Station.feedCleared) s := rfl

theorem exec_calorificUpdate (b : Byte) (cv : Half) (s : State) :
    exec (.calorificUpdate b cv) s = act (.calorificUpdate b cv) (Station.feedRequest b fun ch _ => Station.cvUpdated cv ch) s := rfl

/-! ## The reads -/

/-- What READ ALARMS answers (R171). -/
def Station.alarmsRead (page : Byte) (d : Station) : Station :=
  if !d.ppt.started then d.wrongState
  else if page.toNat > 3 then d.badField
  else d.okWith (listed d.alarmEntry (pageOf page.toNat d.alm.active) ++ field32 d.alm.active.length ++ d.tripBytes ++
    flag d.alm.flood ++ field32 d.alm.recent.length ++ field8 d.alm.unacked)

/-- What READ MIRROR answers (R171). -/
def Station.mirrorRead (page : Byte) (d : Station) : Station :=
  if !d.ppt.started then d.wrongState
  else if page.toNat > 7 then d.badField
  else d.okWith (listed MirrorEntry.bytes (pageOf page.toNat d.alm.mirror) ++ field32 d.alm.mirror.length ++
    field32 d.alm.overflow)

/-- What READ REPORT answers (R185). -/
def Station.reportRead (age offset : Byte) (d : Station) : Station :=
  if age.toNat > 7 then d.badField
  else match d.sru.ring.reverse[age.toNat]? with
    | none => d.refuse .noReport
    | some r =>
      if 32 * offset.toNat ≥ r.image.length then d.badField
      else d.okWith (byte16 r.shift ++ flag r.complete ++ field32 r.image.length ++ windowOf r.image (32 * offset.toNat))

/-- What READ STATUS answers (R198). -/
def Station.statusRead (part : Byte) (d : Station) : Station :=
  match part.toNat with
  | 1 => d.okWith (part :: d.panelPart)
  | 2 => d.okWith (part :: d.loopPart)
  | 3 => d.okWith (part :: d.noticesPart)
  | 4 => d.dutyPart part (d.cfg.burner.map fun c => d.burnerPart c)
  | 5 => d.dutyPart part (if d.feedDuty then some d.feedPart else none)
  | 6 => d.dutyPart part (if d.coolerDuty then some d.coolerPart else none)
  | 7 => d.dutyPart part (some d.alarmPart)
  | 8 => d.dutyPart part (some d.shiftPart)
  | _ => d.badField

/-- What READ FLOOR answers (R23). -/
def Station.floorAnswered (station : Byte) (d : Station) : Station :=
  match stationIdx station with
  | none => d.badField
  | some i => d.okWith (d.floorRecord i)

/-- What READ INPUT answers (R71). -/
def Station.inputRead (selector : Byte) (d : Station) : Station :=
  if h : selector.toNat < 8 then d.okWith (d.channelRecord ⟨selector.toNat, h⟩)
  else if selector = 255 then d.okWith ((List.finRange 12).flatMap d.lineRecord)
  else d.badField

/-- What READ OUTPUT answers (R86). -/
def Station.outputRead (selector : Byte) (d : Station) : Station :=
  if h : selector.toNat < 16 then d.okWith (d.outRecord ⟨selector.toNat, h⟩)
  else if selector = 255 then d.okWith ((List.finRange 16).flatMap d.outRecord)
  else d.badField

/-- What READ COUNTERS answers, and clears (R22). -/
def Station.countersRead (d : Station) : Station :=
  (d.onCounters fun _ => .zero).okWith
    ((d.lpc.counters.toList.flatMap fun c => field32 c.count) ++ d.lpc.counters.toList.flatMap fun c => flag c.overflowed)

theorem exec_readAlarms (b : Byte) (s : State) : exec (.readAlarms b) s = act (.readAlarms b) (Station.alarmsRead b) s := rfl

theorem exec_readMirror (b : Byte) (s : State) : exec (.readMirror b) s = act (.readMirror b) (Station.mirrorRead b) s := rfl

theorem exec_readReport (a b : Byte) (s : State) :
    exec (.readReport a b) s = act (.readReport a b) (Station.reportRead a b) s := rfl

theorem exec_readStatus (b : Byte) (s : State) : exec (.readStatus b) s = act (.readStatus b) (Station.statusRead b) s := rfl

theorem exec_readFloor (b : Byte) (s : State) : exec (.readFloor b) s = act (.readFloor b) (Station.floorAnswered b) s := rfl

theorem exec_readBreak (s : State) : exec .readBreak s = act .readBreak (fun d => d.okWith d.breakRecord) s := rfl

theorem exec_readInput (b : Byte) (s : State) : exec (.readInput b) s = act (.readInput b) (Station.inputRead b) s := rfl

theorem exec_readOutput (b : Byte) (s : State) : exec (.readOutput b) s = act (.readOutput b) (Station.outputRead b) s := rfl

theorem exec_readCounters (s : State) : exec .readCounters s = act .readCounters Station.countersRead s := rfl

end Sys2Proof.Machine
end

section
/-! SUPPORT. Which answers the reads give, by what they name (R23, R71, R86, R171, R185, R198). -/

set_option Elab.async false

namespace Sys2Proof.Machine

/-- What SET FLOOR TIME does (R176). -/
def Station.floorTimeSet (time : Word) (d : Station) : Station :=
  if !d.ppt.started then d.wrongState
  else match d.submit (.timeSet time) with
    | (d, true) => d.ok
    | (d, false) => d.answer .queueFull 0 []

theorem exec_setFloorTime (time : Word) (s : State) :
    exec (.setFloorTime time) s = act (.setFloorTime time) (Station.floorTimeSet time) s := rfl

/-- Each command of a list is answered with a code, and changes nothing else. -/
def AllAnswered (s : State) (code : RespCode) (l : List Instr) : Prop :=
  ∀ cmd ∈ l, exec cmd s = .next { s with dev := (s.dev.take cmd).answer code 0 [] }

theorem AllAnswered.nil (s : State) (code : RespCode) : AllAnswered s code [] := List.forall_mem_nil _

theorem AllAnswered.cons {s : State} {code : RespCode} {cmd : Instr} {l : List Instr} {f : Station → Station}
    (h : ∀ s, exec cmd s = act cmd f s) (e : f (s.dev.take cmd) = (s.dev.take cmd).answer code 0 [])
    (rest : AllAnswered s code l) : AllAnswered s code (cmd :: l) :=
  List.forall_mem_cons.2 ⟨exec_eq h e, rest⟩

theorem AllAnswered.append {s : State} {code : RespCode} {l m : List Instr} (h : AllAnswered s code l) (k : AllAnswered s code m) :
    AllAnswered s code (l ++ m) := List.forall_mem_append.2 ⟨h, k⟩

/-! ## Requests before START and without their duty (R189) -/

section
variable {s : State} {a b c : Byte} {h : Half} {w : Word}

theorem unstarted_answered (out : s.dev.ppt.started = false) : AllAnswered s .wrongState
    ([.burnerStart, .burnerStop, .lockoutReset, .setHeatDemand w] ++
      [.feedEnable a, .feedDisable a, .feedClearFault a, .calorificUpdate a h] ++
      [.coolerEnable a, .coolerDisable a, .setStrokeBase a h, .grateClearFault a, .setFan a h] ++
      [.ackAlarm a b c, .shelve a h, .unshelve a, .readAlarms a, .readMirror a, .setFloorTime w,
        .readStatus 4, .readStatus 5, .readStatus 6, .readStatus 7, .readStatus 8]) := by
  have guard (cmd : Instr) : (!(s.dev.take cmd).ppt.started) = true := unstarted_guard (d := s.dev.take cmd) out
  have burner : AllAnswered s .wrongState [.burnerStart, .burnerStop, .lockoutReset, .setHeatDemand w] :=
    .cons exec_burnerStart (if_pos (guard _)) <| .cons exec_burnerStop (if_pos (guard _)) <|
    .cons exec_lockoutReset (if_pos (guard _)) <| .cons (exec_setHeatDemand w) (if_pos (guard _)) <| .nil s _
  have feed : AllAnswered s .wrongState [.feedEnable a, .feedDisable a, .feedClearFault a, .calorificUpdate a h] :=
    .cons (exec_feedEnable a) (if_pos (guard _)) <| .cons (exec_feedDisable a) (if_pos (guard _)) <|
    .cons (exec_feedClearFault a) (if_pos (guard _)) <| .cons (exec_calorificUpdate a h) (if_pos (guard _)) <| .nil s _
  have cooler : AllAnswered s .wrongState
      [.coolerEnable a, .coolerDisable a, .setStrokeBase a h, .grateClearFault a, .setFan a h] :=
    .cons (exec_coolerEnable a) (if_pos (guard _)) <| .cons (exec_coolerDisable a) (if_pos (guard _)) <|
    .cons (exec_setStrokeBase a h) (if_pos (guard _)) <| .cons (exec_grateClearFault a) (if_pos (guard _)) <|
    .cons (exec_setFan a h) (if_pos (guard _)) <| .nil s _
  have other : AllAnswered s .wrongState
      [.ackAlarm a b c, .shelve a h, .unshelve a, .readAlarms a, .readMirror a, .setFloorTime w,
        .readStatus 4, .readStatus 5, .readStatus 6, .readStatus 7, .readStatus 8] :=
    .cons (exec_ackAlarm a b c) (if_pos (guard _)) <| .cons (exec_shelve a h) (if_pos (guard _)) <|
    .cons (exec_unshelve a) (if_pos (guard _)) <| .cons (exec_readAlarms a) (if_pos (guard _)) <|
    .cons (exec_readMirror a) (if_pos (guard _)) <| .cons (exec_setFloorTime w) (if_pos (guard _)) <|
    .cons (exec_readStatus 4) (if_pos (guard _)) <| .cons (exec_readStatus 5) (if_pos (guard _)) <|
    .cons (exec_readStatus 6) (if_pos (guard _)) <| .cons (exec_readStatus 7) (if_pos (guard _)) <|
    .cons (exec_readStatus 8) (if_pos (guard _)) <| .nil s _
  exact ((burner.append feed).append cooler).append other

variable (up : s.dev.ppt.started = true)
include up

theorem burnerless_answered (bare : s.dev.cfg.burner = none) : AllAnswered s .notConfigured
    [.readStatus 4, .burnerStart, .burnerStop, .lockoutReset, .setHeatDemand w] := by
  have denied (cmd : Instr) (f) : (s.dev.take cmd).burnerRequest f = (s.dev.take cmd).notConfigured :=
    burnerRequest_none (d := s.dev.take cmd) up bare f
  have none : (s.dev.take (.readStatus 4)).statusRead 4 = (s.dev.take (.readStatus 4)).dutyPart 4 none :=
    congrArg (fun o : Option BurnerCfg => (s.dev.take (.readStatus 4)).dutyPart 4
      (o.map fun c => (s.dev.take (.readStatus 4)).burnerPart c)) bare
  exact .cons (exec_readStatus 4) (none.trans (dutyPart_none (d := s.dev.take (.readStatus 4)) up 4)) <|
    .cons exec_burnerStart (denied _ _) <| .cons exec_burnerStop (denied _ _) <| .cons exec_lockoutReset (denied _ _) <|
    .cons (exec_setHeatDemand w) (denied _ _) <| .nil s _

theorem feedless_answered (bare : s.dev.feedDuty = false) : AllAnswered s .notConfigured
    [.readStatus 5, .feedEnable a, .feedDisable a, .feedClearFault a, .calorificUpdate a h] := by
  have denied (cmd : Instr) (f) : (s.dev.take cmd).feedRequest a f = (s.dev.take cmd).notConfigured :=
    feedRequest_bare (d := s.dev.take cmd) up bare a f
  have none : (s.dev.take (.readStatus 5)).statusRead 5 = (s.dev.take (.readStatus 5)).dutyPart 5 none :=
    congrArg (fun o : Option (List Byte) => (s.dev.take (.readStatus 5)).dutyPart 5 o)
      (if_neg (by rw [show (s.dev.take (.readStatus 5)).feedDuty = false from bare]; nofun))
  exact .cons (exec_readStatus 5) (none.trans (dutyPart_none (d := s.dev.take (.readStatus 5)) up 5)) <|
    .cons (exec_feedEnable a) (denied _ _) <| .cons (exec_feedDisable a) (denied _ _) <|
    .cons (exec_feedClearFault a) (denied _ _) <| .cons (exec_calorificUpdate a h) (denied _ _) <| .nil s _

theorem coolerless_answered (bare : s.dev.coolerDuty = false) : AllAnswered s .notConfigured
    [.readStatus 6, .coolerEnable a, .coolerDisable a, .setStrokeBase a h, .grateClearFault a, .setFan a h] := by
  have denied (cmd : Instr) (f) : (s.dev.take cmd).coolerRequest f = (s.dev.take cmd).notConfigured :=
    coolerRequest_bare (d := s.dev.take cmd) up bare f
  have none : (s.dev.take (.readStatus 6)).statusRead 6 = (s.dev.take (.readStatus 6)).dutyPart 6 none :=
    congrArg (fun o : Option (List Byte) => (s.dev.take (.readStatus 6)).dutyPart 6 o)
      (if_neg (by rw [show (s.dev.take (.readStatus 6)).coolerDuty = false from bare]; nofun))
  exact .cons (exec_readStatus 6) (none.trans (dutyPart_none (d := s.dev.take (.readStatus 6)) up 6)) <|
    .cons (exec_coolerEnable a) (denied _ _) <| .cons (exec_coolerDisable a) (denied _ _) <|
    .cons (exec_setStrokeBase a h) (denied _ _) <| .cons (exec_grateClearFault a) (denied _ _) <|
    .cons (exec_setFan a h) (denied _ _) <| .nil s _

end

/-! ## READ REPORT (R185) -/

theorem windowOf_length (image : List Byte) (start : Nat) : (windowOf image start).length = 64 := by
  unfold windowOf
  dsimp only
  rw [List.length_append, List.length_replicate, List.length_take]
  omega

theorem windowOf_get (image : List Byte) (start k : Nat) (h : k < 64) :
    (windowOf image start)[k]? = some (image.getD (start + k) 0) := by
  unfold windowOf
  dsimp only
  by_cases inside : k < ((image.drop start).take 64).length
  · rw [List.getElem?_append_left inside, List.getElem?_take_of_lt h, List.getElem?_drop, List.getD_eq_getElem?_getD]
    have short : start + k < image.length := by
      rw [List.length_take, List.length_drop] at inside
      omega
    rw [List.getElem?_eq_getElem short]
    rfl
  · have long : image.length ≤ start + k := by
      rw [List.length_take, List.length_drop] at inside
      omega
    rw [List.getElem?_append_right (Nat.not_lt.1 inside), List.getElem?_replicate, List.getD_eq_getElem?_getD,
      List.getElem?_eq_none long, if_pos]
    · rfl
    · omega

section
variable {d : Station} {age offset : Byte}

theorem reportRead_old (h : 7 < age.toNat) : d.reportRead age offset = d.badField := if_pos h

theorem reportRead_none (young : age.toNat ≤ 7) (short : d.sru.ring.length ≤ age.toNat) :
    d.reportRead age offset = d.refuse .noReport := by
  unfold Station.reportRead
  rw [if_neg (Nat.not_lt.2 young), List.getElem?_eq_none (by rw [List.length_reverse]; exact short)]

theorem reportRead_some {older newer : List Report} {r : Report} (young : age.toNat ≤ 7) (ring : d.sru.ring = older ++ r :: newer)
    (there : newer.length = age.toNat) : d.reportRead age offset =
      if 32 * offset.toNat ≥ r.image.length then d.badField
      else d.okWith (byte16 r.shift ++ flag r.complete ++ field32 r.image.length ++ windowOf r.image (32 * offset.toNat)) := by
  have found : d.sru.ring.reverse[age.toNat]? = some r := by
    rw [ring, List.reverse_append, List.reverse_cons, List.append_assoc, ← there,
      List.getElem?_append_right (by rw [List.length_reverse])]
    simp
  unfold Station.reportRead
  rw [if_neg (Nat.not_lt.2 young), found]

end

end Sys2Proof.Machine
end

section
/-! SUPPORT. Every request answered as its state, its duty and what it names say. -/

set_option Elab.async false

namespace Sys2Proof.Machine

section
variable {d : Station}

theorem alarmsRead_page {page : Byte} (up : d.ppt.started = true) (inside : page.toNat ≤ 3) : d.alarmsRead page =
    d.okWith (listed d.alarmEntry ((d.alm.active.drop (8 * page.toNat)).take 8) ++
      byte32 (wire32 d.alm.active.length) ++ d.tripBytes ++ [if d.alm.flood then 1 else 0] ++
      byte32 (wire32 d.alm.recent.length) ++ [BitVec.ofNat 8 d.alm.unacked]) :=
  (if_neg (started_guard up)).trans (if_neg (Nat.not_lt.2 inside))

theorem mirrorRead_page {page : Byte} (up : d.ppt.started = true) (inside : page.toNat ≤ 7) : d.mirrorRead page =
    d.okWith (listed MirrorEntry.bytes ((d.alm.mirror.drop (8 * page.toNat)).take 8) ++
      byte32 (wire32 d.alm.mirror.length) ++ byte32 (wire32 d.alm.overflow)) :=
  (if_neg (started_guard up)).trans (if_neg (Nat.not_lt.2 inside))

theorem statusRead_outside {part : Byte} (out : part = 0 ∨ 8 < part.toNat) : d.statusRead part = d.badField := by
  have value : part.toNat = 0 ∨ 8 < part.toNat := out.imp_left fun h => by rw [h]; rfl
  unfold Station.statusRead
  split
  case h_9 => rfl
  all_goals omega

theorem floorAnswered_outside {station : Byte} (out : station = 0 ∨ 16 < station.toNat) :
    d.floorAnswered station = d.badField := by
  have value : station.toNat < 1 ∨ 16 < station.toNat := out.imp_left fun h => by rw [h]; decide
  unfold Station.floorAnswered
  rw [stationIdx_outside value]

theorem floorAnswered_station (i : Fin 16) : d.floorAnswered (stationByte i) = d.okWith (d.floorRecord i) := by
  unfold Station.floorAnswered
  rw [stationIdx_stationByte]

theorem inputRead_channel (i : Fin 8) : d.inputRead (BitVec.ofNat 8 i.val) = d.okWith (d.channelRecord i) := by
  have value : (BitVec.ofNat 8 i.val).toNat = i.val := by
    rw [BitVec.toNat_ofNat]
    omega
  unfold Station.inputRead
  rw [dif_pos (by omega)]
  simp only [value, Fin.eta]

theorem inputRead_outside {x : Byte} (out : 8 ≤ x.toNat) (other : x ≠ 255) : d.inputRead x = d.badField :=
  (dif_neg (Nat.not_lt.2 out)).trans (if_neg other)

theorem outputRead_line (i : Fin 16) : d.outputRead (BitVec.ofNat 8 i.val) = d.okWith (d.outRecord i) := by
  have value : (BitVec.ofNat 8 i.val).toNat = i.val := by
    rw [BitVec.toNat_ofNat]
    omega
  unfold Station.outputRead
  rw [dif_pos (by omega)]
  simp only [value, Fin.eta]

theorem outputRead_outside {x : Byte} (out : 16 ≤ x.toNat) (other : x ≠ 255) : d.outputRead x = d.badField :=
  (dif_neg (Nat.not_lt.2 out)).trans (if_neg other)

theorem statusRead_burner {c : BurnerCfg} (up : d.ppt.started = true) (cfg : d.cfg.burner = some c) :
    d.statusRead 4 = d.okWith (4 :: d.burnerPart c) :=
  (congrArg (fun o : Option BurnerCfg => d.dutyPart 4 (o.map fun c => d.burnerPart c)) cfg).trans (dutyPart_some up 4 _)

theorem statusRead_feed (up : d.ppt.started = true) (duty : d.feedDuty = true) : d.statusRead 5 = d.okWith (5 :: d.feedPart) :=
  (congrArg (d.dutyPart 5) (if_pos duty)).trans (dutyPart_some up 5 _)

theorem statusRead_cooler (up : d.ppt.started = true) (duty : d.coolerDuty = true) :
    d.statusRead 6 = d.okWith (6 :: d.coolerPart) :=
  (congrArg (d.dutyPart 6) (if_pos duty)).trans (dutyPart_some up 6 _)

end

/-- The marks of the counters, each a byte of its own (R22). -/
theorem counterFlags_eq (l : List Counter) :
    (l.flatMap fun c => flag c.overflowed) = l.map fun c => if c.overflowed then 1 else 0 := by
  induction l with
  | nil => rfl
  | cons c l ih => exact congrArg (fun m => (if c.overflowed then 1 else 0) :: m) ih

end Sys2Proof.Machine

open Sys2Proof Sys2Proof.Machine in
/-- Settles O57: the layouts of what is answered, the requests refused by state and duty, and each read. -/
theorem requestsAreAnsweredAndReadsChangeNothing : Obligations.RequestsAreAnsweredAndReadsChangeNothing := by
  refine ⟨fieldsWritten, imagesWritten, bodiesHold, fun a b c h w s cmd => ?_, fun s => ?_⟩
  · intro burner feed cooler started after
    exact ⟨fun out mem => unstarted_answered out cmd mem, fun up bare mem => burnerless_answered up bare cmd mem,
      fun up bare mem => feedless_answered up bare cmd mem, fun up bare mem => coolerless_answered up bare cmd mem⟩
  · intro after reads
    refine ⟨fun page up => ⟨fun out => ?_, fun inside => ?_, fun out => ?_, fun inside => ?_⟩, fun age offset => ?_,
      exec_eq (exec_readStatus 1) rfl, exec_eq (exec_readStatus 2) rfl, exec_eq (exec_readStatus 3) rfl,
      fun c up cfg => exec_eq (exec_readStatus 4) (statusRead_burner (d := s.dev.take (.readStatus 4)) up cfg),
      fun up duty => exec_eq (exec_readStatus 5) (statusRead_feed (d := s.dev.take (.readStatus 5)) up duty),
      fun up duty => exec_eq (exec_readStatus 6) (statusRead_cooler (d := s.dev.take (.readStatus 6)) up duty),
      fun up => ⟨exec_eq (exec_readStatus 7) (dutyPart_some (d := s.dev.take (.readStatus 7)) up 7 _),
        exec_eq (exec_readStatus 8) (dutyPart_some (d := s.dev.take (.readStatus 8)) up 8 _)⟩,
      fun part out => exec_eq (exec_readStatus part) (statusRead_outside out),
      fun station out => exec_eq (exec_readFloor station) (floorAnswered_outside out),
      fun i => exec_eq (exec_readFloor _) (floorAnswered_station i), exec_eq exec_readBreak rfl,
      fun i => exec_eq (exec_readInput _) (inputRead_channel i), exec_eq (exec_readInput 255) rfl,
      fun x out other => exec_eq (exec_readInput x) (inputRead_outside out other),
      fun i => exec_eq (exec_readOutput _) (outputRead_line i), exec_eq (exec_readOutput 255) rfl,
      fun x out other => exec_eq (exec_readOutput x) (outputRead_outside out other), ?_⟩
    · exact exec_eq (exec_readAlarms page) ((if_neg (started_guard (d := s.dev.take (.readAlarms page)) up)).trans (if_pos out))
    · exact exec_eq (exec_readAlarms page) (alarmsRead_page (d := s.dev.take (.readAlarms page)) up inside)
    · exact exec_eq (exec_readMirror page) ((if_neg (started_guard (d := s.dev.take (.readMirror page)) up)).trans (if_pos out))
    · exact exec_eq (exec_readMirror page) (mirrorRead_page (d := s.dev.take (.readMirror page)) up inside)
    · intro cmd start
      refine ⟨fun old => exec_eq (exec_readReport age offset) (reportRead_old old),
        fun young short => exec_eq (exec_readReport age offset) (reportRead_none (d := s.dev.take cmd) young short),
        fun older r newer ring there young => ?_⟩
      have answer := reportRead_some (d := s.dev.take cmd) (offset := offset) young ring there
      exact ⟨fun past => exec_eq (exec_readReport age offset) (answer.trans (if_pos past)),
        fun before => ⟨windowOf r.image start, windowOf_length _ _, windowOf_get _ _,
          exec_eq (exec_readReport age offset) (answer.trans (if_neg (Nat.not_le.2 before)))⟩⟩
    · intro n counts zero body cleared
      refine exec_eq exec_readCounters ?_
      show (Station.onCounters _ _).okWith _ = _
      rw [counterFlags_eq]
      rfl
end

section
/-! SUPPORT. The Burner Sequencer's permissives, its stops by state, and the requests of demand and reset (R94 to R96, R99, R106 to R109). -/

set_option Elab.async false

namespace Sys2Proof.Machine

/-! ## The permissives -/

theorem trip_in_view (d : Station) : d.tripInView.isSome = true ↔ ∃ e ∈ d.inView, e.2.tripRequest = true := List.find?_isSome

theorem none_available (d : Station) (x : BurnerLetter) :
    (d.available x).isEmpty = true ↔ ∀ e ∈ d.feedInView x, e.2.state ≠ .ready ∧ e.2.state ≠ .running := by
  rw [List.isEmpty_iff, Station.available, List.filter_eq_nil_iff]
  refine forall₂_congr fun e _ => ?_
  rw [Bool.or_eq_true, beq_iff_eq, beq_iff_eq, not_or]

theorem cooler_missing (c : BurnerCfg) (d : Station) :
    (c.coolerRequired && !d.coolerRunning) = true ↔ c.coolerRequired = true ∧ d.coolerRunning = false := by
  rw [Bool.and_eq_true, Bool.not_eq_true']

/-- Burner A is missed by burner B alone (R94, R100). -/
theorem a_missing (c : BurnerCfg) (a : Bool) : (c.needsA && !a) = true ↔ c.letter = .b ∧ a = false := by
  rw [Bool.and_eq_true, Bool.not_eq_true', BurnerCfg.needsA, beq_iff_eq]

/-- The code of the first permissive that fails (R94). -/
theorem startRefusal_code (c : BurnerCfg) (d : Station) : (d.startRefusal c).map Reason.code =
    if d.lpc.state ≠ .up then some 1
    else if d.ppt.present = false then some 2
    else if d.bsq.state = .lockout then some 3
    else if d.bsq.state ≠ .off then some 4
    else if (∃ e ∈ d.inView, e.2.tripRequest = true) then some 5
    else if d.lineActive .idFanRunning = false then some 6
    else if (∀ e ∈ d.feedInView c.letter, e.2.state ≠ .ready ∧ e.2.state ≠ .running) then some 7
    else if c.coolerRequired = true ∧ d.coolerRunning = false then some 8
    else if c.letter = .b ∧ d.aFiring = false then some 9
    else none := by
  simp only [Station.startRefusal, apply_ite (Option.map Reason.code), Bool.not_eq_true', trip_in_view, none_available,
    cooler_missing, a_missing]
  rfl

/-! ## Purge entered and left -/

/-- Burner A's station as it is noted: that in view, or the one noted before (R102). -/
def Station.mainNoted (d : Station) : Option (Fin 16) :=
  match d.burnerStation .a with
  | some (i, _, _) => some i
  | none => d.bsq.mainStation

theorem noteMain_eq (d : Station) : d.noteMain = { d with bsq := { d.bsq with mainStation := d.mainNoted } } := by
  unfold Station.noteMain Station.mainNoted
  rcases d.burnerStation .a with _ | ⟨i, g, p⟩ <;> rfl

/-- The burner's piece of the staging record with a state and demand (R87). -/
def Lpc.burnerStaged (c : BurnerCfg) (st : BsqState) (demand : Word) (l : Lpc) : Lpc :=
  { l with staging := { l.staging with burner := some { letter := c.letter, state := st, demand := demand } } }

section
variable {c : BurnerCfg} {d : Station} (cfg : d.cfg.burner = some c)
include cfg

theorem recordState_eq (st : BsqState) (n : Nat) : d.recordState st n = { d with
    bsq := { d.bsq with state := st, demand := n }
    lpc := d.lpc.burnerStaged c st (wire32 n)
    ppt := { d.ppt with events := d.ppt.events ||| 8 } } := by
  rw [recordState_spec, cfg]
  rfl

theorem enterPurge_eq : d.enterPurge c = { d with
    bsq := { d.bsq with
      state := .purge, demand := 0, interruptions := 0
      purge := if d.lineActive .airFlowProven then some (d.now + c.purgeTime * 1000000) else none }
    lpc := d.lpc.burnerStaged c .purge 0
    ppt := { d.ppt with events := d.ppt.events ||| 8 } } := by
  have entered := recordState_eq (d := d.onBsq fun b => { b with interruptions := 0, purge := none }) cfg .purge 0
  unfold Station.enterPurge
  rw [entered]
  show (if d.lineActive .airFlowProven then _ else _) = _
  cases d.lineActive .airFlowProven <;> rfl

theorem stopPurge_eq (r : StopReason) : d.stopPurge r = purgeStopped r c d := by
  unfold Station.stopPurge
  rw [recordState_eq (d := d.onBsq Bsq.stopTimers) cfg]
  rfl

theorem burnerStarted_refused {r : Reason} (h : d.startRefusal c = some r) : d.burnerStarted c = d.answer .refused r.code [] := by
  unfold Station.burnerStarted
  rw [h]
  rfl

theorem burnerStarted_entered (h : d.startRefusal c = none) : d.burnerStarted c =
    Station.answer .ok 0 [] { d with
      bsq := { d.bsq with
        state := .purge, demand := 0, interruptions := 0
        purge := if d.lineActive .airFlowProven then some (d.now + c.purgeTime * 1000000) else none
        mainStation := d.mainNoted }
      lpc := d.lpc.burnerStaged c .purge 0
      ppt := { d.ppt with events := d.ppt.events ||| 8 } } := by
  have entered := enterPurge_eq (d := { d with bsq := { d.bsq with mainStation := d.mainNoted } }) cfg
  unfold Station.burnerStarted
  rw [h, noteMain_eq, entered]
  rfl

theorem softStop_purge (r : StopReason) (h : d.bsq.state = .purge) : d.softStop r = purgeStopped r c d := by
  unfold Station.softStop
  rw [h]
  exact stopPurge_eq cfg r

theorem softStop_trial (r : StopReason) (h : d.bsq.state = .pilotTrial ∨ d.bsq.state = .mainTrial) :
    StoppedBurning r c d (d.softStop r) := by
  have stopped := stopBurner_spec r c d cfg
  unfold Station.softStop
  rcases h with h | h <;> rw [h] <;> exact stopped

omit cfg in
theorem softStop_other (r : StopReason)
    (h : d.bsq.state = .off ∨ d.bsq.state = .firing ∨ d.bsq.state = .postPurge ∨ d.bsq.state = .lockout) : d.softStop r = d := by
  unfold Station.softStop
  rcases h with h | h | h | h <;> rw [h]

omit cfg in
theorem burnerStopped_out (h : d.bsq.state = .off ∨ d.bsq.state = .lockout) : d.burnerStopped = d.answer .wrongState 0 [] := by
  unfold Station.burnerStopped
  rcases h with h | h <;> rw [h] <;> rfl

theorem burnerStopped_purge (h : d.bsq.state = .purge) : d.burnerStopped = purgeStopped .stop c (d.answer .ok 0 []) := by
  unfold Station.burnerStopped
  rw [h]
  show (d.stopPurge .stop).ok = _
  rw [stopPurge_eq cfg]
  rfl

omit cfg in
theorem burnerStopped_postPurge (h : d.bsq.state = .postPurge) : d.burnerStopped = d.answer .ok 0 [] := by
  unfold Station.burnerStopped
  rw [h]
  rfl

theorem burnerStopped_burning (h : d.bsq.state = .pilotTrial ∨ d.bsq.state = .mainTrial ∨ d.bsq.state = .firing) :
    Accepted (StoppedBurning .stop c d) d.burnerStopped := by
  refine ⟨d.stopBurner .stop, stopBurner_spec .stop c d cfg, ?_⟩
  unfold Station.burnerStopped
  rcases h with h | h | h <;> rw [h] <;> rfl

end

/-- What a change of the ID fan does (R96). -/
def Station.fanChanged (active : Bool) (d : Station) : Station :=
  if d.bsq.state = .purge && !active then d.stopPurge .idFan else d

theorem exec_idFanChange (active : Bool) (s : State) :
    exec (.bsqIdFanChange active) s = act (.bsqIdFanChange active) (Station.fanChanged active) s := rfl

theorem exec_leftUp (s : State) : exec .bsqLeftUp s = act .bsqLeftUp (Station.softStop .loop) s := rfl

theorem exec_panelLapse (s : State) : exec .bsqPanelLapse s = act .bsqPanelLapse (Station.softStop .lapse) s := rfl

theorem fanChanged_lost {d : Station} (h : d.bsq.state = .purge) : d.fanChanged false = d.stopPurge .idFan :=
  if_pos (by rw [h]; rfl)

theorem fanChanged_elsewhere {d : Station} (h : d.bsq.state ≠ .purge) : d.fanChanged false = d :=
  if_neg (by simp [h])

theorem fanChanged_back (d : Station) : d.fanChanged true = d := if_neg (by simp)

/-! ## Demand and reset -/

theorem not_tripPointsNormal (d : Station) : (!d.tripPointsNormal) = true ↔ ∃ i : Fin 32, (d.alm.points[i]'i.isLt).state ≠ .normal ∧
    (match (d.alm.points[i]'i.isLt).cfg with | some k => k.cls = .trip | none => False) := by
  unfold Station.tripPointsNormal
  rw [Bool.not_eq_true', List.all_eq_false, vec_toList]
  simp only [List.mem_map, List.mem_finRange, true_and, exists_exists_eq_and]
  refine exists_congr fun i => ?_
  cases (d.alm.points[i]'i.isLt).cfg with
  | none => simp
  | some k => simp [and_comm]

theorem peerTripRequest_iff (d : Station) : d.peerTripRequest = true ↔
    ∃ i ∈ d.lpc.live, (match (d.lpc.floor[i]'i.isLt).image with | some g => g.tripRequest = true | none => False) := by
  unfold Station.peerTripRequest
  rw [List.any_eq_true]
  refine exists_congr fun i => and_congr_right fun _ => ?_
  cases (d.lpc.floor[i]'i.isLt).image with
  | none => simp
  | some g => exact Iff.rfl

section
variable {d : Station}

theorem lockoutCleared_elsewhere (h : d.bsq.state ≠ .lockout) : d.lockoutCleared = d.answer .wrongState 0 [] := if_pos h

variable (out : d.bsq.state = .lockout)
include out

theorem lockoutCleared_tripPoint (h : (!d.tripPointsNormal) = true) : d.lockoutCleared = d.answer .refused 10 [] :=
  (if_neg (not_not_intro out)).trans (if_pos h)

variable (normal : ¬ (!d.tripPointsNormal) = true)
include normal

theorem lockoutCleared_ownTrip (h : d.alm.trip ≠ none) : d.lockoutCleared = d.answer .refused 11 [] :=
  (if_neg (not_not_intro out)).trans ((if_neg normal).trans (if_pos (Option.isSome_iff_ne_none.2 h)))

variable (own : d.alm.trip = none)
include own

theorem lockoutCleared_peerTrip (h : d.peerTripRequest = true) : d.lockoutCleared = d.answer .refused 12 [] :=
  (if_neg (not_not_intro out)).trans ((if_neg normal).trans ((if_neg (by rw [own]; nofun)).trans (if_pos h)))

theorem lockoutCleared_off (h : ¬ d.peerTripRequest = true) : d.lockoutCleared = (d.recordState .off 0).ok :=
  (if_neg (not_not_intro out)).trans ((if_neg normal).trans ((if_neg (by rw [own]; nofun)).trans (if_neg h)))

end

end Sys2Proof.Machine

open Sys2Proof Sys2Proof.Machine in
/-- Settles O25: the code of the first failed permissive is the refusal's, and PURGE is entered when none fails. -/
theorem burnerStartChecksPermissivesAndEntersPurge : Obligations.BurnerStartChecksPermissivesAndEntersPurge := by
  intro s c up cfg d refusal
  have code : (d.startRefusal c).map Reason.code = refusal := startRefusal_code c d
  have request : d.burnerRequest Station.burnerStarted = d.burnerStarted c := burnerRequest_some (d := d) up cfg _
  refine ⟨fun r refused => exec_eq exec_burnerStart (request.trans ?_), fun clear => exec_eq exec_burnerStart (request.trans ?_)⟩
  · obtain ⟨x, found, rfl⟩ := Option.map_eq_some_iff.1 (code.trans refused)
    exact burnerStarted_refused (d := d) cfg found
  · exact burnerStarted_entered (d := d) cfg (Option.map_eq_none_iff.1 (code.trans clear))

open Sys2Proof Sys2Proof.Machine in
/-- Settles O26: the stops by the state they find. -/
theorem stopsPutTheBurnerOutByState : Obligations.StopsPutTheBurnerOutByState := by
  intro s c cfg soft
  have softly {cmd : Instr} {r : StopReason} (name : ∀ s, exec cmd s = act cmd (Station.softStop r) s) : soft cmd r := by
    have cfg' : (s.dev.take cmd).cfg.burner = some c := cfg
    exact ⟨fun h => exec_eq name (softStop_purge cfg' r h), fun h => .of_act name (softStop_trial cfg' r h),
      fun h => exec_eq name (softStop_other (d := s.dev.take cmd) r h)⟩
  refine ⟨softly exec_leftUp, softly exec_panelLapse, fun h => exec_eq (exec_idFanChange false) ?_,
    fun h => exec_eq (exec_idFanChange false) (fanChanged_elsewhere (d := s.dev.take _) h),
    exec_eq (exec_idFanChange true) (fanChanged_back _), ?_⟩
  · exact (fanChanged_lost (d := s.dev.take (.bsqIdFanChange false)) h).trans (stopPurge_eq (d := s.dev.take (.bsqIdFanChange false)) cfg _)
  · intro up d
    have request : d.burnerRequest (fun _ => Station.burnerStopped) = d.burnerStopped := burnerRequest_some (d := d) up cfg _
    exact ⟨fun h => exec_eq exec_burnerStop (request.trans (burnerStopped_out (d := d) h)),
      fun h => exec_eq exec_burnerStop (request.trans (burnerStopped_purge (d := d) cfg h)),
      fun h => exec_eq exec_burnerStop (request.trans (burnerStopped_postPurge (d := d) h)),
      fun h => .of_act exec_burnerStop (request.symm ▸ burnerStopped_burning (d := d) cfg h)⟩

open Sys2Proof Sys2Proof.Machine in
/-- Settles O32: a setpoint stored by the state it finds, and LOCKOUT left by the first thing that stands against it. -/
theorem heatDemandIsSetAndLockoutIsReset : Obligations.HeatDemandIsSetAndLockoutIsReset := by
  intro s c up cfg b after
  refine ⟨?_, ?_⟩
  · intro setpoint d
    exact exec_eq (exec_setHeatDemand setpoint) (burnerRequest_some (d := d) up cfg (Station.demandSet setpoint))
  · intro d tripPoint peerTrip
    have request : d.burnerRequest (fun _ => Station.lockoutCleared) = d.lockoutCleared := burnerRequest_some (d := d) up cfg _
    have points : (!d.tripPointsNormal) = true ↔ tripPoint := not_tripPointsNormal d
    have peers : d.peerTripRequest = true ↔ peerTrip := peerTripRequest_iff d
    have done {x : Station} (e : d.lockoutCleared = x) : after .lockoutReset x := exec_eq exec_lockoutReset (request.trans e)
    exact ⟨fun h => done (lockoutCleared_elsewhere (d := d) h), fun out =>
      ⟨fun h => done (lockoutCleared_tripPoint (d := d) out (points.2 h)),
        fun normal h => done (lockoutCleared_ownTrip (d := d) out (normal ∘ points.1) h),
        fun normal own h => done (lockoutCleared_peerTrip (d := d) out (normal ∘ points.1) own (peers.2 h)),
        fun normal own h => done ((lockoutCleared_off (d := d) out (normal ∘ points.1) own (h ∘ peers.1)).trans
          (congrArg Station.ok (recordState_eq (d := d) cfg .off 0)))⟩⟩
end

section
/-! SUPPORT. The first-out reference of a cause, and the first-out flag handed over with a trip (R101, R102, R157, R159, R160). -/

set_option Elab.async false

namespace Sys2Proof.Machine

/-! ## A queue that took a notice -/

section
variable {n : NoticeBody} {q r : List QueueEntry} (took : QueueTook n q r)
include took

theorem QueueTook.cases : (∃ e ∈ q.drop 4, sameAlarm n e = true) ∧
      r = q.take 4 ++ (q.drop 4).map (fun e => if sameAlarm n e = true then { e with body := n } else e) ∨
    r = q ++ [{ body := n, placed := false, seq := 0, mask := 0, rotations := 0 }] := by
  by_cases h : ∃ e ∈ q.drop 4, sameAlarm n e = true
  · exact .inl ⟨h, took.1 h⟩
  · exact .inr (took.2 fun e me => Bool.not_eq_true _ ▸ fun x => h ⟨e, me, x⟩)

theorem QueueTook.holds : ∃ e ∈ r, e.body = n := by
  rcases took.cases with ⟨⟨e, me, same⟩, rfl⟩ | rfl
  · exact ⟨{ e with body := n }, List.mem_append_right _ (List.mem_map.2 ⟨e, me, if_pos same⟩), rfl⟩
  · exact ⟨_, List.mem_append_right _ (List.mem_singleton_self _), rfl⟩

theorem QueueTook.length_le : q.length ≤ r.length := by
  rcases took.cases with ⟨-, rfl⟩ | rfl
  · rw [List.length_append, List.length_map, ← List.length_append, List.take_append_drop]
  · rw [List.length_append]
    exact Nat.le_add_right _ _

theorem QueueTook.keeps {e : QueueEntry} (me : e ∈ q) (apart : sameAlarm n e = false) : e ∈ r := by
  rcases took.cases with ⟨-, rfl⟩ | rfl
  · rw [← List.take_append_drop 4 q] at me
    refine List.mem_append.2 ((List.mem_append.1 me).imp id fun late => List.mem_map.2 ⟨e, late, if_neg ?_⟩)
    rw [apart]
    exact Bool.false_ne_true
  · exact List.mem_append_left _ me

end

theorem point_byte_inj {i j : Fin 32} (h : BitVec.ofNat 8 i.val = BitVec.ofNat 8 j.val) : i = j := by
  have value := congrArg BitVec.toNat h
  rw [BitVec.toNat_ofNat, BitVec.toNat_ofNat] at value
  omega

/-- An alarm notice of another point does not share a queue place. -/
theorem sameAlarm_apart {i j : Fin 32} (ne : j ≠ i) {x y : AlarmBody} (hx : x.point = BitVec.ofNat 8 i.val)
    (hy : y.point = BitVec.ofNat 8 j.val) {e : QueueEntry} (he : e.body = .alarmState y) : sameAlarm (.alarmState x) e = false := by
  unfold sameAlarm
  rw [he]
  show (x.point == y.point) = false
  rw [hx, hy]
  exact beq_false_of_ne fun h => ne (point_byte_inj h).symm

/-! ## One flag set -/

/-- Announcements of a point are deferred as it stands (R160, R166). -/
def Station.putOff (i : Fin 32) (c : PointCfg) (d : Station) : Prop :=
  (d.alm.points[i]'i.isLt).pending = true ∨ (c.cls = .low ∧ d.alm.flood = true)

/-- The change of a flag to a value is announced at once or once the point is raised (R157, R159). -/
def Station.tellsFlag (i : Fin 32) (v : Bool) (d : Station) : Prop :=
  (d.alm.points[i]'i.isLt).firstOut ≠ v ∧ ¬ (v = true ∧ (d.alm.points[i]'i.isLt).state = .normal) ∧ (d.alm.points[i]'i.isLt).shelf = none

/-- A flag has been set: no other point moves, and a change is announced where there is place (R157, R159). -/
structure FlagSet (i : Fin 32) (v : Bool) (a b : Station) : Prop where
  others : ∀ j : Fin 32, j ≠ i → b.alm.points[j]'j.isLt = a.alm.points[j]'j.isLt
  point : b.alm.points[i]'i.isLt = { a.alm.points[i]'i.isLt with
    firstOut := v, pending := (b.alm.points[i]'i.isLt).pending, announced := (b.alm.points[i]'i.isLt).announced }
  quiet : ¬ a.tellsFlag i v →
    (b.alm.points[i]'i.isLt).pending = (a.alm.points[i]'i.isLt).pending ∧ (b.alm.points[i]'i.isLt).announced = (a.alm.points[i]'i.isLt).announced
  putOff : ∀ c, (a.alm.points[i]'i.isLt).cfg = some c → a.tellsFlag i v → a.putOff i c →
    (b.alm.points[i]'i.isLt).pending = true ∧ (b.alm.points[i]'i.isLt).announced = (a.alm.points[i]'i.isLt).announced
  told : ∀ c, (a.alm.points[i]'i.isLt).cfg = some c → a.tellsFlag i v → ¬ a.putOff i c → a.lpc.queue.length < 16 →
    (b.alm.points[i]'i.isLt).pending = false ∧ (b.alm.points[i]'i.isLt).announced = .known (a.alm.points[i]'i.isLt).state ∧
      ∃ e ∈ b.lpc.queue, e.body = .alarmState ((b.alm.points[i]'i.isLt).body i c)
  grows : a.lpc.queue.length ≤ b.lpc.queue.length
  keeps : ∀ (j : Fin 32) (y : AlarmBody), j ≠ i → y.point = BitVec.ofNat 8 j.val →
    ∀ e ∈ a.lpc.queue, e.body = .alarmState y → e ∈ b.lpc.queue
  rest : b = { a with alm := { a.alm with points := b.alm.points }, lpc := { a.lpc with queue := b.lpc.queue } }

/-- A flag set on a point that is not told of. -/
theorem flagSet_quiet {i : Fin 32} {v : Bool} {a : Station} (q : Point)
    (point : q = { a.alm.points[i]'i.isLt with firstOut := v }) (silent : ¬ a.tellsFlag i v) : FlagSet i v a (a.withPoint i q) where
  others j ne := withPoint_ne ne q a
  point := by
    rw [withPoint_same, point]
  quiet _ := by
    rw [withPoint_same, point]
    exact ⟨rfl, rfl⟩
  putOff _ _ h := absurd h silent
  told _ _ h := absurd h silent
  grows := le_rfl
  keeps _ _ _ _ _ me _ := me
  rest := rfl

theorem withPoint_held (i : Fin 32) (d : Station) : d.withPoint i (d.alm.points[i]'i.isLt) = d :=
  congrArg (fun v => ({ d with alm := { d.alm with points := v } } : Station)) (vecModify_id _ _ _ rfl)

theorem announce_none {i : Fin 32} {d : Station} (cfg : (d.alm.points[i]'i.isLt).cfg = none) : d.announce i = d := by
  unfold Station.announce
  rw [cfg]

/-- What the announcement of a point just written leaves. -/
theorem flagSet_announced {i : Fin 32} {v : Bool} {a : Station} {c : PointCfg} (cfg : (a.alm.points[i]'i.isLt).cfg = some c) (q : Point)
    (point : q = { a.alm.points[i]'i.isLt with firstOut := v })
    (new : (a.alm.points[i]'i.isLt).firstOut ≠ v) (raised : ¬ (v = true ∧ (a.alm.points[i]'i.isLt).state = .normal)) :
    FlagSet i v a ((a.withPoint i q).announce i) := by
  obtain ⟨only, announced⟩ := announce_spec i (a.withPoint i q)
  have whole := only.rest
  have own : (a.withPoint i q).alm.points[i]'i.isLt = q := withPoint_same i q a
  have settings : ((a.withPoint i q).alm.points[i]'i.isLt).cfg = some c := by rw [own, point]; exact cfg
  have told := announced c settings
  rw [own] at told
  have points (j : Fin 32) : ((a.withPoint i q).announce i).alm.points[j]'j.isLt = if j = i then { q with
      pending := (((a.withPoint i q).announce i).alm.points[i]'i.isLt).pending
      announced := (((a.withPoint i q).announce i).alm.points[i]'i.isLt).announced } else (a.alm.points[j]'j.isLt) := by
    by_cases e : j = i
    · rw [if_pos e, e]
      have at_i := congrArg (fun d : Station => d.alm.points[i]'i.isLt) whole
      refine at_i.trans ?_
      refine (vecModify_same _ _ _).trans ?_
      rw [show (a.withPoint i q).alm.points[i.val] = q from own]
    · rw [if_neg e]
      have at_j := congrArg (fun d : Station => d.alm.points[j]'j.isLt) whole
      refine at_j.trans ?_
      exact (vecModify_ne _ _ _ _ _ fun h => e (Fin.ext h.symm)).trans (withPoint_ne e q a)
  generalize (a.withPoint i q).announce i = b at *
  obtain ⟨shelved, deferred, sent⟩ := told
  have given : b.alm.points[i]'i.isLt = { q with pending := (b.alm.points[i]'i.isLt).pending, announced := (b.alm.points[i]'i.isLt).announced } :=
    (points i).trans (if_pos rfl)
  have queue : b.lpc.queue = a.lpc.queue ∨ QueueTook (.alarmState (q.body i c)) a.lpc.queue b.lpc.queue := by
    by_cases s : q.shelf = none
    · by_cases p : q.pending = true ∨ (c.cls = .low ∧ b.alm.flood = true) ∨
          ¬ QueueAccepts (.alarmState (q.body i c)) (a.withPoint i q).lpc.queue
      · exact .inl (deferred s p).2.2
      · exact .inr (sent s p).2.2
    · exact .inl (shelved s).2.2
  have flood : b.alm.flood = a.alm.flood := by
    rw [whole]
    rfl
  subst point
  refine ⟨fun j ne => (points j).trans (if_neg ne), given, fun silent => ?_, fun k hk tells put => ?_,
    fun k hk tells put room => ?_, ?_, fun j y ne hy e me he => ?_, ?_⟩
  · have s : (a.alm.points[i]'i.isLt).shelf ≠ none := fun s => silent ⟨new, raised, s⟩
    exact ⟨(shelved s).1, (shelved s).2.1⟩
  · obtain rfl : c = k := Option.some.inj (cfg.symm.trans hk)
    have late := deferred tells.2.2 (put.imp id fun low => .inl ⟨low.1, flood.trans low.2⟩)
    exact ⟨late.1, late.2.1⟩
  · obtain rfl : c = k := Option.some.inj (cfg.symm.trans hk)
    obtain ⟨pending, known, took⟩ := sent tells.2.2 fun x => by
      rcases x with x | ⟨low, x⟩ | x
      · exact put (.inl x)
      · exact put (.inr ⟨low, flood.symm.trans x⟩)
      · exact x (.inr room)
    refine ⟨pending, known, ?_⟩
    rw [given]
    exact took.holds
  · rcases queue with e | took
    · rw [e]
    · exact took.length_le
  · rcases queue with same | took
    · rw [same]
      exact me
    · exact took.keeps me (sameAlarm_apart ne rfl hy he)
  · rw [whole]
    rfl

theorem setFirstOut_set (i : Fin 32) (v : Bool) (d : Station) : FlagSet i v d (d.setFirstOut i v) := by
  have written : (d.onPoint i fun p => { p with firstOut := v }) = d.withPoint i { d.alm.points[i]'i.isLt with firstOut := v } :=
    onPoint_withPoint rfl
  unfold Station.setFirstOut
  by_cases same : (d.alm.points[i]'i.isLt).firstOut = v
  · rw [if_pos same]
    have quiet := flagSet_quiet (a := d) (i := i) (v := v) (d.alm.points[i]'i.isLt) (by rw [← same]) fun h => h.1 same
    rwa [withPoint_held] at quiet
  · rw [if_neg same, written]
    dsimp only
    rw [withPoint_same]
    by_cases normal : v = true ∧ (d.alm.points[i]'i.isLt).state = .normal
    · rw [if_pos (by rw [normal.1, normal.2]; rfl)]
      exact flagSet_quiet _ rfl fun h => h.2.1 normal
    · rw [if_neg (by rw [Bool.and_eq_true, beq_iff_eq]; exact normal)]
      rcases Option.eq_none_or_eq_some (d.alm.points[i]'i.isLt).cfg with cfg | ⟨c, cfg⟩
      · rw [announce_none (by rw [withPoint_same]; exact cfg)]
        refine ⟨fun j ne => withPoint_ne ne _ d, ?_, fun _ => ?_, fun c h => ?_, fun c h => ?_, le_rfl, fun _ _ _ _ _ me _ => me, rfl⟩
        · rw [withPoint_same]
        · rw [withPoint_same]
          exact ⟨rfl, rfl⟩
        · rw [cfg] at h
          cases h
        · rw [cfg] at h
          cases h
      · exact flagSet_announced cfg _ rfl same normal

/-! ## The flags handed over -/

/-- The flags of some points have been given over, with that of point `i` first: what the flag of each is, and what is told of it. -/
structure FlagsGiven (i : Fin 32) (l : List (Fin 32)) (a b : Station) : Prop where
  stand : ∀ j ∉ l, b.alm.points[j]'j.isLt = a.alm.points[j]'j.isLt
  points : ∀ j ∈ l, b.alm.points[j]'j.isLt = { a.alm.points[j]'j.isLt with
    firstOut := decide (j = i), pending := (b.alm.points[j]'j.isLt).pending, announced := (b.alm.points[j]'j.isLt).announced }
  quiet : ∀ j ∈ l, ¬ a.tellsFlag j (decide (j = i)) →
    (b.alm.points[j]'j.isLt).pending = (a.alm.points[j]'j.isLt).pending ∧ (b.alm.points[j]'j.isLt).announced = (a.alm.points[j]'j.isLt).announced
  putOff : ∀ j ∈ l, ∀ c, (a.alm.points[j]'j.isLt).cfg = some c → a.tellsFlag j (decide (j = i)) → a.putOff j c →
    (b.alm.points[j]'j.isLt).pending = true ∧ (b.alm.points[j]'j.isLt).announced = (a.alm.points[j]'j.isLt).announced
  told : ∀ j ∈ l, ∀ c, (a.alm.points[j]'j.isLt).cfg = some c → a.tellsFlag j (decide (j = i)) → ¬ a.putOff j c →
    (j = i ∧ a.lpc.queue.length < 16) ∨ b.lpc.queue.length < 16 →
    (b.alm.points[j]'j.isLt).pending = false ∧ (b.alm.points[j]'j.isLt).announced = .known (a.alm.points[j]'j.isLt).state ∧
      ∃ e ∈ b.lpc.queue, e.body = .alarmState ((b.alm.points[j]'j.isLt).body j c)
  grows : a.lpc.queue.length ≤ b.lpc.queue.length
  rest : b = { a with alm := { a.alm with points := b.alm.points }, lpc := { a.lpc with queue := b.lpc.queue } }

theorem FlagSet.first {i : Fin 32} {a b : Station} (h : FlagSet i true a b) : FlagsGiven i [i] a b := by
  have one {j : Fin 32} (m : j ∈ [i]) : j = i := List.mem_singleton.1 m
  have value : decide (i = i) = true := decide_eq_true rfl
  refine ⟨fun j out => h.others j fun e => out (List.mem_singleton.2 e), fun j m => ?_, fun j m => ?_, fun j m => ?_,
    fun j m c cfg tells put room => ?_, h.grows, h.rest⟩
  all_goals (obtain rfl := one m; rw [value] at *)
  · exact h.point
  · exact h.quiet
  · exact h.putOff
  · exact h.told c cfg tells put (room.elim And.right (lt_of_le_of_lt h.grows))

theorem FlagsGiven.next {i k : Fin 32} {l : List (Fin 32)} {a b c : Station} (h : FlagsGiven i l a b) (out : k ∉ l) (ne : k ≠ i)
    (s : FlagSet k false b c) : FlagsGiven i (k :: l) a c := by
  have value : decide (k = i) = false := decide_eq_false ne
  have before := h.stand k out
  have flood : b.alm.flood = a.alm.flood := by rw [h.rest]
  have tells : b.tellsFlag k false ↔ a.tellsFlag k (decide (k = i)) := by
    unfold Station.tellsFlag
    rw [before, value]
  have put (x : PointCfg) : b.putOff k x ↔ a.putOff k x := by
    unfold Station.putOff
    rw [before, flood]
  have old {j : Fin 32} (m : j ∈ l) : c.alm.points[j]'j.isLt = b.alm.points[j]'j.isLt := s.others j fun e => out (e ▸ m)
  refine ⟨fun j o => ?_, List.forall_mem_cons.2 ⟨?_, fun j m => ?_⟩, List.forall_mem_cons.2 ⟨fun q => ?_, fun j m q => ?_⟩,
    List.forall_mem_cons.2 ⟨fun x cfg t p => ?_, fun j m x cfg t p => ?_⟩,
    List.forall_mem_cons.2 ⟨fun x cfg t p room => ?_, fun j m x cfg t p room => ?_⟩, h.grows.trans s.grows, ?_⟩
  · obtain ⟨nk, nl⟩ := not_or.1 (mt List.mem_cons.2 o)
    exact (s.others j nk).trans (h.stand j nl)
  · have point := s.point
    rwa [before, ← value] at point
  · rw [old m]
    exact h.points j m
  · rw [← before]
    exact s.quiet (mt tells.1 q)
  · rw [old m]
    exact h.quiet j m q
  · rw [← before] at cfg ⊢
    exact s.putOff x cfg (tells.2 t) ((put x).2 p)
  · rw [old m]
    exact h.putOff j m x cfg t p
  · rw [← before] at cfg ⊢
    have space : c.lpc.queue.length < 16 := room.elim (fun r => absurd r.1 ne) id
    exact s.told x cfg (tells.2 t) (mt (put x).1 p) (lt_of_le_of_lt s.grows space)
  · rw [old m]
    obtain ⟨pending, known, e, me, he⟩ := h.told j m x cfg t p (room.imp id (lt_of_le_of_lt s.grows))
    exact ⟨pending, known, e, s.keeps j _ (fun e => out (e ▸ m)) rfl e me he, he⟩
  · have second := s.rest
    have first := h.rest
    rw [first] at second
    exact second

/-- The flags of a list of points cleared after that of `i` was set. -/
theorem FlagsGiven.clear {i : Fin 32} {a : Station} (l : List (Fin 32)) : ∀ {done : List (Fin 32)} {b : Station},
    FlagsGiven i done a b → i ∈ done → l.Nodup → (∀ j ∈ l, j ≠ i → j ∉ done) →
    ∃ all, FlagsGiven i all a (l.foldl (fun d j => if j = i then d else d.setFirstOut j false) b) ∧
      (∀ j ∈ done, j ∈ all) ∧ ∀ j ∈ l, j ∈ all := by
  induction l with
  | nil => exact fun {done b} h _ _ _ => ⟨done, h, fun _ m => m, nofun⟩
  | cons k l ih =>
    intro done b h own once fresh
    obtain ⟨notIn, once⟩ := List.nodup_cons.1 once
    rw [List.foldl_cons]
    by_cases e : k = i
    · rw [if_pos e]
      obtain ⟨all, given, kept, done'⟩ := ih h own once fun j m => fresh j (List.mem_cons_of_mem _ m)
      exact ⟨all, given, kept, List.forall_mem_cons.2 ⟨kept k (e ▸ own), done'⟩⟩
    · rw [if_neg e]
      have out := fresh k List.mem_cons_self e
      obtain ⟨all, given, kept, done'⟩ := ih (h.next out e (setFirstOut_set k false b)) (List.mem_cons_of_mem _ own) once
        fun j m ne o => (List.mem_cons.1 o).elim (fun x => notIn (x ▸ m)) (fresh j (List.mem_cons_of_mem _ m) ne)
      exact ⟨all, given, fun j m => kept j (List.mem_cons_of_mem _ m),
        List.forall_mem_cons.2 ⟨kept k List.mem_cons_self, done'⟩⟩

theorem handFirstOut_given (i : Fin 32) (d : Station) : ∃ all, FlagsGiven i all d (d.handFirstOut i) ∧ ∀ j, j ∈ all := by
  obtain ⟨all, given, -, every⟩ := (setFirstOut_set i true d).first.clear (List.finRange 32) (List.mem_singleton_self i)
    (List.nodup_finRange 32) fun j _ ne m => ne (List.mem_singleton.1 m)
  exact ⟨all, given, fun j => every j (List.mem_finRange j)⟩

theorem handFirstOut_flagged (i : Fin 32) (d : Station) : FirstOutFlagged i d (d.handFirstOut i) := by
  obtain ⟨all, given, every⟩ := handFirstOut_given i d
  refine ⟨fun j => given.points j (every j), fun j silent => given.quiet j (every j) fun ⟨new, raised, seen⟩ => ?_,
    fun j c cfg new raised seen => ?_, given.rest⟩
  · rcases silent with s | ⟨s, n⟩ | s
    · exact new s
    · exact raised ⟨decide_eq_true s, n⟩
    · exact s seen
  · have tells : d.tellsFlag j (decide (j = i)) := ⟨new, fun r => raised ⟨of_decide_eq_true r.1, r.2⟩, seen⟩
    exact ⟨given.putOff j (every j) c cfg tells, given.told j (every j) c cfg tells⟩

/-! ## The reference of a cause -/

/-- The point that watches a condition is the first of its settings. -/
theorem findPoint_iff (k : CondKind) (inst : Nat) (d : Station) (i : Fin 32) : d.findPoint k inst = some i ↔
    (∃ c, (d.alm.points[i]'i.isLt).cfg = some c ∧ c.kind = k ∧ c.inst = inst) ∧
      ∀ j, j < i → ¬ ∃ c, (d.alm.points[j]'j.isLt).cfg = some c ∧ c.kind = k ∧ c.inst = inst := by
  unfold Station.findPoint
  refine find_iff (P := fun j => ∃ c, (d.alm.points[j]'j.isLt).cfg = some c ∧ c.kind = k ∧ c.inst = inst) (fun j => ?_) i
  cases (d.alm.points[j]'j.isLt).cfg <;> simp

/-- A cause with a condition of its own name has a reference of its own (R102). -/
theorem firstOutOf_own {cause : CauseKind} {k : CondKind} (h : causeCondition cause = some k) (d : Station) :
    d.firstOutOf cause = .localRef (d.findPoint k 0) k := by
  unfold Station.firstOutOf
  rw [h]

theorem firstOutOf_request (d : Station) : d.firstOutOf .tripRequest = d.tripRequestRef := rfl

theorem firstOutOf_mainLost (d : Station) : d.firstOutOf .mainBurnerLost = d.mainLostRef := rfl

theorem tripInView_first {d : Station} {before after : List (Fin 16 × Image)} {i : Fin 16} {g : Image}
    (view : d.inView = before ++ (i, g) :: after) (quiet : ∀ e ∈ before, e.2.tripRequest = false) (asks : g.tripRequest = true) :
    d.tripInView = some (i, g) := by
  unfold Station.tripInView
  rw [List.find?_eq_some_iff_append]
  exact ⟨asks, before, after, view, fun e m => by rw [quiet e m]; rfl⟩

section
variable {d : Station} {i : Fin 16} {g : Image} (found : d.tripInView = some (i, g))
include found

theorem tripRequestRef_own (own : i = d.own) {k : CondKind} (kind : g.firstKind = some k) :
    d.tripRequestRef = .localRef (ownPointOfByte g.firstPoint) k := by
  unfold Station.tripRequestRef
  rw [found]
  dsimp only
  rw [kind]
  exact if_pos own

theorem tripRequestRef_peer (peer : i ≠ d.own) :
    d.tripRequestRef = .peer (some (i.val + 1)) (pointOfByte g.firstPoint) g.firstKind := by
  unfold Station.tripRequestRef
  rw [found]
  dsimp only
  cases g.firstKind with
  | none => rfl
  | some k => exact if_neg peer

end

theorem mainLostRef_of {d : Station} {i : Fin 16} {g : Image} (noted : d.bsq.mainStation = some i)
    (seen : (d.lpc.floor[i]'i.isLt).image = some g) : d.mainLostRef = if g.tripRequest = true then
      .peer (some (i.val + 1)) (pointOfByte g.firstPoint) g.firstKind
    else .peer (some (i.val + 1)) none none := by
  unfold Station.mainLostRef
  rw [noted]
  dsimp only
  rw [seen]

theorem firstOutNamed (d : Station) : FirstOutNamed d where
  own cause k named := by
    have condition : causeCondition cause = some k := by
      have table : ∀ e ∈ ([(.estop, .estop), (.purgeAirLost, .purgeAirLost), (.airFlowLost, .airFlowLost),
          (.ignitionFail, .ignitionFail), (.mainFlameFail, .mainFlameFail), (.flameFail, .flameFail), (.loopLost, .loopLost),
          (.coolerLoss, .coolerLoss)] : List (CauseKind × CondKind)), causeCondition e.1 = some e.2 := by decide
      exact table _ named
    rw [firstOutOf_own condition]
    refine ⟨fun i sees first => by rw [(findPoint_iff k 0 d i).2 ⟨sees, first⟩], fun unseen => ?_⟩
    cases found : d.findPoint k 0 with
    | none => rfl
    | some i => exact absurd ((findPoint_iff k 0 d i).1 found).1 (unseen i)
  request before after i g view quiet asks := by
    have found := tripInView_first view quiet asks
    rw [firstOutOf_request]
    refine ⟨fun k own kind => ?_, fun peer => tripRequestRef_peer found peer⟩
    rw [tripRequestRef_own found own kind]
    constructor
    · intro p value
      have small : g.firstPoint.toNat < 32 := value ▸ p.isLt
      unfold ownPointOfByte
      rw [dif_pos small]
      exact congrArg (fun x => FirstOut.localRef (some x) k) (Fin.ext value)
    · intro large
      unfold ownPointOfByte
      rw [dif_neg (Nat.not_lt.2 large)]
  main i noted g seen := mainLostRef_of noted seen
  entry cause own kind station point peerKind := ⟨rfl, rfl⟩

end Sys2Proof.Machine
end

section
/-! SUPPORT. The burner's lines by name, what a trip does not tell apart, and the events of the flame scanners (R88 to R92, R101). -/

set_option Elab.async false

namespace Sys2Proof.Machine

/-! ## The burner's lines -/

section
variable {d : Station} {fn : OutFn} {p : Fin 16} (found : d.findOut .valve fn 0 = some p)
include found

theorem valve_line : (d.dou.lines[p]'p.isLt).isLevel ∧ (d.dou.lines[p]'p.isLt).owner = .burnerSequencer := by
  obtain ⟨c, hc, hk, -⟩ := findOut_cfg found
  obtain ⟨kind, owner⟩ := line_of_cfg hc
  rw [hk] at kind owner
  exact ⟨.inl kind, owner⟩

theorem valve_partner : d.partnerOn (d.dou.lines[p]'p.isLt) = false := by
  obtain ⟨c, hc, hk, -⟩ := findOut_cfg found
  unfold Station.partnerOn Station.strokePartner
  rw [hc]
  dsimp only
  rw [hk]

theorem valveOn_forced (forced : (d.dou.lines[p]'p.isLt).forced = true) : d.valveOn fn = (d, .heldOff) := by
  obtain ⟨level, own⟩ := valve_line found
  unfold Station.valveOn
  rw [found]
  exact (lineOn_owned level own).trans (if_pos forced)

theorem valveOn_free (free : (d.dou.lines[p]'p.isLt).forced = false) :
    d.valveOn fn = (d.onOut p fun l => { l with on := true, pin := true }, .done) := by
  obtain ⟨level, own⟩ := valve_line found
  unfold Station.valveOn
  rw [found]
  refine (lineOn_owned level own).trans ((if_neg ?_).trans (if_neg ?_))
  · rw [free]
    exact Bool.false_ne_true
  · rw [valve_partner found]
    exact Bool.false_ne_true

theorem valveOff_found : d.valveOff fn = d.onOut p fun l => { l with on := false, pin := false } := by
  obtain ⟨level, own⟩ := valve_line found
  unfold Station.valveOff
  rw [found]
  exact congrArg Prod.fst (lineOff_owned level own)

end

section
variable {d : Station} {g : Fin 16} (found : d.findOut .igniter .igniter 0 = some g)
include found

theorem igniter_line : (d.dou.lines[g]'g.isLt).kind = .igniter ∧ (d.dou.lines[g]'g.isLt).owner = .burnerSequencer := by
  obtain ⟨c, hc, hk, -⟩ := findOut_cfg found
  obtain ⟨kind, owner⟩ := line_of_cfg hc
  rw [hk] at kind owner
  exact ⟨kind, owner⟩

theorem igniterStart_forced (forced : (d.dou.lines[g]'g.isLt).forced = true) : d.igniterStart = (d, .heldOff) := by
  obtain ⟨kind, own⟩ := igniter_line found
  unfold Station.igniterStart
  rw [found]
  exact (burstStart_owned kind own).trans (if_pos forced)

theorem igniterStart_idle (free : (d.dou.lines[g]'g.isLt).forced = false) (idle : (d.dou.lines[g]'g.isLt).burst = .idle) :
    d.igniterStart = (d.onOut g fun l => { l.startPulse d.now with burst := .bursting }, .done) := by
  obtain ⟨kind, own⟩ := igniter_line found
  unfold Station.igniterStart
  rw [found]
  refine (burstStart_owned kind own).trans ((if_neg ?_).trans (if_pos idle))
  rw [free]
  exact Bool.false_ne_true

theorem igniterEnd_bursting (bursts : (d.dou.lines[g]'g.isLt).burst = .bursting) : d.igniterEnd =
    d.onOut g fun l => if l.inPulse then { l with burst := .ending, spacingEnd := none } else l.goIdle := by
  obtain ⟨kind, own⟩ := igniter_line found
  unfold Station.igniterEnd
  rw [found]
  exact congrArg Prod.fst ((burstEnd_owned kind own).trans (if_pos bursts))

theorem valve_not_igniter {fn : OutFn} {p : Fin 16} (valve : d.findOut .valve fn 0 = some p) : g ≠ p := by
  rintro rfl
  obtain ⟨c, hc, hk, -⟩ := findOut_cfg found
  obtain ⟨c', hc', hk', -⟩ := findOut_cfg valve
  rw [hc] at hc'
  cases hc'
  rw [hk] at hk'
  cases hk'

end

theorem valves_apart {d : Station} {f g : OutFn} (ne : f ≠ g) {p m : Fin 16} (hp : d.findOut .valve f 0 = some p)
    (hm : d.findOut .valve g 0 = some m) : p ≠ m := by
  rintro rfl
  obtain ⟨c, hc, -, hf, -⟩ := findOut_cfg hp
  obtain ⟨c', hc', -, hg, -⟩ := findOut_cfg hm
  rw [hc] at hc'
  cases hc'
  exact ne (hf.symm.trans hg)

theorem burstCut_onBsq (i : Fin 16) (who : Owner) (f : Bsq → Bsq) (d : Station) :
    ((d.onBsq f).burstCut i who).1 = (d.burstCut i who).1.onBsq f := by
  have same : (d.onBsq f).dou = d.dou := rfl
  unfold Station.burstCut
  dsimp only
  rw [same]
  split
  · rfl
  · split <;> rfl

/-- A command to the igniter moves its line alone, whatever the burner's own record is. -/
theorem igniterCut_onBsq (f : Bsq → Bsq) (d : Station) : (d.onBsq f).igniterCut = d.igniterCut.onBsq f := by
  have same : (d.onBsq f).findOut .igniter .igniter 0 = d.findOut .igniter .igniter 0 := rfl
  unfold Station.igniterCut
  rw [same]
  cases d.findOut .igniter .igniter 0 with
  | none => rfl
  | some i => exact burstCut_onBsq i _ f d

theorem igniterCut_rest (d : Station) : d.igniterCut = { d with dou := d.igniterCut.dou } := by
  unfold Station.igniterCut
  split
  · unfold Station.burstCut
    dsimp only
    split
    · rfl
    · split <;> rfl
  · rfl

/-! ## What a trip does not tell apart -/

/-- Lines that fuel off brings to the same: alike but for valves ON or OFF and an igniter that was cut (R88). -/
theorem fuelOff_through {a b e : Station} (cfgs : ∀ i : Fin 16, (b.dou.lines[i]'i.isLt).cfg = (a.dou.lines[i]'i.isLt).cfg)
    (lines : ∀ i : Fin 16, b.dou.lines[i]'i.isLt = a.dou.lines[i]'i.isLt ∨
      ((∃ fn, (fn = .mainFuelRelease ∨ fn = .pilotValve) ∧ a.findOut .valve fn 0 = some i) ∧
        { b.dou.lines[i]'i.isLt with on := false, pin := false } = { a.dou.lines[i]'i.isLt with on := false, pin := false }) ∨
      (a.findOut .igniter .igniter 0 = some i ∧ (a.dou.lines[i]'i.isLt).burst ≠ .idle ∧ b.dou.lines[i]'i.isLt = (a.dou.lines[i]'i.isLt).goIdle))
    (h : FuelOff b e) : FuelOff a e := by
  have find (k : OutKind) (fn : OutFn) : b.findOut k fn 0 = a.findOut k fn 0 := findOut_congr cfgs k fn 0
  intro i
  have off := h i
  rw [find, find, find] at off
  dsimp only at off ⊢
  rcases lines i with same | ⟨⟨fn, isFuel, found⟩, same⟩ | ⟨found, bursts, cut⟩
  · rwa [same] at off
  · have valve : a.findOut .valve .mainFuelRelease 0 = some i ∨ a.findOut .valve .pilotValve 0 = some i := by
      rcases isFuel with rfl | rfl
      · exact .inl found
      · exact .inr found
    rw [if_pos valve] at off ⊢
    exact off.trans same
  · have valve : ¬ (a.findOut .valve .mainFuelRelease 0 = some i ∨ a.findOut .valve .pilotValve 0 = some i) :=
      fun x => x.elim (fun y => valve_not_igniter found y rfl) fun y => valve_not_igniter found y rfl
    rw [if_neg valve] at off ⊢
    rw [if_neg (by rw [cut]; exact fun x => x.2 rfl)] at off
    rw [if_pos ⟨found, bursts⟩]
    exact off.trans cut

/-- Two burner records alike but for what the end of a fire writes afresh (R101). -/
def BurnsAlike (a b : Bsq) : Prop :=
  b = { a with
    demand := b.demand, purge := b.purge, pilotTrial := b.pilotTrial, ignition := b.ignition, mainTrial := b.mainTrial
    shortfall := b.shortfall, coolerLoss := b.coolerLoss
    monitor := { b.monitor with scanners := a.monitor.scanners } }

theorem BurnsAlike.scanners {a b : Bsq} (h : BurnsAlike a b) : b.monitor.scanners = a.monitor.scanners :=
  (congrArg (fun x => x.monitor.scanners) h :)

theorem BurnsAlike.trans {a b c : Bsq} (h : BurnsAlike a b) (k : BurnsAlike b c) : BurnsAlike a c := by
  refine Eq.trans k ?_
  rw [h.scanners]
  unfold BurnsAlike at h
  rw [h]

/-- Two stations that the end of a fire does not tell apart. -/
structure FiresNear (a b : Station) : Prop where
  fuel : ∀ e, FuelOff b e → FuelOff a e
  bsq : BurnsAlike a.bsq b.bsq
  cfgs : ∀ j : Fin 32, (b.alm.points[j]'j.isLt).cfg = (a.alm.points[j]'j.isLt).cfg
  rest : BurnerOnly a b

/-- Two stations that a trip for a cause of the own station does not tell apart. -/
structure FiresAlike (a b : Station) : Prop extends FiresNear a b where
  flags : ∀ j : Fin 32, (b.alm.points[j]'j.isLt).firstOut = (a.alm.points[j]'j.isLt).firstOut

theorem FiresAlike.refl (d : Station) : FiresAlike d d := ⟨⟨fun _ h => h, rfl, fun _ => rfl, .refl d⟩, fun _ => rfl⟩

theorem stageBurner_rest (d : Station) : d.stageBurner = { d with lpc := d.stageBurner.lpc } := by
  unfold Station.stageBurner
  split <;> rfl

namespace FiresNear
variable {a b : Station} (h : FiresNear a b)
include h

theorem cfg : b.cfg = a.cfg := h.rest.rest.cfg

theorem own : b.own = a.own := by
  unfold Station.own
  rw [h.cfg]

theorem findPoint (k : CondKind) : b.findPoint k 0 = a.findPoint k 0 := by
  unfold Station.findPoint
  simp only [h.cfgs]

theorem firstOutOf {cause : CauseKind} {k : CondKind} (named : causeCondition cause = some k) :
    b.firstOutOf cause = a.firstOutOf cause := by
  rw [firstOutOf_own named, firstOutOf_own named, h.findPoint]

theorem stageBurner : FiresNear a b.stageBurner := by
  refine ⟨?_, ?_, ?_, h.rest.stageBurner⟩ <;> rw [stageBurner_rest]
  · exact h.fuel
  · exact h.bsq
  · exact h.cfgs

theorem onBsq (f : Bsq → Bsq) (hf : ∀ x, BurnsAlike x (f x) := by intro x; rfl) : FiresNear a (b.onBsq f) :=
  ⟨h.fuel, h.bsq.trans (hf _), h.cfgs, h.rest.onBsq f⟩

theorem report (k : CondKind) (n : Nat) (v : Bool) : FiresNear a (b.report k n v) := by
  have only := report_only k n v b
  refine ⟨fun e => ?_, ?_, fun j => (report_cfg k n v b j).trans (h.cfgs j), h.rest.report k n v⟩
  · unfold FuelOff Station.findOut
    rw [only.dou]
    exact h.fuel e
  · rw [only.bsq]
    exact h.bsq

/-- A trip for a cause of the own station, seen from a station near that it finds. -/
theorem trip {cause : CauseKind} {k : CondKind} (named : causeCondition cause = some k)
    (flags : (∀ (i : Fin 32) (k : CondKind), a.firstOutOf cause ≠ .localRef (some i) k) → ∀ j : Fin 32,
      (((b.trip cause).alm.points[j]'j.isLt).firstOut = true → (a.alm.points[j]'j.isLt).firstOut = true) ∧
      ((a.alm.points[j]'j.isLt).firstOut = true →
        ((b.trip cause).alm.points[j]'j.isLt).firstOut = true ∨ ((b.trip cause).alm.points[j]'j.isLt).state = .normal)) :
    Tripped cause a (b.trip cause) := by
  have t := trip_spec cause b
  have first := h.firstOutOf named
  have entry : b.tripEntry cause (a.firstOutOf cause) = a.tripEntry cause (a.firstOutOf cause) := by
    unfold Station.tripEntry
    rw [h.own, h.rest.rest.sru]
  have bsq := h.bsq
  have state : b.bsq.state = a.bsq.state := (congrArg Bsq.state bsq :)
  have stop : b.bsq.lastStop = a.bsq.lastStop := (congrArg Bsq.lastStop bsq :)
  have stood : b.bsq.holds = a.bsq.holds := (congrArg Bsq.holds bsq :)
  have sru : b.sru = a.sru := h.rest.rest.sru
  have now : b.now = a.now := h.rest.rest.now
  have ended := t.ended
  generalize b.trip cause = x at t ended flags ⊢
  refine ⟨⟨h.fuel x ended.fuel, ?_, fun i => ?_, fun c cfg => ?_, ended.posted, ended.shortfall, ended.cooler,
    h.rest.trans ended.rest⟩, t.timer, ?_, ?_, ?_, ?_, t.present, ?_, flags⟩
  · have whole := ended.bsq
    unfold BurnsAlike at bsq
    rw [bsq] at whole
    exact whole
  · have run := ended.runs i
    rwa [h.bsq.scanners] at run
  · exact ended.staged c ((congrArg (fun x => x.burner) h.cfg).trans cfg)
  · rw [t.record, first, sru, state]
  · rw [t.stop, stop]
  · have counted := t.counted
    rwa [first, entry] at counted
  · have holds := t.holds
    rwa [now, stood] at holds
  · intro i k' named'
    have flagged := t.flagged i k' (first.trans named')
    rwa [h.cfgs i] at flagged

end FiresNear

namespace FiresAlike
variable {a b : Station} (h : FiresAlike a b)
include h

theorem stageBurner : FiresAlike a b.stageBurner := by
  refine ⟨h.toFiresNear.stageBurner, ?_⟩
  rw [stageBurner_rest]
  exact h.flags

theorem post (e : HostEvent) : FiresAlike a (b.post e) := ⟨⟨h.fuel, h.bsq, h.cfgs, h.rest.post e⟩, h.flags⟩

theorem onBsq (f : Bsq → Bsq) (hf : ∀ x, BurnsAlike x (f x) := by intro x; rfl) : FiresAlike a (b.onBsq f) :=
  ⟨h.toFiresNear.onBsq f hf, h.flags⟩

theorem valveOpened {fn : OutFn} (isFuel : fn = .mainFuelRelease ∨ fn = .pilotValve) {p : Fin 16}
    (found : b.findOut .valve fn 0 = some p) : FiresAlike a (b.onOut p fun l => { l with on := true, pin := true }) := by
  refine ⟨⟨fun e off => h.fuel e (fuelOff_through (b := b.onOut p fun l => { l with on := true, pin := true }) (fun i => ?_)
    (fun i => ?_) off), h.bsq, h.cfgs, ?_⟩, h.flags⟩
  · exact vecModify_field b.dou.lines p i (f := fun l => { l with on := true, pin := true }) OutLine.cfg fun _ => rfl
  · by_cases e : p = i
    · subst e
      refine .inr (.inl ⟨⟨fn, isFuel, found⟩, ?_⟩)
      have on : (b.onOut p fun l => { l with on := true, pin := true }).dou.lines[p]'p.isLt =
        { b.dou.lines[p]'p.isLt with on := true, pin := true } := vecModify_same _ _ _
      rw [on]
    · exact .inl (vecModify_ne _ _ _ _ _ fun x => e (Fin.ext x))
  · exact h.rest.command ((LineCommand.refl _ _).onOut p _ (valve_line found).2)

theorem igniterCut : FiresAlike a b.igniterCut := by
  have same := igniterCut_rest b
  have lines (i : Fin 16) := igniterCut_lines b i
  refine ⟨⟨fun e off => h.fuel e (fuelOff_through (fun i => ?_) (fun i => ?_) off), ?_, ?_, h.rest.igniterCut⟩, ?_⟩
  · rw [lines]
    split <;> rfl
  · rw [lines]
    by_cases cut : b.findOut .igniter .igniter 0 = some i ∧ (b.dou.lines[i]'i.isLt).burst ≠ .idle
    · rw [if_pos cut]
      exact .inr (.inr ⟨cut.1, cut.2, rfl⟩)
    · rw [if_neg cut]
      exact .inl rfl
  · rw [same]
    exact h.bsq
  · rw [same]
    exact h.cfgs
  · rw [same]
    exact h.flags

/-- A trip for a cause of the own station, seen from a station that it does not tell from that it finds. -/
theorem trip {cause : CauseKind} {k : CondKind} (named : causeCondition cause = some k) : Tripped cause a (b.trip cause) := by
  refine h.toFiresNear.trip named fun no j => ?_
  have unflagged := (trip_spec cause b).unflagged (by rw [h.firstOutOf named]; exact no) j
  rwa [h.flags j] at unflagged

end FiresAlike

/-! ## Scanner events -/

/-- The station with another monitor record. -/
def Station.withMonitor (m : Monitor) (d : Station) : Station := { d with bsq := { d.bsq with monitor := m } }

/-- A scanner's entry after an event of the kind given. -/
def Scanner.counted (s : Scanner) : Scanner := { s with good := min 8 (s.good + 1), bad := 0 }
def Scanner.failed (s : Scanner) : Scanner := { s with good := 0, bad := min 2 (s.bad + 1) }

/-- The greatest good run of some scanner entries (R91). -/
def Station.bestOf (d : Station) (v : Vector Scanner 2) : Nat :=
  max (if d.scannerConfigured 0 then v[0].good else 0) (if d.scannerConfigured 1 then v[1].good else 0)

theorem bestRun_eq (d : Station) : d.bestRun = d.bestOf d.bsq.monitor.scanners := by
  unfold Station.bestRun Station.bestOf
  rw [show List.finRange 2 = [0, 1] from by decide]
  simp only [List.foldl_cons, List.foldl_nil]
  cases d.scannerConfigured 0 <;> cases d.scannerConfigured 1 <;> simp

theorem allBad_iff (d : Station) : d.allBad = true ↔
    ∀ j : Fin 2, d.scannerConfigured j = true → 2 ≤ (d.bsq.monitor.scanners[j]'j.isLt).bad := by
  unfold Station.allBad
  rw [List.all_eq_true]
  constructor
  · intro h j on
    have := h j (List.mem_finRange j)
    rw [on] at this
    exact of_decide_eq_true this
  · intro h j _
    cases on : d.scannerConfigured j with
    | false => rfl
    | true => exact decide_eq_true (h j on)

/-- The station with a scanner's event written in its monitor. -/
def Station.onScanner (i : Fin 2) (f : Scanner → Scanner) (d : Station) : Station :=
  d.withMonitor (d.bsq.monitor.onScanner i f)

section
variable {d : Station} {c : BurnerCfg} {i : Fin 2}

theorem goodCapture_proven (h : d.bsq.monitor.status = .proven) : d.goodCapture c i =
    d.withMonitor { d.bsq.monitor with
      scanners := vecModify d.bsq.monitor.scanners i Scanner.counted, failTimer := some (d.now + c.failResponse * 1000000) } := by
  have armed : (d.onScanner i Scanner.counted).bsq.monitor.status = .proven := h
  show (match (d.onScanner i Scanner.counted).bsq.monitor.status with | .proven => _ | .proving => _ | _ => _) = _
  rw [armed]
  rfl

/-- The monitor as a good capture leaves it while the flame is not proven (R91). -/
def Station.provingMonitor (i : Fin 2) (d : Station) : Monitor :=
  let counted := vecModify d.bsq.monitor.scanners i Scanner.counted
  { d.bsq.monitor with scanners := counted, proving := d.bestOf counted }

theorem goodCapture_proving (h : d.bsq.monitor.status = .proving) : d.goodCapture c i =
    if c.proofCount ≤ min 8 ((d.bsq.monitor.scanners[i]'i.isLt).good + 1) then
      let e := d.withMonitor { d.provingMonitor i with status := .proven, failTimer := some (d.now + c.failResponse * 1000000) }
      if d.bsq.state = .pilotTrial then e.enterMain c else e
    else d.withMonitor (d.provingMonitor i) := by
  have armed : (d.onScanner i Scanner.counted).bsq.monitor.status = .proving := h
  have run : ((vecModify d.bsq.monitor.scanners i Scanner.counted)[i]'i.isLt).good = min 8 ((d.bsq.monitor.scanners[i]'i.isLt).good + 1) :=
    congrArg Scanner.good (vecModify_same _ _ _)
  show (match (d.onScanner i Scanner.counted).bsq.monitor.status with | .proven => _ | .proving => _ | _ => _) = _
  rw [armed]
  show (if c.proofCount ≤ ((vecModify d.bsq.monitor.scanners i Scanner.counted)[i]'i.isLt).good then _ else _) = _
  rw [run]
  dsimp only
  rw [bestRun_eq]
  rfl

theorem badCapture_proving (h : d.bsq.monitor.status = .proving) : d.badCapture i =
    let failed := vecModify d.bsq.monitor.scanners i Scanner.failed
    d.withMonitor { d.bsq.monitor with scanners := failed, proving := d.bestOf failed } := by
  have armed : (d.onScanner i Scanner.failed).bsq.monitor.status = .proving := h
  show (match (d.onScanner i Scanner.failed).bsq.monitor.status with | .proving => _ | .proven => _ | _ => _) = _
  rw [armed]
  dsimp only
  rw [bestRun_eq]
  rfl

theorem badCapture_proven (h : d.bsq.monitor.status = .proven) : d.badCapture i =
    if (d.onScanner i Scanner.failed).allBad then (d.onScanner i Scanner.failed).flameLost else d.onScanner i Scanner.failed := by
  have armed : (d.onScanner i Scanner.failed).bsq.monitor.status = .proven := h
  show (match (d.onScanner i Scanner.failed).bsq.monitor.status with | .proving => _ | .proven => _ | _ => _) = _
  rw [armed]
  rfl

theorem flameLost_firing (h : d.bsq.state = .firing) : Tripped .flameFail d d.flameLost := by
  have alike := (FiresAlike.refl d).onBsq fun b => { b with monitor := { b.monitor with status := .lost, failTimer := none } }
  have tripped : Tripped .flameFail d _ := alike.trip rfl
  have burning : (d.onBsq fun b => { b with monitor := { b.monitor with status := .lost, failTimer := none } }).bsq.state = .firing := h
  unfold Station.flameLost
  dsimp only
  rw [burning]
  exact tripped

theorem flameLost_mainTrial (h : d.bsq.state = .mainTrial) : Tripped .mainFlameFail d d.flameLost := by
  have alike := (FiresAlike.refl d).onBsq fun b => { b with monitor := { b.monitor with status := .lost, failTimer := none } }
  have tripped : Tripped .mainFlameFail d _ := alike.trip rfl
  have burning : (d.onBsq fun b => { b with monitor := { b.monitor with status := .lost, failTimer := none } }).bsq.state =
    .mainTrial := h
  unfold Station.flameLost
  dsimp only
  rw [burning]
  exact tripped

end

end Sys2Proof.Machine
end

section
/-! SUPPORT. The scanner captures and silences by what the monitor stands at (R90 to R92, R98, R100). -/

set_option Elab.async false

namespace Sys2Proof.Machine

/-- What a capture of a period does (R90, R91). -/
def Station.captured (i : Fin 2) (us : Nat) (d : Station) : Station :=
  match d.cfg.burner with
  | none => d
  | some c =>
    if !d.scannerConfigured i then d
    else
      let good := c.bandMin ≤ us && us ≤ c.bandMax
      let d := d.onBsq fun b =>
        { b with monitor := b.monitor.onScanner i fun s =>
            { s with lastPeriod := us, verdict := if good then .good else .bad } }
      if d.bsq.monitor.status = .none then d
      else if good then d.goodCapture c i else d.badCapture i

/-- What a silence of a scanner does (R90, R91). -/
def Station.silenced (i : Fin 2) (d : Station) : Station :=
  match d.cfg.burner with
  | none => d
  | some _ =>
    if !d.scannerConfigured i then d
    else
      let d := d.onScanner i fun s => { s with verdict := .noSignal }
      if d.bsq.monitor.status = .none then d else d.badCapture i

theorem exec_scannerCapture (i : Fin 2) (period width : Nat) (tb : Timebase) (s : State) :
    exec (.bsqScannerCapture i period width tb) s =
      act (.bsqScannerCapture i period width tb) (Station.captured i (period * tbMicros tb)) s := rfl

theorem exec_scannerSilence (i : Fin 2) (s : State) :
    exec (.bsqScannerNoSignal i) s = act (.bsqScannerNoSignal i) (Station.silenced i) s := rfl

/-- A period lies in the band of a good flame (R90). -/
def BurnerCfg.fits (c : BurnerCfg) (us : Nat) : Prop := c.bandMin ≤ us ∧ us ≤ c.bandMax

theorem fits_guard (c : BurnerCfg) (us : Nat) : (decide (c.bandMin ≤ us) && decide (us ≤ c.bandMax)) = true ↔ c.fits us := by
  rw [Bool.and_eq_true, decide_eq_true_eq, decide_eq_true_eq]
  exact Iff.rfl

/-- A scanner's entry after a capture: its period and its verdict (R90). -/
def Scanner.seen (c : BurnerCfg) (us : Nat) (s : Scanner) : Scanner :=
  { s with lastPeriod := us, verdict := if c.bandMin ≤ us ∧ us ≤ c.bandMax then .good else .bad }

theorem seen_fit {c : BurnerCfg} {us : Nat} (fit : c.fits us) (s : Scanner) :
    s.seen c us = { s with lastPeriod := us, verdict := .good } :=
  congrArg (fun v => ({ s with lastPeriod := us, verdict := v } : Scanner)) (if_pos fit)

/-- The scanner entries with one of them replaced. -/
def Station.scannersWith (i : Fin 2) (s : Scanner) (d : Station) : Vector Scanner 2 :=
  vecModify d.bsq.monitor.scanners i fun _ => s

/-- The station with one scanner entry replaced. -/
def Station.withScanner (i : Fin 2) (s : Scanner) (d : Station) : Station :=
  d.withMonitor { d.bsq.monitor with scanners := d.scannersWith i s }

theorem scanners_again (i : Fin 2) (s : Scanner) (f : Scanner → Scanner) (d : Station) :
    vecModify (d.withScanner i s).bsq.monitor.scanners i f = d.scannersWith i (f s) :=
  (vecModify_twice _ _ _ _).trans rfl

theorem onScanner_eq (i : Fin 2) (f : Scanner → Scanner) (d : Station) :
    d.onScanner i f = d.withScanner i (f (d.bsq.monitor.scanners[i]'i.isLt)) :=
  congrArg (fun v => d.withMonitor { d.bsq.monitor with scanners := v }) (vecModify_of_eq _ _ _ _ rfl)

theorem onScanner_again (i : Fin 2) (s : Scanner) (f : Scanner → Scanner) (d : Station) :
    (d.withScanner i s).onScanner i f = d.withScanner i (f s) :=
  congrArg (fun v => d.withMonitor { d.bsq.monitor with scanners := v }) (scanners_again i s f d)

theorem withScanner_own (i : Fin 2) (s : Scanner) (d : Station) : (d.withScanner i s).bsq.monitor.scanners[i]'i.isLt = s :=
  vecModify_same _ _ _

section
variable {c : BurnerCfg} {i : Fin 2} {us : Nat} {d : Station} (cfg : d.cfg.burner = some c) (on : d.scannerConfigured i = true)
include cfg on

theorem captured_eq : d.captured i us =
    let x := d.withScanner i ((d.bsq.monitor.scanners[i]'i.isLt).seen c us)
    if d.bsq.monitor.status = .none then x
    else if c.bandMin ≤ us && us ≤ c.bandMax then x.goodCapture c i else x.badCapture i := by
  have seen : (d.onScanner i fun s => { s with lastPeriod := us, verdict := if c.bandMin ≤ us && us ≤ c.bandMax then .good else .bad }) =
      d.withScanner i ((d.bsq.monitor.scanners[i]'i.isLt).seen c us) := by
    rw [onScanner_eq]
    simp only [Scanner.seen, Bool.and_eq_true, decide_eq_true_eq]
  unfold Station.captured
  rw [cfg]
  dsimp only
  rw [if_neg (by rw [on]; exact Bool.false_ne_true)]
  have seen : (d.onBsq fun b => { b with monitor := b.monitor.onScanner i fun s =>
      { s with lastPeriod := us, verdict := if c.bandMin ≤ us && us ≤ c.bandMax then .good else .bad } }) =
      d.withScanner i ((d.bsq.monitor.scanners[i]'i.isLt).seen c us) := seen
  rw [seen]
  rfl

theorem captured_unarmed (out : d.bsq.monitor.status = .none) :
    d.captured i us = d.withScanner i ((d.bsq.monitor.scanners[i]'i.isLt).seen c us) :=
  (captured_eq cfg on).trans (if_pos out)

section
variable (armed : d.bsq.monitor.status ≠ .none)
include armed

theorem captured_fit (fit : c.fits us) :
    d.captured i us = (d.withScanner i ((d.bsq.monitor.scanners[i]'i.isLt).seen c us)).goodCapture c i :=
  (captured_eq cfg on).trans ((if_neg armed).trans (if_pos ((fits_guard c us).2 fit)))

theorem captured_unfit (fit : ¬ c.fits us) :
    d.captured i us = (d.withScanner i ((d.bsq.monitor.scanners[i]'i.isLt).seen c us)).badCapture i :=
  (captured_eq cfg on).trans ((if_neg armed).trans (if_neg (mt (fits_guard c us).1 fit)))

theorem silenced_armed :
    d.silenced i = (d.withScanner i { d.bsq.monitor.scanners[i]'i.isLt with verdict := .noSignal }).badCapture i := by
  unfold Station.silenced
  rw [cfg]
  dsimp only
  rw [if_neg (by rw [on]; exact Bool.false_ne_true), onScanner_eq]
  exact if_neg armed

end

theorem silenced_unarmed (out : d.bsq.monitor.status = .none) :
    d.silenced i = d.withScanner i { d.bsq.monitor.scanners[i]'i.isLt with verdict := .noSignal } := by
  unfold Station.silenced
  rw [cfg]
  dsimp only
  rw [if_neg (by rw [on]; exact Bool.false_ne_true), onScanner_eq]
  exact if_pos out

end

/-! ## After a capture was written -/

section
variable {c : BurnerCfg} {i : Fin 2} {d : Station} (s : Scanner)

theorem goodSeen_proven (h : d.bsq.monitor.status = .proven) : (d.withScanner i s).goodCapture c i =
    d.withMonitor { d.bsq.monitor with
      scanners := d.scannersWith i s.counted, failTimer := some (d.now + c.failResponse * 1000000) } := by
  rw [goodCapture_proven (d := d.withScanner i s) h, scanners_again]
  rfl

theorem provingMonitor_seen : (d.withScanner i s).provingMonitor i =
    { d.bsq.monitor with scanners := d.scannersWith i s.counted, proving := d.bestOf (d.scannersWith i s.counted) } := by
  unfold Station.provingMonitor
  rw [scanners_again]
  rfl

section
variable (h : d.bsq.monitor.status = .proving)
include h

theorem goodSeen_counting (few : min 8 (s.good + 1) < c.proofCount) : (d.withScanner i s).goodCapture c i =
    d.withMonitor { d.bsq.monitor with
      scanners := d.scannersWith i s.counted, proving := d.bestOf (d.scannersWith i s.counted) } := by
  rw [goodCapture_proving (d := d.withScanner i s) h, withScanner_own, if_neg (Nat.not_le.2 few), provingMonitor_seen]
  rfl

/-- The monitor of a flame proven by a scanner's entry (R91). -/
def Station.provenMonitor (c : BurnerCfg) (i : Fin 2) (s : Scanner) (d : Station) : Monitor :=
  { d.bsq.monitor with
    scanners := d.scannersWith i s.counted, proving := d.bestOf (d.scannersWith i s.counted), status := .proven
    failTimer := some (d.now + c.failResponse * 1000000) }

theorem goodSeen_proves (enough : c.proofCount ≤ min 8 (s.good + 1)) : (d.withScanner i s).goodCapture c i =
    if d.bsq.state = .pilotTrial then (d.withMonitor (d.provenMonitor c i s)).enterMain c
    else d.withMonitor (d.provenMonitor c i s) := by
  rw [goodCapture_proving (d := d.withScanner i s) h, withScanner_own, if_pos enough, provingMonitor_seen]
  rfl

theorem badSeen_proving : (d.withScanner i s).badCapture i =
    d.withMonitor { d.bsq.monitor with
      scanners := d.scannersWith i s.failed, proving := d.bestOf (d.scannersWith i s.failed) } := by
  rw [badCapture_proving (d := d.withScanner i s) h, scanners_again]
  rfl

end

section
variable (h : d.bsq.monitor.status = .proven)
include h

theorem badSeen_stands
    (some_left : ¬ ∀ j : Fin 2, d.scannerConfigured j = true → 2 ≤ ((d.scannersWith i s.failed)[j]'j.isLt).bad) :
    (d.withScanner i s).badCapture i = d.withScanner i s.failed := by
  rw [badCapture_proven (d := d.withScanner i s) h, onScanner_again]
  exact if_neg (mt (allBad_iff _).1 some_left)

theorem badSeen_lost (lost : ∀ j : Fin 2, d.scannerConfigured j = true → 2 ≤ ((d.scannersWith i s.failed)[j]'j.isLt).bad) :
    (d.withScanner i s).badCapture i = (d.withScanner i s.failed).flameLost := by
  rw [badCapture_proven (d := d.withScanner i s) h, onScanner_again]
  exact if_pos ((allBad_iff _).2 lost)

end

end

end Sys2Proof.Machine

open Sys2Proof Sys2Proof.Machine in
/-- Settles O28: each event by the monitor's status, its verdict, and the runs it leaves. -/
theorem scannerEventsProveAndLoseTheFlame : Obligations.ScannerEventsProveAndLoseTheFlame := by
  intro i period width tb s c cfg on capture silence m us good verdict seen best counted failed missed lost after
  let x := s.dev.take capture
  let y := s.dev.take silence
  let mute : Scanner := { m.scanners[i]'i.isLt with verdict := .noSignal }
  let z : Scanner := (m.scanners[i]'i.isLt).seen c us
  have onX : x.scannerConfigured i = true := on
  have onY : y.scannerConfigured i = true := on
  have cfgX : x.cfg.burner = some c := cfg
  have cfgY : y.cfg.burner = some c := cfg
  have muted : vecModify m.scanners i (fun x => { x with verdict := .noSignal }) = y.scannersWith i mute :=
    vecModify_of_eq _ _ _ _ rfl
  have silent : missed = y.scannersWith i mute.failed := vecModify_of_eq _ _ _ _ rfl
  have shown {e : Monitor} (h : x.captured i us = x.withMonitor e) : after capture e :=
    exec_eq (exec_scannerCapture i period width tb) h
  have quiet {e : Monitor} (h : y.silenced i = y.withMonitor e) : after silence e :=
    exec_eq (exec_scannerSilence i) h
  have heard {P : Station → Prop} {e : Station} (h : x.captured i us = e) (p : P e) : Runs capture s P :=
    .of_act (exec_scannerCapture i period width tb) (h.symm ▸ p)
  have missing {P : Station → Prop} {e : Station} (h : y.silenced i = e) (p : P e) : Runs silence s P :=
    .of_act (exec_scannerSilence i) (h.symm ▸ p)
  rw [muted, silent]
  refine ⟨fun out => ⟨shown (captured_unarmed cfgX onX out), quiet (silenced_unarmed cfgY onY out)⟩, fun proving => ?_, fun proven => ?_⟩
  · have armedX : x.bsq.monitor.status ≠ .none := by
      show m.status ≠ .none
      rw [proving]
      nofun
    exact ⟨fun fit few => shown ((captured_fit cfgX onX armedX fit).trans (goodSeen_counting z proving few)),
      fun fit enough elsewhere => shown ((captured_fit cfgX onX armedX fit).trans
        ((goodSeen_proves (d := x) z proving enough).trans (if_neg elsewhere))),
      fun fit => shown ((captured_unfit cfgX onX armedX fit).trans (badSeen_proving z proving)),
      quiet ((silenced_armed cfgY onY armedX).trans (badSeen_proving mute proving))⟩
  · have armedX : x.bsq.monitor.status ≠ .none := by
      show m.status ≠ .none
      rw [proven]
      nofun
    exact ⟨fun fit => shown ((captured_fit cfgX onX armedX fit).trans (goodSeen_proven z proven)),
      fun fit left => shown ((captured_unfit cfgX onX armedX fit).trans (badSeen_stands z proven left)),
      fun left => quiet ((silenced_armed cfgY onY armedX).trans (badSeen_stands mute proven left)),
      fun fit gone firing => heard ((captured_unfit cfgX onX armedX fit).trans (badSeen_lost z proven gone)) (flameLost_firing firing),
      fun gone firing => missing ((silenced_armed cfgY onY armedX).trans (badSeen_lost mute proven gone)) (flameLost_firing firing),
      fun fit gone trial => heard ((captured_unfit cfgX onX armedX fit).trans (badSeen_lost z proven gone)) (flameLost_mainTrial trial),
      fun gone trial => missing ((silenced_armed cfgY onY armedX).trans (badSeen_lost mute proven gone)) (flameLost_mainTrial trial)⟩
end

section
/-! SUPPORT. The trips of timers, lines and held-off commands (R89, R92, R95, R97, R98, R100, R101, R105, R108, R110). -/

set_option Elab.async false

namespace Sys2Proof.Machine

/-! ## Timers that end -/

/-- What the end of a timer does: nothing once the timer was stopped. -/
def Station.expires (timer : Bsq → Option Nat) (f : Station → Station) (d : Station) : Station :=
  if (timer d.bsq).isNone then d else f d

theorem expires_runs {timer : Bsq → Option Nat} {d : Station} {e : Nat} (runs : timer d.bsq = some e) (f : Station → Station) :
    d.expires timer f = f d :=
  if_neg (by rw [runs]; exact Bool.false_ne_true)

theorem exec_flameFailTimer (s : State) : exec .flameFailTimerExpiry s =
    act .flameFailTimerExpiry (Station.expires (fun b => b.monitor.failTimer) Station.flameLost) s := rfl

theorem exec_pilotTrialLimit (s : State) : exec .pilotTrialLimitExpiry s =
    act .pilotTrialLimitExpiry (Station.expires Bsq.pilotTrial (Station.trip .ignitionFail)) s := rfl

theorem exec_mainTrialLimit (s : State) : exec .mainTrialLimitExpiry s =
    act .mainTrialLimitExpiry (Station.expires Bsq.mainTrial (Station.trip .mainFlameFail)) s := rfl

theorem exec_coolerLossTimer (s : State) : exec .coolerLossTimerExpiry s =
    act .coolerLossTimerExpiry (Station.expires Bsq.coolerLoss (Station.trip .coolerLoss)) s := rfl

theorem Runs.of_expiry {cmd : Instr} {timer : Bsq → Option Nat} {cause : CauseKind} {s : State} {e : Nat}
    (name : ∀ s, exec cmd s = act cmd (Station.expires timer (Station.trip cause)) s) (runs : timer s.dev.bsq = some e) :
    Runs cmd s (Tripped cause (s.dev.take cmd)) :=
  .of_act name ((expires_runs (d := s.dev.take cmd) runs (Station.trip cause)).symm ▸ trip_spec cause (s.dev.take cmd))

/-! ## Lines that change -/

/-- What the end of the loop grace does (R108). -/
def Station.graceEnded (d : Station) : Station := if d.bsq.state = .firing then d.trip .loopLost else d

/-- What a change of the emergency stop does (R110). -/
def Station.estopChanged (active : Bool) (d : Station) : Station := if active && d.bsq.state.active then d.trip .estop else d

/-- What a change of the air flow does (R95, R100). -/
def Station.airChanged (active : Bool) (d : Station) : Station :=
  match d.cfg.burner with
  | none => d
  | some c =>
    if d.bsq.state = .purge then
      if active then d.onBsq fun b => { b with purge := some (d.inSec c.purgeTime) }
      else if d.bsq.purge.isNone then d
      else
        let d := d.onBsq fun b => { b with purge := none, interruptions := b.interruptions + 1 }
        if d.bsq.interruptions ≥ 3 then d.trip .purgeAirLost else d
    else if d.bsq.state.pastPurge && !active then d.trip .airFlowLost
    else d

/-- What the end of the purge timer does (R95, R97). -/
def Station.purgeEnded (d : Station) : Station :=
  match d.cfg.burner with
  | none => d
  | some c => if d.bsq.purge.isSome && d.bsq.state = .purge then d.enterPilot c else d

theorem exec_loopGrace (s : State) : exec .bsqLoopGraceExpiry s = act .bsqLoopGraceExpiry Station.graceEnded s := rfl

theorem exec_estopChange (active : Bool) (s : State) :
    exec (.bsqEstopChange active) s = act (.bsqEstopChange active) (Station.estopChanged active) s := rfl

theorem exec_airFlowChange (active : Bool) (s : State) :
    exec (.bsqAirFlowChange active) s = act (.bsqAirFlowChange active) (Station.airChanged active) s := rfl

theorem exec_purgeTimer (s : State) : exec .bsqPurgeTimerExpiry s = act .bsqPurgeTimerExpiry Station.purgeEnded s := rfl

section
variable {d : Station}

theorem estopChanged_burning
    (h : d.bsq.state = .purge ∨ d.bsq.state = .pilotTrial ∨ d.bsq.state = .mainTrial ∨ d.bsq.state = .firing) :
    d.estopChanged true = d.trip .estop := by
  refine if_pos ?_
  rcases h with h | h | h | h <;> rw [h] <;> rfl

theorem estopChanged_out (h : d.bsq.state = .off ∨ d.bsq.state = .postPurge ∨ d.bsq.state = .lockout) : d.estopChanged true = d := by
  refine if_neg ?_
  rcases h with h | h | h <;> rw [h] <;> exact Bool.false_ne_true

theorem estopChanged_back : d.estopChanged false = d := if_neg Bool.false_ne_true

variable {c : BurnerCfg} (cfg : d.cfg.burner = some c)
include cfg

theorem airChanged_lost (h : d.bsq.state = .pilotTrial ∨ d.bsq.state = .mainTrial ∨ d.bsq.state = .firing) :
    d.airChanged false = d.trip .airFlowLost := by
  unfold Station.airChanged
  rw [cfg]
  dsimp only
  rcases h with h | h | h <;> rw [h] <;> rfl

section
variable (purging : d.bsq.state = .purge)
include purging

theorem airChanged_back : d.airChanged true = d.onBsq fun b => { b with purge := some (d.now + c.purgeTime * 1000000) } := by
  unfold Station.airChanged
  rw [cfg]
  dsimp only
  rw [if_pos purging]
  rfl

/-- The station with one more interruption of its purge (R95). -/
def Station.interrupted (d : Station) : Station :=
  d.onBsq fun b => { b with purge := none, interruptions := b.interruptions + 1 }

variable {e : Nat} (runs : d.bsq.purge = some e)
include runs

theorem airChanged_gone : d.airChanged false =
    if 3 ≤ d.bsq.interruptions + 1 then d.interrupted.trip .purgeAirLost else d.interrupted := by
  unfold Station.airChanged
  rw [cfg]
  dsimp only
  rw [if_pos purging, if_neg Bool.false_ne_true, if_neg (by rw [runs]; exact Bool.false_ne_true)]
  rfl

theorem purgeEnded_enters : d.purgeEnded = d.enterPilot c := by
  unfold Station.purgeEnded
  rw [cfg]
  dsimp only
  exact if_pos (by rw [runs, purging]; rfl)

end

end

/-! ## Trials entered under a force (R89, R97) -/

/-- The station with PILOT TRIAL as its state, before any line is commanded (R97). -/
def Station.pilotEntered (d : Station) : Station :=
  { d with bsq := { d.bsq with state := .pilotTrial, demand := 0, purge := none } }

/-- The station with a state in its record, with the staged piece and the host event that tell of it (R87). -/
def Station.told (d : Station) : Station := d.stageBurner.post .burnerState

theorem told_same (d : Station) : d.told.dou = d.dou ∧ d.told.bsq = d.bsq ∧ d.told.cfg = d.cfg ∧ d.told.now = d.now := by
  unfold Station.told Station.stageBurner
  split <;> exact ⟨rfl, rfl, rfl, rfl⟩

theorem told_findOut (d : Station) (k : OutKind) (fn : OutFn) : d.told.findOut k fn 0 = d.findOut k fn 0 :=
  findOut_congr (fun i => by rw [(told_same d).1]) k fn 0

theorem enterPilot_eq (c : BurnerCfg) (d : Station) : d.enterPilot c =
    match d.pilotEntered.told.valveOn .pilotValve with
    | (x, .heldOff) => x.trip .estop
    | (x, _) =>
      match x.igniterStart with
      | (y, .heldOff) => y.trip .estop
      | (y, _) => y.onBsq fun b =>
          { b.arm with pilotTrial := some (y.inSec c.pilotLimit), ignition := some (y.inSec c.ignitionTime) } := rfl

section
variable {d : Station} {c : BurnerCfg} {p g : Fin 16} (pilot : d.findOut .valve .pilotValve 0 = some p)
include pilot

theorem enterPilot_valveHeld (forced : (d.dou.lines[p]'p.isLt).forced = true) : Tripped .estop d.pilotEntered (d.enterPilot c) := by
  have found : d.pilotEntered.told.findOut .valve .pilotValve 0 = some p := (told_findOut _ _ _).trans pilot
  have held : (d.pilotEntered.told.dou.lines[p]'p.isLt).forced = true := by
    rw [(told_same d.pilotEntered).1]
    exact forced
  rw [enterPilot_eq, valveOn_forced found held]
  exact ((FiresAlike.refl d.pilotEntered).stageBurner.post _).trip rfl

variable (igniter : d.findOut .igniter .igniter 0 = some g) (free : (d.dou.lines[p]'p.isLt).forced = false)
include igniter free

/-- The station with PILOT TRIAL told of and the pilot valve ON (R97). -/
def Station.pilotOpened (p : Fin 16) (d : Station) : Station :=
  d.pilotEntered.told.onOut p fun l => { l with on := true, pin := true }

theorem pilotOpened_line (i : Fin 16) (ne : i ≠ p) : (d.pilotOpened p).dou.lines[i]'i.isLt = d.dou.lines[i]'i.isLt := by
  refine (vecModify_ne _ _ _ _ _ fun e => ne (Fin.ext e.symm)).trans ?_
  rw [(told_same d.pilotEntered).1]
  rfl

theorem pilotOpened_igniter : (d.pilotOpened p).findOut .igniter .igniter 0 = some g := by
  refine (findOut_congr (fun i => ?_) _ _ _).trans igniter
  by_cases e : i = p
  · subst e
    refine (congrArg OutLine.cfg (vecModify_same _ _ _)).trans ?_
    rw [(told_same d.pilotEntered).1]
    rfl
  · rw [pilotOpened_line pilot igniter free i e]

theorem enterPilot_opened : d.enterPilot c =
    match (d.pilotOpened p).igniterStart with
    | (y, .heldOff) => y.trip .estop
    | (y, _) => y.onBsq fun b =>
        { b.arm with pilotTrial := some (y.inSec c.pilotLimit), ignition := some (y.inSec c.ignitionTime) } := by
  have found : d.pilotEntered.told.findOut .valve .pilotValve 0 = some p := (told_findOut _ _ _).trans pilot
  have unheld : (d.pilotEntered.told.dou.lines[p]'p.isLt).forced = false := by
    rw [(told_same d.pilotEntered).1]
    exact free
  rw [enterPilot_eq, valveOn_free found unheld]
  rfl

theorem enterPilot_igniterHeld (forced : (d.dou.lines[g]'g.isLt).forced = true) : Tripped .estop d.pilotEntered (d.enterPilot c) := by
  have found : d.pilotEntered.told.findOut .valve .pilotValve 0 = some p := (told_findOut _ _ _).trans pilot
  have held : ((d.pilotOpened p).dou.lines[g]'g.isLt).forced = true := by
    rw [pilotOpened_line pilot igniter free g (valve_not_igniter igniter pilot)]
    exact forced
  rw [enterPilot_opened pilot igniter free, igniterStart_forced (pilotOpened_igniter pilot igniter free) held]
  exact (((FiresAlike.refl d.pilotEntered).stageBurner.post _).valveOpened (.inr rfl) found).trip rfl

end

/-! ## MAIN TRIAL -/

/-- The burner's record with its trial of the pilot over and MAIN TRIAL recorded (R97). -/
def Bsq.mainEntered (demand : Nat) (b : Bsq) : Bsq :=
  { b with pilotTrial := none, ignition := none, state := .mainTrial, demand := demand }

/-- The station with the spark cut and MAIN TRIAL recorded, before the main fuel is commanded (R97). -/
def Station.mainReady (c : BurnerCfg) (d : Station) : Station := (d.igniterCut.onBsq (Bsq.mainEntered c.lightOff)).told

theorem enterMain_eq (c : BurnerCfg) (d : Station) : d.enterMain c =
    match (d.mainReady c).valveOn .mainFuelRelease with
    | (x, .heldOff) => x.trip .estop
    | (x, _) => x.onBsq fun b => { b with mainTrial := some (x.inSec c.mainLimit) } := by
  unfold Station.enterMain
  dsimp only
  rw [igniterCut_onBsq]
  rfl

theorem mainReady_line (c : BurnerCfg) (d : Station) (i : Fin 16) : (d.mainReady c).dou.lines[i]'i.isLt =
    if d.findOut .igniter .igniter 0 = some i ∧ (d.dou.lines[i]'i.isLt).burst ≠ .idle then (d.dou.lines[i]'i.isLt).goIdle else (d.dou.lines[i]'i.isLt) := by
  unfold Station.mainReady
  rw [(told_same _).1]
  exact igniterCut_lines d i

theorem mainReady_findOut (c : BurnerCfg) (d : Station) (k : OutKind) (fn : OutFn) :
    (d.mainReady c).findOut k fn 0 = d.findOut k fn 0 := by
  refine findOut_congr (fun i => ?_) k fn 0
  rw [mainReady_line]
  split <;> rfl

theorem mainReady_other {d : Station} {c : BurnerCfg} {i : Fin 16} (ne : d.findOut .igniter .igniter 0 ≠ some i) :
    (d.mainReady c).dou.lines[i]'i.isLt = d.dou.lines[i]'i.isLt := by
  rw [mainReady_line, if_neg fun x => ne x.1]

section
variable {d : Station} {c : BurnerCfg} {m : Fin 16} (main : d.findOut .valve .mainFuelRelease 0 = some m)
include main

theorem mainReady_main : (d.mainReady c).dou.lines[m]'m.isLt = d.dou.lines[m]'m.isLt :=
  mainReady_other fun e => valve_not_igniter e main rfl

theorem enterMain_held {a : Station} (alike : FiresAlike a (d.onBsq fun b => { b with state := .mainTrial, demand := c.lightOff }))
    (forced : (d.dou.lines[m]'m.isLt).forced = true) : Tripped .estop a (d.enterMain c) := by
  have found : (d.mainReady c).findOut .valve .mainFuelRelease 0 = some m := (mainReady_findOut ..).trans main
  have held : ((d.mainReady c).dou.lines[m]'m.isLt).forced = true := by rw [mainReady_main main]; exact forced
  have cut := alike.igniterCut.onBsq fun b => { b with pilotTrial := none, ignition := none }
  rw [igniterCut_onBsq] at cut
  rw [enterMain_eq, valveOn_forced found held]
  exact (cut.stageBurner.post .burnerState).trip (cause := .estop) rfl

end

end Sys2Proof.Machine

open Sys2Proof Sys2Proof.Machine in
/-- Settles O27: each expiry, line change and held-off command is a trip with its cause. -/
theorem tripsOfTimersLinesAndHeldOffCommandsLockTheBurnerOut :
    Obligations.TripsOfTimersLinesAndHeldOffCommandsLockTheBurnerOut := by
  refine ⟨firstOutNamed, handFirstOut_flagged, fun s c e cfg => ?_⟩
  intro b trips
  have tripped {cmd : Instr} {f : Station → Station} {cause : CauseKind} (name : ∀ s, exec cmd s = act cmd f s)
      (does : f (s.dev.take cmd) = (s.dev.take cmd).trip cause) : trips cmd cause :=
    .of_act name (does.symm ▸ trip_spec cause (s.dev.take cmd))
  have lost {cause : CauseKind} (runs : b.monitor.failTimer = some e) (trip : Tripped cause _ (Station.flameLost _)) :
      trips .flameFailTimerExpiry cause :=
    .of_act exec_flameFailTimer ((expires_runs (timer := fun b => b.monitor.failTimer)
      (d := s.dev.take .flameFailTimerExpiry) runs Station.flameLost).symm ▸ trip)
  refine ⟨fun runs firing => lost runs (flameLost_firing firing), fun runs trial => lost runs (flameLost_mainTrial trial),
    fun runs => .of_expiry exec_pilotTrialLimit runs, fun runs => .of_expiry exec_mainTrialLimit runs,
    fun runs => .of_expiry exec_coolerLossTimer runs, fun firing => tripped exec_loopGrace (if_pos firing),
    fun out => exec_eq exec_loopGrace (if_neg out), fun h => tripped (exec_airFlowChange false) (airChanged_lost cfg h),
    fun h => tripped (exec_estopChange true) (estopChanged_burning h),
    fun h => exec_eq (exec_estopChange true) (estopChanged_out (d := s.dev.take _) h),
    exec_eq (exec_estopChange false) estopChanged_back, ?_, ?_⟩
  · intro p g purging runs pilot igniter forced
    let d := s.dev.take .bsqPurgeTimerExpiry
    have entered : d.purgeEnded = d.enterPilot c := purgeEnded_enters cfg purging runs
    have trip : Tripped .estop d.pilotEntered (d.enterPilot c) := by
      rcases hp : (s.dev.dou.lines[p]'p.isLt).forced with _ | _
      · exact enterPilot_igniterHeld (d := d) pilot igniter hp (forced.resolve_left fun x => Bool.false_ne_true (hp.symm.trans x))
      · exact enterPilot_valveHeld (d := d) pilot hp
    exact .of_act exec_purgeTimer (entered.symm ▸ trip)
  · intro m i period width tb main forced on trial proving enough least most scanners
    let cmd : Instr := .bsqScannerCapture i period width tb
    let us := period * tbMicros tb
    let d := s.dev.take cmd
    let z := (d.bsq.monitor.scanners[i]'i.isLt).seen c us
    have armed : d.bsq.monitor.status ≠ .none := fun x => by
      have := proving.symm.trans x
      cases this
    have entered : d.captured i us = (d.withMonitor (d.provenMonitor c i z)).enterMain c :=
      (captured_fit (d := d) cfg on armed ⟨least, most⟩).trans
        ((goodSeen_proves (d := d) z proving enough).trans (if_pos trial))
    have same : d.scannersWith i z.counted = scanners := vecModify_of_eq _ _ _ _ (congrArg Scanner.counted
      (seen_fit (c := c) (us := us) ⟨least, most⟩ (d.bsq.monitor.scanners[i]'i.isLt)))
    let w : Monitor := { b.monitor with
      scanners := scanners, proving := d.bestOf scanners, status := .proven
      failTimer := some (d.now + c.failResponse * 1000000) }
    have proven : d.provenMonitor c i z = w :=
      congrArg (fun v => ({ b.monitor with
        scanners := v, proving := d.bestOf v, status := .proven
        failTimer := some (d.now + c.failResponse * 1000000) } : Monitor)) same
    have alike := (FiresAlike.refl { d with bsq := { b with
      state := .mainTrial, demand := c.lightOff, monitor := { b.monitor with scanners := scanners } } }).onBsq fun b =>
        { b with monitor := { w with scanners := b.monitor.scanners } }
    rw [proven] at entered
    exact .of_act (exec_scannerCapture i period width tb)
      (entered.symm ▸ enterMain_held (d := d.withMonitor w) (c := c) main alike forced)
end

section
/-! SUPPORT. The light-off: the pilot trial, the spark, MAIN TRIAL and the end of POST-PURGE (R95, R97, R106). -/

set_option Elab.async false

namespace Sys2Proof.Machine

theorem wire32_small {n : Nat} (h : n < 2 ^ 32) : wire32 n = BitVec.ofNat 32 n := if_pos (by
  rw [top32]
  omega)

/-- The station with its state told of, for a station with a burner (R87). -/
theorem told_eq {c : BurnerCfg} {d : Station} (cfg : d.cfg.burner = some c) : d.told = { d with
    lpc := d.lpc.burnerStaged c d.bsq.state (wire32 d.bsq.demand)
    ppt := { d.ppt with events := d.ppt.events ||| 8 } } := by
  unfold Station.told Station.stageBurner
  rw [cfg]
  rfl

/-! ## PILOT TRIAL -/

/-- An igniter line at the start of its burst (R82). -/
def OutLine.bursts (k : OutCfg) (now : Nat) (l : OutLine) : OutLine :=
  { l with
    burst := .bursting, inPulse := true, pin := true, pulseEnd := some (now + k.pulseWidth * 100)
    spacingEnd := some (now + k.spacing * 1000) }

theorem startPulse_bursts {k : OutCfg} {l : OutLine} (cfg : l.cfg = some k) (now : Nat) :
    { l.startPulse now with burst := .bursting } = l.bursts k now := by
  unfold OutLine.startPulse OutLine.bursts
  rw [cfg]
  rfl

section
variable {d : Station} {c : BurnerCfg} {p g : Fin 16} {lg : OutCfg} (pilot : d.findOut .valve .pilotValve 0 = some p)
  (igniter : d.findOut .igniter .igniter 0 = some g) (openable : (d.dou.lines[p]'p.isLt).forced = false)
include pilot igniter openable

theorem enterPilot_lit (cfg : d.cfg.burner = some c) (hg : (d.dou.lines[g]'g.isLt).cfg = some lg) (free : (d.dou.lines[g]'g.isLt).forced = false)
    (idle : (d.dou.lines[g]'g.isLt).burst = .idle) : d.enterPilot c = { d with
      bsq := { d.bsq with
        state := .pilotTrial, demand := 0, purge := none, pilotTrial := some (d.now + c.pilotLimit * 1000000)
        ignition := some (d.now + c.ignitionTime * 1000000)
        monitor := d.bsq.monitor.clear .proving }
      dou := { d.dou with
        lines := vecModify (vecModify d.dou.lines p fun l => { l with on := true, pin := true }) g (OutLine.bursts lg d.now) }
      lpc := d.lpc.burnerStaged c .pilotTrial 0
      ppt := { d.ppt with events := d.ppt.events ||| 8 } } := by
  have line := pilotOpened_line pilot igniter openable g (valve_not_igniter igniter pilot)
  have start := igniterStart_idle (pilotOpened_igniter pilot igniter openable) (line ▸ free) (line ▸ idle)
  have lit : vecModify (d.pilotOpened p).dou.lines g (fun l => { l.startPulse (d.pilotOpened p).now with burst := .bursting }) =
      vecModify (d.pilotOpened p).dou.lines g (OutLine.bursts lg d.now) := by
    have now : (d.pilotOpened p).now = d.now := (told_same d.pilotEntered).2.2.2
    rw [now]
    refine vecModify_of_eq _ _ _ _ (startPulse_bursts ?_ _)
    rw [line]
    exact hg
  have opened : d.pilotOpened p = { d.pilotEntered with
      dou := { d.dou with lines := vecModify d.dou.lines p fun l => { l with on := true, pin := true } }
      lpc := d.lpc.burnerStaged c .pilotTrial 0
      ppt := { d.ppt with events := d.ppt.events ||| 8 } } := by
    unfold Station.pilotOpened
    rw [told_eq (d := d.pilotEntered) cfg]
    rfl
  have after : (d.pilotOpened p).onOut g (fun l => { l.startPulse (d.pilotOpened p).now with burst := .bursting }) =
      { d.pilotOpened p with dou := { (d.pilotOpened p).dou with
        lines := vecModify (d.pilotOpened p).dou.lines g (OutLine.bursts lg d.now) } } :=
    congrArg (fun v => ({ d.pilotOpened p with dou := { (d.pilotOpened p).dou with lines := v } } : Station)) lit
  rw [enterPilot_opened pilot igniter openable, start, after, opened]
  rfl

end

/-! ## MAIN TRIAL -/

section
variable {d : Station} {c : BurnerCfg} {m : Fin 16} (main : d.findOut .valve .mainFuelRelease 0 = some m)
  (free : (d.dou.lines[m]'m.isLt).forced = false)
include main free

theorem enterMain_free : d.enterMain c =
    ((d.mainReady c).onOut m fun l => { l with on := true, pin := true }).onBsq fun b =>
      { b with mainTrial := some ((d.mainReady c).now + c.mainLimit * 1000000) } := by
  have found : (d.mainReady c).findOut .valve .mainFuelRelease 0 = some m := (mainReady_findOut ..).trans main
  have unheld : ((d.mainReady c).dou.lines[m]'m.isLt).forced = false := by rw [mainReady_main main]; exact free
  rw [enterMain_eq, valveOn_free found unheld]
  rfl

theorem enterMain_mainLine : (d.enterMain c).dou.lines[m]'m.isLt = { d.dou.lines[m]'m.isLt with on := true, pin := true } := by
  rw [enterMain_free main free, ← mainReady_main (c := c) main]
  exact vecModify_same _ _ _

theorem enterMain_line {i : Fin 16} (ne : i ≠ m) : (d.enterMain c).dou.lines[i]'i.isLt = (d.mainReady c).dou.lines[i]'i.isLt := by
  rw [enterMain_free main free]
  exact vecModify_ne _ _ _ _ _ fun e => ne (Fin.ext e.symm)

theorem enterMain_rest (cfg : d.cfg.burner = some c) : d.enterMain c = { d with
    dou := (d.enterMain c).dou
    bsq := { d.bsq with
      pilotTrial := none, ignition := none, state := .mainTrial, demand := c.lightOff
      mainTrial := some (d.now + c.mainLimit * 1000000) }
    lpc := d.lpc.burnerStaged c .mainTrial (wire32 c.lightOff)
    ppt := { d.ppt with events := d.ppt.events ||| 8 } } := by
  rw [enterMain_free main free]
  unfold Station.mainReady
  rw [igniterCut_rest d, told_eq (d := ({ d with dou := d.igniterCut.dou } : Station).onBsq _) cfg]
  rfl

end

/-! ## The ends of the spark and of POST-PURGE -/

/-- What the end of the spark does (R97). -/
def Station.sparkEnded (d : Station) : Station := (d.onBsq fun b => { b with ignition := none }).igniterEnd

/-- What the end of POST-PURGE does (R106). -/
def Station.postPurgeEnded (d : Station) : Station := (d.onBsq fun b => { b with postPurge := none }).recordState .off 0

theorem exec_ignitionTimer (s : State) : exec .bsqIgnitionTimerExpiry s =
    act .bsqIgnitionTimerExpiry (Station.expires Bsq.ignition Station.sparkEnded) s := rfl

theorem exec_postPurgeTimer (s : State) : exec .postPurgeTimerExpiry s =
    act .postPurgeTimerExpiry (Station.expires Bsq.postPurge Station.postPurgeEnded) s := rfl

theorem sparkEnded_bursting {d : Station} {g : Fin 16} (igniter : d.findOut .igniter .igniter 0 = some g)
    (bursts : (d.dou.lines[g]'g.isLt).burst = .bursting) : d.sparkEnded = (d.onBsq fun b => { b with ignition := none }).onOut g fun l =>
      if l.inPulse then { l with burst := .ending, spacingEnd := none } else l.goIdle :=
  igniterEnd_bursting (d := d.onBsq fun b => { b with ignition := none }) igniter bursts

theorem Runs.of_exec {cmd : Instr} {f : Station → Station} (name : ∀ s, exec cmd s = act cmd f s) {s : State}
    {P : Station → Prop} {e : Station} (does : f (s.dev.take cmd) = e) (p : P e) : Runs cmd s P :=
  .of_act name (does.symm ▸ p)

end Sys2Proof.Machine

open Sys2Proof Sys2Proof.Machine in
/-- Settles O29: the purge and its interruptions, the lighting of the pilot, the proof of the flame, and the end of POST-PURGE. -/
theorem lightOffGoesFromPurgeToMainTrial : Obligations.LightOffGoesFromPurgeToMainTrial := by
  intro s c p m g lp lm lg e cfg pilot _ freeP main _ freeM igniter hg freeG now b part posted air noAir
  have gone (purging : b.state = .purge) (runs : b.purge = some e) := airChanged_gone (d := s.dev.take noAir) cfg purging runs
  refine ⟨fun purging => exec_eq (exec_airFlowChange true) (airChanged_back (d := s.dev.take air) cfg purging),
    fun purging runs few => exec_eq (exec_airFlowChange false) ((gone purging runs).trans (if_neg (Nat.not_le.2 (Nat.succ_lt_succ few)))),
    fun purging runs many => .of_exec (exec_airFlowChange false) ((gone purging runs).trans (if_pos (Nat.succ_le_succ many)))
      (trip_spec .purgeAirLost _), ?_, ?_, ?_, ?_⟩
  · intro purging runs idle
    let d := s.dev.take .bsqPurgeTimerExpiry
    have entered : d.purgeEnded = d.enterPilot c := purgeEnded_enters cfg purging runs
    exact exec_eq exec_purgeTimer (entered.trans (enterPilot_lit (d := d) pilot igniter freeP cfg hg freeG idle))
  · intro runs bursts
    exact exec_eq exec_ignitionTimer ((expires_runs (d := s.dev.take .bsqIgnitionTimerExpiry) runs Station.sparkEnded).trans
      (sparkEnded_bursting (d := s.dev.take .bsqIgnitionTimerExpiry) igniter bursts))
  · intro i period width tb on trial proving enough small least most
    let cmd : Instr := .bsqScannerCapture i period width tb
    let d := s.dev.take cmd
    let us := period * tbMicros tb
    let z := (d.bsq.monitor.scanners[i]'i.isLt).seen c us
    let w := d.provenMonitor c i z
    let x := d.withMonitor w
    have armed : d.bsq.monitor.status ≠ .none := fun x => by
      have := proving.symm.trans x
      cases this
    have entered : d.captured i us = x.enterMain c :=
      (captured_fit (d := d) cfg on armed ⟨least, most⟩).trans
        ((goodSeen_proves (d := d) z proving enough).trans (if_pos trial))
    have rest : x.enterMain c = _ := enterMain_rest (d := x) main freeM cfg
    have mainLine : (x.enterMain c).dou.lines[m]'m.isLt = _ := enterMain_mainLine (d := x) main freeM
    have pilotLine : (x.enterMain c).dou.lines[p]'p.isLt = x.dou.lines[p]'p.isLt :=
      (enterMain_line (d := x) main freeM (valves_apart (by decide) pilot main)).trans
        (mainReady_other fun e => valve_not_igniter e pilot rfl)
    have igniterLine : (x.enterMain c).dou.lines[g]'g.isLt = (x.mainReady c).dou.lines[g]'g.isLt :=
      enterMain_line (d := x) main freeM (valve_not_igniter igniter main)
    have bsq := congrArg Station.bsq rest
    have lpc := congrArg Station.lpc rest
    have ppt := congrArg Station.ppt rest
    refine .of_exec (exec_scannerCapture i period width tb) entered ?_
    generalize x.enterMain c = y at *
    rw [wire32_small small] at lpc
    refine ⟨congrArg Bsq.state bsq, congrArg Bsq.demand bsq, congrArg Bsq.pilotTrial bsq, congrArg Bsq.ignition bsq,
      congrArg Bsq.mainTrial bsq, congrArg (fun b => b.monitor.status) bsq, congrArg (fun b => b.monitor.failTimer) bsq,
      mainLine, pilotLine, fun bursts => ?_, lpc, ppt⟩
    rw [igniterLine, mainReady_line]
    exact if_pos ⟨igniter, bursts⟩
  · intro runs
    exact exec_eq exec_postPurgeTimer ((expires_runs (d := s.dev.take .postPurgeTimerExpiry) runs Station.postPurgeEnded).trans
      (recordState_eq (d := (s.dev.take .postPurgeTimerExpiry).onBsq fun b => { b with postPurge := none }) cfg .off 0))
end

section
/-! SUPPORT. What a refresh of the floor does to the burner (R93, R96, R98 to R100, R102, R104, R105). -/

set_option Elab.async false

namespace Sys2Proof.Machine

/-- What a refresh of the floor does (R93). -/
def Station.burnerFloorTaken (d : Station) : Station :=
  match d.cfg.burner with
  | none => d
  | some c => if d.lpc.state = .up then d.burnerRefresh c else d

theorem exec_burnerFloor (s : State) : exec .bsqFloorRefresh s = act .bsqFloorRefresh Station.burnerFloorTaken s := rfl

/-! ## What is read of the floor -/

theorem BurnerOnly.inView {a b : Station} (h : BurnerOnly a b) : b.inView = a.inView := by
  have lpc := h.rest.lpc
  have live : b.lpc.live = a.lpc.live := (congrArg Lpc.live lpc :)
  have floor : b.lpc.floor = a.lpc.floor := (congrArg Lpc.floor lpc :)
  have own : b.own = a.own := by
    unfold Station.own
    rw [show b.cfg = a.cfg from h.rest.cfg]
  unfold Station.inView
  rw [live, floor, own]

theorem BurnerOnly.deliveredHeat {a b : Station} (h : BurnerOnly a b) (x : BurnerLetter) :
    b.deliveredHeat x = a.deliveredHeat x := by
  unfold Station.deliveredHeat Station.feedInView
  rw [h.inView]

theorem BurnerOnly.coolerRunning {a b : Station} (h : BurnerOnly a b) : b.coolerRunning = a.coolerRunning := by
  unfold Station.coolerRunning
  rw [h.inView]

theorem BurnerOnly.now {a b : Station} (h : BurnerOnly a b) : b.now = a.now := (h.rest.now :)

/-! ## Permissives and trips at a refresh -/

theorem purgeStop_eq (c : BurnerCfg) (d : Station) : d.purgeStop c =
    if (∃ e ∈ d.inView, e.2.tripRequest = true) then some .tripRequest
    else if (∀ e ∈ d.feedInView c.letter, e.2.state ≠ .ready ∧ e.2.state ≠ .running) then some .noFeed
    else if c.coolerRequired = true ∧ d.coolerRunning = false then some .noCooler
    else if c.letter = .b ∧ d.aFiring = false then some .mainBurner
    else none := by
  simp only [Station.purgeStop, trip_in_view, none_available, cooler_missing, a_missing]

section
variable {c : BurnerCfg} {d : Station}

theorem refreshTrip_asked (asked : ∃ e ∈ d.inView, e.2.tripRequest = true) : d.refreshTrip c = some .tripRequest :=
  if_pos ((trip_in_view d).2 asked)

variable (quiet : ¬ ∃ e ∈ d.inView, e.2.tripRequest = true)
include quiet

theorem refreshTrip_alone (alone : c.letter = .b ∧ d.alight .a = false) : d.refreshTrip c = some .mainBurnerLost :=
  (if_neg (mt (trip_in_view d).1 quiet)).trans (if_pos ((a_missing c _).2 alone))

theorem refreshTrip_none (lit : ¬ (c.letter = .b ∧ d.alight .a = false)) : d.refreshTrip c = none :=
  (if_neg (mt (trip_in_view d).1 quiet)).trans (if_neg (mt (a_missing c _).1 lit))

end

/-! ## Entry to FIRING -/

theorem valveOff_rest (fn : OutFn) (d : Station) : d.valveOff fn = { d with dou := (d.valveOff fn).dou } := by
  unfold Station.valveOff
  split
  · unfold Station.lineOff
    dsimp only
    split <;> rfl
  · rfl

theorem enterFiring_spec {c : BurnerCfg} {d : Station} :
    (d.enterFiring c).bsq = { d.bsq with
      state := .firing, demand := c.lightOff, mainTrial := none, rampValue := c.lightOff, rampMoment := d.now
      firingSecond := some (d.now + 1000000) } ∧
    (d.enterFiring c).signals = d.signals ++ [.sruContribution .burnerStart] ∧
    (d.enterFiring c).ppt.events = d.ppt.events ||| 8 ∧
    ∀ i : Fin 16, (d.enterFiring c).dou.lines[i]'i.isLt = if d.findOut .valve .pilotValve 0 = some i then
      { d.dou.lines[i]'i.isLt with on := false, pin := false } else (d.dou.lines[i]'i.isLt) := by
  have lines := valveOff_lines .pilotValve (d.onBsq fun b => { b with mainTrial := none })
  have whole : d.enterFiring c = ((((d.onBsq fun b => { b with mainTrial := none }).valveOff .pilotValve).recordState
      .firing c.lightOff).onBsq fun b =>
        { b with rampValue := c.lightOff, rampMoment := d.now, firingSecond := some (d.now + 1000000) }).contribute
          .burnerStart := by
    unfold Station.enterFiring Station.inSec
    dsimp only
    rw [recordState_spec, valveOff_rest]
    rfl
  rw [whole, recordState_spec]
  refine ⟨?_, ?_, ?_, fun i => Eq.trans rfl (lines i)⟩ <;> rw [valveOff_rest] <;> rfl

/-! ## The refresh by state -/

section
variable {c : BurnerCfg} {d : Station}

/-- The station with burner A's station noted (R102). -/
def Station.noted (d : Station) : Station := { d with bsq := { d.bsq with mainStation := d.mainNoted } }

theorem burnerRefresh_eq : d.burnerRefresh c =
    match d.bsq.state with
    | .purge =>
      match d.noted.purgeStop c with
      | some r => d.noted.stopPurge r
      | none => d.noted
    | .pilotTrial =>
      match d.noted.refreshTrip c with
      | some k => d.noted.trip k
      | none => d.noted
    | .mainTrial =>
      match d.noted.refreshTrip c with
      | some k => d.noted.trip k
      | none =>
        if d.bsq.monitor.status = .proven && d.deliveredHeat c.letter > 0 then d.noted.enterFiring c else d.noted
    | .firing =>
      match d.noted.refreshTrip c with
      | some k => d.noted.trip k
      | none => ((d.noted.rampNow c).checkShortfall c).checkCooler c
    | _ => d.noted := by
  unfold Station.burnerRefresh
  rw [noteMain_eq]
  rfl

theorem burnerRefresh_purge (purging : d.bsq.state = .purge) : d.burnerRefresh c =
    match d.noted.purgeStop c with
    | some r => d.noted.stopPurge r
    | none => d.noted := by
  rw [burnerRefresh_eq, purging]

theorem burnerRefresh_trips (burning : d.bsq.state = .pilotTrial ∨ d.bsq.state = .mainTrial ∨ d.bsq.state = .firing)
    {k : CauseKind} (trips : d.noted.refreshTrip c = some k) : d.burnerRefresh c = d.noted.trip k := by
  rw [burnerRefresh_eq]
  rcases burning with h | h | h <;> rw [h] <;> dsimp only <;> rw [trips]

theorem burnerRefresh_out (out : d.bsq.state = .off ∨ d.bsq.state = .postPurge ∨ d.bsq.state = .lockout) :
    d.burnerRefresh c = d.noted := by
  rw [burnerRefresh_eq]
  rcases out with h | h | h <;> rw [h]

section
variable (stands : d.noted.refreshTrip c = none)
include stands

theorem burnerRefresh_pilot (trial : d.bsq.state = .pilotTrial) : d.burnerRefresh c = d.noted := by
  rw [burnerRefresh_eq, trial]
  dsimp only
  rw [stands]

theorem burnerRefresh_main (trial : d.bsq.state = .mainTrial) : d.burnerRefresh c =
    if d.bsq.monitor.status = .proven ∧ 0 < d.deliveredHeat c.letter then d.noted.enterFiring c else d.noted := by
  rw [burnerRefresh_eq, trial]
  dsimp only
  rw [stands]
  simp only [Bool.and_eq_true, decide_eq_true_eq]

theorem burnerRefresh_firing (firing : d.bsq.state = .firing) : d.burnerRefresh c =
    ((d.noted.rampNow c).checkShortfall c).checkCooler c := by
  rw [burnerRefresh_eq, firing]
  dsimp only
  rw [stands]

end

end

/-! ## The ramp and the supervision in FIRING -/

/-- The ramp at a refresh (R99): its demand, and the rest as it stood. -/
structure Ramped (c : BurnerCfg) (a b : Station) : Prop where
  bsq : b.bsq = { a.bsq with demand := a.bsq.rampDemand c a.now }
  alm : b.alm = a.alm
  near : FiresNear a b

theorem FiresNear.refl (d : Station) : FiresNear d d := (FiresAlike.refl d).toFiresNear

theorem rampNow_ramped (c : BurnerCfg) (d : Station) : Ramped c d (d.rampNow c) := by
  unfold Station.rampNow
  by_cases same : d.bsq.rampDemand c d.now = d.bsq.demand
  · rw [if_pos same]
    exact ⟨by rw [same], rfl, .refl d⟩
  · rw [if_neg same]
    have near := ((FiresNear.refl d).onBsq fun b => { b with demand := b.rampDemand c d.now }).stageBurner
    refine ⟨?_, ?_, near⟩ <;> rw [stageBurner_rest] <;> rfl

/-- The heat is short of the demand (R104). -/
def Station.heatShort (c : BurnerCfg) (d : Station) : Prop :=
  d.deliveredHeat c.letter < d.bsq.demand * (100 - c.tolerance) / 100

/-- The supervision of the heat (R104). -/
structure HeatChecked (c : BurnerCfg) (a b : Station) : Prop where
  bsq : b.bsq = { a.bsq with shortfall := b.bsq.shortfall }
  short : a.heatShort c → b.bsq.shortfall = some (a.bsq.shortfall.getD (a.now + c.shortfallDelay * 1000000)) ∧ b.alm = a.alm
  enough : ¬ a.heatShort c → b.bsq.shortfall = none ∧ b.condition .heatShortfall 0 = false
  near : FiresNear a b

theorem checkShortfall_checked (c : BurnerCfg) (d : Station) : HeatChecked c d (d.checkShortfall c) := by
  unfold Station.checkShortfall
  by_cases short : d.deliveredHeat c.letter < d.bsq.demand * (100 - c.tolerance) / 100
  · rw [if_pos short]
    by_cases first : d.bsq.shortfall.isNone = true
    · rw [if_pos first]
      refine ⟨rfl, fun _ => ⟨?_, rfl⟩, fun h => absurd short h, (FiresNear.refl d).onBsq _⟩
      rw [Option.isNone_iff_eq_none.1 first, Option.getD_none]
      rfl
    · rw [if_neg first]
      refine ⟨rfl, fun _ => ⟨?_, rfl⟩, fun h => absurd short h, .refl d⟩
      obtain ⟨e, runs⟩ := Option.ne_none_iff_exists'.1 (mt Option.isNone_iff_eq_none.2 first)
      rw [runs, Option.getD_some]
  · rw [if_neg short]
    refine ⟨?_, fun h => absurd h short, fun _ => ⟨?_, report_condition ..⟩, ((FiresNear.refl d).onBsq _).report ..⟩
    · rw [(report_only ..).bsq]
      rfl
    · rw [(report_only ..).bsq]
      rfl

/-- The cooler's loss is a trip at this refresh (R105). -/
def Station.lossAtOnce (c : BurnerCfg) (d : Station) : Prop :=
  c.coolerRequired = true ∧ d.coolerRunning = false ∧ d.bsq.coolerLoss = none ∧ c.coolerLossTime = 0

/-- The supervision of the cooler, without a trip (R105). -/
structure CoolerChecked (c : BurnerCfg) (a b : Station) : Prop where
  bsq : b.bsq = { a.bsq with coolerLoss := b.bsq.coolerLoss }
  heat : b.condition .heatShortfall 0 = a.condition .heatShortfall 0
  unneeded : c.coolerRequired = false → b.bsq.coolerLoss = a.bsq.coolerLoss
  running : c.coolerRequired = true → a.coolerRunning = true →
    b.bsq.coolerLoss = none ∧ b.condition .coolerLoss 0 = a.bsq.holds.coolerLoss.isSome
  runs : c.coolerRequired = true → a.coolerRunning = false → ∀ e, a.bsq.coolerLoss = some e → b.bsq.coolerLoss = some e
  starts : c.coolerRequired = true → a.coolerRunning = false → a.bsq.coolerLoss = none →
    b.bsq.coolerLoss = some (a.now + c.coolerLossTime * 1000000) ∧ b.condition .coolerLoss 0 = true

/-- The station with a cooler loss timer told of (R105). -/
def Station.coolerTold (timer : Option Nat) (d : Station) : Station := (d.onBsq fun b => { b with coolerLoss := timer }).reportCooler

theorem coolerTold_bsq (timer : Option Nat) (d : Station) : (d.coolerTold timer).bsq = { d.bsq with coolerLoss := timer } :=
  (report_only ..).bsq

theorem coolerTold_condition (timer : Option Nat) (d : Station) :
    (d.coolerTold timer).condition .coolerLoss 0 = (timer.isSome || d.bsq.holds.coolerLoss.isSome) := report_condition ..

theorem coolerTold_heat (timer : Option Nat) (d : Station) :
    (d.coolerTold timer).condition .heatShortfall 0 = d.condition .heatShortfall 0 :=
  (report_other _ _ _ _ _ _ (fun x => absurd x.1 (by decide))).trans rfl

theorem checkCooler_eq (c : BurnerCfg) (d : Station) : d.checkCooler c =
    if c.coolerRequired = false then d
    else if d.coolerRunning = true then d.coolerTold none
    else if d.bsq.coolerLoss.isSome then d
    else
      let e := d.coolerTold (some (d.now + c.coolerLossTime * 1000000))
      if c.coolerLossTime = 0 then e.trip .coolerLoss else e := by
  unfold Station.checkCooler
  cases c.coolerRequired <;> rfl

section
variable {c : BurnerCfg} {d : Station}

theorem checkCooler_unneeded (bare : c.coolerRequired = false) : d.checkCooler c = d := (checkCooler_eq c d).trans (if_pos bare)

variable (needed : c.coolerRequired = true)
include needed

theorem checkCooler_running (running : d.coolerRunning = true) : d.checkCooler c = d.coolerTold none :=
  (checkCooler_eq c d).trans ((if_neg (by rw [needed]; nofun)).trans (if_pos running))

variable (gone : d.coolerRunning = false)
include gone

theorem checkCooler_runs {e : Nat} (runs : d.bsq.coolerLoss = some e) : d.checkCooler c = d :=
  (checkCooler_eq c d).trans ((if_neg (by rw [needed]; nofun)).trans
    ((if_neg (by rw [gone]; nofun)).trans (if_pos (by rw [runs]; rfl))))

theorem checkCooler_starts (first : d.bsq.coolerLoss = none) : d.checkCooler c =
    let e := d.coolerTold (some (d.now + c.coolerLossTime * 1000000))
    if c.coolerLossTime = 0 then e.trip .coolerLoss else e :=
  (checkCooler_eq c d).trans ((if_neg (by rw [needed]; nofun)).trans
    ((if_neg (by rw [gone]; nofun)).trans (if_neg (by rw [first]; nofun))))

end

theorem checkCooler_checked {c : BurnerCfg} {d : Station} (wait : ¬ d.lossAtOnce c) : CoolerChecked c d (d.checkCooler c) := by
  rcases Bool.eq_false_or_eq_true c.coolerRequired with needed | bare
  · rcases Bool.eq_false_or_eq_true d.coolerRunning with running | gone
    · rw [checkCooler_running needed running]
      have bsq := coolerTold_bsq none d
      exact ⟨by rw [bsq], coolerTold_heat none d, fun h => (nomatch needed.symm.trans h),
        fun _ _ => ⟨congrArg Bsq.coolerLoss bsq, coolerTold_condition none d⟩, fun _ h => (nomatch running.symm.trans h),
        fun _ h => (nomatch running.symm.trans h)⟩
    · rcases Option.eq_none_or_eq_some d.bsq.coolerLoss with first | ⟨e, runs⟩
      · have bsq := coolerTold_bsq (some (d.now + c.coolerLossTime * 1000000)) d
        have later : ¬ c.coolerLossTime = 0 := fun h => wait ⟨needed, gone, first, h⟩
        rw [checkCooler_starts needed gone first]
        dsimp only
        rw [if_neg later]
        exact ⟨by rw [bsq], coolerTold_heat _ d, fun h => (nomatch needed.symm.trans h), fun _ h => (nomatch gone.symm.trans h),
          fun _ _ e h => (nomatch first.symm.trans h), fun _ _ _ => ⟨congrArg Bsq.coolerLoss bsq, coolerTold_condition _ d⟩⟩
      · rw [checkCooler_runs needed gone runs]
        exact ⟨rfl, rfl, fun _ => rfl, fun _ h => (nomatch gone.symm.trans h), fun _ _ _ h => h, fun _ _ h => (nomatch runs.symm.trans h)⟩
  · rw [checkCooler_unneeded bare]
    exact ⟨rfl, rfl, fun _ => rfl, fun h => (nomatch bare.symm.trans h), fun h => (nomatch bare.symm.trans h),
      fun h => (nomatch bare.symm.trans h)⟩

/-! ## A cooler lost at once -/

theorem report_stands {k : CondKind} {n : Nat} {v : Bool} {d : Station} (h : d.condition k n = v) : d.report k n v = d := if_pos h

/-- A trip with COOLER LOSS, with the condition told of before and nothing to tell of the heat, moves no point but by its first-out. -/
theorem trip_points {d : Station} (present : d.condition .coolerLoss 0 = true) (absent : d.condition .heatShortfall 0 = false)
    (no : ∀ (i : Fin 32) (k : CondKind), d.firstOutOf .coolerLoss ≠ .localRef (some i) k) :
    (d.trip .coolerLoss).alm.points = d.alm.points := by
  let told := ((d.fireEnded .lockout).onBsq fun b => { b with trip := some {
    time := d.sru.time, state := d.bsq.state, cause := .coolerLoss, first := d.firstOutOf .coolerLoss } }).contribute
      (.trip (d.tripEntry .coolerLoss (d.firstOutOf .coolerLoss)))
  let held := told.onBsq fun b => { b with holds := b.holds.set (some (told.now + Config.tripHoldTicks)) .coolerLoss }
  have run : d.trip .coolerLoss = (((told.handRef (d.firstOutOf .coolerLoss)).startHold .coolerLoss).report
      .heatShortfall 0 false).reportCooler := by
    unfold Station.trip
    dsimp only
    rw [fireEnded_eq]
    rfl
  have start : told.startHold .coolerLoss = held := report_stands (d := held) present
  have heat : held.report .heatShortfall 0 false = held := report_stands (d := held) absent
  have cooler : held.reportCooler = held := report_stands (d := held) present
  rw [run, handRef_other no, start, heat, cooler]
  rfl

/-- What stands of the flags as the heat and then the cooler were looked at, before a trip with COOLER LOSS. -/
theorem checkCooler_trips {c : BurnerCfg} {a d : Station} (near : FiresNear a d)
    (heat : d.alm = a.alm ∨ (∃ y : Station, y.alm = a.alm ∧ d = y.report .heatShortfall 0 false))
    (atOnce : d.lossAtOnce c) : Tripped .coolerLoss a (d.checkCooler c) := by
  obtain ⟨needed, gone, first, now⟩ := atOnce
  let e := d.coolerTold (some (d.now + c.coolerLossTime * 1000000))
  have nearE : FiresNear a e := (near.onBsq fun b => { b with coolerLoss := some (d.now + c.coolerLossTime * 1000000) }).report ..
  have present : e.condition .coolerLoss 0 = true := coolerTold_condition _ d
  have whole : d.checkCooler c = e.trip .coolerLoss := (checkCooler_starts needed gone first).trans (if_pos now)
  have same (j : Fin 32) : (e.alm.points[j]'j.isLt).firstOut = (d.alm.points[j]'j.isLt).firstOut ∧
      (e.alm.points[j]'j.isLt = d.alm.points[j]'j.isLt ∨ (d.alm.points[j]'j.isLt).watches .coolerLoss 0 = true) := by
    rcases report_points .coolerLoss 0 true (d.onBsq fun b => { b with coolerLoss := some (d.now + c.coolerLossTime * 1000000) }) j
      with p | ⟨w, p | ⟨absent, -⟩⟩
    · exact ⟨congrArg Point.firstOut p, .inl p⟩
    · exact ⟨p, .inr w⟩
    · cases absent
  rw [whole]
  refine nearE.trip rfl fun no j => ?_
  have noE : ∀ (i : Fin 32) (k : CondKind), e.firstOutOf .coolerLoss ≠ .localRef (some i) k := by
    rw [nearE.firstOutOf rfl]
    exact no
  have unflagged := (trip_spec .coolerLoss e).unflagged noE j
  rw [(same j).1] at unflagged
  rcases heat with stood | ⟨y, stood, rfl⟩
  · rwa [stood] at unflagged
  · have absent : e.condition .heatShortfall 0 = false := (coolerTold_heat _ _).trans (report_condition ..)
    rcases report_points .heatShortfall 0 false y j with p | ⟨w, p | ⟨-, off, normal⟩⟩
    · rw [p, stood] at unflagged
      exact unflagged
    · rw [p, stood] at unflagged
      exact unflagged
    · refine ⟨fun h => ?_, fun _ => .inr ?_⟩
      · have := (off.symm.trans (unflagged.1 h))
        cases this
      · rw [trip_points present absent noE]
        rcases (same j).2 with p | w'
        · rw [p]
          exact normal
        · exfalso
          unfold Point.watches at w w'
          rw [report_cfg] at w'
          revert w w'
          cases (y.alm.points[j]'j.isLt).cfg with
          | none => exact nofun
          | some k =>
            intro w w'
            have heat := ((Bool.and_eq_true _ _).mp w).1
            have cool := ((Bool.and_eq_true _ _).mp w').1
            rw [beq_iff_eq] at heat cool
            exact (nomatch heat.symm.trans cool)

end Sys2Proof.Machine
end

section
/-! SUPPORT. The refresh of the floor by state, as the burner's supervision has it (R93, R96, R98 to R100, R104, R105). -/

set_option Elab.async false

namespace Sys2Proof.Machine

theorem burnerFloorTaken_down {d : Station} (down : d.lpc.state ≠ .up) : d.burnerFloorTaken = d := by
  unfold Station.burnerFloorTaken
  cases d.cfg.burner with
  | none => rfl
  | some c => exact if_neg down

theorem burnerFloorTaken_up {c : BurnerCfg} {d : Station} (cfg : d.cfg.burner = some c) (up : d.lpc.state = .up) :
    d.burnerFloorTaken = d.burnerRefresh c := by
  unfold Station.burnerFloorTaken
  rw [cfg]
  exact if_pos up

/-- A refresh in PURGE goes on unless a permissive fails (R96). -/
theorem burnerRefresh_purging {c : BurnerCfg} {d : Station} (cfg : d.cfg.burner = some c) (purging : d.bsq.state = .purge) :
    d.burnerRefresh c = (d.noted.purgeStop c).elim d.noted fun r => purgeStopped r c d.noted := by
  rw [burnerRefresh_purge purging]
  cases d.noted.purgeStop c with
  | none => rfl
  | some r => exact stopPurge_eq (d := d.noted) cfg r

/-- What FIRING is left at by a refresh without a trip (R99, R104, R105). -/
structure Supervised (c : BurnerCfg) (a b : Station) : Prop where
  state : b.bsq.state = a.bsq.state
  demand : b.bsq.demand = a.bsq.rampDemand c a.now
  only : BurnerOnly a b
  short : a.deliveredHeat c.letter < a.bsq.rampDemand c a.now * (100 - c.tolerance) / 100 →
    b.bsq.shortfall = some (a.bsq.shortfall.getD (a.now + c.shortfallDelay * 1000000))
  enough : ¬ a.deliveredHeat c.letter < a.bsq.rampDemand c a.now * (100 - c.tolerance) / 100 →
    b.bsq.shortfall = none ∧ b.condition .heatShortfall 0 = false
  unneeded : c.coolerRequired = false → b.bsq.coolerLoss = a.bsq.coolerLoss
  running : c.coolerRequired = true → a.coolerRunning = true →
    b.bsq.coolerLoss = none ∧ b.condition .coolerLoss 0 = a.bsq.holds.coolerLoss.isSome
  runs : c.coolerRequired = true → a.coolerRunning = false → ∀ e, a.bsq.coolerLoss = some e → b.bsq.coolerLoss = some e
  starts : c.coolerRequired = true → a.coolerRunning = false → a.bsq.coolerLoss = none →
    b.bsq.coolerLoss = some (a.now + c.coolerLossTime * 1000000) ∧ b.condition .coolerLoss 0 = true

section
variable {c : BurnerCfg} {a x y z : Station} (ramp : Ramped c a x) (heat : HeatChecked c x y)
include ramp heat

/-- What the supervision of the cooler finds of the station before the ramp. -/
theorem checked_near : FiresNear a y ∧ y.bsq.coolerLoss = a.bsq.coolerLoss ∧ y.bsq.holds = a.bsq.holds ∧
    y.bsq.state = a.bsq.state ∧ y.bsq.demand = a.bsq.rampDemand c a.now := by
  have b1 := ramp.bsq
  have b2 := heat.bsq
  have near := heat.near
  have bsq := ramp.near.bsq.trans near.bsq
  refine ⟨⟨fun e off => ramp.near.fuel e (near.fuel e off), bsq, fun j => (near.cfgs j).trans (ramp.near.cfgs j),
    ramp.near.rest.trans near.rest⟩, ?_, ?_, ?_, ?_⟩ <;> rw [b2, b1]

theorem lossAtOnce_checked : y.lossAtOnce c ↔ a.lossAtOnce c := by
  obtain ⟨near, loss, -⟩ := checked_near ramp heat
  unfold Station.lossAtOnce
  rw [near.rest.coolerRunning, loss]

theorem supervised_of (cooler : CoolerChecked c y z) (rest : BurnerOnly a z) : Supervised c a z := by
  obtain ⟨near, loss, holds, state, demand⟩ := checked_near ramp heat
  have running := near.rest.coolerRunning
  have now := near.rest.now
  have keep := cooler.bsq
  have shortfall : z.bsq.shortfall = y.bsq.shortfall := (congrArg Bsq.shortfall keep :)
  have isShort : x.heatShort c ↔ a.deliveredHeat c.letter < a.bsq.rampDemand c a.now * (100 - c.tolerance) / 100 := by
    unfold Station.heatShort
    rw [ramp.near.rest.deliveredHeat, ramp.bsq]
  have old : x.bsq.shortfall = a.bsq.shortfall := (congrArg Bsq.shortfall ramp.bsq :)
  have xnow : x.now = a.now := ramp.near.rest.now
  refine ⟨(congrArg Bsq.state keep :).trans state, (congrArg Bsq.demand keep :).trans demand, rest, fun h => ?_, fun h => ?_,
    fun h => (cooler.unneeded h).trans loss, fun n h => ?_, fun n h e l => ?_, fun n h l => ?_⟩
  · have short := (heat.short (isShort.2 h)).1
    rw [shortfall, short, old, xnow]
  · have enough := heat.enough (mt isShort.1 h)
    exact ⟨shortfall.trans enough.1, cooler.heat.trans enough.2⟩
  · rw [← holds]
    exact cooler.running n (running.trans h)
  · exact cooler.runs n (running.trans h) e (loss.trans l)
  · rw [← now]
    exact cooler.starts n (running.trans h) (loss.trans l)

end

theorem firing_supervised {c : BurnerCfg} {d : Station} (wait : ¬ d.lossAtOnce c) :
    Supervised c d (((d.rampNow c).checkShortfall c).checkCooler c) := by
  have ramp := rampNow_ramped c d
  have heat := checkShortfall_checked c (d.rampNow c)
  exact supervised_of ramp heat (checkCooler_checked (mt (lossAtOnce_checked ramp heat).1 wait))
    ((((BurnerOnly.refl d).rampNow c).checkShortfall c).checkCooler c)

theorem checkShortfall_alm (c : BurnerCfg) (d : Station) : (d.checkShortfall c).alm = d.alm ∨
    ∃ y : Station, y.alm = d.alm ∧ d.checkShortfall c = y.report .heatShortfall 0 false := by
  unfold Station.checkShortfall
  split
  · split <;> exact .inl rfl
  · exact .inr ⟨d.onBsq fun b => { b with shortfall := none }, rfl, rfl⟩

theorem firing_trips {c : BurnerCfg} {d : Station} (atOnce : d.lossAtOnce c) :
    Tripped .coolerLoss d (((d.rampNow c).checkShortfall c).checkCooler c) := by
  have ramp := rampNow_ramped c d
  have heat := checkShortfall_checked c (d.rampNow c)
  have alm := checkShortfall_alm c (d.rampNow c)
  rw [ramp.alm] at alm
  exact checkCooler_trips (checked_near ramp heat).1 alm ((lossAtOnce_checked ramp heat).2 atOnce)

theorem rampDemand_eq (c : BurnerCfg) (now : Nat) (b : Bsq) : b.rampDemand c now =
    if b.rampValue ≤ max b.setpoint c.lightOff then
      min (max b.setpoint c.lightOff) (b.rampValue + c.rampRate * ((now - b.rampMoment) / 1000) / 1000)
    else max (max b.setpoint c.lightOff) (b.rampValue - c.rampRate * ((now - b.rampMoment) / 1000) / 1000) := rfl

end Sys2Proof.Machine

open Sys2Proof Sys2Proof.Machine in
/-- Settles O30: the refresh outside UP, in PURGE, in a trial, in FIRING and elsewhere, with what each station finds of the floor. -/
theorem floorRefreshSupervisesTheBurner : Obligations.FloorRefreshSupervisesTheBurner := by
  refine ⟨floorRead, fun s c cfg => ?_⟩
  intro cmd b d0 trip noA stop lossAtOnce burning target most ramped
  let d := s.dev.take cmd
  have noted : d.noted = d0 := rfl
  have taken (up : s.dev.lpc.state = .up) : d.burnerFloorTaken = d.burnerRefresh c := burnerFloorTaken_up (d := d) cfg up
  have none' (quiet : ¬ trip) (lit : ¬ noA) : d.noted.refreshTrip c = none := refreshTrip_none (d := d.noted) quiet lit
  have rises : d0.bsq.rampDemand c d0.now = ramped := rampDemand_eq c s.dev.now b
  have answers {e : Station} (up : s.dev.lpc.state = .up) (h : d.burnerRefresh c = e) : exec cmd s = .next { s with dev := e } :=
    exec_eq exec_burnerFloor ((taken up).trans h)
  have runs {P : Station → Prop} {e : Station} (up : s.dev.lpc.state = .up) (h : d.burnerRefresh c = e) (p : P e) : Runs cmd s P :=
    .of_exec exec_burnerFloor ((taken up).trans h) p
  refine ⟨fun down => exec_eq exec_burnerFloor (burnerFloorTaken_down (d := d) down), fun up purging => ?_,
    fun up burns asked => runs up (burnerRefresh_trips (d := d) burns (refreshTrip_asked (d := d.noted) asked)) (trip_spec _ d0),
    fun up burns quiet alone =>
      runs up (burnerRefresh_trips (d := d) burns (refreshTrip_alone (d := d.noted) quiet alone)) (trip_spec _ d0), ?_,
    fun up out => answers up (burnerRefresh_out (d := d) out), ?_, ?_, ?_⟩
  · have reason : d.noted.purgeStop c = stop := purgeStop_eq c d.noted
    refine answers up ((burnerRefresh_purging (d := d) cfg purging).trans ?_)
    rw [reason]
    cases stop <;> rfl
  · intro up trial quiet lit proven heat
    have enters : d.burnerRefresh c = d0.enterFiring c :=
      (burnerRefresh_main (d := d) (none' quiet lit) trial).trans (if_pos ⟨proven, heat⟩)
    obtain ⟨bsq, signals, events, lines⟩ := enterFiring_spec (c := c) (d := d0)
    exact runs up enters ⟨bsq, lines, signals, events⟩
  · rintro up quiet lit (trial | ⟨trial, waits⟩)
    · exact answers up (burnerRefresh_pilot (d := d) (none' quiet lit) trial)
    · exact answers up ((burnerRefresh_main (d := d) (none' quiet lit) trial).trans (if_neg waits))
  · intro up firing quiet lit atOnce
    exact runs up (burnerRefresh_firing (d := d) (none' quiet lit) firing) (firing_trips (d := d0) atOnce)
  · intro up firing quiet lit wait
    obtain ⟨state, demand, only, short, enough, unneeded, running, timed, starts⟩ := firing_supervised (c := c) (d := d0) wait
    refine runs up (burnerRefresh_firing (d := d) (none' quiet lit) firing) ?_
    rw [rises] at demand short enough
    refine ⟨state.trans firing, demand, only, ?_, unneeded, running, timed, starts⟩
    split
    · next h => exact short h
    · next h => exact enough h
end

section
/-! SUPPORT. What the Feed Controller's operations on one channel leave of the other, and operations on each channel in turn (R113, R114). -/

set_option Elab.async false

namespace Sys2Proof.Machine

/-! ## What the Feed Controller reads of the rest of the station -/

namespace FeedOnly
variable {a b : Station} (h : FeedOnly a b)
include h

theorem cfg : b.cfg = a.cfg := h.rest.cfg

theorem now : b.now = a.now := (h.rest.now :)

theorem own : b.own = a.own := by
  unfold Station.own
  rw [h.cfg]

theorem feedDuty : b.feedDuty = a.feedDuty := by
  unfold Station.feedDuty
  rw [h.cfg]

theorem loopCfg : b.loopCfg = a.loopCfg := by
  unfold Station.loopCfg
  rw [h.cfg]

theorem findOut (k : OutKind) (f : OutFn) (n : Nat) : b.findOut k f n = a.findOut k f n :=
  findOut_congr (fun i => (h.lines i).1) k f n

theorem findChannel (f : ChannelFn) (n : Nat) : b.findChannel f n = a.findChannel f n := by
  unfold Station.findChannel
  rw [h.cfg]

theorem hasWeigher (ch : Fin 2) : b.hasWeigher ch = a.hasWeigher ch := by
  unfold Station.hasWeigher
  rw [h.findChannel]

theorem inView : b.inView = a.inView := by
  have lpc := h.rest.lpc
  have live : b.lpc.live = a.lpc.live := (congrArg Lpc.live lpc :)
  have floor : b.lpc.floor = a.lpc.floor := (congrArg Lpc.floor lpc :)
  unfold Station.inView
  rw [live, floor, h.own]

theorem state : b.lpc.state = a.lpc.state := (congrArg Lpc.state h.rest.lpc :)

theorem burnerStation (x : BurnerLetter) : b.burnerStation x = a.burnerStation x := by
  unfold Station.burnerStation
  rw [h.inView]

theorem alight (x : BurnerLetter) : b.alight x = a.alight x := by
  unfold Station.alight
  rw [h.burnerStation]

theorem demandOf (x : BurnerLetter) : b.demandOf x = a.demandOf x := by
  unfold Station.demandOf
  rw [h.burnerStation]

theorem available (x : BurnerLetter) : b.available x = a.available x := by
  unfold Station.available Station.feedInView
  rw [h.inView]

theorem turnsBack (ch : Fin 2) : b.turnsBack ch = a.turnsBack ch := by
  unfold Station.turnsBack
  rw [h.findChannel]
  split
  · next i _ => rw [(h.pairs i).rest]
  · rfl

end FeedOnly

/-! ## The other channel -/

/-- An operation leaves a feed channel alone, with its line, its pair and its conditions. -/
structure FeedApart (j : Fin 2) (a b : Station) : Prop where
  only : FeedOnly a b
  channel : b.fdc.channels[j]'j.isLt = a.fdc.channels[j]'j.isLt
  line : ∀ i : Fin 16, a.findOut .reference .feeder (j.val + 1) = some i → b.dou.lines[i]'i.isLt = a.dou.lines[i]'i.isLt
  pair : ∀ i : Fin 8, a.findChannel .encoder (j.val + 1) = some i → b.piu.channels[i]'i.isLt = a.piu.channels[i]'i.isLt
  conds : ∀ k : CondKind, b.condition k (j.val + 1) = a.condition k (j.val + 1)
  count : CountKept (.feedFault j) a b

/-- The line of one channel's feeder is not that of the other's. -/
theorem feeder_apart {d : Station} {ch j : Fin 2} (ne : ch ≠ j) {i m : Fin 16}
    (hi : d.findOut .reference .feeder (ch.val + 1) = some i) (hm : d.findOut .reference .feeder (j.val + 1) = some m) : m ≠ i := by
  rintro rfl
  obtain ⟨c, hc, -, hf, hn⟩ := findOut_cfg hi
  obtain ⟨c', hc', -, hf', hn'⟩ := findOut_cfg hm
  rw [hc] at hc'
  cases hc'
  have one : c.inst = ch.val + 1 := by simpa using hn
  have other : c.inst = j.val + 1 := by simpa using hn'
  exact ne (Fin.ext (Nat.succ_injective (one.symm.trans other)))

/-- The pair of one channel's encoder is not that of the other's. -/
theorem encoder_apart {d : Station} {ch j : Fin 2} (ne : ch ≠ j) {i m : Fin 8}
    (hi : d.findChannel .encoder (ch.val + 1) = some i) (hm : d.findChannel .encoder (j.val + 1) = some m) : m ≠ i := by
  rintro rfl
  have one := List.find?_some hi
  have other := List.find?_some hm
  cases c : d.cfg.channels[m]'m.isLt with
  | none =>
    rw [c] at one
    cases one
  | some c' =>
    rw [c] at one other
    simp only [Bool.and_eq_true, beq_iff_eq] at one other
    exact ne (Fin.ext (Nat.succ_injective (one.2.symm.trans other.2)))

theorem valueTold_count (x : Contribution) (l : OutLine) (v : Nat) (cause : ChangeCause) :
    (l.valueTold v cause).toList.count (.sruContribution x) = 0 := by
  rw [List.count_eq_zero]
  unfold OutLine.valueTold OutCfg.changeEvent
  split
  · nofun
  · cases l.cfg with
    | none => nofun
    | some c =>
      rintro mem
      simp only [Option.map_some, Option.toList_some, List.mem_singleton] at mem
      split at mem <;> cases mem

theorem onLine_count (x : Contribution) (i : Fin 16) (f : OutLine → OutLine) (told : OutLine → Option Instr) (d : Station)
    (silent : ∀ l, (told l).toList.count (.sruContribution x) = 0) : CountKept x d (d.onLine i f told) := by
  unfold CountKept Station.onLine
  rw [List.count_append, silent, Nat.add_zero]

theorem setPreload_count (x : Contribution) {i : Fin 16} {who : Owner} {d : Station} (kind : (d.dou.lines[i]'i.isLt).kind = .reference)
    (own : (d.dou.lines[i]'i.isLt).owner = who) (v : Nat) : CountKept x d (d.setPreload i who v).1 := by
  have quiet (f : OutLine → OutLine) : CountKept x d (d.onLine i f fun _ => none) := onLine_count x i f _ d fun _ => rfl
  have told (f : OutLine → OutLine) (v : Nat) (cause : ChangeCause) : CountKept x d (d.onLine i f (OutLine.valueTold v cause)) :=
    onLine_count x i f _ d fun l => valueTold_count x l v cause
  rw [setPreload_onLine kind own v]
  dsimp only
  split
  · exact quiet _
  · split
    · exact told _ _ _
    · split
      · exact told _ _ _
      · exact quiet _

namespace FeedApart
variable {j : Fin 2} {a b c : Station}

theorem refl (j : Fin 2) (d : Station) : FeedApart j d d := ⟨.refl d, rfl, fun _ _ => rfl, fun _ _ => rfl, fun _ => rfl, .refl _ d⟩

theorem trans (h : FeedApart j a b) (k : FeedApart j b c) : FeedApart j a c :=
  ⟨h.only.trans k.only, k.channel.trans h.channel,
    fun i found => (k.line i ((h.only.findOut ..).trans found)).trans (h.line i found),
    fun i found => (k.pair i ((h.only.findChannel ..).trans found)).trans (h.pair i found),
    fun x => (k.conds x).trans (h.conds x), h.count.trans k.count⟩

variable (h : FeedApart j a b) {ch : Fin 2} (ne : ch ≠ j)
include h

theorem post (e : HostEvent) : FeedApart j a (b.post e) := ⟨h.only.post e, h.channel, h.line, h.pair, h.conds, h.count⟩

theorem stageFeed : FeedApart j a b.stageFeed := by
  have only := h.only.stageFeed
  rw [stageFeed_rest] at *
  exact ⟨only, h.channel, h.line, h.pair, h.conds, h.count⟩

include ne

theorem onFeed (f : FeedChannel → FeedChannel) : FeedApart j a (b.onFeed ch f) :=
  ⟨h.only.onFeed ch f, (vecModify_ne _ _ _ _ _ fun e => ne (Fin.ext e)).trans h.channel, h.line, h.pair, h.conds, h.count⟩

theorem contribute {x : Contribution} (other : x ≠ .feedFault j) : FeedApart j a (b.contribute x) :=
  ⟨h.only.contribute x, h.channel, h.line, h.pair, h.conds, h.count.contribute other.symm⟩

theorem report (k : CondKind) (v : Bool) : FeedApart j a (b.report k (ch.val + 1) v) := by
  have only := report_only k (ch.val + 1) v b
  refine ⟨h.only.report .., ?_, fun i found => ?_, fun i found => ?_, fun x => ?_, h.count.trans (report_count rfl _ _ _ _)⟩
  · rw [only.fdc]
    exact h.channel
  · rw [only.dou]
    exact h.line i found
  · rw [only.piu]
    exact h.pair i found
  · exact (report_other _ _ _ _ _ _ fun e => ne (Fin.ext (Nat.succ_injective e.2)).symm).trans (h.conds x)

theorem recomputeDelivered (k : FeedCfg) : FeedApart j a (b.recomputeDelivered ch k) := (h.onFeed ne _).stageFeed

theorem writeFeeder (v : Nat) : FeedApart j a (b.writeFeeder ch v) := by
  unfold Station.writeFeeder
  dsimp only
  refine FeedApart.onFeed ?_ ne _
  cases found : b.findOut .reference .feeder (ch.val + 1) with
  | none => exact h
  | some i =>
    obtain ⟨kind, own, -⟩ := feeder_line found
    have rest := (setPreload_command i .feedController v b).rest
    refine ⟨h.only.command (setPreload_command ..), ?_, fun m hm => ?_, fun m hm => ?_, fun x => ?_,
      h.count.trans (setPreload_count _ kind own v)⟩
    · dsimp only
      rw [rest]
      exact h.channel
    · exact ((setPreload_line kind own v).2 m (feeder_apart ne found ((h.only.findOut ..).trans hm))).trans (h.line m hm)
    · dsimp only
      rw [rest]
      exact h.pair m hm
    · dsimp only
      rw [rest]
      exact h.conds x

theorem updateFine (k : FeedCfg) : FeedApart j a (b.updateFine ch k) := by
  unfold Station.updateFine
  dsimp only
  split
  · exact h
  · exact h.writeFeeder ne _

theorem writeStall (n : Nat) : FeedApart j a (b.writeStall ch n) := by
  have only := h.only.writeStall ch n
  have rest := writeStall_rest ch n b
  refine ⟨only, ?_, fun i found => ?_, fun i found => ?_, fun x => ?_, h.count.same (by rw [rest])⟩
  · rw [rest]
    exact h.channel
  · rw [rest]
    exact h.line i found
  · rw [writeStall_channels, if_neg fun e => encoder_apart ne e ((h.only.findChannel ..).trans found) rfl]
    exact h.pair i found
  · rw [rest]
    exact h.conds x

theorem quiesce : FeedApart j a (b.quiesce ch) := (((h.onFeed ne _).writeFeeder ne 0).writeStall ne 0).report ne ..

theorem reportFeed : FeedApart j a (b.reportFeed ch) := (h.report ne ..).report ne ..

theorem restFeed (st : FeedState) (k : FeedCfg) : FeedApart j a (b.restFeed st ch k) :=
  (((h.quiesce ne).onFeed ne _).reportFeed ne).recomputeDelivered ne k

theorem faultFeed (x : FeedCause) (k : FeedCfg) : FeedApart j a (b.faultFeed x ch k) := by
  unfold Station.faultFeed
  dsimp only
  split
  · exact (((h.quiesce ne).onFeed ne _).reportFeed ne).recomputeDelivered ne k
  · exact (((((h.quiesce ne).onFeed ne _).contribute ne fun e => ne (Contribution.feedFault.inj e)).post _).reportFeed
      ne).recomputeDelivered ne k

theorem runFeed (k : FeedCfg) : FeedApart j a (b.runFeed ch k) := ((h.onFeed ne _).writeStall ne _).recomputeDelivered ne k

theorem resumeFeed (k : FeedCfg) : FeedApart j a (b.resumeFeed ch k) := ((h.onFeed ne _).writeStall ne _).recomputeDelivered ne k

end FeedApart

/-! ## Each channel in turn -/

/-- An operation on a channel, if it is configured. -/
def Station.feedStep (f : Fin 2 → FeedCfg → Station → Station) (ch : Fin 2) (d : Station) : Station :=
  match (d.fdc.channels[ch]'ch.isLt).cfg with
  | some k => f ch k d
  | none => d

theorem feedStep_none {f : Fin 2 → FeedCfg → Station → Station} {ch : Fin 2} {d : Station} (bare : (d.fdc.channels[ch]'ch.isLt).cfg = none) :
    d.feedStep f ch = d := by
  unfold Station.feedStep
  rw [bare]

theorem feedStep_some {f : Fin 2 → FeedCfg → Station → Station} {ch : Fin 2} {k : FeedCfg} {d : Station}
    (cfg : (d.fdc.channels[ch]'ch.isLt).cfg = some k) : d.feedStep f ch = f ch k d := by
  unfold Station.feedStep
  rw [cfg]

theorem eachFeed_eq (f : Fin 2 → FeedCfg → Station → Station) (d : Station) : d.eachFeed f = (d.feedStep f 0).feedStep f 1 := rfl

/-- What every operation on a channel keeps is kept of them all. -/
theorem eachFeed_keeps {P : Station → Prop} {f : Fin 2 → FeedCfg → Station → Station} (hf : ∀ ch k x, P x → P (f ch k x))
    {d : Station} (h : P d) : P (d.eachFeed f) := by
  have step (ch : Fin 2) (x : Station) (hx : P x) : P (x.feedStep f ch) := by
    unfold Station.feedStep
    split
    · exact hf _ _ _ hx
    · exact hx
  exact step 1 _ (step 0 d h)

section
variable {f : Fin 2 → FeedCfg → Station → Station}
  (apart : ∀ (ch j : Fin 2) (k : FeedCfg) (x : Station), ch ≠ j → FeedApart j x (f ch k x))
include apart

theorem feedStep_apart {ch j : Fin 2} (ne : ch ≠ j) (x : Station) : FeedApart j x (x.feedStep f ch) := by
  unfold Station.feedStep
  split
  · exact apart ch j _ x ne
  · exact .refl j x

/-- A channel that is not configured is left alone. -/
theorem eachFeed_bare (d : Station) {ch : Fin 2} (bare : (d.fdc.channels[ch]'ch.isLt).cfg = none) : FeedApart ch d (d.eachFeed f) := by
  rw [eachFeed_eq]
  match ch, bare with
  | 0, bare =>
    rw [feedStep_none bare]
    exact feedStep_apart apart (by decide) d
  | 1, bare =>
    have before := feedStep_apart apart (ch := 0) (j := 1) (by decide) d
    rw [feedStep_none ((congrArg FeedChannel.cfg before.channel).trans bare)]
    exact before

/-- A configured channel has its operation between what is done to the other. -/
theorem eachFeed_takes (d : Station) {ch : Fin 2} {k : FeedCfg} (cfg : (d.fdc.channels[ch]'ch.isLt).cfg = some k) :
    ∃ x, FeedApart ch d x ∧ FeedApart ch (f ch k x) (d.eachFeed f) := by
  rw [eachFeed_eq]
  match ch, cfg with
  | 0, cfg =>
    rw [feedStep_some cfg]
    exact ⟨d, .refl 0 d, feedStep_apart apart (by decide) _⟩
  | 1, cfg =>
    have before := feedStep_apart apart (ch := 0) (j := 1) (by decide) d
    rw [feedStep_some (ch := 1) ((congrArg FeedChannel.cfg before.channel).trans cfg)]
    exact ⟨_, before, .refl 1 _⟩

end

/-! ## The feed part -/

/-- The feed part that a station's channels give (R116). -/
def Station.feedEntries (d : Station) : List FeedEntry := (List.finRange 2).filterMap fun i => (d.fdc.channels[i]'i.isLt).entry i

/-- The staged feed part is that of the channels (R116). -/
def Station.feedStaged (d : Station) : Prop := d.feedDuty = true → d.lpc.staging.feed = some d.feedEntries

theorem stageFeed_staged (d : Station) : d.stageFeed.feedStaged := by
  intro duty
  have duty : d.feedDuty = true := (FeedOnly.refl d).stageFeed.feedDuty.symm.trans duty
  rw [stageFeed_rest, if_pos duty]
  rfl

theorem recomputeDelivered_staged (ch : Fin 2) (k : FeedCfg) (d : Station) : (d.recomputeDelivered ch k).feedStaged :=
  stageFeed_staged _

end Sys2Proof.Machine
end

section
/-! SUPPORT. The feed requests, and the faults of the feed (R115, R126, R127, R132, R133). -/

set_option Elab.async false

namespace Sys2Proof.Machine

/-! ## Requests -/

theorem feedIdx_some {b : Byte} {d : Station} {ch : Fin 2} {k : FeedCfg} (number : b.toNat = ch.val + 1)
    (cfg : (d.fdc.channels[ch]'ch.isLt).cfg = some k) : d.feedIdx b = some (ch, k) := by
  obtain ⟨n, small⟩ := ch
  have index : b.toNat - 1 = n := by
    simp only at number
    omega
  subst index
  have range : 1 ≤ b.toNat ∧ b.toNat ≤ 2 := by
    simp only at number
    omega
  have own : (d.fdc.channels[b.toNat - 1]'small).cfg = some k := cfg
  unfold Station.feedIdx
  rw [dif_pos range, own]
  rfl

theorem feedIdx_none {b : Byte} {d : Station} (no : ∀ ch : Fin 2, (d.fdc.channels[ch]'ch.isLt).cfg ≠ none → b.toNat ≠ ch.val + 1) :
    d.feedIdx b = none := by
  unfold Station.feedIdx
  split
  · next range =>
    have bare : (d.fdc.channels[b.toNat - 1]'(by omega)).cfg = none := by
      by_contra h
      exact no ⟨b.toNat - 1, by omega⟩ h (by show b.toNat = b.toNat - 1 + 1; omega)
    rw [bare]
    rfl
  · rfl

section
variable {d : Station} {b : Byte} (up : d.ppt.started = true) (duty : d.feedDuty = true)
include up duty

theorem feedRequest_ok {ch : Fin 2} {k : FeedCfg} (idx : d.feedIdx b = some (ch, k)) (f : Fin 2 → FeedCfg → Station → Station) :
    d.feedRequest b f = f ch k d := by
  unfold Station.feedRequest
  rw [if_neg (started_guard up), if_neg (by rw [duty]; exact Bool.false_ne_true), idx]

theorem feedRequest_unknown (idx : d.feedIdx b = none) (f : Fin 2 → FeedCfg → Station → Station) :
    d.feedRequest b f = d.answer .badField 0 [] := by
  unfold Station.feedRequest
  rw [if_neg (started_guard up), if_neg (by rw [duty]; exact Bool.false_ne_true), idx]
  rfl

end

section
variable {d : Station} {ch : Fin 2} {k : FeedCfg}

theorem feedEnabled_ready (off : (d.fdc.channels[ch]'ch.isLt).state = .off) (released : d.lineActive .estop = false) :
    Accepted (FeedStopped .ready .none ch d) (d.feedEnabled ch k) :=
  ⟨_, restFeed_spec .ready ch k d rfl, (if_neg (not_not_intro off)).trans (if_neg (by rw [released]; exact Bool.false_ne_true))⟩

theorem feedEnabled_estop (off : (d.fdc.channels[ch]'ch.isLt).state = .off) (pressed : d.lineActive .estop = true) :
    d.feedEnabled ch k = d.answer .refused 13 [] := (if_neg (not_not_intro off)).trans (if_pos pressed)

theorem feedDisabled_off (live : (d.fdc.channels[ch]'ch.isLt).state ≠ .off) : Accepted (FeedStopped .off .none ch d) (d.feedDisabled ch k) :=
  ⟨_, restFeed_spec .off ch k d rfl, if_neg live⟩

theorem feedCleared_ready (fault : (d.fdc.channels[ch]'ch.isLt).state = .fault) (released : d.lineActive .estop = false) :
    Accepted (FeedStopped .ready .none ch d) (d.feedCleared ch k) :=
  ⟨_, restFeed_spec .ready ch k d rfl, (if_neg (not_not_intro fault)).trans (if_neg (by rw [released]; exact Bool.false_ne_true))⟩

theorem feedCleared_estop (fault : (d.fdc.channels[ch]'ch.isLt).state = .fault) (pressed : d.lineActive .estop = true) :
    d.feedCleared ch k = d.answer .refused 13 [] := (if_neg (not_not_intro fault)).trans (if_pos pressed)

theorem cvUpdated_bad {cv : Half} (bad : cv.toNat < 5000 ∨ 35000 < cv.toNat) : d.cvUpdated cv ch = d.answer .badField 0 [] :=
  if_pos (by rwa [Bool.or_eq_true, decide_eq_true_eq, decide_eq_true_eq])

theorem cvUpdated_good {cv : Half} (least : 5000 ≤ cv.toNat) (most : cv.toNat ≤ 35000) :
    d.cvUpdated cv ch = (d.onFeed ch fun c => { c with cvPreload := some cv.toNat }).ok :=
  if_neg (by
    rw [Bool.or_eq_true, decide_eq_true_eq, decide_eq_true_eq]
    omega)

end

/-! ## Faults -/

/-- A channel turns (R114). -/
theorem turning_iff (st : FeedState) : st.turning = true ↔ st = .running ∨ st = .held := by
  cases st <;> decide

/-- What a still event of a channel's pair does (R126). -/
def Station.feedStill (ch : Fin 2) (d : Station) : Station :=
  match (d.fdc.channels[ch]'ch.isLt).cfg with
  | none => d
  | some k => if (d.fdc.channels[ch]'ch.isLt).state.turning then d.faultFeed .feederStall ch k else d

/-- What a change of direction of a channel's pair does (R127). -/
def Station.feedTurned (ch : Fin 2) (direction : Direction) (d : Station) : Station :=
  match (d.fdc.channels[ch]'ch.isLt).cfg with
  | none => d
  | some k => if (d.fdc.channels[ch]'ch.isLt).state.turning && direction == .reverse then d.faultFeed .feederReverse ch k else d

theorem exec_fdcStill (ch : Fin 2) (position : Half) (s : State) :
    exec (.fdcStill ch position) s = act (.fdcStill ch position) (Station.feedStill ch) s := rfl

theorem exec_fdcDirection (ch : Fin 2) (direction : Direction) (position : Half) (s : State) :
    exec (.fdcDirectionChange ch direction position) s =
      act (.fdcDirectionChange ch direction position) (Station.feedTurned ch direction) s := rfl

theorem exec_fdcEstop_on (s : State) :
    exec (.fdcEstopChange true) s = act (.fdcEstopChange true) (Station.eachFeed (Station.faultFeed .estop)) s := rfl

theorem exec_fdcEstop_off (s : State) : exec (.fdcEstopChange false) s = act (.fdcEstopChange false) id s := rfl

section
variable {d : Station} {ch : Fin 2} {k : FeedCfg} (cfg : (d.fdc.channels[ch]'ch.isLt).cfg = some k)
include cfg

theorem feedStill_turning (turning : (d.fdc.channels[ch]'ch.isLt).state.turning = true) : d.feedStill ch = d.faultFeed .feederStall ch k := by
  unfold Station.feedStill
  rw [cfg]
  exact if_pos turning

theorem feedStill_idle (idle : ¬ (d.fdc.channels[ch]'ch.isLt).state.turning = true) : d.feedStill ch = d := by
  unfold Station.feedStill
  rw [cfg]
  exact if_neg idle

theorem feedTurned_back (turning : (d.fdc.channels[ch]'ch.isLt).state.turning = true) :
    d.feedTurned ch .reverse = d.faultFeed .feederReverse ch k := by
  unfold Station.feedTurned
  rw [cfg]
  exact if_pos (by rw [turning]; rfl)

theorem feedTurned_idle (idle : ¬ (d.fdc.channels[ch]'ch.isLt).state.turning = true) (direction : Direction) : d.feedTurned ch direction = d := by
  unfold Station.feedTurned
  rw [cfg]
  exact if_neg fun h => idle ((Bool.and_eq_true _ _).mp h).1

theorem feedTurned_forward : d.feedTurned ch .forward = d := by
  unfold Station.feedTurned
  rw [cfg]
  exact if_neg fun h => Bool.false_ne_true ((Bool.and_eq_true _ _).mp h).2

end

/-- A fault event of a turning channel (R126, R127). -/
theorem faultFeed_turning {cause : FeedCause} {ch : Fin 2} {k : FeedCfg} {d : Station}
    (turning : (d.fdc.channels[ch]'ch.isLt).state = .running ∨ (d.fdc.channels[ch]'ch.isLt).state = .held) :
    FeedStopped .fault cause ch d (d.faultFeed cause ch k) ∧ .sruContribution (.feedFault ch) ∈ (d.faultFeed cause ch k).signals ∧
      (d.faultFeed cause ch k).ppt.events &&& 16 = 16 := by
  obtain ⟨stopped, first⟩ := faultFeed_spec cause ch k d
  exact ⟨stopped, first fun fault => by rcases turning with h | h <;> exact nomatch h.symm.trans fault⟩

/-! ## Counts -/

theorem writeFeeder_count (x : Contribution) (ch : Fin 2) (v : Nat) (d : Station) : CountKept x d (d.writeFeeder ch v) := by
  unfold Station.writeFeeder
  dsimp only
  cases found : d.findOut .reference .feeder (ch.val + 1) with
  | none => rfl
  | some i =>
    obtain ⟨kind, own, -⟩ := feeder_line found
    exact (setPreload_count x kind own v).same rfl

theorem quiesce_count {x : Contribution} (foreign : ofPoints x = false) (ch : Fin 2) (d : Station) : CountKept x d (d.quiesce ch) := by
  have written := (CountKept.refl x d).trans (writeFeeder_count x ch 0 (d.onFeed ch FeedChannel.cleared))
  have stalled := written.same (c := ((d.onFeed ch FeedChannel.cleared).writeFeeder ch 0).writeStall ch 0) (by rw [writeStall_rest])
  exact stalled.trans (report_count foreign _ _ _ _)

theorem publishFeed_count {x : Contribution} (foreign : ofPoints x = false) (ch : Fin 2) (k : FeedCfg) (d : Station) :
    CountKept x d ((d.reportFeed ch).recomputeDelivered ch k) := by
  refine CountKept.same (b := d.reportFeed ch) ?_ ?_
  · exact (report_count foreign d .feederStall (ch.val + 1) _).trans (report_count foreign _ .feederReverse (ch.val + 1) _)
  · unfold Station.recomputeDelivered
    rw [stageFeed_rest]
    rfl

/-- The station with a channel stopped and in FAULT, before anything is told of it (R114). -/
def Station.feedFaulted (cause : FeedCause) (ch : Fin 2) (d : Station) : Station :=
  (d.quiesce ch).onFeed ch fun c => { c with state := .fault, cause := cause }

section
variable {cause : FeedCause} {ch : Fin 2} {k : FeedCfg} {d : Station}

theorem faultFeed_again (again : (d.fdc.channels[ch]'ch.isLt).state = .fault) : d.faultFeed cause ch k =
    ((d.feedFaulted cause ch).reportFeed ch).recomputeDelivered ch k := by
  unfold Station.faultFeed
  rw [again]
  rfl

theorem faultFeed_first (first : (d.fdc.channels[ch]'ch.isLt).state ≠ .fault) : d.faultFeed cause ch k =
    (((((d.feedFaulted cause ch).contribute (.feedFault ch)).post .feedFault)).reportFeed ch).recomputeDelivered ch k := by
  unfold Station.faultFeed
  dsimp only
  rw [show ((d.fdc.channels[ch]'ch.isLt).state == .fault) = false from beq_false_of_ne first]
  rfl

end

/-- An entry to FAULT is counted once (R114, R132). -/
theorem faultFeed_count (cause : FeedCause) (ch : Fin 2) (k : FeedCfg) (d : Station) :
    (d.faultFeed cause ch k).signals.count (.sruContribution (.feedFault ch)) =
      d.signals.count (.sruContribution (.feedFault ch)) + if (d.fdc.channels[ch]'ch.isLt).state ≠ .fault then 1 else 0 := by
  have quiet : CountKept (.feedFault ch) d (d.feedFaulted cause ch) := (quiesce_count rfl ch d).same rfl
  by_cases again : (d.fdc.channels[ch]'ch.isLt).state = .fault
  · rw [faultFeed_again again, if_neg (not_not_intro again)]
    exact quiet.trans (publishFeed_count rfl ch k _)
  · rw [faultFeed_first again, if_pos again]
    refine Eq.trans (publishFeed_count rfl ch k _) ((count_contribute _ _ _).trans ?_)
    rw [if_pos rfl]
    exact congrArg (· + 1) quiet

/-! ## The emergency stop -/

theorem faultFeed_apart (cause : FeedCause) (ch j : Fin 2) (k : FeedCfg) (x : Station) (ne : ch ≠ j) :
    FeedApart j x (x.faultFeed cause ch k) := (FeedApart.refl j x).faultFeed ne cause k

theorem FeedOnly.staged {a b : Station} (h : FeedOnly a b) (staged : a.feedDuty = true →
    b.lpc.staging.feed = some b.feedEntries) : b.feedStaged := fun duty => staged (h.feedDuty.symm.trans duty)

/-- The feed part stays staged from the channel that sets it on. -/
theorem eachFeed_staged {f : Fin 2 → FeedCfg → Station → Station}
    (apart : ∀ (ch j : Fin 2) (k : FeedCfg) (x : Station), ch ≠ j → FeedApart j x (f ch k x))
    (keeps : ∀ (ch : Fin 2) (k : FeedCfg) (x : Station), x.feedStaged → (f ch k x).feedStaged)
    {d : Station} {ch : Fin 2} {k : FeedCfg} (cfg : (d.fdc.channels[ch]'ch.isLt).cfg = some k)
    (sets : ∀ x, FeedApart ch d x → (f ch k x).feedStaged) : (d.eachFeed f).feedStaged := by
  have step (ch : Fin 2) (x : Station) (hx : x.feedStaged) : (x.feedStep f ch).feedStaged := by
    unfold Station.feedStep
    split
    · exact keeps _ _ _ hx
    · exact hx
  rw [eachFeed_eq]
  match ch, cfg, sets with
  | 0, cfg, sets =>
    rw [feedStep_some cfg]
    exact step 1 _ (sets d (.refl 0 d))
  | 1, cfg, sets =>
    have before := feedStep_apart apart (ch := 0) (j := 1) (by decide) d
    rw [feedStep_some (ch := 1) ((congrArg FeedChannel.cfg before.channel).trans cfg)]
    exact sets _ before

theorem faultFeed_staged (cause : FeedCause) (ch : Fin 2) (k : FeedCfg) (d : Station) : (d.faultFeed cause ch k).feedStaged :=
  recomputeDelivered_staged ch k _

/-- What is told of a stopped channel between what is done to the other. -/
theorem FeedStopped.between {st : FeedState} {cause : FeedCause} {ch : Fin 2} {a x y b : Station} (before : FeedApart ch a x)
    (h : FeedStopped st cause ch x y) (after : FeedApart ch y b) :
    b.fdc.channels[ch]'ch.isLt = { a.fdc.channels[ch]'ch.isLt with
      state := st, cause := cause, targetHeat := 0, massGoal := 0, targetRate := 0, lastFine := 0, delivered := 0
      openLoop := false, runDown := false, reEvaluate := false, runDownTimer := none, runningSecond := none } ∧
    (∀ i : Fin 16, a.findOut .reference .feeder (ch.val + 1) = some i →
      b.dou.lines[i]'i.isLt = feederZero a.now (a.dou.lines[i]'i.isLt) ∧
      ((a.dou.lines[i]'i.isLt).forced = false → (a.dou.lines[i]'i.isLt).active ≠ 0 → .fdcActiveValueChange ch 0 .immediate ∈ b.signals)) ∧
    (∀ i : Fin 8, a.findChannel .encoder (ch.val + 1) = some i → b.piu.channels[i]'i.isLt = stallWritten a.now 0 (a.piu.channels[i]'i.isLt)) ∧
    b.condition .weigherSilent (ch.val + 1) = false ∧
    b.condition .feederStall (ch.val + 1) = (st == .fault && cause == .feederStall) ∧
    b.condition .feederReverse (ch.val + 1) = (st == .fault && cause == .feederReverse) := by
  have now := before.only.now
  refine ⟨?_, fun i found => ?_, fun i found => ?_, (after.conds _).trans h.silent, (after.conds _).trans h.stalled,
    (after.conds _).trans h.reversed⟩
  · rw [after.channel, h.channel, before.channel]
  · have foundX : x.findOut .reference .feeder (ch.val + 1) = some i := (before.only.findOut ..).trans found
    have line := before.line i found
    constructor
    · rw [after.line i ((h.rest.findOut ..).trans foundX), h.feeder, if_pos foundX, now, line]
    · intro free flows
      rw [← line] at free flows
      exact after.only.rest.signals.subset (h.told i foundX free flows)
  · have foundX : x.findChannel .encoder (ch.val + 1) = some i := (before.only.findChannel ..).trans found
    rw [after.pair i ((h.rest.findChannel ..).trans foundX), h.pair, if_pos foundX, now, before.pair i found]

end Sys2Proof.Machine

open Sys2Proof Sys2Proof.Machine in
/-- Settles O33: each request by the state of its channel and the emergency stop. -/
theorem feedRequestsMoveTheChannel : Obligations.FeedRequestsMoveTheChannel := by
  intro b cv s up duty after enable disable clear update
  refine ⟨fun no => ?_, ?_⟩
  · have unknown (cmd : Instr) (f : Fin 2 → FeedCfg → Station → Station) (name : ∀ s, exec cmd s = act cmd (Station.feedRequest b f) s) :
        after cmd ((s.dev.take cmd).answer .badField 0 []) :=
      exec_eq name (feedRequest_unknown (d := s.dev.take cmd) up duty (feedIdx_none (d := s.dev.take cmd) no) f)
    simp only [List.forall_mem_cons]
    exact ⟨unknown _ _ (exec_feedEnable b), unknown _ _ (exec_feedDisable b), unknown _ _ (exec_feedClearFault b),
      unknown _ _ (exec_calorificUpdate b cv), List.forall_mem_nil _⟩
  · intro ch k number cfg st estop
    have done {cmd : Instr} {f : Fin 2 → FeedCfg → Station → Station} (name : ∀ s, exec cmd s = act cmd (Station.feedRequest b f) s)
        {x : Station} (e : f ch k (s.dev.take cmd) = x) : after cmd x :=
      exec_eq name ((feedRequest_ok (d := s.dev.take cmd) up duty (feedIdx_some (d := s.dev.take cmd) number cfg) f).trans e)
    have runs {cmd : Instr} {f : Fin 2 → FeedCfg → Station → Station} {P : Station → Prop}
        (name : ∀ s, exec cmd s = act cmd (Station.feedRequest b f) s) (p : P (f ch k (s.dev.take cmd))) : Runs cmd s P :=
      .of_exec name (feedRequest_ok (d := s.dev.take cmd) up duty (feedIdx_some (d := s.dev.take cmd) number cfg) f) p
    exact ⟨fun live => done (exec_feedEnable b) (if_pos live),
      fun off pressed => done (exec_feedEnable b) (feedEnabled_estop (d := s.dev.take enable) off pressed),
      fun off released => runs (exec_feedEnable b) (feedEnabled_ready (d := s.dev.take enable) off released),
      fun off => done (exec_feedDisable b) (if_pos off),
      fun live => runs (exec_feedDisable b) (feedDisabled_off (d := s.dev.take disable) live),
      fun sound => done (exec_feedClearFault b) (if_pos sound),
      fun fault pressed => done (exec_feedClearFault b) (feedCleared_estop (d := s.dev.take clear) fault pressed),
      fun fault released => runs (exec_feedClearFault b) (feedCleared_ready (d := s.dev.take clear) fault released),
      fun bad => done (exec_calorificUpdate b cv) (cvUpdated_bad (d := s.dev.take update) bad),
      fun least most => done (exec_calorificUpdate b cv) (cvUpdated_good (d := s.dev.take update) least most)⟩

open Sys2Proof Sys2Proof.Machine in
/-- Settles O34: the fault of one channel by its event, and of each configured channel at the emergency stop. -/
theorem faultEventsStopTheFeed : Obligations.FaultEventsStopTheFeed := by
  refine ⟨fun ch position s k cfg => ?_, fun s => ⟨exec_eq exec_fdcEstop_off rfl, .of_act exec_fdcEstop_on ?_⟩⟩
  · intro turning faults still reverse forward
    have idle (x : ¬ turning) : ¬ (s.dev.fdc.channels[ch]'ch.isLt).state.turning = true := mt (turning_iff _).1 x
    exact ⟨fun t => .of_exec (exec_fdcStill ch position) (feedStill_turning (d := s.dev.take still) cfg ((turning_iff _).2 t))
        (faultFeed_turning (d := s.dev.take still) t),
      fun t => .of_exec (exec_fdcDirection ch .reverse position)
        (feedTurned_back (d := s.dev.take reverse) cfg ((turning_iff _).2 t)) (faultFeed_turning (d := s.dev.take reverse) t),
      fun t => exec_eq (exec_fdcStill ch position) (feedStill_idle (d := s.dev.take still) cfg (idle t)),
      fun t => exec_eq (exec_fdcDirection ch .reverse position) (feedTurned_idle (d := s.dev.take reverse) cfg (idle t) _),
      exec_eq (exec_fdcDirection ch .forward position) (feedTurned_forward (d := s.dev.take forward) cfg)⟩
  · let a := s.dev.take (.fdcEstopChange true)
    have apart := faultFeed_apart .estop
    refine ⟨(FeedOnly.refl a).eachFeed _ fun ch k _ hx => hx.faultFeed .estop ch k, fun ch => ?_⟩
    intro c
    rcases Option.eq_none_or_eq_some c.cfg with bare | ⟨k, cfg⟩
    · have none' := eachFeed_bare apart a (ch := ch) bare
      rw [bare]
      refine ⟨nofun, ?_, nofun, nofun, ?_⟩
      · rw [if_neg fun h => Bool.false_ne_true h.1]
        exact none'.count
      · rw [if_neg (by nofun)]
        exact none'.channel
    · obtain ⟨x, before, later⟩ := eachFeed_takes apart a (ch := ch) cfg
      obtain ⟨stopped, first⟩ := faultFeed_spec .estop ch k x
      obtain ⟨channel, lines, pair, silent, stall, back⟩ := stopped.between before later
      have state : (x.fdc.channels[ch]'ch.isLt).state = c.state := congrArg FeedChannel.state before.channel
      have isSome : c.cfg.isSome = true := by rw [cfg]; rfl
      refine ⟨fun _ sound => ?_, ?_, fun _ => ⟨lines, pair, silent, stall, back⟩, fun duty _ => ?_, ?_⟩
      · have posted := (first (state ▸ sound)).2
        rw [BitVec.and_comm] at posted ⊢
        exact events_trans posted later.only.rest.events
      · rw [later.count, faultFeed_count, before.count, state]
        simp only [isSome, true_and]
        rfl
      · have staged := eachFeed_staged apart (fun ch k x _ => faultFeed_staged .estop ch k x) (d := a) (ch := ch) cfg
          fun x _ => faultFeed_staged .estop ch k x
        exact staged (((FeedOnly.refl a).eachFeed _ fun ch k _ hx => hx.faultFeed .estop ch k).feedDuty.trans duty)
      · rw [if_pos isSome]
        exact channel
end

section
/-! SUPPORT. The delivered heat, the fine reference, silence of the weigher, and the loss of the loop (R119 to R122, R125, R129 to R131). -/

set_option Elab.async false

namespace Sys2Proof.Machine

/-! ## The delivered heat (R122) -/

theorem onFeed_channel (ch : Fin 2) (f : FeedChannel → FeedChannel) (d : Station) :
    (d.onFeed ch f).fdc.channels[ch]'ch.isLt = f (d.fdc.channels[ch]'ch.isLt) := vecModify_same _ _ _

theorem onFeed_other {ch j : Fin 2} (ne : j ≠ ch) (f : FeedChannel → FeedChannel) (d : Station) :
    (d.onFeed ch f).fdc.channels[j]'j.isLt = d.fdc.channels[j]'j.isLt := vecModify_ne _ _ _ _ _ fun e => ne (Fin.ext e.symm)

theorem recomputed_rest (ch : Fin 2) (k : FeedCfg) (d : Station) : d.recomputeDelivered ch k =
    { d with fdc := (d.recomputeDelivered ch k).fdc, lpc := (d.recomputeDelivered ch k).lpc } := by
  unfold Station.recomputeDelivered
  rw [stageFeed_rest]
  rfl

theorem recomputed_fdc (ch : Fin 2) (k : FeedCfg) (d : Station) : (d.recomputeDelivered ch k).fdc =
    (d.onFeed ch fun c => { c with delivered := c.deliveredNow k (d.hasWeigher ch) }).fdc := by
  unfold Station.recomputeDelivered
  rw [stageFeed_rest]

theorem recomputed_channel (ch : Fin 2) (k : FeedCfg) (d : Station) : (d.recomputeDelivered ch k).fdc.channels[ch]'ch.isLt =
    { d.fdc.channels[ch]'ch.isLt with delivered := (d.fdc.channels[ch]'ch.isLt).deliveredNow k (d.hasWeigher ch) } := by
  rw [recomputed_fdc]
  exact onFeed_channel ch _ d

theorem recomputed_other {ch j : Fin 2} (ne : j ≠ ch) (k : FeedCfg) (d : Station) :
    (d.recomputeDelivered ch k).fdc.channels[j]'j.isLt = d.fdc.channels[j]'j.isLt := by
  rw [recomputed_fdc]
  exact onFeed_other ne _ d

theorem recomputed_condition (ch : Fin 2) (k : FeedCfg) (d : Station) (x : CondKind) (n : Nat) :
    (d.recomputeDelivered ch k).condition x n = d.condition x n :=
  condition_of_alm (by rw [recomputed_rest]) x n

/-- The heat that a turning channel delivers, by its rate basis (R122). -/
theorem deliveredNow_turning {c : FeedChannel} (turning : c.state.turning = true) (k : FeedCfg) (weigher : Bool) :
    c.deliveredNow k weigher = (if weigher && !c.openLoop && c.rateSeen then c.measured
      else c.activeFine * k.ratePerFine * c.trim / 100000) * c.cv / 3600 := if_pos turning

theorem deliveredNow_eq (c : FeedChannel) (k : FeedCfg) (weigher : Bool) : c.deliveredNow k weigher =
    if c.state = .running ∨ c.state = .held then (if weigher && !c.openLoop && c.rateSeen then c.measured
      else c.activeFine * k.ratePerFine * c.trim / 100000) * c.cv / 3600 else 0 :=
  if_congr (turning_iff c.state) rfl rfl

/-! ## The fine reference (R121) -/

/-- What a channel's fine reference is written with, and what of its line and record follows. -/
structure FineWritten (ch : Fin 2) (v : Nat) (a b : Station) : Prop where
  channel : b.fdc.channels[ch]'ch.isLt = { a.fdc.channels[ch]'ch.isLt with lastFine := v }
  others : ∀ j : Fin 2, j ≠ ch → b.fdc.channels[j]'j.isLt = a.fdc.channels[j]'j.isLt
  small : ∀ i : Fin 16, a.findOut .reference .feeder (ch.val + 1) = some i → v ≠ (a.fdc.channels[ch]'ch.isLt).lastFine → v ≠ 0 →
    (a.dou.lines[i]'i.isLt).firstWrite = false → b.dou.lines[i]'i.isLt = { a.dou.lines[i]'i.isLt with preload := min 4080 v }
  zero : ∀ i : Fin 16, a.findOut .reference .feeder (ch.val + 1) = some i → v ≠ (a.fdc.channels[ch]'ch.isLt).lastFine → v = 0 →
    b.dou.lines[i]'i.isLt = feederZero a.now (a.dou.lines[i]'i.isLt)
  preload : ∀ i : Fin 16, a.findOut .reference .feeder (ch.val + 1) = some i → v ≠ (a.fdc.channels[ch]'ch.isLt).lastFine →
    (b.dou.lines[i]'i.isLt).preload = min 4080 v
  told : ∀ i : Fin 16, a.findOut .reference .feeder (ch.val + 1) = some i → v ≠ (a.fdc.channels[ch]'ch.isLt).lastFine → v = 0 →
    (a.dou.lines[i]'i.isLt).forced = false → (a.dou.lines[i]'i.isLt).active ≠ 0 → .fdcActiveValueChange ch 0 .immediate ∈ b.signals
  elsewhere : ∀ i : Fin 16, a.findOut .reference .feeder (ch.val + 1) ≠ some i → b.dou.lines[i]'i.isLt = a.dou.lines[i]'i.isLt
  stands : v = (a.fdc.channels[ch]'ch.isLt).lastFine → b = a
  rest : b = { a with fdc := b.fdc, dou := b.dou, signals := b.signals }

theorem writeFeeder_line {ch : Fin 2} {d : Station} {i : Fin 16} (found : d.findOut .reference .feeder (ch.val + 1) = some i) (v : Nat) :
    (d.writeFeeder ch v).dou = (d.setPreload i .feedController v).1.dou ∧
      (d.writeFeeder ch v).signals = (d.setPreload i .feedController v).1.signals := by
  unfold Station.writeFeeder
  rw [found]
  exact ⟨rfl, rfl⟩

theorem writeFeeder_elsewhere {ch : Fin 2} {d : Station} {i : Fin 16} (other : d.findOut .reference .feeder (ch.val + 1) ≠ some i)
    (v : Nat) : (d.writeFeeder ch v).dou.lines[i]'i.isLt = d.dou.lines[i]'i.isLt := by
  cases found : d.findOut .reference .feeder (ch.val + 1) with
  | none =>
    unfold Station.writeFeeder
    rw [found]
    rfl
  | some m =>
    obtain ⟨kind, own, -⟩ := feeder_line found
    rw [(writeFeeder_line found v).1]
    exact (setPreload_line kind own v).2 i fun e => other (e ▸ found)

theorem setPreload_small {i : Fin 16} {who : Owner} {d : Station} (kind : (d.dou.lines[i]'i.isLt).kind = .reference)
    (own : (d.dou.lines[i]'i.isLt).owner = who) {v : Nat} (nonzero : v ≠ 0) (written : (d.dou.lines[i]'i.isLt).firstWrite = false) :
    (d.setPreload i who v).1.dou.lines[i]'i.isLt = { d.dou.lines[i]'i.isLt with preload := min 4080 v } := by
  have some' : min 4080 v ≠ 0 := by omega
  have stored : ({ d.dou.lines[i]'i.isLt with preload := min 4080 v, firstWrite := (d.dou.lines[i]'i.isLt).firstWrite && min 4080 v == 0 } : OutLine) =
      { d.dou.lines[i]'i.isLt with preload := min 4080 v } :=
    congrArg (fun b => ({ d.dou.lines[i]'i.isLt with preload := min 4080 v, firstWrite := b } : OutLine)) (by rw [written]; rfl)
  have quiet : (d.onLine i (fun l => { l with preload := min 4080 v, firstWrite := l.firstWrite && min 4080 v == 0 })
      fun _ => none).dou.lines[i] = { d.dou.lines[i]'i.isLt with preload := min 4080 v } := (vecModify_same _ _ _).trans stored
  rw [setPreload_onLine kind own v]
  dsimp only
  by_cases forced : (d.dou.lines[i]'i.isLt).forced = true
  · rw [if_pos forced]
    exact quiet
  · rw [if_neg forced, if_neg some', if_neg (by rw [written]; exact Bool.false_ne_true)]
    exact quiet

theorem updateFine_written (ch : Fin 2) (k : FeedCfg) (d : Station) :
    FineWritten ch ((d.fdc.channels[ch]'ch.isLt).fine k) d (d.updateFine ch k) := by
  unfold Station.updateFine
  dsimp only
  generalize (d.fdc.channels[ch]'ch.isLt).fine k = v
  by_cases same : v = (d.fdc.channels[ch]'ch.isLt).lastFine
  · rw [if_pos same]
    exact ⟨by rw [same], fun _ _ => rfl, fun _ _ h => absurd same h, fun _ _ h => absurd same h, fun _ _ h => absurd same h,
      fun _ _ h => absurd same h, fun _ _ => rfl, fun _ => rfl, rfl⟩
  · rw [if_neg same]
    have rest := writeFeeder_rest ch v d
    have fdc : (d.writeFeeder ch v).fdc = (d.onFeed ch fun c => { c with lastFine := v }).fdc := by rw [rest]; rfl
    refine ⟨?_, fun j ne => ?_, fun i found _ nonzero written => ?_, fun i found _ zero => ?_, fun i found _ => ?_,
      fun i found _ zero free flows => ?_, fun i other => ?_, fun h => absurd h same, ?_⟩
    · rw [fdc]
      exact onFeed_channel ch _ d
    · rw [fdc]
      exact onFeed_other ne _ d
    · obtain ⟨kind, own, -⟩ := feeder_line found
      rw [(writeFeeder_line found v).1]
      exact setPreload_small kind own nonzero written
    · rw [zero, (writeFeeder_zero ch d).1, if_pos found]
    · obtain ⟨kind, own, -⟩ := feeder_line found
      rw [(writeFeeder_line found v).1]
      exact (setPreload_line kind own v).1
    · rw [zero]
      exact (writeFeeder_zero ch d).2 i found free flows
    · exact writeFeeder_elsewhere other v
    · conv_lhs => rw [rest]
      rw [fdc]
      rfl

/-! ## Silence, active values and seconds -/

/-- What NO SIGNAL of a weigher does to its channel (R125). -/
def Station.weigherSilenced (ch : Fin 2) (d : Station) : Station :=
  match (d.fdc.channels[ch]'ch.isLt).cfg with
  | none => d
  | some k =>
    if (d.fdc.channels[ch]'ch.isLt).state.turning then
      ((d.onFeed ch fun c => { c with openLoop := true }).report .weigherSilent (ch.val + 1) true).recomputeDelivered ch k
    else d

/-- What an active value change does to its channel (R122). -/
def Station.fineTaken (ch : Fin 2) (value : Nat) (d : Station) : Station :=
  match (d.fdc.channels[ch]'ch.isLt).cfg with
  | none => d
  | some k => (d.onFeed ch fun c => { c with activeFine := value }).recomputeDelivered ch k

/-- What a running second does to its channel (R134). -/
def Station.runningCounted (ch : Fin 2) (d : Station) : Station :=
  if (d.fdc.channels[ch]'ch.isLt).runningSecond.isNone then d
  else (d.onFeed ch fun c => { c with runningSecond := some (d.inSec 1) }).contribute (.runningSecond ch)

theorem exec_weigherNoSignal (ch : Fin 2) (s : State) :
    exec (.fdcWeigherNoSignal ch) s = act (.fdcWeigherNoSignal ch) (Station.weigherSilenced ch) s := rfl

theorem exec_fdcActiveValue (ch : Fin 2) (value : Nat) (cause : ChangeCause) (s : State) :
    exec (.fdcActiveValueChange ch value cause) s = act (.fdcActiveValueChange ch value cause) (Station.fineTaken ch value) s := rfl

theorem exec_runningSecond (ch : Fin 2) (s : State) :
    exec (.runningSecondTimerExpiry ch) s = act (.runningSecondTimerExpiry ch) (Station.runningCounted ch) s := rfl

section
variable {d : Station} {ch : Fin 2} {k : FeedCfg} (cfg : (d.fdc.channels[ch]'ch.isLt).cfg = some k)
include cfg

theorem weigherSilenced_turning (turning : (d.fdc.channels[ch]'ch.isLt).state.turning = true) : d.weigherSilenced ch =
    ((d.onFeed ch fun c => { c with openLoop := true }).report .weigherSilent (ch.val + 1) true).recomputeDelivered ch k := by
  unfold Station.weigherSilenced
  rw [cfg]
  exact if_pos turning

theorem weigherSilenced_idle (idle : ¬ (d.fdc.channels[ch]'ch.isLt).state.turning = true) : d.weigherSilenced ch = d := by
  unfold Station.weigherSilenced
  rw [cfg]
  exact if_neg idle

theorem fineTaken_eq (value : Nat) : d.fineTaken ch value =
    (d.onFeed ch fun c => { c with activeFine := value }).recomputeDelivered ch k := by
  unfold Station.fineTaken
  rw [cfg]

end

/-- What of the station a channel's own record and its feed part do not hold (R116). -/
structure FeedRecord (ch : Fin 2) (c : FeedChannel) (a b : Station) : Prop where
  channel : b.fdc.channels[ch]'ch.isLt = c
  others : ∀ j : Fin 2, j ≠ ch → b.fdc.channels[j]'j.isLt = a.fdc.channels[j]'j.isLt
  dou : b.dou = a.dou
  piu : b.piu = a.piu
  staged : a.feedDuty = true → b.lpc.staging.feed = some b.feedEntries
  only : FeedOnly a b

/-- A channel open-loop, told of and its heat estimated (R125). -/
theorem silenced_record (ch : Fin 2) (k : FeedCfg) (d : Station) (turning : (d.fdc.channels[ch]'ch.isLt).state.turning = true) :
    let x := ((d.onFeed ch fun c => { c with openLoop := true }).report .weigherSilent (ch.val + 1) true).recomputeDelivered ch k
    x.condition .weigherSilent (ch.val + 1) = true ∧
    FeedRecord ch { d.fdc.channels[ch]'ch.isLt with
      openLoop := true
      delivered := (d.fdc.channels[ch]'ch.isLt).activeFine * k.ratePerFine * (d.fdc.channels[ch]'ch.isLt).trim / 100000 *
        (d.fdc.channels[ch]'ch.isLt).cv / 3600 } d x := by
  have told := report_only .weigherSilent (ch.val + 1) true (d.onFeed ch fun c => { c with openLoop := true })
  have present := report_condition .weigherSilent (ch.val + 1) true (d.onFeed ch fun c => { c with openLoop := true })
  have only : FeedOnly d _ := (((FeedOnly.refl d).onFeed ch fun c => { c with openLoop := true }).report
    .weigherSilent (ch.val + 1) true).recomputeDelivered ch k
  have staged := recomputeDelivered_staged ch k
    ((d.onFeed ch fun c => { c with openLoop := true }).report .weigherSilent (ch.val + 1) true)
  have own := onFeed_channel ch (fun c => { c with openLoop := true }) d
  generalize (d.onFeed ch fun c => { c with openLoop := true }).report .weigherSilent (ch.val + 1) true = y at *
  have channel : y.fdc.channels[ch]'ch.isLt = { d.fdc.channels[ch]'ch.isLt with openLoop := true } := by rw [told.fdc]; exact own
  have rest := recomputed_rest ch k y
  refine ⟨(recomputed_condition ..).trans present, ?_, fun j ne => ?_, ?_, ?_, fun duty => staged (only.feedDuty.trans duty), only⟩
  · have heat (weigher : Bool) := deliveredNow_turning (c := { d.fdc.channels[ch]'ch.isLt with openLoop := true }) turning k weigher
    have silent (weigher : Bool) : ¬ (weigher && !true && (d.fdc.channels[ch]'ch.isLt).rateSeen) = true := by simp
    rw [recomputed_channel, channel]
    exact congrArg (fun h => ({ d.fdc.channels[ch]'ch.isLt with openLoop := true, delivered := h } : FeedChannel))
      ((heat _).trans (congrArg (fun rate => rate * (d.fdc.channels[ch]'ch.isLt).cv / 3600) (if_neg (silent _))))
  · rw [recomputed_other ne, told.fdc]
    exact onFeed_other ne _ d
  · rw [rest]
    exact told.dou
  · rw [rest]
    exact told.piu

/-- A record changed, and its heat with it (R122). -/
theorem recomputed_record (ch : Fin 2) (k : FeedCfg) (f : FeedChannel → FeedChannel) (d : Station) :
    let x := (d.onFeed ch f).recomputeDelivered ch k
    x.alm = d.alm ∧ x.signals = d.signals ∧
    FeedRecord ch { f (d.fdc.channels[ch]'ch.isLt) with delivered := (f (d.fdc.channels[ch]'ch.isLt)).deliveredNow k (d.hasWeigher ch) } d x := by
  intro x
  have rest : x = _ := recomputed_rest ch k (d.onFeed ch f)
  have only : FeedOnly d x := ((FeedOnly.refl d).onFeed ch f).recomputeDelivered ch k
  have staged : x.feedStaged := recomputeDelivered_staged ch k _
  refine ⟨by rw [rest]; rfl, by rw [rest]; rfl, ?_, fun j ne => (recomputed_other ne k _).trans (onFeed_other ne f d), by rw [rest]; rfl,
    by rw [rest]; rfl, fun duty => staged (only.feedDuty.trans duty), only⟩
  exact (recomputed_channel ch k (d.onFeed ch f)).trans (by rw [onFeed_channel]; rfl)

/-! ## The loss of the loop -/

/-- What left UP does to a channel (R129). -/
def Station.feedHeld (ch : Fin 2) (k : FeedCfg) (d : Station) : Station :=
  if (d.fdc.channels[ch]'ch.isLt).state = .running then (d.onFeed ch fun c => { c with state := .held }).recomputeDelivered ch k else d

/-- What the end of the loop grace does to a channel (R130). -/
def Station.feedRunDown (ch : Fin 2) (_ : FeedCfg) (d : Station) : Station :=
  if (d.fdc.channels[ch]'ch.isLt).state = .held then d.startRunDown ch else d

/-- What entered UP does to a channel (R131). -/
def Station.feedMarked (ch : Fin 2) (_ : FeedCfg) (d : Station) : Station :=
  if (d.fdc.channels[ch]'ch.isLt).state = .held then d.onFeed ch fun c => { c with reEvaluate := true } else d

/-- What the end of a run-down timer does to its channel (R130). -/
def Station.feedRanDown (ch : Fin 2) (d : Station) : Station :=
  match (d.fdc.channels[ch]'ch.isLt).cfg with
  | none => d
  | some k =>
    if (d.fdc.channels[ch]'ch.isLt).runDownTimer.isNone then d
    else
      let step := k.rampStep d.loopCfg.cycle
      let d := (d.onFeed ch fun c => { c with targetRate := c.targetRate - step }).updateFine ch k
      if (d.fdc.channels[ch]'ch.isLt).targetRate = 0 then d.restFeed .ready ch k else d.startRunDown ch

theorem exec_fdcLeftUp (s : State) : exec .fdcLeftUp s = act .fdcLeftUp (Station.eachFeed Station.feedHeld) s := rfl

theorem exec_fdcLoopGrace (s : State) :
    exec .fdcLoopGraceExpiry s = act .fdcLoopGraceExpiry (Station.eachFeed Station.feedRunDown) s := rfl

theorem exec_fdcEnteredUp (s : State) : exec .fdcEnteredUp s = act .fdcEnteredUp (Station.eachFeed Station.feedMarked) s := rfl

theorem exec_runDownTimer (ch : Fin 2) (s : State) :
    exec (.runDownTimerExpiry ch) s = act (.runDownTimerExpiry ch) (Station.feedRanDown ch) s := rfl

theorem feedHeld_apart (ch j : Fin 2) (k : FeedCfg) (x : Station) (ne : ch ≠ j) : FeedApart j x (x.feedHeld ch k) := by
  unfold Station.feedHeld
  split
  · exact ((FeedApart.refl j x).onFeed ne _).recomputeDelivered ne k
  · exact .refl j x

theorem feedRunDown_apart (ch j : Fin 2) (k : FeedCfg) (x : Station) (ne : ch ≠ j) : FeedApart j x (x.feedRunDown ch k) := by
  unfold Station.feedRunDown
  split
  · exact (FeedApart.refl j x).onFeed ne _
  · exact .refl j x

theorem feedMarked_apart (ch j : Fin 2) (k : FeedCfg) (x : Station) (ne : ch ≠ j) : FeedApart j x (x.feedMarked ch k) := by
  unfold Station.feedMarked
  split
  · exact (FeedApart.refl j x).onFeed ne _
  · exact .refl j x

/-- What of the station holding its channels leaves (R129). -/
def HoldsOnly (a x : Station) : Prop := x.dou = a.dou ∧ x.piu = a.piu ∧ x.alm = a.alm ∧ FeedOnly a x

theorem feedHeld_only {a x : Station} (h : HoldsOnly a x) (ch : Fin 2) (k : FeedCfg) : HoldsOnly a (x.feedHeld ch k) := by
  obtain ⟨dou, piu, alm, only⟩ := h
  unfold Station.feedHeld
  split
  · obtain ⟨alm', -, record⟩ := recomputed_record ch k (fun c => { c with state := .held }) x
    exact ⟨record.dou.trans dou, record.piu.trans piu, alm'.trans alm, only.trans record.only⟩
  · exact ⟨dou, piu, alm, only⟩

theorem feedHeld_staged (ch : Fin 2) (k : FeedCfg) (x : Station) (staged : x.feedStaged) : (x.feedHeld ch k).feedStaged := by
  unfold Station.feedHeld
  split
  · exact recomputeDelivered_staged ch k _
  · exact staged

/-- An operation on one channel's record alone, and only by its state, taken on each of them. -/
theorem eachFeed_record {f : Fin 2 → FeedCfg → Station → Station}
    (apart : ∀ (ch j : Fin 2) (k : FeedCfg) (x : Station), ch ≠ j → FeedApart j x (f ch k x))
    (rest : ∀ (ch : Fin 2) (k : FeedCfg) (x : Station), f ch k x = { x with fdc := (f ch k x).fdc }) (g : FeedChannel → FeedChannel)
    (d : Station)
    (own : ∀ (ch : Fin 2) (k : FeedCfg) (x : Station), x.now = d.now → x.cfg = d.cfg →
      (f ch k x).fdc.channels[ch]'ch.isLt = if (x.fdc.channels[ch]'ch.isLt).state = .held then g (x.fdc.channels[ch]'ch.isLt) else (x.fdc.channels[ch]'ch.isLt)) :
    d.eachFeed f = { d with fdc := (d.eachFeed f).fdc } ∧ ∀ ch : Fin 2, (d.eachFeed f).fdc.channels[ch]'ch.isLt =
      if (d.fdc.channels[ch]'ch.isLt).cfg.isSome ∧ (d.fdc.channels[ch]'ch.isLt).state = .held then g (d.fdc.channels[ch]'ch.isLt) else (d.fdc.channels[ch]'ch.isLt) := by
  refine ⟨?_, fun ch => ?_⟩
  · refine eachFeed_keeps (P := fun x => x = { d with fdc := x.fdc }) (fun ch k x h => ?_) rfl
    refine (rest ch k x).trans ?_
    generalize (f ch k x).fdc = y
    rw [h]
  · rcases Option.eq_none_or_eq_some (d.fdc.channels[ch]'ch.isLt).cfg with bare | ⟨k, cfg⟩
    · rw [(eachFeed_bare apart d bare).channel, bare, if_neg fun h => Bool.false_ne_true h.1]
    · obtain ⟨x, before, later⟩ := eachFeed_takes apart d cfg
      rw [later.channel, own ch k x before.only.now before.only.cfg, before.channel, cfg]
      exact if_congr (by simp) rfl rfl

end Sys2Proof.Machine

open Sys2Proof Sys2Proof.Machine in
/-- Settles O37: a silent weigher, an active value and a running second, each as a change of its channel's record. -/
theorem silenceActiveValuesAndSecondsAreTaken : Obligations.SilenceActiveValuesAndSecondsAreTaken := by
  intro ch s k cfg c silence turning
  refine ⟨fun turns => ?_, fun idle => ?_, ?_, fun e runs => ?_⟩
  · have turns := (turning_iff _).2 turns
    obtain ⟨present, record⟩ := silenced_record ch k (s.dev.take silence) turns
    exact .of_exec (exec_weigherNoSignal ch) (weigherSilenced_turning (d := s.dev.take silence) cfg turns)
      ⟨present, record.dou, record.piu, record.only, record.others, record.staged, record.channel⟩
  · exact exec_eq (exec_weigherNoSignal ch) (weigherSilenced_idle (d := s.dev.take silence) cfg (mt (turning_iff _).1 idle))
  · intro value cause cmd basis
    obtain ⟨alm, signals, record⟩ := recomputed_record ch k (fun c => { c with activeFine := value }) (s.dev.take cmd)
    refine .of_exec (exec_fdcActiveValue ch value cause) (fineTaken_eq (d := s.dev.take cmd) cfg value)
      ⟨record.dou, record.piu, alm, signals, record.only, record.others, record.staged, record.channel.trans ?_⟩
    rw [deliveredNow_eq]
    rfl
  · exact exec_eq (exec_runningSecond ch) (if_neg (by
      show ¬ c.runningSecond.isNone = true
      rw [runs]
      exact Bool.false_ne_true))
end

section
/-! SUPPORT. The run-down of a feed whose loop is lost (R129 to R131). -/

set_option Elab.async false

namespace Sys2Proof.Machine

/-- A reference line written 0 twice is as written once (R77, R78, R85). -/
theorem feederZero_again (now : Nat) (l : OutLine) : feederZero now (feederZero now l) = feederZero now l := by
  by_cases forced : l.forced = true
  · have once : feederZero now l = { l with preload := 0 } := if_pos forced
    rw [once]
    exact if_pos forced
  · have once : feederZero now l = { l with
        preload := 0, active := 0, step := 0, activeEnd := none, pin := l.inactiveLevel, position := 0
        patternEnd := some (now + l.intervalTicks) } := if_neg forced
    rw [once]
    exact if_neg forced

/-- The station with a channel's target rate changed. -/
def Station.rerated (ch : Fin 2) (rate : Nat) (d : Station) : Station := d.onFeed ch fun c => { c with targetRate := rate }

theorem rerated_channel (ch : Fin 2) (rate : Nat) (d : Station) :
    (d.rerated ch rate).fdc.channels[ch]'ch.isLt = { d.fdc.channels[ch]'ch.isLt with targetRate := rate } := onFeed_channel ch _ d

/-- What a channel's rest leaves, told from before its rate and its reference went to 0. -/
theorem FeedStopped.rerated {st : FeedState} {cause : FeedCause} {ch : Fin 2} {rate : Nat} {a y b : Station}
    (w : FineWritten ch 0 (a.rerated ch rate) y) (only : FeedOnly a y) (h : FeedStopped st cause ch y b) :
    FeedStopped st cause ch a b := by
  have now := only.now
  have channel : y.fdc.channels[ch]'ch.isLt = { a.fdc.channels[ch]'ch.isLt with targetRate := rate, lastFine := 0 } :=
    w.channel.trans (congrArg (fun c : FeedChannel => { c with lastFine := 0 }) (rerated_channel ch rate a))
  have last : ((a.rerated ch rate).fdc.channels[ch]'ch.isLt).lastFine = (a.fdc.channels[ch]'ch.isLt).lastFine :=
    (congrArg FeedChannel.lastFine (rerated_channel ch rate a)).trans rfl
  refine ⟨?_, fun j ne => ?_, fun i => ?_, fun i found free flows => ?_, fun i => ?_, h.silent, h.stalled, h.reversed,
    fun duty => h.staged (only.feedDuty.trans duty), only.trans h.rest⟩
  · rw [h.channel, channel]
  · rw [h.others j ne, w.others j ne]
    exact onFeed_other ne _ a
  · rw [h.feeder, only.findOut, now]
    by_cases found : a.findOut .reference .feeder (ch.val + 1) = some i
    · rw [if_pos found, if_pos found]
      by_cases same : 0 = ((a.rerated ch rate).fdc.channels[ch]'ch.isLt).lastFine
      · rw [w.stands same]
        rfl
      · rw [w.zero i found same rfl]
        exact feederZero_again a.now (a.dou.lines[i]'i.isLt)
    · rw [if_neg found, if_neg found]
      exact w.elsewhere i found
  · by_cases same : 0 = ((a.rerated ch rate).fdc.channels[ch]'ch.isLt).lastFine
    · have stood := w.stands same
      refine h.told i ((only.findOut ..).trans found) ?_ ?_ <;> rw [stood]
      · exact free
      · exact flows
    · exact h.rest.rest.signals.subset (w.told i found same rfl free flows)
  · have pairs : y.piu = a.piu := by rw [w.rest]; rfl
    rw [h.pair, only.findChannel, now, pairs]

/-- A channel whose run-down timer has ended, with its rate one step lower (R130). -/
theorem feedRanDown_eq {ch : Fin 2} {k : FeedCfg} {d : Station} {e : Nat} (cfg : (d.fdc.channels[ch]'ch.isLt).cfg = some k)
    (runs : (d.fdc.channels[ch]'ch.isLt).runDownTimer = some e) {rate : Nat}
    (next : rate = (d.fdc.channels[ch]'ch.isLt).targetRate - max 1 (k.rampRate * d.loopCfg.cycle / 1000)) :
    d.feedRanDown ch =
      let x := (d.rerated ch rate).updateFine ch k
      if rate = 0 then x.restFeed .ready ch k else x.startRunDown ch := by
  have lower : (d.onFeed ch fun c => { c with targetRate := c.targetRate - k.rampStep d.loopCfg.cycle }) = d.rerated ch rate :=
    congrArg (fun v => ({ d with fdc := { d.fdc with channels := v } } : Station)) (vecModify_of_eq _ _ _ _ (by rw [next]; rfl))
  have stays : (((d.rerated ch rate).updateFine ch k).fdc.channels[ch]'ch.isLt).targetRate = rate :=
    (congrArg FeedChannel.targetRate ((updateFine_written ch k (d.rerated ch rate)).channel)).trans
      (congrArg FeedChannel.targetRate (rerated_channel ch rate d))
  unfold Station.feedRanDown
  rw [cfg]
  dsimp only
  rw [if_neg (by rw [runs]; exact Bool.false_ne_true), lower, stays]

theorem rerated_fine (ch : Fin 2) (rate : Nat) (k : FeedCfg) (d : Station) : ((d.rerated ch rate).fdc.channels[ch]'ch.isLt).fine k =
    min k.maxFine (rate * 100000 / (k.ratePerFine * (d.fdc.channels[ch]'ch.isLt).trim)) := by
  unfold FeedChannel.fine
  rw [rerated_channel]

theorem rerated_only (ch : Fin 2) (rate : Nat) (k : FeedCfg) (d : Station) :
    FeedOnly d ((d.rerated ch rate).updateFine ch k) := ((FeedOnly.refl d).onFeed ch _).updateFine ch k

end Sys2Proof.Machine

open Sys2Proof Sys2Proof.Machine in
/-- Settles O38: the hold, the start of the run-down, its steps, and the mark for the next refresh. -/
theorem loopLossHoldsThenRunsTheFeedDown : Obligations.LoopLossHoldsThenRunsTheFeedDown := by
  refine ⟨fun s => .of_act exec_fdcLeftUp ?_, fun s => .of_act exec_fdcLoopGrace ?_, fun s => .of_act exec_fdcEnteredUp ?_, ?_⟩
  · let a := s.dev.take .fdcLeftUp
    obtain ⟨dou, piu, alm, only⟩ := eachFeed_keeps (P := HoldsOnly a) (fun ch k x h => feedHeld_only h ch k) (d := a)
      ⟨rfl, rfl, rfl, .refl a⟩
    refine ⟨dou, piu, alm, only, fun ch => ?_⟩
    intro c
    refine ⟨?_, fun still => ?_⟩
    · intro k cfg runs basis
      have held (x : Station) (before : FeedApart ch a x) : x.feedHeld ch k =
          (x.onFeed ch fun c => { c with state := .held }).recomputeDelivered ch k :=
        if_pos ((congrArg FeedChannel.state before.channel).trans runs)
      obtain ⟨x, before, later⟩ := eachFeed_takes feedHeld_apart a (ch := ch) cfg
      obtain ⟨-, -, record⟩ := recomputed_record ch k (fun c => { c with state := .held }) x
      refine ⟨?_, fun duty => ?_⟩
      · rw [later.channel, held x before, record.channel, before.channel, before.only.hasWeigher]
        exact congrArg (fun h => ({ c with state := .held, delivered := h } : FeedChannel))
          (deliveredNow_turning (c := { c with state := .held }) rfl k (a.hasWeigher ch))
      · exact eachFeed_staged feedHeld_apart feedHeld_staged (d := a) (ch := ch) cfg
          (fun x before => (held x before).symm ▸ recomputeDelivered_staged ch k _) (only.feedDuty.trans duty)
    · rcases Option.eq_none_or_eq_some c.cfg with bare | ⟨k, cfg⟩
      · exact (eachFeed_bare feedHeld_apart a (ch := ch) bare).channel
      · have other : c.state ≠ .running := still.resolve_left fun bare => nomatch cfg.symm.trans bare
        obtain ⟨x, before, later⟩ := eachFeed_takes feedHeld_apart a (ch := ch) cfg
        have stands : x.feedHeld ch k = x := if_neg fun h => other ((congrArg FeedChannel.state before.channel).symm.trans h)
        rw [later.channel, stands, before.channel]
        rfl
  · let a := s.dev.take .fdcLoopGraceExpiry
    refine eachFeed_record feedRunDown_apart (fun ch k x => ?_)
      (fun c => { c with runDown := true, runDownTimer := some (a.now + a.loopCfg.cycle * 1000) }) a fun ch k x now cfg => ?_
    · unfold Station.feedRunDown
      split <;> rfl
    · have cycle : x.loopCfg = a.loopCfg := by
        unfold Station.loopCfg
        rw [cfg]
      rw [← now, ← cycle]
      unfold Station.feedRunDown
      split
      · exact onFeed_channel ch _ x
      · rfl
  · let a := s.dev.take .fdcEnteredUp
    refine eachFeed_record feedMarked_apart (fun ch k x => ?_) (fun c => { c with reEvaluate := true }) a fun ch k x _ _ => ?_
    · unfold Station.feedMarked
      split <;> rfl
    · unfold Station.feedMarked
      split
      · exact onFeed_channel ch _ x
      · rfl
  · intro ch s k e cfg runs c rate
    let a := s.dev.take (.runDownTimerExpiry ch)
    have ran := feedRanDown_eq (d := a) cfg runs (rate := rate) rfl
    have only := rerated_only ch rate k a
    have written := updateFine_written ch k (a.rerated ch rate)
    rw [rerated_fine ch rate k a] at written
    have last : ((a.rerated ch rate).fdc.channels[ch]'ch.isLt).lastFine = c.lastFine :=
      (congrArg FeedChannel.lastFine (rerated_channel ch rate a)).trans rfl
    have others (j : Fin 2) (ne : j ≠ ch) : ((a.rerated ch rate).updateFine ch k).fdc.channels[j]'j.isLt = a.fdc.channels[j]'j.isLt :=
      (written.others j ne).trans (onFeed_other ne _ a)
    refine .of_act (exec_runDownTimer ch) ?_
    dsimp only at ran
    by_cases out : rate = 0
    · have nothing : min k.maxFine (rate * 100000 / (k.ratePerFine * (a.fdc.channels[ch]'ch.isLt).trim)) = 0 := by
        rw [out, Nat.zero_mul, Nat.zero_div, Nat.min_zero]
      rw [nothing] at written
      rw [if_pos out] at ran
      have rests := (restFeed_spec .ready ch k ((a.rerated ch rate).updateFine ch k) rfl).rerated written only
      rw [show Station.feedRanDown ch (s.dev.take (.runDownTimerExpiry ch)) = _ from ran]
      exact ⟨rests.rest, rests.others, fun _ => rests, fun h => absurd out h⟩
    · rw [if_neg out] at ran
      rw [show Station.feedRanDown ch (s.dev.take (.runDownTimerExpiry ch)) = _ from ran]
      have now : ((a.rerated ch rate).updateFine ch k).now = a.now := only.now
      have cycle : ((a.rerated ch rate).updateFine ch k).loopCfg = a.loopCfg := only.loopCfg
      have own := written.channel.trans (congrArg (fun c : FeedChannel => { c with
        lastFine := min k.maxFine (rate * 100000 / (k.ratePerFine * (a.fdc.channels[ch]'ch.isLt).trim)) }) (rerated_channel ch rate a))
      refine ⟨only.onFeed ch _, fun j ne => (onFeed_other ne _ _).trans (others j ne), fun h => absurd h out, fun _ => ?_⟩
      intro fine
      refine ⟨?_, fun i found => ⟨fun new some' first => ?_, fun new zero => ?_, fun new => ?_, fun same => ?_⟩⟩
      · refine (onFeed_channel ch _ _).trans ?_
        unfold Station.inMs
        rw [own, now, cycle]
        rfl
      · exact written.small i found (last ▸ new) some' first
      · exact written.zero i found (last ▸ new) zero
      · exact written.preload i found (last ▸ new)
      · show (((a.rerated ch rate).updateFine ch k).dou.lines[i]'i.isLt) = _
        rw [written.stands (same.trans last.symm)]
        rfl
end

section
/-! SUPPORT. The weigher's windows (R122 to R124). -/

set_option Elab.async false

namespace Sys2Proof.Machine

/-! ## A window in its steps -/

/-- A window's mass and heat counted (R123). -/
def Station.windowCounted (ch : Fin 2) (mass : Nat) (d : Station) : Station :=
  d.contribute (.fuel ch mass (mass * (d.fdc.channels[ch]'ch.isLt).cv / 1000))

/-- A weigher that is heard again (R125). -/
def Station.windowHeard (ch : Fin 2) (d : Station) : Station :=
  if (d.fdc.channels[ch]'ch.isLt).openLoop then
    (d.onFeed ch fun c => { c with openLoop := false }).report .weigherSilent (ch.val + 1) false
  else d

/-- A window's rate taken (R123). -/
def Station.windowRated (ch : Fin 2) (rate : Option Nat) (d : Station) : Station :=
  match rate with
  | some r => d.onFeed ch fun c => { c with measured := r, rateSeen := c.rateSeen || c.state.turning }
  | none => d

/-- The trim adjusted (R124). -/
def Station.windowTrimmed (ch : Fin 2) (k : FeedCfg) (trim : Nat) (d : Station) : Station :=
  (d.onFeed ch fun c => { c with trim := trim }).updateFine ch k

/-- What a window does to its channel (R123, R124). -/
def Station.weighed (ch : Fin 2) (ticks count : Nat) (overflow : Bool) (tb : Timebase) (d : Station) : Station :=
  match (d.fdc.channels[ch]'ch.isLt).cfg with
  | none => d
  | some k =>
    let c := d.fdc.channels[ch]'ch.isLt
    let mass := count * k.pulseWeight
    let rate := windowRate k.pulseWeight ticks count overflow tb
    let d := d.contribute (.fuel ch mass (mass * c.cv / 1000))
    let d := if c.openLoop then
        (d.onFeed ch fun c => { c with openLoop := false }).report .weigherSilent (ch.val + 1) false
      else d
    let d := match rate with
      | some r => d.onFeed ch fun c => { c with measured := r, rateSeen := c.rateSeen || c.state.turning }
      | none => d
    let d := match rate with
      | some r =>
        if c.state.turning && !c.openLoop && c.targetRate > 0 then
          (d.onFeed ch fun c => { c with trim := adjustTrim c.trim r c.targetRate }).updateFine ch k
        else d
      | none => d
    d.recomputeDelivered ch k

theorem exec_weigherWindow (ch : Fin 2) (ticks count : Nat) (overflow : Bool) (tb : Timebase) (s : State) :
    exec (.fdcWeigherWindow ch ticks count overflow tb) s =
      act (.fdcWeigherWindow ch ticks count overflow tb) (Station.weighed ch ticks count overflow tb) s := rfl

theorem windowRate_eq (pulse ticks count : Nat) (overflow : Bool) (tb : Timebase) :
    windowRate pulse ticks count overflow tb =
      if (!overflow && ticks != 0) = true then some (count * pulse * 3600000000 / (ticks * tbMicros tb)) else none := by
  unfold windowRate
  cases overflow with
  | true => rfl
  | false =>
    by_cases h : ticks = 0
    · rw [if_pos (by rw [h]; rfl), if_neg (by rw [h]; nofun)]
    · rw [if_neg (by simpa using h), if_pos (by simpa using h)]

/-- What an operation leaves of its channel's record and of the other channel's. -/
structure FeedLeft (ch : Fin 2) (c : FeedChannel) (a b : Station) : Prop where
  channel : b.fdc.channels[ch]'ch.isLt = c
  others : ∀ j : Fin 2, j ≠ ch → b.fdc.channels[j]'j.isLt = a.fdc.channels[j]'j.isLt
  only : FeedOnly a b

namespace FeedLeft
variable {ch : Fin 2} {c : FeedChannel} {a b : Station} (h : FeedLeft ch c a b)
include h

theorem onFeed (f : FeedChannel → FeedChannel) : FeedLeft ch (f c) a (b.onFeed ch f) :=
  ⟨(onFeed_channel ch f b).trans (congrArg f h.channel), fun j ne => (onFeed_other ne f b).trans (h.others j ne), h.only.onFeed ch f⟩

theorem report (k : CondKind) (n : Nat) (v : Bool) : FeedLeft ch c a (b.report k n v) := by
  have fdc := (report_only k n v b).fdc
  exact ⟨by rw [fdc]; exact h.channel, fun j ne => by rw [fdc]; exact h.others j ne, h.only.report k n v⟩

theorem contribute (x : Contribution) : FeedLeft ch c a (b.contribute x) := ⟨h.channel, h.others, h.only.contribute x⟩

theorem updateFine (k : FeedCfg) : FeedLeft ch { c with lastFine := c.fine k } a (b.updateFine ch k) := by
  have written := updateFine_written ch k b
  refine ⟨?_, fun j ne => (written.others j ne).trans (h.others j ne), h.only.updateFine ch k⟩
  rw [written.channel, h.channel]

theorem recomputeDelivered (k : FeedCfg) :
    FeedLeft ch { c with delivered := c.deliveredNow k (a.hasWeigher ch) } a (b.recomputeDelivered ch k) := by
  refine ⟨?_, fun j ne => (recomputed_other ne k b).trans (h.others j ne), h.only.recomputeDelivered ch k⟩
  rw [recomputed_channel, h.channel, h.only.hasWeigher]

end FeedLeft

theorem FeedLeft.refl (ch : Fin 2) (d : Station) : FeedLeft ch (d.fdc.channels[ch]'ch.isLt) d d := ⟨rfl, fun _ _ => rfl, .refl d⟩

/-- The record of a channel whose weigher is heard, with the window's rate if it gives one (R123). -/
def FeedChannel.rated (rate : Option Nat) (c : FeedChannel) : FeedChannel :=
  { c with
    openLoop := false
    measured := rate.getD c.measured
    rateSeen := c.rateSeen || (rate.isSome && c.state.turning) }

theorem windowHeard_left {ch : Fin 2} {c : FeedChannel} {a b : Station} (h : FeedLeft ch c a b) :
    FeedLeft ch { c with openLoop := false } a (b.windowHeard ch) := by
  unfold Station.windowHeard
  split
  · exact (h.onFeed fun c => { c with openLoop := false }).report ..
  · next closed =>
    have open' : c.openLoop = false := by
      rw [← h.channel]
      exact Bool.not_eq_true _ ▸ closed
    have same : ({ c with openLoop := false } : FeedChannel) = c := by rw [← open']
    rw [same]
    exact h

theorem windowHeard_condition (ch : Fin 2) (d : Station) : (d.windowHeard ch).condition .weigherSilent (ch.val + 1) =
    if (d.fdc.channels[ch]'ch.isLt).openLoop then false else d.condition .weigherSilent (ch.val + 1) := by
  unfold Station.windowHeard
  split
  · exact report_condition ..
  · rfl

theorem windowRated_left {ch : Fin 2} {c : FeedChannel} {a b : Station} (rate : Option Nat)
    (h : FeedLeft ch { c with openLoop := false } a b) : FeedLeft ch (c.rated rate) a (b.windowRated ch rate) := by
  cases rate with
  | none =>
    have same : c.rated none = { c with openLoop := false } := by
      unfold FeedChannel.rated
      rw [Option.getD_none, Option.isSome_none, Bool.false_and, Bool.or_false]
    rw [same]
    exact h
  | some r => exact h.onFeed fun c => { c with measured := r, rateSeen := c.rateSeen || c.state.turning }

theorem windowRated_alm (ch : Fin 2) (rate : Option Nat) (d : Station) : (d.windowRated ch rate).alm = d.alm := by
  cases rate <;> rfl

theorem updateFine_alm (ch : Fin 2) (k : FeedCfg) (d : Station) : (d.updateFine ch k).alm = d.alm := by
  rw [(updateFine_written ch k d).rest]

/-- The trim of a channel is adjusted by a window that gives a rate (R124). -/
def FeedChannel.trims (c : FeedChannel) : Bool := c.state.turning && !c.openLoop && decide (0 < c.targetRate)

/-- The station with a window counted, its weigher heard and its rate taken (R123). -/
def Station.windowTaken (ch : Fin 2) (mass : Nat) (rate : Option Nat) (d : Station) : Station :=
  ((d.windowCounted ch mass).windowHeard ch).windowRated ch rate

theorem windowTaken_left (ch : Fin 2) (mass : Nat) (rate : Option Nat) (d : Station) :
    FeedLeft ch ((d.fdc.channels[ch]'ch.isLt).rated rate) d (d.windowTaken ch mass rate) :=
  windowRated_left rate (windowHeard_left ((FeedLeft.refl ch d).contribute _))

theorem windowTaken_condition (ch : Fin 2) (mass : Nat) (rate : Option Nat) (d : Station) :
    (d.windowTaken ch mass rate).condition .weigherSilent (ch.val + 1) =
      if (d.fdc.channels[ch]'ch.isLt).openLoop then false else d.condition .weigherSilent (ch.val + 1) :=
  (condition_of_alm (windowRated_alm ch rate _) _ _).trans (windowHeard_condition ch (d.windowCounted ch mass))

theorem windowTaken_counted (ch : Fin 2) (mass : Nat) (rate : Option Nat) (d : Station) :
    .sruContribution (.fuel ch mass (mass * (d.fdc.channels[ch]'ch.isLt).cv / 1000)) ∈ (d.windowTaken ch mass rate).signals := by
  have only : FeedOnly (d.windowCounted ch mass) (d.windowTaken ch mass rate) :=
    (windowRated_left rate (windowHeard_left (FeedLeft.refl ch (d.windowCounted ch mass)))).only
  exact only.rest.signals.subset (List.mem_append_right _ (List.mem_singleton_self _))

section
variable {ch : Fin 2} {k : FeedCfg} {d : Station} (cfg : (d.fdc.channels[ch]'ch.isLt).cfg = some k)
include cfg

theorem weighed_eq (ticks count : Nat) (overflow : Bool) (tb : Timebase) : d.weighed ch ticks count overflow tb =
    let rate := windowRate k.pulseWeight ticks count overflow tb
    let x := d.windowTaken ch (count * k.pulseWeight) rate
    Station.recomputeDelivered ch k (match rate with
      | some r =>
        if (d.fdc.channels[ch]'ch.isLt).trims then
          (x.onFeed ch fun c => { c with trim := adjustTrim c.trim r c.targetRate }).updateFine ch k
        else x
      | none => x) := by
  unfold Station.weighed
  rw [cfg]
  rfl

theorem weighed_untrimmed {ticks count : Nat} {overflow : Bool} {tb : Timebase} {rate : Option Nat}
    (rated : windowRate k.pulseWeight ticks count overflow tb = rate)
    (untrimmed : rate = none ∨ (d.fdc.channels[ch]'ch.isLt).trims = false) : d.weighed ch ticks count overflow tb =
      (d.windowTaken ch (count * k.pulseWeight) rate).recomputeDelivered ch k := by
  rw [weighed_eq cfg, rated]
  cases rate with
  | none => rfl
  | some r =>
    dsimp only
    rw [if_neg (by rw [untrimmed.resolve_left nofun]; exact Bool.false_ne_true)]

theorem weighed_trimmed {ticks count : Nat} {overflow : Bool} {tb : Timebase} {r : Nat}
    (rated : windowRate k.pulseWeight ticks count overflow tb = some r)
    (trims : (d.fdc.channels[ch]'ch.isLt).trims = true) : d.weighed ch ticks count overflow tb =
      (((d.windowTaken ch (count * k.pulseWeight) (some r)).onFeed ch fun c =>
        { c with trim := adjustTrim c.trim r c.targetRate }).updateFine ch k).recomputeDelivered ch k := by
  rw [weighed_eq cfg, rated]
  dsimp only
  rw [if_pos trims]

end

/-! ## The record after a window -/

theorem turning_eq (st : FeedState) : st.turning = (st == .running || st == .held) := by cases st <;> rfl

section
variable (c : FeedChannel) (k : FeedCfg) (weigher : Bool)

theorem rated_eq (rated : Bool) (rate : Nat) : c.rated (if rated = true then some rate else none) = { c with
    openLoop := false, measured := if rated = true then rate else c.measured
    rateSeen := c.rateSeen || (rated && c.state.turning) } := by
  cases rated <;> rfl

/-- The heat of a channel whose weigher is heard (R122). -/
theorem heard_delivered {c : FeedChannel} (heard : c.openLoop = false) : c.deliveredNow k weigher =
    if c.state.turning then (if weigher && c.rateSeen then c.measured
      else c.activeFine * k.ratePerFine * c.trim / 100000) * c.cv / 3600 else 0 := by
  have basis : c.measuredBasis weigher = (weigher && c.rateSeen) := by
    unfold FeedChannel.measuredBasis
    rw [heard, Bool.not_false, Bool.and_true]
  unfold FeedChannel.deliveredNow FeedChannel.basis FeedChannel.estimated
  rw [basis]

/-- The record after a window that adjusts no trim (R122, R123). -/
theorem window_record (rated : Bool) (rate trim : Nat) (same : trim = c.trim) :
    let turning : Bool := c.state == .running || c.state == .held
    let measured := if rated = true then rate else c.measured
    let seen := c.rateSeen || (rated && turning)
    let basis := if (weigher && seen) = true then measured else c.activeFine * k.ratePerFine * trim / 100000
    ({ c.rated (if rated = true then some rate else none) with
      delivered := (c.rated (if rated = true then some rate else none)).deliveredNow k weigher } : FeedChannel) =
    { c with
      openLoop := false, measured := measured, rateSeen := seen
      delivered := if turning = true then basis * c.cv / 3600 else 0 } := by
  rw [heard_delivered k weigher rfl, rated_eq, turning_eq, same]

/-- The record after a window that adjusts the trim (R122 to R124). -/
theorem trimmed_record (rate trim fine : Nat) (turns : c.state.turning = true) (adjusted : adjustTrim c.trim rate c.targetRate = trim)
    (follows : min k.maxFine (c.targetRate * 100000 / (k.ratePerFine * trim)) = fine) :
    let seen := c.rateSeen || (true && (c.state == .running || c.state == .held))
    let basis := if (weigher && seen) = true then rate else c.activeFine * k.ratePerFine * trim / 100000
    let x : FeedChannel := { c.rated (some rate) with trim := adjustTrim (c.rated (some rate)).trim rate (c.rated (some rate)).targetRate }
    let y : FeedChannel := { x with lastFine := x.fine k }
    ({ y with delivered := y.deliveredNow k weigher } : FeedChannel) =
    { c with
      openLoop := false, measured := rate, rateSeen := seen, trim := trim, lastFine := fine
      delivered := basis * c.cv / 3600 } := by
  intro seen basis x y
  have hx : x = { c with
      openLoop := false, measured := rate, rateSeen := seen, trim := trim } := by
    show ({ c with
      openLoop := false, measured := rate, rateSeen := c.rateSeen || (true && c.state.turning)
      trim := adjustTrim c.trim rate c.targetRate } : FeedChannel) = _
    rw [turning_eq, adjusted]
  have hf : x.fine k = fine := by
    rw [hx]
    exact follows
  have hy : y = { c with
      openLoop := false, measured := rate, rateSeen := seen, trim := trim, lastFine := fine } := by
    show ({ x with lastFine := x.fine k } : FeedChannel) = _
    rw [hf, hx]
  have heat := heard_delivered k weigher (c := { c with
      openLoop := false, measured := rate, rateSeen := seen, trim := trim, lastFine := fine }) rfl
  rw [hy]
  exact congrArg (fun h => ({ c with
      openLoop := false, measured := rate, rateSeen := seen, trim := trim, lastFine := fine, delivered := h } : FeedChannel))
    (heat.trans (if_pos turns))

end

end Sys2Proof.Machine

open Sys2Proof Sys2Proof.Machine in
/-- Settles O35: the window's mass counted, its rate taken where it gives one, and the trim adjusted where the channel turns by it. -/
theorem weigherWindowsCountMassAndAdjustTheTrim : Obligations.WeigherWindowsCountMassAndAdjustTheTrim := by
  intro ch ticks count overflow tb s k cfg cmd c mass turning rated rate moved trim fine measured seen basis
  let d := s.dev.take cmd
  have gives : windowRate k.pulseWeight ticks count overflow tb = if rated = true then some rate else none :=
    windowRate_eq k.pulseWeight ticks count overflow tb
  let taken (r : Option Nat) := d.windowTaken ch mass r
  have left (r : Option Nat) : FeedLeft ch (c.rated r) d (taken r) := windowTaken_left ch mass r d
  have silent (r : Option Nat) : (taken r).condition .weigherSilent (ch.val + 1) = _ := windowTaken_condition ch mass r d
  have counted (r : Option Nat) := windowTaken_counted ch mass r d
  by_cases adjusts : (rated && turning && !c.openLoop && decide (0 < c.targetRate)) = true
  · obtain ⟨⟨⟨isRated, turns⟩, closed⟩, flows⟩ :
        ((rated = true ∧ turning = true) ∧ (!c.openLoop) = true) ∧ decide (0 < c.targetRate) = true := by
      simpa only [Bool.and_eq_true] using adjusts
    have turns' : c.state.turning = true := (turning_eq c.state).trans turns
    have trims : c.trims = true := by
      unfold FeedChannel.trims
      rw [turns', closed, flows]
      rfl
    have whole := weighed_trimmed (d := d) cfg (gives.trans (if_pos isRated)) trims
    let x := (taken (some rate)).onFeed ch fun c => { c with trim := adjustTrim c.trim rate c.targetRate }
    have adjusted : adjustTrim c.trim rate c.targetRate = trim := by
      show _ = if _ then _ else _
      rw [if_pos adjusts]
      rfl
    have before := (left (some rate)).onFeed fun c => { c with trim := adjustTrim c.trim rate c.targetRate }
    have after := (before.updateFine k).recomputeDelivered k
    have written := updateFine_written ch k x
    have mine : (x.fdc.channels[ch]'ch.isLt).fine k = fine := by
      rw [show (x.fdc.channels[ch]'ch.isLt) = _ from before.channel]
      exact congrArg (fun t => min k.maxFine (c.targetRate * 100000 / (k.ratePerFine * t))) adjusted
    have last : (x.fdc.channels[ch]'ch.isLt).lastFine = c.lastFine := (congrArg FeedChannel.lastFine before.channel).trans rfl
    refine .of_exec (exec_weigherWindow ch ticks count overflow tb) whole ⟨?_, ?_, after.only, after.others, fun duty => ?_,
      fun h => absurd (h.symm.trans adjusts) Bool.false_ne_true, fun _ => ⟨?_, fun i found new => ?_⟩⟩
    · have later : FeedOnly (taken (some rate)) ((x.updateFine ch k).recomputeDelivered ch k) :=
        (((FeedOnly.refl (taken (some rate))).onFeed ch fun c =>
          { c with trim := adjustTrim c.trim rate c.targetRate }).updateFine ch k).recomputeDelivered ch k
      exact later.rest.signals.subset (counted (some rate))
    · exact (recomputed_condition ..).trans ((condition_of_alm (updateFine_alm ch k x) _ _).trans (silent (some rate)))
    · exact recomputeDelivered_staged ch k _ (after.only.feedDuty.trans duty)
    · have record := trimmed_record c k (d.hasWeigher ch) rate trim fine turns' adjusted rfl
      refine after.channel.trans (record.trans ?_)
      show _ = ({ c with
        openLoop := false, measured := if rated = true then rate else c.measured, rateSeen := seen, trim := trim, lastFine := fine
        delivered := (if (s.dev.hasWeigher ch && seen) = true then (if rated = true then rate else c.measured)
          else c.activeFine * k.ratePerFine * trim / 100000) * c.cv / 3600 } : FeedChannel)
      have seen' : (c.rateSeen || (true && (c.state == .running || c.state == .held))) = seen := by
        show _ = (c.rateSeen || (rated && turning))
        rw [isRated]
      rw [if_pos isRated, seen']
      rfl
    · rw [mine] at written
      have preload := written.preload i ((before.only.findOut ..).trans found) (fun h => new (h.trans last))
      rw [recomputed_rest]
      exact preload
  · have off : (rated && turning && !c.openLoop && decide (0 < c.targetRate)) = false := Bool.not_eq_true _ ▸ adjusts
    have untrimmed : (if rated = true then some rate else none) = none ∨ c.trims = false := by
      by_cases isRated : rated = true
      · refine .inr ?_
        rw [isRated, Bool.true_and] at off
        exact (congrArg (fun t => t && !c.openLoop && decide (0 < c.targetRate)) (turning_eq c.state)).trans off
      · exact .inl (if_neg isRated)
    have whole := weighed_untrimmed (d := d) cfg gives untrimmed
    have after := (left (if rated = true then some rate else none)).recomputeDelivered k
    have stays : trim = c.trim := if_neg adjusts
    refine .of_exec (exec_weigherWindow ch ticks count overflow tb) whole ⟨?_, ?_, after.only, after.others, fun duty => ?_,
      fun _ => ?_, fun h => absurd h adjusts⟩
    · exact ((FeedOnly.refl _).recomputeDelivered ch k).rest.signals.subset (counted _)
    · exact (recomputed_condition ..).trans (silent _)
    · exact recomputeDelivered_staged ch k _ (after.only.feedDuty.trans duty)
    · exact after.channel.trans (window_record c k (d.hasWeigher ch) rated rate trim stays)
end

section
/-! SUPPORT. The refresh of the feed in its steps, for one channel (R117 to R122, R126, R127, R131, R133). -/

set_option Elab.async false

namespace Sys2Proof.Machine

/-! ## What a step leaves beside the record -/

/-- An operation leaves a channel's line, its pair and its conditions, whatever it makes of the record. -/
structure FeedAside (ch : Fin 2) (a b : Station) : Prop where
  only : FeedOnly a b
  line : ∀ i : Fin 16, a.findOut .reference .feeder (ch.val + 1) = some i → b.dou.lines[i]'i.isLt = a.dou.lines[i]'i.isLt
  pair : ∀ i : Fin 8, a.findChannel .encoder (ch.val + 1) = some i → b.piu.channels[i]'i.isLt = a.piu.channels[i]'i.isLt
  conds : ∀ k : CondKind, b.condition k (ch.val + 1) = a.condition k (ch.val + 1)

theorem FeedApart.aside {ch : Fin 2} {a b : Station} (h : FeedApart ch a b) : FeedAside ch a b := ⟨h.only, h.line, h.pair, h.conds⟩

namespace FeedAside
variable {ch : Fin 2} {a b c : Station}

theorem refl (ch : Fin 2) (d : Station) : FeedAside ch d d := (FeedApart.refl ch d).aside

theorem trans (h : FeedAside ch a b) (k : FeedAside ch b c) : FeedAside ch a c :=
  ⟨h.only.trans k.only, fun i found => (k.line i ((h.only.findOut ..).trans found)).trans (h.line i found),
    fun i found => (k.pair i ((h.only.findChannel ..).trans found)).trans (h.pair i found),
    fun x => (k.conds x).trans (h.conds x)⟩

theorem onFeed (h : FeedAside ch a b) (f : FeedChannel → FeedChannel) : FeedAside ch a (b.onFeed ch f) :=
  ⟨h.only.onFeed ch f, h.line, h.pair, h.conds⟩

theorem recomputeDelivered (h : FeedAside ch a b) (k : FeedCfg) : FeedAside ch a (b.recomputeDelivered ch k) := by
  have only := h.only.recomputeDelivered ch k
  rw [recomputed_rest] at *
  exact ⟨only, h.line, h.pair, h.conds⟩

theorem stageFeed (h : FeedAside ch a b) : FeedAside ch a b.stageFeed := by
  have only := h.only.stageFeed
  rw [stageFeed_rest] at *
  exact ⟨only, h.line, h.pair, h.conds⟩

end FeedAside

/-- A configured channel has its operation between what is done to the other, and what all of them keep holds when it comes. -/
theorem eachFeed_comes {f : Fin 2 → FeedCfg → Station → Station}
    (apart : ∀ (ch j : Fin 2) (k : FeedCfg) (x : Station), ch ≠ j → FeedApart j x (f ch k x)) {P : Station → Prop}
    (keeps : ∀ ch k x, P x → P (f ch k x)) {d : Station} (holds : P d) {ch : Fin 2} {k : FeedCfg}
    (cfg : (d.fdc.channels[ch]'ch.isLt).cfg = some k) : ∃ x, P x ∧ FeedApart ch d x ∧ FeedApart ch (f ch k x) (d.eachFeed f) := by
  have step (ch : Fin 2) (x : Station) (hx : P x) : P (x.feedStep f ch) := by
    unfold Station.feedStep
    split
    · exact keeps _ _ _ hx
    · exact hx
  rw [eachFeed_eq]
  match ch, cfg with
  | 0, cfg =>
    rw [feedStep_some cfg]
    exact ⟨d, holds, .refl 0 d, feedStep_apart apart (by decide) _⟩
  | 1, cfg =>
    have before := feedStep_apart apart (ch := 0) (j := 1) (by decide) d
    rw [feedStep_some (ch := 1) ((congrArg FeedChannel.cfg before.channel).trans cfg)]
    exact ⟨_, step 0 d holds, before, .refl 1 _⟩

/-! ## Step 1: the calorific value (R133) -/

/-- A channel's calorific value as a refresh takes it. -/
def FeedChannel.cvNext (c : FeedChannel) : Nat := c.cvPreload.getD c.cv

/-- A channel's capacity as a refresh takes it. -/
def FeedChannel.capacityNext (k : FeedCfg) (c : FeedChannel) : Nat := if c.cvPreload.isSome then k.maxRate * c.cvNext / 3600 else c.capacity

/-- A channel's record after its calorific value was taken (R133). -/
def FeedChannel.cvTaken (k : FeedCfg) (weigher : Bool) (c : FeedChannel) : FeedChannel :=
  { c with
    cv := c.cvNext, cvPreload := none, capacity := c.capacityNext k
    delivered := if c.cvPreload.isSome then FeedChannel.deliveredNow k weigher { c with cv := c.cvNext } else c.delivered }

theorem takeCv_record (ch : Fin 2) (k : FeedCfg) (d : Station) :
    (d.takeCv ch k).fdc.channels[ch]'ch.isLt = (d.fdc.channels[ch]'ch.isLt).cvTaken k (d.hasWeigher ch) ∧ FeedAside ch d (d.takeCv ch k) ∧
    (d.takeCv ch k).dou = d.dou ∧ (d.takeCv ch k).piu = d.piu ∧ (d.takeCv ch k).alm = d.alm := by
  unfold Station.takeCv
  rcases Option.eq_none_or_eq_some (d.fdc.channels[ch]'ch.isLt).cvPreload with waits | ⟨cv, waits⟩
  · rw [waits]
    refine ⟨?_, .refl ch d, rfl, rfl, rfl⟩
    unfold FeedChannel.cvTaken FeedChannel.capacityNext FeedChannel.cvNext
    rw [waits]
    show (d.fdc.channels[ch]'ch.isLt) = { d.fdc.channels[ch]'ch.isLt with cvPreload := none }
    rw [← waits]
  · rw [waits]
    dsimp only
    have record := recomputed_record ch k (fun c => { c with cv := cv, cvPreload := none, capacity := k.capacityAt cv }) d
    refine ⟨?_, ((FeedAside.refl ch d).onFeed _).recomputeDelivered k, record.2.2.dou, record.2.2.piu, record.1⟩
    rw [record.2.2.channel]
    unfold FeedChannel.cvTaken FeedChannel.capacityNext FeedChannel.cvNext
    rw [waits]
    rfl

theorem takeCv_apart (ch j : Fin 2) (k : FeedCfg) (x : Station) (ne : ch ≠ j) : FeedApart j x (x.takeCv ch k) := by
  unfold Station.takeCv
  split
  · exact .refl j x
  · exact ((FeedApart.refl j x).onFeed ne _).recomputeDelivered ne k

/-! ## Step 2: the channels moved (R119, R126, R127, R131) -/

/-- The state that a refresh brings a channel to. -/
def FeedChannel.next (alight back : Bool) (c : FeedChannel) : FeedState :=
  match c.state with
  | .ready => if alight then .running else .ready
  | .running => if alight = false then .ready else if back then .fault else .running
  | .held => if c.reEvaluate = false then .held else if alight then .running else .ready
  | x => x

/-- The channel is stopped, enters RUNNING, enters it from READY, or was held for judgement. -/
def FeedChannel.stops (st : FeedState) (c : FeedChannel) : Bool :=
  (c.state == .running || c.state == .held) && (st == .ready || st == .fault)
def FeedChannel.enters (st : FeedState) (c : FeedChannel) : Bool := c.state != .running && st == .running
def FeedChannel.begins (st : FeedState) (c : FeedChannel) : Bool := c.enters st && c.state == .ready
def FeedChannel.judged (c : FeedChannel) : Bool := c.state == .held && c.reEvaluate

/-- The heat of a channel that turns, as it enters RUNNING (R122). -/
def FeedChannel.heatSeen (k : FeedCfg) (weigher seen : Bool) (c : FeedChannel) : Nat :=
  (if weigher && !c.openLoop && seen then c.measured else c.activeFine * k.ratePerFine * c.trim / 100000) * c.cv / 3600

/-- A channel's record after the floor image moved it to a state. -/
def FeedChannel.movedTo (k : FeedCfg) (weigher : Bool) (now : Nat) (st : FeedState) (c : FeedChannel) : FeedChannel :=
  { c with
    state := st
    cause := if c.stops st then (if st = .fault then .feederReverse else .none) else c.cause
    targetHeat := if c.stops st then 0 else c.targetHeat
    massGoal := if c.stops st then 0 else c.massGoal
    targetRate := if c.stops st || c.begins st then 0 else c.targetRate
    lastFine := if c.stops st then 0 else c.lastFine
    rateSeen := c.rateSeen && !c.begins st
    openLoop := c.openLoop && !c.stops st
    delivered := if c.stops st then 0 else if c.enters st then c.heatSeen k weigher (c.rateSeen && !c.begins st) else c.delivered
    runDown := c.runDown && !c.stops st && !c.judged
    reEvaluate := c.reEvaluate && !c.stops st && !c.judged
    runDownTimer := if c.stops st || c.judged then none else c.runDownTimer
    runningSecond := if c.begins st then some (now + 1000000) else if c.stops st then none else c.runningSecond }

/-- A channel has been moved to a state (R119). -/
structure FeedMoved (ch : Fin 2) (k : FeedCfg) (st : FeedState) (a b : Station) : Prop where
  only : FeedOnly a b
  channel : b.fdc.channels[ch]'ch.isLt = (a.fdc.channels[ch]'ch.isLt).movedTo k (a.hasWeigher ch) a.now st
  line : ∀ i : Fin 16, a.findOut .reference .feeder (ch.val + 1) = some i →
    b.dou.lines[i]'i.isLt = if (a.fdc.channels[ch]'ch.isLt).stops st then feederZero a.now (a.dou.lines[i]'i.isLt) else (a.dou.lines[i]'i.isLt)
  pair : ∀ i : Fin 8, a.findChannel .encoder (ch.val + 1) = some i → b.piu.channels[i]'i.isLt =
    if (a.fdc.channels[ch]'ch.isLt).stops st then stallWritten a.now 0 (a.piu.channels[i]'i.isLt)
    else if (a.fdc.channels[ch]'ch.isLt).enters st then stallWritten a.now k.stall (a.piu.channels[i]'i.isLt)
    else (a.piu.channels[i]'i.isLt)
  conds : (a.fdc.channels[ch]'ch.isLt).stops st = true → b.condition .weigherSilent (ch.val + 1) = false ∧
    b.condition .feederStall (ch.val + 1) = false ∧ b.condition .feederReverse (ch.val + 1) = (st == .fault)
  fault : (a.fdc.channels[ch]'ch.isLt).stops st = true → st = .fault →
    .sruContribution (.feedFault ch) ∈ b.signals ∧ b.ppt.events &&& 16 = 16

section
variable {ch : Fin 2} {k : FeedCfg} {d : Station}

/-- A channel that stands where it is. -/
theorem feedMoved_stands {st : FeedState} (same : (d.fdc.channels[ch]'ch.isLt).state = st) (unjudged : (d.fdc.channels[ch]'ch.isLt).judged = false) :
    FeedMoved ch k st d d := by
  have stops : (d.fdc.channels[ch]'ch.isLt).stops st = false := by
    unfold FeedChannel.stops
    rw [same]
    cases st <;> rfl
  have enters : (d.fdc.channels[ch]'ch.isLt).enters st = false := by
    unfold FeedChannel.enters
    rw [same]
    cases st <;> rfl
  have begins : (d.fdc.channels[ch]'ch.isLt).begins st = false := by
    unfold FeedChannel.begins
    rw [enters, Bool.false_and]
  refine ⟨.refl d, ?_, fun i _ => ?_, fun i _ => ?_, fun h => absurd (stops.symm.trans h) Bool.false_ne_true,
    fun h => absurd (stops.symm.trans h) Bool.false_ne_true⟩
  · unfold FeedChannel.movedTo
    rw [stops, begins, enters, unjudged, ← same]
    simp
  · rw [stops]
    rfl
  · rw [stops, enters]
    rfl

/-- A channel that enters RUNNING with its record changed by the way. -/
theorem feedMoved_enters {f : FeedChannel → FeedChannel} (enters : (d.fdc.channels[ch]'ch.isLt).enters .running = true)
    (record : FeedChannel.movedTo k (d.hasWeigher ch) d.now .running (d.fdc.channels[ch]'ch.isLt) =
      { f (d.fdc.channels[ch]'ch.isLt) with delivered := (f (d.fdc.channels[ch]'ch.isLt)).deliveredNow k (d.hasWeigher ch) }) :
    FeedMoved ch k .running d (((d.onFeed ch f).writeStall ch k.stall).recomputeDelivered ch k) := by
  have stops : (d.fdc.channels[ch]'ch.isLt).stops .running = false := by
    unfold FeedChannel.stops
    exact Bool.and_false _
  have only : FeedOnly d (((d.onFeed ch f).writeStall ch k.stall).recomputeDelivered ch k) :=
    (((FeedOnly.refl d).onFeed ch f).writeStall ch k.stall).recomputeDelivered ch k
  have rest := writeStall_rest ch k.stall (d.onFeed ch f)
  have whole := recomputed_rest ch k ((d.onFeed ch f).writeStall ch k.stall)
  refine ⟨only, ?_, fun i _ => ?_, fun i found => ?_, fun h => absurd (stops.symm.trans h) Bool.false_ne_true,
    fun h => absurd (stops.symm.trans h) Bool.false_ne_true⟩
  · have own : ((d.onFeed ch f).writeStall ch k.stall).fdc.channels[ch]'ch.isLt = f (d.fdc.channels[ch]'ch.isLt) := by
      rw [rest]
      exact onFeed_channel ch f d
    have weigher : ((d.onFeed ch f).writeStall ch k.stall).hasWeigher ch = d.hasWeigher ch :=
      (((FeedOnly.refl d).onFeed ch f).writeStall ch k.stall).hasWeigher ch
    rw [recomputed_channel, own, weigher, record]
  · rw [whole, stops]
    show (((d.onFeed ch f).writeStall ch k.stall).dou.lines[i]'i.isLt) = _
    rw [rest]
    rfl
  · rw [whole, stops, enters]
    show (((d.onFeed ch f).writeStall ch k.stall).piu.channels[i]'i.isLt) = _
    exact (writeStall_channels ch k.stall (d.onFeed ch f) i).trans (if_pos found)

/-- A channel that stops with its record changed by the way. -/
theorem feedMoved_stops {f : FeedChannel → FeedChannel} {st : FeedState} {cause : FeedCause} {b : Station}
    (stops : (d.fdc.channels[ch]'ch.isLt).stops st = true) (h : FeedStopped st cause ch (d.onFeed ch f) b)
    (named : (st = .ready ∧ cause = .none) ∨ (st = .fault ∧ cause = .feederReverse))
    (record : FeedChannel.movedTo k (d.hasWeigher ch) d.now st (d.fdc.channels[ch]'ch.isLt) = { f (d.fdc.channels[ch]'ch.isLt) with
      state := st, cause := cause, targetHeat := 0, massGoal := 0, targetRate := 0, lastFine := 0, delivered := 0
      openLoop := false, runDown := false, reEvaluate := false, runDownTimer := none, runningSecond := none })
    (told : st = .fault → .sruContribution (.feedFault ch) ∈ b.signals ∧ b.ppt.events &&& 16 = 16) : FeedMoved ch k st d b := by
  have conds : (st == .fault && cause == .feederStall) = false ∧ (st == .fault && cause == .feederReverse) = (st == .fault) := by
    rcases named with ⟨rfl, rfl⟩ | ⟨rfl, rfl⟩ <;> exact ⟨rfl, rfl⟩
  refine ⟨((FeedOnly.refl d).onFeed ch f).trans h.rest, ?_, fun i found => ?_, fun i found => ?_,
    fun _ => ⟨h.silent, h.stalled.trans conds.1, h.reversed.trans conds.2⟩, fun _ => told⟩
  · rw [h.channel, onFeed_channel, record]
  · rw [stops]
    exact (h.feeder i).trans (if_pos found)
  · rw [stops]
    exact (h.pair i).trans (if_pos found)

end

end Sys2Proof.Machine
end

section
/-! SUPPORT. Each move of a feed channel at a refresh, and the target it takes (R117 to R121, R127, R131). -/

set_option Elab.async false

namespace Sys2Proof.Machine

/-! ## The marks of a move by the state it finds -/

section
variable {c : FeedChannel}

theorem moves_ready (h : c.state = .ready) : c.stops .running = false ∧ c.enters .running = true ∧ c.begins .running = true ∧
    c.judged = false := by
  unfold FeedChannel.begins FeedChannel.stops FeedChannel.enters FeedChannel.judged
  rw [h]
  exact ⟨rfl, rfl, rfl, rfl⟩

theorem moves_held (h : c.state = .held) (mark : c.reEvaluate = true) : c.stops .running = false ∧ c.enters .running = true ∧
    c.begins .running = false ∧ c.judged = true := by
  unfold FeedChannel.begins FeedChannel.stops FeedChannel.enters FeedChannel.judged
  rw [h, mark]
  exact ⟨rfl, rfl, rfl, rfl⟩

theorem moves_out {st : FeedState} (h : c.state = .running ∨ c.state = .held) (ends : st = .ready ∨ st = .fault) :
    c.stops st = true ∧ c.enters st = false ∧ c.begins st = false := by
  unfold FeedChannel.begins FeedChannel.stops FeedChannel.enters
  rcases h with h | h <;> rcases ends with rfl | rfl <;> rw [h] <;> exact ⟨rfl, rfl, rfl⟩

variable (k : FeedCfg) (weigher : Bool) (now : Nat)

theorem movedTo_begun (h : c.state = .ready) : c.movedTo k weigher now .running = { c with
    state := .running, targetRate := 0, rateSeen := false, delivered := c.heatSeen k weigher false
    runningSecond := some (now + 1000000) } := by
  obtain ⟨stops, enters, begins, judged⟩ := moves_ready h
  unfold FeedChannel.movedTo
  rw [stops, enters, begins, judged]
  simp

theorem movedTo_resumed (h : c.state = .held) (mark : c.reEvaluate = true) : c.movedTo k weigher now .running = { c with
    state := .running, reEvaluate := false, runDown := false, runDownTimer := none
    delivered := c.heatSeen k weigher c.rateSeen } := by
  obtain ⟨stops, enters, begins, judged⟩ := moves_held h mark
  unfold FeedChannel.movedTo
  rw [stops, enters, begins, judged]
  simp

theorem movedTo_out {st : FeedState} (h : c.state = .running ∨ c.state = .held) (ends : st = .ready ∨ st = .fault) :
    c.movedTo k weigher now st = { c with
      state := st, cause := if st = .fault then .feederReverse else .none, targetHeat := 0, massGoal := 0, targetRate := 0
      lastFine := 0, delivered := 0, openLoop := false, runDown := false, reEvaluate := false, runDownTimer := none
      runningSecond := none } := by
  obtain ⟨stops, enters, begins⟩ := moves_out h ends
  unfold FeedChannel.movedTo
  rw [stops, enters, begins]
  simp

end

/-! ## Each move -/

section
variable {ch : Fin 2} {k : FeedCfg} {d : Station}

theorem runFeed_moved (ready : (d.fdc.channels[ch]'ch.isLt).state = .ready) : FeedMoved ch k .running d (d.runFeed ch k) := by
  refine feedMoved_enters (f := fun c => { c with
    state := .running, targetRate := 0, rateSeen := false, runningSecond := some (d.inSec 1) }) (moves_ready ready).2.1 ?_
  rw [movedTo_begun k _ _ ready, inSec_one]
  rfl

/-- The channel's marks of its judgement cleared (R131). -/
def FeedChannel.judgedNow (c : FeedChannel) : FeedChannel := { c with reEvaluate := false, runDown := false, runDownTimer := none }

theorem resumeFeed_moved (held : (d.fdc.channels[ch]'ch.isLt).state = .held) (mark : (d.fdc.channels[ch]'ch.isLt).reEvaluate = true) :
    FeedMoved ch k .running d ((d.onFeed ch FeedChannel.judgedNow).resumeFeed ch k) := by
  have twice : (d.onFeed ch FeedChannel.judgedNow).onFeed ch (fun c => { c with state := .running }) =
      d.onFeed ch fun c => { c.judgedNow with state := .running } :=
    congrArg (fun v => ({ d with fdc := { d.fdc with channels := v } } : Station)) (vecModify_twice _ _ _ _)
  unfold Station.resumeFeed
  dsimp only
  rw [twice]
  refine feedMoved_enters (f := fun c => { c.judgedNow with state := .running }) (moves_held held mark).2.1 ?_
  rw [movedTo_resumed k _ _ held mark]
  rfl

theorem onFeed_id (d : Station) : d.onFeed ch id = d :=
  congrArg (fun v => ({ d with fdc := { d.fdc with channels := v } } : Station)) (vecModify_id _ _ _ rfl)

theorem restFeed_moved (running : (d.fdc.channels[ch]'ch.isLt).state = .running) : FeedMoved ch k .ready d (d.restFeed .ready ch k) := by
  refine feedMoved_stops (f := id) (cause := .none) (moves_out (.inl running) (.inl rfl)).1 ?_ (.inl ⟨rfl, rfl⟩)
    (movedTo_out k _ _ (.inl running) (.inl rfl)) nofun
  rw [onFeed_id]
  exact restFeed_spec .ready ch k d rfl

theorem faultFeed_moved (running : (d.fdc.channels[ch]'ch.isLt).state = .running) :
    FeedMoved ch k .fault d (d.faultFeed .feederReverse ch k) := by
  obtain ⟨stopped, told⟩ := faultFeed_turning (cause := .feederReverse) (k := k) (.inl running)
  refine feedMoved_stops (f := id) (cause := .feederReverse) (moves_out (.inl running) (.inr rfl)).1 ?_ (.inr ⟨rfl, rfl⟩)
    (movedTo_out k _ _ (.inl running) (.inr rfl)) fun _ => told
  rw [onFeed_id]
  exact stopped

theorem judged_rests (held : (d.fdc.channels[ch]'ch.isLt).state = .held) :
    FeedMoved ch k .ready d ((d.onFeed ch FeedChannel.judgedNow).restFeed .ready ch k) :=
  feedMoved_stops (f := FeedChannel.judgedNow) (cause := .none) (moves_out (.inr held) (.inl rfl)).1
    (restFeed_spec .ready ch k _ rfl) (.inl ⟨rfl, rfl⟩) (movedTo_out k _ _ (.inr held) (.inl rfl)) nofun

theorem unjudged {c : FeedChannel} (h : c.state ≠ .held ∨ c.reEvaluate = false) : c.judged = false := by
  unfold FeedChannel.judged
  rcases h with h | h
  · rw [show (c.state == .held) = false from beq_false_of_ne h, Bool.false_and]
  · rw [h, Bool.and_false]

/-- What the floor image makes of a channel (R119, R127, R131). -/
theorem moveFeed_moved (ch : Fin 2) (k : FeedCfg) (d : Station) :
    FeedMoved ch k ((d.fdc.channels[ch]'ch.isLt).next (d.alight k.letter) (d.turnsBack ch)) d (d.moveFeed ch k) := by
  unfold Station.moveFeed FeedChannel.next
  dsimp only
  cases state : (d.fdc.channels[ch]'ch.isLt).state with
  | off => exact feedMoved_stands state (unjudged (.inl (by rw [state]; nofun)))
  | fault => exact feedMoved_stands state (unjudged (.inl (by rw [state]; nofun)))
  | ready =>
    dsimp only
    by_cases lit : d.alight k.letter = true
    · rw [if_pos lit, if_pos lit]
      exact runFeed_moved state
    · rw [if_neg lit, if_neg lit]
      exact feedMoved_stands state (unjudged (.inl (by rw [state]; nofun)))
  | running =>
    dsimp only
    rcases Bool.eq_false_or_eq_true (d.alight k.letter) with lit | out
    · simp only [lit, Bool.not_true, Bool.false_eq_true, Bool.true_eq_false, if_false]
      by_cases back : d.turnsBack ch = true
      · rw [if_pos back, if_pos back]
        exact faultFeed_moved state
      · rw [if_neg back, if_neg back]
        exact feedMoved_stands state (unjudged (.inl (by rw [state]; nofun)))
    · simp only [out, Bool.not_false, if_true]
      exact restFeed_moved state
  | held =>
    dsimp only
    rcases Bool.eq_false_or_eq_true (d.fdc.channels[ch]'ch.isLt).reEvaluate with mark | bare
    · simp only [mark, Bool.not_true, Bool.false_eq_true, Bool.true_eq_false, if_false]
      by_cases lit : d.alight k.letter = true
      · have still : (d.onFeed ch fun c => { c with reEvaluate := false, runDown := false, runDownTimer := none }).alight k.letter =
          true := lit
        rw [if_pos lit, if_pos still]
        exact resumeFeed_moved state mark
      · have still : ¬ (d.onFeed ch fun c => { c with reEvaluate := false, runDown := false, runDownTimer := none }).alight
          k.letter = true := lit
        rw [if_neg lit, if_neg still]
        exact judged_rests state
    · simp only [bare, Bool.not_false, if_true]
      exact feedMoved_stands state (unjudged (.inr bare))

theorem moveFeed_apart (ch j : Fin 2) (k : FeedCfg) (x : Station) (ne : ch ≠ j) : FeedApart j x (x.moveFeed ch k) := by
  have same := FeedApart.refl j x
  unfold Station.moveFeed
  dsimp only
  cases (x.fdc.channels[ch]'ch.isLt).state with
  | off => exact same
  | fault => exact same
  | ready =>
    dsimp only
    split
    · exact same.runFeed ne k
    · exact same
  | running =>
    dsimp only
    split
    · exact same.restFeed ne .ready k
    · split
      · exact same.faultFeed ne .feederReverse k
      · exact same
  | held =>
    dsimp only
    split
    · exact same
    · split
      · exact (same.onFeed ne _).resumeFeed ne k
      · exact (same.onFeed ne _).restFeed ne .ready k

end

/-! ## Step 3: the targets (R117, R118) -/

/-- The share that a list of capacities gives an own channel, none where it is not available in view (R118). -/
def Station.shareFor (capacity : Fin 16 × FeedEntry → Nat) (ch : Fin 2) (letter : BurnerLetter) (d : Station) : Option Nat :=
  (((d.available letter).zip (shareHeat (d.demandOf letter) ((d.available letter).map fun e => (capacity e, e.2.weight.toNat)))).find?
    fun p => p.1.1 == d.own && p.1.2.channel.toNat == ch.val + 1).map (·.2)

theorem targetOf_eq (taken : List (Fin 2)) (ch : Fin 2) (k : FeedCfg) (d : Station) :
    d.targetOf taken ch k = (d.shareFor (fun e => d.sharedCapacity taken e) ch k.letter).getD 0 := by
  unfold Station.targetOf Station.shareFor
  dsimp only
  rcases List.find? (fun p : (Fin 16 × FeedEntry) × Nat => p.1.1 == d.own && p.1.2.channel.toNat == ch.val + 1) _ with _ | p <;> rfl

theorem shareFor_floor {a b : Station} (h : FeedOnly a b) (capacity : Fin 16 × FeedEntry → Nat) (ch : Fin 2) (letter : BurnerLetter) :
    b.shareFor capacity ch letter = a.shareFor capacity ch letter := by
  unfold Station.shareFor
  rw [h.available, h.demandOf, h.own]

theorem takeTarget_apart (taken : List (Fin 2)) (ch j : Fin 2) (k : FeedCfg) (x : Station) (ne : ch ≠ j) :
    FeedApart j x (x.takeTarget taken ch k) := (FeedApart.refl j x).onFeed ne _

/-! ## Step 4: the rates (R120, R121) -/

/-- A RUNNING channel's record after its rate and reference followed its target heat. -/
def FeedChannel.followed (k : FeedCfg) (cycle : Nat) (c : FeedChannel) : FeedChannel :=
  { c with massGoal := c.goal k, targetRate := rampRateTo c.targetRate (c.goal k) (k.rampStep cycle) }

theorem followTarget_running {ch : Fin 2} {k : FeedCfg} {d : Station} (running : (d.fdc.channels[ch]'ch.isLt).state = .running) :
    d.followTarget ch k = (d.onFeed ch (FeedChannel.followed k d.loopCfg.cycle)).updateFine ch k :=
  if_neg (not_not_intro running)

theorem followTarget_other {ch : Fin 2} {k : FeedCfg} {d : Station} (other : (d.fdc.channels[ch]'ch.isLt).state ≠ .running) :
    d.followTarget ch k = d := if_pos other

theorem followTarget_apart (ch j : Fin 2) (k : FeedCfg) (x : Station) (ne : ch ≠ j) : FeedApart j x (x.followTarget ch k) := by
  unfold Station.followTarget
  split
  · exact .refl j x
  · exact ((FeedApart.refl j x).onFeed ne _).updateFine ne k

end Sys2Proof.Machine
end

section
/-! SUPPORT. A refresh of one channel from its first step to its last (R117 to R122, R126, R127, R131, R133). -/

set_option Elab.async false

namespace Sys2Proof.Machine

/-! ## A step between what is done to the other channel -/

theorem FeedMoved.between {ch : Fin 2} {k : FeedCfg} {st : FeedState} {a x y b : Station} (before : FeedApart ch a x)
    (h : FeedMoved ch k st x y) (after : FeedApart ch y b) : FeedMoved ch k st a b := by
  obtain ⟨only, channel, line, pair, conds, fault⟩ := h
  rw [before.channel] at channel line pair conds fault
  rw [before.only.hasWeigher, before.only.now] at channel
  refine ⟨(before.only.trans only).trans after.only, after.channel.trans channel, fun i found => ?_, fun i found => ?_,
    fun stops => ?_, fun stops faults => ?_⟩
  · have seen : x.findOut .reference .feeder (ch.val + 1) = some i := (before.only.findOut ..).trans found
    rw [after.line i ((only.findOut ..).trans seen), line i seen, before.line i found, before.only.now]
  · have seen : x.findChannel .encoder (ch.val + 1) = some i := (before.only.findChannel ..).trans found
    rw [after.pair i ((only.findChannel ..).trans seen), pair i seen, before.pair i found, before.only.now]
  · obtain ⟨silent, stall, back⟩ := conds stops
    exact ⟨(after.conds _).trans silent, (after.conds _).trans stall, (after.conds _).trans back⟩
  · obtain ⟨told, posted⟩ := fault stops faults
    exact ⟨after.only.rest.signals.subset told, posted_kept posted after.only.rest.events⟩

/-! ## Steps 3 and 4 for one channel -/

/-- A channel's record after it took its target heat and its rate and reference followed it. -/
def FeedChannel.steered (k : FeedCfg) (cycle target : Nat) (c : FeedChannel) : FeedChannel :=
  let t := { c with targetHeat := target }
  if c.state = .running then { t.followed k cycle with lastFine := (t.followed k cycle).fine k } else t

/-- The fine reference that a RUNNING channel comes to (R121). -/
def FeedChannel.steeredFine (k : FeedCfg) (cycle target : Nat) (c : FeedChannel) : Nat :=
  (FeedChannel.followed k cycle { c with targetHeat := target }).fine k

/-- A channel has followed its target heat (R120, R121). -/
structure FeedSteered (ch : Fin 2) (k : FeedCfg) (target : Nat) (a b : Station) : Prop where
  only : FeedOnly a b
  channel : b.fdc.channels[ch]'ch.isLt = (a.fdc.channels[ch]'ch.isLt).steered k a.loopCfg.cycle target
  moves : (a.fdc.channels[ch]'ch.isLt).state = .running →
    (a.fdc.channels[ch]'ch.isLt).steeredFine k a.loopCfg.cycle target ≠ (a.fdc.channels[ch]'ch.isLt).lastFine →
    ∀ i : Fin 16, a.findOut .reference .feeder (ch.val + 1) = some i →
    (b.dou.lines[i]'i.isLt).preload = min 4080 ((a.fdc.channels[ch]'ch.isLt).steeredFine k a.loopCfg.cycle target)
  stands : ((a.fdc.channels[ch]'ch.isLt).state = .running →
    (a.fdc.channels[ch]'ch.isLt).steeredFine k a.loopCfg.cycle target = (a.fdc.channels[ch]'ch.isLt).lastFine) →
    ∀ i : Fin 16, a.findOut .reference .feeder (ch.val + 1) = some i → b.dou.lines[i]'i.isLt = a.dou.lines[i]'i.isLt
  pair : ∀ i : Fin 8, a.findChannel .encoder (ch.val + 1) = some i → b.piu.channels[i]'i.isLt = a.piu.channels[i]'i.isLt
  conds : ∀ x : CondKind, b.condition x (ch.val + 1) = a.condition x (ch.val + 1)

/-- A channel that took its target heat, beside its record as it was, follows it. -/
theorem followTarget_steered {ch : Fin 2} {k : FeedCfg} {target : Nat} {a x b : Station} (before : FeedAside ch a x)
    (took : x.fdc.channels[ch]'ch.isLt = { a.fdc.channels[ch]'ch.isLt with targetHeat := target })
    (after : FeedApart ch (x.followTarget ch k) b) : FeedSteered ch k target a b := by
  have state : (x.fdc.channels[ch]'ch.isLt).state = (a.fdc.channels[ch]'ch.isLt).state := (congrArg FeedChannel.state took :)
  have last : (x.fdc.channels[ch]'ch.isLt).lastFine = (a.fdc.channels[ch]'ch.isLt).lastFine := (congrArg FeedChannel.lastFine took :)
  have only : FeedOnly a (x.followTarget ch k) := before.only.followTarget ch k
  by_cases running : (a.fdc.channels[ch]'ch.isLt).state = .running
  · have eq := followTarget_running (k := k) (state.trans running)
    have fine := updateFine_written ch k (x.onFeed ch (FeedChannel.followed k x.loopCfg.cycle))
    rw [← eq] at fine
    obtain ⟨channel, -, -, -, preload, -, -, stands, rest⟩ := fine
    rw [onFeed_channel, took, before.only.loopCfg] at channel preload stands
    rw [took] at last
    refine ⟨only.trans after.only, ?_, fun _ moved i found => ?_, fun stood i found => ?_, fun i found => ?_, fun c => ?_⟩
    · rw [after.channel, channel]
      exact (if_pos running).symm
    · have seen : x.findOut .reference .feeder (ch.val + 1) = some i := (before.only.findOut ..).trans found
      rw [after.line i ((only.findOut ..).trans found)]
      exact preload i seen moved
    · rw [after.line i ((only.findOut ..).trans found), stands (stood running)]
      exact before.line i found
    · rw [after.pair i ((only.findChannel ..).trans found), rest]
      exact before.pair i found
    · refine (after.conds c).trans (Eq.trans ?_ (before.conds c))
      exact condition_of_alm (by rw [rest]; rfl) c _
  · have eq : x.followTarget ch k = x := followTarget_other fun h => running (state.symm.trans h)
    rw [eq] at after only
    refine ⟨only.trans after.only, ?_, fun h => absurd h running, fun _ i found => ?_, fun i found => ?_,
      fun c => (after.conds c).trans (before.conds c)⟩
    · rw [after.channel, took]
      exact (if_neg running).symm
    · exact (after.line i ((only.findOut ..).trans found)).trans (before.line i found)
    · exact (after.pair i ((only.findChannel ..).trans found)).trans (before.pair i found)

/-! ## The capacities a refresh shares by -/

/-- The capacity of each channel as a refresh takes it. -/
def Station.capacityFresh (ch : Fin 2) (d : Station) : Nat :=
  match (d.fdc.channels[ch]'ch.isLt).cfg, (d.fdc.channels[ch]'ch.isLt).cvPreload with
  | some k, some cv => k.maxRate * cv / 3600
  | _, _ => (d.fdc.channels[ch]'ch.isLt).capacity

/-- The channels' capacities are those a refresh of a station takes. -/
def Fresh (a x : Station) : Prop := ∀ j : Fin 2, (x.fdc.channels[j]'j.isLt).capacity = a.capacityFresh j

theorem Fresh.step {f : Fin 2 → FeedCfg → Station → Station}
    (apart : ∀ (ch j : Fin 2) (k : FeedCfg) (x : Station), ch ≠ j → FeedApart j x (f ch k x))
    (own : ∀ ch k x, ((f ch k x).fdc.channels[ch]'ch.isLt).capacity = (x.fdc.channels[ch]'ch.isLt).capacity) {a : Station} (ch : Fin 2) (k : FeedCfg)
    (x : Station) (h : Fresh a x) : Fresh a (f ch k x) := by
  intro j
  by_cases same : ch = j
  · rw [← same]
    exact (own ch k x).trans (h ch)
  · exact (congrArg FeedChannel.capacity (apart ch j k x same).channel).trans (h j)

theorem capacityFresh_some {d : Station} {ch : Fin 2} {k : FeedCfg} (cfg : (d.fdc.channels[ch]'ch.isLt).cfg = some k) :
    d.capacityFresh ch = (d.fdc.channels[ch]'ch.isLt).capacityNext k := by
  unfold Station.capacityFresh FeedChannel.capacityNext FeedChannel.cvNext
  rw [cfg]
  cases (d.fdc.channels[ch]'ch.isLt).cvPreload <;> rfl

theorem takeCv_fresh (d : Station) : Fresh d (d.eachFeed Station.takeCv) := by
  intro j
  rcases Option.eq_none_or_eq_some (d.fdc.channels[j]'j.isLt).cfg with bare | ⟨k, cfg⟩
  · rw [(eachFeed_bare takeCv_apart d bare).channel]
    unfold Station.capacityFresh
    rw [bare]
  · obtain ⟨x, before, after⟩ := eachFeed_takes takeCv_apart d cfg
    rw [capacityFresh_some cfg, after.channel, (takeCv_record j k x).1, before.channel]
    rfl

theorem moveFeed_fresh {a x : Station} (h : Fresh a x) : Fresh a (x.eachFeed Station.moveFeed) :=
  eachFeed_keeps (Fresh.step moveFeed_apart fun ch k x => (congrArg FeedChannel.capacity (moveFeed_moved ch k x).channel :)) h

/-- The capacity that a refresh shares a channel in view by (R117, R133). -/
def Station.capacityShared (d : Station) (e : Fin 16 × FeedEntry) : Nat :=
  match (List.finRange 2).find? fun ch =>
    (d.fdc.channels[ch]'ch.isLt).cvPreload.isSome && e.1 == d.own && e.2.channel.toNat == ch.val + 1 with
  | some ch => d.capacityFresh ch
  | none => e.2.capacity.toNat

theorem sharedCapacity_fresh {a x : Station} (fresh : Fresh a x) (own : x.own = a.own) (e : Fin 16 × FeedEntry) :
    x.sharedCapacity a.cvWaiting e = a.capacityShared e := by
  unfold Station.sharedCapacity Station.cvWaiting Station.capacityShared
  rw [List.find?_filter, own]
  simp only [Bool.and_assoc, Bool.decide_and, Bool.decide_eq_true]
  cases List.find? (fun ch : Fin 2 => (a.fdc.channels[ch]'ch.isLt).cvPreload.isSome && (e.1 == a.own && e.2.channel.toNat == ch.val + 1))
    (List.finRange 2) with
  | none => rfl
  | some ch => exact fresh ch

/-! ## The whole refresh -/

/-- The target heat that a channel takes from the sharing (R118, R119). -/
def Station.targetTaken (a : Station) (ch : Fin 2) (k : FeedCfg) (st : FeedState) : Nat :=
  if st = .ready ∨ st = .running then (a.shareFor a.capacityShared ch k.letter).getD 0 else 0

/-- What the steps of a refresh do to a channel in UP. -/
structure FeedRefreshed (ch : Fin 2) (k : FeedCfg) (st : FeedState) (a x y b : Station) : Prop where
  aside : FeedAside ch a x
  taken : x.fdc.channels[ch]'ch.isLt = (a.fdc.channels[ch]'ch.isLt).cvTaken k (a.hasWeigher ch)
  moved : FeedMoved ch k st x y
  steered : FeedSteered ch k (a.targetTaken ch k st) y b
  staged : b.feedStaged

/-- The state that a channel's burner brings it to. -/
def Station.stateNext (a : Station) (ch : Fin 2) (k : FeedCfg) : FeedState :=
  (a.fdc.channels[ch]'ch.isLt).next (a.alight k.letter) (a.turnsBack ch)

theorem FeedApart.trans_aside {ch : Fin 2} {a b c : Station} (h : FeedApart ch a b) (g : FeedAside ch b c) : FeedAside ch a c :=
  h.aside.trans g

theorem takeTarget_record (taken : List (Fin 2)) (ch : Fin 2) (k : FeedCfg) (x : Station) :
    (x.takeTarget taken ch k).fdc.channels[ch]'ch.isLt = { x.fdc.channels[ch]'ch.isLt with
      targetHeat := if (x.fdc.channels[ch]'ch.isLt).state = .ready ∨ (x.fdc.channels[ch]'ch.isLt).state = .running then x.targetOf taken ch k else 0 } := by
  unfold Station.takeTarget
  dsimp only
  rw [onFeed_channel]
  simp

theorem feedRefresh_up {d : Station} (up : d.lpc.state = .up) : d.feedRefresh =
    ((((d.eachFeed Station.takeCv).eachFeed Station.moveFeed).eachFeed (Station.takeTarget d.cvWaiting)).eachFeed
      Station.followTarget).stageFeed := by
  have only : FeedOnly d (d.eachFeed Station.takeCv) := (FeedOnly.refl d).eachFeed _ fun ch k _ hx => hx.takeCv ch k
  exact if_neg (not_not_intro (only.state.trans up))

theorem feedRefresh_other {d : Station} (other : d.lpc.state ≠ .up) : d.feedRefresh = d.eachFeed Station.takeCv := by
  have only : FeedOnly d (d.eachFeed Station.takeCv) := (FeedOnly.refl d).eachFeed _ fun ch k _ hx => hx.takeCv ch k
  exact if_pos fun h => other (only.state.symm.trans h)

/-- A configured channel goes through the steps of a refresh in UP. -/
theorem feedRefresh_refreshed {d : Station} (up : d.lpc.state = .up) {ch : Fin 2} {k : FeedCfg}
    (cfg : (d.fdc.channels[ch]'ch.isLt).cfg = some k) : ∃ x y, FeedRefreshed ch k (d.stateNext ch k) d x y d.feedRefresh := by
  rw [feedRefresh_up up]
  obtain ⟨x1, before1, after1⟩ := eachFeed_takes takeCv_apart d cfg
  have took := takeCv_record ch k x1
  have aside : FeedAside ch d (d.eachFeed Station.takeCv) := (before1.aside.trans took.2.1).trans after1.aside
  have record : (d.eachFeed Station.takeCv).fdc.channels[ch]'ch.isLt = (d.fdc.channels[ch]'ch.isLt).cvTaken k (d.hasWeigher ch) := by
    rw [after1.channel, took.1, before1.channel, before1.only.hasWeigher]
  have fresh := takeCv_fresh d
  generalize d.eachFeed Station.takeCv = x at *
  obtain ⟨x2, before2, after2⟩ := eachFeed_takes moveFeed_apart x (ch := ch) (k := k) ((congrArg FeedChannel.cfg record).trans cfg)
  have moved := (moveFeed_moved ch k x2).between before2 after2
  have next : (x2.fdc.channels[ch]'ch.isLt).next (x2.alight k.letter) (x2.turnsBack ch) = d.stateNext ch k := by
    rw [before2.channel, before2.only.alight, before2.only.turnsBack, record, aside.only.alight, aside.only.turnsBack]
    rfl
  rw [next] at moved
  have fresh := moveFeed_fresh fresh
  generalize x.eachFeed Station.moveFeed = y at *
  have cfgY : (y.fdc.channels[ch]'ch.isLt).cfg = some k := by
    rw [moved.channel, record]
    exact cfg
  obtain ⟨x3, fresh3, before3, after3⟩ := eachFeed_comes (takeTarget_apart d.cvWaiting)
    (Fresh.step (takeTarget_apart d.cvWaiting) fun ch k x => (congrArg FeedChannel.capacity (takeTarget_record _ ch k x) :)) fresh cfgY
  have only3 : FeedOnly d x3 := (aside.only.trans moved.only).trans before3.only
  have state3 : (x3.fdc.channels[ch]'ch.isLt).state = d.stateNext ch k := by rw [before3.channel, moved.channel]; rfl
  have target : x3.targetOf d.cvWaiting ch k = (d.shareFor d.capacityShared ch k.letter).getD 0 := by
    rw [targetOf_eq, shareFor_floor only3]
    exact congrArg (fun f => (d.shareFor f ch k.letter).getD 0) (funext (sharedCapacity_fresh fresh3 only3.own))
  have record3 := takeTarget_record d.cvWaiting ch k x3
  rw [state3, target, before3.channel] at record3
  have aside3 : FeedAside ch y (y.eachFeed (Station.takeTarget d.cvWaiting)) :=
    (before3.aside.trans ((FeedAside.refl ch x3).onFeed _)).trans after3.aside
  have channel3 := after3.channel.trans record3
  generalize y.eachFeed (Station.takeTarget d.cvWaiting) = z at *
  obtain ⟨x4, before4, after4⟩ := eachFeed_takes followTarget_apart z (ch := ch) (k := k) ((congrArg FeedChannel.cfg channel3).trans cfgY)
  exact ⟨x, y, aside, record, moved, followTarget_steered (aside3.trans before4.aside) (before4.channel.trans channel3) after4.stageFeed,
    stageFeed_staged _⟩

end Sys2Proof.Machine
end

section
/-! SUPPORT. What a refresh gives a channel, and the sharing of heat (R117 to R122, R126, R127, R131, R133). -/

set_option Elab.async false

namespace Sys2Proof.Machine

/-! ## The record -/

/-- The rate that a channel comes to at a refresh, from the rate it had (R120). -/
def FeedChannel.rateNext (k : FeedCfg) (cycle target : Nat) (c : FeedChannel) : Nat :=
  rampRateTo (if c.state = .ready then 0 else c.targetRate) (min k.maxRate (target * 3600 / c.cvNext)) (k.rampStep cycle)

/-- The fine reference of that rate (R121). -/
def FeedChannel.fineNext (k : FeedCfg) (cycle target : Nat) (c : FeedChannel) : Nat :=
  min k.maxFine (c.rateNext k cycle target * 100000 / (k.ratePerFine * c.trim))

section
variable (k : FeedCfg) (weigher : Bool) (now cycle target : Nat) (c : FeedChannel)

theorem stops_running : c.stops .running = false := Bool.and_false _

/-- The rate that a channel in RUNNING starts from. -/
theorem movedTo_rate : ((c.cvTaken k weigher).movedTo k weigher now .running).targetRate =
    if c.state = .ready then 0 else c.targetRate := by
  show (if c.stops .running || c.begins .running then 0 else c.targetRate) = _
  rw [stops_running]
  refine if_congr ?_ rfl rfl
  unfold FeedChannel.begins FeedChannel.enters
  cases c.state <;> decide

/-- A channel that ends in RUNNING. -/
theorem steered_running : (((c.cvTaken k weigher).movedTo k weigher now .running).steered k cycle target) =
    { (c.cvTaken k weigher).movedTo k weigher now .running with
      targetHeat := target, massGoal := min k.maxRate (target * 3600 / c.cvNext), targetRate := c.rateNext k cycle target
      lastFine := c.fineNext k cycle target } := by
  have rate := movedTo_rate k weigher now c
  unfold FeedChannel.steered
  dsimp only
  rw [if_pos (show ((c.cvTaken k weigher).movedTo k weigher now .running).state = .running from rfl)]
  unfold FeedChannel.fineNext FeedChannel.rateNext
  rw [← rate]
  rfl

theorem steeredFine_running : ((c.cvTaken k weigher).movedTo k weigher now .running).steeredFine k cycle target =
    c.fineNext k cycle target := by
  unfold FeedChannel.fineNext FeedChannel.rateNext
  rw [← movedTo_rate k weigher now c]
  rfl

theorem steered_other {st : FeedState} (other : st ≠ .running) :
    (((c.cvTaken k weigher).movedTo k weigher now st).steered k cycle target) =
      { (c.cvTaken k weigher).movedTo k weigher now st with targetHeat := target } := if_neg other

/-- The heat that a channel delivers after a refresh moved it (R122, R133). -/
theorem movedTo_delivered (st : FeedState) : ((c.cvTaken k weigher).movedTo k weigher now st).delivered =
    if c.stops st then 0
    else if c.enters st then (if weigher && !c.openLoop && (c.rateSeen && !c.begins st) then c.measured
      else c.activeFine * k.ratePerFine * c.trim / 100000) * c.cvNext / 3600
    else if c.cvPreload.isSome then (if c.state = .running ∨ c.state = .held then
      (if weigher && !c.openLoop && (c.rateSeen && !c.begins st) then c.measured
        else c.activeFine * k.ratePerFine * c.trim / 100000) * c.cvNext / 3600 else 0)
    else c.delivered := by
  show (if c.stops st then 0
    else if c.enters st then (if weigher && !c.openLoop && (c.rateSeen && !c.begins st) then c.measured
      else c.activeFine * k.ratePerFine * c.trim / 100000) * c.cvNext / 3600
    else if c.cvPreload.isSome then FeedChannel.deliveredNow k weigher { c with cv := c.cvNext } else c.delivered) = _
  rcases Bool.eq_false_or_eq_true (c.enters st) with enters | stays
  · rw [enters, if_pos rfl, if_pos rfl]
  · have begun : c.begins st = false := by
      unfold FeedChannel.begins
      rw [stays, Bool.false_and]
    rw [deliveredNow_eq, begun, Bool.not_false, Bool.and_true]

end

/-- What a channel's record is after a refresh. -/
theorem steered_record (k : FeedCfg) (weigher : Bool) (now cycle target : Nat) (st : FeedState) (c : FeedChannel) :
    (((c.cvTaken k weigher).movedTo k weigher now st).steered k cycle target) = { c with
      state := st, targetHeat := target, cv := c.cvNext, cvPreload := none, capacity := c.capacityNext k
      cause := if c.stops st then (if st = .fault then .feederReverse else .none) else c.cause
      massGoal := if st = .running then min k.maxRate (target * 3600 / c.cvNext) else if c.stops st then 0 else c.massGoal
      targetRate := if st = .running then c.rateNext k cycle target else if c.stops st then 0 else c.targetRate
      lastFine := if st = .running then c.fineNext k cycle target else if c.stops st then 0 else c.lastFine
      rateSeen := c.rateSeen && !c.begins st, openLoop := c.openLoop && !c.stops st
      delivered := ((c.cvTaken k weigher).movedTo k weigher now st).delivered
      runDown := c.runDown && !c.stops st && !c.judged, reEvaluate := c.reEvaluate && !c.stops st && !c.judged
      runDownTimer := if c.stops st || c.judged then none else c.runDownTimer
      runningSecond := if c.begins st then some (now + 1000000) else if c.stops st then none else c.runningSecond } := by
  by_cases running : st = .running
  · subst running
    rw [steered_running]
    rfl
  · have stays : c.begins st = false := by
      unfold FeedChannel.begins FeedChannel.enters
      rw [show (st == .running) = false from beq_false_of_ne running, Bool.and_false, Bool.false_and]
    rw [steered_other _ _ _ _ _ _ running, if_neg running, if_neg running, if_neg running]
    unfold FeedChannel.movedTo
    show _ = _
    rw [show (c.cvTaken k weigher).begins st = false from stays, stays, Bool.or_false]
    rfl

end Sys2Proof.Machine
end

section
/-! SUPPORT. What a refresh in UP gives a channel (R117 to R122, R126, R127, R131, R133). -/

set_option Elab.async false

namespace Sys2Proof.Machine

/-- A channel's record after a refresh, by what the sharing gave it. -/
theorem steered_shared {k : FeedCfg} {weigher : Bool} {now cycle target own : Nat} {st : FeedState} {c : FeedChannel}
    (shared : st = .running → target = own) :
    (((c.cvTaken k weigher).movedTo k weigher now st).steered k cycle target) = { c with
      state := st, targetHeat := target, cv := c.cvNext, cvPreload := none, capacity := c.capacityNext k
      cause := if c.stops st then (if st = .fault then .feederReverse else .none) else c.cause
      massGoal := if st = .running then min k.maxRate (own * 3600 / c.cvNext) else if c.stops st then 0 else c.massGoal
      targetRate := if st = .running then c.rateNext k cycle own else if c.stops st then 0 else c.targetRate
      lastFine := if st = .running then c.fineNext k cycle own else if c.stops st then 0 else c.lastFine
      rateSeen := c.rateSeen && !c.begins st, openLoop := c.openLoop && !c.stops st
      delivered := if c.stops st then 0
        else if c.enters st then (if weigher && !c.openLoop && (c.rateSeen && !c.begins st) then c.measured
          else c.activeFine * k.ratePerFine * c.trim / 100000) * c.cvNext / 3600
        else if c.cvPreload.isSome then (if c.state = .running ∨ c.state = .held then
          (if weigher && !c.openLoop && (c.rateSeen && !c.begins st) then c.measured
            else c.activeFine * k.ratePerFine * c.trim / 100000) * c.cvNext / 3600 else 0)
        else c.delivered
      runDown := c.runDown && !c.stops st && !c.judged, reEvaluate := c.reEvaluate && !c.stops st && !c.judged
      runDownTimer := if c.stops st || c.judged then none else c.runDownTimer
      runningSecond := if c.begins st then some (now + 1000000) else if c.stops st then none else c.runningSecond } := by
  rw [steered_record, movedTo_delivered]
  by_cases running : st = .running
  · rw [shared running]
  · rw [if_neg running, if_neg running, if_neg running, if_neg running, if_neg running, if_neg running]

section
variable {ch : Fin 2} {k : FeedCfg} {a x y b : Station}

theorem targetTaken_running (a : Station) (ch : Fin 2) (k : FeedCfg) {st : FeedState} (running : st = .running) :
    a.targetTaken ch k st = (a.shareFor a.capacityShared ch k.letter).getD 0 := if_pos (.inr running)

/-- A channel of a refresh in its last step, by what it was before the first. -/
theorem FeedRefreshed.record {st : FeedState} (h : FeedRefreshed ch k st a x y b) : b.fdc.channels[ch]'ch.isLt =
    ((((a.fdc.channels[ch]'ch.isLt).cvTaken k (a.hasWeigher ch)).movedTo k (a.hasWeigher ch) a.now st).steered k a.loopCfg.cycle
      (a.targetTaken ch k st)) := by
  obtain ⟨aside, taken, moved, steered, -⟩ := h
  rw [steered.channel, moved.channel, taken, aside.only.hasWeigher, aside.only.now, moved.only.loopCfg, aside.only.loopCfg]

theorem FeedRefreshed.between_state {st : FeedState} (h : FeedRefreshed ch k st a x y b) : (y.fdc.channels[ch]'ch.isLt).state = st := by
  rw [h.moved.channel]
  rfl

/-- The reference that a channel in RUNNING is brought to, and the one it had. -/
theorem FeedRefreshed.between_fine (h : FeedRefreshed ch k .running a x y b) :
    (y.fdc.channels[ch]'ch.isLt).steeredFine k y.loopCfg.cycle (a.targetTaken ch k .running) =
      (a.fdc.channels[ch]'ch.isLt).fineNext k a.loopCfg.cycle ((a.shareFor a.capacityShared ch k.letter).getD 0) ∧
    (y.fdc.channels[ch]'ch.isLt).lastFine = (a.fdc.channels[ch]'ch.isLt).lastFine := by
  obtain ⟨aside, taken, moved, -, -⟩ := h
  rw [moved.channel, taken, moved.only.loopCfg, aside.only.loopCfg, aside.only.hasWeigher, targetTaken_running a ch k rfl]
  refine ⟨steeredFine_running .., ?_⟩
  show (if (a.fdc.channels[ch]'ch.isLt).stops .running then 0 else (a.fdc.channels[ch]'ch.isLt).lastFine) = _
  rw [stops_running]
  rfl

/-- The line of a channel after the refresh (R121, R126). -/
theorem FeedRefreshed.line {st : FeedState} (h : FeedRefreshed ch k st a x y b) {i : Fin 16}
    (found : a.findOut .reference .feeder (ch.val + 1) = some i) :
    let fine := (a.fdc.channels[ch]'ch.isLt).fineNext k a.loopCfg.cycle ((a.shareFor a.capacityShared ch k.letter).getD 0)
    ((a.fdc.channels[ch]'ch.isLt).stops st = true → b.dou.lines[i]'i.isLt = feederZero a.now (a.dou.lines[i]'i.isLt)) ∧
    (st = .running → fine ≠ (a.fdc.channels[ch]'ch.isLt).lastFine → (b.dou.lines[i]'i.isLt).preload = min 4080 fine) ∧
    (st = .running → fine = (a.fdc.channels[ch]'ch.isLt).lastFine → b.dou.lines[i]'i.isLt = a.dou.lines[i]'i.isLt) ∧
    ((a.fdc.channels[ch]'ch.isLt).stops st = false → st ≠ .running → b.dou.lines[i]'i.isLt = a.dou.lines[i]'i.isLt) := by
  have state := h.between_state
  have foundX : x.findOut .reference .feeder (ch.val + 1) = some i := (h.aside.only.findOut ..).trans found
  have foundY : y.findOut .reference .feeder (ch.val + 1) = some i := (h.moved.only.findOut ..).trans foundX
  have moved : y.dou.lines[i]'i.isLt = if (a.fdc.channels[ch]'ch.isLt).stops st then feederZero a.now (a.dou.lines[i]'i.isLt) else (a.dou.lines[i]'i.isLt) := by
    rw [h.moved.line i foundX, h.taken, h.aside.line i found, h.aside.only.now]
    rfl
  refine ⟨fun stops => ?_, fun running differs => ?_, fun running same => ?_, fun stands other => ?_⟩
  · have other : st ≠ .running := fun e => Bool.false_ne_true ((stops_running _).symm.trans (e ▸ stops))
    rw [h.steered.stands (fun e => absurd (state.symm.trans e) other) i foundY, moved, if_pos stops]
  · subst running
    obtain ⟨fine, last⟩ := h.between_fine
    rw [h.steered.moves state (by rw [fine, last]; exact differs) i foundY, fine]
  · subst running
    obtain ⟨fine, last⟩ := h.between_fine
    rw [h.steered.stands (fun _ => by rw [fine, last]; exact same) i foundY, moved, stops_running]
    rfl
  · rw [h.steered.stands (fun e => absurd (state.symm.trans e) other) i foundY, moved, stands]
    rfl

/-- The stall time of a channel's pair after the refresh (R126). -/
theorem FeedRefreshed.pair {st : FeedState} (h : FeedRefreshed ch k st a x y b) {i : Fin 8}
    (found : a.findChannel .encoder (ch.val + 1) = some i) : b.piu.channels[i]'i.isLt =
    if (a.fdc.channels[ch]'ch.isLt).stops st then stallWritten a.now 0 (a.piu.channels[i]'i.isLt)
    else if (a.fdc.channels[ch]'ch.isLt).enters st then stallWritten a.now k.stall (a.piu.channels[i]'i.isLt)
    else (a.piu.channels[i]'i.isLt) := by
  have foundX : x.findChannel .encoder (ch.val + 1) = some i := (h.aside.only.findChannel ..).trans found
  rw [h.steered.pair i ((h.moved.only.findChannel ..).trans foundX), h.moved.pair i foundX, h.taken, h.aside.pair i found,
    h.aside.only.now]
  rfl

/-- What a refresh in UP gives a channel. -/
theorem FeedRefreshed.gives (h : FeedRefreshed ch k (a.stateNext ch k) a x y b) :
    RefreshGives ch k (a.fdc.channels[ch]'ch.isLt).cvNext a.capacityShared a b := by
  have only : FeedOnly a b := (h.aside.only.trans h.moved.only).trans h.steered.only
  have record := h.record.trans (steered_shared (targetTaken_running a ch k))
  have stops (s : (a.fdc.channels[ch]'ch.isLt).stops (a.stateNext ch k) = true) : (x.fdc.channels[ch]'ch.isLt).stops (a.stateNext ch k) = true := by
    rw [h.taken]
    exact s
  refine ⟨?_, ?_, fun running => ?_, ?_, fun i found => h.line found, fun i found => h.pair found, fun s => ?_, fun s faults => ?_,
    fun duty => h.staged (only.feedDuty.trans duty)⟩
  · rw [record]
    rfl
  · rw [record]
    rfl
  · rw [record]
    exact ⟨if_pos running, if_pos running, if_pos running⟩
  · rw [record]
    rfl
  · obtain ⟨silent, stall, back⟩ := h.moved.conds (stops s)
    exact ⟨(h.steered.conds _).trans silent, (h.steered.conds _).trans stall, (h.steered.conds _).trans back⟩
  · obtain ⟨told, posted⟩ := h.moved.fault (stops s) faults
    exact ⟨h.steered.only.rest.signals.subset told, posted_kept posted h.steered.only.rest.events⟩

end

/-- The capacities in view as they stand while no calorific value waits. -/
theorem capacityShared_idle {d : Station} (idle : ∀ ch : Fin 2, (d.fdc.channels[ch]'ch.isLt).cvPreload = none) :
    d.capacityShared = fun e => e.2.capacity.toNat := by
  funext e
  unfold Station.capacityShared
  rw [List.find?_eq_none.2 fun ch _ => by rw [idle ch]; exact Bool.false_ne_true]

theorem exec_floorRefresh (s : State) : exec .fdcFloorRefresh s = act .fdcFloorRefresh Station.feedRefresh s := rfl

/-- While no calorific value waits, its step leaves the channels. -/
theorem takeCv_idle {d : Station} (idle : ∀ ch : Fin 2, (d.fdc.channels[ch]'ch.isLt).cvPreload = none) : d.eachFeed Station.takeCv = d := by
  have stays (ch : Fin 2) : d.feedStep Station.takeCv ch = d := by
    unfold Station.feedStep
    cases (d.fdc.channels[ch]'ch.isLt).cfg with
    | none => rfl
    | some k =>
      show d.takeCv ch k = d
      unfold Station.takeCv
      rw [idle ch]
  rw [eachFeed_eq, stays, stays]

/-- What a refresh in UP gives every configured channel. -/
theorem feedRefresh_gives {d : Station} (up : d.lpc.state = .up) {ch : Fin 2} {k : FeedCfg} (cfg : (d.fdc.channels[ch]'ch.isLt).cfg = some k) :
    RefreshGives ch k (d.fdc.channels[ch]'ch.isLt).cvNext d.capacityShared d d.feedRefresh := by
  obtain ⟨x, y, refreshed⟩ := feedRefresh_refreshed up cfg
  exact refreshed.gives

end Sys2Proof.Machine

open Sys2Proof Sys2Proof.Machine in
/-- Settles O39: a refresh of the floor, in its five steps. -/
theorem floorRefreshSharesHeatAndMovesTheRate : Obligations.FloorRefreshSharesHeatAndMovesTheRate := by
  refine ⟨floorRead, fun s idle => ?_⟩
  intro cmd
  refine ⟨fun other => ?_, fun up => ?_⟩
  · exact exec_eq exec_floorRefresh ((feedRefresh_other (d := s.dev.take cmd) other).trans (takeCv_idle (d := s.dev.take cmd) idle))
  · refine .of_act exec_floorRefresh ⟨(FeedOnly.refl (s.dev.take cmd)).feedRefresh, fun ch k cfg => ?_⟩
    have gives := feedRefresh_gives (d := s.dev.take cmd) up cfg
    rw [capacityShared_idle (d := s.dev.take cmd) idle] at gives
    have cv : ((s.dev.take cmd).fdc.channels[ch]'ch.isLt).cvNext = (s.dev.fdc.channels[ch]'ch.isLt).cv := by
      unfold FeedChannel.cvNext
      rw [show ((s.dev.take cmd).fdc.channels[ch]'ch.isLt).cvPreload = none from idle ch]
      rfl
    rw [cv] at gives
    exact gives
end

section
/-! SUPPORT. The arithmetic of heat sharing (R118), and the calorific value taken at a refresh (R133). -/

set_option Elab.async false

namespace Sys2Proof.Machine

/-! ## Sums of truncated parts -/

theorem sum_div_le {α : Type} (g : α → Nat) (n : Nat) (l : List α) : (l.map fun e => g e / n).sum ≤ (l.map g).sum / n := by
  induction l with
  | nil => exact Nat.zero_le _
  | cons x l ih =>
    rw [List.map_cons, List.map_cons, List.sum_cons, List.sum_cons]
    exact (Nat.add_le_add_left ih _).trans Nat.div_add_div_le_add_div

theorem sum_parts_le {α : Type} (g : α → Nat) (whole n : Nat) (l : List α) :
    (l.map fun e => g e * whole / n).sum ≤ (l.map g).sum * whole / n :=
  (sum_div_le (fun e => g e * whole) n l).trans (by rw [List.sum_map_mul_right])

/-- Truncation loses less than one unit of each part. -/
theorem sum_le_parts {α : Type} (g : α → Nat) (whole : Nat) {n : Nat} (pos : 0 < n) (l : List α) :
    (l.map g).sum * whole ≤ n * ((l.map fun e => g e * whole / n).sum + l.length) := by
  induction l with
  | nil => exact (Nat.zero_mul whole).le.trans (Nat.zero_le _)
  | cons x l ih =>
    rw [List.map_cons, List.map_cons, List.sum_cons, List.sum_cons, List.length_cons, Nat.add_mul]
    have part := (Nat.lt_mul_div_succ (g x * whole) pos).le
    calc g x * whole + (l.map g).sum * whole
      _ ≤ n * (g x * whole / n + 1) + n * ((l.map fun e => g e * whole / n).sum + l.length) := Nat.add_le_add part ih
      _ = n * (g x * whole / n + (l.map fun e => g e * whole / n).sum + (l.length + 1)) := by ring

/-! ## The two passes -/

section
variable (demand : Nat) (l : List (Nat × Nat))

/-- A channel's part in the first pass. -/
def firstPass (c : Nat × Nat) : Nat := firstShare demand (l.map (·.2)).sum c.1 c.2

/-- What of the demand the first pass leaves. -/
def passExcess : Nat := demand - (l.map (firstPass demand l)).sum

/-- The capacity that the first pass leaves. -/
def passHeadroom : Nat := (l.map fun c => c.1 - firstPass demand l c).sum

/-- A channel's part in the second pass. -/
def secondPass (c : Nat × Nat) : Nat :=
  if passExcess demand l < passHeadroom demand l then (c.1 - firstPass demand l c) * passExcess demand l / passHeadroom demand l
  else c.1 - firstPass demand l c

theorem shareHeat_eq : shareHeat demand l = l.map fun c => firstPass demand l c + secondPass demand l c := by
  unfold shareHeat secondPass passExcess passHeadroom
  simp only [List.map_map]
  rfl

theorem firstPass_le (c : Nat × Nat) : firstPass demand l c ≤ c.1 := by
  unfold firstPass firstShare
  split
  · exact Nat.zero_le _
  · exact Nat.min_le_left ..

theorem firstPass_total : (l.map (firstPass demand l)).sum ≤ demand := by
  unfold firstPass firstShare
  by_cases none' : (l.map (·.2)).sum = 0
  · simp only [if_pos none', List.map_const', List.sum_replicate, smul_zero]
    exact Nat.zero_le _
  · simp only [if_neg none']
    calc (l.map fun c => min c.1 (demand * c.2 / (l.map (·.2)).sum)).sum
      _ ≤ (l.map fun c => c.2 * demand / (l.map (·.2)).sum).sum :=
        List.sum_le_sum fun c _ => (Nat.min_le_right ..).trans (by rw [Nat.mul_comm])
      _ ≤ (l.map (·.2)).sum * demand / (l.map (·.2)).sum := sum_parts_le ..
      _ = demand := Nat.mul_div_cancel_left _ (Nat.pos_of_ne_zero none')

theorem secondPass_le (c : Nat × Nat) : secondPass demand l c ≤ c.1 - firstPass demand l c := by
  unfold secondPass
  split
  · next short => exact Nat.div_le_of_le_mul (by rw [Nat.mul_comm]; exact Nat.mul_le_mul_right _ short.le)
  · exact le_rfl

/-- The capacities in the two parts that the first pass makes of them. -/
theorem capacity_split : (l.map (firstPass demand l)).sum + passHeadroom demand l = (l.map (·.1)).sum := by
  unfold passHeadroom
  rw [← List.sum_map_add]
  exact congrArg List.sum (List.map_congr_left fun c _ => Nat.add_sub_of_le (firstPass_le demand l c))

theorem shareHeat_sum : (shareHeat demand l).sum = (l.map (firstPass demand l)).sum + (l.map (secondPass demand l)).sum := by
  rw [shareHeat_eq, List.sum_map_add]

/-- The second pass gives no more than the first leaves. -/
theorem secondPass_total : (l.map (secondPass demand l)).sum ≤ passExcess demand l := by
  unfold secondPass
  by_cases short : passExcess demand l < passHeadroom demand l
  · simp only [if_pos short]
    refine (sum_parts_le (fun c : Nat × Nat => c.1 - firstPass demand l c) _ _ l).trans ?_
    show passHeadroom demand l * _ / passHeadroom demand l ≤ _
    rw [Nat.mul_div_cancel_left _ (Nat.zero_lt_of_lt short)]
  · simp only [if_neg short]
    exact Nat.not_lt.1 short

theorem excess_add : (l.map (firstPass demand l)).sum + passExcess demand l = demand := Nat.add_sub_of_le (firstPass_total demand l)

/-- Where the capacities carry the demand, the targets fall short of it by at most a unit a channel. -/
theorem shareHeat_carries (carried : demand ≤ (l.map (·.1)).sum) : demand ≤ (shareHeat demand l).sum + l.length := by
  have excess := excess_add demand l
  have split' := capacity_split demand l
  rw [shareHeat_sum]
  unfold secondPass
  by_cases short : passExcess demand l < passHeadroom demand l
  · simp only [if_pos short]
    have pos := Nat.zero_lt_of_lt short
    have parts : passExcess demand l ≤ (l.map fun c => (c.1 - firstPass demand l c) * passExcess demand l / passHeadroom demand l).sum +
        l.length := Nat.le_of_mul_le_mul_left (sum_le_parts (fun c : Nat × Nat => c.1 - firstPass demand l c) _ pos l) pos
    omega
  · simp only [if_neg short]
    have whole : (l.map fun c => c.1 - firstPass demand l c).sum = passHeadroom demand l := rfl
    omega

/-- Where the demand covers the capacities, each channel has its own. -/
theorem shareHeat_covered (covered : (l.map (·.1)).sum ≤ demand) : shareHeat demand l = l.map (·.1) := by
  have excess := excess_add demand l
  have split' := capacity_split demand l
  rw [shareHeat_eq]
  refine List.map_congr_left fun c _ => ?_
  unfold secondPass
  rw [if_neg (by omega)]
  exact Nat.add_sub_of_le (firstPass_le demand l c)

theorem shareHeat_within : ∀ p ∈ l.zip (shareHeat demand l), p.2 ≤ p.1.1 := by
  rw [shareHeat_eq, ← List.map_prod_left_eq_zip]
  intro p hp
  obtain ⟨c, -, rfl⟩ := List.mem_map.1 hp
  have first := firstPass_le demand l c
  have second := secondPass_le demand l c
  show firstPass demand l c + secondPass demand l c ≤ c.1
  omega

theorem shareHeat_total : (shareHeat demand l).sum ≤ demand := by
  have excess := excess_add demand l
  have second := secondPass_total demand l
  rw [shareHeat_sum]
  omega

end

/-! ## The calorific value -/

/-- Outside UP a refresh takes a waiting calorific value, and no more. -/
theorem eachFeed_takeCv {d : Station} {ch : Fin 2} {k : FeedCfg} {cv : Nat} (cfg : (d.fdc.channels[ch]'ch.isLt).cfg = some k)
    (waits : (d.fdc.channels[ch]'ch.isLt).cvPreload = some cv) :
    (d.eachFeed Station.takeCv).fdc.channels[ch]'ch.isLt = (d.fdc.channels[ch]'ch.isLt).cvTaken k (d.hasWeigher ch) ∧
    (d.eachFeed Station.takeCv).feedStaged ∧ FeedOnly d (d.eachFeed Station.takeCv) ∧
    (d.eachFeed Station.takeCv).dou = d.dou ∧ (d.eachFeed Station.takeCv).piu = d.piu ∧ (d.eachFeed Station.takeCv).alm = d.alm := by
  refine ⟨?_, ?_, (FeedOnly.refl d).eachFeed _ fun ch k _ hx => hx.takeCv ch k,
    eachFeed_keeps (P := fun x => x.dou = d.dou ∧ x.piu = d.piu ∧ x.alm = d.alm) (fun ch k x ⟨dou, piu, alm⟩ => ?_) ⟨rfl, rfl, rfl⟩⟩
  · obtain ⟨x, before, after⟩ := eachFeed_takes takeCv_apart d cfg
    rw [after.channel, (takeCv_record ch k x).1, before.channel, before.only.hasWeigher]
  · refine eachFeed_staged takeCv_apart (fun ch k x staged => ?_) cfg fun x before => ?_
    · unfold Station.takeCv
      split
      · exact staged
      · exact recomputeDelivered_staged ch k _
    · unfold Station.takeCv
      rw [before.channel, waits]
      exact recomputeDelivered_staged ch k _
  · obtain ⟨-, -, dou', piu', alm'⟩ := takeCv_record ch k x
    exact ⟨dou'.trans dou, piu'.trans piu, alm'.trans alm⟩

/-- The record of a channel that took its waiting calorific value. -/
theorem cvTaken_waiting {c : FeedChannel} {cv : Nat} (waits : c.cvPreload = some cv) (k : FeedCfg) (weigher : Bool) :
    c.cvTaken k weigher = { c with
      cv := cv, cvPreload := none, capacity := k.maxRate * cv / 3600
      delivered := if c.state = .running ∨ c.state = .held then
        (if weigher && !c.openLoop && c.rateSeen then c.measured else c.activeFine * k.ratePerFine * c.trim / 100000) * cv / 3600
        else 0 } := by
  unfold FeedChannel.cvTaken FeedChannel.capacityNext FeedChannel.cvNext
  rw [deliveredNow_eq, waits]
  rfl

/-- What a refresh in UP leaves of the calorific value of a channel. -/
theorem feedRefresh_cv {d : Station} (up : d.lpc.state = .up) {ch : Fin 2} {k : FeedCfg} (cfg : (d.fdc.channels[ch]'ch.isLt).cfg = some k) :
    (d.feedRefresh.fdc.channels[ch]'ch.isLt).cv = (d.fdc.channels[ch]'ch.isLt).cvNext ∧ (d.feedRefresh.fdc.channels[ch]'ch.isLt).cvPreload = none ∧
    (d.feedRefresh.fdc.channels[ch]'ch.isLt).capacity = d.capacityFresh ch := by
  obtain ⟨x, y, refreshed⟩ := feedRefresh_refreshed up cfg
  rw [refreshed.record, steered_record, capacityFresh_some cfg]
  exact ⟨rfl, rfl, rfl⟩

end Sys2Proof.Machine

open Sys2Proof Sys2Proof.Machine in
/-- Settles O40: the calorific values of a refresh, and the sums of the two passes of heat sharing. -/
theorem calorificValuesAreTakenAndTargetsStayWithinCapacity : Obligations.CalorificValuesAreTakenAndTargetsStayWithinCapacity := by
  refine ⟨fun ch s k cv other cfg waits => .of_act exec_floorRefresh ?_, fun s up => ?_, fun demand l => ?_, fun demand l => ?_⟩
  · let a := s.dev.take .fdcFloorRefresh
    obtain ⟨record, staged, only, kept⟩ := eachFeed_takeCv (d := a) cfg waits
    rw [cvTaken_waiting (c := a.fdc.channels[ch]'ch.isLt) waits] at record
    have eq : a.feedRefresh = a.eachFeed Station.takeCv := feedRefresh_other other
    rw [eq]
    exact ⟨record, fun duty => staged (only.feedDuty.trans duty), only, kept⟩
  · intro waiting fresh capacity
    let a := s.dev.take .fdcFloorRefresh
    refine .of_act exec_floorRefresh ⟨(FeedOnly.refl a).feedRefresh, fun ch k cfg => ?_⟩
    obtain ⟨cv, none', capacity'⟩ := feedRefresh_cv (d := a) up cfg
    exact ⟨cv, none', capacity', feedRefresh_gives (d := a) up cfg⟩
  · exact ⟨by rw [shareHeat_eq, List.length_map], shareHeat_within demand l, shareHeat_total demand l, shareHeat_carries demand l,
      shareHeat_covered demand l⟩
  · exact ⟨firstPass_total demand l, shareHeat_eq demand l⟩
end

section
/-! SUPPORT. The peer slots of a train as the new notices they bring, taken in slot and list order (R7, R51, R52). -/

set_option Elab.async false

namespace Sys2Proof.Machine

/-! ## One slot position -/

/-- The new notices of a slot position, by its entry in the floor image and its taken list (R52). -/
def newAt (body : List Byte) (i : Fin 16) (e : FloorEntry) (known : List Byte) : List NoticeBody :=
  match viewSlot i (rawSlot body i) with
  | .pass g => if isFresh g e then (g.notices.filter fun n => !(e.age < 3 && known.contains n.seq)).map (·.body) else []
  | _ => []

/-- The new notices of some slot positions, each with its slot. -/
def newIn (body : List Byte) (l : List (Fin 16)) (d : Station) : List (Fin 16 × NoticeBody) :=
  l.flatMap fun i => (newAt body i (d.lpc.floor[i]'i.isLt) (d.lpc.taken[i]'i.isLt)).map fun n => (i, n)

theorem newNotices_eq (body : List Byte) (d : Station) :
    newNotices body d = newIn body ((List.finRange 16).filter fun i => i ≠ d.own) d := by
  unfold newNotices newIn newAt
  refine List.flatMap_congr fun i _ => ?_
  dsimp only
  cases viewSlot i (rawSlot body i) with
  | empty => rfl
  | fail => rfl
  | pass g =>
    dsimp only
    split
    · rw [List.map_map]
      rfl
    · rfl

/-- A slot position's entry moved, its notices not yet taken (R7). -/
def Station.slotEntered (body : List Byte) (i : Fin 16) (d : Station) : Station :=
  let older := if (d.lpc.floor[i]'i.isLt).seen then { d.lpc.floor[i]'i.isLt with age := min 255 ((d.lpc.floor[i]'i.isLt).age + 1) } else (d.lpc.floor[i]'i.isLt)
  let entry := fun x : FloorEntry => vecModify d.lpc.floor i fun _ => x
  match viewSlot i (rawSlot body i) with
  | .empty => { d with lpc := { d.lpc with floor := entry older } }
  | .fail => { d with lpc := { d.lpc with
      floor := entry older, counters := { d.lpc.counters with slotErrors := d.lpc.counters.slotErrors.bump } } }
  | .pass g => { d with lpc := { d.lpc with
      floor := entry (if isFresh g (d.lpc.floor[i]'i.isLt) then { image := some g, seq := g.seq, age := 0, seen := true } else older) } }

/-- A slot position's taken list replaced (R52). -/
def Station.slotLeft (body : List Byte) (i : Fin 16) (d : Station) : Station :=
  match viewSlot i (rawSlot body i) with
  | .pass g => d.onLpc fun l => { l with taken := vecModify l.taken i fun _ => g.notices.map (·.seq) }
  | _ => d

section
variable (body : List Byte) (i : Fin 16) (d : Station)

theorem slotEntered_set : d.slotEntered body i = d.slotsSet (d.slotEntered body i).lpc ∧
    (d.slotEntered body i).lpc.live = d.lpc.live ∧ (d.slotEntered body i).lpc.taken = d.lpc.taken ∧
    ∀ j : Fin 16, j ≠ i → (d.slotEntered body i).lpc.floor[j]'j.isLt = d.lpc.floor[j]'j.isLt := by
  unfold Station.slotEntered
  dsimp only
  cases viewSlot i (rawSlot body i) <;>
    exact ⟨rfl, rfl, rfl, fun j ne => vecModify_ne _ _ _ j.val j.isLt fun e => ne (Fin.ext e.symm)⟩

theorem slotLeft_set : d.slotLeft body i = d.slotsSet (d.slotLeft body i).lpc ∧ (d.slotLeft body i).lpc.live = d.lpc.live ∧
    (d.slotLeft body i).lpc.floor = d.lpc.floor ∧
    ∀ j : Fin 16, j ≠ i → (d.slotLeft body i).lpc.taken[j]'j.isLt = d.lpc.taken[j]'j.isLt := by
  unfold Station.slotLeft
  cases viewSlot i (rawSlot body i) with
  | empty => exact ⟨rfl, rfl, rfl, fun _ _ => rfl⟩
  | fail => exact ⟨rfl, rfl, rfl, fun _ _ => rfl⟩
  | pass g => exact ⟨rfl, rfl, rfl, fun j ne => vecModify_ne _ _ _ j.val j.isLt fun e => ne (Fin.ext e.symm)⟩

/-- The notices of a slot handed on one after the other. -/
def Station.noticesTaken (ns : List NoticeBody) (d : Station) : Station := ns.foldl (fun d n => d.applyNotice i n) d

theorem peerTaken_eq : peerTaken body d i =
    ((d.slotEntered body i).noticesTaken i (newAt body i (d.lpc.floor[i]'i.isLt) (d.lpc.taken[i]'i.isLt))).slotLeft body i := by
  have entered := slotEntered_set body i d
  unfold peerTaken Station.slotLeft newAt Station.slotEntered Station.noticesTaken
  cases v : viewSlot i (rawSlot body i) with
  | empty => rfl
  | fail => rfl
  | pass g =>
    dsimp only
    unfold Station.takeNotices
    dsimp only
    refine congrArg (Station.onLpc _) ?_
    rcases Bool.eq_false_or_eq_true (isFresh g (d.lpc.floor[i]'i.isLt)) with fresh | old
    · simp only [fresh, if_true]
      rw [List.foldl_map, List.foldl_filter]
      refine congrArg (fun f => List.foldl f _ g.notices) (funext fun x => funext fun n => ?_)
      refine if_congr ?_ rfl rfl
      by_cases live : (d.lpc.floor[i]'i.isLt).age < 3
      · simp [live]
      · simp [live]
    · rw [old, if_neg Bool.false_ne_true]
      simp only [Bool.false_and, Bool.false_eq_true, if_false]
      exact List.foldl_fixed _

theorem noticesTaken_floor (ns : List NoticeBody) : FloorOnly d (d.noticesTaken i ns) := by
  unfold Station.noticesTaken
  induction ns generalizing d with
  | nil => exact .refl d
  | cons n ns ih => exact FloorOnly.trans ((FloorOnly.refl d).applyNotice i n) (ih _)

theorem noticesTaken_lpc (ns : List NoticeBody) : (d.noticesTaken i ns).lpc.floor = d.lpc.floor ∧
    (d.noticesTaken i ns).lpc.taken = d.lpc.taken ∧ (d.noticesTaken i ns).lpc.live = d.lpc.live := by
  rw [(noticesTaken_floor i d ns).lpc]
  exact ⟨rfl, rfl, rfl⟩

theorem peerTaken_floor : (peerTaken body d i).lpc.floor = (d.slotEntered body i).lpc.floor := by
  rw [peerTaken_eq, (slotLeft_set ..).2.2.1, (noticesTaken_lpc ..).1]

theorem peerTaken_elsewhere {j : Fin 16} (ne : j ≠ i) : (peerTaken body d i).lpc.floor[j]'j.isLt = d.lpc.floor[j]'j.isLt ∧
    (peerTaken body d i).lpc.taken[j]'j.isLt = d.lpc.taken[j]'j.isLt := by
  obtain ⟨-, -, taken, entered⟩ := slotEntered_set body i d
  constructor
  · rw [peerTaken_floor]
    exact entered j ne
  · rw [peerTaken_eq, (slotLeft_set ..).2.2.2 j ne, (noticesTaken_lpc ..).2.1, taken]

end

/-! ## The train of notices -/

/-- A station has taken notices in order, each with its sender's entry as it is in the end, and set slot positions between them. -/
inductive Hears (F : Fin 16 → FloorEntry) : List (Fin 16 × NoticeBody) → Station → Station → Prop
  | done (d : Station) : Hears F [] d d
  | sets {ns : List (Fin 16 × NoticeBody)} {d b : Station} (l : Lpc) (live : l.live = d.lpc.live)
      (later : Hears F ns (d.slotsSet l) b) : Hears F ns d b
  | takes {ns : List (Fin 16 × NoticeBody)} {d b : Station} (i : Fin 16) (n : NoticeBody) (entry : d.lpc.floor[i]'i.isLt = F i)
      (later : Hears F ns (d.applyNotice i n) b) : Hears F ((i, n) :: ns) d b

theorem Hears.trans {F : Fin 16 → FloorEntry} {ns ms : List (Fin 16 × NoticeBody)} {a b c : Station} (h : Hears F ns a b)
    (k : Hears F ms b c) : Hears F (ns ++ ms) a c := by
  induction h with
  | done _ => exact k
  | sets l live _ ih => exact .sets l live (ih k)
  | takes i n entry _ ih => exact .takes i n entry (ih k)

theorem noticesTaken_hears {F : Fin 16 → FloorEntry} (i : Fin 16) (ns : List NoticeBody) (d : Station) (entry : d.lpc.floor[i]'i.isLt = F i) :
    Hears F (ns.map fun n => (i, n)) d (d.noticesTaken i ns) := by
  induction ns generalizing d with
  | nil => exact .done d
  | cons n ns ih =>
    have same := (noticesTaken_lpc i d [n]).1
    refine .takes i n entry (ih _ ?_)
    rw [← entry]
    exact congrArg (fun v : Vector FloorEntry 16 => v[i]'i.isLt) same

theorem peerTaken_hears {F : Fin 16 → FloorEntry} (body : List Byte) (i : Fin 16) (d : Station)
    (entry : (peerTaken body d i).lpc.floor[i]'i.isLt = F i) :
    Hears F ((newAt body i (d.lpc.floor[i]'i.isLt) (d.lpc.taken[i]'i.isLt)).map fun n => (i, n)) d (peerTaken body d i) := by
  rw [peerTaken_floor] at entry
  obtain ⟨set, live, -⟩ := slotEntered_set body i d
  have notices := noticesTaken_hears i (newAt body i (d.lpc.floor[i]'i.isLt) (d.lpc.taken[i]'i.isLt)) _ entry
  rw [peerTaken_eq]
  generalize hy : (d.slotEntered body i).noticesTaken i (newAt body i (d.lpc.floor[i]'i.isLt) (d.lpc.taken[i]'i.isLt)) = y at *
  obtain ⟨left, stays, -⟩ := slotLeft_set body i y
  have last : Hears F [] y (y.slotLeft body i) := .sets _ stays (left ▸ .done _)
  rw [← List.append_nil (List.map _ _)]
  exact Hears.trans (.sets _ live (set ▸ notices)) last

theorem peers_elsewhere (body : List Byte) {l : List (Fin 16)} {j : Fin 16} (other : j ∉ l) (d : Station) :
    (l.foldl (peerTaken body) d).lpc.floor[j]'j.isLt = d.lpc.floor[j]'j.isLt := by
  induction l generalizing d with
  | nil => rfl
  | cons i l ih =>
    rw [List.foldl_cons, ih fun h => other (.tail _ h)]
    exact (peerTaken_elsewhere body i d fun e => other (e ▸ .head _)).1

/-- Slot positions taken one after the other bring their new notices. -/
theorem peers_hear (body : List Byte) (l : List (Fin 16)) (nd : l.Nodup) (d : Station) :
    Hears (fun j => (l.foldl (peerTaken body) d).lpc.floor[j]'j.isLt) (newIn body l d) d (l.foldl (peerTaken body) d) := by
  induction l generalizing d with
  | nil => exact .done d
  | cons i l ih =>
    obtain ⟨fresh, nd⟩ := List.nodup_cons.1 nd
    have later := ih nd (peerTaken body d i)
    have same : newIn body l (peerTaken body d i) = newIn body l d := by
      unfold newIn
      refine List.flatMap_congr fun j mem => ?_
      obtain ⟨floor, taken⟩ := peerTaken_elsewhere body i d (j := j) fun e => fresh (e ▸ mem)
      rw [floor, taken]
    rw [same] at later
    exact Hears.trans (peerTaken_hears body i d (peers_elsewhere body fresh _).symm) later

/-- The peer slots of a train bring its new notices. -/
theorem peersTaken_hears (body : List Byte) (d : Station) :
    ∃ x, Hears (fun j => x.lpc.floor[j]'j.isLt) (newNotices body d) d x ∧ peersTaken body d = { x with lpc := { x.lpc with
      live := (List.finRange 16).filter fun i => i ≠ d.own ∧ (x.lpc.floor[i]'i.isLt).age < 3 } } := by
  rw [newNotices_eq]
  exact ⟨_, peers_hear body _ ((List.nodup_finRange 16).filter _) d, rfl⟩

/-- The new notices of a train are the same for a station with the same number, floor image and taken lists. -/
theorem newNotices_same (body : List Byte) {a b : Station} (own : b.own = a.own) (floor : b.lpc.floor = a.lpc.floor)
    (taken : b.lpc.taken = a.lpc.taken) : newNotices body b = newNotices body a := by
  unfold newNotices
  rw [own, floor, taken]

end Sys2Proof.Machine
end

section
/-! SUPPORT. The Alarm Unit is blind to the floor image, the counters and the loss hold (R160 to R164). -/

set_option Elab.async false

namespace Sys2Proof.Machine

/-- The station with another floor image, taken lists, live set, counters and loss hold, and with events told before its own. -/
def Station.besides (l : Lpc) (d : Station) (told : List Instr := []) : Station :=
  { d with
    signals := told ++ d.signals
    lpc := { d.lpc with
      floor := l.floor, taken := l.taken, live := l.live, counters := l.counters, lossHold := l.lossHold } }

/-- An operation does the same whatever these are. -/
def Blind (f : Station → Station) : Prop := ∀ (l : Lpc) (d : Station) (p : List Instr), f (d.besides l p) = (f d).besides l p

/-- The point's condition is latched. -/
def Station.latches (i : Fin 32) (d : Station) : Bool :=
  match (d.alm.points[i]'i.isLt).cfg with
  | some c => c.latched
  | none => false

namespace Blind

theorem same : Blind fun d => d := fun _ _ _ => rfl

theorem comp {f g : Station → Station} (hg : Blind g) (hf : Blind f) : Blind fun d => g (f d) := fun l d p =>
  (congrArg g (hf l d p)).trans (hg l (f d) p)

/-- A choice by what these do not hold. -/
theorem ite {c : Station → Prop} [∀ d, Decidable (c d)] {f g : Station → Station} (same : ∀ l d p, c (d.besides l p) ↔ c d)
    (hf : Blind f) (hg : Blind g) : Blind fun d => if c d then f d else g d := fun l d p => by
  show (if c (d.besides l p) then f (d.besides l p) else g (d.besides l p)) = (if c d then f d else g d).besides l p
  by_cases h : c d
  · rw [if_pos h, if_pos ((same l d p).2 h)]
    exact hf l d p
  · rw [if_neg h, if_neg (mt (same l d p).1 h)]
    exact hg l d p

/-- A change that is made of what the station holds beside these. -/
theorem reads {α : Type} {v : Station → α} {f : α → Station → Station} (same : ∀ l d p, v (d.besides l p) = v d)
    (hf : ∀ a, Blind (f a)) : Blind fun d => f (v d) d := fun l d p => by
  show f (v (d.besides l p)) (d.besides l p) = (f (v d) d).besides l p
  rw [same l d p]
  exact hf _ l d p

theorem onAlm (f : Alm → Alm) : Blind (Station.onAlm f) := fun _ _ _ => rfl
theorem onPoint (i : Fin 32) (f : Point → Point) : Blind (Station.onPoint i f) := fun _ _ _ => rfl
theorem onStaging (f : Staging → Staging) : Blind (Station.onStaging f) := fun _ _ _ => rfl
theorem post (e : HostEvent) : Blind (Station.post e) := fun _ _ _ => rfl
theorem contribute (c : Contribution) : Blind (Station.contribute c) := fun l d p =>
  congrArg (fun q => ({ (d.contribute c).besides l with signals := q } : Station)) (List.append_assoc _ _ _)

theorem writeSummary : Blind Station.writeSummary := fun _ _ _ => rfl

theorem onEach {n : Nat} {f : Fin n → Station → Station} (hf : ∀ i, Blind (f i)) : Blind (forAll f) := by
  intro l d p
  unfold forAll
  induction List.finRange n generalizing d with
  | nil => rfl
  | cons i is ih => rw [List.foldl_cons, List.foldl_cons, hf i l d p, ih]

theorem submitPoint (i : Fin 32) (c : PointCfg) : Blind (Station.submitPoint i c) := by
  intro l d p
  have same : (d.besides l p).lpc.accepts (.alarmState (((d.besides l p).alm.points[i]'i.isLt).body i c)) =
    d.lpc.accepts (.alarmState ((d.alm.points[i]'i.isLt).body i c)) := rfl
  unfold Station.submitPoint Station.submit
  rw [same]
  cases d.lpc.accepts (.alarmState ((d.alm.points[i]'i.isLt).body i c)) <;> rfl

theorem announce (i : Fin 32) : Blind (Station.announce i) := by
  intro l d p
  unfold Station.announce
  rw [show ((d.besides l p).alm.points[i]'i.isLt).cfg = (d.alm.points[i]'i.isLt).cfg from rfl]
  cases (d.alm.points[i]'i.isLt).cfg with
  | none => rfl
  | some c =>
    exact ite (c := fun d => (d.alm.points[i]'i.isLt).shelf.isSome = true) (fun _ _ _ => Iff.rfl) same
      (ite (c := fun d => (d.deferred c || (d.alm.points[i]'i.isLt).pending) = true) (fun _ _ _ => Iff.rfl) (onPoint i _) (submitPoint i c)) l d p

theorem recomputeTrip : Blind Station.recomputeTrip :=
  ite (c := fun d => d.tripNow = d.alm.trip) (fun _ _ _ => Iff.rfl) same fun _ _ _ => rfl

theorem setActive (a : List (Fin 32)) : Blind (Station.setActive a) :=
  ite (c := fun d => a.length = d.alm.active.length) (fun _ _ _ => Iff.rfl) (onAlm _)
    ((contribute _).comp (onAlm fun x => { x with active := a }))

theorem pointChanged (i : Fin 32) : Blind (Station.pointChanged i) :=
  writeSummary.comp ((ite (c := fun d => d.isTripPoint i = true) (fun _ _ _ => Iff.rfl) recomputeTrip same).comp
    ((post .alarmChange).comp (announce i)))

theorem pointNormal (i : Fin 32) : Blind (Station.pointNormal i) :=
  (pointChanged i).comp ((reads (v := fun d => d.alm.active.filter (· != i)) (f := fun a d => d.setActive a) (fun _ _ _ => rfl)
    setActive).comp (onPoint i _))

theorem addRecent : Blind Station.addRecent := by
  intro l d p
  unfold Station.addRecent
  dsimp only
  rw [show (d.besides l p).now = d.now from rfl, onAlm _ l d p]
  generalize d.onAlm _ = x
  exact ite (c := fun d => (!d.alm.flood && decide (d.alm.recent.length > d.floodCfg.high)) = true) (fun _ _ _ => Iff.rfl)
    ((post _).comp (writeSummary.comp ((contribute _).comp (onAlm _)))) same l x p

theorem raisePoint (i : Fin 32) : Blind (Station.raisePoint i) :=
  (pointChanged i).comp ((contribute .raise).comp (addRecent.comp
    ((reads (v := fun d => d.alm.active.filter (· != i) ++ [i]) (f := fun a d => d.setActive a) (fun _ _ _ => rfl) setActive).comp
      (f := fun d => d.onPoint i fun p =>
        { p with occurrence := p.occurrence + 1, raiseTime := d.sru.time, raiseShift := d.sru.shift,
                 state := .raisedUnacked, gone := false }) fun _ _ _ => rfl)))

theorem ackPoint (i : Fin 32) : Blind (Station.ackPoint i) := by
  intro l d p
  unfold Station.ackPoint
  rw [show ((d.besides l p).alm.points[i]'i.isLt) = d.alm.points[i]'i.isLt from rfl]
  cases (d.alm.points[i]'i.isLt).state with
  | normal => rfl
  | raisedAcked => rfl
  | returnedUnacked => exact pointNormal i l d p
  | raisedUnacked =>
    cases (d.alm.points[i]'i.isLt).gone with
    | true => exact pointNormal i l d p
    | false => exact (pointChanged i).comp (onPoint i _) l d p

theorem applyAck (point occurrence : Byte) : Blind (Station.applyAck point occurrence) := by
  intro l d p
  unfold Station.applyAck
  rw [show (d.besides l p).ownPoint point = d.ownPoint point from rfl]
  cases d.ownPoint point with
  | none => rfl
  | some i => exact ite (c := fun d => (d.alm.points[i]'i.isLt).occurrence = occurrence) (fun _ _ _ => Iff.rfl) (ackPoint i) (contribute _) l d p

theorem qualify (i : Fin 32) : Blind (Station.qualify i) := by
  intro l d p
  unfold Station.qualify
  dsimp only
  rw [onPoint i _ l d p]
  generalize d.onPoint i _ = x
  rw [show ((x.besides l p).alm.points[i]'i.isLt) = x.alm.points[i]'i.isLt from rfl]
  cases (x.alm.points[i]'i.isLt).state with
  | normal => exact raisePoint i l x p
  | raisedAcked => rfl
  | returnedUnacked => exact raisePoint i l x p
  | raisedUnacked =>
    cases (x.alm.points[i]'i.isLt).gone with
    | true => exact raisePoint i l x p
    | false => rfl

theorem unqualify (i : Fin 32) : Blind (Station.unqualify i) := by
  intro l d p
  unfold Station.unqualify
  dsimp only
  rw [onPoint i _ l d p]
  generalize d.onPoint i _ = x
  rw [show ((x.besides l p).alm.points[i]'i.isLt) = x.alm.points[i]'i.isLt from rfl]
  cases (x.alm.points[i]'i.isLt).state with
  | normal => rfl
  | raisedAcked => exact pointNormal i l x p
  | returnedUnacked => rfl
  | raisedUnacked =>
    exact ite (c := fun d => d.latches i = true) (fun _ _ _ => Iff.rfl) (onPoint i _) ((pointChanged i).comp (onPoint i _)) l x p

theorem setWatched (i : Fin 32) (v : Bool) : Blind (Station.setWatched i v) := by
  intro l d p
  unfold Station.setWatched
  rw [show ((d.besides l p).alm.points[i]'i.isLt) = d.alm.points[i]'i.isLt from rfl]
  cases (d.alm.points[i]'i.isLt).cfg with
  | none => rfl
  | some c =>
    dsimp only
    by_cases same' : (d.alm.points[i]'i.isLt).watched = v
    · rw [if_pos same', if_pos same']
    · rw [if_neg same', if_neg same', onPoint i _ l d p]
      generalize d.onPoint i _ = x
      rw [show ((x.besides l p).alm.points[i]'i.isLt) = x.alm.points[i]'i.isLt from rfl]
      cases (x.alm.points[i]'i.isLt).qualified <;> cases v
      · rfl
      · exact ite (c := fun _ => c.onDelay = 0) (fun _ _ _ => Iff.rfl) (qualify i) (fun _ _ _ => rfl) l x p
      · exact ite (c := fun _ => c.offDelay = 0) (fun _ _ _ => Iff.rfl) (unqualify i) (fun _ _ _ => rfl) l x p
      · rfl

theorem report (k : CondKind) (inst : Nat) (v : Bool) : Blind (Station.report k inst v) :=
  ite (c := fun d => d.condition k inst = v) (fun _ _ _ => Iff.rfl) same
    ((ite (c := fun _ => k = .estop) (fun _ _ _ => Iff.rfl) recomputeTrip same).comp
      ((onEach fun i => ite (c := fun d => (d.alm.points[i]'i.isLt).watches k inst = true) (fun _ _ _ => Iff.rfl) (setWatched i v) same).comp
        (onAlm _)))

theorem almNoticeLost (b : NoticeBody) : Blind (Station.almNoticeLost b) := by
  intro l d p
  unfold Station.almNoticeLost
  dsimp only
  rw [contribute .noticeLost l d p]
  generalize d.contribute .noticeLost = x
  cases b with
  | ackRequest t p o => rfl
  | timeSet t => rfl
  | alarmState a =>
    dsimp only
    rw [show (x.besides l p).ownPoint a.point = x.ownPoint a.point from rfl]
    cases x.ownPoint a.point with
    | none => rfl
    | some i =>
      dsimp only
      rw [show ((x.besides l p).alm.points[i]'i.isLt).cfg = (x.alm.points[i]'i.isLt).cfg from rfl]
      cases (x.alm.points[i]'i.isLt).cfg with
      | none => rfl
      | some c =>
        exact ite (c := fun d => (d.alm.points[i]'i.isLt).shelf.isSome = true) (fun _ _ _ => Iff.rfl) (onPoint i _)
          (ite (c := fun d => ((d.alm.points[i]'i.isLt).pending || d.deferred c) = true) (fun _ _ _ => Iff.rfl) (onPoint i _)
            (submitPoint i c)) l x p

end Blind

end Sys2Proof.Machine
end

section
/-! SUPPORT. What an arrival in UP leaves of a train that was taken, and the alarms that its notices move (R10, R13, R52, R53). -/

set_option Elab.async false

namespace Sys2Proof.Machine

/-! ## After the train is taken -/

/-- What the handling of a train leaves as the train gave it. -/
structure TrainOver (t b : Station) : Prop where
  alm : b.alm = t.alm
  lost : b.lpc.counters.noticesLost = t.lpc.counters.noticesLost
  hold : b.lpc.lossHold = t.lpc.lossHold
  signals : t.signals <+: b.signals
  floor : ∀ i : Fin 16, i ≠ t.own → b.lpc.floor[i]'i.isLt = t.lpc.floor[i]'i.isLt

theorem ownWritten_other {i : Fin 16} {d : Station} (ne : i ≠ d.own) : (ownWritten d).lpc.floor[i]'i.isLt = d.lpc.floor[i]'i.isLt :=
  vecModify_ne _ _ _ _ _ fun e => ne (Fin.ext e.symm)

/-- The origin's head is the own one, a member's another's. -/
def HeadFits (body : List Byte) (d : Station) : Prop :=
  ∀ h, readHead (body.take 14) = some h → (h.origin = stationByte d.own ↔ d.lpc.origin = true)

section
variable {body : List Byte} {d : Station}

theorem arriveUp_fits_member (fits : HeadFits body d) (member : d.lpc.origin = false) :
    d.arriveUp (readTrain body) = d.arriveMember (readTrain body) :=
  arriveUp_member member fun h head own => Bool.false_ne_true (member.symm.trans ((fits h head).1 own))

theorem arriveUp_fits_return (fits : HeadFits body d) (origin : d.lpc.origin = true) :
    d.arriveUp (readTrain body) = d.arriveReturn (readTrain body) :=
  arriveUp_return origin fun h head => (fits h head).2 origin

theorem released_over (d : Station) : TrainOver d (released d) := by
  obtain ⟨h, g, -, -, sent⟩ := release_train d
  rw [release_eq] at sent
  refine ⟨sent.alm, ?_, ?_, ?_, fun i ne => ?_⟩
  · rw [sent.lpc]
    rfl
  · rw [sent.lpc]
    rfl
  · rw [sent.signals]
    exact List.prefix_refl _
  · rw [sent.lpc]
    exact trainOut_other ne h g

theorem arriveUp_over (clean : NoDuplicate body d) (fits : HeadFits body d) :
    TrainOver (trainTaken body d) (d.arriveUp (readTrain body)) := by
  rcases Bool.eq_false_or_eq_true d.lpc.origin with origin | member
  · rw [arriveUp_fits_return fits origin, arriveReturn_eq clean]
    have back : TrainOver (trainTaken body d) (returnedTrain body d) := ⟨rfl, rfl, rfl, List.prefix_append _ _, fun _ _ => rfl⟩
    split
    · obtain ⟨alm, lost, hold, signals, floor⟩ := released_over (lateCounted (returnedTrain body d))
      exact ⟨alm, lost, hold, back.signals.trans signals, floor⟩
    · exact back
  · rw [arriveUp_fits_member fits member, arriveMember_eq clean]
    exact ⟨rfl, rfl, rfl, List.prefix_append _ _, fun i ne => ownWritten_other ne⟩

end

/-- What holds after every train that a station takes in UP. -/
theorem Runs.of_train {body : List Byte} {s : State} {P : Station → Prop} (up : s.dev.lpc.state = .up)
    (clean : NoDuplicate body s.dev) (fits : HeadFits body s.dev)
    (h : ∀ d, TrainOver (trainTaken body (trainCounted (.trainArrival body) s.dev)) d → P d) : Runs (.trainArrival body) s P := by
  refine .of_act (f := Station.arrive (readTrain body)) (fun _ => rfl) ?_
  rw [arrive_up up]
  exact h _ (arriveUp_over (d := trainCounted _ _) clean fits)

/-! ## The notices of a train -/

theorem Hears.none {F : Fin 16 → FloorEntry} {ns : List (Fin 16 × NoticeBody)} {d b : Station} (h : Hears F ns d b) (empty : ns = []) :
    ∃ l, b = d.besides l := by
  induction h with
  | done d => exact ⟨d.lpc, rfl⟩
  | sets l _ _ ih =>
    obtain ⟨m, rfl⟩ := ih empty
    exact ⟨_, rfl⟩
  | takes => exact absurd empty (List.cons_ne_nil _ _)

/-- A train with one new notice hands it on once, and sets nothing else. -/
theorem Hears.single {F : Fin 16 → FloorEntry} {ns : List (Fin 16 × NoticeBody)} {d b : Station} {i : Fin 16} {n : NoticeBody}
    (h : Hears F ns d b) (one : ns = [(i, n)]) :
    ∃ l m, (d.besides l).lpc.floor[i]'i.isLt = F i ∧ b = ((d.besides l).applyNotice i n).besides m := by
  induction h with
  | done d => exact absurd one.symm (List.cons_ne_nil _ _)
  | sets l _ _ ih =>
    obtain ⟨k, m, entry, rfl⟩ := ih one
    exact ⟨_, m, entry, rfl⟩
  | @takes ns d b j n' entry later _ =>
    obtain ⟨pair, rest⟩ := List.cons.inj one
    obtain ⟨rfl, rfl⟩ := Prod.mk.inj pair
    obtain ⟨m, rfl⟩ := later.none rest
    exact ⟨d.lpc, m, entry, rfl⟩

theorem newNotices_peer {body : List Byte} {d : Station} {i : Fin 16} {n : NoticeBody} (h : newNotices body d = [(i, n)]) :
    i ≠ d.own := by
  have mem : (i, n) ∈ newIn body ((List.finRange 16).filter fun i => i ≠ d.own) d := by
    rw [← newNotices_eq, h]
    exact .head _
  obtain ⟨j, from', taken⟩ := List.mem_flatMap.1 mem
  obtain ⟨n', -, pair⟩ := List.mem_map.1 taken
  obtain ⟨rfl, -⟩ := Prod.mk.inj pair
  exact of_decide_eq_true (List.mem_filter.1 from').2

/-! ## An alarm of a peer -/

theorem checkEpoch_besides {i : Fin 16} {l : Lpc} {d : Station} (image : (l.floor[i]'i.isLt).image = (d.lpc.floor[i]'i.isLt).image) :
    (d.besides l).checkEpoch i = (d.checkEpoch i).besides l := by
  unfold Station.checkEpoch
  rw [show ((d.besides l).lpc.floor[i]'i.isLt).image = (d.lpc.floor[i]'i.isLt).image from image]
  cases (d.lpc.floor[i]'i.isLt).image with
  | none => rfl
  | some g =>
    exact Blind.ite (c := fun d => d.alm.epochs[i]'i.isLt = some g.epoch) (fun _ _ _ => Iff.rfl) .same
      ((Blind.onAlm _).comp (Blind.ite (c := fun d => (d.alm.epochs[i]'i.isLt).isNone = true) (fun _ _ _ => Iff.rfl) .same
        (Blind.reads (v := fun d => d.alm.mirror.filter fun e => e.owner != i) (f := fun m d => d.setMirror m) (fun _ _ _ => rfl)
          fun m => Blind.ite (c := fun d => m = d.alm.mirror) (fun _ _ _ => Iff.rfl) .same
            ((Blind.post _).comp (Blind.onAlm _))))) l d []

theorem Blind.setMirror (m : List MirrorEntry) : Blind (Station.setMirror m) :=
  Blind.ite (c := fun d => m = d.alm.mirror) (fun _ _ _ => Iff.rfl) .same ((Blind.post _).comp (Blind.onAlm _))

theorem Blind.alarmTaken (owner : Fin 16) (b : AlarmBody) : Blind (Station.alarmTaken owner b) := by
  intro l d p
  unfold Station.alarmTaken
  dsimp only
  rw [show (d.besides l p).alm = d.alm from rfl]
  cases d.alm.mirror.find? fun e => e.isFor owner b.point with
  | some e => exact Blind.ite (c := fun _ => b.state = .normal) (fun _ _ _ => Iff.rfl) (.setMirror _) (.setMirror _) l d p
  | none =>
    dsimp only
    by_cases normal : b.state = .normal
    · rw [if_pos normal, if_pos normal]
    · rw [if_neg normal, if_neg normal]
      by_cases room : d.alm.mirror.length < 64
      · rw [if_pos room, if_pos room]
        exact Blind.setMirror _ l d p
      · rw [if_neg room, if_neg room]
        cases dropAckedLow d.alm.mirror with
        | none => rfl
        | some m => exact Blind.setMirror _ l d p

theorem applyAlarm_besides {i : Fin 16} (b : AlarmBody) {l : Lpc} {d : Station} (image : (l.floor[i]'i.isLt).image = (d.lpc.floor[i]'i.isLt).image) :
    (d.besides l).applyAlarm i b = (d.applyAlarm i b).besides l := by
  rw [applyAlarm_eq, applyAlarm_eq, checkEpoch_besides image, Blind.alarmTaken i b]

end Sys2Proof.Machine
end

section
/-! SUPPORT. The alarms that a train moves: by one new notice, and by one loss at the own slot (R47, R53, R161, R164, R167). -/

set_option Elab.async false

namespace Sys2Proof.Machine

/-! ## The own slot -/

section
variable {body : List Byte} {d : Station}

/-- Without a write to look for, the own slot is not judged. -/
theorem ownJudged_quiet (quiet : d.lpc.prevWrite = false) : ∃ l : Lpc, l.floor = d.lpc.floor ∧ ownJudged body d = d.besides l := by
  rw [ownJudged_eq]
  dsimp only
  rw [if_pos quiet]
  split
  · exact ⟨d.slotError.lpc, rfl, rfl⟩
  · exact ⟨d.lpc, rfl, rfl⟩

/-- The own slot's judgement, whatever its position shows: the losses in turn, and the place free (R47, R49). -/
theorem ownJudged_looks (looks : d.lpc.prevWrite = true) : ∃ c : Counters, c.noticesLost = d.lpc.counters.noticesLost ∧
    ownJudged body d = Station.judgeReturn (ownRecords body d.own) { d with lpc := { d.lpc with counters := c } } := by
  rw [ownJudged_eq]
  dsimp only
  rw [if_neg (ne_false_of_eq_true looks)]
  split
  · exact ⟨d.slotError.lpc.counters, rfl, rfl⟩
  · exact ⟨d.lpc.counters, rfl, rfl⟩

end

/-- The alarms of a lost notice, whatever the counters and the loss hold are. -/
theorem loseNotice_alm {b : NoticeBody} {l : Lpc} {d : Station} :
    ((d.besides l).loseNotice b).alm = ((d.almNoticeLost b).report .noticeLoss 0 true).alm := by
  have blind := (Blind.report .noticeLoss 0 true).comp (Blind.almNoticeLost b)
  exact (congrArg Station.alm
    (blind { l with counters := { l.counters with noticesLost := l.counters.noticesLost.bump } } d []) :)

/-! ## One new notice -/

section
variable {body : List Byte} {s : State}

/-- A station that has taken the head of a train. -/
def headHeard (body : List Byte) (s : State) : Station := headTaken (readHead (body.take 14)) (trainCounted (.trainArrival body) s.dev)

theorem headHeard_floor (body : List Byte) (s : State) :
    FloorOnly ((trainCounted (.trainArrival body) s.dev).headSet body) (headHeard body s) := by
  have head := (headOrError_spec (readHead (body.take 14)) (trainCounted (.trainArrival body) s.dev)).1
  rw [headOrError_eq] at head
  exact head

theorem headHeard_lpc (body : List Byte) (s : State) : (headHeard body s).lpc.floor = s.dev.lpc.floor ∧
    (headHeard body s).lpc.taken = s.dev.lpc.taken ∧ (headHeard body s).lpc.prevWrite = s.dev.lpc.prevWrite ∧
    (headHeard body s).lpc.counters.noticesLost = s.dev.lpc.counters.noticesLost ∧
    (headHeard body s).lpc.lossHold = s.dev.lpc.lossHold ∧ (headHeard body s).lpc.live = s.dev.lpc.live := by
  rw [(headHeard_floor body s).lpc, headSet_rest]
  exact ⟨rfl, rfl, rfl, rfl, rfl, rfl⟩

theorem headHeard_own (body : List Byte) (s : State) : (headHeard body s).own = s.dev.own := (headHeard_floor body s).own

theorem newNotices_headHeard (body : List Byte) (s : State) : newNotices body (headHeard body s) = newNotices body s.dev :=
  newNotices_same body (headHeard_own body s) (headHeard_lpc body s).1 (headHeard_lpc body s).2.1

/-- One new notice of a train, where the own slot is not judged: it is handed on once, with its sender's entry as it is in the end. -/
theorem train_single {i : Fin 16} {n : NoticeBody} {d : Station} (quiet : s.dev.lpc.prevWrite = false)
    (one : newNotices body s.dev = [(i, n)])
    (left : TrainOver (trainTaken body (trainCounted (.trainArrival body) s.dev)) d) :
    ∃ l, l.floor[i]'i.isLt = d.lpc.floor[i]'i.isLt ∧ d.alm = (((headHeard body s).besides l).applyNotice i n).alm := by
  have peer : i ≠ (headHeard body s).own := (headHeard_own body s) ▸ newNotices_peer one
  obtain ⟨z, hears, taken⟩ := peersTaken_hears body (headHeard body s)
  obtain ⟨l, m, entry, rfl⟩ := hears.single ((newNotices_headHeard body s).trans one)
  have looks : (peersTaken body (headHeard body s)).lpc.prevWrite = false :=
    (peersHeard body _).prevWrite.trans quiet
  have own : (trainTaken body (trainCounted (.trainArrival body) s.dev)).own = (headHeard body s).own :=
    (trainHeard body _).ownIndex.trans (headHeard_own body s).symm
  obtain ⟨k, stood, judged⟩ := ownJudged_quiet (body := body) looks
  have judged : trainTaken body (trainCounted (.trainArrival body) s.dev) = _ := judged
  refine ⟨l, ?_, ?_⟩
  · have last : (trainTaken body (trainCounted (.trainArrival body) s.dev)).lpc.floor[i]'i.isLt = m.floor[i]'i.isLt := by
      rw [judged]
      show (k.floor[i]'i.isLt) = _
      rw [stood, taken]
      rfl
    rw [left.floor i (own ▸ peer), last]
    exact entry
  · rw [left.alm, judged, taken]
    rfl

/-- An acknowledgement that a train brings (R53, R164). -/
theorem train_acked {i : Fin 16} {target point occurrence : Byte} {d : Station} (quiet : s.dev.lpc.prevWrite = false)
    (one : newNotices body s.dev = [(i, .ackRequest target point occurrence)])
    (left : TrainOver (trainTaken body (trainCounted (.trainArrival body) s.dev)) d) :
    d.alm = if target = stationByte s.dev.own then ((headHeard body s).applyAck point occurrence).alm else (headHeard body s).alm := by
  obtain ⟨l, -, taken⟩ := train_single quiet one left
  have own : ((headHeard body s).besides l).ownByte = stationByte s.dev.own := congrArg stationByte (headHeard_own body s)
  rw [taken]
  unfold Station.applyNotice
  dsimp only
  rw [own]
  split
  · rw [Blind.applyAck point occurrence l]
    rfl
  · rfl

/-- A peer's alarm state that a train brings (R53, R167). -/
theorem train_alarmed {i : Fin 16} {b : AlarmBody} {d : Station} (quiet : s.dev.lpc.prevWrite = false)
    (one : newNotices body s.dev = [(i, .alarmState b)])
    (left : TrainOver (trainTaken body (trainCounted (.trainArrival body) s.dev)) d) :
    d.alm = (Station.applyAlarm i b { headHeard body s with lpc := { (headHeard body s).lpc with floor := d.lpc.floor } }).alm := by
  obtain ⟨l, entry, taken⟩ := train_single quiet one left
  rw [taken]
  have same := applyAlarm_besides b (i := i) (l := l)
    (d := { headHeard body s with lpc := { (headHeard body s).lpc with floor := d.lpc.floor } }) (congrArg FloorEntry.image entry)
  exact (congrArg Station.alm same :)

/-- The own slot of a train with one loss (R47, R161). -/
theorem train_lost {b : NoticeBody} {d : Station} (looks : s.dev.lpc.prevWrite = true)
    (one : (peersTaken body (headHeard body s)).lpc.losses (ownRecords body s.dev.own) = [b])
    (left : TrainOver (trainTaken body (trainCounted (.trainArrival body) s.dev)) d) :
    let y := peersTaken body (headHeard body s)
    d.alm = ((Station.almNoticeLost b { y with lpc := y.lpc.judged (ownRecords body s.dev.own) }).report .noticeLoss 0 true).alm := by
  intro y
  have peers := peersHeard body (trainCounted (.trainArrival body) s.dev)
  have looked : y.lpc.prevWrite = true := peers.prevWrite.trans looks
  have own : y.own = s.dev.own := peers.ownIndex
  obtain ⟨c, -, judged⟩ := ownJudged_looks (body := body) looked
  rw [own, judgeReturn_eq] at judged
  have losses : Lpc.losses (ownRecords body s.dev.own) { y.lpc with counters := c } = [b] := one
  dsimp only at judged
  rw [losses] at judged
  rw [left.alm, show trainTaken body (trainCounted (.trainArrival body) s.dev) = _ from judged]
  have told : (Station.loseNotice b { y with lpc := Lpc.judged (ownRecords body s.dev.own) { y.lpc with counters := c } }).alm =
      ((Station.almNoticeLost b { y with lpc := y.lpc.judged (ownRecords body s.dev.own) }).report .noticeLoss 0 true).alm :=
    loseNotice_alm (l := { y.lpc with counters := c }) (d := { y with lpc := y.lpc.judged (ownRecords body s.dev.own) })
  split <;> exact told

end

end Sys2Proof.Machine

open Sys2Proof Sys2Proof.Machine in
/-- Settles O47: acknowledgements by request and by a train, each at the point that it names. -/
theorem acknowledgementsReachOwnAndRemotePoints : Obligations.AcknowledgementsReachOwnAndRemotePoints := by
  refine ⟨ackAlarm_answers, applyAck_applies, fun body s i target point occurrence up quiet => ?_⟩
  intro cmd fits one x
  exact .of_train up (noDuplicate_of_quiet quiet) fits fun d left => train_acked quiet one left

open Sys2Proof Sys2Proof.Machine in
/-- Settles O49: the recent raises, the resubmission, the floor mirror, and what a train brings of both. -/
theorem floodPassesAndTheMirrorFollowsTheFloor : Obligations.FloodPassesAndTheMirrorFollowsTheFloor := by
  refine ⟨fun s => ⟨.of_act exec_almPlaceFree (resubmit_spec _), ⟨fun empty => ?_, fun x rest recent => ⟨fun stays => ?_,
    fun flood low => ?_⟩⟩, .of_act exec_almFloorRefresh (floorRefreshed_moves _)⟩, fun a i c d place cfg => almNoticeLost_point place cfg,
    fun owner b d => ?_, fun body s up clean => ?_⟩
  · exact exec_eq exec_recentRaiseExpiry (recentExpiry_empty (d := s.dev.take .recentRaiseExpiry) empty)
  · exact exec_eq exec_recentRaiseExpiry (recentExpiry_stays (d := s.dev.take .recentRaiseExpiry) recent stays)
  · refine .of_act exec_recentRaiseExpiry ?_
    rw [recentExpiry_ends (d := s.dev.take .recentRaiseExpiry) recent flood low]
    exact resubmit_spec _
  · intro x stale mirror others added counted
    obtain ⟨absent, known, new⟩ := applyAlarm_counts owner b d
    obtain ⟨moves, epochs⟩ := applyAlarm_moves owner b d
    exact ⟨absent, known, new, (congrArg (fun v : Vector (Option Byte) 16 => v[owner]'owner.isLt) epochs).trans (epochsChecked_own d owner),
      moves.posted, moves.rest⟩
  · intro cmd fits x y records
    exact ⟨fun i b quiet one => .of_train up clean fits fun d left => train_alarmed quiet one left,
      fun b looks one => .of_train up clean fits fun d left => train_lost looks one left⟩
end

section
/-! SUPPORT. The supervision timers and holds, and the losses of notices (R47, R49, R103 to R105, R111). -/

set_option Elab.async false

namespace Sys2Proof.Machine

/-! ## A notice lost -/

theorem submitPoint_signals (i : Fin 32) (c : PointCfg) (d : Station) : (d.submitPoint i c).signals = d.signals := by
  unfold Station.submitPoint Station.submit
  cases d.lpc.accepts (.alarmState ((d.alm.points[i]'i.isLt).body i c)) <;> rfl

/-- The Alarm Unit hands on every loss (R161). -/
theorem almNoticeLost_signals (b : NoticeBody) (d : Station) :
    (d.almNoticeLost b).signals = d.signals ++ [.sruContribution .noticeLost] := by
  unfold Station.almNoticeLost
  cases b with
  | ackRequest t p o => rfl
  | timeSet t => rfl
  | alarmState a =>
    dsimp only
    cases (d.contribute .noticeLost).ownPoint a.point with
    | none => rfl
    | some i =>
      dsimp only
      cases ((d.contribute .noticeLost).alm.points[i]'i.isLt).cfg with
      | none => rfl
      | some c =>
        dsimp only
        split
        · rfl
        · split
          · rfl
          · exact submitPoint_signals i c _

/-- What the loss of a notice leaves (R47, R49). -/
structure NoticeLost (a b : Station) : Prop where
  present : b.condition .noticeLoss 0 = true
  told : .sruContribution .noticeLost ∈ b.signals
  only : AlarmsOnly { a with lpc := { a.lpc with
    lossHold := some (a.now + 60000000)
    counters := { a.lpc.counters with noticesLost := a.lpc.counters.noticesLost.bump } } } b

theorem loseNotice_lost (b : NoticeBody) (d : Station) : NoticeLost d (d.loseNotice b) := by
  let e := d.onCounters fun c => { c with noticesLost := c.noticesLost.bump }
  have present : ((e.almNoticeLost b).report .noticeLoss 0 true).condition .noticeLoss 0 = true := report_condition ..
  have only : AlarmsOnly e ((e.almNoticeLost b).report .noticeLoss 0 true) :=
    ((MovesPoints.refl e).almNoticeLost b).only.trans (report_only ..)
  have told : .sruContribution .noticeLost ∈ ((e.almNoticeLost b).report .noticeLoss 0 true).signals := by
    refine (report_only .noticeLoss 0 true (e.almNoticeLost b)).signals.subset ?_
    rw [almNoticeLost_signals]
    exact List.mem_append_right _ (.head _)
  refine ⟨present, told, only.signals, only.events, ?_⟩
  have rest := only.rest
  have now : ((e.almNoticeLost b).report .noticeLoss 0 true).now = d.now := by rw [rest]; rfl
  show (((e.almNoticeLost b).report .noticeLoss 0 true).onLpc fun l =>
    { l with lossHold := some (((e.almNoticeLost b).report .noticeLoss 0 true).now + 60000000) }) = _
  rw [now]
  unfold Station.onLpc
  rw [rest]
  rfl

/-- What the losses of a return leave (R47, R49). -/
structure NoticesLost (n : Nat) (a b : Station) : Prop where
  counted : b.lpc.counters.noticesLost = Counter.bump^[n] a.lpc.counters.noticesLost
  kept : n = 0 → b.lpc.lossHold = a.lpc.lossHold
  told : n ≠ 0 → b.lpc.lossHold = some (a.now + 60000000) ∧ b.condition .noticeLoss 0 = true ∧
    .sruContribution .noticeLost ∈ b.signals

theorem loseNotices_lost (l : List NoticeBody) (d : Station) :
    NoticesLost l.length d (l.foldl (fun d b => d.loseNotice b) d) := by
  induction l generalizing d with
  | nil => exact ⟨rfl, fun _ => rfl, fun h => absurd rfl h⟩
  | cons b l ih =>
    obtain ⟨present, told, only⟩ := loseNotice_lost b d
    obtain ⟨counted, kept, later⟩ := ih (d.loseNotice b)
    have moved := only.lpc
    have same : (d.loseNotice b).now = d.now := by rw [only.rest]
    refine ⟨?_, nofun, fun _ => ?_⟩
    · rw [List.foldl_cons, counted, moved]
      rfl
    · rw [List.foldl_cons]
      by_cases last : l = []
      · subst last
        exact ⟨by rw [List.foldl_nil, moved], present, told⟩
      · rw [← same]
        exact later (mt List.length_eq_zero_iff.1 last)

/-- The losses told of stations with the same counters, loss hold and alarms. -/
theorem NoticesLost.of_same {n : Nat} {a b x y : Station} (h : NoticesLost n x y)
    (before : x.lpc.counters.noticesLost = a.lpc.counters.noticesLost ∧ x.lpc.lossHold = a.lpc.lossHold ∧ x.now = a.now)
    (after : b.lpc.counters.noticesLost = y.lpc.counters.noticesLost ∧ b.lpc.lossHold = y.lpc.lossHold ∧ b.alm = y.alm ∧
      y.signals <+: b.signals) : NoticesLost n a b := by
  obtain ⟨counted, kept, told⟩ := h
  obtain ⟨lost, hold, now⟩ := before
  obtain ⟨lost', hold', alm, signals⟩ := after
  rw [lost] at counted
  rw [hold] at kept
  rw [now] at told
  refine ⟨lost'.trans counted, fun none' => hold'.trans (kept none'), fun some' => ?_⟩
  obtain ⟨held, present, mem⟩ := told some'
  exact ⟨hold'.trans held, (condition_of_alm alm _ _).trans present, signals.subset mem⟩

/-! ## Timers and holds -/

/-- What the end of a timer does, while it runs. -/
def Station.ends (timer : Station → Option Nat) (f : Station → Station) (d : Station) : Station := if (timer d).isNone then d else f d

/-- A condition reported at the end of a timer (R103 to R105). -/
def Station.holdEnded (kind : HoldKind) (d : Station) : Station :=
  let d := d.onBsq fun b => { b with holds := b.holds.set none kind }
  if kind = .coolerLoss then d.reportCooler else d.report (holdCondition kind) 0 false

theorem ends_runs {timer : Station → Option Nat} {d : Station} {e : Nat} (runs : timer d = some e) (f : Station → Station) :
    d.ends timer f = f d := if_neg (by rw [runs]; exact Bool.false_ne_true)

theorem exec_shortfallTimer (s : State) : exec .shortfallTimerExpiry s = act .shortfallTimerExpiry (Station.ends (fun d => d.bsq.shortfall)
    fun d => (d.onBsq fun b => { b with shortfall := none }).report .heatShortfall 0 true) s := rfl

theorem exec_tripHold (kind : HoldKind) (s : State) : exec (.tripHoldExpiry kind) s =
    act (.tripHoldExpiry kind) (Station.ends (fun d => d.bsq.holds.get kind) (Station.holdEnded kind)) s := rfl

theorem exec_noticeLossHold (s : State) : exec .noticeLossHoldExpiry s = act .noticeLossHoldExpiry (Station.ends (fun d => d.lpc.lossHold)
    fun d => (d.onLpc fun l => { l with lossHold := none }).report .noticeLoss 0 false) s := rfl

theorem exec_firingSecond (s : State) : exec .firingSecondTimerExpiry s = act .firingSecondTimerExpiry
    (Station.ends (fun d => d.bsq.firingSecond) fun d =>
      (d.onBsq fun b => { b with firingSecond := some (d.inSec 1) }).contribute .firingSecond) s := rfl

/-- The end of a trip hold is a report. -/
theorem holdEnded_eq (kind : HoldKind) (d : Station) : d.holdEnded kind =
    (d.onBsq fun b => { b with holds := b.holds.set none kind }).report (holdCondition kind) 0
      (kind == .coolerLoss && d.bsq.coolerLoss.isSome) := by
  unfold Station.holdEnded Station.reportCooler
  cases kind with
  | coolerLoss =>
    refine (if_pos rfl).trans (congrArg (fun v => Station.report .coolerLoss 0 v _) ?_)
    exact Bool.or_false _
  | flameFail => rfl
  | ignitionFail => rfl
  | mainFlameFail => rfl
  | purgeAirLost => rfl
  | airFlowLost => rfl

/-! ## The losses of a train -/

/-- What the notices lost at the own slot of a train leave (R47, R49). -/
theorem train_losses {body : List Byte} {s : State} {d : Station} (looks : s.dev.lpc.prevWrite = true)
    (left : TrainOver (trainTaken body (trainCounted (.trainArrival body) s.dev)) d) :
    let x := peersTaken body (headHeard body s)
    let losses := x.lpc.losses (ownRecords body s.dev.own)
    NoticesLost losses.length s.dev d ∧
    (16 ≤ x.lpc.queue.length → (x.lpc.judged (ownRecords body s.dev.own)).queue.length < 16 → .almPlaceFree ∈ d.signals) := by
  intro x losses
  have peers := peersHeard body (trainCounted (.trainArrival body) s.dev)
  have looked : x.lpc.prevWrite = true := peers.prevWrite.trans looks
  have own : x.own = s.dev.own := peers.ownIndex
  have now : x.now = s.dev.now := peers.rest.now
  have moved : x.lpc = _ := peers.rest.lpc
  have lost : x.lpc.counters.noticesLost = s.dev.lpc.counters.noticesLost := by
    rw [moved]
    unfold Station.slotsSet
    rw [headSet_rest]
    rfl
  have hold : x.lpc.lossHold = s.dev.lpc.lossHold := by
    rw [moved]
    unfold Station.slotsSet
    rw [headSet_rest]
    rfl
  obtain ⟨c, counters, judged⟩ := ownJudged_looks (body := body) looked
  rw [own, judgeReturn_eq] at judged
  have told := loseNotices_lost losses { x with lpc := Lpc.judged (ownRecords body s.dev.own) { x.lpc with counters := c } }
  have first := And.intro (counters.trans lost) (And.intro hold now)
  have judged : trainTaken body (trainCounted (.trainArrival body) s.dev) = _ := judged
  by_cases free : 16 ≤ x.lpc.queue.length ∧ (x.lpc.judged (ownRecords body s.dev.own)).queue.length < 16
  · have judged := judged.trans (if_pos free)
    obtain ⟨alm, lost', hold', signals, -⟩ := left
    rw [judged] at alm lost' hold' signals
    exact ⟨told.of_same first ⟨lost', hold', alm, (List.prefix_append _ _).trans signals⟩,
      fun _ _ => signals.subset (List.mem_append_right _ (.head _))⟩
  · have judged := judged.trans (if_neg free)
    obtain ⟨alm, lost', hold', signals, -⟩ := left
    rw [judged] at alm lost' hold' signals
    exact ⟨told.of_same first ⟨lost', hold', alm, signals⟩, fun full few => absurd ⟨full, few⟩ free⟩

end Sys2Proof.Machine

open Sys2Proof Sys2Proof.Machine in
/-- Settles O31: each timer's end as one report, and the losses of a return in turn. -/
theorem supervisionTimersAndHoldsSetConditions : Obligations.SupervisionTimersAndHoldsSetConditions := by
  refine ⟨fun s e => ?_, fun b d => ?_, judgeReturn_eq, fun body s up looks clean => ?_⟩
  · intro others
    exact ⟨fun runs => .of_exec exec_shortfallTimer (ends_runs (d := s.dev.take .shortfallTimerExpiry) runs _)
        ⟨report_condition .., fun k n ne => report_other .heatShortfall 0 true _ k n ne, report_only ..⟩,
      fun kind runs => .of_exec (exec_tripHold kind)
        ((ends_runs (d := s.dev.take (.tripHoldExpiry kind)) runs _).trans (holdEnded_eq kind _))
        ⟨report_condition .., fun k n ne => report_other (holdCondition kind) 0 _ _ k n ne, report_only ..⟩,
      fun runs => .of_exec exec_noticeLossHold (ends_runs (d := s.dev.take .noticeLossHoldExpiry) runs _)
        ⟨report_condition .., fun k n ne => report_other .noticeLoss 0 false _ k n ne, report_only ..⟩,
      fun runs => exec_eq exec_firingSecond (ends_runs (d := s.dev.take .firingSecondTimerExpiry) runs _)⟩
  · obtain ⟨present, told, only⟩ := loseNotice_lost b d
    exact ⟨present, told, only⟩
  · intro cmd fits x records losses
    refine .of_train up clean fits fun d left => ?_
    obtain ⟨⟨counted, kept, told⟩, free⟩ := train_losses looks left
    exact ⟨counted, fun none' => kept (List.length_eq_zero_iff.2 none'), fun some' => told (mt List.length_eq_zero_iff.1 some'), free⟩
end

section
/-! SUPPORT. The open shift by what it depends on: its own record, the settings, the loop state, the origin flag and the live set
(R172 to R176, R178). -/

set_option Elab.async false

namespace Sys2Proof.Machine

/-- Two stations are alike in what the open shift depends on, and in what it stages. -/
structure ShiftLike (a b : Station) : Prop where
  sru : b.sru = a.sru
  cfg : b.ppt.cfg = a.ppt.cfg
  state : b.lpc.state = a.lpc.state
  origin : b.lpc.origin = a.lpc.origin
  live : b.lpc.live = a.lpc.live
  number : b.lpc.staging.openShift = a.lpc.staging.openShift
  closing : b.lpc.staging.closing = a.lpc.staging.closing

/-- The open shift and what it stages are the same. -/
structure ShiftSame (a b : Station) : Prop where
  sru : b.sru = a.sru
  number : b.lpc.staging.openShift = a.lpc.staging.openShift
  closing : b.lpc.staging.closing = a.lpc.staging.closing

theorem ShiftSame.trans {a b c : Station} (h : ShiftSame a b) (k : ShiftSame b c) : ShiftSame a c :=
  ⟨k.sru.trans h.sru, k.number.trans h.number, k.closing.trans h.closing⟩

namespace ShiftLike
variable {a b c : Station}

theorem refl (a : Station) : ShiftLike a a := ⟨rfl, rfl, rfl, rfl, rfl, rfl, rfl⟩

theorem trans (h : ShiftLike a b) (k : ShiftLike b c) : ShiftLike a c :=
  ⟨k.sru.trans h.sru, k.cfg.trans h.cfg, k.state.trans h.state, k.origin.trans h.origin, k.live.trans h.live,
    k.number.trans h.number, k.closing.trans h.closing⟩

theorem same (h : ShiftLike a b) : ShiftSame a b := ⟨h.sru, h.number, h.closing⟩

theorem of_alarms (h : AlarmsOnly a b) : ShiftLike a b := by
  have lpc := h.lpc
  exact ⟨h.sru, by rw [h.rest], by rw [lpc], by rw [lpc], by rw [lpc], by rw [lpc], by rw [lpc]⟩

section
variable (h : ShiftLike a b)
include h

theorem onSru (f : Sru → Sru) : ShiftLike (a.onSru f) (b.onSru f) := { h with sru := congrArg f h.sru }

theorem time : b.sru.time = a.sru.time := congrArg Sru.time h.sru

theorem boundaries : b.boundaries = a.boundaries := congrArg (fun c : ConfigRecord => c.shift.getD []) h.cfg

theorem newReport (cause : CloseCause) : b.newReport cause = a.newReport cause := by
  unfold Station.newReport Station.burnerDuty Station.coolerDuty Station.cfg
  rw [h.sru, h.cfg, h.live]

theorem openShift (n : Half) : ShiftLike (a.openShift n) (b.openShift n) :=
  { h with sru := congrArg (fun r : Sru => { r with shift := n }) h.sru, number := rfl }

theorem adoptShift (n : Half) : ShiftLike (a.adoptShift n) (b.adoptShift n) :=
  (h.onSru fun r => { r with acc := { r.acc with startTime := r.time } }).openShift n

theorem completeReport : ShiftLike a.completeReport b.completeReport := by
  unfold Station.completeReport
  rw [h.sru]
  cases a.sru.collecting with
  | none => exact h
  | some r => exact { h.onSru fun s => s.setNewest r.completed with }

/-- A post says nothing of the shift. -/
theorem posted (at' : Bool) (e : HostEvent) :
    ShiftLike (if at' = true then a.post e else a) (if at' = true then b.post e else b) := by
  cases at'
  · exact h
  · exact { h with }

theorem closeShift (cause : CloseCause) (n : Half) : ShiftLike (a.closeShift cause n) (b.closeShift cause n) := by
  have done := h.completeReport
  have report := done.newReport cause
  unfold Station.closeShift
  dsimp only
  rw [report, done.state]
  refine openShift ?_ n
  generalize ((a.completeReport.newReport cause).floor.isEmpty || a.completeReport.lpc.state != .up) = atOnce
  have placed := (done.onSru fun r =>
    { r with ring := placeReport r.ring (if atOnce = true then (a.completeReport.newReport cause).completed else a.completeReport.newReport cause)
             acc := .opened r.time r.lastLength, unresolved := false, arrivals := 0 }).posted atOnce .reportComplete
  exact { placed with closing := rfl }

theorem crossing : ShiftLike a.crossing b.crossing := by
  unfold Station.crossing
  rw [h.sru, h.state, h.origin]
  split
  · exact h
  · split
    · split
      · exact h.closeShift ..
      · exact h
    · exact h.closeShift ..

theorem applyTimeSet (t : Word) : ShiftLike (a.applyTimeSet t) (b.applyTimeSet t) := by
  have set := h.onSru fun r => { r with time := t }
  unfold Station.applyTimeSet
  dsimp only
  rw [h.time, set.boundaries]
  split
  · exact set.crossing
  · exact set

theorem takeHead (time : Word) (n : Half) : ShiftLike (a.takeHead time n) (b.takeHead time n) := by
  have set := h.onSru fun r => { r with time := time }
  unfold Station.takeHead
  dsimp only
  rw [set.sru]
  split
  · exact set
  · split
    · exact set.adoptShift n
    · split
      · exact (set.closeShift ..).onSru _
      · exact set.onSru _

theorem timesApplied (l : List Word) : ShiftLike (l.foldl (fun d t => d.applyTimeSet t) a) (l.foldl (fun d t => d.applyTimeSet t) b) := by
  induction l generalizing a b with
  | nil => exact h
  | cons t l ih => exact ih (h.applyTimeSet t)

theorem converge (floor : b.lpc.floor = a.lpc.floor) : ShiftLike a.converge b.converge := by
  have greatest : b.greatestLive = a.greatestLive := by
    unfold Station.greatestLive
    rw [h.live, floor]
  unfold Station.converge
  dsimp only
  rw [h.sru, greatest]
  split
  · exact h.adoptShift _
  · split
    · exact h.closeShift ..
    · exact h.onSru _

end

end ShiftLike

/-! ## What leaves the shift alone -/

theorem slotsSet_like (l : Lpc) (d : Station) (live : l.live = d.lpc.live) : ShiftLike d (d.slotsSet l) :=
  ⟨rfl, rfl, rfl, rfl, live, rfl, rfl⟩

theorem applyAlarm_like (i : Fin 16) (b : AlarmBody) (d : Station) : ShiftLike d (d.applyAlarm i b) := by
  rw [(applyAlarm_moves i b d).1.rest]
  exact ⟨rfl, rfl, rfl, rfl, rfl, rfl, rfl⟩

theorem applyAck_like (p o : Byte) (d : Station) : ShiftLike d (d.applyAck p o) :=
  .of_alarms ((MovesPoints.refl d).applyAck p o).only

/-- The floor times that new notices bring (R53). -/
def timesIn (ns : List (Fin 16 × NoticeBody)) : List Word :=
  ns.filterMap fun e => match e.2 with | .timeSet t => some t | _ => none

/-- At the origin the new notices of a train set the clock by their times, in order (R53, R176). -/
theorem Hears.times {F : Fin 16 → FloorEntry} {ns : List (Fin 16 × NoticeBody)} {x y b : Station} (h : Hears F ns x b)
    (like : ShiftLike y x) (origin : x.lpc.origin = true) :
    ShiftLike ((timesIn ns).foldl (fun d t => d.applyTimeSet t) y) b := by
  induction h generalizing y with
  | done _ => exact like
  | sets l live _ ih => exact ih (like.trans (slotsSet_like l _ live)) origin
  | @takes ns d b i n entry _ ih =>
    have still : (d.applyNotice i n).lpc.origin = true := by
      rw [((FloorOnly.refl d).applyNotice i n).lpc]
      exact origin
    cases n with
    | alarmState a => exact ih (like.trans (applyAlarm_like i a d)) still
    | ackRequest t p o =>
      refine ih (like.trans ?_) still
      show ShiftLike d (if t = d.ownByte then d.applyAck p o else d)
      split
      · exact applyAck_like p o d
      · exact .refl d
    | timeSet t =>
      refine ih (y := y.applyTimeSet t) ?_ still
      show ShiftLike _ (if d.lpc.origin = true then d.applyTimeSet t else d)
      rw [if_pos origin]
      exact like.applyTimeSet t

/-- At a member the new notices of a train leave the open shift alone (R53). -/
theorem Hears.members {F : Fin 16 → FloorEntry} {ns : List (Fin 16 × NoticeBody)} {x b : Station} (h : Hears F ns x b)
    (member : x.lpc.origin = false) : ShiftLike x b := by
  induction h with
  | done d => exact .refl d
  | sets l live _ ih => exact (slotsSet_like l _ live).trans (ih member)
  | @takes ns d b i n entry _ ih =>
    have still : (d.applyNotice i n).lpc.origin = false := by
      rw [((FloorOnly.refl d).applyNotice i n).lpc]
      exact member
    refine ShiftLike.trans ?_ (ih still)
    cases n with
    | alarmState a => exact applyAlarm_like i a d
    | ackRequest t p o =>
      show ShiftLike d (if t = d.ownByte then d.applyAck p o else d)
      split
      · exact applyAck_like p o d
      · exact .refl d
    | timeSet t =>
      show ShiftLike d (if d.lpc.origin = true then d.applyTimeSet t else d)
      rw [if_neg (ne_true_of_eq_false member)]
      exact .refl d

end Sys2Proof.Machine
end

section
/-! SUPPORT. The open shift over the arrivals of trains, releases and the floor clock (R172 to R178). -/

set_option Elab.async false

namespace Sys2Proof.Machine

/-! ## The train taken -/

section
variable {body : List Byte} {s : State}

theorem headHeard_origin (body : List Byte) (s : State) : (headHeard body s).lpc.origin = s.dev.lpc.origin := by
  rw [(headHeard_floor body s).lpc, headSet_rest]
  rfl

theorem afterHead_like (body : List Byte) (s : State) : ShiftLike s.dev ((trainCounted (.trainArrival body) s.dev).headSet body) := by
  unfold Station.headSet
  cases readHead (body.take 14) <;> exact ⟨rfl, rfl, rfl, rfl, rfl, rfl, rfl⟩

/-- The origin takes no shift from a head (R4). -/
theorem headHeard_like (origin : s.dev.lpc.origin = true) : ShiftLike s.dev (headHeard body s) := by
  have head := ((headOrError_spec (readHead (body.take 14)) (trainCounted (.trainArrival body) s.dev)).2 (.inr origin)).1
  rw [headOrError_eq] at head
  exact (afterHead_like body s).trans (.of_alarms head)

/-- A member takes the time and the shift of a good head in UP (R4, R174). -/
theorem headHeard_takes {h : Head} (up : s.dev.lpc.state = .up) (member : s.dev.lpc.origin = false)
    (head : readHead (body.take 14) = some h) : ShiftLike (s.dev.takeHead h.time h.shift) (headHeard body s) := by
  have noted : ShiftLike s.dev ((trainCounted (.trainArrival body) s.dev).headNoted h) := ⟨rfl, rfl, rfl, rfl, rfl, rfl, rfl⟩
  have judged := noted.trans (.of_alarms (judgeConfig_spec h.sig ((trainCounted (.trainArrival body) s.dev).headNoted h)).1)
  unfold headHeard
  rw [head]
  have run : headTaken (some h) (trainCounted (.trainArrival body) s.dev) =
      (((trainCounted (.trainArrival body) s.dev).headNoted h).judgeConfig h.sig).takeHead h.time h.shift := if_pos ⟨up, member⟩
  rw [run]
  exact judged.takeHead h.time h.shift

theorem ownJudged_like (body : List Byte) (d : Station) : ShiftLike d (ownJudged body d) :=
  ShiftLike.trans (b := { d with lpc := { d.lpc with
    counters := { d.lpc.counters with
      slotErrors := (ownJudged body d).lpc.counters.slotErrors, noticesLost := (ownJudged body d).lpc.counters.noticesLost }
    lossHold := (ownJudged body d).lpc.lossHold } }) ⟨rfl, rfl, rfl, rfl, rfl, rfl, rfl⟩ (.of_alarms (ownJudged_spec body d).only)

/-- At the origin a train sets the clock by its new TIME SET notices, in order (R53, R176). -/
theorem trainTaken_times (origin : s.dev.lpc.origin = true) :
    ShiftSame ((timesIn (newNotices body s.dev)).foldl (fun d t => d.applyTimeSet t) s.dev)
      (trainTaken body (trainCounted (.trainArrival body) s.dev)) := by
  obtain ⟨z, hears, taken⟩ := peersTaken_hears body (headHeard body s)
  have times := hears.times (headHeard_like origin) ((headHeard_origin body s).trans origin)
  rw [newNotices_headHeard] at times
  have peers : ShiftSame z (peersTaken body (headHeard body s)) := by
    rw [taken]
    exact ⟨rfl, rfl, rfl⟩
  exact (times.same.trans peers).trans (ownJudged_like body _).same

theorem peersTaken_member {h : Head} (up : s.dev.lpc.state = .up) (member : s.dev.lpc.origin = false)
    (head : readHead (body.take 14) = some h) :
    ShiftSame (s.dev.takeHead h.time h.shift) (peersTaken body (headHeard body s)) := by
  obtain ⟨z, hears, taken⟩ := peersTaken_hears body (headHeard body s)
  have stays := hears.members ((headHeard_origin body s).trans member)
  have peers : ShiftSame z (peersTaken body (headHeard body s)) := by
    rw [taken]
    exact ⟨rfl, rfl, rfl⟩
  exact ((headHeard_takes up member head).trans stays).same.trans peers

end

/-! ## Releases -/

/-- The clock and the shift after a release: the convergence, then the times that are placed (R15, R175; log 38). -/
def Station.releasedShift (d : Station) : Sru := ((timesPlaced d.lpc).foldl (fun d t => d.applyTimeSet t) d.converge).sru

theorem released_shift (d : Station) : (released d).sru = d.releasedShift := by
  have queue : timesPlaced d.converge.lpc = timesPlaced d.lpc := by
    rw [((ShiftOnly.refl d).converge).lpc]
    rfl
  unfold released Station.releasedShift
  dsimp only
  rw [queue]
  refine (ShiftLike.timesApplied ?_ _).sru
  exact ⟨rfl, rfl, rfl, rfl, rfl, rfl, rfl⟩

theorem releasedShift_like {a b : Station} (h : ShiftLike a b) (floor : b.lpc.floor = a.lpc.floor) (queue : b.lpc.queue = a.lpc.queue) :
    b.releasedShift = a.releasedShift := by
  unfold Station.releasedShift timesPlaced
  rw [queue]
  exact ((h.converge floor).timesApplied _).sru

/-! ## The arrival -/

theorem not_noDuplicate {body : List Byte} {d : Station} (h : ¬ NoDuplicate body d) :
    d.lpc.prevWrite = true ∧ ∃ g, viewSlot d.own (rawSlot body d.own) = .pass g ∧ ShowsDuplicate g d := by
  unfold NoDuplicate at h
  push Not at h
  obtain ⟨g, looks, pass, dup⟩ := h
  refine ⟨looks, g, pass, ?_⟩
  by_cases seq : g.seq = d.lpc.floor[d.own].seq
  · obtain ⟨p, image, sig⟩ := dup seq
    exact .inr ⟨p, image, sig⟩
  · exact .inl seq

theorem departedUp_same (st : LoopState) (p : Station) : ShiftSame p (p.departedUp st) := by
  unfold Station.departedUp
  exact ⟨rfl, rfl, rfl⟩

theorem foundDuplicate_same (p : Station) : ShiftSame p p.foundDuplicate := by
  have only := (departUp_moves .listenOnly p).only.trans (report_only .duplicateStation 0 true (p.departUp .listenOnly))
  exact (departedUp_same .listenOnly p).trans (ShiftLike.of_alarms only).same

/-- A member's arrival leaves the shift as its head gave it, whether or not a second writer is found (R4, R18). -/
theorem arriveMember_shift {body : List Byte} {h : Head} {s : State} (up : s.dev.lpc.state = .up) (member : s.dev.lpc.origin = false)
    (head : readHead (body.take 14) = some h) :
    ShiftSame (s.dev.takeHead h.time h.shift) ((trainCounted (.trainArrival body) s.dev).arriveMember (readTrain body)) := by
  have peers := peersTaken_member up member head
  by_cases clean : NoDuplicate body (trainCounted (.trainArrival body) s.dev)
  · rw [arriveMember_eq clean]
    exact (peers.trans (ownJudged_like body _).same).trans ⟨rfl, rfl, rfl⟩
  · obtain ⟨looks, g, pass, dup⟩ := not_noDuplicate clean
    have found : ShiftSame (peersTaken body (headHeard body s)) (duplicateFound body (trainCounted (.trainArrival body) s.dev)) :=
      foundDuplicate_same _
    rw [arriveMember_duplicate looks pass dup, signalRefresh_eq]
    generalize duplicateFound body (trainCounted (.trainArrival body) s.dev) = z at found
    exact (peers.trans found).trans ⟨rfl, rfl, rfl⟩

/-! ## The clock -/

/-- A boundary is met more often up to a later second exactly when a second between them stands at it (R176). -/
theorem boundaryCount_lt {b : Nat} (day : b < 86400) (old new : Nat) :
    boundaryCount b old < boundaryCount b new ↔ ∃ t, old < t ∧ t ≤ new ∧ t % 86400 = b := by
  unfold boundaryCount
  rw [show Config.daySeconds = 86400 from rfl]
  constructor
  · intro more
    by_cases early : new < b
    · rw [if_pos early] at more
      omega
    · rw [if_neg early] at more
      have split' := Nat.div_add_mod (new - b) 86400
      have rest := Nat.mod_lt (new - b) (show 86400 > 0 by decide)
      refine ⟨b + 86400 * ((new - b) / 86400), ?_, by omega, by omega⟩
      by_cases before : old < b
      · omega
      · rw [if_neg before] at more
        omega
  · rintro ⟨t, after, upTo, at'⟩
    have q := Nat.div_add_mod t 86400
    rw [if_neg (show ¬ new < b by omega)]
    by_cases before : old < b
    · rw [if_pos before]
      omega
    · rw [if_neg before]
      omega

theorem crossesBoundary_iff {l : List Nat} (days : ∀ b ∈ l, b < 86400) (old new : Nat) :
    crossesBoundary l old new = true ↔ ∃ t, old < t ∧ t ≤ new ∧ t % 86400 ∈ l := by
  unfold crossesBoundary
  rw [List.any_eq_true]
  constructor
  · rintro ⟨b, mem, more⟩
    obtain ⟨t, after, upTo, at'⟩ := (boundaryCount_lt (days b mem) old new).1 (of_decide_eq_true more)
    exact ⟨t, after, upTo, at' ▸ mem⟩
  · rintro ⟨t, after, upTo, mem⟩
    exact ⟨_, mem, decide_eq_true ((boundaryCount_lt (days _ mem) old new).2 ⟨t, after, upTo, rfl⟩)⟩

theorem applyTimeSet_crosses {d : Station} (days : ∀ b ∈ d.boundaries, b < 86400) (time : Word) :
    let set := { d with sru := { d.sru with time := time } }
    let crosses := ∃ t, d.sru.time.toNat < t ∧ t ≤ time.toNat ∧ t % 86400 ∈ d.boundaries
    (¬ crosses → d.applyTimeSet time = set) ∧ (crosses → d.applyTimeSet time = set.crossing) := by
  intro set crosses
  have crossed : (decide (time.toNat > d.sru.time.toNat) && crossesBoundary set.boundaries d.sru.time.toNat time.toNat) = true ↔ crosses := by
    rw [Bool.and_eq_true, show set.boundaries = d.boundaries from rfl, crossesBoundary_iff days]
    refine ⟨fun h => h.2, fun h => ⟨?_, h⟩⟩
    obtain ⟨t, after, upTo, -⟩ := h
    exact decide_eq_true (Nat.lt_of_lt_of_le after upTo)
  exact ⟨fun no => if_neg (mt crossed.1 no), fun yes => if_pos (crossed.2 yes)⟩

end Sys2Proof.Machine
end

section
/-! SUPPORT. The floor clock, the heads and the releases, case by case (R172 to R176, R178, R184). -/

set_option Elab.async false

namespace Sys2Proof.Machine

/-! ## A crossing -/

section
variable {d : Station}

theorem crossing_stays (h : d.sru.shift = 0 ∨ d.sru.shift.toNat = 65535 ∨ (d.lpc.state = .up ∧ d.lpc.origin = false)) :
    d.crossing = d := by
  unfold Station.crossing
  by_cases none' : d.sru.shift = 0 ∨ d.sru.shift.toNat = 65535
  · exact if_pos (by simpa using none')
  · rw [if_neg (by simpa using none')]
    have member : d.lpc.state = .up ∧ d.lpc.origin = false := by tauto
    rw [if_pos member.1, if_neg (ne_true_of_eq_false member.2)]

theorem openable (some' : d.sru.shift ≠ 0) (room : d.sru.shift.toNat ≠ 65535) :
    ¬ (decide (d.sru.shift = 0) || decide (d.sru.shift.toNat = 65535)) = true := by
  rw [decide_eq_false some', decide_eq_false room]
  exact Bool.false_ne_true

variable (some' : d.sru.shift ≠ 0) (room : d.sru.shift.toNat ≠ 65535)
include some' room

theorem crossing_up (up : d.lpc.state = .up) (origin : d.lpc.origin = true) :
    d.crossing = d.closeShift .boundary (d.sru.shift + 1) := by
  unfold Station.crossing
  rw [if_neg (openable some' room), if_pos up, if_pos origin]

theorem crossing_alone (down : d.lpc.state ≠ .up) : d.crossing = d.closeShift .localClose (d.sru.shift + 1) := by
  unfold Station.crossing
  rw [if_neg (openable some' room), if_neg down]

end

/-! ## The second timers -/

/-- What a second does to the clock (R172, R173). -/
def Station.secondTaken (d : Station) : Station :=
  let d := d.onSru fun r => { r with time := r.time + 1, second := some (d.inSec 1) }
  if d.ppt.started && d.boundaries.contains (d.sru.time.toNat % Config.daySeconds) then d.crossing else d

/-- What a second without UP counts (R177). -/
def Station.notUpCounted (d : Station) : Station := d.onSru fun r =>
  { r with
    acc := { r.acc with loop := { r.acc.loop with notUpSeconds := satAdd top32 r.acc.loop.notUpSeconds 1 } }.mark
      (r.acc.loop.notUpSeconds + 1 > top32)
    notUp := some (d.inSec 1) }

theorem exec_secondTimer (s : State) : exec .secondTimerExpiry s =
    act .secondTimerExpiry (Station.ends (fun d => d.sru.second) Station.secondTaken) s := rfl

theorem exec_notUpSecond (s : State) : exec .notUpSecondTimerExpiry s =
    act .notUpSecondTimerExpiry (Station.ends (fun d => d.sru.notUp) Station.notUpCounted) s := rfl

/-- The station a second later, the boundary not yet judged. -/
def Station.secondLater (d : Station) : Station :=
  { d with sru := { d.sru with time := d.sru.time + 1, second := some (d.now + 1000000) } }

/-- The second is at a boundary that this station may cross (R173). -/
def Station.crossesNow (d : Station) : Prop :=
  d.ppt.started = true ∧ (d.sru.time + 1).toNat % 86400 ∈ d.boundaries ∧
    d.sru.shift ≠ 0 ∧ d.sru.shift.toNat ≠ 65535 ∧ ¬ (d.lpc.state = .up ∧ d.lpc.origin = false)

theorem secondTaken_eq (d : Station) : d.secondTaken =
    if d.ppt.started = true ∧ (d.sru.time + 1).toNat % 86400 ∈ d.boundaries then d.secondLater.crossing else d.secondLater := by
  have later : (d.onSru fun r => { r with time := r.time + 1, second := some (d.inSec 1) }) = d.secondLater := by
    unfold Station.onSru Station.secondLater
    rw [inSec_one]
  unfold Station.secondTaken
  dsimp only
  rw [later]
  refine if_congr ?_ rfl rfl
  rw [Bool.and_eq_true, List.contains_iff_mem]
  exact Iff.rfl

theorem secondTaken_stays {d : Station} (stays : ¬ d.crossesNow) : d.secondTaken = d.secondLater := by
  rw [secondTaken_eq]
  split
  · next boundary =>
    refine crossing_stays ?_
    by_contra other
    push Not at other
    obtain ⟨some', room, alone⟩ := other
    exact stays ⟨boundary.1, boundary.2, some', room, fun h => alone h.1 h.2⟩
  · rfl

theorem secondTaken_closes {d : Station} (crosses : d.crossesNow) :
    (d.lpc.state = .up → ShiftClosed .boundary (d.sru.shift + 1) d.secondLater d.secondTaken) ∧
    (d.lpc.state ≠ .up → ShiftClosed .localClose (d.sru.shift + 1) d.secondLater d.secondTaken) := by
  obtain ⟨started, boundary, some', room, free⟩ := crosses
  rw [secondTaken_eq, if_pos ⟨started, boundary⟩]
  refine ⟨fun up => ?_, fun down => ?_⟩
  · rw [crossing_up (d := d.secondLater) some' room up (Bool.eq_true_of_not_eq_false fun member => free ⟨up, member⟩)]
    exact closeShift_spec ..
  · rw [crossing_alone (d := d.secondLater) some' room down]
    exact closeShift_spec ..

/-! ## SET FLOOR TIME -/

section
variable {time : Word} {d : Station}

theorem accepts_timeSet : d.lpc.accepts (.timeSet time) = true ↔ d.lpc.queue.length < 16 := by
  rw [(alarmsRead d).accepts]
  unfold QueueAccepts
  simp [sameAlarm]

/-- A TIME SET goes to the end of the queue (R43). -/
theorem submitted_timeSet : d.lpc.submitted (.timeSet time) = { d.lpc with queue := d.lpc.queue ++
    [{ body := .timeSet time, placed := false, seq := 0, mask := 0, rotations := 0 }] } := by
  obtain ⟨⟨-, ends⟩, rest⟩ := (alarmsRead d).submitted (.timeSet time)
  rw [rest, ends fun e _ => rfl]

theorem floorTimeSet_eq (started : d.ppt.started = true) : d.floorTimeSet time =
    if d.lpc.queue.length < 16 then Station.answer .ok 0 [] { d with lpc := { d.lpc with queue := d.lpc.queue ++
      [{ body := .timeSet time, placed := false, seq := 0, mask := 0, rotations := 0 }] } }
    else d.answer .queueFull 0 [] := by
  unfold Station.floorTimeSet Station.submit
  rw [started]
  by_cases room : d.lpc.queue.length < 16
  · rw [if_pos room, if_pos (accepts_timeSet.2 room), ← submitted_timeSet]
    rfl
  · rw [if_neg room, if_neg (mt accepts_timeSet.1 room)]
    rfl

end

/-! ## The heads -/

section
variable {d : Station} {time : Word} {n : Half}

/-- A station with the floor time set. -/
def Station.timed (time : Word) (d : Station) : Station := { d with sru := { d.sru with time := time } }

theorem takeHead_bare : d.takeHead time 0 = d.timed time := by
  unfold Station.takeHead
  exact if_pos rfl

theorem takeHead_adopts (some' : n ≠ 0) (none' : d.sru.shift = 0) : d.takeHead time n = (d.timed time).adoptShift n :=
  (if_neg some').trans (if_pos none')

theorem takeHead_closes (some' : n ≠ 0) (open' : d.sru.shift ≠ 0) (greater : d.sru.shift.toNat < n.toNat) :
    d.takeHead time n = ((d.timed time).closeShift (d.sru.learnCause n) n).onSru fun r => { r with skipRefresh := true } :=
  (if_neg some').trans ((if_neg open').trans (if_pos greater))

theorem takeHead_keeps (some' : n ≠ 0) (open' : d.sru.shift ≠ 0) (lower : n.toNat ≤ d.sru.shift.toNat) :
    d.takeHead time n = (d.timed time).onSru fun r => { r with unresolved := false } :=
  (if_neg some').trans ((if_neg open').trans (if_neg (Nat.not_lt.2 lower)))

end

/-! ## The convergence -/

theorem foldl_max_le {α : Type} (f : α → Nat) {l : List α} {a m : Nat} (least : a ≤ m) (all : ∀ i ∈ l, f i ≤ m) :
    l.foldl (fun m i => max m (f i)) a ≤ m := by
  induction l generalizing a with
  | nil => exact least
  | cons i l ih => exact ih (max_le least (all i (.head _))) fun j mem => all j (.tail _ mem)

theorem le_foldl_max {α : Type} (f : α → Nat) (l : List α) (a : Nat) :
    a ≤ l.foldl (fun m i => max m (f i)) a ∧ ∀ i ∈ l, f i ≤ l.foldl (fun m i => max m (f i)) a := by
  induction l generalizing a with
  | nil => exact ⟨le_rfl, nofun⟩
  | cons i l ih =>
    obtain ⟨first, rest⟩ := ih (max a (f i))
    refine ⟨(le_max_left _ _).trans first, fun j mem => ?_⟩
    rcases List.mem_cons.1 mem with rfl | mem
    · exact (le_max_right _ _).trans first
    · exact rest j mem

theorem greatestLive_eq {d : Station} {m : Half} (all : ∀ i ∈ d.lpc.live, ∀ g, (d.lpc.floor[i]'i.isLt).image = some g → g.openShift.toNat ≤ m.toNat)
    (met : m = 0 ∨ ∃ i ∈ d.lpc.live, ∃ g, (d.lpc.floor[i]'i.isLt).image = some g ∧ g.openShift = m) : d.greatestLive = m.toNat := by
  unfold Station.greatestLive
  refine Nat.le_antisymm (foldl_max_le _ (Nat.zero_le _) fun i mem => ?_) ?_
  · cases image : (d.lpc.floor[i]'i.isLt).image with
    | none => exact Nat.zero_le _
    | some g => exact all i mem g image
  · rcases met with rfl | ⟨i, mem, g, image, rfl⟩
    · exact Nat.zero_le _
    · refine Nat.le_trans (Nat.le_of_eq ?_) ((le_foldl_max _ d.lpc.live 0).2 i mem)
      rw [image]

section
variable {d : Station} {m : Half} (greatest : d.greatestLive = m.toNat)
include greatest

theorem converge_adopts (none' : d.sru.shift = 0) : d.converge = d.adoptShift (if m = 0 then 1 else m) := by
  unfold Station.converge
  dsimp only
  rw [if_pos none', greatest]
  refine congrArg (fun n => d.adoptShift n) ?_
  by_cases zero : m = 0
  · rw [if_pos zero, zero]
    rfl
  · have pos : m.toNat ≠ 0 := fun h => zero (BitVec.eq_of_toNat_eq h)
    rw [if_neg zero, Nat.max_eq_left (Nat.pos_of_ne_zero pos)]
    rw [BitVec.ofNat_toNat, BitVec.setWidth_eq]

theorem converge_closes (open' : d.sru.shift ≠ 0) (greater : d.sru.shift.toNat < m.toNat) :
    d.converge = d.closeShift (d.sru.learnCause m) m := by
  unfold Station.converge
  dsimp only
  rw [if_neg open', greatest, if_pos greater, BitVec.ofNat_toNat, BitVec.setWidth_eq]

theorem converge_keeps (open' : d.sru.shift ≠ 0) (lower : m.toNat ≤ d.sru.shift.toNat) :
    d.converge = d.onSru fun r => { r with unresolved := false } := by
  unfold Station.converge
  dsimp only
  rw [if_neg open', greatest, if_neg (Nat.not_lt.2 lower)]

end

/-! ## The claim won -/

theorem Blind.enterUp : Blind Station.enterUp := by
  have told (c : Instr) : Blind (Station.raise c) := fun l d p =>
    congrArg (fun q => ({ (d.raise c).besides l with signals := q } : Station)) (List.append_assoc _ _ _)
  have state : Blind (Station.loopState .up) := fun _ _ _ => rfl
  have watch : Blind Station.startWatch := fun _ _ _ => rfl
  exact state.comp ((told .sruEnteredUp).comp ((told .fdcEnteredUp).comp ((Blind.report .loopLost 0 false).comp (watch.comp
    (f := fun d => d.onLpc fun l => { l with claimSend := none, breakSend := none, claimLimit := none, grace := .idle })
    fun _ _ _ => rfl))))

/-- The queue of a station that enters UP is the same whatever its counters are and it has told. -/
theorem enterUp_queue (c : Counters) (told : List Instr) (d : Station) :
    (Station.enterUp { d with lpc := { d.lpc with counters := c }, signals := d.signals ++ told }).lpc.queue =
      d.enterUp.lpc.queue := by
  let x : Station := { d with signals := [] }
  have one : d = x.besides d.lpc d.signals := by
    unfold Station.besides
    rw [List.append_nil]
  have two : ({ d with lpc := { d.lpc with counters := c }, signals := d.signals ++ told } : Station) =
      x.besides { d.lpc with counters := c } (d.signals ++ told) := by
    unfold Station.besides
    rw [List.append_nil]
  rw [two, Blind.enterUp, one, Blind.enterUp]
  rfl

end Sys2Proof.Machine
end

section
/-! SUPPORT. The shift of an arrival at the origin and of every release (R14, R15, R31, R175). -/

set_option Elab.async false

namespace Sys2Proof.Machine

/-- The origin's train is back before the release timer runs out (R14, R53, R176). -/
theorem return_times {body : List Byte} {s : State} (up : s.dev.lpc.state = .up) (origin : s.dev.lpc.origin = true)
    (running : s.dev.lpc.release ≠ .expired) (own : ∀ h, readHead (body.take 14) = some h → h.origin = stationByte s.dev.own)
    (clean : NoDuplicate body s.dev) :
    Runs (.trainArrival body) s fun d =>
      d.sru = ((timesIn (newNotices body s.dev)).foldl (fun d t => d.applyTimeSet t) s.dev).sru := by
  refine .of_act (f := Station.arrive (readTrain body)) (fun _ => rfl) ?_
  rw [arrive_up up, arriveUp_return (t := readTrain body) (d := trainCounted _ _) origin own,
    arriveReturn_eq (d := trainCounted _ _) clean, if_neg (show ¬ (trainCounted _ s.dev).lpc.release = .expired from running)]
  exact (trainTaken_times origin).sru

/-- The origin's train is back late: the next one is released (R14, R15, R175). -/
theorem return_late {body : List Byte} {s : State} (up : s.dev.lpc.state = .up) (origin : s.dev.lpc.origin = true)
    (late : s.dev.lpc.release = .expired) (own : ∀ h, readHead (body.take 14) = some h → h.origin = stationByte s.dev.own)
    (clean : NoDuplicate body s.dev) :
    Runs (.trainArrival body) s fun d => d.sru = (trainTaken body (trainCounted (.trainArrival body) s.dev)).releasedShift := by
  refine .of_act (f := Station.arrive (readTrain body)) (fun _ => rfl) ?_
  rw [arrive_up up, arriveUp_return (t := readTrain body) (d := trainCounted _ _) origin own,
    arriveReturn_eq (d := trainCounted _ _) clean, if_pos (show (trainCounted _ s.dev).lpc.release = .expired from late),
    released_shift]
  exact releasedShift_like (a := trainTaken body (trainCounted (.trainArrival body) s.dev)) ⟨rfl, rfl, rfl, rfl, rfl, rfl, rfl⟩ rfl rfl

theorem releaseTimer_shift {s : State} {e : Nat} (run : s.dev.lpc.release = .running e) (back : s.dev.lpc.awaiting = false) :
    Runs .releaseTimerExpiry s fun d => d.sru = s.dev.releasedShift := by
  refine .of_act exec_releaseTimerExpiry ?_
  rw [releaseExpiry_releases (d := s.dev.take _) run back, released_shift]
  exact releasedShift_like (a := s.dev) ⟨rfl, rfl, rfl, rfl, rfl, rfl, rfl⟩ rfl rfl

/-- The shift of a station that has won the claim is that of the station that enters UP, whatever it has counted and told (R31). -/
theorem claimWon_shift (c : Counters) (told : List Instr) (size : Nat) (returned : List (List Byte)) (x : Station) :
    let up := x.enterUp
    let won := Station.enterUp { x with lpc := { x.lpc with counters := c }, signals := x.signals ++ told }
    Station.releasedShift { won with lpc := { won.lpc with origin := true, loopSize := size, returned := returned } } =
      Station.releasedShift { up with lpc := { up.lpc with origin := true } } := by
  intro up won
  have queue : won.lpc.queue = up.lpc.queue := enterUp_queue c told x
  have one := (enterUp_moves x).only
  have two := (enterUp_moves { x with lpc := { x.lpc with counters := c }, signals := x.signals ++ told }).only
  have floor : won.lpc.floor = up.lpc.floor := by
    rw [show won.lpc = _ from two.lpc, show up.lpc = _ from one.lpc]
    rfl
  have like := ShiftLike.of_alarms one
  have like' := ShiftLike.of_alarms two
  exact releasedShift_like ⟨like'.sru.trans like.sru.symm, like'.cfg.trans like.cfg.symm, like'.state.trans like.state.symm, rfl,
    like'.live.trans like.live.symm, like'.number.trans like.number.symm, like'.closing.trans like.closing.symm⟩ floor queue

/-- What a station in UP without the origin flag learns from a good head (R4, R174). -/
theorem head_learned {body : List Byte} {h : Head} {s : State} (up : s.dev.lpc.state = .up) (member : s.dev.lpc.origin = false)
    (head : readHead (body.take 14) = some h) (other : h.origin ≠ stationByte s.dev.own) :
    Runs (.trainArrival body) s fun d => ShiftSame (s.dev.takeHead h.time h.shift) d := by
  refine .of_act (f := Station.arrive (readTrain body)) (fun _ => rfl) ?_
  rw [arrive_up up, arriveUp_member (t := readTrain body) (d := trainCounted _ _) member fun g good => by
    cases (show readHead (body.take 14) = some g from good).symm.trans head
    exact other]
  exact arriveMember_shift up member head

end Sys2Proof.Machine

open Sys2Proof Sys2Proof.Machine in
/-- Settles O50: the second timers, SET FLOOR TIME, and the times that notices bring. -/
theorem secondsAdvanceTheClockAndCrossBoundaries : Obligations.SecondsAdvanceTheClockAndCrossBoundaries := by
  refine ⟨fun s e runs => ?_, fun s e runs => exec_eq exec_notUpSecond (ends_runs (d := s.dev.take .notUpSecondTimerExpiry) runs _),
    fun time s started => ?_, fun time d days => applyTimeSet_crosses days time,
    fun body s up origin running own clean => return_times up origin running own clean,
    fun s e run back => releaseTimer_shift run back⟩
  · intro time n cmd d crosses
    have second := ends_runs (timer := fun d => d.sru.second) (d := s.dev.take cmd) runs Station.secondTaken
    exact ⟨fun no => exec_eq exec_secondTimer (second.trans (secondTaken_stays (d := s.dev.take cmd) no)),
      fun yes up => .of_exec exec_secondTimer second ((secondTaken_closes (d := s.dev.take cmd) yes).1 up),
      fun yes down => .of_exec exec_secondTimer second ((secondTaken_closes (d := s.dev.take cmd) yes).2 down)⟩
  · intro cmd
    have set := floorTimeSet_eq (d := s.dev.take cmd) (time := time) started
    exact ⟨fun room => exec_eq (exec_setFloorTime time) (set.trans (if_pos room)),
      fun full => exec_eq (exec_setFloorTime time) (set.trans (if_neg (Nat.not_lt.2 full)))⟩

open Sys2Proof Sys2Proof.Machine in
/-- Settles O51: what heads and live images teach of the open shift, and the releases that converge it. -/
theorem headsAndReleasesMoveTheOpenShift : Obligations.HeadsAndReleasesMoveTheOpenShift := by
  refine ⟨fun body h s up member head other => ?_, ⟨fun s e run back => releaseTimer_shift run back,
    fun body s up origin late own clean => return_late up origin late own clean, fun hops s bypass claiming rank hop => ?_⟩, fun d => ?_⟩
  · obtain ⟨sru, number, closing⟩ := runs_iff.1 (head_learned up member head other)
    exact runs_iff.2 ⟨sru, number, closing⟩
  · intro claim up
    obtain ⟨won, -⟩ := runs_iff.1 (ownClaimMarkBackWinsTheClaim hops s bypass claiming rank hop)
    refine runs_iff.2 ?_
    rw [won, released_shift]
    exact claimWon_shift _ _ _ _ (s.dev.take claim)
  · intro shift cause adopted kept
    refine ⟨fun time head => ⟨fun bare => ?_, takeHead_adopts, fun some' open' greater => ?_, takeHead_keeps⟩, fun m all met => ?_⟩
    · rw [bare]
      exact takeHead_bare
    · exact ⟨_, closeShift_spec .., takeHead_closes some' open' greater⟩
    · have greatest := greatestLive_eq all met
      refine ⟨fun none' => converge_adopts greatest none', fun open' greater => ?_, fun open' lower => converge_keeps greatest open' lower⟩
      rw [converge_closes greatest open' greater]
      exact closeShift_spec ..
end

section
/-! SUPPORT. The fields of a section: how their values are read from the bytes of a body, which field is the first out of its range, and
what is stored of them (R191, R201). -/

set_option Elab.async false

namespace Sys2Proof.Machine

/-! ## Reading the fields -/

theorem readFields_short {fs : List Field} {l : List Byte} (h : l.length ≠ (fs.map Field.width).sum) : readFields fs l = none := by
  induction fs generalizing l with
  | nil =>
    cases l with
    | nil => exact absurd rfl h
    | cons b l => rfl
  | cons f fs ih =>
    unfold readFields
    split
    · rfl
    · rw [ih, Option.map_none]
      simp only [List.map_cons, List.sum_cons] at h
      rw [List.length_drop]
      omega

theorem fieldBytes_length {w : Nat} (known : w = 1 ∨ w = 2 ∨ w = 4) (n : Nat) : (fieldBytes w n).length = w := by
  obtain rfl | rfl | rfl := known <;> rfl

/-- A number in the bytes of a field that holds it is read back. -/
theorem beNat_fieldBytes {w n : Nat} (known : w = 1 ∨ w = 2 ∨ w = 4) (fits : n < 256 ^ w) : beNat (fieldBytes w n) = n := by
  obtain rfl | rfl | rfl := known
  · simp only [beNat, fieldBytes, List.foldl_cons, List.foldl_nil, BitVec.toNat_ofNat]
    omega
  · simp only [beNat, fieldBytes, byte16, List.foldl_cons, List.foldl_nil, BitVec.toNat_setWidth, BitVec.toNat_ushiftRight,
      BitVec.toNat_ofNat, Nat.shiftRight_eq_div_pow]
    omega
  · simp only [beNat, fieldBytes, byte32, List.foldl_cons, List.foldl_nil, BitVec.toNat_setWidth, BitVec.toNat_ushiftRight,
      BitVec.toNat_ofNat, Nat.shiftRight_eq_div_pow]
    omega

/-- The bytes of the values are read back as the values. -/
theorem readFields_bytes {fs : List Field} {vs : List Nat} (known : ∀ f ∈ fs, f.width = 1 ∨ f.width = 2 ∨ f.width = 4)
    (len : vs.length = fs.length) (fits : ∀ e ∈ vs.zip (fs.map Field.width), e.1 < 256 ^ e.2) :
    readFields fs ((vs.zip (fs.map Field.width)).flatMap fun e => fieldBytes e.2 e.1) = some vs := by
  induction fs generalizing vs with
  | nil =>
    obtain rfl := List.length_eq_zero_iff.1 len
    rfl
  | cons f fs ih =>
    obtain _ | ⟨v, vs⟩ := vs
    · cases len
    · have width := known f List.mem_cons_self
      have long := fieldBytes_length width v
      have rest := ih (fun g hg => known g (List.mem_cons_of_mem _ hg)) (Nat.succ.inj len) fun e he => fits e (List.mem_cons_of_mem _ he)
      have value := beNat_fieldBytes width (fits (v, f.width) List.mem_cons_self)
      rw [List.map_cons, List.zip_cons_cons, List.flatMap_cons]
      dsimp only
      generalize ((vs.zip (fs.map Field.width)).flatMap fun e => fieldBytes e.2 e.1) = bytes at rest ⊢
      unfold readFields
      rw [if_neg (by rw [List.length_append]; omega), List.drop_left' long, List.take_left' long, rest, value]
      rfl

theorem field_width (k : SectionKind) : ∀ f ∈ k.fields [], f.width = 1 ∨ f.width = 2 ∨ f.width = 4 := by
  cases k <;> decide

theorem fields_widths (k : SectionKind) (v : Nat → Nat) : (k.fields []).map Field.width = (sectionTable k v).map Prod.fst := by
  cases k <;> rfl

theorem fields_length (k : SectionKind) (vs : List Nat) (v : Nat → Nat) : (k.fields vs).length = (sectionTable k v).length := by
  cases k <;> rfl

/-- A body spelled from values that fit the section's fields is read as these values. -/
theorem readFields_spelled {k : SectionKind} {vs : List Nat} {v : Nat → Nat} (len : vs.length = (sectionTable k v).length)
    (fits : ∀ e ∈ vs.zip (sectionTable k v), e.1 < 256 ^ e.2.1) :
    readFields (k.fields []) ((vs.zip (sectionTable k v)).flatMap fun e => fieldBytes e.2.1 e.1) = some vs := by
  have read := readFields_bytes (vs := vs) (field_width k) (len.trans (fields_length k [] v).symm)
  rw [fields_widths k v, List.zip_map_right, List.flatMap_map] at read
  refine read fun e he => ?_
  obtain ⟨x, hx, rfl⟩ := List.mem_map.1 he
  exact fits x hx

/-! ## The first field out of its range -/

theorem firstBad_eq (n : Nat) (fs : List Field) (vs : List Nat) :
    firstBad n fs vs = ((fs.zipWith Field.ok vs).findIdx? (! ·)).map (n + ·) := by
  induction fs generalizing n vs with
  | nil => rfl
  | cons f fs ih =>
    obtain _ | ⟨v, vs⟩ := vs
    · rfl
    · rw [firstBad, List.zipWith_cons_cons, List.findIdx?_cons]
      cases ok : f.ok v with
      | false => rfl
      | true =>
        rw [if_pos rfl, ih]
        simp [Function.comp_def, Nat.add_assoc, Nat.add_comm 1]

theorem eq_map_getD (vs : List Nat) : vs = (List.range vs.length).map fun n => vs.getD n 0 := by
  refine List.ext_getElem (by simp) fun i h _ => ?_
  rw [List.getElem_map, List.getElem_range, List.getD_eq_getElem _ _ h]

/-- A section's values in record order, as a function of their places. -/
def sectionValues (k : SectionKind) (v : Nat → Nat) : List Nat := (List.range (sectionTable k v).length).map v

theorem channelInstOk_eq (fn inst : Nat) : channelInstOk fn inst =
    decide ((fn = 0 ∨ fn = 2 ∨ fn = 3 → 1 ≤ inst ∧ inst ≤ 2) ∧ (fn = 1 → 1 ≤ inst ∧ inst ≤ 4)) := by
  rw [Bool.eq_iff_iff, decide_eq_true_iff]
  obtain _ | _ | _ | _ | n := fn <;> simp [channelInstOk, channelFnOf] <;> omega

theorem lineInstOk_eq (fn inst : Nat) : lineInstOk fn inst =
    decide ((fn = 3 ∨ fn = 4 → 1 ≤ inst ∧ inst ≤ 4) ∧ (fn = 5 → inst = 0 ∨ inst = 2 ∨ inst = 4 ∨ inst = 6)) := by
  rw [Bool.eq_iff_iff, decide_eq_true_iff]
  obtain _ | _ | _ | _ | _ | _ | _ | n := fn <;> simp [lineInstOk, lineFnOf, or_assoc]

theorem outInstOk_eq {fn : Nat} (known : fn ≤ 5) (inst : Nat) : outInstOk fn inst =
    decide ((fn = 0 → 1 ≤ inst ∧ inst ≤ 2) ∧ (fn = 1 ∨ fn = 5 → 1 ≤ inst ∧ inst ≤ 4)) := by
  rw [Bool.eq_iff_iff, decide_eq_true_iff]
  obtain _ | _ | _ | _ | _ | _ | n := fn
  case succ.succ.succ.succ.succ.succ => omega
  all_goals simp [outInstOk, outFnOf] <;> omega

theorem fields_judged {k : SectionKind} (vs : List Nat) (other : k ≠ .outputLine) :
    (k.fields vs).zipWith Field.ok (sectionValues k fun n => vs.getD n 0) =
      (sectionTable k fun n => vs.getD n 0).map Prod.snd := by
  cases k
  case outputLine => exact absurd rfl other
  case inputChannel => simp [sectionValues, sectionTable, SectionKind.fields, List.range_succ, span, choice, channelInstOk_eq]
  case inputLine => simp [sectionValues, sectionTable, SectionKind.fields, List.range_succ, span, choice, lineInstOk_eq]
  all_goals simp [sectionValues, sectionTable, SectionKind.fields, List.range_succ, span, choice, yesNo, beq_eq_decide]

/-- What stands behind a field that fails does not matter. -/
theorem findIdx?_failed (a : Bool) (l m : List Bool) : (a :: false :: l).findIdx? (! ·) = (a :: false :: m).findIdx? (! ·) := by
  cases a <;> simp [List.findIdx?_cons]

theorem outputFields_judged (vs : List Nat) :
    ((SectionKind.outputLine.fields vs).zipWith Field.ok (sectionValues .outputLine fun n => vs.getD n 0)).findIdx? (! ·) =
      ((sectionTable .outputLine fun n => vs.getD n 0).map Prod.snd).findIdx? (! ·) := by
  by_cases known : vs.getD 1 0 ≤ 5
  · congr 1
    have inst := outInstOk_eq known (vs.getD 2 0)
    simp only [List.getD_eq_getElem?_getD] at inst
    simp [sectionValues, sectionTable, SectionKind.fields, List.range_succ, span, choice, inst]
  · have judged (n : Nat) : (choice 6).ok (vs.getD n 0) = decide (0 ≤ vs.getD n 0 ∧ vs.getD n 0 ≤ 5) := by simp [choice, span]
    have beyond : decide (0 ≤ vs.getD 1 0 ∧ vs.getD 1 0 ≤ 5) = false := decide_eq_false fun h => known h.2
    change ((choice 6).ok (vs.getD 0 0) :: (choice 6).ok (vs.getD 1 0) :: _).findIdx? _ =
      (decide (0 ≤ vs.getD 0 0 ∧ vs.getD 0 0 ≤ 5) :: decide (0 ≤ vs.getD 1 0 ∧ vs.getD 1 0 ≤ 5) :: _).findIdx? _
    rw [judged 0, judged 1, beyond]
    exact findIdx?_failed _ _ _

/-- The fields that the model judges and those of the section's table fail at the same place. -/
theorem firstBad_table {k : SectionKind} {vs : List Nat} (len : vs.length = (sectionTable k fun n => vs.getD n 0).length) :
    firstBad 1 (k.fields vs) vs = (((sectionTable k fun n => vs.getD n 0).map Prod.snd).findIdx? (! ·)).map (1 + ·) := by
  have values : vs = sectionValues k fun n => vs.getD n 0 := by
    unfold sectionValues
    rw [← len]
    exact eq_map_getD vs
  rw [firstBad_eq]
  congr 1
  by_cases output : k = .outputLine
  · subst output
    rw [← outputFields_judged, ← values]
  · rw [← fields_judged vs output, ← values]

section
variable {k : SectionKind} {vs : List Nat} (len : vs.length = (sectionTable k fun n => vs.getD n 0).length)
include len

theorem firstBad_good (good : ∀ e ∈ sectionTable k fun n => vs.getD n 0, e.2 = true) : firstBad 1 (k.fields vs) vs = none := by
  rw [firstBad_table len, List.findIdx?_eq_none_iff.2, Option.map_none]
  intro ok h
  obtain ⟨e, he, rfl⟩ := List.mem_map.1 h
  rw [good e he]
  rfl

theorem firstBad_at {before later : List (Nat × Bool)} {bad : Nat × Bool}
    (table : (sectionTable k fun n => vs.getD n 0) = before ++ bad :: later) (good : ∀ e ∈ before, e.2 = true) (fails : bad.2 = false) :
    firstBad 1 (k.fields vs) vs = some (before.length + 1) := by
  rw [firstBad_table len, table, List.map_append, List.findIdx?_append, List.findIdx?_eq_none_iff.2, List.map_cons,
    List.findIdx?_cons, fails]
  · simp [Nat.add_comm]
  · intro ok h
    obtain ⟨e, he, rfl⟩ := List.mem_map.1 h
    rw [good e he]
    rfl

end

end Sys2Proof.Machine
end

section
/-! SUPPORT. What CONFIGURE stores: a section's settings from its values, and the mode of a configured channel (R57, R191). -/

set_option Elab.async false

namespace Sys2Proof.Machine

/-! ## The codes of the enumerations (log 22) -/

theorem channelFnOf_eq (n : Nat) : channelFnOf n = [.flameScanner, .pressure, .weigher, .encoder].getD n .unassigned := by
  obtain _ | _ | _ | _ | n := n <;> rfl

theorem pulseModeOf_eq (n : Nat) : pulseModeOf n = [.period, .countWindow].getD n .quadrature := by
  obtain _ | _ | n := n <;> rfl

theorem filterOf_eq (n : Nat) : filterOf n = [.off, .us4, .us16].getD n .us64 := by
  obtain _ | _ | _ | n := n <;> rfl

theorem timebaseOf_eq (n : Nat) : timebaseOf n = [.us1, .us8, .us64].getD n .us512 := by
  obtain _ | _ | _ | n := n <;> rfl

theorem lineFnOf_eq (n : Nat) :
    lineFnOf n = [.airFlowProven, .idFanRunning, .estop, .endForward, .endReturn, .index, .general].getD n .unused := by
  obtain _ | _ | _ | _ | _ | _ | _ | n := n <;> rfl

theorem outKindOf_eq (n : Nat) : outKindOf n = [.reference, .valve, .igniter, .strokeForward, .strokeReturn].getD n .unused := by
  obtain _ | _ | _ | _ | _ | n := n <;> rfl

theorem outFnOf_eq (n : Nat) : outFnOf n = [.feeder, .fan, .pilotValve, .mainFuelRelease, .igniter].getD n .compartment := by
  obtain _ | _ | _ | _ | _ | n := n <;> rfl

theorem letterOfNat_eq (n : Nat) : letterOfNat n = if n = 1 then .a else .b := by
  obtain _ | _ | n := n <;> rfl

theorem openFractionOf_eq (n : Nat) : openFractionOf n = [50, 75, 100].getD n 100 := by
  obtain _ | _ | _ | n := n <;> rfl

theorem classOfNat_eq {n : Nat} (pos : 1 ≤ n) : classOfNat n = [.low, .high].getD (n - 1) .trip := by
  obtain _ | _ | _ | n := n
  · omega
  all_goals rfl

theorem condOfNat_eq {n : Nat} (pos : 1 ≤ n) (top : n ≤ 21) : condOfNat n =
    [.flameFail, .ignitionFail, .mainFlameFail, .purgeAirLost, .airFlowLost, .estop, .feederStall, .feederReverse, .weigherSilent,
      .heatShortfall, .coolerLoss, .grateStrokeTimeout, .limitConflict, .pressureHigh, .pressureLow, .loopLost,
      .duplicateStation, .configMismatch, .noticeLoss, .panelAbsent].getD (n - 1) .inputLine := by
  interval_cases n <;> rfl

/-! ## The record -/

theorem setAt_eq {α : Type} {n : Nat} (v : Vector (Option α) n) (i : Fin n) (x : α) :
    setAt v i.val x = vecModify v i fun _ => some x := dif_pos i.isLt

theorem instanceOk_iff (k : SectionKind) (inst : Nat) : k.instanceOk inst = true ↔ sectionInstance k inst := by
  cases k <;> simp [SectionKind.instanceOk, sectionInstance] <;> omega

/-- The boundaries of a SHIFT section are its first values. -/
theorem boundaries_eq {vs : List Nat} (len : vs.length = 5) (top : vs.getD 0 0 ≤ 4) :
    (vs.drop 1).take (vs.getD 0 0) = ([1, 2, 3, 4].filter fun n => n ≤ vs.getD 0 0).map fun n => vs.getD n 0 := by
  match vs, len with
  | [n, a, b, c, d], _ =>
    simp only [List.getD_cons_zero] at top ⊢
    interval_cases n <;> rfl

theorem stored_section {k : SectionKind} {inst : Nat} {vs : List Nat} (r : ConfigRecord)
    (len : vs.length = (sectionTable k fun n => vs.getD n 0).length) (there : sectionInstance k inst)
    (good : ∀ e ∈ sectionTable k fun n => vs.getD n 0, e.2 = true) :
    SectionStored k inst (fun n => vs.getD n 0) r (k.store inst vs r) := by
  cases k with
  | station => rfl
  | loop => rfl
  | shift =>
    have top : decide (1 ≤ vs.getD 0 0 ∧ vs.getD 0 0 ≤ 4) = true := good _ List.mem_cons_self
    unfold SectionKind.store
    dsimp only
    rw [boundaries_eq len (of_decide_eq_true top).2]
    rfl
  | service =>
    unfold SectionKind.store serviceOf
    dsimp only
    rw [openFractionOf_eq]
    rfl
  | flood => rfl
  | inputChannel =>
    refine ⟨⟨inst, Nat.lt_succ_of_le there⟩, rfl, ?_⟩
    unfold SectionKind.store channelOf
    dsimp only
    rw [channelFnOf_eq, pulseModeOf_eq, filterOf_eq, timebaseOf_eq]
    exact congrArg (fun x => { r with channels := x }) (setAt_eq r.channels ⟨inst, Nat.lt_succ_of_le there⟩ _)
  | inputLine =>
    refine ⟨⟨inst, Nat.lt_succ_of_le there⟩, rfl, ?_⟩
    unfold SectionKind.store lineOf
    dsimp only
    rw [lineFnOf_eq]
    exact congrArg (fun x => { r with lines := x }) (setAt_eq r.lines ⟨inst, Nat.lt_succ_of_le there⟩ _)
  | outputLine =>
    refine ⟨⟨inst, Nat.lt_succ_of_le there⟩, rfl, ?_⟩
    unfold SectionKind.store outputOf
    dsimp only
    rw [outKindOf_eq, outFnOf_eq]
    exact congrArg (fun x => { r with outputs := x }) (setAt_eq r.outputs ⟨inst, Nat.lt_succ_of_le there⟩ _)
  | burner =>
    unfold SectionKind.store burnerOf
    dsimp only
    rw [letterOfNat_eq]
    rfl
  | feedChannel =>
    obtain ⟨low, high⟩ : 1 ≤ inst ∧ inst ≤ 2 := there
    refine ⟨⟨inst - 1, by omega⟩, Nat.sub_add_cancel low, ?_⟩
    unfold SectionKind.store feedSectionOf
    dsimp only
    rw [letterOfNat_eq]
    exact congrArg (fun x => { r with feeds := x }) (setAt_eq r.feeds ⟨inst - 1, by omega⟩ _)
  | compartment =>
    obtain ⟨low, high⟩ : 1 ≤ inst ∧ inst ≤ 4 := there
    refine ⟨⟨inst - 1, by omega⟩, Nat.sub_add_cancel low, ?_⟩
    exact congrArg (fun x => { r with comps := x }) (setAt_eq r.comps ⟨inst - 1, by omega⟩ _)
  | alarmPoint =>
    refine ⟨⟨inst, Nat.lt_succ_of_le there⟩, rfl, ?_⟩
    have kind : decide (1 ≤ vs.getD 0 0 ∧ vs.getD 0 0 ≤ 21) = true := good _ List.mem_cons_self
    have cls : decide (1 ≤ vs.getD 2 0 ∧ vs.getD 2 0 ≤ 3) = true :=
      good _ (List.mem_cons_of_mem _ (List.mem_cons_of_mem _ List.mem_cons_self))
    unfold SectionKind.store alarmPointOf
    dsimp only
    rw [condOfNat_eq (of_decide_eq_true kind).1 (of_decide_eq_true kind).2, classOfNat_eq (of_decide_eq_true cls).1]
    exact congrArg (fun x => { r with points := x }) (setAt_eq r.points ⟨inst, Nat.lt_succ_of_le there⟩ _)

/-! ## The command -/

/-- What CONFIGURE does (R191). -/
def Station.configured (kind inst : Byte) (fields : List Byte) (d : Station) : Station :=
  if d.ppt.started then d.wrongState
  else match sectionKindOf kind with
    | none => d.badField
    | some k => if k.instanceOk inst.toNat then d.loadSection k inst.toNat fields else d.badField

theorem exec_configure (kind inst : Byte) (fields : List Byte) (s : State) :
    exec (.configure kind inst fields) s = act (.configure kind inst fields) (Station.configured kind inst fields) s := rfl

theorem sectionKindOf_unknown {kind : Byte} (h : kind = 0 ∨ 12 < kind.toNat) : sectionKindOf kind = none := by
  unfold sectionKindOf
  obtain rfl | beyond := h
  · rfl
  · rw [List.getElem?_eq_none (Nat.le_sub_one_of_lt beyond)]
    exact ite_self _

theorem sectionKindOf_code (k : SectionKind) : sectionKindOf k.code = some k := (sectionKindOf_eq_some _ k).2 (kindByte_eq k).symm

section
variable {d : Station} {kind inst : Byte} {fields : List Byte}

theorem configured_started (on : d.ppt.started = true) : d.configured kind inst fields = d.wrongState := if_pos on

variable (off : d.ppt.started = false)
include off

theorem configured_unknown (h : kind = 0 ∨ 12 < kind.toNat) : d.configured kind inst fields = d.badField := by
  unfold Station.configured
  rw [if_neg (by rw [off]; exact Bool.false_ne_true), sectionKindOf_unknown h]

theorem configured_code (k : SectionKind) : d.configured k.code inst fields =
    if k.instanceOk inst.toNat then d.loadSection k inst.toNat fields else d.badField := by
  unfold Station.configured
  rw [if_neg (by rw [off]; exact Bool.false_ne_true), sectionKindOf_code]

variable {k : SectionKind}

theorem configured_absent (absent : k.instanceOk inst.toNat = false) : d.configured k.code inst fields = d.badField := by
  rw [configured_code off, if_neg (by rw [absent]; exact Bool.false_ne_true)]

theorem configured_short (short : fields.length ≠ sectionLength k) : d.configured k.code inst fields = d.badField := by
  rw [configured_code off]
  split
  · unfold Station.loadSection
    rw [readFields_short (by rw [← SectionKind.length, ← sectionLength_eq]; exact short)]
  · rfl

variable {vs : List Nat} (there : k.instanceOk inst.toNat = true) (read : readFields (k.fields []) fields = some vs)
include there read

theorem configured_bad {n : Nat} (bad : firstBad 1 (k.fields vs) vs = some n) :
    d.configured k.code inst fields = d.answer .badField (BitVec.ofNat 8 n) [] := by
  rw [configured_code off, if_pos there]
  unfold Station.loadSection
  rw [read]
  dsimp only
  rw [bad]

/-- A station with its configuration record given anew. -/
def Station.withCfg (r : ConfigRecord) (d : Station) : Station := { d with ppt := { d.ppt with cfg := r } }

theorem configured_good (good : firstBad 1 (k.fields vs) vs = none) : d.configured k.code inst fields =
    (k.configured inst.toNat (d.withCfg (k.store inst.toNat vs d.ppt.cfg))).answer .ok 0 [] := by
  rw [configured_code off, if_pos there]
  unfold Station.loadSection
  rw [read]
  dsimp only
  rw [good]
  rfl

end

theorem configured_other {k : SectionKind} (other : k ≠ .inputChannel) (inst : Nat) (d : Station) : k.configured inst d = d :=
  if_neg other

/-- A channel's section sets the mode of its channel (R57). -/
theorem configured_channel {inst : Nat} (there : inst < 8) (vs : List Nat) (d : Station) :
    SectionKind.inputChannel.configured inst (d.withCfg (SectionKind.inputChannel.store inst vs d.ppt.cfg)) =
      { d.withCfg (SectionKind.inputChannel.store inst vs d.ppt.cfg) with
        piu := { d.piu with channels := vecModify d.piu.channels ⟨inst, there⟩ fun r =>
          { r with mode := some (pulseModeOf (vs.getD 2 0)) } } } := by
  have place : Fin.ofNat 8 inst = ⟨inst, there⟩ := Fin.ext (Nat.mod_eq_of_lt there)
  have stored : (d.withCfg (SectionKind.inputChannel.store inst vs d.ppt.cfg)).cfg.channels[Fin.ofNat 8 inst] =
      some (channelOf fun n => vs.getD n 0) := by
    simp only [place]
    have h := setAt_eq d.ppt.cfg.channels ⟨inst, there⟩ (channelOf fun n => vs.getD n 0)
    exact (congrArg (fun v : Vector (Option ChannelCfg) 8 => v[(⟨inst, there⟩ : Fin 8)]) h).trans (vecModify_same _ _ _)
  rw [← place]
  unfold SectionKind.configured
  rw [if_pos rfl]
  dsimp only
  rw [stored]
  rfl

/-- The modes of the channels after a channel's section is stored. -/
theorem channelModes {inst : Nat} (there : inst < 8) (m : PulseMode) (v : Vector Channel 8) (i : Fin 8) :
    (vecModify v ⟨inst, there⟩ fun r => { r with mode := some m })[i]'i.isLt =
      { v[i]'i.isLt with mode := if i.val = inst then some m else (v[i]'i.isLt).mode } := by
  refine (vecModify_get v ⟨inst, there⟩ _ i.val i.isLt).trans ?_
  by_cases here : i.val = inst
  · rw [if_pos here.symm, if_pos here]
    rfl
  · rw [if_neg fun e => here e.symm, if_neg here]
    rfl

end Sys2Proof.Machine
end

section
/-! SUPPORT. The checks of START: the model's first fault is the first check of the list that fails (R56, R70, R72, R150, R154, R192). -/

set_option Elab.async false

namespace Sys2Proof.Machine

/-! ## The first fault of a list of checks -/

/-- A fault, or none, is what a list of checks comes to: the first that fails, or that all hold. -/
def Judges (o : Option StartFault) (checks : List StartCheck) : Prop :=
  match o with
  | none => ∀ c ∈ checks, c.holds
  | some f => ∃ before c later, checks = before ++ c :: later ∧ (∀ b ∈ before, b.holds) ∧ ¬ c.holds ∧
      c.reason = f.reason.code ∧ c.kind = f.kind.code ∧ c.inst = f.inst

theorem judges_none {checks : List StartCheck} : Judges none checks ↔ ∀ c ∈ checks, c.holds := Iff.rfl

section
variable {o p : Option StartFault} {a b : List StartCheck}

theorem Judges.append (h : Judges o a) (k : Judges p b) : Judges (o.or p) (a ++ b) := by
  obtain _ | f := o
  · obtain _ | g := p
    · exact fun c hc => (List.mem_append.1 hc).elim (h c) (k c)
    · obtain ⟨before, c, later, rfl, good, bad, codes⟩ := k
      exact ⟨a ++ before, c, later, (List.append_assoc ..).symm, fun x hx => (List.mem_append.1 hx).elim (h x) (good x), bad, codes⟩
  · obtain ⟨before, c, later, rfl, good, bad, codes⟩ := h
    exact ⟨before, c, later ++ b, by simp, good, bad, codes⟩

/-- Checks that hold in any case say nothing of the fault. -/
theorem Judges.before (h : Judges o a) (k : ∀ c ∈ b, c.holds) : Judges o (b ++ a) := Judges.append (o := none) k h

theorem Judges.after (h : Judges o a) (k : ∀ c ∈ b, c.holds) : Judges o (a ++ b) := by
  have all := h.append (p := none) k
  rwa [Option.or_none] at all

theorem firstFault_cons (o : Option StartFault) (l : List (Option StartFault)) : firstFault (o :: l) = o.or (firstFault l) := by
  cases o <;> rfl

theorem firstFault_append (l m : List (Option StartFault)) : firstFault (l ++ m) = (firstFault l).or (firstFault m) :=
  List.findSome?_append

theorem firstFault_single (o : Option StartFault) : firstFault [o] = o := by
  cases o <;> rfl

theorem Judges.list {l : List (Option StartFault)} (h : Judges o a) (k : Judges (firstFault l) b) :
    Judges (firstFault (o :: l)) (a ++ b) := by
  rw [firstFault_cons]
  exact h.append k

theorem Judges.cons {c : StartCheck} {l : List (Option StartFault)} (h : Judges o [c]) (k : Judges (firstFault l) b) :
    Judges (firstFault (o :: l)) (c :: b) := h.list k

theorem Judges.single (h : Judges o a) : Judges (firstFault [o]) a := by
  rw [firstFault_single]
  exact h

theorem Judges.joined {l m : List (Option StartFault)} (h : Judges (firstFault l) a) (k : Judges (firstFault m) b) :
    Judges (firstFault (l ++ m)) (a ++ b) := by
  rw [firstFault_append]
  exact h.append k

theorem Judges.flatMap {α : Type} (l : List α) {f : α → Option StartFault} {g : α → List StartCheck} (h : ∀ i, Judges (f i) (g i)) :
    Judges (firstFault (l.map f)) (l.flatMap g) := by
  induction l with
  | nil => exact fun c hc => nomatch hc
  | cons i l ih => exact (h i).list ih

theorem Judges.map {α : Type} (l : List α) {f : α → Option StartFault} {g : α → StartCheck} (h : ∀ i, Judges (f i) [g i]) :
    Judges (firstFault (l.map f)) (l.map g) := by
  have all := Judges.flatMap l h
  rwa [← List.map_eq_flatMap] at all

theorem Judges.require {ok : Bool} {r : Reason} {k : SectionKind} {i : Nat} {reason kind : Byte} {holds : Prop}
    (h : ok = true ↔ holds) (hr : reason = r.code := by rfl) (hk : kind = k.code := by rfl) :
    Judges (Machine.require ok r k i) [⟨reason, kind, i, holds⟩] := by
  cases ok with
  | false => exact ⟨[], _, [], rfl, nofun, fun x => Bool.false_ne_true (h.2 x), hr, hk, rfl⟩
  | true =>
    intro c hc
    obtain rfl := List.mem_singleton.1 hc
    exact h.1 rfl

/-- The check that is found to fail is the only one before which all hold. -/
theorem Judges.found {before later : List StartCheck} {c : StartCheck} (h : Judges o (before ++ c :: later))
    (good : ∀ b ∈ before, b.holds) (bad : ¬ c.holds) :
    ∃ f, o = some f ∧ c.reason = f.reason.code ∧ c.kind = f.kind.code ∧ c.inst = f.inst := by
  obtain _ | f := o
  · exact absurd (h c (by simp)) bad
  · obtain ⟨before', c', later', split, good', bad', codes⟩ := h
    obtain ⟨rest, rfl, same⟩ | ⟨rest, rfl, same⟩ := List.append_eq_append_iff.1 split
    all_goals obtain _ | ⟨x, rest⟩ := rest
    · obtain ⟨rfl, -⟩ := List.cons_eq_cons.1 same
      exact ⟨f, rfl, codes⟩
    · obtain ⟨rfl, -⟩ := List.cons_eq_cons.1 same
      exact absurd (good' c (by simp)) bad
    · obtain ⟨rfl, -⟩ := List.cons_eq_cons.1 same
      exact ⟨f, rfl, codes⟩
    · obtain ⟨rfl, -⟩ := List.cons_eq_cons.1 same
      exact absurd (good c' (by simp)) bad'

end

/-! ## What the configuration record holds -/

section
variable {α : Type} {n : Nat}

theorem any_toList (v : Vector α n) (p : α → Bool) : v.toList.any p = true ↔ ∃ i : Fin n, p (v[i]'i.isLt) = true := by
  rw [vec_toList, List.any_map, List.any_eq_true]
  simp

/-- No earlier place of a table clashes with one. -/
theorem none_before {v : Vector (Option α) n} {i : Fin n} {q : Fin n → α → Bool} {p : Fin n → Bool}
    (loaded : ∀ j b, v[j]'j.isLt = some b → p j = q j b) (empty : ∀ j : Fin n, v[j]'j.isLt = none → p j = false) :
    (!(List.finRange n).any fun j => decide (j < i) && p j) = true ↔ ∀ (j : Fin n) (b : α), j < i → v[j]'j.isLt = some b → q j b = false := by
  rw [Bool.not_eq_true', List.any_eq_false]
  constructor
  · intro h j b less at_
    have := h j (List.mem_finRange j)
    rw [loaded j b at_, decide_eq_true less, Bool.true_and] at this
    exact Bool.eq_false_iff.2 this
  · intro h j _ clash
    obtain ⟨less, clash⟩ := Bool.and_eq_true_iff.1 clash
    cases at_ : v[j]'j.isLt with
    | none => exact Bool.false_ne_true ((empty j at_).symm.trans clash)
    | some b => exact Bool.false_ne_true ((h j b (of_decide_eq_true less) at_).symm.trans ((loaded j b at_).symm.trans clash))

end

theorem forall_loaded {α : Type} {o : Option α} {c : α} {P : α → Prop} (h : o = some c) : (∀ x, o = some x → P x) ↔ P c := by
  subst h
  simp

/-- A check of a loaded section asks it of the section. -/
theorem Judges.loaded {α : Type} {c : α} {P : α → Prop} {ok : Bool} {r : Reason} {k : SectionKind} {i : Nat} {reason kind : Byte}
    (h : ok = true ↔ P c) (hr : reason = r.code := by rfl) (hk : kind = k.code := by rfl) :
    Judges (Machine.require ok r k i) [⟨reason, kind, i, ∀ x, some c = some x → P x⟩] :=
  .require (h.trans (forall_loaded rfl).symm) hr hk

section
variable {r : ConfigRecord}

theorem hasOut_iff {kind : OutKind} {fn : OutFn} {n : Nat} (numbered : (fn = .feeder ∨ fn = .fan ∨ fn = .compartment) ↔ n ≠ 0) :
    Check.hasOut r kind fn n = true ↔
      ∃ (i : Fin 16) (c : OutCfg), r.outputs[i]'i.isLt = some c ∧ c.kind = kind ∧ c.fn = fn ∧ (n = 0 ∨ c.inst = n) := by
  unfold Check.hasOut
  rw [any_toList]
  refine exists_congr fun i => ?_
  have free : Check.outHasInst fn = false ↔ n = 0 := by
    rw [← not_iff_not, ← ne_eq, Bool.ne_false_iff, ← ne_eq, ← numbered]
    simp [Check.outHasInst, or_assoc]
  cases (r.outputs[i]'i.isLt) <;> simp [free, and_assoc]

theorem hasLine_iff {fn : LineFn} {n : Nat} (numbered : (fn = .endForward ∨ fn = .endReturn ∨ fn = .index) ↔ n ≠ 0) :
    Check.hasLine r fn n = true ↔ ∃ (i : Fin 12) (c : LineCfg), r.lines[i]'i.isLt = some c ∧ c.fn = fn ∧ (n = 0 ∨ c.inst = n) := by
  unfold Check.hasLine
  rw [any_toList]
  refine exists_congr fun i => ?_
  have free : Check.lineHasInst fn = false ↔ n = 0 := by
    rw [← not_iff_not, ← ne_eq, Bool.ne_false_iff, ← ne_eq, ← numbered]
    simp [Check.lineHasInst, or_assoc]
  cases (r.lines[i]'i.isLt) <;> simp [free]

theorem hasChannel_iff {fn : ChannelFn} {n : Nat} : Check.hasChannel r fn n = true ↔
    ∃ (i : Fin 8) (c : ChannelCfg), r.channels[i]'i.isLt = some c ∧ c.fn = fn ∧ c.inst = n := by
  unfold Check.hasChannel
  rw [any_toList]
  refine exists_congr fun i => ?_
  cases (r.channels[i]'i.isLt) <;> simp

theorem anyDuty_iff : Check.anyDuty r = true ↔
    r.burner ≠ none ∨ (∃ i : Fin 2, r.feeds[i]'i.isLt ≠ none) ∨ ∃ i : Fin 4, r.comps[i]'i.isLt ≠ none := by
  unfold Check.anyDuty
  simp only [Bool.or_eq_true, any_toList, Option.isSome_iff_ne_none, or_assoc]

end

end Sys2Proof.Machine
end

section
/-! SUPPORT. What each check of START asks of the configuration record (R56, R70, R72, R150, R154). -/

set_option Elab.async false

namespace Sys2Proof.Machine

theorem channelClash_iff {i j : Fin 8} {c b : ChannelCfg} : Check.channelClash i j c b = false ↔
    (b.fn = c.fn → b.inst = c.inst → c.fn = .encoder ∧ j.val / 2 = i.val / 2) := by
  simp [Check.channelClash, eq_comm (a := b.fn), eq_comm (a := b.inst), eq_comm (a := j.val / 2)]

theorem mate_iff (i j : Fin 8) : (j ≠ i ∧ j.val / 2 = i.val / 2) ↔ j = Fin.ofNat 8 (if i.val % 2 = 0 then i.val + 1 else i.val - 1) := by
  revert i j
  decide

theorem pairWhole_iff {r : ConfigRecord} {i : Fin 8} {c : ChannelCfg} : Check.pairWhole r i c = true ↔
    ∃ (j : Fin 8) (m : ChannelCfg), j ≠ i ∧ j.val / 2 = i.val / 2 ∧ r.channels[j]'j.isLt = some m ∧ m.fn = .encoder ∧ m.inst = c.inst ∧
      m.filter = c.filter ∧ m.tb = c.tb := by
  unfold Check.pairWhole
  simp only [← and_assoc (a := _ ≠ _), mate_iff, exists_and_left, exists_eq_left]
  generalize r.channels[Fin.ofNat 8 (if i.val % 2 = 0 then i.val + 1 else i.val - 1)] = mate
  cases mate <;> simp [and_assoc]

theorem channelMode_iff {r : ConfigRecord} {i : Fin 8} {c : ChannelCfg} (assigned : c.fn ≠ .unassigned) :
    (c.mode == Check.modeFor c.fn && (c.fn != .encoder || Check.pairWhole r i c)) = true ↔
      (c.fn = .flameScanner ∨ c.fn = .pressure → c.mode = .period) ∧ (c.fn = .weigher → c.mode = .countWindow) ∧
      (c.fn = .encoder → c.mode = .quadrature ∧ ∃ (j : Fin 8) (m : ChannelCfg), j ≠ i ∧ j.val / 2 = i.val / 2 ∧
        r.channels[j]'j.isLt = some m ∧ m.fn = .encoder ∧ m.inst = c.inst ∧ m.filter = c.filter ∧ m.tb = c.tb) := by
  rw [← pairWhole_iff]
  cases h : c.fn <;> simp_all [Check.modeFor]

theorem lineClash_iff {c b : LineCfg} : Check.lineClash c b = false ↔ (c.fn ≠ .general → c.fn ≠ .unused → b.fn = c.fn →
    (c.fn = .endForward ∨ c.fn = .endReturn ∨ c.fn = .index) ∧ b.inst ≠ c.inst) := by
  simp only [Check.lineClash, Check.lineHasInst, eq_comm (a := b.fn)]
  grind

theorem linePresent_iff {r : ConfigRecord} {c : LineCfg} : Check.linePresent r c = true ↔
    (c.fn = .index → (∃ k, r.channels[Fin.ofNat 8 c.inst] = some k ∧ k.fn = .encoder) ∧
      ∃ k, r.channels[Fin.ofNat 8 (c.inst + 1)] = some k ∧ k.fn = .encoder) ∧
    (c.fn = .endForward ∨ c.fn = .endReturn → r.comps[Fin.ofNat 4 (c.inst - 1)] ≠ none) := by
  unfold Check.linePresent
  cases h : c.fn
  case index =>
    simp only [List.all_cons, List.all_nil, Bool.and_true, Bool.and_eq_true]
    generalize r.channels[Fin.ofNat 8 c.inst] = a
    generalize r.channels[Fin.ofNat 8 (c.inst + 1)] = b
    cases a <;> cases b <;> simp
  all_goals simp [Option.isSome_iff_ne_none]

theorem outClash_iff {c b : OutCfg} : Check.outClash c b = false ↔ (c.kind ≠ .unused → b.kind = c.kind → b.fn = c.fn →
    (c.fn = .feeder ∨ c.fn = .fan ∨ c.fn = .compartment) ∧ b.inst ≠ c.inst) := by
  simp only [Check.outClash, Check.outHasInst, eq_comm (a := b.fn), eq_comm (a := b.kind)]
  grind

theorem kindAllows_iff {kind : OutKind} {fn : OutFn} : Check.kindAllows kind fn = true ↔
    (kind = .reference → fn = .feeder ∨ fn = .fan) ∧ (kind = .valve → fn = .pilotValve ∨ fn = .mainFuelRelease) ∧
    (kind = .igniter → fn = .igniter) ∧ (kind = .strokeForward ∨ kind = .strokeReturn → fn = .compartment) := by
  cases kind <;> simp [Check.kindAllows]

section
variable {r : ConfigRecord} {inst : Nat}

theorem feedThere_iff : ((inst == 1 && (r.feeds[0]).isSome) || (inst == 2 && (r.feeds[1]).isSome)) = true ↔
    ∃ ch : Fin 2, ch.val + 1 = inst ∧ r.feeds[ch]'ch.isLt ≠ none := by
  simp [Fin.exists_fin_two, Option.isSome_iff_ne_none, eq_comm (a := inst)]

theorem compThere_iff : (decide (1 ≤ inst) && decide (inst ≤ 4) && (r.comps[Fin.ofNat 4 (inst - 1)]).isSome) = true ↔
    ∃ n : Fin 4, n.val + 1 = inst ∧ r.comps[n]'n.isLt ≠ none := by
  simp only [Bool.and_eq_true, decide_eq_true_iff, Option.isSome_iff_ne_none]
  constructor
  · rintro ⟨⟨low, high⟩, there⟩
    refine ⟨Fin.ofNat 4 (inst - 1), ?_, there⟩
    rw [Fin.val_ofNat]
    omega
  · rintro ⟨n, rfl, there⟩
    refine ⟨⟨by omega, by omega⟩, ?_⟩
    simp only [Nat.add_sub_cancel, Fin.ofNat_val_eq_self]
    exact there

theorem generalThere_iff : (decide (inst < 12) && (r.lines[Fin.ofNat 12 inst]).any fun l => l.fn == .general) = true ↔
    ∃ (l : Fin 12) (k : LineCfg), l.val = inst ∧ r.lines[l]'l.isLt = some k ∧ k.fn = .general := by
  simp only [Bool.and_eq_true, decide_eq_true_iff, Option.any_eq_true, beq_iff_eq]
  constructor
  · rintro ⟨range, k, loaded, general⟩
    exact ⟨Fin.ofNat 12 inst, k, Nat.mod_eq_of_lt range, loaded, general⟩
  · rintro ⟨l, k, rfl, loaded, general⟩
    refine ⟨l.isLt, k, ?_, general⟩
    simp only [Fin.ofNat_val_eq_self]
    exact loaded

end

theorem pointPresent_iff {r : ConfigRecord} {c : PointCfg} : Check.pointPresent r c = true ↔
    (c.kind = .feederStall ∨ c.kind = .feederReverse ∨ c.kind = .weigherSilent →
      ∃ ch : Fin 2, ch.val + 1 = c.inst ∧ r.feeds[ch]'ch.isLt ≠ none) ∧
    (c.kind = .grateStrokeTimeout ∨ c.kind = .limitConflict ∨ c.kind = .pressureHigh ∨ c.kind = .pressureLow →
      ∃ n : Fin 4, n.val + 1 = c.inst ∧ r.comps[n]'n.isLt ≠ none) ∧
    (c.kind = .inputLine → ∃ (l : Fin 12) (k : LineCfg), l.val = c.inst ∧ r.lines[l]'l.isLt = some k ∧ k.fn = .general) ∧
    (c.kind = .flameFail ∨ c.kind = .ignitionFail ∨ c.kind = .mainFlameFail ∨ c.kind = .purgeAirLost ∨
      c.kind = .airFlowLost ∨ c.kind = .heatShortfall ∨ c.kind = .coolerLoss ∨ c.kind = .estop ∨ c.kind = .loopLost ∨
      c.kind = .duplicateStation ∨ c.kind = .configMismatch ∨ c.kind = .noticeLoss ∨ c.kind = .panelAbsent →
      c.inst = 0) := by
  unfold Check.pointPresent
  dsimp only
  cases c.kind
  case feederStall | feederReverse | weigherSilent => exact feedThere_iff.trans (by simp)
  case grateStrokeTimeout | limitConflict | pressureHigh | pressureLow => exact compThere_iff.trans (by simp)
  case inputLine =>
    refine Iff.trans ?_ ((generalThere_iff (r := r) (inst := c.inst)).trans (by simp))
    cases r.lines[Fin.ofNat 12 c.inst] <;> rfl
  all_goals simp

end Sys2Proof.Machine
end

section
/-! SUPPORT. START checks the configuration in the order of its list (R192). -/

set_option Elab.async false

namespace Sys2Proof.Machine

theorem Judges.grouped {o : Option StartFault} {x a b c y : List StartCheck} (h : Judges o (x ++ (a ++ b ++ c) ++ y)) :
    Judges o (x ++ a ++ b ++ c ++ y) := by
  simpa only [List.append_assoc] using h

theorem no_duty {r : ConfigRecord} (bare : Check.anyDuty r ≠ true) :
    r.burner = none ∧ (∀ i : Fin 2, r.feeds[i]'i.isLt = none) ∧ ∀ i : Fin 4, r.comps[i]'i.isLt = none := by
  rw [ne_eq, anyDuty_iff, not_or, not_or, not_exists, not_exists] at bare
  exact ⟨not_not.1 bare.1, fun i => not_not.1 (bare.2.1 i), fun i => not_not.1 (bare.2.2 i)⟩

/-- The model's first fault is the first check of the list that fails. -/
theorem all_judged (r : ConfigRecord) : Judges (Check.all r) (startChecks r) := by
  unfold Check.all startChecks
  dsimp only
  refine Judges.grouped (Judges.joined (Judges.joined (Judges.joined (Judges.joined (Judges.joined ?_ ?_) ?_) ?_) ?_) ?_)
  case refine_1 =>
    change Judges _ ([_, _, _, _, _] ++ [_])
    refine Judges.list ?_ (Judges.single ?_)
    · have there {α : Type} (o : Option α) : o.isSome = true ↔ o ≠ none := Option.isSome_iff_ne_none
      exact Judges.cons (.require (there _)) (.cons (.require (there _)) (.cons (.require (there _)) (.cons (.require (there _))
        (.single (.require (there _))))))
    · unfold Check.flood
      cases r.flood with
      | none => simp [judges_none]
      | some f => exact .loaded decide_eq_true_iff
  case refine_2 =>
    refine Judges.flatMap _ fun i => ?_
    unfold Check.channel
    cases loaded : r.channels[i]'i.isLt with
    | none => simp [judges_none]
    | some c =>
      by_cases unassigned : c.fn = .unassigned
      · simp [judges_none, unassigned]
      · dsimp only
        rw [if_neg unassigned]
        refine .cons (.loaded ?_) (.single (.loaded (channelMode_iff unassigned)))
        refine (none_before (fun j b h => by rw [h]) fun j h => by rw [h]).trans ?_
        simp [channelClash_iff, unassigned]
  case refine_3 =>
    refine Judges.flatMap _ fun i => ?_
    unfold Check.line
    cases loaded : r.lines[i]'i.isLt with
    | none => simp [judges_none]
    | some c =>
      refine .cons (.loaded ?_) (.single (.loaded linePresent_iff))
      refine (none_before (fun j b h => by rw [h]) fun j h => by rw [h]).trans ?_
      simp only [lineClash_iff]
      grind
  case refine_4 =>
    refine Judges.flatMap _ fun i => ?_
    unfold Check.output
    cases loaded : r.outputs[i]'i.isLt with
    | none => simp [judges_none]
    | some c =>
      refine .cons (.loaded ?_) (.cons (.loaded kindAllows_iff) (.single (.loaded ?_)))
      · refine (none_before (fun j b h => by rw [h]) fun j h => by rw [h]).trans ?_
        simp only [outClash_iff]
        grind
      · simp only [Bool.or_eq_true, bne_iff_ne, decide_eq_true_iff]
        rw [← imp_iff_not_or]
        exact imp_congr_right fun _ => by omega
  case refine_5 =>
    by_cases duty : Check.anyDuty r = true
    · rw [if_pos duty]
      refine .joined (.joined (.single ?_) (.flatMap _ fun i => ?_)) (.flatMap _ fun i => ?_)
      · unfold Check.burner
        cases r.burner with
        | none => simp [judges_none]
        | some c =>
          refine .cons (.loaded ?_) (.single (.loaded ?_))
          · iterate 5 rw [Bool.and_eq_true]
            iterate 4 rw [and_assoc]
            refine and_congr (hasOut_iff ?_) (and_congr (hasOut_iff ?_) (and_congr (hasOut_iff ?_)
              (and_congr hasChannel_iff (and_congr (hasLine_iff ?_) (hasLine_iff ?_)))))
            all_goals decide
          · simp only [Bool.and_eq_true, decide_eq_true_iff, and_assoc]
      · unfold Check.feed
        cases loaded : r.feeds[i]'i.isLt with
        | none =>
          refine .before (b := [_]) (.require ?_) (by simp)
          simp only [Bool.not_eq_true', Bool.eq_false_iff, ne_eq, Bool.or_eq_true, not_or, hasChannel_iff]
          exact ⟨fun h _ _ => h, fun h => h (anyDuty_iff.1 duty) trivial⟩
        | some k =>
          refine .after (b := [_]) (.require ((hasOut_iff ?_).trans ?_)) (by simp)
          · simp
          · exact ⟨fun h _ => h, fun h => h nofun⟩
      · unfold Check.comp
        cases loaded : r.comps[i]'i.isLt with
        | none =>
          refine .before (b := [_, _, _]) (.require ?_) (by simp)
          simp only [Bool.not_eq_true', Bool.eq_false_iff, ne_eq, hasChannel_iff]
          exact ⟨fun h _ _ => h, fun h => h (anyDuty_iff.1 duty) trivial⟩
        | some k =>
          refine .after (a := [_, _, _]) (b := [_]) (.cons (.require ?_) (.cons (.loaded ?_) (.single (.loaded ?_)))) (by simp)
          · simp only [Bool.and_eq_true, and_assoc]
            refine Iff.trans (and_congr (hasOut_iff ?_) (and_congr (hasOut_iff ?_) (and_congr (hasLine_iff ?_) (hasLine_iff ?_))))
              ⟨fun h _ => h, fun h => h nofun⟩
            all_goals simp
          · simp only [Bool.and_eq_true, decide_eq_true_iff]
            omega
          · exact decide_eq_true_iff
    · obtain ⟨burner, feeds, comps⟩ := no_duty duty
      rw [if_neg duty]
      refine Judges.append (o := none) (.append (o := none) ?_ ?_) ?_
      · simp [judges_none, burner]
      · refine judges_none.2 (List.forall_mem_flatMap.2 fun i _ => ?_)
        rw [← anyDuty_iff]
        simp [feeds, duty]
      · refine judges_none.2 (List.forall_mem_flatMap.2 fun i _ => ?_)
        rw [← anyDuty_iff]
        simp [comps, duty]
  case refine_6 =>
    refine Judges.map _ fun i => ?_
    unfold Check.point
    cases (r.points[i]'i.isLt) with
    | none => simp [judges_none]
    | some c => exact .loaded pointPresent_iff

end Sys2Proof.Machine
end

section
/-! SUPPORT. What the accepted START makes of the blocks other than the Alarm Unit, which none of them reads (R56, R57, R69, R73, R87, R113,
R136, R177, R193). -/

set_option Elab.async false

namespace Sys2Proof.Machine

/-! ## A change made for every place of a vector -/

theorem foldl_vecModify {α : Type} {n : Nat} (g : Fin n → α → α) (l : List (Fin n)) (once : l.Nodup) (v : Vector α n) (i : Fin n) :
    (l.foldl (fun v i => vecModify v i (g i)) v)[i]'i.isLt = if i ∈ l then g i (v[i]'i.isLt) else (v[i]'i.isLt) := by
  induction l generalizing v with
  | nil => rfl
  | cons j l ih =>
    obtain ⟨fresh, once⟩ := List.nodup_cons.1 once
    rw [List.foldl_cons, ih once]
    by_cases e : i = j
    · subst e
      rw [if_neg fresh, if_pos List.mem_cons_self]
      exact vecModify_same v i (g i)
    · rw [show ((vecModify v j (g j))[i]'i.isLt) = v[i]'i.isLt from vecModify_ne v j (g j) _ _ (Fin.val_ne_of_ne (Ne.symm e))]
      simp [e]

/-- A pass that changes each place of one vector by what stands outside it. -/
theorem forAll_vector {α : Type} {n : Nat} {f : Fin n → Station → Station} {d : Station} (v : Vector α n) (put : Vector α n → Station)
    (g : Fin n → α → α) (step : ∀ i w, f i (put w) = put (vecModify w i (g i))) (start : d = put v) :
    forAll f d = put (Vector.ofFn fun i => g i (v[i]'i.isLt)) := by
  have fold (l : List (Fin n)) (w : Vector α n) :
      l.foldl (fun d i => f i d) (put w) = put (l.foldl (fun v i => vecModify v i (g i)) w) := by
    induction l generalizing w with
    | nil => rfl
    | cons i l ih => rw [List.foldl_cons, step, ih, List.foldl_cons]
  unfold forAll
  rw [start, fold]
  congr 1
  refine Vector.ext fun i h => ?_
  rw [Vector.getElem_ofFn]
  exact (foldl_vecModify g _ (List.nodup_finRange n) v ⟨i, h⟩).trans (if_pos (List.mem_finRange _))

theorem vecModify_keep {α : Type} {n : Nat} (v : Vector α n) (i : Fin n) : (vecModify v i fun x => x) = v := by
  refine Vector.ext fun j h => ?_
  rw [vecModify_get]
  exact ite_self _

/-! ## The blocks at START -/

/-- A feed channel at START (R113). -/
def FeedChannel.started (section_ : Option FeedCfg) (c : FeedChannel) : FeedChannel :=
  match section_ with
  | some k => { FeedChannel.first with cfg := some k, cv := k.cv, capacity := k.capacityAt k.cv }
  | none => c

/-- A compartment at START (R136). -/
def Compartment.started (section_ : Option CompCfg) (c : Compartment) : Compartment :=
  match section_ with
  | some k => { Compartment.first with cfg := some k, baseRate := k.baseRate, shadow := k.minRate, preload := k.minRate }
  | none => c

def Station.startedPiu (d : Station) : Piu :=
  { channels := Vector.ofFn fun i => (d.piu.channels[i]'i.isLt).started d.now (d.cfg.channels[i]'i.isLt)
    lines := Vector.ofFn fun i => (d.piu.lines[i]'i.isLt).started d (d.cfg.lines[i]'i.isLt) }

def Station.startedFdc (d : Station) : Fdc := { channels := Vector.ofFn fun i => (d.fdc.channels[i]'i.isLt).started (d.cfg.feeds[i]'i.isLt) }

def Station.startedGcc (d : Station) : Gcc :=
  { d.gcc with comps := Vector.ofFn fun i => (d.gcc.comps[i]'i.isLt).started (d.cfg.comps[i]'i.isLt) }

def Station.withPiu (p : Piu) (d : Station) : Station := { d with piu := p }
def Station.withFdc (p : Fdc) (d : Station) : Station := { d with fdc := p }
def Station.withGcc (p : Gcc) (d : Station) : Station := { d with gcc := p }

theorem startChannels_eq (d : Station) : forAll (fun i x => x.onChannel i (Channel.started x.now (x.cfg.channels[i]'i.isLt))) d =
    d.withPiu { d.piu with channels := d.startedPiu.channels } :=
  forAll_vector d.piu.channels (fun v => d.withPiu { d.piu with channels := v })
    (fun i => Channel.started d.now (d.cfg.channels[i]'i.isLt)) (fun _ _ => rfl) rfl

theorem startLines_eq (d : Station) : forAll (fun i x => x.onInput i (InputLine.started x (x.cfg.lines[i]'i.isLt))) d =
    d.withPiu { d.piu with lines := d.startedPiu.lines } :=
  forAll_vector d.piu.lines (fun v => d.withPiu { d.piu with lines := v })
    (fun i => InputLine.started d (d.cfg.lines[i]'i.isLt)) (fun _ _ => rfl) rfl

theorem startInputs_eq (d : Station) : d.startInputs = d.withPiu d.startedPiu := by
  unfold Station.startInputs
  dsimp only
  rw [startChannels_eq, startLines_eq]
  rfl

theorem startFeed_eq (d : Station) : d.startFeed = (d.withFdc d.startedFdc).stageFeed := by
  refine congrArg Station.stageFeed (forAll_vector d.fdc.channels (fun v => d.withFdc { channels := v })
    (fun i => FeedChannel.started (d.cfg.feeds[i]'i.isLt)) (fun i w => ?_) rfl)
  change (match (d.cfg.feeds[i]'i.isLt) with | some k => _ | none => _) = _
  cases (d.cfg.feeds[i]'i.isLt) with
  | some k => rfl
  | none => exact congrArg (fun v => d.withFdc { channels := v }) (vecModify_keep w i).symm

theorem startCooler_eq (d : Station) : d.startCooler = (d.withGcc d.startedGcc).stageCooler := by
  refine congrArg Station.stageCooler (forAll_vector d.gcc.comps (fun v => d.withGcc { d.gcc with comps := v })
    (fun i => Compartment.started (d.cfg.comps[i]'i.isLt)) (fun i w => ?_) rfl)
  change (match (d.cfg.comps[i]'i.isLt) with | some k => _ | none => _) = _
  cases (d.cfg.comps[i]'i.isLt) with
  | some k => rfl
  | none => exact congrArg (fun v => d.withGcc { d.gcc with comps := v }) (vecModify_keep w i).symm

/-! ## Operations that do not read the Alarm Unit -/

/-- A station with all that the Alarm Unit writes taken from another. -/
def Station.alarmsOf (b a : Station) : Station :=
  { a with
    signals := b.signals, alm := b.alm, ppt := { a.ppt with events := b.ppt.events }
    lpc := { a.lpc with
      queue := b.lpc.queue
      staging := { a.lpc.staging with alarm := b.lpc.staging.alarm, summary := b.lpc.staging.summary } } }

/-- An operation neither reads nor writes what the Alarm Unit writes. -/
def Apart (f : Station → Station) : Prop := ∀ a b : Station, f (b.alarmsOf a) = b.alarmsOf (f a)

theorem AlarmsOnly.alarmsOf {a b : Station} (h : AlarmsOnly a b) : b = b.alarmsOf a := h.rest

namespace Apart
variable {f : Station → Station}

theorem self (hf : Apart f) (a : Station) : f a = a.alarmsOf (f a) := hf a a

/-- What the Alarm Unit has done before is as if it did it after. -/
theorem only (hf : Apart f) {a b : Station} (h : AlarmsOnly a b) : AlarmsOnly (f a) (f b) := by
  have whole : f b = b.alarmsOf (f a) := (congrArg f h.alarmsOf).trans (hf a b)
  have own := hf.self a
  refine ⟨?_, ?_, ?_⟩
  · rw [whole, show (f a).signals = a.signals from (congrArg Station.signals own :)]
    exact h.signals
  · rw [whole, show (f a).ppt.events = a.ppt.events from (congrArg (fun x => x.ppt.events) own :)]
    exact h.events
  · rw [whole]
    rfl

theorem alm (hf : Apart f) (a : Station) : (f a).alm = a.alm := (congrArg Station.alm (hf.self a) :)
theorem stagedAlarm (hf : Apart f) (a : Station) : (f a).lpc.staging.alarm = a.lpc.staging.alarm :=
  (congrArg (fun x => x.lpc.staging.alarm) (hf.self a) :)
theorem stagedSummary (hf : Apart f) (a : Station) : (f a).lpc.staging.summary = a.lpc.staging.summary :=
  (congrArg (fun x => x.lpc.staging.summary) (hf.self a) :)

theorem stageBurner : Apart Station.stageBurner := by
  intro a b
  have same : (b.alarmsOf a).cfg.burner = a.cfg.burner := rfl
  unfold Station.stageBurner
  rw [same]
  cases a.cfg.burner <;> rfl

theorem stageFeed : Apart Station.stageFeed := by
  intro a b
  have same : (b.alarmsOf a).feedDuty = a.feedDuty := rfl
  unfold Station.stageFeed
  rw [same]
  cases a.feedDuty <;> rfl

theorem stageCooler : Apart Station.stageCooler := by
  intro a b
  have same : (b.alarmsOf a).coolerDuty = a.coolerDuty := rfl
  unfold Station.stageCooler
  rw [same]
  cases a.coolerDuty <;> rfl

theorem startFeed : Apart Station.startFeed := by
  intro a b
  rw [startFeed_eq, startFeed_eq]
  exact stageFeed (a.withFdc a.startedFdc) b

theorem startCooler : Apart Station.startCooler := by
  intro a b
  rw [startCooler_eq, startCooler_eq]
  exact stageCooler (a.withGcc a.startedGcc) b

theorem startShift : Apart Station.startShift := by
  intro a b
  have same : (b.alarmsOf a).sru.ring.getLast? = a.sru.ring.getLast? := rfl
  unfold Station.startShift
  rw [same]
  rfl

theorem startWatch : Apart Station.startWatch := fun _ _ => rfl

theorem onState (st : LoopState) : Apart fun x => x.onLpc fun l => { l with state := st } := fun _ _ => rfl

end Apart

/-- What START does after the points have started, but for the report of the lost loop and what is told of it. -/
def Station.startRest (d : Station) : Station := d.stageBurner.startFeed.startCooler.startShift.startWatch

theorem startRest_apart : Apart Station.startRest := by
  intro a b
  unfold Station.startRest
  rw [Apart.stageBurner a b, Apart.startFeed _ b, Apart.startCooler _ b, Apart.startShift _ b, Apart.startWatch _ b]

/-- What START does before the points start (R72, R73, R193). -/
def Station.startFirst (d : Station) : Station :=
  let d := d.onPpt fun p =>
    { p with started := true, sig := some (configSignature d.loopCfg d.boundaries), window := .awaitingFirst }
  d.stagePanel.startInputs.startOutputs

theorem acceptStart_eq (d : Station) : d.acceptStart =
    (d.startFirst.startAlarms.startRest.report .loopLost 0 true).loopState .joining := rfl

/-- What START leaves of the station, but for what the Alarm Unit writes. -/
theorem acceptStart_only (d : Station) :
    AlarmsOnly (d.startFirst.startRest.onLpc fun l => { l with state := .joining }) d.acceptStart := by
  have reported := (startRest_apart.only (startAlarms_only d.startFirst).1).trans
    (report_only .loopLost 0 true d.startFirst.startAlarms.startRest)
  have entered := (Apart.onState .joining).only reported
  exact entered.trans ((MovesPoints.refl _).post .loopState).only

/-! ## What START leaves, block by block -/

/-- The burner part as it stands staged (R87). -/
def Station.burnerPiece (d : Station) : Option BurnerPart :=
  match d.cfg.burner with
  | some c => some { letter := c.letter, state := d.bsq.state, demand := wire32 d.bsq.demand }
  | none => d.lpc.staging.burner

/-- The feed part as it stands staged (R116). -/
def Station.feedPiece (d : Station) : Option (List FeedEntry) :=
  if d.feedDuty then some ((List.finRange 2).filterMap fun ch => (d.fdc.channels[ch]'ch.isLt).entry ch) else d.lpc.staging.feed

/-- The cooler part as it stands staged (R148). -/
def Station.coolerPiece (d : Station) : Option CoolerPart :=
  if d.coolerDuty then some d.gcc.part else d.lpc.staging.cooler

/-- The totals of the newest report, or zeros (R184). -/
def Station.closingPiece (d : Station) : ClosingPart :=
  (d.sru.ring.getLast?.map Report.closing).getD { shift := 0, heat := 0, firing := 0, strokes := 0, trips := 0 }

theorem stageBurner_eq (d : Station) : d.stageBurner = d.onStaging fun g => { g with burner := d.burnerPiece } := by
  unfold Station.stageBurner Station.burnerPiece
  cases d.cfg.burner <;> rfl

theorem stageFeed_eq (d : Station) : d.stageFeed = d.onStaging fun g => { g with feed := d.feedPiece } := by
  unfold Station.stageFeed Station.feedPiece
  cases d.feedDuty <;> rfl

theorem stageCooler_eq (d : Station) : d.stageCooler = d.onStaging fun g => { g with cooler := d.coolerPiece } := by
  unfold Station.stageCooler Station.coolerPiece
  cases d.coolerDuty <;> rfl

theorem startShift_eq (d : Station) : d.startShift = { d with
    sru := { d.sru with notUp := some (d.now + 1000000) }
    lpc := { d.lpc with staging := { d.lpc.staging with openShift := some d.sru.shift, closing := some d.closingPiece } } } := by
  unfold Station.startShift Station.closingPiece
  cases d.sru.ring.getLast? <;> rfl

theorem startFeed_whole (d : Station) : d.startFeed = { d with
    fdc := d.startedFdc, lpc := { d.lpc with staging := { d.lpc.staging with feed := (d.withFdc d.startedFdc).feedPiece } } } := by
  rw [startFeed_eq, stageFeed_eq]
  rfl

theorem startCooler_whole (d : Station) : d.startCooler = { d with
    gcc := d.startedGcc, lpc := { d.lpc with staging := { d.lpc.staging with cooler := (d.withGcc d.startedGcc).coolerPiece } } } := by
  rw [startCooler_eq, stageCooler_eq]
  rfl

theorem startWatch_eq (d : Station) : d.startWatch = { d with
    lpc := { d.lpc with watch := some (d.now + d.loopCfg.watchMultiple * d.loopCfg.cycle * 1000) } } := rfl

theorem duties_start (d : Station) : d.stageBurner.startFeed.startCooler = { d with
    fdc := d.startedFdc, gcc := d.startedGcc
    lpc := { d.lpc with staging := { d.lpc.staging with
      burner := d.burnerPiece, feed := (d.withFdc d.startedFdc).feedPiece, cooler := (d.withGcc d.startedGcc).coolerPiece } } } := by
  rw [startCooler_whole, startFeed_whole, stageBurner_eq]
  rfl

theorem startRest_eq (d : Station) : d.startRest = { d with
    fdc := d.startedFdc, gcc := d.startedGcc, sru := { d.sru with notUp := some (d.now + 1000000) }
    lpc := { d.lpc with
      watch := some (d.now + d.loopCfg.watchMultiple * d.loopCfg.cycle * 1000)
      staging := { d.lpc.staging with
        burner := d.burnerPiece, feed := (d.withFdc d.startedFdc).feedPiece
        cooler := (d.withGcc d.startedGcc).coolerPiece, openShift := some d.sru.shift, closing := some d.closingPiece } } } := by
  unfold Station.startRest
  rw [startShift_eq, startWatch_eq, duties_start]
  rfl

/-- The panel's part as START stages it (R193, R194). -/
def Station.panelPiece (d : Station) : PanelCommon :=
  { station := d.ownByte, sig := configSignature d.loopCfg d.boundaries, present := d.ppt.present }

theorem startFirst_eq (d : Station) : d.startFirst = { d with
    ppt := { d.ppt with started := true, sig := some (configSignature d.loopCfg d.boundaries), window := .awaitingFirst }
    piu := d.startedPiu, dou := { d.dou with lines := Vector.ofFn fun i => .started d.now (d.cfg.outputs[i]'i.isLt) }
    lpc := { d.lpc with staging := { d.lpc.staging with panel := some d.panelPiece } } } := by
  unfold Station.startFirst
  dsimp only
  rw [startOutputs_eq, startInputs_eq]
  rfl

/-- The station that START leaves, but for what the Alarm Unit writes. -/
def Station.startLeaves (d : Station) : Station :=
  { d with
    ppt := { d.ppt with started := true, sig := some (configSignature d.loopCfg d.boundaries), window := .awaitingFirst }
    piu := d.startedPiu, dou := { d.dou with lines := Vector.ofFn fun i => .started d.now (d.cfg.outputs[i]'i.isLt) }
    fdc := d.startedFdc, gcc := d.startedGcc, sru := { d.sru with notUp := some (d.now + 1000000) }
    lpc := { d.lpc with
      state := .joining, watch := some (d.now + d.loopCfg.watchMultiple * d.loopCfg.cycle * 1000)
      staging := { d.lpc.staging with
        panel := some d.panelPiece, burner := d.burnerPiece, feed := (d.withFdc d.startedFdc).feedPiece
        cooler := (d.withGcc d.startedGcc).coolerPiece, openShift := some d.sru.shift, closing := some d.closingPiece } } }

theorem acceptStart_leaves (d : Station) : AlarmsOnly d.startLeaves d.acceptStart := by
  have whole : (d.startFirst.startRest.onLpc fun l => { l with state := .joining }) = d.startLeaves := by
    rw [startRest_eq, startFirst_eq]
    rfl
  rw [← whole]
  exact acceptStart_only d

end Sys2Proof.Machine
end

section
/-! SUPPORT. The points at the accepted START: each as its section and the condition table give it, with the trip request and the alarm
summary staged as the points leave them (R154, R159, R169). -/

set_option Elab.async false

namespace Sys2Proof.Machine

/-! ## What the summary is made of -/

/-- A point counts as unacknowledged (R169). -/
def Point.unacked (p : Point) : Bool := p.visible && (p.state == .raisedUnacked || p.state == .returnedUnacked)

/-- A point counts as raised in a class (R169). -/
def Point.raisedIn (k : AlarmClass) (p : Point) : Bool :=
  p.visible && (p.state == .raisedUnacked || p.state == .raisedAcked) && p.cfg.any fun c => c.cls == k

/-- The summary goes by the points that count and by FLOOD. -/
theorem summary_congr {a b : Alm} (flood : b.flood = a.flood) (unacked : ∀ i : Fin 32, (b.points[i]'i.isLt).unacked = (a.points[i]'i.isLt).unacked)
    (raised : ∀ (k : AlarmClass) (i : Fin 32), (b.points[i]'i.isLt).raisedIn k = (a.points[i]'i.isLt).raisedIn k) : b.summary = a.summary := by
  have count (x : Alm) : x.unacked = ((List.finRange 32).filter fun i => (x.points[i]'i.isLt).unacked).length := by
    unfold Alm.unacked
    rw [vec_toList, List.filter_map, List.length_map]
    rfl
  have class_ (x : Alm) (k : AlarmClass) : x.raisedClass k = (List.finRange 32).any fun i => (x.points[i]'i.isLt).raisedIn k := by
    unfold Alm.raisedClass
    rw [vec_toList, List.any_map]
    refine congrArg (List.any _) (funext fun i => ?_)
    rw [Function.comp_apply]
    generalize (x.points[i]'i.isLt) = p
    unfold Point.raisedIn
    cases p.cfg <;> rfl
  unfold Alm.summary
  simp only [count, class_, unacked, raised, flood]

/-! ## What stands staged -/

/-- The alarm piece stands staged as the Alarm Unit has it (R159). -/
def AlarmStaged (d : Station) : Prop := d.lpc.staging.alarm = some { epoch := d.alm.epoch, trip := d.alm.trip }

/-- The alarm summary stands staged as the points give it (R169). -/
def SummaryStaged (d : Station) : Prop := d.lpc.staging.summary = some d.alm.summary

/-- A point given anew that counts as it did. -/
def Station.likePoint (i : Fin 32) (q : Point) (d : Station) : Prop :=
  q.unacked = (d.alm.points[i]'i.isLt).unacked ∧ ∀ k, q.raisedIn k = (d.alm.points[i]'i.isLt).raisedIn k

theorem SummaryStaged.withPoint {i : Fin 32} {q : Point} {d : Station} (h : SummaryStaged d) (like : d.likePoint i q) :
    SummaryStaged (d.withPoint i q) := by
  refine Eq.trans h (congrArg some (summary_congr (a := d.alm) (b := (d.withPoint i q).alm) rfl ?_ ?_).symm)
  · intro j
    by_cases e : j = i
    · subst e
      rw [withPoint_same]
      exact like.1
    · rw [withPoint_ne e]
  · intro k j
    by_cases e : j = i
    · subst e
      rw [withPoint_same]
      exact like.2 k
    · rw [withPoint_ne e]

theorem AlarmStaged.moved {told : List Instr} {i : Fin 32} {p : Point} {a b : Station} (h : AlarmStaged a)
    (m : PointMoved told i p a b) : AlarmStaged b := by
  unfold AlarmStaged at *
  rw [m.staged, m.moves.epoch]
  split
  next same => rw [h, same]
  next => rfl

/-- A condition that becomes present leaves both pieces staged as they should be. -/
theorem setWatched_staged (i : Fin 32) (d : Station) : (AlarmStaged d → AlarmStaged (d.setWatched i true)) ∧
    (SummaryStaged d → SummaryStaged (d.setWatched i true)) := by
  obtain ⟨none, stands, takes⟩ := setWatched_takes i true d
  cases cfg : (d.alm.points[i]'i.isLt).cfg with
  | none => rw [none cfg]; exact ⟨id, id⟩
  | some c =>
    by_cases same : (d.alm.points[i]'i.isLt).watched = true
    · rw [stands same]; exact ⟨id, id⟩
    · obtain ⟨idle, raises, -⟩ := takes c cfg same
      have given {q : Point} (e : d.setWatched i true = d.withPoint i q) (vis : q.visible = (d.alm.points[i]'i.isLt).visible)
          (state : q.state = (d.alm.points[i]'i.isLt).state) (cfg : q.cfg = (d.alm.points[i]'i.isLt).cfg) :
          (AlarmStaged d → AlarmStaged (d.setWatched i true)) ∧ (SummaryStaged d → SummaryStaged (d.setWatched i true)) := by
        rw [e]
        exact ⟨id, fun h => h.withPoint ⟨by unfold Point.unacked; rw [vis, state],
          fun k => by unfold Point.raisedIn; rw [vis, state, cfg]⟩⟩
      cases qualified : (d.alm.points[i]'i.isLt).qualified with
      | true => exact given (idle qualified) rfl rfl rfl
      | false =>
        obtain ⟨delayed, once⟩ := raises qualified rfl
        by_cases delay : c.onDelay = 0
        · obtain ⟨moves, stays⟩ := once delay
          by_cases can : ((d.alm.points[i]'i.isLt).state = .normal ∨ (d.alm.points[i]'i.isLt).state = .returnedUnacked ∨
              ((d.alm.points[i]'i.isLt).state = .raisedUnacked ∧ (d.alm.points[i]'i.isLt).gone = true))
          · obtain ⟨moved, -⟩ := moves can
            exact ⟨fun h => h.moved moved, fun _ => moved.summary⟩
          · exact given (stays can) rfl rfl rfl
        · exact given (delayed delay) rfl rfl rfl

/-! ## A point at START -/

/-- A point fresh from its section. -/
def PointCfg.fresh (c : PointCfg) : Point := { Point.first with cfg := some c }

theorem startPoint_none {i : Fin 32} {d : Station} (empty : d.cfg.points[i]'i.isLt = none) : d.startPoint i = d := by
  unfold Station.startPoint
  rw [empty]

theorem startPoint_some {i : Fin 32} {c : PointCfg} {d : Station} (loaded : d.cfg.points[i]'i.isLt = some c) : d.startPoint i =
    if d.condition c.kind c.inst then (d.withPoint i c.fresh).setWatched i true else d.withPoint i c.fresh := by
  unfold Station.startPoint
  rw [loaded]
  rfl

/-- What stands while the points start one after the other. -/
structure Starting (a b : Station) : Prop where
  cfg : b.cfg = a.cfg
  now : b.now = a.now
  present : b.alm.present = a.alm.present
  epoch : b.alm.epoch = a.alm.epoch

namespace Starting
variable {a b c : Station}

theorem refl (a : Station) : Starting a a := ⟨rfl, rfl, rfl, rfl⟩

theorem trans (h : Starting a b) (k : Starting b c) : Starting a c :=
  ⟨k.cfg.trans h.cfg, k.now.trans h.now, k.present.trans h.present, k.epoch.trans h.epoch⟩

theorem of_moves (m : MovesPoints a b) : Starting a b :=
  ⟨(congrArg Ppt.cfg m.only.ppt :), m.only.now, m.move.present, m.move.epoch⟩

theorem startPoint (i : Fin 32) (d : Station) : Starting d (d.startPoint i) := by
  cases loaded : d.cfg.points[i]'i.isLt with
  | none => rw [startPoint_none loaded]; exact .refl d
  | some c =>
    have fresh : Starting d (d.withPoint i c.fresh) := ⟨rfl, rfl, rfl, rfl⟩
    rw [startPoint_some loaded]
    split
    · exact fresh.trans (.of_moves ((MovesPoints.refl _).setWatched i true))
    · exact fresh

end Starting

theorem startPoint_others (i : Fin 32) (d : Station) {j : Fin 32} (ne : j ≠ i) :
    (d.startPoint i).alm.points[j]'j.isLt = d.alm.points[j]'j.isLt := by
  cases loaded : d.cfg.points[i]'i.isLt with
  | none => rw [startPoint_none loaded]
  | some c =>
    rw [startPoint_some loaded]
    split
    · exact ((setWatched_flag i true _).others j ne).trans (withPoint_ne ne _ d)
    · exact withPoint_ne ne _ d

/-- A point that START leaves with its section, waiting where its condition stands present (R154, R155). -/
structure PointStarted (c : PointCfg) (there : Bool) (now : Nat) (p : Point) : Prop where
  cfg : p.cfg = some c
  waits : there = false ∨ c.onDelay ≠ 0 →
    p = { c.fresh with watched := there, delay := if there then some (.on (now + c.onDelay * 1000000)) else none }

theorem startPoint_started {i : Fin 32} {c : PointCfg} {d : Station} (loaded : d.cfg.points[i]'i.isLt = some c) :
    PointStarted c (d.condition c.kind c.inst) d.now ((d.startPoint i).alm.points[i]'i.isLt) := by
  have point : (d.withPoint i c.fresh).alm.points[i]'i.isLt = c.fresh := withPoint_same i _ d
  rw [startPoint_some loaded]
  cases there : d.condition c.kind c.inst with
  | false =>
    rw [if_neg Bool.false_ne_true, point]
    exact ⟨rfl, fun _ => rfl⟩
  | true =>
    rw [if_pos rfl]
    refine ⟨?_, fun delay => ?_⟩
    · refine (((MovesPoints.refl _).setWatched i true).settings i).trans ?_
      rw [point]
      rfl
    · obtain ⟨-, -, takes⟩ := setWatched_takes i true (d.withPoint i c.fresh)
      rw [point] at takes
      obtain ⟨-, raises, -⟩ := takes c rfl Bool.false_ne_true
      rw [(raises rfl rfl).1 (delay.resolve_left nofun)]
      exact withPoint_same i _ _

theorem startPoint_staged (i : Fin 32) (d : Station) : (AlarmStaged d → AlarmStaged (d.startPoint i)) ∧
    ((d.alm.points[i]'i.isLt).cfg = none → SummaryStaged d → SummaryStaged (d.startPoint i)) := by
  cases loaded : d.cfg.points[i]'i.isLt with
  | none => rw [startPoint_none loaded]; exact ⟨id, fun _ => id⟩
  | some c =>
    have fresh (empty : (d.alm.points[i]'i.isLt).cfg = none) (h : SummaryStaged d) : SummaryStaged (d.withPoint i c.fresh) := by
      refine h.withPoint ⟨?_, fun k => ?_⟩
      · unfold Point.unacked Point.visible
        rw [empty]
        rfl
      · unfold Point.raisedIn Point.visible
        rw [empty]
        rfl
    rw [startPoint_some loaded]
    split
    · obtain ⟨alarm, summary⟩ := setWatched_staged i (d.withPoint i c.fresh)
      exact ⟨alarm, fun empty h => summary (fresh empty h)⟩
    · exact ⟨id, fresh⟩

/-! ## All points at START -/

/-- The points of a list started in turn. -/
def startAll (l : List (Fin 32)) (d : Station) : Station := l.foldl (fun d i => d.startPoint i) d

theorem startAll_starting (l : List (Fin 32)) (d : Station) : Starting d (startAll l d) := by
  induction l generalizing d with
  | nil => exact .refl d
  | cons i l ih => exact (Starting.startPoint i d).trans (ih _)

theorem startAll_others {l : List (Fin 32)} {j : Fin 32} (other : j ∉ l) (d : Station) :
    (startAll l d).alm.points[j]'j.isLt = d.alm.points[j]'j.isLt := by
  induction l generalizing d with
  | nil => rfl
  | cons i l ih =>
    obtain ⟨ne, other⟩ := not_or.1 fun h => other (List.mem_cons.2 h)
    exact (ih other _).trans (startPoint_others i d ne)

theorem startAll_started {l : List (Fin 32)} (once : l.Nodup) {j : Fin 32} (mem : j ∈ l) {c : PointCfg} {d : Station}
    (loaded : d.cfg.points[j]'j.isLt = some c) : PointStarted c (d.condition c.kind c.inst) d.now ((startAll l d).alm.points[j]'j.isLt) := by
  induction l generalizing d with
  | nil => cases mem
  | cons i l ih =>
    obtain ⟨fresh, once⟩ := List.nodup_cons.1 once
    show PointStarted c (d.condition c.kind c.inst) d.now ((startAll l (d.startPoint i)).alm.points[j]'j.isLt)
    by_cases e : j = i
    · subst e
      rw [startAll_others fresh]
      exact startPoint_started loaded
    · have keeps := Starting.startPoint i d
      have rest := ih once ((List.mem_cons.1 mem).resolve_left e) (d := d.startPoint i) (by rw [keeps.cfg]; exact loaded)
      unfold Station.condition at *
      rwa [keeps.present, keeps.now] at rest

theorem startAll_staged {l : List (Fin 32)} (once : l.Nodup) (d : Station) : (AlarmStaged d → AlarmStaged (startAll l d)) ∧
    ((∀ i ∈ l, (d.alm.points[i]'i.isLt).cfg = none) → SummaryStaged d → SummaryStaged (startAll l d)) := by
  induction l generalizing d with
  | nil => exact ⟨id, fun _ => id⟩
  | cons i l ih =>
    obtain ⟨fresh, once⟩ := List.nodup_cons.1 once
    obtain ⟨alarm, summary⟩ := startPoint_staged i d
    obtain ⟨alarms, summaries⟩ := ih once (d.startPoint i)
    refine ⟨fun h => alarms (alarm h), fun empty h => summaries (fun j hj => ?_) (summary (empty i List.mem_cons_self) h)⟩
    rw [startPoint_others i d fun e => fresh (e ▸ hj)]
    exact empty j (List.mem_cons_of_mem _ hj)

/-- The Alarm Unit's record and pieces before its points start (R166, R169). -/
def Station.alarmsReady (d : Station) : Station :=
  let d := d.onAlm fun a => { a with epoch := a.epoch + 1, flood := false }
  (d.onStaging fun g => { g with alarm := some { epoch := d.alm.epoch, trip := d.alm.trip } }).writeSummary

theorem startAlarms_eq (d : Station) : d.startAlarms = startAll (List.finRange 32) d.alarmsReady := rfl

/-- What the Alarm Unit's start leaves of the points (R154, R166, R169). -/
structure AlarmsStarted (a b : Station) : Prop where
  epoch : b.alm.epoch = a.alm.epoch + 1
  points : ∀ (i : Fin 32) (c : PointCfg), a.cfg.points[i]'i.isLt = some c →
    PointStarted c (a.condition c.kind c.inst) a.now (b.alm.points[i]'i.isLt)
  alarm : AlarmStaged b
  summary : (∀ i : Fin 32, (a.alm.points[i]'i.isLt).cfg = none) → SummaryStaged b

theorem startAlarms_started (d : Station) : AlarmsStarted d d.startAlarms := by
  rw [startAlarms_eq]
  obtain ⟨alarm, summary⟩ := startAll_staged (List.nodup_finRange 32) d.alarmsReady
  exact ⟨(startAll_starting (List.finRange 32) d.alarmsReady).epoch,
    fun i c loaded => startAll_started (d := d.alarmsReady) (List.nodup_finRange 32) (List.mem_finRange i) loaded, alarm rfl,
    fun empty => summary (fun i _ => empty i) rfl⟩

/-! ## The report of the lost loop -/

/-- A condition reported present leaves both pieces staged as they should be. -/
theorem report_staged {k : CondKind} (other : k ≠ .estop) (inst : Nat) (d : Station) :
    (AlarmStaged d → AlarmStaged (d.report k inst true)) ∧ (SummaryStaged d → SummaryStaged (d.report k inst true)) := by
  have step (P : Station → Prop) (keep : ∀ i x, P x → P (x.setWatched i true)) (i : Fin 32) (x : Station) (h : P x) :
      P (if (x.alm.points[i]'i.isLt).watches k inst then x.setWatched i true else x) := by
    split
    · exact keep i x h
    · exact h
  unfold Station.report
  split
  · exact ⟨id, id⟩
  · dsimp only
    exact ⟨fun h => forAll_keeps (P := AlarmStaged) _ h (step AlarmStaged fun i x => (setWatched_staged i x).1),
      fun h => forAll_keeps (P := SummaryStaged) _ h (step SummaryStaged fun i x => (setWatched_staged i x).2)⟩

/-- A report leaves a point of another kind as it stands. -/
theorem report_unwatched {k : CondKind} {c : PointCfg} {i : Fin 32} {d : Station} (cfg : (d.alm.points[i]'i.isLt).cfg = some c)
    (other : c.kind ≠ k) (inst : Nat) (v : Bool) : (d.report k inst v).alm.points[i]'i.isLt = d.alm.points[i]'i.isLt := by
  obtain same | ⟨watches, -⟩ := report_points k inst v d i
  · exact same
  · obtain ⟨c', cfg', kind, -⟩ := watches_iff.1 watches
    obtain rfl := Option.some.inj (cfg.symm.trans cfg')
    exact absurd kind other

/-- What START leaves in the Alarm Unit (R154, R169, R193). -/
structure AlarmsAccepted (a b : Station) : Prop where
  lost : b.condition .loopLost 0 = true
  epoch : b.alm.epoch = a.alm.epoch + 1
  settings : ∀ (i : Fin 32) (c : PointCfg), a.cfg.points[i]'i.isLt = some c → (b.alm.points[i]'i.isLt).cfg = some c
  points : ∀ (i : Fin 32) (c : PointCfg), a.cfg.points[i]'i.isLt = some c → c.kind ≠ .loopLost →
    PointStarted c (a.condition c.kind c.inst) a.now (b.alm.points[i]'i.isLt)
  alarm : AlarmStaged b
  summary : (∀ i : Fin 32, (a.alm.points[i]'i.isLt).cfg = none) → SummaryStaged b
  posted : b.ppt.events &&& 4 = 4

theorem acceptStart_alarms (d : Station) : AlarmsAccepted d d.acceptStart := by
  have first : d.startFirst.alm = d.alm := by rw [startFirst_eq]
  have cfg : d.startFirst.cfg = d.cfg := by rw [startFirst_eq]; rfl
  have now : d.startFirst.now = d.now := by rw [startFirst_eq]
  obtain ⟨epoch, points, alarm, summary⟩ := startAlarms_started d.startFirst
  have alm := startRest_apart.alm d.startFirst.startAlarms
  have stagedAlarm := startRest_apart.stagedAlarm d.startFirst.startAlarms
  have stagedSummary := startRest_apart.stagedSummary d.startFirst.startAlarms
  rw [acceptStart_eq]
  unfold Station.condition at points
  rw [first, cfg, now] at *
  generalize d.startFirst.startAlarms = x at *
  generalize x.startRest = y at *
  have moves := report_points .loopLost 0 true y
  obtain ⟨keepAlarm, keepSummary⟩ := report_staged (k := .loopLost) nofun 0 y
  have lost := report_condition .loopLost 0 true y
  have epochs : (y.report .loopLost 0 true).alm.epoch = y.alm.epoch := by
    obtain ⟨-, same⟩ | ⟨-, moved⟩ := report_spec .loopLost 0 true y
    · rw [same]
    · exact moved.move.epoch
  have cfgs := report_cfg .loopLost 0 true y
  have others {c : PointCfg} {i : Fin 32} (cfg : (y.alm.points[i]'i.isLt).cfg = some c) (other : c.kind ≠ .loopLost) :=
    report_unwatched cfg other 0 true
  generalize y.report .loopLost 0 true = z at *
  have given {i : Fin 32} {c : PointCfg} (loaded : d.cfg.points[i]'i.isLt = some c) : (y.alm.points[i]'i.isLt).cfg = some c := by
    rw [alm]
    exact (points i c loaded).cfg
  refine ⟨lost, ?_, fun i c loaded => ?_, fun i c loaded other => ?_, ?_, fun empty => ?_, ?_⟩
  · exact (epochs.trans (congrArg Alm.epoch alm)).trans epoch
  · exact (cfgs i).trans (given loaded)
  · show PointStarted c _ d.now (z.alm.points[i]'i.isLt)
    rw [others (given loaded) other, alm]
    exact points i c loaded
  · refine keepAlarm ?_
    unfold AlarmStaged at *
    rw [stagedAlarm, alm]
    exact alarm
  · refine keepSummary ?_
    have h := summary empty
    unfold SummaryStaged at *
    rw [stagedSummary, alm]
    exact h
  · show (z.ppt.events ||| 4) &&& 4 = 4
    rw [BitVec.and_comm, BitVec.or_comm]
    exact and_or_self 4 _

end Sys2Proof.Machine
end

section
/-! SUPPORT. CONFIGURE and START: sections are stored or refused by field, and START checks the record, freezes it and starts the blocks
(R56, R57, R191, R192, R193). -/

set_option Elab.async false

namespace Sys2Proof.Machine

section
variable {kind inst : Byte} {fields : List Byte} {s : State}

/-- A stored section is answered OK; a channel's sets the mode of its channel, and no other changes one (R57, R191). -/
theorem configure_good {k : SectionKind} {vs : List Nat} (off : s.dev.ppt.started = false) (there : k.instanceOk inst.toNat = true)
    (read : readFields (k.fields []) fields = some vs) (good : firstBad 1 (k.fields vs) vs = none) :
    (k ≠ .inputChannel → exec (.configure k.code inst fields) s =
      let d := s.dev.take (.configure k.code inst fields)
      .next { s with dev := (d.withCfg (k.store inst.toNat vs s.dev.ppt.cfg)).answer .ok 0 [] }) ∧
    Runs (.configure k.code inst fields) s (Accepted fun x =>
      x.ppt = { s.dev.ppt with cfg := k.store inst.toNat vs s.dev.ppt.cfg } ∧
      (∀ i : Fin 8, x.piu.channels[i]'i.isLt = { s.dev.piu.channels[i]'i.isLt with
        mode := if k = .inputChannel ∧ i.val = inst.toNat then some (pulseModeOf (vs.getD 2 0))
          else (s.dev.piu.channels[i]'i.isLt).mode }) ∧
      x = { s.dev.take (.configure k.code inst fields) with
        ppt := x.ppt, piu := { s.dev.piu with channels := x.piu.channels } }) := by
  have whole := configured_good (d := s.dev.take (.configure k.code inst fields)) off there read good
  refine ⟨fun other => ?_, Runs.of_act (exec_configure _ _ _) ⟨_, ?_, whole⟩⟩
  · refine exec_eq (exec_configure _ _ _) (whole.trans ?_)
    rw [configured_other other]
    rfl
  · by_cases channel : k = .inputChannel
    · subst channel
      have range : inst.toNat < 8 := of_decide_eq_true there
      rw [configured_channel range]
      refine ⟨rfl, fun i => (channelModes range _ _ i).trans ?_, rfl⟩
      simp only [true_and]
      rfl
    · rw [configured_other channel]
      refine ⟨rfl, fun i => ?_, rfl⟩
      rw [if_neg fun h => channel h.1]
      rfl

end

theorem readFields_loop (cycle multiple rank claim1 claim0 grace : Byte) :
    readFields (SectionKind.loop.fields []) [cycle, multiple, rank, claim1, claim0, grace] =
      some [cycle.toNat, multiple.toNat, rank.toNat, claim1.toNat * 256 + claim0.toNat, grace.toNat] := by
  simp [SectionKind.fields, readFields, span, beNat]

theorem firstBad_loop {cycle multiple rank claim grace : Nat} (c : 10 ≤ cycle ∧ cycle ≤ 100) (m : 3 ≤ multiple ∧ multiple ≤ 10)
    (r : rank ≤ 15) (l : 20 ≤ claim ∧ claim ≤ 500) (g : grace ≤ 30) :
    firstBad 1 (SectionKind.loop.fields [cycle, multiple, rank, claim, grace]) [cycle, multiple, rank, claim, grace] = none := by
  simp [SectionKind.fields, firstBad, span, c, m, r, l, g]

/-! ## START -/

/-- What START does (R192, R193). -/
def Station.startAsked (d : Station) : Station :=
  if d.ppt.started then d.wrongState
  else match Check.all d.cfg with
    | some f => d.answer .refused f.reason.code [f.kind.code, BitVec.ofNat 8 f.inst]
    | none => d.acceptStart.ok

theorem exec_start (s : State) : exec .start s = act .start Station.startAsked s := rfl

section
variable {s : State} (off : s.dev.ppt.started = false)
include off

theorem start_refused {f : StartFault} (fault : Check.all s.dev.ppt.cfg = some f) : exec .start s = .next { s with
    dev := (s.dev.take .start).answer .refused f.reason.code [f.kind.code, BitVec.ofNat 8 f.inst] } := by
  refine exec_eq exec_start ?_
  have same : Check.all (s.dev.take .start).cfg = some f := fault
  unfold Station.startAsked
  rw [if_neg (by rw [show (s.dev.take .start).ppt.started = false from off]; exact Bool.false_ne_true), same]

theorem start_accepted {P : Station → Prop} (good : ∀ c ∈ startChecks s.dev.ppt.cfg, c.holds) (h : P (s.dev.take .start).acceptStart) :
    Runs .start s (Accepted P) := by
  have same : Check.all (s.dev.take .start).cfg = none := by
    have judged := all_judged s.dev.ppt.cfg
    cases all : Check.all s.dev.ppt.cfg with
    | none => exact all
    | some f =>
      rw [all] at judged
      obtain ⟨before, c, later, split, -, bad, -⟩ := judged
      exact absurd (good c (by rw [split]; simp)) bad
  refine Runs.of_act exec_start ⟨_, h, ?_⟩
  unfold Station.startAsked
  rw [if_neg (by rw [show (s.dev.take .start).ppt.started = false from off]; exact Bool.false_ne_true), same]
  rfl

/-- The check that fails first is named in the refusal. -/
theorem start_fails {before later : List StartCheck} {c : StartCheck} (split : startChecks s.dev.ppt.cfg = before ++ c :: later)
    (good : ∀ b ∈ before, b.holds) (bad : ¬ c.holds) : exec .start s = .next { s with
      dev := (s.dev.take .start).answer .refused c.reason [c.kind, BitVec.ofNat 8 c.inst] } := by
  have judged := all_judged s.dev.ppt.cfg
  rw [split] at judged
  obtain ⟨f, fault, reason, kind, inst⟩ := judged.found good bad
  rw [reason, kind, inst]
  exact start_refused off fault

end

/-! ## What the blocks hold at START -/

theorem powerOn_point (i : Fin 32) : State.reset.dev.alm.points[i]'i.isLt = .first := Vector.getElem_replicate i.isLt
theorem powerOn_comp (i : Fin 4) : State.reset.dev.gcc.comps[i]'i.isLt = .first := Vector.getElem_replicate i.isLt
theorem powerOn_channel (i : Fin 8) : State.reset.dev.piu.channels[i]'i.isLt = .first false := Vector.getElem_replicate i.isLt

/-- An output line starts from its section, a REFERENCE line with its pattern and its period running (R73). -/
theorem outLine_started (now : Nat) (o : Option OutCfg) :
    let l := OutLine.started now o
    l.cfg = o ∧ l.active = 0 ∧ l.preload = 0 ∧ l.on = false ∧ l.burst = .idle ∧ l.forced = false ∧
      ∀ c, o = some c → c.kind = .reference → l.firstWrite = true ∧ l.carrierEnd = some (now + c.carrier) ∧
        l.patternEnd = some (now + c.interval * 1000) := by
  cases o with
  | none => exact ⟨rfl, rfl, rfl, rfl, rfl, rfl, fun c h => absurd h.symm (Option.some_ne_none c)⟩
  | some c =>
    unfold OutLine.started
    dsimp only
    split
    · refine ⟨rfl, rfl, rfl, rfl, rfl, rfl, ?_⟩
      rintro _ ⟨⟩ -
      exact ⟨rfl, rfl, rfl⟩
    next other =>
      refine ⟨rfl, rfl, rfl, rfl, rfl, rfl, ?_⟩
      rintro _ ⟨⟩ reference
      exact absurd reference other

theorem channel_started (now : Nat) (o : Option ChannelCfg) (c : Channel) (i : Fin 8) : c.started now o = match o with
    | some k => if k.fn = .unassigned then c else { State.reset.dev.piu.channels[i]'i.isLt with
        pin := c.pin, accepted := c.pin, mode := c.mode, phase := if k.mode = .quadrature then .counting else .seeking
        restarted := now }
    | none => c := by
  rw [powerOn_channel]
  cases o with
  | none => rfl
  | some k =>
    unfold Channel.started
    dsimp only
    split
    · rfl
    · cases k.mode <;> rfl

theorem inputLine_started (d : Station) (o : Option LineCfg) (l : InputLine) : l.started d o = match o with
    | some k => { l with
        active := false
        pending := if k.fn ≠ .unused ∧ l.pin ≠ k.activeLow then some { level := true, due := d.now + k.debounce * 1000 } else none }
    | none => l := by
  cases o with
  | none => rfl
  | some k =>
    unfold InputLine.started LineCfg.logical
    dsimp only
    simp only [Bool.and_eq_true, bne_iff_ne]
    split <;> rfl

end Sys2Proof.Machine

open Sys2Proof Sys2Proof.Machine in
/-- Settles O55: CONFIGURE by the fields of the section's table, START by the list of its checks and by what each block leaves. -/
theorem configureStoresSectionsAndStartFreezesThem : Obligations.ConfigureStoresSectionsAndStartFreezesThem := by
  refine ⟨settingsRead, ?_, ?_⟩
  · intro kind inst fields s cmd d after
    refine ⟨fun on => exec_eq (exec_configure _ _ _) (configured_started (d := d) on), fun off => ⟨fun h =>
      exec_eq (exec_configure _ _ _) (configured_unknown (d := d) off h), ?_, ?_, ?_⟩⟩
    · rintro k rfl
      refine ⟨fun short => exec_eq (exec_configure _ _ _) (configured_short (d := d) off short), fun absent =>
        exec_eq (exec_configure _ _ _) (configured_absent (d := d) off absent), fun vs there read => ⟨fun n bad =>
        exec_eq (exec_configure _ _ _) (configured_bad (d := d) off there read bad), fun good => ?_, fun good => ?_⟩⟩
      · exact (configure_good off there read good).1
      · rintro rfl
        have stored := (configure_good off there read good).2
        simp only [true_and] at stored
        exact stored
    · intro cycle multiple rank claim1 claim0 grace hk hi hf claim c1 c2 m1 m2 r l1 l2 g
      subst hf
      obtain rfl : kind = SectionKind.loop.code := hk
      subst hi
      exact (configure_good (k := .loop) (inst := 0) off rfl (readFields_loop ..)
        (firstBad_loop ⟨c1, c2⟩ ⟨m1, m2⟩ r ⟨l1, l2⟩ g)).1 nofun
    · intro k vs v table hk len fits hf
      rw [kindByte_eq] at hk
      subst hk hf
      have read := readFields_spelled len fits
      refine ⟨fun absent => ?_, fun there => ⟨fun before bad later split good fails => ?_, fun good => ?_⟩⟩
      · exact exec_eq (exec_configure _ _ _) (configured_absent (d := d) off
          (Bool.eq_false_iff.2 fun h => absent ((instanceOk_iff k _).1 h)))
      · exact exec_eq (exec_configure _ _ _) (configured_bad (d := d) off ((instanceOk_iff k _).2 there) read
          (firstBad_at len split good fails))
      · obtain ⟨t, run, pending, x, ⟨cfg, modes, rest⟩, answered⟩ :=
          (configure_good off ((instanceOk_iff k _).2 there) read (firstBad_good len good)).2
        refine ⟨t, run, pending, x, ⟨?_, fun i => ?_, ?_⟩, answered⟩
        · rw [cfg]
          exact stored_section _ len there good
        · rw [← pulseModeOf_eq]
          exact modes i
        · rw [rest, cfg]
  · intro s r d refused
    refine ⟨fun on => exec_eq exec_start (if_pos on), fun off => ?_⟩
    have fails := @start_fails s off
    refine ⟨fun h => ?_, fun h1 h => ?_, fun h1 h2 h => ?_, fun h1 h2 h3 h => ?_, fun h1 h2 h3 h4 h => ?_,
      fun f h1 h2 h3 h4 h bad => ?_, fun f fault => start_refused off fault, fun before c later => fails, fun good => ?_⟩
    · exact fails (before := []) rfl nofun fun x => x h
    · exact fails (before := [_]) rfl (by simpa using h1) fun x => x h
    · exact fails (before := [_, _]) rfl (by simpa using ⟨h1, h2⟩) fun x => x h
    · exact fails (before := [_, _, _]) rfl (by simpa using ⟨h1, h2, h3⟩) fun x => x h
    · exact fails (before := [_, _, _, _]) rfl (by simpa using ⟨h1, h2, h3, h4⟩) fun x => x h
    · exact fails (before := [_, _, _, _, _]) rfl (by simpa using ⟨h1, h2, h3, h4, by rw [h]; nofun⟩) fun x => Nat.not_lt.2 bad (x f h)
    · refine start_accepted off good ?_
      intro l sig
      have leaves := acceptStart_leaves d
      obtain ⟨lost, epoch, settings, points, alarm, summary, posted⟩ := acceptStart_alarms d
      have ppt := leaves.ppt
      have lpc := leaves.lpc
      have dou := leaves.dou
      have fdc := leaves.fdc
      have gcc := leaves.gcc
      have piu := leaves.piu
      have sru := leaves.sru
      have bsq := leaves.bsq
      have now := leaves.now
      generalize d.acceptStart = x at *
      refine ⟨ppt, posted, (congrArg Lpc.state lpc :), (congrArg Lpc.watch lpc :), (congrArg (fun l => l.staging.panel) lpc :),
        (congrArg (fun l => l.staging.openShift) lpc :), lost, epoch, settings, ?_, fun i => ?_, fun ch k loaded => ?_,
        fun i k loaded => ?_, fun i => ?_, fun i => ?_, alarm, summary, fun c loaded => ?_, fun duty => ?_,
        fun duty => ?_, (congrArg (fun l => l.staging.closing) lpc :), sru, bsq, now⟩
      · intro i c loaded other there waits
        rw [powerOn_point]
        exact (points i c loaded other).waits waits
      · rw [dou, show (d.startLeaves.dou.lines[i]'i.isLt) = _ from Vector.getElem_ofFn _]
        exact outLine_started _ _
      · rw [fdc, show (d.startLeaves.fdc.channels[ch]'ch.isLt) = _ from Vector.getElem_ofFn _, show (d.cfg.feeds[ch]'ch.isLt) = some k from loaded]
        exact ⟨rfl, rfl, rfl⟩
      · rw [gcc, show (d.startLeaves.gcc.comps[i]'i.isLt) = _ from Vector.getElem_ofFn _, show (d.cfg.comps[i]'i.isLt) = some k from loaded, powerOn_comp]
        rfl
      · rw [piu, show (d.startLeaves.piu.channels[i]'i.isLt) = _ from Vector.getElem_ofFn _]
        exact channel_started _ _ _ _
      · rw [piu, show (d.startLeaves.piu.lines[i]'i.isLt) = _ from Vector.getElem_ofFn _]
        exact inputLine_started _ _ _
      · refine (congrArg (fun l => l.staging.burner) lpc :).trans ?_
        show d.burnerPiece = _
        unfold Station.burnerPiece
        rw [show d.cfg.burner = some c from loaded]
        rfl
      · refine (congrArg (fun l => l.staging.feed) lpc :).trans ?_
        rw [fdc]
        exact if_pos duty
      · refine (congrArg (fun l => l.staging.cooler) lpc :).trans ?_
        rw [gcc]
        exact if_pos duty
end
